-- ==== Sys2Proof/Word.lean ====
section
/-! DEFINITION. The word types of the KBX-960: bytes, register words and the smaller words of its tables. -/

namespace Sys2Proof

/-- One byte of memory. -/
abbrev Byte := BitVec 8

/-- A register, a stack entry, a queue element, a doubleword of memory (R156, R159, R160). -/
abbrev Word := BitVec 64

/-- A 32-bit element, an FP32 pattern, a control-core instruction word. -/
abbrev Word32 := BitVec 32

/-- An engine word (R227), a mask register (R308). -/
abbrev Half := BitVec 16

/-- The number of an x register as an encoding carries it (R219). -/
abbrev Reg := BitVec 5

end Sys2Proof
end

