-- ==== Sys2Proof/Syntax.lean ====
section
/-! DEFINITION. The instructions of the KBX-960: one constructor for each row of the opcode table, and the standard
integer instructions of R225 that have no row. Control-core forms (R221, R225), engine words (R227 to R238), and the
steps of the device, the host and the management path (95). -/

namespace Sys2Proof

/-- The four engines, in the order of their codes (R220). -/
inductive Engine where
  | mx | vx | cx | sx
  deriving DecidableEq, Repr, Inhabited

/-- The access a standard load makes (R225). -/
inductive LoadKind where
  | lb | lh | lw | ld | lbu | lhu | lwu
  deriving DecidableEq, Repr, Inhabited

/-- The access a standard store makes (R225). -/
inductive StoreKind where
  | sb | sh | sw | sd
  deriving DecidableEq, Repr, Inhabited

/-- The operation of an AMO (R225). -/
inductive AmoOp where
  | swap | add | xor | and | or | min | max | minu | maxu
  deriving DecidableEq, Repr, Inhabited

/-- The operation of a CSR access (R226). -/
inductive CsrOp where
  | rw | rs | rc
  deriving DecidableEq, Repr, Inhabited

/-- Register-register operations of RV64I, M, Zba, Zbb and Zicond (R225). -/
inductive IntRR where
  | add | sub | sll | slt | sltu | xor | srl | sra | or | and
  | addw | subw | sllw | srlw | sraw
  | mul | mulh | mulhsu | mulhu | div | divu | rem | remu
  | mulw | divw | divuw | remw | remuw
  | sh1add | sh2add | sh3add | addUw | sh1addUw | sh2addUw | sh3addUw
  | andn | orn | xnor | max | maxu | min | minu | rol | ror | rolw | rorw
  | czeroEqz | czeroNez
  deriving DecidableEq, Repr, Inhabited

/-- Operations with a 12-bit immediate (R225). -/
inductive IntRI where
  | addi | slti | sltiu | xori | ori | andi | addiw
  deriving DecidableEq, Repr, Inhabited

/-- Shifts and rotations by an immediate count (R225). -/
inductive IntShift where
  | slli | srli | srai | rori | slliUw | slliw | srliw | sraiw | roriw
  deriving DecidableEq, Repr, Inhabited

/-- One-operand operations of Zbb (R225). -/
inductive IntUnary where
  | clz | ctz | cpop | clzw | ctzw | cpopw | sextB | sextH | zextH | orcB | rev8
  deriving DecidableEq, Repr, Inhabited

/-- The condition of a branch (R225). -/
inductive BranchCond where
  | beq | bne | blt | bge | bltu | bgeu
  deriving DecidableEq, Repr, Inhabited

/-- How a command of the management path reaches the module: the mailbox of the PF, or the I3C port (R344). The turn of a command says
which. -/
inductive CmdPort where
  | mailbox | i3c
  deriving DecidableEq, Repr, Inhabited

/-- The registers the management path reads and writes (R344), by the rule that lays each out. -/
inductive MgmtReg where
  | dtstat | tstat | domcfg | biststat
  | caps (die : Nat) | schedcfg (die : Nat) | l2part (die : Nat) | rasstat (die : Nat)
  | gdrop (die vf : Nat)
  | ring (die ring word : Nat)
  deriving DecidableEq, Repr, Inhabited

/-- A word of an SRAM array that no address names (R351): a word of a register file, an element of a data queue, a command entry, a
word of an engine's registers, an accumulator element, a word of an engine store. -/
inductive SramWord where
  | x (r : Reg)
  | element (q : BitVec 3) (i : Nat)
  | command (e : Engine) (i : Nat)
  | engineRegs (e : Engine)
  | accumulator (bank : Bool) (i : Nat)
  | storeWord (e : Engine) (a : Nat)
  deriving DecidableEq, Repr, Inhabited

/-- What an ECC or CRC check finds: a corrected error, an uncorrectable one of a line of memory or of an SRAM word of a bank; where
the fault is in DRAM, with word 0 of the entry that describes it (R351, R356). -/
inductive ErrorReport where
  | corrected (die : Nat) (fault : Option Word)
  | poisonLine (pa : Nat) (fault : Option Word)
  | poisonWord (bank : Nat) (w : SramWord)
  deriving DecidableEq, Repr, Inhabited

/-- An uncorrectable error that a consuming read meets: the line it came from, and whether the checkpoint that the rollback needs has one
too (R165, R352, R353). -/
structure PoisonRead where
  line : Nat
  ckpt : Bool
  deriving DecidableEq, Repr, Inhabited

/-- An access of the host to a BAR register: a write of a value or a read, under IDE protection or not (R7, R193, R349). -/
structure BarAccess where
  data : Option Word
  protect : Bool
  deriving DecidableEq, Repr, Inhabited

/-- What an agent of another module does to memory of this one: a read, a write, or an atomic of 4 or 8 bytes (R72, R148). -/
inductive PeerKind where
  | read
  | write (data : List Byte)
  | amo (op : AmoOp) (dbl : Bool) (src : Word)
  | lr (dbl : Bool)
  | sc (dbl : Bool) (src : Word)
  deriving DecidableEq, Repr, Inhabited

/-- An access of an agent of another module, which the number names (R76). -/
structure PeerOp where
  agent : Nat
  kind : PeerKind
  deriving DecidableEq, Repr, Inhabited

/-- An atomic operation of the host on 4 or 8 bytes at an offset of a line (R148). -/
structure HostAtomic where
  off : Nat
  dbl : Bool
  op : AmoOp
  src : Word
  deriving DecidableEq, Repr, Inhabited

/-- The host takes a line from the device's caches, and may perform an atomic on it then (R148, R149). -/
structure Snoop where
  line : Nat
  atomic : Option HostAtomic
  deriving DecidableEq, Repr, Inhabited

/-- What the start sequence's self-test, repair and firmware check find (R360, R361). -/
structure StartReport where
  /-- coremask and chmask of the four dies, as self-test and repair leave them -/
  coremasks : List Nat
  chmasks : List Nat
  /-- the width at which the host link trained -/
  lanes : Nat
  /-- step 1 passed for arrays and links, or failed on a die; Betony's media passed -/
  bistOk : Bool
  failDie : Nat
  mediaOk : Bool
  /-- detail of a failure, for vendor diagnostics -/
  detail : Nat
  deriving DecidableEq, Repr, Inhabited

/-- The instructions: one constructor for each row of the opcode table (the name of the row is the constructor's
mnemonic in LAWS.json), and the standard integer instructions of R225. -/
inductive Instr where
  -- Lomtal scalar forms (R221)
  | xlat (a : Reg) (p : BitVec 4)
  | xlatW (a : Reg) (p : BitVec 4)
  | hinv (p : BitVec 4)
  | hstat (d : Reg) (p : BitVec 4)
  | ldh (d : Reg) (p : BitVec 4) (a : Reg) (c : BitVec 3)
  | sdh (b : Reg) (p : BitVec 4) (a : Reg) (c : BitVec 3)
  | qpush (q : BitVec 3) (a : Reg)
  | qpop (d : Reg) (q : BitVec 3)
  | qpeek (d : Reg) (q : BitVec 3)
  | qlvl (d : Reg) (q : BitVec 3)
  | qwm (e : Engine) (a : Reg)
  | waitt (a : Reg)
  | prm (d a : Reg)
  | ecall (e : Engine) (r : BitVec 13)
  | epush (e : Engine) (a : Reg) (n : BitVec 2)
  | emark (e : Engine) (a : Reg)
  | rdvs (v : BitVec 3) (m : BitVec 4) (a : Reg)
  | rdvw (v : BitVec 3)
  | safept (i : BitVec 12)
  | nsub (d a : Reg)
  | tdone
  | gang (a : Reg)
  | ungang
  | csyncSet (a b : Reg)
  | csyncW (a : Reg)
  | phsw
  | dopen (d a : Reg)
  | dopenW (d a b : Reg)
  | dclose (a : Reg)
  | dbind (d a b : Reg)
  | dunbind (d a : Reg)
  | dbset (d a : Reg)
  | dqry (d a : Reg)
  | pbar (c : BitVec 3)
  | pwb (a : Reg)
  | fenceS (c : BitVec 3)
  | vcfp (d a : Reg)
  | vcrep (a : Reg)
  | vcsync (a : Reg)
  | fqpop (d a : Reg)
  | fqrep (a b : Reg)
  | ergr (d a : Reg)
  -- standard rows (R225)
  | load (w : LoadKind) (d a : Reg) (imm : BitVec 12)
  | store (w : StoreKind) (b a : Reg) (imm : BitVec 12)
  | amo (op : AmoOp) (dbl aq rl : Bool) (d a b : Reg)
  | lr (dbl aq rl : Bool) (d a : Reg)
  | sc (dbl aq rl : Bool) (d a b : Reg)
  | csrAccess (op : CsrOp) (useImm : Bool) (csr : BitVec 12) (d a : Reg)
  | standardEcall
  | ebreak
  | sret
  | wfi
  | sfenceVma (a b : Reg)
  | fence (fm pre suc : BitVec 4) (a d : Reg)
  | fenceTso (a d : Reg)
  | fenceI (imm : BitVec 12) (a d : Reg)
  -- standard integer instructions without a row (R225)
  | intRR (op : IntRR) (d a b : Reg)
  | intRI (op : IntRI) (d a : Reg) (imm : BitVec 12)
  | intShift (op : IntShift) (d a : Reg) (sh : BitVec 6)
  | intUnary (op : IntUnary) (d a : Reg)
  | lui (d : Reg) (imm : BitVec 20)
  | auipc (d : Reg) (imm : BitVec 20)
  | jal (d : Reg) (off : BitVec 20)
  | jalr (d a : Reg) (imm : BitVec 12)
  | branch (k : BranchCond) (a b : Reg) (off : BitVec 12)
  -- common engine words (R227, R230)
  | literal (v : BitVec 15)
  | lix
  | dup
  | drop
  | swap
  | rot
  | rotD
  | loop (l : BitVec 2)
  | endl (l : BitVec 2)
  | lset (k l : BitVec 2)
  | lget (k l : BitVec 2)
  | tokw (e : Engine)
  | tokr (e : Engine)
  | mark
  | call
  | ret
  | nop
  | fsel (f : BitVec 4)
  | qin (q : BitVec 3)
  | qout (q : BitVec 3)
  -- copy words (R231, R232)
  | cpy (p : BitVec 3) (s d g : BitVec 2)
  | cpy2 (p : BitVec 3) (s d g : BitVec 2)
  | cpyz (p : BitVec 3) (d : BitVec 2)
  | gath (p : BitVec 3) (s d g : BitVec 2)
  | scat (p : BitVec 3) (s d : BitVec 2)
  | pfch (p : BitVec 3) (s : BitVec 2)
  | cpyg (p : BitVec 3) (s d : BitVec 2)
  | cpyd (p : BitVec 3) (s d : BitVec 2)
  | fill (p : BitVec 3) (d : BitVec 2)
  | rfeed (p : BitVec 3) (s g : BitVec 2)
  | dln
  -- select words (R233)
  | skey (f : BitVec 4)
  | hist (d : BitVec 2) (f : BitVec 4)
  | selk (f : BitVec 4)
  | selp (f : BitVec 4)
  | cmpk (f : BitVec 4)
  -- vector words of class V (R234 to R236): g predicate, q queue result, s queue source, v variant
  | vadd (g : BitVec 3) (q : Bool) (s : BitVec 2)
  | vsub (g : BitVec 3) (q : Bool) (s : BitVec 2)
  | vmul (g : BitVec 3) (q : Bool) (s : BitVec 2)
  | vfma (g : BitVec 3) (q : Bool) (s : BitVec 2)
  | vmax (g : BitVec 3) (q : Bool) (s : BitVec 2)
  | vmin (g : BitVec 3) (q : Bool) (s : BitVec 2)
  | vabs (g : BitVec 3) (q : Bool) (s : BitVec 2)
  | vneg (g : BitVec 3) (q : Bool) (s : BitVec 2)
  | vcvt (g : BitVec 3) (q : Bool) (s : BitVec 2) (v : BitVec 3)
  | vexp (g : BitVec 3) (q : Bool) (s : BitVec 2)
  | vlog (g : BitVec 3) (q : Bool) (s : BitVec 2)
  | vrcp (g : BitVec 3) (q : Bool) (s : BitVec 2)
  | vrsq (g : BitVec 3) (q : Bool) (s : BitVec 2)
  | vcmp (g : BitVec 3) (q : Bool) (s : BitVec 2) (v : BitVec 3)
  | vsel (g : BitVec 3) (q : Bool) (s : BitVec 2)
  | vred (g : BitVec 3) (q : Bool) (s : BitVec 2) (v : BitVec 3)
  | vscan (g : BitVec 3) (q : Bool) (s : BitVec 2) (v : BitVec 3)
  | vbsr (g : BitVec 3) (q : Bool) (s : BitVec 2)
  | vperm (g : BitVec 3) (q : Bool) (s : BitVec 2)
  | vand (g : BitVec 3) (q : Bool) (s : BitVec 2)
  | vor (g : BitVec 3) (q : Bool) (s : BitVec 2)
  | vxor (g : BitVec 3) (q : Bool) (s : BitVec 2)
  | vshl (g : BitVec 3) (q : Bool) (s : BitVec 2)
  | vshr (g : BitVec 3) (q : Bool) (s : BitVec 2) (v : BitVec 3)
  | vmov (g : BitVec 3) (q : Bool) (s : BitVec 2)
  | vbc (g : BitVec 3) (q : Bool) (s : BitVec 2)
  | vclamp (g : BitVec 3) (q : Bool) (s : BitVec 2)
  | vstub (g : BitVec 3) (q : Bool) (s : BitVec 2)
  | vsoft (g : BitVec 3) (q : Bool) (s : BitVec 2)
  -- vector words of classes D, P and K (R235)
  | dset (n : BitVec 5)
  | dget (n : BitVec 5)
  | pgs (n : BitVec 3)
  | kld (d : BitVec 4)
  | kst (d : BitVec 4)
  | kor (d s : BitVec 4)
  | kand (d s : BitVec 4)
  | kxor (d s : BitVec 4)
  | knot (d s : BitVec 4)
  | kbitTst (d : BitVec 4)
  | kbitSet (d : BitVec 4)
  | kbitClr (d : BitVec 4)
  | kpop (d : BitVec 4)
  | kget (d : BitVec 4)
  | kset (d : BitVec 4)
  -- matrix words (R237, R238): r ring pairing, c accumulate control, b bank, f entry, l loop counter
  | mm (r c : BitVec 2) (b : Bool) (f : BitVec 4) (l : BitVec 2)
  | mml (r c : BitVec 2) (b : Bool) (f : BitVec 4) (l : BitVec 2)
  | mmm (r c : BitVec 2) (b : Bool) (f : BitVec 4) (l : BitVec 2)
  | mpb
  | acco (b : Bool) (f : BitVec 4)
  | accz (b : Bool)
  | accg (b : Bool)
  | rng (g : BitVec 2)
  | fte (n : BitVec 4)
  | draw (b : Bool)
  -- submission, scheduling and energy (11)
  | notify (vf off : Nat) (a : BarAccess)
  | cowslipAccept (die : Nat)
  | ringIdleTimeout (die ring : Nat)
  | schedulerVisit (die level : Nat) (places : List Nat)
  | agingTick (die nest : Nat)
  | speedwellWindow (die : Nat)
  | heatThrottle (core cycles : Nat)
  -- pre-emption (10)
  | preemptionRequest (bank : Nat)
  | forcedSave (bank : Nat)
  | contextResume (saved : Nat)
  -- translation (02, 10, 19)
  | pageWalkEnd (bank ph ver : Nat)
  | faultRecordAlloc (bank agent : Nat)
  | iqInvalidate
  | flipRequest
  | flipAck
  | invalidationComplete
  -- time (03, 05, 08)
  | promiseMissed (bank n promise : Nat)
  | waittWake (bank : Nat)
  | dopenWTimeout (bank : Nat)
  | reclaimRetry (slot : Nat)
  | lrReservationExpiry (bank : Nat)
  -- engines (03, 07, 08, 09)
  | copyComplete (bank : Nat)
  | markerRetire (bank : Nat) (e : Engine)
  | phaseCommit (bank : Nat)
  | checkedEntryIssue (bank : Nat) (e : Engine)
  | yarrowMismatch (bank : Nat)
  -- the durable tier (04)
  | durableAccept (i : Nat)
  | mediaWrite
  | powerLoss (drained : Nat)
  | startSequence (r : StartReport)
  -- links and outside accesses (08, 19)
  | hostLinkDown
  | hostLinkUp
  | peerLinkDown (m : Nat)
  | hostMemAccess (off len : Nat) (data : Option (List Byte))
  | peerAccess (pa len : Nat) (a : PeerOp)
  -- reliability (20)
  | errorDetected (r : ErrorReport)
  | poisonConsume (bank : Nat) (p : PoisonRead)
  -- the management path (19)
  | regRead (r : MgmtReg)
  | regWrite (r : MgmtReg) (v : Word)
  | l2partWrite (die : Nat) (v : Word)
  | flashLoad (off : Nat) (data : List Byte)
  | quiesce
  | linkrecAccept (die : Nat)
  | linkrecDiscard (die : Nat)
  | linklog (die : Nat)
  | rsvdRead (off len : Nat)
  | fwStage (image : List Byte)
  | fwActivate
  | registerWrite (off : Nat) (v : Option Word)
  | vfEnable (vf : Nat)
  | vfReset (vf : Nat)
  | flr (vf : Nat)
  | lockInterface (vf : Nat)
  | startInterface (vf : Nat)
  | stopInterface (vf : Nat)
  | getMeasurements
  | tstatLockChange (err : BitVec 16) (ref : Bool)
  | holdUpEnergyArming (armed : Bool)
  | peerLinkUp (m : Nat)
  | hostSnoop (n : Snoop)
  | fenceSWaitEnd (bank : Nat)
  | spdmKeyExchange
  | ideKm (port : Nat) (key : BitVec 256)
  deriving DecidableEq, Repr, Inhabited

end Sys2Proof
end

