-- ==== Sys2Proof/Config.lean ====
section
/-! DEFINITION. What the spec leaves open and the model leaves free: constants with no body, so that no proof can see a
value of one. Each is applied to the tick counter of the state, or to the operands it depends on (log 9). -/

namespace Sys2Proof.Config

/-- A 64-bit value the spec leaves undefined, one for each tick and each use within the tick (log 9). -/
opaque freeWord : Nat → Nat → Word

/-- The contents of a byte whose contents the spec calls undefined: the tick at which they became undefined, and the
address (log 9). -/
opaque freeByte : Nat → Nat → Byte

/-- Which entry of a full TLB of the given size leaves it (R34; log 10). -/
opaque tlbVictim : Nat → Nat → Nat

/-- The agent that moves when the schedule holds no turn, as a global number below 960: a control core or an engine of a
bank (log 1). -/
opaque turnAgent : Nat → Nat

/-- The cycles that pass before that turn (log 1). -/
opaque turnCycles : Nat → Nat

/-- The public key whose SHA-256 digest is fused: modulus and exponent (R350; log 11). -/
opaque fwKey : Nat × Nat

/-- The firmware image that the module leaves manufacture with (R350; log 11). -/
opaque factoryImage : List Byte

/-- The boot ROM, and the fuse and repair state of each die as a measurement block lays it out: the fused minimum security version, CAPS
of each die, the repairs burnt and the channels retired (R349; log 11). -/
opaque bootRom : List Byte
opaque fuseBlock : Nat → List Nat → List Nat → List Nat → List Byte

/-- The certificates of slot 0, the device identity chain, whose leaf key is an RSA-3072 key from the fuses (R349; log 11). -/
opaque identityChain : List Byte

/-- Whether the die of a pending-list entry has a spare left for it, after the repairs burnt so far (R357; log 11). -/
opaque spareLeft : List Nat → Nat → Bool

/-- The 64-byte lines of the row that a pending-list entry names (R357; log 11). -/
opaque rowLines : Nat → List Nat

/-- The session secret that a key exchange of SPDM agrees (R349; log 11). -/
opaque sessionKey : Nat → BitVec 256

/-- The hash that spreads physical addresses over slices, as it is not architectural (R55; log 8). -/
opaque sliceHash : Nat → Nat

end Sys2Proof.Config
end

