-- ==== Sys2Proof/Machine/Sparse.lean ====
section
/-! DEFINITION. Sparse maps from natural numbers, as lists of key and value in rising order of keys, and the memory of
bytes in its canonical form. -/

namespace Sys2Proof.Machine

/-- A sparse map: the keys it does not list hold a default that the reader names. -/
abbrev PMap (α : Type) := List (Nat × α)

/-- The value at a key. -/
def PMap.get {α : Type} (d : α) : PMap α → Nat → α
  | [], _ => d
  | (j, v) :: t, k => if j = k then v else PMap.get d t k

/-- The value at a key, if the map lists one. -/
def PMap.find {α : Type} : PMap α → Nat → Option α
  | [], _ => none
  | (j, v) :: t, k => if j = k then some v else PMap.find t k

/-- The map with the value at one key replaced. -/
def PMap.put {α : Type} : PMap α → Nat → α → PMap α
  | [], k, v => [(k, v)]
  | (j, w) :: t, k, v => if j = k then (k, v) :: t else if k < j then (k, v) :: (j, w) :: t else (j, w) :: PMap.put t k v

/-- The map without one key. -/
def PMap.erase {α : Type} (m : PMap α) (k : Nat) : PMap α := m.filter (fun e => e.1 ≠ k)

/-- A range of addresses whose unlisted bytes are zero, or are undefined since a tick. -/
structure Blank where
  lo : Nat
  hi : Nat
  /-- the tick since which the contents are undefined; none: zero -/
  since : Option Nat
  deriving DecidableEq, Repr, Inhabited

/-- The memory of bytes: the listed cells, and the ranges that were blanked, the latest first. -/
structure Mem where
  cells : List Host.Cell
  blanks : List Blank
  deriving DecidableEq, Repr, Inhabited

/-- Nothing is listed: every byte reads zero (log 2). -/
def Mem.empty : Mem := ⟨[], []⟩

/-- What an unlisted address reads as: zero, or an undefined byte where the spec calls the contents undefined (log 2). -/
def Mem.base (m : Mem) (a : Nat) : Byte :=
  match m.blanks.find? (fun b => b.lo ≤ a && a < b.hi) with
  | some ⟨_, _, some t⟩ => Config.freeByte t a
  | _ => 0#8

/-- The byte at an address. -/
def Mem.get (m : Mem) (a : Nat) : Byte := PMap.get (m.base a) m.cells a

/-- The memory with one byte written; the byte that an unlisted address reads as is not listed. -/
def Mem.set (m : Mem) (a : Nat) (v : Byte) : Mem :=
  if v = m.base a then { m with cells := PMap.erase m.cells a } else { m with cells := PMap.put m.cells a v }

/-- Rising addresses. -/
def Mem.sorted : List Host.Cell → Bool
  | [] => true
  | [_] => true
  | (a, _) :: (b, w) :: t => decide (a < b) && Mem.sorted ((b, w) :: t)

/-- The canonical form: addresses strictly rising, and no entry equal to what an unlisted address reads as. -/
def Mem.wf (m : Mem) : Bool := Mem.sorted m.cells && m.cells.all (fun e => e.2 != m.base e.1)

/-- The bytes of a range become zero, or undefined since a tick. -/
def Mem.blank (m : Mem) (lo hi : Nat) (since : Option Nat) : Mem :=
  if since.isNone && !(m.blanks.any (fun b => b.lo < hi && lo < b.hi)) then
    { m with cells := m.cells.filter (fun e => !(lo ≤ e.1 && e.1 < hi)) }
  else
    { cells := m.cells.filter (fun e => !(lo ≤ e.1 && e.1 < hi)), blanks := ⟨lo, hi, since⟩ :: m.blanks }

/-- The contents of a range, apart from the rest. -/
def Mem.clip (m : Mem) (lo hi : Nat) : Mem :=
  { cells := m.cells.filter (fun e => lo ≤ e.1 && e.1 < hi)
    blanks := (m.blanks.filter (fun b => b.lo < hi && lo < b.hi)).map (fun b => ⟨max lo b.lo, min hi b.hi, b.since⟩) }

/-- The memory with a range as it was clipped before. -/
def Mem.graft (m : Mem) (lo hi : Nat) (old : Mem) : Mem :=
  let m := m.blank lo hi none
  let old := old.clip lo hi
  old.cells.foldl (fun m e => m.set e.1 e.2) { m with blanks := old.blanks ++ m.blanks }

/-- A byte is undefined: no cell lists it, and the latest range of its address is one whose contents are. -/
def Mem.undefinedAt (m : Mem) (a : Nat) : Bool :=
  (PMap.find m.cells a).isNone && ((m.blanks.find? (fun b => b.lo ≤ a && a < b.hi)).bind (·.since)).isSome

/-- The bytes of a range that are undefined take the values that they had before. -/
def Mem.mend (m : Mem) (lo hi : Nat) (old : Mem) : Mem :=
  if m.blanks.any (fun b => b.since.isSome && b.lo < hi && lo < b.hi) then
    ((List.range (hi - lo)).filter (fun i => m.undefinedAt (lo + i))).foldl (fun t i => t.set (lo + i) (old.get (lo + i))) m
  else m

/-- `n` bytes from an address, the lowest first. -/
def Mem.read (m : Mem) (a : Nat) : Nat → List Byte
  | 0 => []
  | n + 1 => m.get a :: m.read (a + 1) n

/-- Bytes written from an address on. -/
def Mem.write (m : Mem) (a : Nat) : List Byte → Mem
  | [] => m
  | b :: bs => (m.set a b).write (a + 1) bs


/-- The little-endian value of bytes (R219, R227). -/
def leNat : List Byte → Nat
  | [] => 0
  | b :: bs => b.toNat + 256 * leNat bs

/-- The `n` bytes of a value, the lowest first. -/
def leBytes : Nat → Nat → List Byte
  | 0, _ => []
  | n + 1, v => BitVec.ofNat 8 v :: leBytes n (v / 256)

/-- A bit field of a natural number, `n` bits from bit `lo`. -/
def bits (v lo n : Nat) : Nat := v / 2 ^ lo % 2 ^ n

/-- One bit of a natural number. -/
def bit (v i : Nat) : Bool := v / 2 ^ i % 2 = 1

/-- A list with one element replaced. -/
def setAt {α : Type} (l : List α) (i : Nat) (v : α) : List α := l.set i v

/-- The value of a Boolean as a bit. -/
def b2n (b : Bool) : Nat := if b then 1 else 0

end Sys2Proof.Machine
end

