-- ==== Sys2Proof/Machine/State.lean ====
section
/-! DEFINITION. The state of the KBX-960 as plain data: the control cores, engines and queues of the context banks, the
translation and fault structures, the units of the dies, the host's registers, and the agents' schedule. -/

namespace Sys2Proof.Machine

/-! ### The control core's part of a bank (R160, R175, R257) -/

/-- U-mode or S-mode (R155). -/
inductive Priv where
  | user | super
  deriving DecidableEq, Repr, Inhabited

/-- The S-mode registers (R175, R226) that a bank holds. -/
structure Csrs where
  sstatus : Word
  sie : Word
  sip : Word
  stvec : Word
  scounteren : Word
  sscratch : Word
  sepc : Word
  scause : Word
  stval : Word
  satp : Word
  deriving DecidableEq, Repr, Inhabited

/-- UXL = 2 in `sstatus`, the RISC-V value for a 64-bit U-mode (log 4). -/
def sstatusReset : Word := 0x0000000200000000#64

/-- The S-mode registers before a task starts in the bank (log 3, log 4). -/
def Csrs.init : Csrs :=
  { sstatus := sstatusReset, sie := 0, sip := 0, stvec := 0, scounteren := 0, sscratch := 0, sepc := 0, scause := 0,
    stval := 0, satp := 0 }

/-- The state of a handle version (R36). -/
inductive HState where
  | empty | pending | valid | revoked
  deriving DecidableEq, Repr, Inhabited

/-- The rights and attributes of a leaf, as a TLB entry or a handle keeps them (R29, R34, R36). -/
structure Leaf where
  /-- first virtual and first physical address of the page -/
  va : Nat
  pa : Nat
  /-- page level: 0, 1, 2 for 4 KiB, 2 MiB, 1 GiB -/
  level : Nat
  /-- physical address of the leaf itself, for D (R31) -/
  pte : Nat
  r : Bool
  w : Bool
  x : Bool
  u : Bool
  g : Bool
  owner : Bool
  durable : Bool
  hostHomed : Bool
  ctxseg : Bool
  dirty : Bool
  /-- effective ceiling: ceiling, PBMT and region together (R33) -/
  ceil : Nat
  /-- PBMT = IO (R146) -/
  io : Bool
  deriving DecidableEq, Repr, Inhabited

/-- One version of a page handle (R36 to R38). -/
structure HVer where
  id : Nat
  state : HState
  cause : Nat
  /-- the virtual page the version was made from -/
  vpage : Nat
  asid : Nat
  wint : Bool
  /-- DOMCFG as the walk of the version began (R37, R375) -/
  domcfg : Word
  leaf : Leaf
  deriving DecidableEq, Repr, Inhabited

/-- A page that is not known. -/
def Leaf.none : Leaf :=
  { va := 0, pa := 0, level := 0, pte := 0, r := false, w := false, x := false, u := false, g := false, owner := false,
    durable := false, hostHomed := false, ctxseg := false, dirty := false, ceil := 0, io := false }

/-- The empty version (R36, R170). -/
def HVer.empty (id : Nat) : HVer :=
  { id := id, state := .empty, cause := 0, vpage := 0, asid := 0, wint := false, domcfg := 1, leaf := Leaf.none }

/-- A page handle: the current version first, then older ones that commands may still use (R38). -/
structure Handle where
  cur : HVer
  old : List HVer
  deriving DecidableEq, Repr, Inhabited

/-- The state of a rendezvous register (R252). -/
inductive RvState where
  | unarmed | armed | fired
  deriving DecidableEq, Repr, Inhabited

/-- A rendezvous register (R132, R252). -/
structure Rv where
  state : RvState
  mask : BitVec 4
  n : BitVec 32
  deriving DecidableEq, Repr, Inhabited

def Rv.init : Rv := { state := .unarmed, mask := 0, n := 0 }

/-- What a checkpoint takes of the control core, and a bank holds of it (R160, R257). -/
structure CoreRegs where
  x : Vector Word 32
  pc : Word
  priv : Priv
  csr : Csrs
  ph : Vector Handle 16
  rv : Vector Rv 8
  deriving DecidableEq, Repr

/-- Sixteen empty handles whose versions are numbered from `n` on (R38, R170). -/
def freshHandles (n : Nat) : Vector Handle 16 := Vector.ofFn (fun i => ⟨HVer.empty (n + i.val), []⟩)

/-- The control core of a bank that holds no task yet (log 3). -/
def CoreRegs.init : CoreRegs :=
  { x := Vector.replicate 32 0, pc := 0, priv := .user, csr := Csrs.init,
    ph := freshHandles 1, rv := Vector.replicate 8 Rv.init }

/-! ### Engines (R156 to R159) -/

/-- One hardware loop level (R158, R264). -/
structure LoopReg where
  lc : BitVec 32
  ls : Nat
  le : Nat
  sls : Option Nat
  sle : Option Nat
  active : Bool
  deriving DecidableEq, Repr, Inhabited

def LoopReg.init : LoopReg := { lc := 0, ls := 0, le := 0, sls := none, sle := none, active := false }

/-- A matrix ring (R313, R314). -/
structure Ring where
  base : Nat
  size : Nat
  slots : Nat
  head : Nat
  tail : Nat
  /-- the filled slots from the head on, each by the phase of the copy word that filled it (R257) -/
  full : List Nat
  reserved : Nat
  deriving DecidableEq, Repr, Inhabited

def Ring.init : Ring := { base := 0, size := 0, slots := 0, head := 0, tail := 0, full := [], reserved := 0 }

/-- The filled count. -/
def Ring.filled (g : Ring) : Nat := g.full.length

/-- An accumulator bank: element i × 96 + j, +0.0 where not listed, or undefined since a tick (R116 step 4). -/
structure Acc where
  cells : PMap Word32
  junk : Option Nat
  deriving DecidableEq, Repr, Inhabited

def Acc.init : Acc := { cells := [], junk := none }

/-- A region register (R288). -/
structure Region where
  base : Word
  geom : Word
  deriving DecidableEq, Repr, Inhabited

/-- A stage predicate (R292). -/
structure StagePred where
  pattern : BitVec 16
  limit : BitVec 16
  deriving DecidableEq, Repr, Inhabited

/-- The cursor of a lane's stream and its window of words already read (R299). -/
structure Stream where
  cursor : Nat
  window : List (Nat × Word32)
  deriving DecidableEq, Repr, Inhabited

/-- The registers of one engine, as a checkpoint takes them (R156, R257). An engine uses those of its kind: rings, formats,
mask, γ and accumulators are `mx`'s; regions, predicates, masks and streams `vx`'s; the deadline `cx`'s. -/
structure EngRegs where
  /-- micro-PC of the routine word in execution; none: idle (R156) -/
  upc : Option Nat
  rstack : List Nat
  /-- parameter stack, top first (R156) -/
  pstack : List Word
  loops : Vector LoopReg 3
  /-- retired-marker number; none at the start of a task (R131) -/
  marker : Option (BitVec 32)
  /-- current element format (R269) -/
  fmt : Nat
  /-- pending deadline (R273) -/
  deadline : Word
  rings : Vector Ring 4
  ftab : Vector Word 16
  /-- mask block and loaded bit (R322) -/
  mask : Option (List Byte)
  gamma0 : Word32
  gamma1 : Word32
  acc0 : Acc
  acc1 : Acc
  regions : Vector Region 32
  /-- pg1 to pg7; the first entry is pg0, always on (R292) -/
  pg : Vector StagePred 8
  /-- k0 to k15 (R308); k15 holds the sticky flags (R296) -/
  k : Vector Half 16
  streams : PMap Stream
  bsrPair : Option Nat
  deriving DecidableEq, Repr

/-- +1.0 (R313). -/
def fp32One : Word32 := 0x3F800000#32

/-- An engine at the start of a task (R170, R292, R313). -/
def EngRegs.init : EngRegs :=
  { upc := none, rstack := [], pstack := [], loops := Vector.replicate 3 LoopReg.init, marker := none, fmt := 0,
    deadline := 0, rings := Vector.replicate 4 Ring.init, ftab := Vector.replicate 16 0, mask := none,
    gamma0 := fp32One, gamma1 := fp32One, acc0 := Acc.init, acc1 := Acc.init,
    regions := Vector.replicate 32 ⟨0, 0⟩, pg := Vector.replicate 8 ⟨0xFFFF#16, 0xFFFF#16⟩,
    k := Vector.replicate 16 0, streams := [], bsrPair := none }

/-- What a command entry is (R157, R249 to R251), or a phase boundary behind the last word (R152). -/
inductive CmdKind where
  | word (w : Half)
  | call (a : Nat)
  | marker (n : BitVec 32)
  | boundary (phase : Nat)
  deriving DecidableEq, Repr, Inhabited

/-- A command entry with the handle versions it was pushed with (R38). -/
structure Cmd where
  kind : CmdKind
  vers : List Nat
  /-- its SRAM word is poisoned (R351) -/
  bad : Bool
  deriving DecidableEq, Repr, Inhabited

/-- What an access that stopped waits for: a fault record (R186), a free slot of the fault queue (R181), or the link
(R177, R348). -/
inductive Waiter where
  /-- on a record; the handle version to walk again, 0 for none (R244) -/
  | record (die idx ver : Nat)
  | alloc (va code access ver : Nat)
  /-- on the link; the handle version to walk again, 0 for none (log 110) -/
  | link (ver : Nat)
  deriving DecidableEq, Repr, Inhabited

/-- Which of the three multiply words (R318). -/
inductive MulKind where
  | mm | mml | mmm
  deriving DecidableEq, Repr, Inhabited

/-- A multiply word in execution: its modifiers, and the format entry it read at issue (R214, R319). -/
structure MulJob where
  kind : MulKind
  rings : BitVec 2
  start : BitVec 2
  bank : Bool
  entry : Word
  deriving DecidableEq, Repr, Inhabited

/-- A stopped word: its operands, its progress and what it waits for (R180). -/
structure Stopped where
  ops : List Word
  done : Nat
  /-- values the word keeps between requests -/
  vals : List Nat
  /-- the word is a multiply word between slot pairs (R319) -/
  mul : Option MulJob
  /-- the tick in which the word began, which marks its durable stores as one word's (R76) -/
  began : Nat
  waiter : Option Waiter
  deriving DecidableEq, Repr, Inhabited

/-- One request of a copy word: source, destination and what is moved (R274). -/
inductive Req where
  /-- bytes from a source address to a destination address -/
  | move (src dst : Word) (len : Nat)
  /-- bytes of a value -/
  | put (dst : Word) (data : List Byte)
  /-- a line to place in L2 (R281) -/
  | place (src : Word) (len : Nat)
  /-- a whole guarded copy (R279) -/
  | guarded (len : Nat) (g : Half) (guard src dst : Word)
  /-- the header of a packed tensor, checked against the last group wanted (R278) -/
  | header (last : Nat) (src : Word)
  /-- one group of a packed tensor (R278) -/
  | group (j : Nat) (src pdst sdst : Word)
  /-- a further slot of an `rfeed`: it waits for a free slot (R277) -/
  | slotWait (ring : Nat)
  /-- the slot at the tail of the ring is complete (R276) -/
  | slotDone (ring : Nat)
  deriving DecidableEq, Repr, Inhabited

/-- The kind of a copy operand (R271). -/
inductive OpKind where
  | handle | loc | slice | ring
  deriving DecidableEq, Repr, Inhabited

/-- A copy word that has issued and is not complete (R64, R274). -/
structure Flight where
  n : Nat
  srcKind : OpKind
  dstKind : OpKind
  pol : Nat
  /-- requests not yet complete, in request order -/
  reqs : List Req
  done : Nat
  /-- a `cpyd`, complete only once its writes are persistent (R81) -/
  persist : Bool
  /-- durable stores it made -/
  stores : List Nat
  /-- lines of domain memory it wrote (R67) -/
  lines : List Nat
  vers : List Nat
  phase : Nat
  /-- the tick in which it issued (R76) -/
  tick : Nat
  waiter : Option Waiter
  deriving DecidableEq, Repr, Inhabited

/-- A domain write that a marker has released: the marker's number, the phase of the write until that has committed, its line
and its window (R131, R143, R152). -/
structure Release where
  marker : BitVec 32
  phase : Option Nat
  line : Nat
  window : Nat
  deriving DecidableEq, Repr, Inhabited

/-- One engine of a bank: its registers, its command queue and the entry in execution (R157, R159). -/
structure Eng where
  regs : EngRegs
  queue : List Cmd
  /-- the entry that has issued -/
  entry : Option Cmd
  stopped : Option Stopped
  /-- a `mark` word that has not retired (R267) -/
  mark : Option (BitVec 32)
  /-- number of phase boundaries passed -/
  phase : Nat
  watermark : Nat
  /-- the word in execution cannot go on by itself: it has stopped in a drain (R179) -/
  waited : Bool
  /-- domain writes that no marker covers yet: phase and line (R143, R144) -/
  domWrites : List (Nat × Nat)
  /-- domain writes that markers have released (R131, R146) -/
  released : List Release
  /-- elements at the head of each data queue towards the engine whose copy has been compared (R162); at key 8, the entries of
  its command queue that a bank switch or a save has compared -/
  checked : PMap Nat
  deriving DecidableEq, Repr

def Eng.init : Eng :=
  { regs := EngRegs.init, queue := [], entry := none, stopped := none, mark := none, phase := 0, watermark := 0, waited := false,
    domWrites := [], released := [], checked := [] }

/-- An element of a data queue (R245, R246), with the phase of its producer (R257). -/
structure Elem where
  value : Word
  valid : Bool
  phase : Nat
  /-- its SRAM word is poisoned (R351) -/
  bad : Bool
  deriving DecidableEq, Repr, Inhabited

/-- The promise-ring entry of a copy word (R65, R66). -/
inductive PromState where
  | fallback | complete | waiting | promised
  deriving DecidableEq, Repr, Inhabited

structure Prom where
  n : Nat
  state : PromState
  time : Nat
  /-- the promise was read by `prm` since it was last made (R69) -/
  read : Bool
  /-- the word has raised promise-missed -/
  trapped : Bool
  deriving DecidableEq, Repr, Inhabited

/-- A byte of a phase buffer written and not yet committed (R153, R255). -/
structure Held where
  phase : Nat
  addr : Nat
  val : Byte
  deriving DecidableEq, Repr, Inhabited

/-- A checkpoint of a bank (R257): the parts taken so far of the phase it begins. -/
structure Ckpt where
  phase : Nat
  core : CoreRegs
  /-- each engine's part, once it has reached the boundary -/
  eng : PMap EngRegs
  /-- each data queue and token FIFO, once its consumer has reached the boundary -/
  dq : PMap (List Elem)
  tok : PMap (List Nat)
  /-- the bytes of the local spans of its region registers, once the vector engine has reached the boundary (R310) -/
  spans : Option (List (Nat × Nat × Mem))
  /-- the engine whose queue-low interrupt was pending, as `sip` shows it (R258) -/
  low : Option Engine
  deriving DecidableEq, Repr

/-- The task a bank holds (R168, R170). -/
structure Task where
  nest : Nat
  k : Nat
  j : Nat
  vf : Nat
  asid : Nat
  base : Nat
  /-- effective level at hand-out (R198) -/
  level : Nat
  cobank : Bool
  /-- lowest core of the group and its size (R168) -/
  group0 : Nat
  gsize : Nat
  /-- estimate at hand-out, which the group's lowest core carries, and energy charged to this member (R199, R202) -/
  est : Nat
  energy : Nat
  /-- the energy already charged at the latest hand-out of the task (R198, R199) -/
  energy0 : Nat
  started : Nat
  /-- this member has executed `tdone` (R171) -/
  ended : Bool
  deriving DecidableEq, Repr, Inhabited

/-- A gang that has formed, or that waits to form (R173). -/
structure Gang where
  mask : BitVec 8
  /-- members, as banks, the leader first -/
  members : List Nat
  formed : Bool
  deriving DecidableEq, Repr, Inhabited

/-- A load reservation: line, width, and the cycle of the LR on a domain line (R149). -/
structure Resv where
  addr : Nat
  size : Nat
  value : Nat
  time : Nat
  domain : Bool
  deriving DecidableEq, Repr, Inhabited

/-- What the control core waits in, where an event or a later step must know it (R178, R187). -/
inductive Wait where
  | none
  | waitt (t : Nat)
  | dopenW (deadline : Nat)
  | fenceS (k : Nat)
  /-- the domain fence of an atomic with rl (R147) -/
  | fenceRl (k : Nat)
  | pbar (ids : List Nat) (bank : Bool)
  | wfi
  | gang
  deriving DecidableEq, Repr, Inhabited

/-- A use of a handle that waits for the walk of a version: the version, the virtual address of its first byte, its access bits
(R39, R181). -/
structure WalkUse where
  ver : Nat
  va : Nat
  acc : Nat
  deriving DecidableEq, Repr, Inhabited

/-- The domain writes of a copy word that a `prm` acquires: the word, the phase it belongs to, whether a marker or a commit
has covered it, whether a `prm` has acquired it, and its lines with their windows (R67, R143, R146). -/
structure CopyDom where
  n : Nat
  phase : Nat
  covered : Bool
  acquired : Bool
  lines : List (Nat × Nat)
  deriving DecidableEq, Repr, Inhabited

/-- A word of the register files of a bank that is poisoned (R351). -/
inductive Mark where
  | x (r : Reg)
  | regs (e : Engine)
  | acc (bank : Bool) (element : Nat)
  deriving DecidableEq, Repr, Inhabited

/-- What the drain of a bank or of its gang ends in: the trap of a synchronous exception, the trap that is due at an instruction boundary, a
switch of the core, a save, the context fault of a `vstub`, the end of the nest for an illegal word of an engine (R116, R175, R177 to R179,
R189, R229). -/
inductive Drain where
  | none
  | trap (scause tval : Nat)
  | due
  | switch
  | save
  | fault
  | ends (e : Engine) (cause : Nat)
  deriving DecidableEq, Repr, Inhabited

/-- A context bank (R160). -/
structure Bank where
  task : Option Task
  /-- the task's image is still being loaded (R167) -/
  loading : Bool
  /-- the image is loaded for a context that resumes (R190) -/
  resuming : Bool
  /-- a drain that has begun and is not over (R179) -/
  draining : Drain
  /-- a save that has begun and waits for persistence: forced, or under the map named (R82, R189) -/
  saving : Option (Option Nat)
  core : CoreRegs
  instret : Nat
  sbstall : Nat
  prmiss : Nat
  fbcnt : Nat
  thrcyc : Nat
  eng : Vector Eng 4
  dq : Vector (List Elem) 8
  vbit : Vector Bool 8
  /-- token FIFOs, 4 × from + to: the producer's phase of each token (R266) -/
  tok : PMap (List Nat)
  flights : List Flight
  proms : PMap Prom
  nextWord : Nat
  /-- phases committed (R256), and the control core's open phase -/
  committed : Nat
  phase : Nat
  held : List Held
  ckpts : List Ckpt
  /-- the line whose consumption cancelled a phase last, by phase (R353) -/
  poison : PMap Nat
  /-- mismatches in a row, by phase (R353) -/
  mismatches : PMap Nat
  /-- a comparison that a consumption's rollback has cut short may still report its mismatch (R354) -/
  misOpen : Bool
  /-- the irrevocable form in execution has waited, and the open phase has committed for it (R259) -/
  issued : Bool
  /-- rollbacks of the bank (R258, R260) -/
  cancels : Nat
  /-- poisoned words of its register files (R351) -/
  marks : List Mark
  /-- uses of handles that wait for a walk, by agent as in R182 (R39, R181) -/
  uses : PMap WalkUse
  gang : Option Gang
  wait : Wait
  waiter : Option Waiter
  resv : Option Resv
  preempt : Option Nat
  /-- promise-missed and context-fault traps due at the next boundary (R69, R122) -/
  missDue : List Nat
  ctxDue : Option Nat
  /-- the engine whose queue-low interrupt is pending (R161, R178) -/
  lowDue : Option Engine
  /-- the last window of the domain writes issued or acquired, by line (R146) -/
  dom : PMap Nat
  /-- the same of the bank's committed phases, acquired by `vcsync` and released with later markers (R152) -/
  phaseDom : PMap Nat
  /-- durable stores covered by the latest `pbar` (R79) -/
  barred : List Nat
  /-- durable stores of commands that the bank pushed to the engines of a gang which has ended (R79, R262) -/
  pushed : List Nat
  /-- domain writes performed by copy words (R67) -/
  copyDom : List CopyDom
  nextVer : Nat
  deriving DecidableEq, Repr

/-- A bank that holds no task, and has held none (log 3). -/
def Bank.init : Bank :=
  { task := none, loading := false, resuming := false, draining := .none, saving := none, core := CoreRegs.init
    instret := 0, sbstall := 0, prmiss := 0, fbcnt := 0, thrcyc := 0
    eng := Vector.replicate 4 Eng.init, dq := Vector.replicate 8 [], vbit := Vector.replicate 8 true,
    tok := [], flights := [], proms := [], nextWord := 0, committed := 0, phase := 0, held := [], ckpts := [],
    poison := [], mismatches := [], misOpen := false, issued := false, cancels := 0, marks := [], uses := [], gang := none
    wait := .none, waiter := none, resv := none, preempt := none
    missDue := [], ctxDue := none, lowDue := none, dom := [], phaseDom := [], barred := [], pushed := [], copyDom := [], nextVer := 17 }

/-! ### Cores, dies, virtual functions -/

/-- A TLB entry: its tags and the leaf (R34). -/
structure TlbEntry where
  vf : Nat
  asid : Nat
  leaf : Leaf
  deriving DecidableEq, Repr, Inhabited

/-- A core, beside its banks (R156, R160). -/
structure CoreSt where
  active : Nat
  /-- engine stores of mx, vx, cx, sx: the words of the loaded image; a word not listed is 0x0000 (R223) -/
  store : Vector (List Half) 4
  /-- the address of the image whose load filled the stores (R167) -/
  image : Option Nat
  maps : List (Nat × Nat)
  tlb : List TlbEntry
  prevVf : Option Nat
  energy : Nat
  failed : Bool
  /-- poisoned words of the engine stores: engine and address (R351) -/
  marks : List (Nat × Nat)
  /-- the `upc` recorded for the core's latest illegal word (R229) -/
  illegalUpc : Option Nat
  deriving DecidableEq, Repr

def CoreSt.init : CoreSt :=
  { active := 0, store := Vector.replicate 4 [], image := none, maps := [], tlb := [], prevVf := none, energy := 0,
    failed := false, marks := [], illegalUpc := none }

/-- A fault record (R182). -/
structure FaultRec where
  va : Nat
  vf : Nat
  asid : Nat
  code : Nat
  access : Nat
  dups : Nat
  state : Nat
  core : Nat
  bank : Nat
  agent : Nat
  stamp : Nat
  deriving DecidableEq, Repr, Inhabited

/-- A submission ring as the die holds it: its ring-table entry (R191), state, and the cycle from which its idle time counts (R194). -/
structure SubRing where
  w0 : Word
  w1 : Word
  active : Bool
  pending : Bool
  timer : Nat
  deriving DecidableEq, Repr, Inhabited

def SubRing.init : SubRing := { w0 := 0, w1 := 0, active := false, pending := false, timer := 0 }

/-- A held line of host-homed memory: address, its bytes at the loss, and the VF (R150, R348). -/
structure HeldLine where
  line : Nat
  data : List Byte
  vf : Nat
  deriving DecidableEq, Repr, Inhabited

/-- A die's units: fault queue, Cowslip, scheduler, Speedwell, registers. -/
structure Die where
  tlb : List TlbEntry
  faults : PMap FaultRec
  rings : PMap SubRing
  /-- rings that hold an active slot, in Cowslip's turn order (R195; log 20) -/
  slots : List Nat
  grant : Nat
  /-- lists of VFs of the four levels, head first (R198) -/
  levels : Vector (List Nat) 4
  deficits : PMap Int
  schedcfg : Word
  planned : Nat
  windowStart : Nat
  vfEnergy : PMap Nat
  gdrop : PMap Word
  l2part : Word
  corr : Nat
  ucons : Nat
  ymis : Nat
  /-- ucons or ymis rose since the last REG_READ (R355) -/
  rasRaised : Bool
  caps : Word
  linkDown : Bool
  heldLines : List HeldLine
  /-- the link-loss record: address and VF; and how many of its entries the latest LINKREC kept (R348) -/
  linkRec : List (Nat × Nat)
  linkKept : Nat
  /-- cluster condition bits (R174) -/
  cond : Vector Half 3
  /-- correctable errors of DRAM rows: the row and the time (R356) -/
  rowErrs : List (Word × Nat)
  deriving DecidableEq, Repr

def Die.init (d : Nat) : Die :=
  { tlb := [], faults := [], rings := [], slots := [], grant := 1023, levels := Vector.replicate 4 [], deficits := [],
    schedcfg := 0x000F424000086470#64, planned := 0, windowStart := 0, vfEnergy := [], gdrop := [], l2part := 4,
    corr := 0, ucons := 0, ymis := 0, rasRaised := false,
    caps := if d = 0 then 0x0040FFFF10FFFFFF#64 else 0x0040FFFF00FFFFFF#64,
    linkDown := false, heldLines := [], linkRec := [], linkKept := 0, cond := Vector.replicate 3 0, rowErrs := [] }

/-- The TDISP state of a VF (R349). -/
inductive Tdi where
  | unlocked | locked | run | error
  deriving DecidableEq, Repr, Inhabited

/-- A virtual function: its configuration block (R346), generation counter (R93) and TDISP state (R349). -/
structure Vf where
  astbase : Word
  astsize : Nat
  svec : Word
  en : Bool
  weight : Nat
  quota : Nat
  gen : Nat
  tdi : Tdi
  deriving DecidableEq, Repr, Inhabited

def Vf.init : Vf :=
  { astbase := 0, astsize := 0, svec := 0, en := false, weight := 1, quota := 0x80, gen := 0, tdi := .unlocked }

/-! ### Nests, the directory, the durable tier -/

/-- A nest that Vetch holds (R163 to R169). -/
structure Nest where
  id : Nat
  die : Nat
  recAddr : Nat
  /-- ASID the record address is translated under -/
  recAsid : Nat
  vf : Nat
  asid : Nat
  entry : Word
  param : Word
  gsize : Nat
  cobank : Bool
  stages : Nat
  order : Nat
  bounds : List Nat
  energy : Nat
  preds : List (Nat × Bool)
  image : Nat
  base : Nat
  level : Nat
  /-- the cycle since which it has an eligible task and receives none (R197) -/
  waiting : Option Nat
  handed : List (Nat × Nat)
  ended : List (Nat × Nat)
  /-- sum and count of measured energies of its ended tasks (R199) -/
  measured : Nat
  count : Nat
  /-- termination cause; the nest ends once its running tasks have (R165) -/
  cause : Option Nat
  deriving DecidableEq, Repr, Inhabited

/-- An object slot of the directory (R91). -/
structure Slot where
  used : Bool
  name : Word
  vf : Nat
  desc : List Byte
  bound : Bool
  opens : Nat
  gen : Nat
  inc : Nat
  /-- its reclaim record is held (R103) -/
  held : Bool
  deriving DecidableEq, Repr, Inhabited

def Slot.init : Slot :=
  { used := false, name := 0, vf := 0, desc := [], bound := false, opens := 0, gen := 0, inc := 1, held := false }

/-- A registered `dopen.w`: bank, name, the virtual address where the descriptor goes, what rd is, and the deadline (R99). -/
structure DirWaiter where
  bid : Nat
  vf : Nat
  name : Word
  va : Nat
  rd : Reg
  deadline : Nat
  deriving DecidableEq, Repr, Inhabited

/-- The agent of a durable store (R76): a control core or engine of a bank as 5 × bank + 0 or 1 + engine; the host 1,000;
the device's own units 1,002; agent `a` of another module 2,000 + a (log 89). -/
abbrev DAgent := Nat

/-- A durable store: one write request within a 64-byte line, as the aligned 8-byte words it touches with their new values (R72,
R85), and the stores that must persist before it (R76, R79). -/
structure DStore where
  id : Nat
  agent : DAgent
  words : List (Nat × Word)
  /-- the tick in which the instruction or engine word that made it began: the writes of one engine word are one store (R76) -/
  tick : Nat
  streaming : Bool
  after : List Nat
  deriving DecidableEq, Repr, Inhabited

/-- A store that Betony has accepted and not yet written to the media (R73, R85). -/
structure Accepted where
  seq : Nat
  words : List (Nat × Word)
  deriving DecidableEq, Repr, Inhabited

/-- Betony (R73 to R88). Before the first start no store has been accepted and no loss has been seen: the counters are 0, and
the first summary reports no loss and a complete drain (R87; log 54). -/
structure Betony where
  pending : List DStore
  buffer : List Accepted
  media : Mem
  nextId : Nat
  seq : Nat
  firstSeq : Nat
  lastSeq : Nat
  rdy : Bool
  hok : Bool
  starts : Nat
  /-- what the recovery summary of the next start reports (R87, R88) -/
  loss : Bool
  drainOk : Bool
  lossCyc : Nat
  lossTime : Nat
  /-- the words of each entry (R88) -/
  entries : List (Nat × Nat × Nat × Nat)
  deriving DecidableEq, Repr

def Betony.init : Betony :=
  { pending := [], buffer := [], media := Mem.empty, nextId := 0, seq := 0, firstSeq := 0, lastSeq := 0, rdy := false,
    hok := false, starts := 0, loss := false, drainOk := true, lossCyc := 0, lossTime := 0, entries := [] }

/-- A context that was saved and not yet resumed (R189, R190). -/
structure Saved where
  core : Nat
  bank : Nat
  state : Bank
  /-- ranges of the core scratchpad and lane slices that the save wrote, with their contents (R189) -/
  areas : List (Nat × Nat × Mem)
  forced : Bool
  /-- gang group, resumed as one: number shared by its members (R190) -/
  group : Nat
  deriving DecidableEq, Repr

/-- An invalidation or flip that the device has begun (R44, R45, R345). -/
structure InvEntry where
  k : Nat
  vf : Nat
  va : Nat
  flip : Bool
  bad : Bool
  acked : Bool
  done : Nat
  deriving DecidableEq, Repr, Inhabited

/-- The status a management command ends with: Unsupported, or another, of which the rules name none (R344, R361). -/
inductive CmdStatus where
  | ok | unsupported
  deriving DecidableEq, Repr, Inhabited

/-- A write of a unit of a die in an address space that waits for the end of a flip, or for the durable tier to be ready (R45, R74). -/
structure UnitWrite where
  die : Nat
  vf : Nat
  asid : Nat
  va : Nat
  data : List Byte
  deriving DecidableEq, Repr, Inhabited

/-- The host's registers and links (R342 to R349). -/
structure HostSt where
  iqbase : Word
  iqlog : Nat
  iqtail : Word
  iqhead : Word
  inv : Option InvEntry
  /-- pages under a flip request: first physical address and the one behind the page (R45) -/
  flips : List (Nat × Nat)
  /-- writes of the units of the dies that wait for the flip or for the durable tier (R45, R74) -/
  unitWrites : List UnitWrite
  link : Bool
  peersDown : List Nat
  /-- snoops that wait for the end of a load reservation (R149) -/
  snoops : List Snoop
  /-- reservations that agents of other modules hold on memory of this one (R148, R149) -/
  peerResvs : PMap Resv
  domcfg : Word
  tstatErr : Half
  tstatRef : Bool
  bist : Word
  safe : Bool
  stopped : Bool
  /-- firmware: the two slots, which is active, whether the other holds a staged image, whether that becomes
  active at the next reset, minimum security version (R350) -/
  fw0 : List Byte
  fw1 : List Byte
  fwActive : Nat
  fwStaged : Bool
  fwPending : Bool
  fwMin : Nat
  /-- DRAM channels, as die × 16 + channel, that leave service at the next start (R356) -/
  retired : List Nat
  /-- repairs burnt in the fuses, by word 0 of their entries (R357) -/
  burnt : List Nat
  /-- SPDM session and IDE keys of the five ports (R342, R349) -/
  session : Option (BitVec 256)
  ideKeys : PMap (BitVec 256)
  /-- MSI-X messages raised and what the last command answered -/
  msix : List Nat
  answer : List Word
  status : CmdStatus
  deriving DecidableEq, Repr

def HostSt.init : HostSt :=
  { iqbase := 0, iqlog := 0, iqtail := 0, iqhead := 0, inv := none, flips := [], unitWrites := [], link := true,
    peersDown := [], snoops := [], peerResvs := [], domcfg := 1, tstatErr := 0xFFFF, tstatRef := false, bist := 0, safe := false,
    stopped := false, fw0 := [],
    fw1 := [], fwActive := 0, fwStaged := false, fwPending := false, fwMin := 0, retired := [], burnt := [], session := none
    ideKeys := [], msix := [], answer := [], status := .ok }

/-- Who takes a turn: the control core of a bank, an engine of a bank, or an event of 95. -/
inductive Agent where
  | core (bid : Nat)
  | engine (bid : Nat) (e : Engine)
  | event (i : Instr)
  deriving DecidableEq, Repr, Inhabited

/-- A turn to come: the agent, and what passes before it moves: cycles, time, energy drawn, stall and throttled cycles,
the span a promise made in it looks ahead, and the port that a command of the host comes over (log 1). -/
structure Turn where
  who : Agent
  cycles : Nat
  ns : Nat
  energy : Nat
  stall : Nat
  forecast : Nat
  port : CmdPort
  deriving DecidableEq, Repr, Inhabited

/-- Where the agent in execution stands: its bank, its engine (none: the control core), the length of the instruction and
its bits (for `stval`), and the forecast and port of its turn. -/
structure Cur where
  bid : Nat
  eng : Option Engine
  ilen : Nat
  ibits : Nat
  forecast : Nat
  port : CmdPort
  deriving DecidableEq, Repr, Inhabited

/-- The machine. -/
structure State where
  /-- physical memory (R27), with the lane slices at the model's own addresses (R49; log 12) -/
  mem : Mem
  /-- banks by core × 2 + bank, cores by global core number, dies, VFs -/
  banks : PMap Bank
  cores : PMap CoreSt
  dies : PMap Die
  vfs : PMap Vf
  nests : List Nest
  nextNest : Nat
  /-- the directory: slot die × 16,384 + index (R90); binding generations by VF and name (R93) -/
  slots : PMap Slot
  nameGen : List ((Nat × Word) × Nat)
  dirWaiters : List DirWaiter
  betony : Betony
  saved : PMap Saved
  nextSaved : Nat
  /-- lines homed in host memory that are dirty in a device cache: line, home bytes, die and VF (R148, R150) -/
  dirtyHost : List (HeldLine × Nat)
  poison : List Nat
  host : HostSt
  cycle : Nat
  ftime : Nat
  ticks : Nat
  uses : Nat
  schedule : List Turn
  cur : Cur
  deriving DecidableEq, Repr

/-- Why the machine stops with a fault. -/
inductive Fault where
  /-- raised by a step of the host or the management path that names a register, a virtual function, a die, a bank or a place
  that the module does not have (R343, R344, R346; log 44): there is no such location (safe) -/
  | noAddress
  deriving DecidableEq, Repr, Inhabited

/-- Why an instruction has no meaning. -/
inductive Refusal where
  /-- raised by a refused arm of the dispatch: no meaning has been written for the instruction (safe) -/
  | notModelled (mnemonic : String)
  deriving DecidableEq, Repr, Inhabited

/-- The machine right after power-on reset: every register at the value of its Reset column, and those the spec gives none at
the values of log 2 to log 4. -/
def State.reset : State :=
  { mem := Mem.empty, banks := [], cores := [],
    dies := [(0, Die.init 0), (1, Die.init 1), (2, Die.init 2), (3, Die.init 3)], vfs := [], nests := [],
    nextNest := 1, slots := [], nameGen := [], dirWaiters := [], betony := Betony.init, saved := [], nextSaved := 0,
    dirtyHost := [], poison := [], host := HostSt.init, cycle := 0, ftime := 0, ticks := 0, uses := 0, schedule := [],
    cur := { bid := 0, eng := none, ilen := 4, ibits := 0, forecast := 1, port := .mailbox } }

end Sys2Proof.Machine
end

