-- ==== Sys2Proof/WellFormed.lean ====
section
/-! DEFINITION. Which instructions an encoding can carry: the legal values of the sub-fields of R220 and R222, and the
engine and modifier ranges of R229 to R238. -/

namespace Sys2Proof

/-- A policy code is 0 to 4 (R32, R220). -/
def policyOk (c : BitVec 3) : Bool := c.toNat ≤ 4

/-- Queues that the control core pushes: q0, q1, q3, q5, q6 (R159, R222). -/
def queueFromCore (q : BitVec 3) : Bool :=
  q.toNat = 0 || q.toNat = 1 || q.toNat = 3 || q.toNat = 5 || q.toNat = 6

/-- Queues that the control core pops: q2, q4, q7 (R159, R222). -/
def queueToCore (q : BitVec 3) : Bool :=
  q.toNat = 2 || q.toNat = 4 || q.toNat = 7

/-- The queues towards an engine (R230). -/
def queueInto : Engine → BitVec 3 → Bool
  | .vx, q => q.toNat = 0 || q.toNat = 1
  | .mx, q => q.toNat = 3
  | .cx, q => q.toNat = 5
  | .sx, q => q.toNat = 6

/-- The queue from an engine (R230). -/
def queueOutOf : Engine → BitVec 3 → Bool
  | .vx, q => q.toNat = 2
  | .mx, q => q.toNat = 4
  | .sx, q => q.toNat = 7
  | .cx, _ => false

/-- FENCE.TSO is the FENCE word with fm = 1000 and both sets RW (R225). -/
def isTsoFence (fm pre suc : BitVec 4) : Bool := fm = 0b1000#4 && pre = 0b0011#4 && suc = 0b0011#4

/-- Operand kinds of a copy source: handle, local, slice; 11 is illegal (R231). -/
def srcKindOk (s : BitVec 2) : Bool := s.toNat ≤ 2

/-- pol is 0 unless the word has a handle-address operand (R232). -/
def copyPolicyOk (p : BitVec 3) (hasHandle : Bool) : Bool := policyOk p && (hasHandle || p.toNat = 0)

/-- ring is zero unless the destination is a ring (R231). -/
def ringFieldOk (d g : BitVec 2) : Bool := d.toNat = 3 || g.toNat = 0

/-- Source formats of Campion: fp32, bf16, int32 (R233). -/
def selectFormatOk (f : BitVec 4) : Bool := f.toNat = 0 || f.toNat = 1 || f.toNat = 6

/-- qs = 11 is illegal (R235). -/
def queueSourceOk (s : BitVec 2) : Bool := s.toNat ≤ 2

/-- A control-core form that some 32-bit word encodes (R221, R222, R225). -/
def Instr.scalarOk : Instr → Bool
  | .ldh _ _ _ c | .sdh _ _ _ c => policyOk c
  | .qpush q _ => queueFromCore q
  | .qpop _ q | .qpeek _ q => queueToCore q
  | .rdvs _ m _ => m.toNat ≠ 0
  | .pbar c => c.toNat ≤ 2
  | .fenceS c => c.toNat ≤ 5
  | .fence fm pre suc _ _ => !isTsoFence fm pre suc
  | .intShift op _ _ sh =>
    match op with
    | .slliw | .srliw | .sraiw | .roriw => sh.toNat < 32
    | _ => true
  | .xlat .. | .xlatW .. | .hinv .. | .hstat .. | .qlvl .. | .qwm .. | .waitt .. | .prm .. | .ecall .. | .epush ..
  | .emark .. | .rdvw .. | .safept .. | .nsub .. | .tdone | .gang .. | .ungang | .csyncSet .. | .csyncW .. | .phsw
  | .dopen .. | .dopenW .. | .dclose .. | .dbind .. | .dunbind .. | .dbset .. | .dqry .. | .pwb .. | .vcfp ..
  | .vcrep .. | .vcsync .. | .fqpop .. | .fqrep .. | .ergr .. => true
  | .load .. | .store .. | .amo .. | .lr .. | .sc .. | .csrAccess .. | .standardEcall | .ebreak | .sret | .wfi
  | .sfenceVma .. | .fenceTso .. | .fenceI .. => true
  | .intRR .. | .intRI .. | .intUnary .. | .lui .. | .auipc .. | .jal .. | .jalr .. | .branch .. => true
  | _ => false

/-- An engine word that is legal in engine `e` (R229 to R238). -/
def Instr.wordOk (e : Engine) : Instr → Bool
  | .literal _ | .lix | .dup | .drop | .swap | .rot | .mark | .call | .ret | .nop => true
  | .rotD => e = .vx
  | .loop l | .endl l => l.toNat ≤ 2
  | .lset k l | .lget k l => k.toNat ≤ 2 && l.toNat ≤ 2
  | .tokw p | .tokr p => p ≠ e
  | .fsel f => (e = .vx || e = .cx) && f.toNat ≤ 7
  | .qin q => queueInto e q
  | .qout q => queueOutOf e q
  | .cpy p s d g | .cpy2 p s d g =>
    e = .cx && srcKindOk s && ringFieldOk d g && copyPolicyOk p (s.toNat = 0 || d.toNat = 0)
  | .cpyz p d => e = .cx && d.toNat ≤ 1 && policyOk p
  | .gath p s d g =>
    e = .cx && srcKindOk s && (d.toNat = 1 || d.toNat = 3) && ringFieldOk d g && copyPolicyOk p (s.toNat = 0)
  | .scat p s d => e = .cx && s.toNat = 1 && d.toNat = 0 && policyOk p
  | .pfch p s => e = .cx && s.toNat = 0 && policyOk p
  | .cpyg p s d => e = .cx && s.toNat ≤ 1 && d.toNat = 0 && policyOk p
  | .cpyd p s d => e = .cx && srcKindOk s && d.toNat = 0 && policyOk p
  | .fill p d => e = .cx && d.toNat ≤ 2 && copyPolicyOk p (d.toNat = 0)
  | .rfeed p s _ => e = .cx && srcKindOk s && copyPolicyOk p (s.toNat = 0)
  | .dln => e = .cx
  | .skey f | .selk f | .selp f | .cmpk f => e = .sx && selectFormatOk f
  | .hist _ f => e = .sx && selectFormatOk f
  | .vadd _ _ s | .vsub _ _ s | .vmul _ _ s | .vfma _ _ s | .vmax _ _ s | .vmin _ _ s | .vabs _ _ s | .vneg _ _ s
  | .vexp _ _ s | .vlog _ _ s | .vrcp _ _ s | .vrsq _ _ s | .vsel _ _ s | .vbsr _ _ s | .vperm _ _ s | .vand _ _ s
  | .vor _ _ s | .vxor _ _ s | .vshl _ _ s | .vmov _ _ s | .vbc _ _ s | .vclamp _ _ s | .vstub _ _ s
  | .vsoft _ _ s => e = .vx && queueSourceOk s
  | .vcvt _ _ s _ => e = .vx && queueSourceOk s
  | .vcmp _ _ s v => e = .vx && queueSourceOk s && v.toNat ≤ 6
  | .vred _ _ s v | .vscan _ _ s v => e = .vx && queueSourceOk s && v.toNat ≤ 2
  | .vshr _ _ s v => e = .vx && queueSourceOk s && v.toNat ≤ 1
  | .dset _ | .dget _ => e = .vx
  | .pgs n => e = .vx && n.toNat ≠ 0
  | .kld _ | .kst _ | .kor .. | .kand .. | .kxor .. | .knot .. | .kbitTst _ | .kbitSet _ | .kbitClr _ | .kpop _
  | .kget _ | .kset _ => e = .vx
  | .mm .. | .mml .. | .mmm .. => e = .mx
  | .mpb | .accz _ | .accg _ | .fte _ | .draw _ | .rng _ => e = .mx
  | .acco _ f => e = .mx && f.toNat ≤ 6
  | _ => false

/-- A step of the device, the host or the management path, which no word encodes (95). -/
def Instr.isEvent (i : Instr) : Bool :=
  !i.scalarOk && !(i.wordOk .mx || i.wordOk .vx || i.wordOk .cx || i.wordOk .sx) &&
  match i with
  | .notify .. | .cowslipAccept .. | .ringIdleTimeout .. | .schedulerVisit .. | .agingTick .. | .speedwellWindow ..
  | .heatThrottle .. | .preemptionRequest .. | .forcedSave .. | .contextResume .. | .pageWalkEnd ..
  | .faultRecordAlloc .. | .iqInvalidate | .flipRequest | .flipAck | .invalidationComplete | .promiseMissed ..
  | .waittWake .. | .dopenWTimeout .. | .reclaimRetry .. | .lrReservationExpiry .. | .copyComplete ..
  | .markerRetire .. | .phaseCommit .. | .checkedEntryIssue .. | .yarrowMismatch .. | .durableAccept ..
  | .mediaWrite | .powerLoss .. | .startSequence .. | .hostLinkDown | .hostLinkUp | .peerLinkDown ..
  | .hostMemAccess .. | .peerAccess .. | .errorDetected .. | .poisonConsume .. | .regRead .. | .regWrite ..
  | .l2partWrite .. | .flashLoad .. | .quiesce .. | .linkrecAccept .. | .linkrecDiscard .. | .linklog ..
  | .rsvdRead .. | .fwStage .. | .fwActivate .. | .registerWrite .. | .vfEnable .. | .vfReset .. | .flr ..
  | .lockInterface .. | .startInterface .. | .stopInterface .. | .getMeasurements | .tstatLockChange ..
  | .holdUpEnergyArming .. | .peerLinkUp .. | .hostSnoop .. | .fenceSWaitEnd .. | .spdmKeyExchange | .ideKm .. => true
  | _ => false

/-- An instruction that some encoding, or some step of the device, carries. -/
def Instr.wellFormed (i : Instr) : Bool :=
  i.scalarOk || i.wordOk .mx || i.wordOk .vx || i.wordOk .cx || i.wordOk .sx || i.isEvent

end Sys2Proof
end

