-- ==== Sys2Proof/Machine/Base.lean ====
section
/-! DEFINITION. Reading and writing the parts of the state: the named operations every meaning goes through, and the monad
of a meaning's body. -/

namespace Sys2Proof.Machine

/-! ### Parts of the state -/

def State.bank (s : State) (bid : Nat) : Bank := PMap.get Bank.init s.banks bid
def State.setBank (s : State) (bid : Nat) (b : Bank) : State := { s with banks := PMap.put s.banks bid b }
def State.modBank (s : State) (bid : Nat) (f : Bank → Bank) : State := s.setBank bid (f (s.bank bid))

def State.coreSt (s : State) (g : Nat) : CoreSt := PMap.get CoreSt.init s.cores g
def State.setCore (s : State) (g : Nat) (c : CoreSt) : State := { s with cores := PMap.put s.cores g c }
def State.modCore (s : State) (g : Nat) (f : CoreSt → CoreSt) : State := s.setCore g (f (s.coreSt g))

def State.die (s : State) (d : Nat) : Die := PMap.get (Die.init d) s.dies d
def State.setDie (s : State) (d : Nat) (v : Die) : State := { s with dies := PMap.put s.dies d v }
def State.modDie (s : State) (d : Nat) (f : Die → Die) : State := s.setDie d (f (s.die d))

def State.vf (s : State) (v : Nat) : Vf := PMap.get Vf.init s.vfs v
def State.setVf (s : State) (v : Nat) (f : Vf) : State := { s with vfs := PMap.put s.vfs v f }

/-! ### Coordinates (R3) -/

/-- Core of a bank, bank number in its core. -/
abbrev coreOf (bid : Nat) : Nat := bid / 2
abbrev bankOf (bid : Nat) : Nat := bid % 2
abbrev dieOfCore (g : Nat) : Nat := g / 24
abbrev clusterOfCore (g : Nat) : Nat := g / 8
abbrev dieOf (bid : Nat) : Nat := dieOfCore (coreOf bid)
/-- The other bank of the core. -/
abbrev otherBank (bid : Nat) : Nat := if bid % 2 = 0 then bid + 1 else bid - 1

/-- Place of an engine in the vector of a bank's engines (R220). -/
def engIx : Engine → Fin 4
  | .mx => 0 | .vx => 1 | .cx => 2 | .sx => 3

def Bank.engine (b : Bank) (e : Engine) : Eng := b.eng[engIx e]
def Bank.setEngine (b : Bank) (e : Engine) (v : Eng) : Bank := { b with eng := b.eng.set (engIx e) v }
def Bank.modEngine (b : Bank) (e : Engine) (f : Eng → Eng) : Bank := b.setEngine e (f (b.engine e))

/-- An x register: x0 reads zero (R160, R225). -/
def Bank.readX (b : Bank) (r : Reg) : Word := if r = 0#5 then 0#64 else b.core.x[r.toFin]

/-- A write of an x register: x0 discards it (R222); the word's poison is cleared (R351). -/
def Bank.writeX (b : Bank) (r : Reg) (v : Word) : Bank :=
  if r = 0#5 then b
  else { b with core := { b.core with x := b.core.x.set r.toFin v }, marks := b.marks.filter (· ≠ .x r) }

def Bank.setPc (b : Bank) (v : Word) : Bank := { b with core := { b.core with pc := v } }
def Bank.setCsr (b : Bank) (c : Csrs) : Bank := { b with core := { b.core with csr := c } }

def Bank.queueOf (b : Bank) (q : BitVec 3) : List Elem := b.dq[q.toFin]
def Bank.setQueue (b : Bank) (q : BitVec 3) (l : List Elem) : Bank := { b with dq := b.dq.set q.toFin l }

def Bank.tokens (b : Bank) (src dst : Engine) : List Nat := PMap.get [] b.tok (4 * (engIx src).val + (engIx dst).val)
def Bank.setTokens (b : Bank) (src dst : Engine) (l : List Nat) : Bank :=
  { b with tok := PMap.put b.tok (4 * (engIx src).val + (engIx dst).val) l }

def allEngines : List Engine := [.mx, .vx, .cx, .sx]

/-- Queues towards an engine (R159). -/
def queuesInto : Engine → List (BitVec 3)
  | .vx => [0#3, 1#3] | .mx => [3#3] | .cx => [5#3] | .sx => [6#3]

/-- The key of an engine's command queue among the counts of compared entries. -/
abbrev cmdKey : Nat := 8

/-- The level of a command queue: phase boundaries are no entries of the program's (R159, R249). -/
def Eng.level (g : Eng) : Nat := (g.queue.filter (fun c => match c.kind with | .boundary _ => false | _ => true)).length

/-- Every pending comparison of the checked entries of a bank is completed (R162). -/
def Bank.compareAll (b : Bank) : Bank :=
  allEngines.foldl (fun b e => b.modEngine e (fun g =>
    let data := (queuesInto e).foldl (fun m q => PMap.put m q.toNat (b.queueOf q).length) g.checked
    { g with checked := PMap.put data cmdKey g.level })) b

/-- The VF and ASID of the bank's task (R25). -/
def Bank.vfId (b : Bank) : Nat := match b.task with | some t => t.vf | none => 0
def Bank.asidOf (b : Bank) : Nat := match b.task with | some t => t.asid | none => 0

/-- Cycles since a value of the chip cycle counter, which counts modulo 2^64 (R4; log 66). -/
def State.since (s : State) (t : Nat) : Nat := (s.cycle + (2 ^ 64 - t)) % 2 ^ 64

/-! ### The monad of a meaning -/

/-- How a body stops. -/
inductive Stop where
  /-- a trap of the control core: scause and stval (R176) -/
  | trap (cause tval : Nat)
  /-- a translation fault: code of R42, virtual address or handle number, access bits of R182, handle version or 0 -/
  | access (code va acc ver : Nat)
  /-- the agent waits and tries again at its next turn (R178, R239) -/
  | wait
  /-- an engine fault that ends the nest, with its cause (R165, R177) -/
  | ends (cause : Nat)
  /-- a poisoned value is consumed: its line, or none for a word of an SRAM array (R352) -/
  | poison (line : Option Nat)
  deriving DecidableEq, Repr, Inhabited

/-- A body: it reads and writes the state, and may stop. -/
abbrev M := EStateM Stop State

def fail {α : Type} (e : Stop) : M α := throw e
def trap {α : Type} (cause tval : Nat) : M α := throw (.trap cause tval)
def illegal {α : Type} : M α := do throw (.trap 2 (← get).cur.ibits)
def waitMore {α : Type} : M α := throw .wait
def endNest {α : Type} (cause : Nat) : M α := throw (.ends cause)

/-- Illegal word (R229): cause 0x10. -/
def illegalWord {α : Type} : M α := endNest 0x10

def onState (f : State → State) : M Unit := modify f

/-- The bank and engine in execution. -/
def curBid : M Nat := return (← get).cur.bid
def curBank : M Bank := do let s ← get; return s.bank s.cur.bid
def modCur (f : Bank → Bank) : M Unit := modify fun s => s.modBank s.cur.bid f

def readX (r : Reg) : M Word := return (← curBank).readX r
def writeX (r : Reg) (v : Word) : M Unit := modCur (·.writeX r v)

/-- A value the spec leaves undefined, fresh for each use (log 9). -/
def freshWord : M Word := do
  let s ← get
  set { s with uses := s.uses + 1 }
  return Config.freeWord s.ticks s.uses

/-- The number of a durable agent: the control core or an engine of a bank (R76). -/
def dagent (bid : Nat) : Option Engine → DAgent
  | none => 5 * bid
  | some e => 5 * bid + 1 + (engIx e).val

end Sys2Proof.Machine
end

