-- ==== Sys2Proof/Machine/Translate.lean ====
section
/-! DEFINITION. Physical regions (R27, R50), the Sv57 walk (R25 to R31), the TLBs and the checks of an access (R34, R35, R39,
R42), and what an invalidation matches (R43). -/

namespace Sys2Proof.Machine

/-! ### Physical regions (R27) -/

/-- A region of the physical address space (R27). -/
inductive Region27 where
  | dram (die : Nat)
  | holding (die : Nat)
  | chip (die : Nat)
  | scratch (core : Nat)
  | shared (core : Nat)
  | l2 (die slice : Nat)
  | durable
  | reserved
  | flash
  | host
  | peer (m : Nat)
  | unmapped
  deriving DecidableEq, Repr, Inhabited

abbrev dramSpan : Nat := 0x1000000000
abbrev holdingOff : Nat := 0xFF0000000
abbrev chipBase : Nat := 0x10000000000
abbrev chipSize : Nat := 0x2000000
abbrev coreBase : Nat := 0x10800000000
abbrev coreSpan : Nat := 0x400000
abbrev scratchSize : Nat := 0x300000
abbrev l2Base : Nat := 0x11000000000
abbrev durableBase : Nat := 0x20000000000
abbrev reservedBase : Nat := 0x20FFFF00000
abbrev durableEnd : Nat := 0x21000000000
abbrev flashBase : Nat := 0x100000000000
abbrev flashSize : Nat := 0x80000000000
abbrev hostBase : Nat := 0x80000000000000
abbrev peerBase : Nat := 0xC0000000000000
abbrev peerSpan : Nat := 0x2000000000000
abbrev physEnd : Nat := 0x100000000000000
/-- Where the model keeps the lane slices of core g, above every physical address (R49; log 12). -/
abbrev laneBase : Nat := 0x1000000000000000

/-- The region of a physical address (R27, R57). -/
def regionOf (pa : Nat) : Region27 :=
  if pa < 4 * dramSpan then
    if holdingOff ≤ pa % dramSpan then .holding (pa / dramSpan) else .dram (pa / dramSpan)
  else if pa < chipBase then .unmapped
  else if pa < chipBase + 4 * chipSize then .chip ((pa - chipBase) / chipSize)
  else if pa < coreBase then .unmapped
  else if pa < coreBase + 96 * coreSpan then
    if (pa - coreBase) % coreSpan < scratchSize then .scratch ((pa - coreBase) / coreSpan)
    else .shared ((pa - coreBase) / coreSpan)
  else if pa < l2Base then .unmapped
  else if pa < l2Base + 96 * coreSpan then .l2 ((pa - l2Base) / coreSpan / 24) ((pa - l2Base) / coreSpan % 24)
  else if pa < durableBase then .unmapped
  else if pa < reservedBase then .durable
  else if pa < durableEnd then .reserved
  else if pa < flashBase then .unmapped
  else if pa < flashBase + flashSize then .flash
  else if pa < hostBase then .unmapped
  else if pa < peerBase then .host
  else if pa < physEnd then .peer ((pa - peerBase) / peerSpan)
  else .unmapped

/-- The strongest policy a region honours (R27). -/
def Region27.policy : Region27 → Nat
  | .dram _ | .durable | .host => 0
  | .flash => 2
  | _ => 3

def isDurable (pa : Nat) : Bool := durableBase ≤ pa && pa < durableEnd
/-- The durable tier of this module, or of another one as peer memory shows it (R27, R72, R79). -/
def isPersist (pa : Nat) : Bool := isDurable pa || (peerBase ≤ pa && pa < physEnd && isDurable ((pa - peerBase) % peerSpan))
def isHost (pa : Nat) : Bool := hostBase ≤ pa && pa < peerBase
/-- Host-homed or peer memory: a domain location of the package's agents (R140). -/
def isDomain (pa : Nat) : Bool := hostBase ≤ pa && pa < physEnd
def lineOf (pa : Nat) : Nat := pa / 64

/-- Modules of the domain (R375). -/
def State.domainSize (s : State) : Nat :=
  let n := bits s.host.domcfg.toNat 0 6
  if n = 0 || 32 < n then 1 else n

/-- Usable DRAM of a die in bytes (R358). -/
def State.dramBytes (s : State) (d : Nat) : Nat := bits (s.die d).caps.toNat 48 8 * 0x40000000

/-- The staging size of the slices of a die in bytes (R54). -/
def State.stagingSize (s : State) (d : Nat) : Nat :=
  let n := bits (s.die d).l2part.toNat 0 4
  (if 8 < n then 8 else n) * 0x80000

/-- Whether a PTE may point to an address (R27, R30, R50, R57, R359, R375). -/
def State.mappable (s : State) (pa : Nat) : Bool :=
  match regionOf pa with
  | .dram d => decide (pa % dramSpan < s.dramBytes d)
  | .holding _ | .reserved | .unmapped => false
  | .peer m =>
    s.domainSize ≠ 1 && m < s.domainSize &&
    match regionOf ((pa - peerBase) % peerSpan) with
    | .dram _ | .durable => true
    | _ => false
  | _ => true

/-- Whether a requester of a die, on a core or a unit on none, reaches an address (R47, R50): a core its own windows, its cluster's and
its die's; a unit the windows of its die (log 88). A slice of another die is beyond reach, as R50 has it (log 58). -/
def reaches (core : Option Nat) (die pa : Nat) : Bool :=
  match regionOf pa with
  | .scratch h => core.elim (die = dieOfCore h) (· = h)
  | .shared h => core.elim (die = dieOfCore h) (fun g => clusterOfCore g = clusterOfCore h)
  | .chip d | .l2 d _ => die = d
  | .unmapped | .holding _ | .reserved => false
  | _ => true

/-- Whether the link to an address is up for the agents of a die (R150, R343). -/
def State.linkUp (s : State) (d : Nat) (pa : Nat) : Bool :=
  match regionOf pa with
  | .host => s.host.link && !(s.die d).linkDown
  | .peer m => !(s.host.peersDown.contains m)
  | _ => true

/-! ### The walk (R25, R29, R30) -/

/-- Bits [63:57] equal bit 56 (R25). -/
def canonical (va : Nat) : Bool := bits va 56 8 = 0 || bits va 56 8 = 255

/-- The canonical address with the low 57 bits of `v` (R25). -/
def canonAddr (v : Nat) : Nat := if bit v 56 then v % 2 ^ 57 + (2 ^ 64 - 2 ^ 57) else v % 2 ^ 57

def pageSize (level : Nat) : Nat := 2 ^ (12 + 9 * level)

/-- The doubleword of memory at a physical address. -/
def State.mem64 (s : State) (pa : Nat) : Nat := leNat (s.mem.read pa 8)

/-- A leaf found at a level, or the cause of R30. The durable bit marks this module's tier: a page of another module's has it 0 (log 98). -/
def State.leafOf (s : State) (level pte pa va : Nat) : Except Nat Leaf :=
  let ppn := bits pte 10 44
  let page := ppn * 4096
  let top := page + pageSize level - 1
  let pbmt := bits pte 61 2
  let dur := bit pte 57
  let hh := bit pte 55
  if bit pte 63 || pbmt = 3 || 5 ≤ bits pte 58 3 || (bit pte 2 && !bit pte 1) || 3 ≤ level
    || page % pageSize level ≠ 0 || !s.mappable page || !s.mappable top
    || dur != isDurable page || dur != isDurable top || hh != isHost page || hh != isHost top
    || (bit pte 2 && (regionOf page = .flash || regionOf top = .flash)) then .error 7
  else .ok
    { va := va / pageSize level * pageSize level, pa := page, level := level, pte := pa,
      r := bit pte 1, w := bit pte 2, x := bit pte 3, u := bit pte 4, g := bit pte 5, owner := bit pte 56,
      durable := dur, hostHomed := hh, ctxseg := bit pte 54, dirty := bit pte 7,
      ceil := max (max (bits pte 58 3) (if pbmt = 1 then 3 else if pbmt = 2 then 4 else 0)) (regionOf page).policy,
      io := pbmt = 2 }

/-- The walk from a table at a level; the number is the level plus one. G of an entry that is no leaf is ignored (log 97). Cause 0: the walk
goes on, for a table that it reads lies in the durable tier, and that is not ready (R74; log 120). -/
def State.walkFrom (s : State) (d : Nat) (va : Nat) : Nat → Nat → Except Nat Leaf
  | 0, _ => .error 7
  | level + 1, table =>
    let pa := table + 8 * bits va (12 + 9 * level) 9
    if !s.mappable pa then .error 7
    else if !s.linkUp d pa then .error 6
    else if isDurable pa && !s.betony.rdy then .error 0
    else
      let pte := s.mem64 pa
      if !bit pte 0 then .error 1
      else if bits pte 1 3 ≠ 0 then s.leafOf level pte pa va
      else if bits pte 54 10 ≠ 0 || bits pte 6 2 ≠ 0 || level = 0 then .error 7
      else s.walkFrom d va level (bits pte 10 44 * 4096)

/-- The root table that a `satp` names: mode 0xA and the ASID itself in its field (R26); none where the first walk ends in
bad-PTE. -/
def satpRoot (satp : Word) (asid : Nat) : Option Nat :=
  if bits satp.toNat 60 4 = 0xA && bits satp.toNat 44 16 = asid then some (bits satp.toNat 0 44 * 4096) else none

/-- A whole walk (R25, R26, R30): its leaf, or a cause; 0 while it goes on (R74). -/
def State.walk (s : State) (d : Nat) (root : Option Nat) (va : Nat) : Except Nat Leaf :=
  if !canonical va then .error 0xB
  else match root with
    | none => .error 7
    | some t => s.walkFrom d va 5 t

/-- The walk of a handle version: with the domain size as it stood when the walk began (R37, R375). -/
def State.walkUnder (s : State) (domcfg : Word) (d : Nat) (root : Option Nat) (va : Nat) : Except Nat Leaf :=
  ({ s with host := { s.host with domcfg := domcfg } }).walk d root va

/-- `satp` of an ASID of a VF: its entry of the address-space table; 0 beyond the table (R26). -/
def State.astSatp (s : State) (vf asid : Nat) : Word :=
  let v := s.vf vf
  if asid < v.astsize then
    BitVec.ofNat 64 (s.mem64 (v.astbase.toNat + 8 * asid))
  else 0#64

/-- The entry of an ASID in a VF's address-space table lies in the durable tier, and that is not ready (R26, R74). -/
def State.astWaits (s : State) (vf asid : Nat) : Bool :=
  asid < (s.vf vf).astsize && isDurable ((s.vf vf).astbase.toNat + 8 * asid) && !s.betony.rdy

/-! ### Who translates -/

/-- The requester of an access: where it sits, whose address space it uses and with what rights (R34, R39). -/
structure Who where
  core : Option Nat
  die : Nat
  vf : Nat
  asid : Nat
  root : Option Nat
  /-- the U rule applies -/
  checkU : Bool
  user : Bool
  sum : Bool
  mxr : Bool
  deriving DecidableEq, Repr, Inhabited

/-- The control core of a bank at its current privilege (R39). -/
def State.whoCore (s : State) (bid : Nat) : Who :=
  let b := s.bank bid
  { core := some (coreOf bid), die := dieOf bid, vf := b.vfId, asid := b.asidOf, root := satpRoot b.core.csr.satp b.asidOf,
    checkU := true, user := b.core.priv = .user, sum := bit b.core.csr.sstatus.toNat 18,
    mxr := bit b.core.csr.sstatus.toNat 19 }

/-- An engine word, Sorrel or an image load of a bank: a user access (R39). -/
def State.whoEngine (s : State) (bid : Nat) : Who :=
  { s.whoCore bid with user := true, sum := false, mxr := false }

/-- A unit of a die in an address space of a VF (R102, R191; log 13). -/
def State.whoUnit (s : State) (d vf asid : Nat) : Who :=
  { core := none, die := d, vf := vf, asid := asid, root := satpRoot (s.astSatp vf asid) asid, checkU := false, user := true,
    sum := false, mxr := false }

/-! ### Rights (R39, R42) -/

abbrev accR : Nat := 1
abbrev accW : Nat := 2
abbrev accX : Nat := 4

/-- The cause with which a leaf denies an access, in the order R, W, U, owner of R39; 0: it permits it. -/
def Leaf.denies (l : Leaf) (w : Who) (acc : Nat) : Nat :=
  let uBad := w.checkU && (if w.user then !l.u else l.u && (bit acc 2 || !w.sum))
  if bit acc 2 && (!l.x || uBad) then 4
  else if bit acc 0 && !(l.r || (w.mxr && l.x)) then 2
  else if bit acc 1 && !l.w then 3
  else if (bit acc 0 || bit acc 1) && uBad then 3
  else if l.owner then 5
  else 0

/-! ### TLBs (R34, R35) -/

def TlbEntry.hits (e : TlbEntry) (vf asid va : Nat) : Bool :=
  e.vf = vf && (e.leaf.g || e.asid = asid) && e.leaf.va ≤ va && va < e.leaf.va + pageSize e.leaf.level

/-- Put an entry first; a full TLB loses one of its others (R34; log 10). -/
def tlbInsert (cap ticks : Nat) (l : List TlbEntry) (e : TlbEntry) : List TlbEntry :=
  let l' := l.filter (fun f => !(f.vf = e.vf && f.asid = e.asid && f.leaf.va = e.leaf.va && f.leaf.level = e.leaf.level))
  e :: (if l'.length < cap then l' else l'.eraseIdx (Config.tlbVictim ticks l'.length % cap))

def State.tlbFill (s : State) (w : Who) (l : Leaf) : State :=
  let e : TlbEntry := ⟨w.vf, w.asid, l⟩
  let s := s.modDie w.die (fun d => { d with tlb := tlbInsert 8192 s.ticks d.tlb e })
  match w.core with
  | some g => s.modCore g (fun c => { c with tlb := tlbInsert 128 s.ticks c.tlb e })
  | none => s

def State.tlbLookup (s : State) (w : Who) (va : Nat) : Option Leaf :=
  let l1 := match w.core with
    | some g => (s.coreSt g).tlb.find? (fun (e : TlbEntry) => e.hits w.vf w.asid va)
    | none => none
  match l1 with
  | some e => some e.leaf
  | none => ((s.die w.die).tlb.find? (fun (e : TlbEntry) => e.hits w.vf w.asid va)).map TlbEntry.leaf

/-- Remove the entries that serve an address, as after a failed walk (R35, R181). -/
def State.tlbDrop (s : State) (w : Who) (va : Nat) : State :=
  let keep := fun (e : TlbEntry) => !e.hits w.vf w.asid va
  let s := s.modDie w.die (fun d => { d with tlb := d.tlb.filter keep })
  match w.core with
  | some g => s.modCore g (fun c => { c with tlb := c.tlb.filter keep })
  | none => s

/-- The leaf of a fresh walk replaces every entry that serves the address (R35). -/
def State.tlbRenew (s : State) (w : Who) (va : Nat) (l : Leaf) : State := (s.tlbDrop w va).tlbFill w l

/-! ### What a write leaves behind (R72, R76, R148 to R150) -/

/-- The lines that `n` bytes from an address touch. -/
def linesOf (pa n : Nat) : List Nat :=
  if n = 0 then [] else (List.range ((pa + n - 1) / 64 - pa / 64 + 1)).map (· + pa / 64)

/-- The aligned 8-byte words that `n` bytes from an address touch. -/
def wordsOf (pa n : Nat) : List Nat :=
  if n = 0 then [] else (List.range ((pa + n - 1) / 8 - pa / 8 + 1)).map (· + pa / 8)

def DStore.touches (d : DStore) (word : Nat) : Bool := d.words.any (·.1 = word)

/-- The line a durable store lies in. -/
def DStore.line (d : DStore) : Nat := (d.words.headD (0, 0)).1 / 8

/-- The stores that must persist before a new store of an agent: those to a word of it; those of the agent to its line that another
instruction or word made, unless one of the two is streaming; those behind a barrier (R75, R76, R77, R79). -/
def Betony.before (t : Betony) (d : DStore) (barred : List Nat) : List Nat :=
  (t.pending.filter (fun p =>
    d.words.any (fun w => p.touches w.1)
    || (p.agent = d.agent && p.line = d.line && p.tick ≠ d.tick && !p.streaming && !d.streaming)
    || barred.contains p.id)).map (·.id)

/-- One store to words of a durable line waits for acceptance (R72, R73). -/
def Betony.issue (t : Betony) (agent : DAgent) (words : List (Nat × Word)) (tick : Nat) (streaming : Bool)
    (barred : List Nat) : Betony :=
  let d : DStore := { id := t.nextId, agent := agent, words := words, tick := tick, streaming := streaming, after := [] }
  { t with pending := t.pending ++ [{ d with after := t.before d barred }], nextId := t.nextId + 1 }

/-- Durable stores of an agent, after the bytes are in memory: one for each line, each word with its whole new value (R72). -/
def State.durable (s : State) (agent : DAgent) (pa n pol tick : Nat) (barred : List Nat) : State :=
  if isPersist pa then
    let add := fun (t : Betony) (l : Nat) =>
      t.issue agent (((wordsOf pa n).filter (fun w => w / 8 = l)).map (fun w => (w, BitVec.ofNat 64 (s.mem64 (8 * w))))) tick
        (pol = 2) barred
    { s with betony := (linesOf pa n).foldl add s.betony }
  else s

/-- A host-homed line that a cached write makes dirty, with its home's bytes: it lies in the cache parts of the die that wrote it last, under
the VF of that write (R55, R148, R150; log 95). -/
def State.dirtyLine (s : State) (die vf line : Nat) : State :=
  if s.dirtyHost.any (fun h => h.1.line = line) then
    { s with dirtyHost := s.dirtyHost.map (fun h => if h.1.line = line then ({ h.1 with vf := vf }, die) else h) }
  else { s with dirtyHost := s.dirtyHost ++ [(⟨line, s.mem.read (line * 64) 64, vf⟩, die)] }

/-- The lines of a write that a device cache takes: the cached policies, and every atomic (R55, R148, R150). -/
def State.dirtyLines (s : State) (die vf pa n pol : Nat) : State :=
  if isHost pa && pol ≤ 1 then (linesOf pa n).foldl (fun s l => s.dirtyLine die vf l) s else s

/-- A reservation on some of `n` bytes (R149). -/
def Resv.meets (r : Resv) (pa n : Nat) : Bool := r.addr < pa + n && pa < r.addr + r.size

/-- The number under which an agent of another module holds a reservation, beyond those of the banks. -/
abbrev peerHolder (a : Nat) : Nat := 192 + a

/-- Reservations on the bytes are lost, but for those of one holder: a bank, or an agent of another module (R149). -/
def State.breakResv (s : State) (holder : Option Nat) (pa n : Nat) : State :=
  let drop := fun (e : Nat × Bank) =>
    match e.2.resv with
    | some r => if holder ≠ some e.1 && r.meets pa n then (e.1, { e.2 with resv := none }) else e
    | none => e
  { s with
    banks := s.banks.map drop
    host := { s.host with peerResvs := s.host.peerResvs.filter (fun e => holder = some (peerHolder e.1) || !e.2.meets pa n) } }

/-- The agent of the durable stores of the device's own units: R76 lists none of them, and the units of all dies are one agent (log 96). -/
abbrev unitAgent : DAgent := 1002

/-- The agent of the host's durable stores (R76). -/
abbrev hostAgent : DAgent := 1000

/-- The agent of the durable stores of an agent of another module (R76; log 89). -/
def peerAgent (a : Nat) : DAgent := 2000 + a

/-- The first byte of a leaf in memory with A set, and D for a write (R31). -/
def State.marked (s : State) (l : Leaf) (acc : Nat) : Byte :=
  s.mem.get l.pte ||| 0x40#8 ||| (if bit acc 1 then 0x80#8 else 0#8)

/-- An access has A or D to set in its leaf (R31); where the PTE is no longer the leaf of that page, nothing is set (log 55). -/
def State.marks (s : State) (l : Leaf) (acc : Nat) : Bool :=
  let b := s.mem.get l.pte
  b.getLsbD 0 && bits (s.mem64 l.pte) 10 44 * 4096 = l.pa && s.marked l acc ≠ b

/-- The walker sets A, and D on a write, in the leaf in memory, as an atomic that takes its line and ends reservations on it (R31,
R148). -/
def State.touch (s : State) (w : Who) (l : Leaf) (acc : Nat) : State :=
  if s.marks l acc then
    let v := s.marked l acc
    let s := s.dirtyLines w.die w.vf l.pte 1 0
    let s := { s with mem := s.mem.set l.pte v }
    (s.durable unitAgent l.pte 1 0 s.ticks []).breakResv none l.pte 1
  else s

/-- The checks every access of `n` bytes meets after translation: reach (R50), staging size (R54), links (R150, R343), a durable tier
that is not ready (R74), and a page under a flip request (R45). -/
def State.passes (s : State) (w : Who) (pa n : Nat) : Except Stop Unit :=
  if !reaches w.core w.die pa || !reaches w.core w.die (pa + (n - 1)) then .error (.access 7 0 0 0)
  else
    let staged : Bool := match regionOf pa with
      | .l2 d _ => decide (s.stagingSize d ≤ (pa - l2Base) % coreSpan + (n - 1))
      | _ => false
    if staged then .error (.access 9 0 0 0)
    else if !s.linkUp w.die pa then .error (.access 6 0 0 0)
    else if isDurable pa && !s.betony.rdy then .error .wait
    else if s.host.flips.any (fun f => f.1 < pa + max n 1 && pa < f.2) then .error .wait
    else .ok ()

/-- An access passes, and A and D are set; where they are to be set in a host-homed leaf whose link is down, the access faults with
link-down, and where their leaf lies in the durable tier, and that is not ready, it waits (R31, R46, R74, R150). -/
def State.land (s : State) (w : Who) (l : Leaf) (acc pa n : Nat) : Except Stop State :=
  match s.passes w pa n with
  | .error e => .error e
  | .ok () =>
    if s.marks l acc && !s.linkUp w.die l.pte then .error (.access 6 0 0 0)
    else if s.marks l acc && isDurable l.pte && !s.betony.rdy then .error .wait
    else .ok (s.touch w l acc)

/-- A stop of `passes` with the address and access filled in. -/
def Stop.atVa (e : Stop) (va acc ver : Nat) : Stop :=
  match e with
  | .access c _ _ _ => .access c va acc ver
  | e => e

/-- Where an access goes: the physical address and the attributes that matter to it. -/
structure Place where
  pa : Nat
  pol : Nat
  io : Bool
  leaf : Leaf
  deriving DecidableEq, Repr, Inhabited

/-- A walk for an access: its leaf fills the TLBs; a failed one removes what they hold of the address, and faults; the access waits while the
walk goes on (R30, R34, R35, R74). -/
def walkLeaf (w : Who) (va acc : Nat) : M Leaf := do
  let s ← get
  match s.walk w.die w.root va with
  | .error 0 => waitMore
  | .error c => do
    set (s.tlbDrop w va)
    fail (.access c va acc 0)
  | .ok l => do
    set (s.tlbRenew w va l)
    return l

/-- An access through a leaf: its rights, the checks after translation, then A and D (R31, R39, R42). Where no handle is used, handle-offset
names the virtual address (log 99). -/
def landOn (w : Who) (l : Leaf) (va acc pol : Nat) : M Place := do
  let c := l.denies w acc
  if c ≠ 0 then fail (.access c va acc 0)
  let pa := l.pa + (va - l.va)
  match (← get).land w l acc pa 1 with
  | .error e => fail (e.atVa va acc 0)
  | .ok s =>
    set s
    return { pa := pa, pol := max l.ceil pol, io := l.io, leaf := l }

/-- Translate an access of one page: a canonical address, the TLB or a walk, R35's second walk before a permission fault, then the
access through the leaf. -/
def translate (w : Who) (va acc pol : Nat) : M Place := do
  if !canonical va then fail (.access 0xB va acc 0)
  let s ← get
  let l ← match s.tlbLookup w va with
    | some l => if l.denies w acc = 0 then pure l else walkLeaf w va acc
    | none => walkLeaf w va acc
  landOn w l va acc pol

/-! ### Invalidation (R43) -/

/-- What an invalidation names: a VF, an ASID or all, and a range of addresses (whole space where it has no length). -/
structure Inval where
  vf : Nat
  asid : Option Nat
  va : Nat
  len : Nat
  deriving DecidableEq, Repr, Inhabited

def Inval.overlaps (i : Inval) (va level : Nat) : Bool :=
  i.len = 0 || (va < i.va + i.len && i.va < va + pageSize level)

def Inval.matchesTlb (i : Inval) (e : TlbEntry) : Bool :=
  e.vf = i.vf && i.overlaps e.leaf.va e.leaf.level &&
  match i.asid with
  | none => true
  | some a => !e.leaf.g && e.asid = a

def Inval.matchesVer (i : Inval) (h : HVer) : Bool :=
  h.state = .valid && i.overlaps h.leaf.va h.leaf.level &&
  match i.asid with
  | none => true
  | some a => !h.leaf.g && h.asid = a

/-- Clear the valid bit of the versions that a test picks (R36, R43, R45). -/
def HVer.revokeIf (p : HVer → Bool) (h : HVer) : HVer := if p h then { h with state := .revoked } else h

/-- The same of every version that a control core, or its part of a checkpoint, holds. -/
def CoreRegs.revoke (c : CoreRegs) (p : HVer → Bool) : CoreRegs :=
  { c with ph := c.ph.map (fun h => { cur := h.cur.revokeIf p, old := h.old.map (HVer.revokeIf p) }) }

/-- The same of every version of a bank: those of its checkpoints too, which a rollback would bring back (R44, R45, R258; log 87). -/
def Bank.revoke (b : Bank) (p : HVer → Bool) : Bank :=
  { b with
    core := b.core.revoke p
    ckpts := b.ckpts.map (fun c => { c with core := c.core.revoke p }) }

/-- Remove every matching TLB entry and revoke every matching handle version of the package, saved contexts included
(R43). -/
def State.invalidate (s : State) (i : Inval) : State :=
  let keep := fun (e : TlbEntry) => !i.matchesTlb e
  let rev := fun (b : Bank) => if b.vfId = i.vf && b.task.isSome then b.revoke i.matchesVer else b
  { s with
    cores := s.cores.map (fun c => (c.1, { c.2 with tlb := c.2.tlb.filter keep }))
    dies := s.dies.map (fun d => (d.1, { d.2 with tlb := d.2.tlb.filter keep }))
    banks := s.banks.map (fun b => (b.1, rev b.2))
    saved := s.saved.map (fun c => (c.1, { c.2 with state := rev c.2.state })) }

end Sys2Proof.Machine
end

