-- ==== Sys2Proof/Machine/Access.lean ====
section
/-! DEFINITION. Reading and writing memory for the agents of a bank: phase buffers held apart (R153, R255), poison (R351),
durable stores (R72 to R79), domain writes (R143, R144) and reservations (R149). -/

namespace Sys2Proof.Machine

/-! ### Phase buffers (R255) -/

/-- The local bytes of the span of a region register, if it has one (R255). -/
def Region.span (r : Region) : Option (Nat × Nat) :=
  let count := bits r.geom.toNat 0 16
  let stride : Int := (r.geom.extractLsb' 16 32).toInt
  let base : Nat := bits r.base.toNat 0 26
  if bit r.geom.toNat 63 || count = 0 then none
  else if 0 ≤ stride then some (base, base + 4 * (((count - 1 : Nat) : Int) * stride + 1).toNat)
  else some (((base : Int) + 4 * ((count - 1 : Nat) : Int) * stride).toNat, base + 4)

/-- The core-scratchpad ranges of the bank's phase buffers, as local addresses (R255). -/
def Bank.phaseRanges (b : Bank) : List (Nat × Nat) :=
  let rings := (b.engine .mx).regs.rings.toList.map
    (fun g => (g.base * 256, (g.base + g.slots * g.size) * 256))
  let spans := ((b.engine .vx).regs.regions.toList.drop 16).filterMap Region.span
  (rings ++ spans).filter (fun r => r.1 < r.2)

def scratchBase (g : Nat) : Nat := coreBase + g * coreSpan

/-- A byte of the core scratchpad of the bank's core. -/
def inScratch (bid pa : Nat) : Bool := scratchBase (coreOf bid) ≤ pa && pa < scratchBase (coreOf bid) + scratchSize

/-- Whether an address is a phase-buffer byte of the bank. -/
def Bank.inPhaseBuffer (b : Bank) (bid pa : Nat) : Bool :=
  let lo := scratchBase (coreOf bid)
  inScratch bid pa && b.phaseRanges.any (fun r => r.1 ≤ pa - lo && pa - lo < r.2)

/-- The core-scratchpad and lane-slice parts of a range of local addresses, as physical ranges. -/
def savedRange (g lo hi : Nat) : List (Nat × Nat) :=
  let part := fun (a b base : Nat) =>
    if max lo a < min hi b then [(base + (max lo a - a), base + (min hi b - a))] else []
  part 0 0x300000 (scratchBase g) ++ part 0x300000 0x340000 (laneBase + g * 0x40000)

/-- The physical ranges of the spans of the local region registers, on a core (R255). -/
def EngRegs.spanRanges (r : EngRegs) (g : Nat) : List (Nat × Nat) :=
  (r.regions.toList.filterMap Region.span).flatMap (fun x => savedRange g x.1 x.2)

/-- The bytes of a range at the boundary that begins phase `p`: those of memory, and those that earlier phases hold apart. -/
def Bank.spanMem (b : Bank) (m : Mem) (p lo hi : Nat) : Mem :=
  (b.held.filter (fun h => h.phase < p && lo ≤ h.addr && h.addr < hi)).reverse.foldl (fun m h => m.set h.addr h.val) (m.clip lo hi)

/-- A checkpoint whose vector engine has reached the boundary takes the bytes of the spans of its region registers (R257, R310). -/
def Bank.spansOf (b : Bank) (g : Nat) (m : Mem) (c : Ckpt) : Ckpt :=
  match c.spans, PMap.find c.eng (engIx .vx).val with
  | none, some r => { c with spans := some ((r.spanRanges g).map (fun x => (x.1, x.2, b.spanMem m c.phase x.1 x.2))) }
  | _, _ => c

def Bank.takeSpans (b : Bank) (g : Nat) (m : Mem) : Bank := { b with ckpts := b.ckpts.map (b.spansOf g m) }

/-- The same in every bank. -/
def State.takeSpans (s : State) : State := { s with banks := s.banks.map (fun e => (e.1, e.2.takeSpans (coreOf e.1) s.mem)) }

/-- Memory with the bytes of a checkpoint's spans where a save under a map has left them undefined (R189, R257, R310; log 69). -/
def Ckpt.mend (c : Ckpt) (m : Mem) : Mem := (c.spans.getD []).foldl (fun m x => m.mend x.1 x.2.1 x.2.2) m

/-- The phase of what an agent of the bank executes: an issued copy word is in the phase it issued in (R152). -/
def Bank.phaseOf (b : Bank) : Option Engine → Nat
  | none => b.phase
  | some .cx => match b.flights with
    | f :: _ => f.phase
    | [] => (b.engine .cx).phase
  | some e => (b.engine e).phase

/-- The tick in which the instruction or word that an agent executes began (R76). -/
def State.beganAt (s : State) (bid : Nat) : Option Engine → Nat
  | none => s.ticks
  | some .cx => match (s.bank bid).flights with
    | f :: _ => f.tick
    | [] => s.ticks
  | some e => match ((s.bank bid).engine e).stopped with
    | some st => st.began
    | none => s.ticks

/-- Every word of phase `p` has completed (R152). -/
def Bank.phaseDone (b : Bank) (p : Nat) : Bool :=
  allEngines.all (fun e => p < (b.engine e).phase) && b.flights.all (fun f => p < f.phase)

/-- A word of a phase before `p` may still run. -/
def Bank.earlierOpen (b : Bank) (p : Nat) : Bool := (List.range (p - b.committed)).any (fun i => !b.phaseDone (b.committed + i))

/-- The value of a byte that phase `p` holds apart. -/
def Bank.ownByte (b : Bank) (p pa : Nat) : Option Byte := (b.held.find? (fun h => h.addr = pa && h.phase = p)).map (·.val)

/-- A reader in phase `p` waits for a byte that an earlier phase has written and not committed; an engine word, too, for a phase-buffer byte
while a word of an earlier phase may still write it (R153, R255; log 100). -/
def Bank.awaits (b : Bank) (bid : Nat) (word : Bool) (p pa : Nat) : Bool :=
  b.held.any (fun h => h.addr = pa && h.phase < p) || (word && b.inPhaseBuffer bid pa && b.earlierOpen p)

/-- A byte as an agent of the bank reads it: its own phase's held value, or committed memory; none while it waits for the commit of an
earlier phase (R153). -/
def State.peek (s : State) (bid : Nat) (e : Option Engine) (pa : Nat) : Option Byte :=
  let b := s.bank bid
  let p := b.phaseOf e
  match b.ownByte p pa with
  | some v => some v
  | none => if b.awaits bid e.isSome p pa then none else some (s.mem.get pa)

/-- The first poisoned line from which `n` bytes take a byte that the agent's own phase does not hold (R153, R351, R352). -/
def State.poisoned (s : State) (bid : Nat) (e : Option Engine) (pa n : Nat) : Option Nat :=
  let b := s.bank bid
  let own := fun (a : Nat) => b.held.any (fun h => h.addr = a && h.phase = b.phaseOf e)
  (linesOf pa n).find? (fun l => s.poison.contains l
    && (List.range n).any (fun i => lineOf (pa + i) = l && !own (pa + i)))

/-- Bytes of memory as an agent of the bank reads them: one that waits for a commit has read none yet, and consumes no poison (R152, R153,
R352). -/
def loadBytes (bid : Nat) (e : Option Engine) (pa n : Nat) : M (List Byte) := do
  let s ← get
  match (List.range n).mapM (fun i => s.peek bid e (pa + i)) with
  | none => waitMore
  | some bs =>
    match s.poisoned bid e pa n with
    | some l => fail (.poison (some l))
    | none => return bs

/-! ### Writes -/

/-- A write of the agent to an address is held apart until its phase commits (R153, R255). -/
def Bank.keepsApart (b : Bank) (bid : Nat) (e : Option Engine) (pa : Nat) : Bool := e.isSome && b.inPhaseBuffer bid pa

/-- One byte written by an agent of the bank: an engine's write to a phase buffer is held apart; any other goes to memory
(R153, R255). -/
def State.poke (s : State) (bid : Nat) (e : Option Engine) (pa : Nat) (v : Byte) : State :=
  let b := s.bank bid
  if b.keepsApart bid e pa then
    s.setBank bid { b with held := ⟨b.phaseOf e, pa, v⟩ :: b.held }
  else
    let s := { s with mem := s.mem.set pa v }
    if b.held.isEmpty then s else s.setBank bid { b with held := b.held.filter (fun h => h.addr ≠ pa) }

def State.pokes (s : State) (bid : Nat) (e : Option Engine) (pa : Nat) : List Byte → State
  | [] => s
  | v :: vs => (s.poke bid e pa v).pokes bid e (pa + 1) vs

/-- The window of the present time (R141). -/
def State.window (s : State) : Nat := s.ftime / 128

/-- A domain write to a line in a window joins a list: the latest window counts (R146). -/
def joinDom (m : PMap Nat) (line window : Nat) : PMap Nat := PMap.put m line (max window (PMap.get 0 m line))

def joinAll (m : PMap Nat) (l : List (Nat × Nat)) : PMap Nat := l.foldl (fun m d => joinDom m d.1 d.2) m

/-- The domain writes of `n` bytes by an agent of a bank: a control-core store issues now; an engine write waits for its marker
(R143, R144). -/
def State.domainWrite (s : State) (bid : Nat) (e : Option Engine) (pa n : Nat) : State :=
  if isDomain pa then
    match e with
    | none => s.modBank bid (fun b => { b with dom := joinAll b.dom ((linesOf pa n).map (fun l => (l, s.window))) })
    | some e => s.modBank bid (fun b => b.modEngine e (fun g =>
        { g with domWrites := (linesOf pa n).map (fun l => (b.phaseOf (some e), l)) ++ g.domWrites }))
  else s

/-- A full-line write clears the line's poison (R351). -/
def State.unpoison (s : State) (pa n : Nat) : State :=
  { s with poison := s.poison.filter (fun l => !(pa ≤ l * 64 && l * 64 + 64 ≤ pa + n)) }

/-- A write of an agent of a bank that has passed translation. -/
def State.storeAt (s : State) (bid : Nat) (e : Option Engine) (p : Place) (data : List Byte) : State :=
  let b := s.bank bid
  let n := data.length
  let s := s.dirtyLines (dieOf bid) b.vfId p.pa n p.pol
  let s := s.pokes bid e p.pa data
  let s := s.durable (dagent bid e) p.pa n p.pol (s.beganAt bid e) (if e.isNone then b.barred else [])
  let s := s.domainWrite bid e p.pa n
  let s := s.breakResv (some bid) p.pa n
  if b.keepsApart bid e p.pa then s else s.unpoison p.pa n

/-- A write from outside the package or by a unit of a die: straight to memory; a reservation of the writer's own stands (R72, R143, R149). -/
def State.storeFrom (s : State) (agent : DAgent) (holder : Option Nat) (pa : Nat) (data : List Byte) : State :=
  let s := { s with mem := s.mem.write pa data }
  let s := s.durable agent pa data.length 0 s.ticks []
  (s.breakResv holder pa data.length).unpoison pa data.length

/-- The same of a writer that holds no reservations. -/
def State.storeOutside (s : State) (agent : DAgent) (pa : Nat) (data : List Byte) : State := s.storeFrom agent none pa data

/-- A place for an on-chip address that is not translated (R48). -/
def rawPlace (pa : Nat) : Place := { pa := pa, pol := 3, io := false, leaf := Leaf.none }

/-! ### Accesses of the control core (R125) -/

/-- Translate `n` bytes from an address: one access where aligned, byte accesses where not (R125). -/
def translateSpan (w : Who) (va n acc pol : Nat) : M (List (Place × Nat)) :=
  if va % n = 0 then return [(← translate w va acc pol, n)]
  else (List.range n).mapM (fun i => return (← translate w ((va + i) % 2 ^ 64) acc pol, 1))

/-- A load of the control core of the bank in execution. -/
def loadVa (w : Who) (va n : Nat) : M Nat := do
  let ps ← translateSpan w va n accR 0
  let bid ← curBid
  let bs ← ps.mapM (fun p => loadBytes bid none p.1.pa p.2)
  return leNat bs.flatten

/-- Bytes with their places, joined where they follow each other in one page. -/
def joinRuns : List (Place × Byte) → List (Place × List Byte)
  | [] => []
  | (p, v) :: rest =>
    match joinRuns rest with
    | (q, d) :: more => if q.leaf = p.leaf && q.pa = p.pa + 1 then (p, v :: d) :: more else (p, [v]) :: (q, d) :: more
    | [] => [(p, [v])]

/-- `n` bytes of a value stored at the places of a span: at once, or byte by byte, in one step (R125); each word that they touch takes one
store (R72). -/
def State.storeSpan (s : State) (bid : Nat) (ps : List (Place × Nat)) (n v : Nat) : State :=
  match ps with
  | [p] => s.storeAt bid none p.1 (leBytes n v)
  | ps => (joinRuns (ps.map (·.1) |>.zip (leBytes n v))).foldl (fun s r => s.storeAt bid none r.1 r.2) s

/-- A store of the control core of the bank in execution. -/
def storeVa (w : Who) (va n : Nat) (v : Nat) : M Unit := do
  let ps ← translateSpan w va n accW 0
  let bid ← curBid
  modify (·.storeSpan bid ps n v)

/-- Bytes of a block that lies in one page, as loads of a requester (R96, R120). -/
def loadBlock (w : Who) (va n : Nat) : M (List Byte) := do
  let p ← translate w va accR 0
  loadBytes (← curBid) none p.pa n

/-- The word `i` of a block of little-endian 64-bit words. -/
def blockWord (bs : List Byte) (i : Nat) : Nat := leNat ((bs.drop (8 * i)).take 8)

end Sys2Proof.Machine
end

