-- ==== Sys2Proof/Machine/Handles.lean ====
section
/-! DEFINITION. Page handles (R36 to R41): versions, the outcome of a use (R39, R40, R244), and local addresses (R48, R49). -/

namespace Sys2Proof.Machine

/-! ### Versions (R38) -/

def Handle.find (h : Handle) (id : Nat) : Option HVer :=
  if h.cur.id = id then some h.cur else h.old.find? (·.id = id)

def Handle.update (h : Handle) (id : Nat) (f : HVer → HVer) : Handle :=
  { cur := if h.cur.id = id then f h.cur else h.cur, old := h.old.map (fun v => if v.id = id then f v else v) }

def Bank.handle (b : Bank) (p : BitVec 4) : Handle := b.core.ph[p.toFin]

def Bank.setHandle (b : Bank) (p : BitVec 4) (h : Handle) : Bank :=
  { b with core := { b.core with ph := b.core.ph.set p.toFin h } }

/-- The current version numbers, which a command entry is pushed with (R38). -/
def Bank.curVers (b : Bank) : List Nat := b.core.ph.toList.map (·.cur.id)

/-- The versions that commands of the bank still use (R38). -/
def Bank.usedVers (b : Bank) : List Nat :=
  (b.eng.toList.map (fun e => e.queue.map (·.vers) ++ (e.entry.map (·.vers)).toList)).flatten.flatten
    ++ (b.flights.map (·.vers)).flatten

/-- The versions of a handle without the oldest ones that no command uses any more, the current one first (R38; log 68). -/
def Handle.live (h : Handle) (used : List Nat) : List HVer :=
  ((h.cur :: h.old).reverse.dropWhile (fun v => !used.contains v.id)).reverse

/-- A new version becomes current, and the older ones stay while a command uses the oldest; none where four would stay (R38). -/
def Bank.newVersion (b : Bank) (p : BitVec 4) (used : List Nat) (f : Nat → HVer) : Option Bank :=
  let old := (b.handle p).live used
  if 4 ≤ old.length then none
  else some { (b.setHandle p { cur := f b.nextVer, old := old }) with nextVer := b.nextVer + 1 }

/-- The bank in whose handles an engine word of a bank resolves handle addresses: the leader's under a gang (R239). -/
def State.handleBank (s : State) (bid : Nat) : Nat :=
  match (s.bank bid).gang with
  | some g => if g.formed then g.members.headD bid else bid
  | none => bid

/-- The members of the gang a bank leads, or the bank alone (R173). -/
def State.members (s : State) (bid : Nat) : List Nat :=
  match (s.bank bid).gang with
  | some g => if g.formed then g.members else [bid]
  | none => [bid]

/-- The versions that commands of a bank, or of the gang it leads, still use (R38, R239). -/
def State.usedVers (s : State) (bid : Nat) : List Nat := (s.members bid).flatMap (fun m => (s.bank m).usedVers)

/-- Who a handle access of a bank translates as (R39). -/
def State.whoHandle (s : State) (bid : Nat) (e : Option Engine) : Who :=
  match e with
  | none => s.whoCore bid
  | some _ => { s.whoEngine (s.handleBank bid) with core := some (coreOf bid), die := dieOf bid }

/-! ### A use of a handle (R39, R40, R244) -/

/-- The version a use refers to: by its number, or the current one. -/
def State.useVer (s : State) (hb : Nat) (p : BitVec 4) (id : Option Nat) : HVer :=
  let h := (s.bank hb).handle p
  match id with
  | none => h.cur
  | some i => (h.find i).getD h.cur

def setVer (hb : Nat) (p : BitVec 4) (v : HVer) : M Unit :=
  modify fun s => s.modBank hb (fun b => b.setHandle p ((b.handle p).update v.id (fun _ => v)))

/-- The key under which an access of an agent waits for a walk: its number in R182, or five and the number of an issued copy word. -/
def Bank.useKey (b : Bank) : Option Engine → Nat
  | none => 0
  | some .cx => match b.flights with
    | f :: _ => 5 + f.n
    | [] => 3
  | some e => 1 + (engIx e).val

/-- A use waits for the walk of a version (R39). -/
def waitWalk {α : Type} (bid key ver va acc : Nat) : M α := do
  modify fun s => s.modBank bid (fun b => { b with uses := PMap.put b.uses key ⟨ver, va, acc⟩ })
  waitMore

/-- Walk the page of a version once more, at `va`; a failure leaves it pending with its cause, and the access to the byte at `byte`
faults (R35, R39, R182, R244); the access waits while the walk goes on (R74). -/
def rewalk (w : Who) (hb : Nat) (p : BitVec 4) (v : HVer) (va byte acc : Nat) : M HVer := do
  let s ← get
  match s.walk w.die w.root va with
  | .error 0 => waitMore
  | .error c => do
    set (s.tlbDrop w va)
    setVer hb p { v with state := .pending, cause := c }
    fail (.access c byte acc v.id)
  | .ok l => do
    set (s.tlbRenew w va l)
    let v' := { v with state := .valid, cause := 0, leaf := l }
    setVer hb p v'
    return v'

/-- The page of a version, by the number a use gives it: an empty one faults, a pending one waits for its walk or faults with its
cause, a revoked one is walked again for an engine and faults for the control core (R39, R244). `key` is the key of the use. -/
def versionPage (bid key : Nat) (e : Option Engine) (w : Who) (hb : Nat) (p : BitVec 4) (v : HVer) (off len acc : Nat) : M HVer :=
  let pageVa := canonAddr (v.vpage * 4096)
  match v.state with
  | .empty => fail (.access 0xA p.toNat acc v.id)
  | .pending =>
    let va := (pageVa + off) % 2 ^ 64
    if v.cause = 0 then waitWalk bid key v.id va acc else fail (.access v.cause va acc v.id)
  | .valid => pure v
  | .revoked =>
    if e.isNone then fail (.access (if pageSize v.leaf.level < off + len then 9 else 8) p.toNat acc v.id)
    else rewalk w hb p v pageVa (v.leaf.va + off) acc

/-- An access through the page of a version: its rights, its bounds, the checks after translation, then A and D (R31, R39, R40). -/
def landOnPage (w : Who) (p : BitVec 4) (v : HVer) (off len acc pol : Nat) : M Place := do
  let c := v.leaf.denies w acc
  if c ≠ 0 then fail (.access c (v.leaf.va + off) acc v.id)
  if pageSize v.leaf.level < off + len then fail (.access 9 p.toNat acc v.id)
  let pa := v.leaf.pa + off
  match (← get).land w v.leaf acc pa len with
  | .error (.access 9 _ _ _) => fail (.access 9 p.toNat acc v.id)
  | .error x => fail (x.atVa (v.leaf.va + off) acc v.id)
  | .ok s =>
    set s
    return { pa := pa, pol := max v.leaf.ceil pol, io := v.leaf.io, leaf := v.leaf }

/-- The place of `len` bytes at an offset of a handle, for the control core or an engine word: its page, its bounds, R35's second walk
before a permission fault, then the access (R39, R40, R244). The second walk of a valid handle is at the byte accessed, and the
offset counts from the page it finds (log 56). -/
def handlePlace (bid : Nat) (e : Option Engine) (p : BitVec 4) (id : Option Nat) (off len acc pol : Nat) : M Place := do
  let s ← get
  let hb := s.handleBank bid
  let w := s.whoHandle bid e
  let v ← versionPage bid ((s.bank bid).useKey e) e w hb p (s.useVer hb p id) off len acc
  if pageSize v.leaf.level < off + len then fail (.access 9 p.toNat acc v.id)
  let v ← if v.leaf.denies w acc = 0 then pure v else rewalk w hb p v (v.leaf.va + off) (v.leaf.va + off) acc
  landOnPage w p v off len acc pol

/-- Handle number and offset of a handle address (R22). -/
def haddrPh (a : Word) : BitVec 4 := a.extractLsb' 60 4
def haddrOff (a : Word) : Nat := bits a.toNat 0 60

/-! ### Local addresses (R48, R49) -/

/-- A range of the local map (R48). -/
inductive LocalRange where
  | scratch | lanes | shared | chip
  deriving DecidableEq, Repr, Inhabited

def localRange (la : Nat) : Option LocalRange :=
  if la < 0x300000 then some .scratch
  else if la < 0x340000 then some .lanes
  else if la < 0x400000 then none
  else if la < 0xC00000 then some .shared
  else if la < 0x1000000 then none
  else if la < 0x3000000 then some .chip
  else none

/-- Where a local address of core `g` lies (R48, R49). -/
def localPa (g la : Nat) : Nat :=
  match localRange la with
  | some .scratch => scratchBase g + la
  | some .lanes => laneBase + g * 0x40000 + (la - 0x300000)
  | some .shared =>
    coreBase + (clusterOfCore g * 8 + (la - 0x400000) / 0x100000) * coreSpan + scratchSize + (la - 0x400000) % 0x100000
  | _ => chipBase + dieOfCore g * chipSize + (la - 0x1000000)

/-- An extent that lies in one range of R48; only vector words may name the lane window (R49). -/
def localOk (vector : Bool) (la len : Nat) : Bool :=
  match localRange la with
  | none => false
  | some r => (len = 0 || localRange (la + len - 1) = some r) && (vector || r ≠ .lanes)

/-- Bytes at local addresses of the bank's core, as a word of an engine reads them. -/
def loadLocal (bid : Nat) (e : Engine) (la : Nat) : Nat → M (List Byte)
  | 0 => return []
  | n + 1 => do
    let b ← loadBytes bid (some e) (localPa (coreOf bid) la) 1
    return b ++ (← loadLocal bid e (la + 1) n)

/-- Bytes written at local addresses by a word of an engine. -/
def State.storeLocal (s : State) (bid : Nat) (e : Engine) (la : Nat) : List Byte → State
  | [] => s
  | v :: vs =>
    let pa := localPa (coreOf bid) la
    ((s.poke bid (some e) pa v).breakResv (some bid) pa 1).storeLocal bid e (la + 1) vs

/-- A write of a block at local addresses that is not held apart clears the poison of the lines it writes whole (R351). -/
def State.unpoisonLocal (s : State) (bid : Nat) (e : Engine) (la n : Nat) : State :=
  let pa := localPa (coreOf bid) la
  if (s.bank bid).keepsApart bid (some e) pa then s else s.unpoison pa n

/-- A block written at local addresses. -/
def State.storeLocalBlock (s : State) (bid : Nat) (e : Engine) (la : Nat) (d : List Byte) : State :=
  (s.unpoisonLocal bid e la d.length).storeLocal bid e la d

end Sys2Proof.Machine
end

