-- ==== Sys2Proof/Machine/Engine.lean ====
section
/-! DEFINITION. The engine in execution, reads under a view of the state, and what a word keeps that stops (R180). -/

namespace Sys2Proof.Machine

def curEng (e : Engine) : M Eng := return (← curBank).engine e
def modEng (e : Engine) (f : Eng → Eng) : M Unit := modCur (·.modEngine e f)
def Eng.modRegs (g : Eng) (f : EngRegs → EngRegs) : Eng := { g with regs := f g.regs }
def modRegs (e : Engine) (f : EngRegs → EngRegs) : M Unit := modEng e (·.modRegs f)

/-- A body that reads a view of the state, and leaves the state as it is. -/
def viewing {α : Type} (f : State → State) (m : M α) : M α := do
  match m.run (f (← get)) with
  | .ok a _ => return a
  | .error e _ => fail e

/-- The word keeps operands, progress and values until it resumes (R180); `mul` where it is a multiply word. -/
def keepAs (e : Engine) (ops : List Word) (done : Nat) (vals : List Nat) (mul : Option MulJob) : M Unit := do
  let t := (← get).beganAt (← curBid) (some e)
  modEng e (fun g => { g with stopped := some { ops := ops, done := done, vals := vals, mul := mul, began := t, waiter := none } })

def keep (e : Engine) (ops : List Word) (done : Nat) (vals : List Nat) : M Unit := keepAs e ops done vals none

end Sys2Proof.Machine
end

