-- ==== Sys2Proof/Machine/Number.lean ====
section
/-! DEFINITION. The element formats, their exact values, rounding into them (R206 to R210), exact arithmetic, the exponential
and the logarithm rounded once, the estimate tables (R301, R302) and the radix-select key (R218). -/

namespace Sys2Proof.Machine

/-! ### Exact values -/

/-- An exact value (−1)^neg × m × 2^e, an infinity or NaN. -/
inductive Num where
  | nan
  | inf (neg : Bool)
  | fin (neg : Bool) (m : Nat) (e : Int)
  deriving DecidableEq, Repr, Inhabited

/-- The sticky flags of k15 (R296). -/
abbrev flagNV : Nat := 1
abbrev flagDZ : Nat := 2
abbrev flagOF : Nat := 4
abbrev flagUF : Nat := 8

/-- Bits of a result and the flags it raises. -/
abbrev Res := Nat × Nat

def Num.isNan : Num → Bool
  | .nan => true
  | _ => false

def Num.neg : Num → Bool
  | .nan => false
  | .inf n => n
  | .fin n _ _ => n

def Num.isZero : Num → Bool
  | .fin _ 0 _ => true
  | _ => false

def Num.negate : Num → Num
  | .nan => .nan
  | .inf n => .inf (!n)
  | .fin n m e => .fin (!n) m e

def Num.absolute : Num → Num
  | .nan => .nan
  | .inf _ => .inf false
  | .fin _ m e => .fin false m e

/-- The signed integer m × 2^(e − q), for q ≤ e. -/
def scaled (neg : Bool) (m : Nat) (e q : Int) : Int :=
  let v : Int := (m * 2 ^ (e - q).toNat : Nat)
  if neg then -v else v

/-- The value of an integer times a power of two; zero has the sign given. -/
def Num.ofInt (v e : Int) (zeroNeg : Bool) : Num :=
  if v = 0 then .fin zeroNeg 0 0 else .fin (v < 0) v.natAbs e

/-- a + b, exactly (R215, R297): −0 only from two zeros of that sign. -/
def Num.add : Num → Num → Num × Nat
  | .nan, _ | _, .nan => (.nan, 0)
  | .inf a, .inf b => if a = b then (.inf a, 0) else (.nan, flagNV)
  | .inf a, _ => (.inf a, 0)
  | _, .inf b => (.inf b, 0)
  | .fin a m e, .fin b n f =>
    let q := min e f
    (Num.ofInt (scaled a m e q + scaled b n f q) q (a && b), 0)

/-- a × b, exactly. -/
def Num.mul : Num → Num → Num × Nat
  | .nan, _ | _, .nan => (.nan, 0)
  | .inf a, .inf b => (.inf (a != b), 0)
  | .inf a, .fin b n _ => if n = 0 then (.nan, flagNV) else (.inf (a != b), 0)
  | .fin a m _, .inf b => if m = 0 then (.nan, flagNV) else (.inf (a != b), 0)
  | .fin a m e, .fin b n f => (.fin (a != b) (m * n) (e + f), 0)

/-- a × b + c, exactly. -/
def Num.fma (a b c : Num) : Num × Nat :=
  let (p, f) := a.mul b
  let (r, g) := p.add c
  (r, f ||| g)

/-- a ÷ b, to 64 bits and a last bit that says whether anything follows: enough to round once into FP32. -/
def Num.div : Num → Num → Num × Nat
  | .nan, _ | _, .nan => (.nan, 0)
  | .inf _, .inf _ => (.nan, flagNV)
  | .inf a, .fin b _ _ => (.inf (a != b), 0)
  | .fin a _ _, .inf b => (.fin (a != b) 0 0, 0)
  | .fin a m e, .fin b n f =>
    if n = 0 then (if m = 0 then (.nan, flagNV) else (.inf (a != b), flagDZ))
    else
      let k := 64 + n.log2
      let q := m * 2 ^ k / n
      let r := m * 2 ^ k % n
      (.fin (a != b) (2 * q + b2n (r ≠ 0)) (e - f - k - 1), 0)

/-- a < b as numbers; false with a NaN; the zeros are equal. -/
def Num.lt : Num → Num → Bool
  | .nan, _ | _, .nan => false
  | .inf a, .inf b => a && !b
  | .inf a, _ => a
  | _, .inf b => !b
  | .fin a m e, .fin b n f =>
    let q := min e f
    decide (scaled a m e q < scaled b n f q)

/-- The larger, with −0 < +0; a NaN gives NaN (R298). -/
def Num.max (a b : Num) : Num :=
  if a.isNan || b.isNan then .nan else if a.lt b then b else if b.lt a then a else if a.neg then b else a

/-- The smaller, with −0 < +0; a NaN gives NaN (R298). -/
def Num.min (a b : Num) : Num :=
  if a.isNan || b.isNan then .nan else if a.lt b then a else if b.lt a then b else if a.neg then a else b

/-! ### Floating-point formats (R206, R208, R209) -/

/-- What the top codes of a format mean. -/
inductive TopCodes where
  /-- the top exponent holds ∞ and the NaNs -/
  | ieee
  /-- the top code of either sign is a NaN (E4M3) -/
  | oneNan
  /-- numbers -/
  | finite
  deriving DecidableEq, Repr, Inhabited

structure FloatFmt where
  man : Nat
  exp : Nat
  bias : Nat
  top : TopCodes
  deriving DecidableEq, Repr, Inhabited

def fp32 : FloatFmt := ⟨23, 8, 127, .ieee⟩
def bf16 : FloatFmt := ⟨7, 8, 127, .ieee⟩
def fp16 : FloatFmt := ⟨10, 5, 15, .ieee⟩
def e4m3 : FloatFmt := ⟨3, 4, 7, .oneNan⟩
def e5m2 : FloatFmt := ⟨2, 5, 15, .ieee⟩
def e2m1 : FloatFmt := ⟨1, 2, 1, .finite⟩
def e3m0 : FloatFmt := ⟨0, 3, 4, .finite⟩
/-- The unsigned scale format; its sign bit lies above its eight bits (R206). -/
def e3m5 : FloatFmt := ⟨5, 3, 3, .finite⟩

/-- Exponent of the lowest bit of a subnormal. -/
def FloatFmt.low (f : FloatFmt) : Int := 1 - f.bias - f.man

def FloatFmt.signBit (f : FloatFmt) : Nat := 2 ^ (f.man + f.exp)

/-- The code of +∞, or the first code above the largest finite one. -/
def FloatFmt.infCode (f : FloatFmt) : Nat :=
  match f.top with
  | .ieee => (2 ^ f.exp - 1) * 2 ^ f.man
  | .oneNan => f.signBit - 1
  | .finite => f.signBit

/-- The canonical NaN (R208); a format without NaNs takes zero (R209). -/
def FloatFmt.nanCode (f : FloatFmt) : Nat :=
  match f.top with
  | .ieee => f.infCode + 2 ^ (f.man - 1)
  | .oneNan => f.infCode
  | .finite => 0

/-- The value of a code (R206). -/
def FloatFmt.decode (f : FloatFmt) (v : Nat) : Num :=
  let m := v % 2 ^ f.man
  let e := v / 2 ^ f.man % 2 ^ f.exp
  let neg := bit v (f.man + f.exp)
  if f.top = .ieee && e = 2 ^ f.exp - 1 then (if m = 0 then .inf neg else .nan)
  else if f.top = .oneNan && v % f.signBit = f.signBit - 1 then .nan
  else if e = 0 then .fin neg m f.low
  else .fin neg (2 ^ f.man + m) (f.low + (e - 1))

/-- The nearest code of a magnitude, ties to the even code, and whether it is inexact (R209). Codes rise with the values, and a code
is even where its lowest mantissa bit is 0, or for E3M0 its exponent field even. -/
def FloatFmt.nearest (f : FloatFmt) (m : Nat) (e : Int) : Nat × Bool :=
  if m = 0 then (0, false)
  else
    let q := max ((m.log2 : Int) + e - f.man) f.low
    let base := (q - f.low).toNat * 2 ^ f.man
    if q ≤ e then (base + m * 2 ^ (e - q).toNat, false)
    else
      let d := 2 ^ (q - e).toNat
      let c := base + m / d
      let r := m % d
      (if d < 2 * r || (2 * r = d && c % 2 = 1) then c + 1 else c, r ≠ 0)

/-- RoundRNE into a floating-point format, with OF and UF (R209, R296). -/
def FloatFmt.round (f : FloatFmt) : Num → Res
  | .nan => (f.nanCode, 0)
  | .inf n => ((if f.top = .ieee then f.infCode else f.infCode - 1) + (if n then f.signBit else 0), 0)
  | .fin n m e =>
    let (c, inexact) := f.nearest m e
    let tiny := m ≠ 0 && (m.log2 : Int) + e < 1 - f.bias
    let sign := if n then f.signBit else 0
    if f.infCode ≤ c then ((if f.top = .ieee then f.infCode else f.infCode - 1) + sign, flagOF)
    else (c + sign, if tiny && inexact then flagUF else 0)

/-- RoundRNE into the unsigned scale format E3M5: a negative value gives 0x00 (R209). -/
def roundScale (x : Num) : Nat :=
  if x.neg then 0 else (e3m5.round x).1

/-! ### Element format codes (R228) -/

abbrev fInt8 : Nat := 5
abbrev fInt32 : Nat := 6
abbrev fInt4 : Nat := 7

def isFloatCode (f : Nat) : Bool := f < 5

def floatFmt : Nat → FloatFmt
  | 1 => bf16 | 2 => fp16 | 3 => e4m3 | 4 => e5m2 | _ => fp32

/-- Width of an element in bits (R228). -/
def codeBits : Nat → Nat
  | 1 => 16 | 2 => 16 | 3 => 8 | 4 => 8 | 5 => 8 | 7 => 4 | _ => 32

/-- Two's-complement value (R207). -/
def signedOf (width v : Nat) : Int :=
  let u := v % 2 ^ width
  if bit u (width - 1) then (u : Int) - 2 ^ width else u

/-- Two's-complement bits. -/
def unsignedOf (width : Nat) (v : Int) : Nat := (v % (2 ^ width : Int)).toNat

def intLow (width : Nat) : Int := -(2 ^ (width - 1) : Int)
def intHigh (width : Nat) : Int := (2 ^ (width - 1) : Int) - 1

/-- An integer saturated to a width, with the flag given where it is outside the range. -/
def saturate (width : Nat) (flag : Nat) (v : Int) : Res :=
  if v < intLow width then (unsignedOf width (intLow width), flag)
  else if intHigh width < v then (unsignedOf width (intHigh width), flag)
  else (unsignedOf width v, 0)

/-- Nearest integer, ties to even. -/
def roundInt (neg : Bool) (m : Nat) (e : Int) : Int :=
  let v : Nat :=
    if 0 ≤ e then m * 2 ^ e.toNat
    else
      let d := 2 ^ (-e).toNat
      let q := m / d
      let r := m % d
      if d < 2 * r || (2 * r = d && q % 2 = 1) then q + 1 else q
  if neg then -(v : Int) else v

/-- RoundRNE into an integer format: NaN gives 0, and what is outside the range the nearest end, each with NV (R209, R300). -/
def roundToInt (width : Nat) : Num → Res
  | .nan => (0, flagNV)
  | .inf n => (unsignedOf width (if n then intLow width else intHigh width), flagNV)
  | .fin n m e => saturate width flagNV (roundInt n m e)

/-- The exact value of an element (R206, R207). -/
def valueOf (f v : Nat) : Num :=
  if isFloatCode f then (floatFmt f).decode v else Num.ofInt (signedOf (codeBits f) v) 0 false

/-- RoundRNE into the format of a code (R209). -/
def roundTo (f : Nat) (x : Num) : Res :=
  if isFloatCode f then (floatFmt f).round x else roundToInt (codeBits f) x

/-- RoundRNE into FP32, without flags. -/
def toFp32 (x : Num) : Nat := (fp32.round x).1
def ofFp32 (v : Nat) : Num := fp32.decode v

/-! ### The exponential and the logarithm, rounded once (R298) -/

/-- Sum of the exponential series of x ÷ 2^p, in units of 2^−p, from below (up = 0) or from above (up = 1). -/
def expSeries (p x up : Nat) : Nat → Nat → Nat → Nat → Nat
  | 0, _, t, s => s + up * t
  | k + 1, n, t, s =>
    let t' := t * x / 2 ^ p / n + up
    expSeries p x up k (n + 1) t' (s + t')

/-- Squared `n` times, from below or from above. -/
def squares (p up : Nat) : Nat → Nat → Nat
  | 0, v => v
  | n + 1, v => squares p up n (v * v / 2 ^ p + up)

/-- m × 2^(e + p), rounded down. -/
def fixedPoint (m : Nat) (e : Int) (p : Nat) : Nat :=
  if 0 ≤ e + p then m * 2 ^ (e + p).toNat else m / 2 ^ (-(e + p)).toNat

/-- Two values that enclose e^(±m·2^e), for 0 < m·2^e < 128, at a precision of p bits. -/
def expBounds (neg : Bool) (m : Nat) (e : Int) (p : Nat) : Num × Num :=
  let x := fixedPoint m (e - 7) p
  let lo := squares p 0 7 (expSeries p x 0 (p / 4 + 12) 1 (2 ^ p) (2 ^ p))
  let hi := squares p 1 7 (expSeries p (x + 1) 1 (p / 4 + 12) 1 (2 ^ p) (2 ^ p))
  if neg then
    (.fin false (2 * (2 ^ (2 * p + 320) / hi) + 1) (-((p + 321 : Nat) : Int)),
     .fin false (2 * (2 ^ (2 * p + 320) / lo) + 1) (-((p + 321 : Nat) : Int)))
  else (.fin false (2 * lo + 1) (-((p + 1 : Nat) : Int)), .fin false (2 * hi - 1) (-((p + 1 : Nat) : Int)))

/-- Sum of z^n ÷ n over odd n, with z² given, in units of 2^−p, from below or from above. -/
def oddSeries (p zz up : Nat) : Nat → Nat → Nat → Nat → Nat
  | 0, _, t, s => s + up * t
  | k + 1, n, t, s =>
    let t' := t * zz / 2 ^ p + up
    oddSeries p zz up k (n + 2) t' (s + t' / n + up)

/-- Two integers that enclose 2^p × ln((d + n) ÷ (d − n)), for n ÷ d ≤ 1/3. -/
def logRatio (n d p : Nat) : Nat × Nat :=
  if n = 0 then (0, 0)
  else
    let a := n * 2 ^ p / d
    let b := a + 1
    (2 * oddSeries p (a * a / 2 ^ p) 0 (p / 3 + 4) 3 a a, 2 * oddSeries p (b * b / 2 ^ p + 1) 1 (p / 3 + 4) 3 b b)

/-- Two values that enclose ln(m × 2^e), for m ≠ 0, at a precision of p bits. -/
def logBounds (m : Nat) (e : Int) (p : Nat) : Num × Num :=
  let l := m.log2
  let k : Int := l + e
  let (a, b) := logRatio (m - 2 ^ l) (m + 2 ^ l) p
  let (c, d) := logRatio 1 3 p
  let lo : Int := if 0 ≤ k then k * c + a else k * d + a
  let hi : Int := if 0 ≤ k then k * d + b else k * c + b
  (Num.ofInt (2 * lo + 1) (-((p + 1 : Nat) : Int)) false, Num.ofInt (2 * hi - 1) (-((p + 1 : Nat) : Int)) false)

/-- Rounding of a value that is enclosed ever more closely: the first precision at which both ends round alike decides. -/
def settleRounding (enc : Num → Res) (bounds : Nat → Num × Num) : List Nat → Res
  | [] => enc (bounds 2048).1
  | p :: ps =>
    let (a, b) := bounds p
    let r := enc a
    if r = enc b then r else settleRounding enc bounds ps

def precisions : List Nat := [128, 256, 512, 1024]

/-- eˣ, rounded once by `enc` (R298). -/
def expRound (enc : Num → Res) : Num → Res
  | .nan => enc .nan
  | .inf n => if n then enc (.fin false 0 0) else enc (.inf false)
  | .fin n m e =>
    if m = 0 then enc (.fin false 1 0)
    else if 7 ≤ (m.log2 : Int) + e then (if n then enc (.fin false 1 (-400)) else enc (.fin false 1 400))
    else settleRounding enc (expBounds n m e) precisions

/-- ln x, rounded once by `enc`, with its flags (R296, R298). -/
def logRound (enc : Num → Res) : Num → Res
  | .nan => enc .nan
  | .inf n => if n then ((enc .nan).1, flagNV) else enc (.inf false)
  | .fin n m e =>
    if m = 0 then ((enc (.inf true)).1, flagDZ)
    else if n then ((enc .nan).1, flagNV)
    else if m = 2 ^ m.log2 && (m.log2 : Int) + e = 0 then enc (.fin false 0 0)
    else settleRounding enc (logBounds m e) precisions

/-- FP32 bits of eˣ and of ln x for FP32 bits. -/
def exp32 (v : Nat) : Nat := (expRound fp32.round (ofFp32 v)).1
def ln32 (v : Nat) : Nat := (logRound fp32.round (ofFp32 v)).1

/-- FP32 bits of sums, differences, products and quotients, rounded once. -/
def add32 (a b : Nat) : Nat := toFp32 ((ofFp32 a).add (ofFp32 b)).1
def sub32 (a b : Nat) : Nat := toFp32 ((ofFp32 a).add (ofFp32 b).negate).1
def mul32 (a b : Nat) : Nat := toFp32 ((ofFp32 a).mul (ofFp32 b)).1
def div32 (a b : Nat) : Nat := toFp32 ((ofFp32 a).div (ofFp32 b)).1
def max32 (a b : Nat) : Nat := toFp32 ((ofFp32 a).max (ofFp32 b))

/-! ### Reciprocal and reciprocal square root (R301, R302) -/

abbrev nan32 : Nat := 0x7FC00000
abbrev inf32 : Nat := 0x7F800000
abbrev sign32 : Nat := 0x80000000

/-- Table entry j of `vrcp`. -/
def rcpTable (j : Nat) : Nat := let d := 257 + 2 * j; (2 ^ 17 + d) / (2 * d) - 128

/-- `vrcp` of FP32 bits (R301). -/
def rcp32 (v : Nat) : Res :=
  let mag := v % sign32
  let sign := v / sign32 % 2 * sign32
  let e := mag / 2 ^ 23
  let m := mag % 2 ^ 23
  if inf32 < mag then (nan32, 0)
  else if mag = inf32 then (sign, 0)
  else if mag = 0 then (sign + inf32, flagDZ)
  else if 0x7E800000 < mag then (sign, flagUF)
  else if 0 < e then
    if m = 0 then (sign + (254 - e) * 2 ^ 23, 0)
    else (sign + (253 - e) * 2 ^ 23 + rcpTable (m / 2 ^ 16) * 2 ^ 16, 0)
  else if mag < 0x00200000 then (sign + inf32, flagOF)
  else if bit m 22 then (sign + 253 * 2 ^ 23 + rcpTable (bits m 15 7) * 2 ^ 16, 0)
  else (sign + 254 * 2 ^ 23 + rcpTable (bits m 14 7) * 2 ^ 16, 0)

/-- The largest t ≤ `n` with (2t − 1)² × v ≤ 2^25, that is ⌊256 ÷ √(v ÷ 128) + ½⌋. -/
def rsqSearch (v : Nat) : Nat → Nat
  | 0 => 0
  | n + 1 => if (2 * (n + 1) - 1) * (2 * (n + 1) - 1) * v ≤ 2 ^ 25 then n + 1 else rsqSearch v n

/-- Table entry 64p + k of `vrsq`. -/
def rsqTable (p k : Nat) : Nat := rsqSearch (2 ^ p * (129 + 2 * k)) 256 - 128

/-- `vrsq` of FP32 bits (R302). -/
def rsq32 (v : Nat) : Res :=
  let mag := v % sign32
  if inf32 < mag then (nan32, 0)
  else if mag = 0 then (v % 2 ^ 32 + inf32, flagDZ)
  else if sign32 ≤ v % 2 ^ 32 then (nan32, flagNV)
  else if mag = inf32 then (0, 0)
  else
    let m := mag % 2 ^ 23
    let (e, f) : Int × Nat :=
      if 0 < mag / 2 ^ 23 then (((mag / 2 ^ 23 : Nat) : Int) - 127, m)
      else (((m.log2 : Nat) : Int) - 149, m * 2 ^ (23 - m.log2) - 2 ^ 23)
    let p := (e % 2).toNat
    ((126 - (e - p) / 2).toNat * 2 ^ 23 + rsqTable p (f / 2 ^ 17) * 2 ^ 16, 0)

/-! ### The radix-select key (R218) -/

/-- Key of FP32 bits. -/
def keyFp32 (v : Nat) : Nat :=
  if inf32 < v % sign32 then 0xFFC00000
  else if v < sign32 then v + sign32
  else 0xFFFFFFFF - v

/-- Key of an element in format 0 `fp32`, 1 `bf16` or 6 `int32`. -/
def keyOf (f v : Nat) : Nat :=
  match f with
  | 1 => keyFp32 (v % 2 ^ 16 * 2 ^ 16)
  | 6 => if v < sign32 then v + sign32 else v - sign32
  | _ => keyFp32 v

end Sys2Proof.Machine
end

