-- ==== Sys2Proof/Machine/MatrixSum.lean ====
section
/-! DEFINITION. What a multiply word adds for one slot pair: accumulators, formats, operands in a slot, the sum (R211 to R216, R316
to R319). -/

namespace Sys2Proof.Machine

/-! ### Accumulators -/

/-- Element (i, j) of a bank, as a number below 9,216. -/
abbrev accIx (i j : Nat) : Nat := i * 96 + j

/-- An element of an accumulator bank; undefined since a tick where it is not listed (R116). -/
def Acc.get (a : Acc) (bid bank ix : Nat) : Word32 :=
  match PMap.find a.cells ix with
  | some v => v
  | none => match a.junk with
    | some t => (Config.freeWord t (2 ^ 20 * (1 + bank + 2 * bid) + ix)).setWidth 32
    | none => 0

def Acc.put (a : Acc) (ix : Nat) (v : Word32) : Acc := { a with cells := PMap.put a.cells ix v }

def EngRegs.acc (r : EngRegs) (bank : Bool) : Acc := if bank then r.acc1 else r.acc0
def EngRegs.gamma (r : EngRegs) (bank : Bool) : Word32 := if bank then r.gamma1 else r.gamma0
def EngRegs.setAcc (r : EngRegs) (bank : Bool) (a : Acc) : EngRegs :=
  if bank then { r with acc1 := a } else { r with acc0 := a }

/-- The elements of a bank with indices of the first m rows and n columns. -/
def tileIxs (m n : Nat) : List (Nat × Nat) := ((List.range m).map (fun i => (List.range n).map (fun j => (i, j)))).flatten

/-- The elements of a tile replaced by a function of their old values. -/
def Acc.mapTile (a : Acc) (bid bank m n : Nat) (f : Nat → Nat → Nat → Nat) : Acc :=
  (tileIxs m n).foldl (fun (c : Acc) x =>
    c.put (accIx x.1 x.2) (BitVec.ofNat 32 (f x.1 x.2 (a.get bid bank (accIx x.1 x.2)).toNat))) a

/-! ### Formats (R213, R214, R316) -/

/-- A format entry (R213). -/
structure FmtEntry where
  a : Nat
  b : Nat
  ascl : Nat
  bscl : Nat

def fmtEntry (v : Word) : FmtEntry := ⟨bits v.toNat 60 4, bits v.toNat 56 4, bits v.toNat 32 14, bits v.toNat 0 14⟩

/-- The entry that a word selects (R214). -/
def EngRegs.selectFmt (r : EngRegs) (f : BitVec 4) (l : BitVec 2) : Word :=
  let off := if l = 0#2 then 0 else r.loops[Fin.ofNat 3 (l.toNat - 1)].lc.toNat
  r.ftab[Fin.ofNat 16 (f.toNat + off)]

/-- Class of a format: 1 16-bit, 2 FP8, 8 block, 4 signs; 0 reserved. The number is the size of a k-group (R213). -/
def fmtClass (c : Nat) : Nat := if c ≤ 1 then 1 else if c ≤ 3 then 2 else if c = 4 then 8 else if c = 5 then 4 else 0

def fmtBlk : Nat := 4
def fmtSgn : Nat := 5

/-- Bytes that an operand takes of a slot (R316). -/
def footprint (c : Nat) : Nat :=
  if c ≤ 1 then 18432 else if c ≤ 3 then 9216 else if c = fmtBlk then 4608 else 1152

def scalePlaneSlot : Nat := 2560

/-- A `blk` operand's scale plane stays in core scratchpad (R214, R317). -/
def planeOk (c scl slots : Nat) : Bool := c ≠ fmtBlk || (scl ≤ 12287 && scl * 256 + slots * scalePlaneSlot ≤ scratchSize)

/-- The formats of an entry that a word takes (R214, R320). -/
def formatsOk (signs : Bool) (x : FmtEntry) : Bool :=
  if signs then x.a = 0 && x.b = fmtSgn
  else fmtClass x.a ≠ 0 && x.a ≠ fmtSgn && x.b ≠ fmtSgn && fmtClass x.a = fmtClass x.b

/-! ### Operands in a slot (R211, R212, R316, R317) -/

/-- An operand element: none stands for an element of a zero block (R212). -/
abbrev MxElem := Option Num

/-- Local address of a slot of a ring (R314). -/
def Ring.slotAt (g : Ring) (q : Nat) : Nat := (g.base + q * g.size) * 256

def loadHalves (bid : Nat) (la n : Nat) : M (List Nat) := do
  let bs ← loadLocal bid .mx la (2 * n)
  return (List.range n).map (fun i => leNat ((bs.drop (2 * i)).take 2))

def loadWords32 (bid : Nat) (la n : Nat) : M (List Nat) := do
  let bs ← loadLocal bid .mx la (4 * n)
  return (List.range n).map (fun i => leNat ((bs.drop (4 * i)).take 4))

def loadBytes8 (bid : Nat) (la n : Nat) : M (List Nat) := do
  return (← loadLocal bid .mx la n).map (·.toNat)

/-- Value of a code of a 16-bit or FP8 format. -/
def mxFmt (c : Nat) : FloatFmt := if c = 0 then bf16 else if c = 1 then fp16 else if c = 2 then e4m3 else e5m2

/-- The eight elements of a block with its scale word and band scale (R211, R212); an INT4 zero is +0 (log 118). -/
def blockElems (payload scale : Nat) (band : Num) : List MxElem :=
  let tag := bits scale 8 2
  (List.range 8).map (fun i =>
    let code := bits payload (4 * i) 4
    if tag = 3 then none
    else
      let v := if tag = 0 then e2m1.decode code else if tag = 1 then Num.ofInt (signedOf 4 code) 0 false else e3m0.decode code
      some (((v.mul (e3m5.decode (bits scale 0 8))).1.mul band).1))

/-- Blocks of one run with their scale words; a scale word with a reserved bit set is a format fault (R211, R319). An `mmm` checks the
scale words of every row below m and column below n, also of those that its mask excludes whole (log 92). -/
def loadBlocks (bid payload scales n band : Nat) : M (List (List MxElem)) := do
  let ps ← loadWords32 bid payload n
  let ss ← loadHalves bid scales n
  if ss.any (fun v => bits v 10 6 ≠ 0) then endNest 0x11
  let b ← loadHalves bid band 1
  let scale := bf16.decode (b.getD 0 0)
  return (ps.zip ss).map (fun p => blockElems p.1 p.2 scale)

/-- Rows of A: m rows of kk elements. -/
def loadA (bid c slot plane m kk : Nat) : M (List (List MxElem)) :=
  (List.range m).mapM (fun i => do
    if c ≤ 1 then return (← loadHalves bid (slot + i * 192) kk).map (fun v => some ((mxFmt c).decode v))
    else if c ≤ 3 then return (← loadBytes8 bid (slot + i * 96) kk).map (fun v => some ((mxFmt c).decode v))
    else
      let bs ← loadBlocks bid (slot + i * 48) (plane + i * 24) (kk / 8) (plane + 2304 + 2 * (i / 64))
      return bs.flatten)

/-- Element t of each of a row of blocks. -/
def blockRow (bs : List (List MxElem)) (t : Nat) : List MxElem := bs.map (fun b => b.getD t none)

/-- Rows of B by k: kk rows of n elements; for signs the elements are +1 and −1 (R316, R320). -/
def loadB (bid c slot plane n kk : Nat) : M (List (List MxElem)) := do
  if c = fmtBlk then
    let rows ← (List.range (kk / 8)).mapM (fun kb => do
      let bs ← loadBlocks bid (slot + kb * 384) (plane + kb * 192) n (plane + 2304 + 2 * (kb / 8))
      return (List.range 8).map (blockRow bs))
    return rows.flatten
  else if c = fmtSgn then
    let rows ← (List.range (kk / 4)).mapM (fun tg => do
      let bs ← loadBytes8 bid (slot + tg * 48) ((n + 1) / 2)
      return (List.range 4).map (fun t => (List.range n).map (fun j =>
        (some (.fin (bit (bs.getD (j / 2) 0) (4 * (j % 2) + t)) 1 0) : MxElem))))
    return rows.flatten
  else
    (List.range kk).mapM (fun t => do
      let vs ← if c ≤ 1 then loadHalves bid (slot + t * 192) n else loadBytes8 bid (slot + t * 96) n
      return vs.map (fun v => some ((mxFmt c).decode v)))

/-! ### The sum (R215, R216) -/

/-- A product of two elements: a zero block makes it +0, unless the other factor is a NaN or an infinity (R212, R215; log 32). -/
def product (a b : MxElem) : Num :=
  match a, b with
  | some x, some y => (x.mul y).1
  | some x, none | none, some x => (match x with | .fin .. => .fin false 0 0 | _ => .nan)
  | none, none => .fin false 0 0

/-- The exact group sum of terms: −0 only where every term is (R215). -/
def groupSum (ts : List Num) : Num := ts.foldl (fun a t => (a.add t).1) (.fin true 0 0)

/-- The groups of terms added in their order, one rounding each (R216); the fuel bounds the number of groups. -/
def addGroups (gs : Nat) : Nat → List Num → Nat → Nat
  | 0, _, a => a
  | _, [], a => a
  | fuel + 1, ts, a => addGroups gs fuel (ts.drop gs) (toFp32 ((ofFp32 a).add (groupSum (ts.take gs))).1)

/-- Element (i, j) after the k-groups of a slot pair. -/
def addPair (gs : Nat) (as bs : List (List MxElem)) (i j a : Nat) : Nat :=
  let terms := ((as.getD i []).zip (bs.map (fun r => r.getD j none))).map (fun p => product p.1 p.2)
  addGroups gs terms.length terms a

/-- Word `i` of the loaded mask block, and whether an element is allowed (R322, R323). -/
def allowed (blk : List Byte) (i j : Nat) : Bool :=
  let w0 := blockWord blk 0
  let w1 := blockWord blk 1
  let rows := bits w0 0 16
  let cols := bits w0 16 16
  let prefix0 := bits w1 0 32
  let p := bits w1 32 32 + j
  i < rows && j < cols &&
    (p < prefix0 || (bit w0 32 && p - prefix0 ≤ i)
      || (!bit w0 32 && i < 16 && p - prefix0 < 16 && bit (leNat ((blk.drop (32 + 2 * i)).take 2)) (p - prefix0)))

def negInf32 : Nat := sign32 + inf32

/-! ### A slot pair (R319) -/

/-- Rings of A and B (R237). -/
def ringA (r : BitVec 2) : Fin 4 := if r.toNat < 2 then 0 else 2
def ringB (r : BitVec 2) : Fin 4 := if r.toNat % 2 = 0 then 1 else 3

/-- A mask under which an element takes part: all, or what the mask allows (R320). -/
def EngRegs.maskOf (r : EngRegs) (k : MulKind) : Nat → Nat → Bool :=
  match k with
  | .mmm => allowed (r.mask.getD [])
  | _ => fun _ _ => true

/-- A head slot is popped (R315). -/
def Ring.pop (g : Ring) : Ring := { g with head := (g.head + 1) % (max g.slots 1), full := g.full.tail }

def EngRegs.onRing (r : EngRegs) (g : Fin 4) (f : Ring → Ring) : EngRegs := { r with rings := r.rings.set g (f r.rings[g]) }

/-- The poisoned elements of a tile of an accumulator bank (R351). -/
def Mark.inTile (bank : Bool) (m n : Nat) : Mark → Bool
  | .acc b ix => b = bank && ix / 96 < m && ix % 96 < n
  | _ => false

/-- A word reads the elements of a tile: a poisoned one is consumed (R351, R352). -/
def readTile (bid : Nat) (bank : Bool) (m n : Nat) : M Unit := do
  if ((← get).bank bid).marks.any (Mark.inTile bank m n) then fail (.poison none)

/-- A write of every element of a tile clears their poison (R351). -/
def Bank.clearTile (b : Bank) (bank : Bool) (m n : Nat) : Bank := { b with marks := b.marks.filter (fun k => !k.inTile bank m n) }

/-- The bank as a multiply word reads the head slot of a ring: what a copy word of a later phase has filled it with is seen, though that
phase has not committed (R133, R153, R332). -/
def State.slotView (s : State) (bid : Nat) (g : Ring) : State :=
  s.modBank bid (fun b =>
    let p := (b.engine .mx).phase
    match g.full with
    | f :: _ => if p < f then { b with held := b.held.map (fun h => if h.phase = f then { h with phase := p } else h) } else b
    | [] => b)

/-- One slot pair of a multiply word of a bank is added and popped (R319). -/
def slotPair (bid : Nat) (j : MulJob) (m n kk : Nat) : M Unit := do
  let r := (((← get).bank bid).engine .mx).regs
  let x := fmtEntry j.entry
  let ra := ringA j.rings
  let rb := ringB j.rings
  let a := r.rings[ra]
  let b := r.rings[rb]
  if a.filled = 0 || b.filled = 0 then waitMore
  if j.start ≠ 3#2 then
    readTile bid j.bank m n
    let as ← viewing (·.slotView bid a) (loadA bid x.a (a.slotAt a.head) (x.ascl * 256 + a.head * scalePlaneSlot) m kk)
    let bs ← viewing (·.slotView bid b) (loadB bid x.b (b.slotAt b.head) (x.bscl * 256 + b.head * scalePlaneSlot) n kk)
    let gs := if j.kind = .mml then 4 else fmtClass x.a
    let take := r.maskOf j.kind
    modify fun s => s.modBank bid (fun k => k.modEngine .mx (·.modRegs (fun r =>
      r.setAcc j.bank ((r.acc j.bank).mapTile bid (b2n j.bank) m n (fun i j v =>
        if take i j then addPair gs as bs i j v else v)))))
  modify fun s => s.modBank bid (fun k => k.modEngine .mx (·.modRegs (fun r =>
    (r.onRing ra Ring.pop).onRing rb Ring.pop)))

/-- The multiply word of a bank adds its next slot pair; the answer says whether that was its last (R319). -/
def nextPair (bid : Nat) : M Bool := do
  match (((← get).bank bid).engine .mx).stopped with
  | some st =>
    match st.mul with
    | some j =>
      let kk := (st.ops.getD 0 0).toNat
      slotPair bid j (st.ops.getD 2 0).toNat (st.ops.getD 1 0).toNat (min 96 (kk - 96 * st.done))
      modify fun s => s.modBank bid (fun b => b.modEngine .mx (fun g =>
        { g with stopped := some { st with done := st.done + 1 } }))
      return decide (kk ≤ 96 * (st.done + 1))
    | none => waitMore
  | none => waitMore

end Sys2Proof.Machine
end

