-- ==== Sys2Proof/Machine/CopyRun.lean ====
section
/-! DEFINITION. How the requests of an issued copy word are performed and how the word completes (R64, R271 to R282). -/

namespace Sys2Proof.Machine

/-- An operand address moved on by `n` bytes; a handle offset that leaves 60 bits stays beyond every page (R22, R40). -/
def OpKind.add (k : OpKind) (a : Word) (n : Nat) : Word :=
  match k with
  | .handle => BitVec.ofNat 64 ((haddrPh a).toNat * 2 ^ 60 + min (haddrOff a + n) (2 ^ 60 - 1))
  | _ => BitVec.ofNat 64 (a.toNat + n)

/-- The pieces of `len` bytes at a destination address, split at its 64-byte boundaries: start and length (R274). -/
def pieces (dst len : Nat) : List (Nat × Nat) :=
  if len = 0 then []
  else (List.range ((dst % 64 + len + 63) / 64)).map (fun i =>
    let lo := if i = 0 then 0 else 64 * i - dst % 64
    let hi := min len (64 * (i + 1) - dst % 64)
    (lo, hi - lo))

/-- Physical address of a slice operand (R53, R271). -/
def slicePa (g : Nat) (a : Word) : Nat :=
  l2Base + (dieOfCore g * 24 + bits a.toNat 24 5) * coreSpan + bits a.toNat 0 22

/-- Bytes of a source operand. -/
def readOp (bid : Nat) (vers : List Nat) (pol : Nat) (k : OpKind) (a : Word) (len : Nat) : M (List Byte) := do
  match k with
  | .handle =>
    let p ← handlePlace bid (some .cx) (haddrPh a) (vers[(haddrPh a).toNat]?) (haddrOff a) len accR pol
    loadBytes bid (some .cx) p.pa len
  | .slice => loadBytes bid (some .cx) (slicePa (coreOf bid) a) len
  | _ => loadLocal bid .cx a.toNat len

/-- Where a destination operand lies; none: local bytes. -/
def writePlace (bid : Nat) (vers : List Nat) (pol : Nat) (k : OpKind) (a : Word) (len : Nat) : M (Option Place) := do
  match k with
  | .handle => return some (← handlePlace bid (some .cx) (haddrPh a) (vers[(haddrPh a).toNat]?) (haddrOff a) len accW pol)
  | .slice => return some (rawPlace (slicePa (coreOf bid) a))
  | _ => return none

def writeTo (bid : Nat) (p : Option Place) (a : Word) (d : List Byte) : M Unit :=
  modify fun s => match p with
    | some p => s.storeAt bid (some .cx) p d
    | none => s.storeLocalBlock bid .cx a.toNat d

/-- A place some bytes on. -/
def Place.on (p : Place) (n : Nat) : Place := { p with pa := p.pa + n }

/-- The first byte of a destination. -/
def destPa (bid : Nat) (p : Option Place) (a : Word) : Nat := match p with | some p => p.pa | none => localPa (coreOf bid) a.toNat

/-- The payloads and the scale words of a group of blocks are written to their planes: where these meet, block by block, each with its payload
first, so that the higher-numbered block stays (R126, R278; log 101). -/
def writeBlocks (bid : Nat) (dk : OpKind) (p : Option Place) (pd : Word) (q : Option Place) (sd : Word) (blocks : List (List Byte × List Byte)) :
    M Unit := do
  let n := blocks.length
  let a := destPa bid p pd
  let b := destPa bid q sd
  if a + 4 * n ≤ b || b + 2 * n ≤ a then
    writeTo bid p pd (blocks.map (·.1)).flatten
    writeTo bid q sd (blocks.map (·.2)).flatten
  else
    let _ ← blocks.zipIdx.mapM (fun x => do
      writeTo bid (p.map (·.on (4 * x.2))) (dk.add pd (4 * x.2)) x.1.1
      writeTo bid (q.map (·.on (2 * x.2))) (dk.add sd (2 * x.2)) x.1.2)

/-- Bits set in a bitmap. -/
def popCount (v : Nat) : Nat := ((List.range 64).filter (bit v)).length

/-- Length of a packed group with `p` blocks present (R61). -/
def groupLen (p : Nat) : Nat := 16 * ((8 + 4 * ((p + 1) / 2) + 4 * p + 15) / 16)

/-- Payload and scale word of block `i` of a group, zero block where absent (R61, R62). -/
def groupBlock (bs : List Byte) (bitmap p i : Nat) : List Byte × List Byte :=
  if bit bitmap i then
    let r := popCount (bitmap % 2 ^ i)
    ((bs.drop (8 + 4 * ((p + 1) / 2) + 4 * r)).take 4, (bs.drop (8 + 2 * r)).take 2)
  else ([0, 0, 0, 0], [0x00#8, 0x03#8])

/-- A matrix ring of the bank with one change. -/
def EngRegs.modRing (r : EngRegs) (g : Nat) (f : Ring → Ring) : EngRegs :=
  { r with rings := r.rings.set (Fin.ofNat 4 g) (f r.rings[Fin.ofNat 4 g]) }

def Bank.modRing (b : Bank) (g : Nat) (f : Ring → Ring) : Bank :=
  b.modEngine .mx (fun m => { m with regs := m.regs.modRing g f })

/-- The tail advances and the filled count rises (R276, R315). -/
def Ring.fill (q : Ring) (phase : Nat) : Ring :=
  { q with tail := (q.tail + 1) % (max q.slots 1), full := q.full ++ [phase], reserved := q.reserved - 1 }

/-- A copy word of a phase has filled its slot: the fill belongs also to the later checkpoints of the matrix engine already taken
(R257). -/
def Bank.fillSlot (b : Bank) (g phase : Nat) : Bank :=
  let b := b.modRing g (·.fill phase)
  { b with ckpts := b.ckpts.map (fun c =>
      match PMap.find c.eng 0 with
      | some r => if phase < c.phase then { c with eng := PMap.put c.eng 0 (r.modRing g (·.fill phase)) } else c
      | none => c) }

/-- Perform one request (R274, R277 to R282). -/
def runReq (bid : Nat) (f : Flight) (r : Req) : M Unit := do
  let dk : OpKind := f.dstKind
  match r with
  | .move src dst len =>
    let d ← readOp bid f.vers f.pol f.srcKind src len
    let p ← writePlace bid f.vers f.pol dk dst len
    writeTo bid p dst d
  | .put dst d =>
    let p ← writePlace bid f.vers f.pol dk dst d.length
    writeTo bid p dst d
  | .place src len =>
    -- as a read: a request that would fault is dropped, a pending walk is waited for (R39, R281)
    tryCatch (do
        let _ ← handlePlace bid (some .cx) (haddrPh src) (f.vers[(haddrPh src).toNat]?) (haddrOff src) len accR f.pol
        return)
      (fun st => do
        modify fun s => s.modBank bid (fun b => { b with uses := PMap.erase b.uses (5 + f.n) })
        match st with
        | .access .. => return
        | st => fail st)
  | .guarded len g guard src dst =>
    let gp ← handlePlace bid (some .cx) (haddrPh guard) (f.vers[(haddrPh guard).toNat]?) (haddrOff guard) 8 accR f.pol
    let gv ← loadBytes bid (some .cx) gp.pa 8
    if bits (leNat gv) 0 16 = g.toNat then
      let d ← (pieces 0 len).mapM (fun q => readOp bid f.vers f.pol f.srcKind (f.srcKind.add src q.1) q.2)
      let p ← writePlace bid f.vers f.pol .handle dst len
      writeTo bid p dst d.flatten
    else
      modify fun s => s.modDie (dieOf bid) (fun x =>
        { x with gdrop := PMap.put x.gdrop (s.bank bid).vfId (PMap.get 0 x.gdrop (s.bank bid).vfId + 1) })
  | .header last src =>
    let h ← readOp bid f.vers f.pol .handle src 64
    let w0 := blockWord h 0
    let gs := bits w0 32 32
    let b := blockWord h 1
    if bits w0 0 16 ≠ 1 || bits w0 16 16 ≠ 0
      || (h.drop 24).any (· ≠ 0#8) || b + 63 < 64 * gs || 64 * gs < b || gs < last then endNest 0x11
  | .group j src pdst sdst =>
    let at' := fun n => OpKind.handle.add src n
    let h ← readOp bid f.vers f.pol .handle src 64
    let gs := bits (blockWord h 0) 32 32
    let b := blockWord h 1
    let area := (64 + 4 * gs + 15) / 16 * 16
    let o ← readOp bid f.vers f.pol .handle (at' (64 + 4 * j)) 4
    let prev ← if j = 0 then pure [] else readOp bid f.vers f.pol .handle (at' (64 + 4 * (j - 1))) 4
    if j ≠ 0 && leNat o ≤ leNat prev then endNest 0x11
    if blockWord h 2 < 16 * leNat o + 8 then endNest 0x11
    let bm ← readOp bid f.vers f.pol .handle (at' (area + 16 * leNat o)) 8
    let bitmap := leNat bm
    let p := popCount bitmap
    if blockWord h 2 < 16 * leNat o + groupLen p then endNest 0x11
    let n := min 64 (b - 64 * j)
    if bitmap / 2 ^ n ≠ 0 then endNest 0x11
    let bs ← readOp bid f.vers f.pol .handle (at' (area + 16 * leNat o)) (groupLen p)
    let blocks := (List.range n).map (groupBlock bs bitmap p)
    let pd := dk.add pdst (256 * j)
    let sd := dk.add sdst (128 * j)
    let p1 ← writePlace bid f.vers f.pol dk pd (4 * n)
    let p2 ← writePlace bid f.vers f.pol dk sd (2 * n)
    writeBlocks bid dk p1 pd p2 sd blocks
  | .slotWait g => do
    let q := (s0 (← get)).regs.rings[Fin.ofNat 4 g]
    if q.slots ≤ q.filled + q.reserved then waitMore
    modify fun s => s.modBank bid (·.modRing g (fun q => { q with reserved := q.reserved + 1 }))
  | .slotDone g =>
    modify fun s => s.modBank bid (·.fillSlot g f.phase)
where
  /-- The matrix engine of the bank. -/
  s0 (s : State) : Eng := (s.bank bid).engine .mx

/-- The issued copy word of a number with one change. -/
def Bank.modFlight (b : Bank) (n : Nat) (f : Flight → Flight) : Bank :=
  { b with flights := b.flights.map (fun x => if x.n = n then f x else x) }

/-- The promise entry of word `n`, while it is in the ring (R65). -/
def Bank.prom (b : Bank) (n : Nat) : Option Prom :=
  match PMap.find b.proms (n % 64) with
  | some p => if p.n = n then some p else none
  | none => none

def Bank.setProm (b : Bank) (n : Nat) (f : Prom → Prom) : Bank :=
  match b.prom n with
  | some p => { b with proms := PMap.put b.proms (n % 64) (f p) }
  | none => b

/-- Perform the requests of an issued copy word one after the other; each that is done leaves its list (R274). -/
def runReqs (bid : Nat) (f : Flight) : List Req → M Unit
  | [] => return
  | r :: rs => do
    let s ← get
    let before := s.betony.nextId
    let doms := ((s.bank bid).engine .cx).domWrites.length
    runReq bid f r
    modify fun s => s.modBank bid (fun b => b.modFlight f.n (fun f =>
      let l := (b.engine .cx).domWrites
      { f with reqs := rs, done := f.done + 1, lines := (l.take (l.length - doms)).map (·.2) ++ f.lines,
               stores := f.stores ++ (List.range (s.betony.nextId - before)).map (· + before) }))
    runReqs bid f rs

/-- Domain writes that a copy word made, complete or discarded, can be acquired with it: its lines, in the present window until a
marker or a commit covers them (R67, R143, R146; log 7). -/
def Bank.noteCopyDom (b : Bank) (f : Flight) (window : Nat) : Bank :=
  if f.lines.isEmpty then b
  else { b with copyDom := { n := f.n, phase := f.phase, covered := false, acquired := false,
                             lines := f.lines.map (fun l => (l, window)) } :: b.copyDom }

/-! ### Which issued word goes on (R126, R179, R277) -/

/-- A range of physical addresses, or none where it is not known. -/
abbrev Span := Option (Nat × Nat)

def Span.meets : Span → Span → Bool
  | some a, some b => a.1 < b.2 && b.1 < a.2
  | _, _ => true

/-- A range of durable memory, out to whole lines: durable stores of an agent to one line keep their order (R76). -/
def Span.lines : Span → Span
  | some (a, b) => if isPersist a then some (a / 64 * 64, (b + 63) / 64 * 64) else some (a, b)
  | none => none

/-- Ranges above every physical address: those of a page that no walk finds, by virtual address. -/
abbrev virtualBase : Nat := 2 ^ 65

/-- The first byte of the page of a version, for the order of words: as the version holds it, or for a revoked one as a walk now finds it
(R39). A page that no walk finds has no physical address, and is taken by its virtual one; none while a walk goes on (log 91). -/
def State.verBase (s : State) (bid : Nat) (v : HVer) : Option Nat :=
  let va := canonAddr (v.vpage * 4096)
  match v.state with
  | .valid => some v.leaf.pa
  | .revoked =>
    let w := s.whoHandle bid (some .cx)
    match s.walk w.die w.root va with
    | .ok l => some l.pa
    | .error 0 => none
    | .error _ => some (virtualBase + va)
  | .pending => if v.cause = 0 then none else some (virtualBase + va)
  | .empty => some (virtualBase + va)

/-- The physical ranges of `len` bytes of an operand. -/
def State.opSpans (s : State) (bid : Nat) (vers : List Nat) (k : OpKind) (a : Word) (len : Nat) : List Span :=
  if len = 0 then []
  else match k with
    | .handle =>
      let v := s.useVer (s.handleBank bid) (haddrPh a) (vers[(haddrPh a).toNat]?)
      [(s.verBase bid v).map (fun pa => (pa + haddrOff a, pa + haddrOff a + len))]
    | .slice => let p := slicePa (coreOf bid) a
                [some (p, p + len)]
    | _ =>
      let lo := localPa (coreOf bid) a.toNat
      let hi := localPa (coreOf bid) (a.toNat + len - 1)
      [some (lo, lo + len), some (hi + 1 - len, hi + 1)]

/-- The ranges that a request reads and that it writes. -/
def State.reqSpans (s : State) (bid : Nat) (f : Flight) (r : Req) : List Span × List Span :=
  let src := fun a n => s.opSpans bid f.vers f.srcKind a n
  let dst := fun a n => s.opSpans bid f.vers f.dstKind a n
  match r with
  | .move a b n => (src a n, dst b n)
  | .put b d => ([], dst b d.length)
  | .guarded n _ g a b => (s.opSpans bid f.vers .handle g 8 ++ src a n, s.opSpans bid f.vers .handle b n)
  | .header _ a => (s.opSpans bid f.vers .handle a 64, [])
  | .group j a p q => (s.opSpans bid f.vers .handle a (2 ^ 30),
      dst (f.dstKind.add p (256 * j)) 256 ++ dst (f.dstKind.add q (128 * j)) 128)
  | .place .. | .slotWait _ | .slotDone _ => ([], [])

/-- The ranges that an issued word still reads and writes. -/
def State.flightSpans (s : State) (bid : Nat) (f : Flight) : List Span × List Span :=
  let l := f.reqs.map (s.reqSpans bid f)
  ((l.map (·.1)).flatten, (l.map (·.2)).flatten)

/-- Two words touch a byte that one of them writes, or write one durable line (R76, R126). -/
def clash (a b : List Span × List Span) : Bool :=
  a.2.any (fun x => b.1.any x.meets || b.2.any (fun y => x.lines.meets y.lines)) || b.2.any (fun x => a.1.any x.meets)

/-- The rings whose slots an issued word has yet to fill. -/
def Flight.rings (f : Flight) : List Nat := f.reqs.filterMap (fun r => match r with | .slotDone g => some g | _ => none)

/-- An issued word cannot go on by itself: it waits on a fault, for a free ring slot, or for its own stores to persist (R81, R179). -/
def State.flightStuck (s : State) (bid : Nat) (f : Flight) : Bool :=
  f.waiter.isSome ||
  match f.reqs with
  | .slotWait g :: _ =>
    let q := ((s.bank bid).engine .mx).regs.rings[Fin.ofNat 4 g]
    decide (q.slots ≤ q.filled + q.reserved)
  | [] => f.persist && s.betony.pending.any (fun d => f.stores.contains d.id)
  | _ => false

/-- The first issued word that can go on: none of the words before it that cannot touches what it touches, or fills slots of its ring
(R126, R179, R276, R315). `tried` are further words that cannot. -/
def State.nextFlight (s : State) (bid : Nat) (tried : List Nat) : Option Nat :=
  go (s.bank bid).flights []
where
  go : List Flight → List Flight → Option Nat
    | [], _ => none
    | f :: rest, skipped =>
      if tried.contains f.n || s.flightStuck bid f || skipped.any (behind f) then go rest (f :: skipped) else some f.n
  /-- A word stays behind an earlier one. -/
  behind (f g : Flight) : Bool :=
    clash (s.flightSpans bid f) (s.flightSpans bid g) || f.rings.any g.rings.contains

/-- The issued words with one of them first, as the one in execution. -/
def Bank.headFirst (b : Bank) (n : Nat) : Bank :=
  { b with flights := b.flights.filter (·.n = n) ++ b.flights.filter (·.n ≠ n) }

/-- The issued words in queue order again. -/
def Bank.inOrder (b : Bank) : Bank :=
  match b.flights with
  | [] => b
  | f :: rest => { b with flights := rest.takeWhile (·.n < f.n) ++ f :: rest.dropWhile (·.n < f.n) }

/-- The first of the issued words is performed and completes (R64, R81); it stops where a request does. -/
def finishHead (bid : Nat) : M Unit := do
  let s ← get
  match (s.bank bid).flights with
  | [] => waitMore
  | f :: _ =>
    runReqs bid f f.reqs
    let s ← get
    let b := s.bank bid
    match b.flights with
    | [] => waitMore
    | f :: rest =>
      if f.persist && s.betony.pending.any (fun d => f.stores.contains d.id) then waitMore
      set (s.setBank bid
        ((({ b with flights := rest }).setProm f.n (fun p => { p with state := .complete })).noteCopyDom f s.window))

/-- An issued copy word is performed and completes; it stops where a request does (R64). -/
def finishFlight (bid n : Nat) : M Unit := do
  modify fun s => s.modBank bid (·.headFirst n)
  tryCatch (finishHead bid) (fun e => do
    modify fun s => s.modBank bid Bank.inOrder
    fail e)

end Sys2Proof.Machine
end

