-- ==== Sys2Proof/Machine/Nests.lean ====
section
/-! DEFINITION. Nests while Vetch holds them: eligibility (R168, R169), word 15 (R165), the end of a task and of a nest, fault
records (R181 to R186), and which bank of a core is ready and active (R172). -/

namespace Sys2Proof.Machine

/-! ### Tiles and eligibility (R166, R168, R169) -/

/-- The tile count (R163). -/
def Nest.tiles (n : Nest) : Nat := n.bounds.foldl (· * ·) 1

/-- The live predecessor that an entry names: accepted before, in the same VF, not yet ended; of several records at one address the earliest
accepted (R169; log 113). -/
def State.livePred (s : State) (n : Nest) (addr : Nat) : Option Nest :=
  s.nests.find? (fun p => p.vf = n.vf && p.recAddr = addr && p.id < n.id)

/-- A predecessor entry is satisfied for task (k, 0) (R169). -/
def State.predOk (s : State) (n : Nest) (k : Nat) (e : Nat × Bool) : Bool :=
  match s.livePred n e.1 with
  | none => true
  | some p => e.2 && k < p.tiles && p.ended.contains (k, p.stages - 1)

/-- Task (k, j) of a nest is eligible (R168). -/
def State.eligible (s : State) (n : Nest) (t : Nat × Nat) : Bool :=
  n.cause.isNone && t.1 < n.tiles && t.2 < n.stages && !n.handed.contains t &&
  (if t.2 = 0 then n.preds.all (s.predOk n t.1)
   else n.ended.contains (t.1, t.2 - 1) && (t.1 = 0 || n.ended.contains (t.1 - 1, t.2)))

/-- The tasks that may be eligible: a stage 0 task not handed out yet among the lowest, those a predecessor's tile frees, and
the next stages of tasks that have ended. -/
def State.candidates (s : State) (n : Nest) : List (Nat × Nat) :=
  (List.range (n.handed.length + 1)).map (fun k => (k, 0))
    ++ (n.preds.map (fun e => match s.livePred n e.1 with | some p => p.ended.map (fun t => (t.1, 0)) | none => [])).flatten
    ++ n.ended.map (fun t => (t.1, t.2 + 1))

/-- The lower of two tasks: lowest k + j first, on a tie the lower k (R168). -/
def taskBefore (a b : Nat × Nat) : Bool := a.1 + a.2 < b.1 + b.2 || (a.1 + a.2 = b.1 + b.2 && a.1 < b.1)

/-- The task of a nest that goes out next (R168). -/
def State.nextTask (s : State) (n : Nest) : Option (Nat × Nat) :=
  ((s.candidates n).filter (s.eligible n)).foldl
    (fun b t => match b with | none => some t | some b => if taskBefore t b then some t else some b) none

/-- Est(t) of a nest's next task: its energy field, or the ceiling of the mean measured energy (R199). -/
def Nest.est (n : Nest) : Nat := if n.count = 0 then n.energy else (n.measured + n.count - 1) / n.count

/-- Cores of a die in service (R358, R359). -/
def State.coreInService (s : State) (g : Nat) : Bool := bit (s.die (dieOfCore g)).caps.toNat (g % 24)

/-- Lowest cores of the aligned groups of `n` cores of a die that are all in service (R168, R359). -/
def State.groups (s : State) (d n : Nat) : List Nat :=
  ((List.range 24).map (· + 24 * d)).filter (fun g =>
    g % n = 0 && (List.range n).all (fun i => s.coreInService (g + i)))

/-- A bank is free for a task of a nest: it holds none, and the core's other bank holds none that forbids it (R168). -/
def State.bankFree (s : State) (n : Nest) (bid : Nat) : Bool :=
  (s.bank bid).task.isNone &&
  match (s.bank (otherBank bid)).task with
  | none => true
  | some t => n.cobank && t.cobank &&
      (s.nests.find? (·.id = t.nest)).all (fun m => m.image = n.image)

/-- The banks of a tile group, by its lowest core and bank number. -/
def groupBanks (g size bank : Nat) : List Nat := (List.range size).map (fun i => 2 * (g + i) + bank)

/-- The places a task of a nest can go: lowest bank of each group whose banks are all free (R168). -/
def State.places (s : State) (n : Nest) : List Nat :=
  ((s.groups n.die n.gsize).map (fun g => [2 * g, 2 * g + 1])).flatten.filter (fun b =>
    (groupBanks (b / 2) n.gsize (b % 2)).all (s.bankFree n))

/-! ### Levels and aging (R197, R198) -/

/-- A bank holds a task of a nest. -/
def Bank.runs (b : Bank) (id : Nat) : Bool := match b.task with | some t => t.nest = id | none => false

/-- VFs join a level's list as they first have an eligible task there, and leave it with deficit 0 when they have none. -/
def State.updateLevels (s : State) (d : Nat) : State :=
  let has := fun (l v : Nat) => s.nests.any (fun n =>
    n.die = d && n.vf = v && n.level = l && ((s.nextTask n).isSome || s.saved.any (fun c => c.2.state.runs n.id)))
  let die := s.die d
  let step := fun (l : Nat) (old : List Nat) =>
    let kept := old.filter (has l)
    s.nests.foldl (fun acc n => if n.die = d && n.level = l && !acc.contains n.vf && has l n.vf then acc ++ [n.vf] else acc) kept
  let levels := #v[step 0 die.levels[0], step 1 die.levels[1], step 2 die.levels[2], step 3 die.levels[3]]
  let gone := ((List.range 4).map (fun l =>
    (die.levels.toList[l]!.filter (fun v => !levels.toList[l]!.contains v)).map (fun v => 512 * l + v))).flatten
  let age := fun (n : Nest) =>
    if n.die ≠ d then n
    else match s.nextTask n, n.waiting with
      | none, _ => { n with waiting := none }
      | some _, none => { n with waiting := some s.cycle }
      | some _, some _ => n
  { s.setDie d { die with levels := levels, deficits := die.deficits.filter (fun e => !gone.contains e.1) } with
    nests := s.nests.map age }

/-- The lists of every die: a nest may wait for one of another die (R169, R197, R198). -/
def State.updateAll (s : State) : State := [0, 1, 2, 3].foldl (fun (s : State) d => s.updateLevels d) s

def State.deficit (s : State) (d l v : Nat) : Int := PMap.get 0 (s.die d).deficits (512 * l + v)
def State.addDeficit (s : State) (d l v : Nat) (x : Int) : State :=
  s.modDie d (fun die => { die with deficits := PMap.put die.deficits (512 * l + v) (s.deficit d l v + x) })

/-! ### Fault records (R181 to R186) -/

/-- The words of a bank that wait (R186). -/
def Bank.wordWaiters (b : Bank) : List Waiter :=
  b.eng.toList.filterMap (fun e => e.stopped.bind (·.waiter)) ++ b.flights.filterMap (·.waiter)

/-- Everything of a bank that waits (R186). -/
def Bank.waiters (b : Bank) : List Waiter := b.waiter.toList ++ b.wordWaiters

def State.allWaiters (s : State) : List Waiter :=
  (s.banks.map (fun b => b.2.waiters)).flatten ++ (s.saved.map (fun c => c.2.state.waiters)).flatten

def Waiter.onRecord (d i : Nat) : Waiter → Bool
  | .record d' i' _ => d' = d && i' = i
  | _ => false

/-- Free the slots that no waiter needs: new records whose words were discarded, and answered ones (R122, R186). -/
def State.gcFaults (s : State) : State :=
  let ws := s.allWaiters
  let keep := fun (d : Nat) (r : Nat × FaultRec) => r.2.state = 2 || ws.any (Waiter.onRecord d r.1)
  { s with dies := s.dies.map (fun d => (d.1, { d.2 with faults := d.2.faults.filter (keep d.1) })) }

/-- The lowest number from `i` on that passes a test, among `fuel` of them. -/
def findFrom (p : Nat → Bool) (i : Nat) : Nat → Option Nat
  | 0 => none
  | fuel + 1 => if p i then some i else findFrom p (i + 1) fuel

/-- The lowest key of 0 to n − 1 that a map does not list. -/
def freeKey {α : Type} (m : PMap α) (n : Nat) : Option Nat := findFrom (fun k => (PMap.find m k).isNone) 0 n

/-- A fault of the page-fault path makes a record, is merged into one, or waits for a free slot (R181 to R183). -/
def State.recordFault (s : State) (bid agent code va acc ver : Nat) : State × Waiter :=
  let d := dieOf bid
  let die := s.die d
  let b := s.bank bid
  match die.faults.find? (fun r => (r.2.state = 1 || r.2.state = 2) && r.2.vf = b.vfId && r.2.asid = b.asidOf
      && r.2.code = code && bits r.2.va 12 45 = bits va 12 45) with
  | some (i, r) =>
    let r' := { r with access := r.access ||| acc, dups := min 255 (r.dups + 1) }
    (s.setDie d { die with faults := PMap.put die.faults i r' }, .record d i ver)
  | none =>
    match freeKey die.faults 4096 with
    | some i =>
      let r : FaultRec :=
        { va := va, vf := b.vfId, asid := b.asidOf, code := code, access := acc, dups := 0, state := 1,
          core := coreOf bid, bank := bankOf bid, agent := agent, stamp := s.cycle }
      (s.setDie d { die with faults := PMap.put die.faults i r }, .record d i ver)
    | none => (s, .alloc va code acc ver)

/-- A waiter may re-issue: its record is resolved, or its die has settled and the link is up (R177, R186, R348). -/
def State.resolved (s : State) (d : Nat) : Waiter → Bool
  | .record d' i _ => match PMap.find (s.die d').faults i with | some r => r.state = 3 | none => true
  | .alloc .. => false
  | .link _ => !(s.die d).linkDown && s.host.link

/-- A bank holds a task that has not ended, and nothing of it waits on an unresolved record or on the link. -/
def State.unblocked (s : State) (bid : Nat) : Bool :=
  let b := s.bank bid
  b.task.any (fun t => !t.ended) && b.waiters.all (s.resolved (dieOf bid))

/-- A bank is ready, together with every member of its gang (R172, R173). -/
def State.ready (s : State) (bid : Nat) : Bool := (s.members (s.handleBank bid)).all s.unblocked

def State.isActive (s : State) (bid : Nat) : Bool := (s.coreSt (coreOf bid)).active = bankOf bid
def State.activate (s : State) (bid : Nat) : State := s.modCore (coreOf bid) (fun c => { c with active := bankOf bid })

/-- The core switches to the other bank if that one is ready (R172); the comparisons of the bank it leaves are completed (R162). Where it is
not, the bank stays the active one while the core idles (log 83). -/
def State.switchAway (s : State) (bid : Nat) : State :=
  if s.ready (otherBank bid) then (s.modBank bid Bank.compareAll).activate (otherBank bid) else s

/-- The cores of a bank and of its gang switch (R172, R173). -/
def State.switchAll (s : State) (bid : Nat) : State := (s.members (s.handleBank bid)).foldl (fun s m => s.switchAway m) s

/-! ### Word 15, the end of tasks and nests (R165) -/

/-- An access of a unit of a die to `n` bytes of one page of a VF's address space, once A and D are set; or why it stops (R31, R39,
R45, R54, R74). -/
def State.unitPlace (s : State) (d vf asid va n acc : Nat) : Except Stop (Place × State) :=
  let w := s.whoUnit d vf asid
  if s.astWaits vf asid then .error .wait
  else match s.walk d w.root va with
  | .error 0 => .error .wait
  | .error c => .error (.access c va acc 0)
  | .ok l =>
    let c := l.denies w acc
    let pa := l.pa + (va - l.va)
    if c ≠ 0 then .error (.access c va acc 0)
    else match s.land w l acc pa n with
      | .error e => .error (e.atVa va acc 0)
      | .ok s => .ok ({ pa := pa, pol := l.ceil, io := l.io, leaf := l }, s)

/-- A store of a unit of a die for a VF at a place: the die's cache takes a host-homed line at the cached policies (R33, R55). -/
def State.unitStore (s : State) (d vf : Nat) (p : Place) (data : List Byte) : State :=
  (s.dirtyLines d vf p.pa data.length p.pol).storeOutside unitAgent p.pa data

/-- A write of a unit of a die in a VF's address space: one whose access waits, for a page under a flip or a durable tier that is not ready, is
made once that is over (R45, R74); any other that stops is dropped (log 14). -/
def State.unitWrite (s : State) (d vf asid va : Nat) (data : List Byte) : State :=
  match s.unitPlace d vf asid va data.length accW with
  | .error .wait => { s with host := { s.host with unitWrites := s.host.unitWrites ++ [⟨d, vf, asid, va, data⟩] } }
  | .error _ => s
  | .ok (p, s) => s.unitStore d vf p data

/-- The writes of the units that wait are tried again, in their order; those that must still wait stay (R45, R74). -/
def State.retryUnits (s : State) : State :=
  s.host.unitWrites.foldl (fun s w => s.unitWrite w.die w.vf w.asid w.va w.data) { s with host := { s.host with unitWrites := [] } }

/-- Tiles whose last stage has ended. -/
def Nest.done (n : Nest) : Nat := (n.ended.filter (fun t => t.2 + 1 = n.stages)).length

/-- Vetch writes word 15 of the record (R163, R165). -/
def State.writeWord15 (s : State) (n : Nest) (state cause : Nat) : State :=
  s.unitWrite n.die n.vf n.recAsid (n.recAddr + 120) (leBytes 8 (state * 2 ^ 56 + cause * 2 ^ 48 + n.done))

def State.modNest (s : State) (id : Nat) (f : Nest → Nest) : State :=
  { s with nests := s.nests.map (fun n => if n.id = id then f n else n) }

/-- A member's share of its task's estimate and energy since hand-out is settled against its VF's deficit (R198). -/
def State.settle (s : State) (bid : Nat) : State :=
  match (s.bank bid).task with
  | some t => s.addDeficit (dieOf bid) t.level t.vf ((t.est : Int) - ((t.energy - t.energy0 : Nat) : Int))
  | none => s

/-- A bank without its task and its state: version numbers go on, and so does what its control core, the same agent for the next task, has
issued: what a `pbar` of it orders and covers, and the domain writes that its fences wait for (R38, R76, R79, R146). -/
def Bank.emptied (b : Bank) : Bank :=
  { Bank.init with nextVer := b.nextVer, barred := b.barred, pushed := b.pushed, dom := b.dom }

/-- A bank stops and its state is discarded (R178 row 1). -/
def State.discardBank (s : State) (bid : Nat) : State :=
  let s := { s.setBank bid (s.bank bid).emptied with
    dirWaiters := s.dirWaiters.filter (·.bid ≠ bid) }
  s.switchAway bid

/-- Stop every task of a nest and write state 0x03 (R165); its tasks in saved contexts end too. -/
def State.endNest1 (s : State) (id cause : Nat) : State :=
  match s.nests.find? (·.id = id) with
  | none => s
  | some n =>
    let running := s.banks.filter (fun b => b.2.runs id)
    let s := running.foldl (fun s b => (s.settle b.1).discardBank b.1) s
    let s := { s with saved := s.saved.filter (fun c => !c.2.state.runs id) }
    let s := s.writeWord15 n 3 cause
    ({ s with nests := s.nests.filter (·.id ≠ id) }).gcFaults.updateAll

/-- Nests terminate with one cause, and with cause 0xF1 every successor of which one was a live predecessor (R165, R169). -/
def State.terminateAll (s : State) (ids : List Nat) (cause : Nat) : State :=
  go s.nests.length (ids.map (·, cause)) s
where
  go : Nat → List (Nat × Nat) → State → State
    | 0, _, s => s
    | _, [], s => s
    | fuel + 1, (id, cause) :: rest, s =>
      match s.nests.find? (·.id = id) with
      | none => go fuel rest s
      | some n =>
        let succ := s.nests.filter (fun m => m.vf = n.vf && n.id < m.id && m.preds.any (·.1 = n.recAddr)
          && !rest.any (·.1 = m.id))
        go fuel (rest ++ succ.map (·.id, 0xF1)) (s.endNest1 id cause)

/-- A nest terminates (R165). -/
def State.terminate (s : State) (id cause : Nat) : State := s.terminateAll [id] cause

/-- The nest of a bank's task terminates (R177). -/
def State.terminateOf (s : State) (bid cause : Nat) : State :=
  match (s.bank bid).task with
  | some t => s.terminate t.nest cause
  | none => s

/-- A task has ended on every member with `tdone`: its energy, over all its hand-outs, counts in the mean of R199; the end of a hand-out by a
pre-emption does not count (log 85). Its nest records it, advances done, and is complete with its last task (R165, R171). -/
def State.taskEnded (s : State) (t : Task) : State :=
  match s.nests.find? (·.id = t.nest) with
  | none => s
  | some n =>
    let n' := { n with ended := (t.k, t.j) :: n.ended, measured := n.measured + t.energy, count := n.count + 1 }
    let s := s.modNest n.id (fun _ => n')
    let s := if n'.ended.length = n'.tiles * n'.stages then
        { s.writeWord15 n' 2 0 with nests := s.nests.filter (·.id ≠ n.id) }
      else if t.j + 1 = n.stages then s.writeWord15 n' 1 0 else s
    s.updateAll

end Sys2Proof.Machine
end

