-- ==== Sys2Proof/Machine/Ops.lean ====
section
/-! DEFINITION. The operations that meanings share: phases and checkpoints (R152, R255 to R260), drain (R179), taking an
exception and returning from one (R175), page faults (R177), poison (R352), and running the body of a control-core
instruction or of an engine word. -/

namespace Sys2Proof.Machine

/-! ### Checkpoints and phases (R152, R256, R257) -/

def queuesToCore : List (BitVec 3) := [2#3, 4#3, 7#3]
/-- A change of every engine of a bank. -/
def Bank.modEngines (b : Bank) (f : Engine → Eng → Eng) : Bank := allEngines.foldl (fun b e => b.modEngine e (f e)) b

/-- The checkpoint of a phase with one change. -/
def Bank.modCkpt (b : Bank) (p : Nat) (f : Ckpt → Ckpt) : Bank :=
  { b with ckpts := b.ckpts.map (fun c => if c.phase = p then f c else c) }

/-- The elements of a queue pushed before the producer's boundary of a phase. -/
def before (p : Nat) (l : List Elem) : List Elem := l.filter (·.phase < p)

/-- A ring as the boundary that begins phase `p` finds it: without the slots that words of `p` or later filled or reserved (R257). -/
def Ring.upTo (p : Nat) (g : Ring) : Ring :=
  let kept := g.full.filter (· < p)
  { g with full := kept, tail := (g.head + kept.length) % (max g.slots 1), reserved := 0 }

/-- The registers of an engine as its part of a checkpoint takes them. -/
def EngRegs.part (r : EngRegs) (p : Nat) : EngRegs := { r with rings := r.rings.map (Ring.upTo p) }

/-- An engine reaches the boundary that begins phase `p`: it takes its part of the checkpoint (R257). -/
def Bank.enginePart (b : Bank) (e : Engine) (p : Nat) : Bank :=
  b.modCkpt p (fun c =>
    { c with
      eng := PMap.put c.eng (engIx e).val ((b.engine e).regs.part p)
      dq := (queuesInto e).foldl (fun m q => PMap.put m q.toNat (before p (b.queueOf q))) c.dq
      tok := allEngines.foldl (fun m o =>
        PMap.put m (4 * (engIx o).val + (engIx e).val) ((b.tokens o e).filter (· < p))) c.tok })

/-- The control core's part, with the pc given (R256, R257). -/
def Bank.corePart (b : Bank) (p : Nat) (pc : Word) : Ckpt :=
  { phase := p, core := { b.core with pc := pc }, eng := [],
    dq := queuesToCore.foldl (fun m q => PMap.put m q.toNat (before p (b.queueOf q))) [], tok := [], spans := none, low := b.lowDue }

/-- A checkpoint of the whole bank at one moment, where no word is in flight (R170, R259). -/
def Bank.fullCkpt (b : Bank) (p : Nat) (pc : Word) : Bank :=
  allEngines.foldl (fun b e => b.enginePart e p) { b with ckpts := [b.corePart p pc] }

/-- Engines that are between entries pass the boundaries at the head of their queues. -/
def Bank.passBoundary (b : Bank) (e : Engine) : Nat → Bank
  | 0 => b
  | n + 1 =>
    let g := b.engine e
    if g.entry.isSome || g.stopped.isSome || g.mark.isSome then b
    else match g.queue with
      | ⟨.boundary p, _, _⟩ :: rest =>
        ((b.enginePart e p).setEngine e { g with queue := rest, phase := p }).passBoundary e n
      | _ => b

def Bank.passBoundaries (b : Bank) : Bank := allEngines.foldl (fun b e => b.passBoundary e 3) b

/-- Elements pushed by a producer in a phase also belong to the later checkpoints whose consumer has reached its boundary
(R257). -/
def Bank.pushElem (b : Bank) (q : BitVec 3) (v : Elem) : Bank :=
  let b := b.setQueue q (b.queueOf q ++ [v])
  { b with ckpts := b.ckpts.map (fun c =>
      match PMap.find c.dq q.toNat with
      | some l => if v.phase < c.phase then { c with dq := PMap.put c.dq q.toNat (l ++ [v]) } else c
      | none => c) }

def Bank.pushToken (b : Bank) (src dst : Engine) (p : Nat) : Bank :=
  let k := 4 * (engIx src).val + (engIx dst).val
  let b := b.setTokens src dst (b.tokens src dst ++ [p])
  { b with ckpts := b.ckpts.map (fun c =>
      match PMap.find c.tok k with
      | some l => if p < c.phase then { c with tok := PMap.put c.tok k (l ++ [p]) } else c
      | none => c) }

/-- Every word pushed by the bank has completed (R171, R259). -/
def Bank.quiet (b : Bank) : Bool :=
  b.flights.isEmpty && allEngines.all (fun e =>
    let g := b.engine e
    g.queue.isEmpty && g.entry.isNone && g.stopped.isNone && g.mark.isNone)

/-- The held bytes of a phase reach memory, the oldest first (R153). -/
def State.applyHeld (s : State) (l : List Held) : State := { s with mem := l.foldl (fun m h => m.set h.addr h.val) s.mem }

/-- Domain writes of copy words become covered in a window: those of the phases that a test picks (R143, R144, R152). -/
def Bank.coverCopy (b : Bank) (p : Nat → Bool) (window : Nat) : Bank :=
  let hit := fun (c : CopyDom) => !c.covered && p c.phase
  let now := fun (c : CopyDom) => c.lines.map (fun l => (l.1, window))
  { b with
    dom := joinAll b.dom ((b.copyDom.filter (fun c => hit c && c.acquired)).flatMap now)
    copyDom := b.copyDom.map (fun c => if hit c then { c with covered := true, lines := now c } else c) }

/-- The lines whose 64 bytes a list holds. -/
def heldLines (l : List Held) (lines : List Nat) : List Nat :=
  lines.filter (fun k => (List.range 64).all (fun i => l.any (·.addr = 64 * k + i)))

/-- The oldest uncommitted phase of a bank commits in a window: its domain writes are released, its checkpoint is dropped, its
held bytes are held no more (R152, R256, R257); words that waited for it can go on (R179). -/
def Bank.commit (b : Bank) (window : Nat) : Bank :=
  let p := b.committed
  let past := fun (r : Release) => r.phase.any (· ≤ p)
  let lines := allEngines.flatMap (fun e =>
    let g := b.engine e
    (g.domWrites.filter (·.1 ≤ p)).map (fun d => (d.2, window)) ++ (g.released.filter past).map (fun r => (r.line, r.window)))
  let b := b.coverCopy (· ≤ p) window
  { b.modEngines (fun _ g => { g with
        waited := false
        domWrites := g.domWrites.filter (fun d => p < d.1)
        released := g.released.map (fun r => if past r then { r with phase := none } else r) }) with
    committed := p + 1
    held := b.held.filter (·.phase ≠ p)
    ckpts := b.ckpts.filter (·.phase ≠ p)
    phaseDom := joinAll b.phaseDom lines
    poison := b.poison.filter (fun e => p < e.1)
    mismatches := b.mismatches.filter (fun e => p < e.1)
    misOpen := false }

/-- The oldest uncommitted phase commits, and its phase-buffer writes become visible (R152, R153); a line they write whole is
poisoned no longer (R351). -/
def State.commit (s : State) (bid : Nat) : State :=
  let b := s.bank bid
  let l := b.held.filter (·.phase = b.committed)
  let whole := heldLines l s.poison
  ({ s.applyHeld l.reverse with poison := s.poison.filter (fun k => !whole.contains k) }).setBank bid (b.commit s.window)

/-- A bank whose phases have all committed opens the next, with its checkpoint at a pc (R259). -/
def Bank.openPhase (b : Bank) (pc : Word) : Bank :=
  let p := b.committed
  (({ b with phase := p }).modEngines (fun _ g => { g with phase := p })).fullCkpt p pc

/-- The open phase commits as if a `phsw` had closed it, and the next begins with a checkpoint at a pc (R259). -/
def State.commitOpen (s : State) (bid : Nat) (pc : Word) : State :=
  (s.commit bid).modBank bid (·.openPhase pc)

/-! ### Rendezvous (R132) -/

/-- The condition of a rendezvous in one bank (R132). -/
def Bank.holds (b : Bank) (mask : BitVec 4) (n : BitVec 32) : Bool :=
  allEngines.all (fun e => !mask.getLsbD (engIx e).val ||
    match (b.engine e).regs.marker with
    | some m => (m - n).toNat < 2 ^ 31
    | none => false)

/-- Fire the armed rendezvous registers of a bank whose condition holds in every member of its gang (R132, R252). -/
def State.fireRv (s : State) (bid : Nat) : State :=
  let ms := s.members bid
  s.modBank bid (fun b => { b with core := { b.core with rv := b.core.rv.map (fun r =>
    if r.state = .armed && ms.all (fun m => (s.bank m).holds r.mask r.n) then { r with state := .fired } else r) } })

def State.fireAll (s : State) (ms : List Nat) : State := ms.foldl (fun s m => s.fireRv m) s

/-! ### Rollback (R258) -/

/-- The entries of a command queue up to the boundary that begins phase `p`. -/
def upToBoundary (p : Nat) : List Cmd → List Cmd
  | [] => []
  | c :: cs => if c.kind = .boundary p then [c] else c :: upToBoundary p cs

/-- Issued copy words are discarded: their promises read as complete, and what they wrote can be acquired (R66, R67). -/
def Bank.dropFlights (b : Bank) (p : Flight → Bool) (window : Nat) : Bank :=
  let b' := (b.flights.filter p).foldl (fun b f =>
    (b.setProm f.n (fun q => { q with state := .complete })).noteCopyDom f window) b
  { b' with
    flights := b.flights.filter (fun f => !p f)
    missDue := b.missDue.filter (fun n => !(b.flights.any (fun f => p f && f.n = n))) }

/-- The counts of compared entries do not exceed the entries that are left. -/
def Bank.clampChecked (b : Bank) : Bank :=
  b.modEngines (fun _ g => { g with checked := g.checked.map (fun c =>
    (c.1, min c.2 (if c.1 = cmdKey then g.level else (b.queueOf (BitVec.ofNat 3 c.1)).length))) })

/-- A bank is restored to the checkpoint of its oldest uncommitted phase (R258). A drain is over, and a map save that has begun is taken
back: its request stays pending (R178, R260). -/
def Bank.restore (b : Bank) (c : Ckpt) (window : Nat) : Bank :=
  let p := c.phase
  let b := b.dropFlights (fun f => p ≤ f.phase) window
  let old := fun (e : Engine) => decide ((b.engine e).phase < p)
  let marks := b.marks.filter (fun m => match m with | .x _ => false | .regs e => old e | .acc .. => old .mx)
  let b := allEngines.foldl (fun b e =>
    let g := b.engine e
    if g.phase < p then b.setEngine e { g with queue := upToBoundary p g.queue, waited := false }
    else b.setEngine e
      { g with regs := PMap.get g.regs c.eng (engIx e).val, queue := [], entry := none, stopped := none, mark := none,
               phase := p, waited := false, checked := [] }) b
  let qs : List (BitVec 3) := [0#3, 1#3, 2#3, 3#3, 4#3, 5#3, 6#3, 7#3]
  let b := qs.foldl (fun b q =>
    b.setQueue q ((PMap.find c.dq q.toNat).getD (before p (b.queueOf q)))) b
  let b := allEngines.foldl (fun b o => allEngines.foldl (fun b e =>
    b.setTokens o e ((PMap.find c.tok (4 * (engIx o).val + (engIx e).val)).getD ((b.tokens o e).filter (· < p)))) b) b
  { b.clampChecked with
    core := c.core, phase := p, ckpts := [c], held := [], issued := false, wait := .none, waiter := none, ctxDue := none, lowDue := c.low
    draining := .none, saving := b.saving.filter (·.isNone)
    uses := [], marks := marks, cancels := b.cancels + 1 }

/-- A rollback cancels the oldest uncommitted phase and every later one (R258). Writes outside the phase buffers stay as they are (R258); bytes
that a save has lost come back (log 69). Rendezvous registers that it restores as armed are tested once every member of the gang is restored
(R132; log 80). -/
def State.rollback (s : State) (bid : Nat) : State :=
  let b := s.bank bid
  match b.ckpts.find? (·.phase = b.committed) with
  | none => s
  | some c =>
    let s := { s.setBank bid (b.restore c s.window) with dirWaiters := s.dirWaiters.filter (·.bid ≠ bid), mem := c.mend s.mem }
    s.gcFaults

/-- ucons or ymis has risen: the first rise since the last REG_READ raises vector 1 (R355). -/
def State.rasRise (s : State) (d : Nat) : State :=
  if (s.die d).rasRaised then s
  else
    let s := s.modDie d (fun x => { x with rasRaised := true })
    { s with host := { s.host with msix := s.host.msix ++ [1] } }

/-- The first queue towards an engine that holds an element not yet compared (R162). -/
def Bank.uncompared (b : Bank) (e : Engine) : Option (BitVec 3) :=
  (queuesInto e).find? (fun q => PMap.get 0 (b.engine e).checked q.toNat < (b.queueOf q).length)

/-- A checked entry of the bank has not been compared with Yarrow's copy (R162). -/
def Bank.comparing (b : Bank) : Bool :=
  allEngines.any (fun e =>
    let g := b.engine e
    PMap.get 0 g.checked cmdKey < g.level || (b.uncompared e).isSome)

/-- The uncommitted phases of a bank. -/
def Bank.openPhases (b : Bank) : List Nat := (List.range (b.phase + 1)).filter (b.committed ≤ ·)

/-- The cancelled phases take the line whose consumption cancelled them (R353). -/
def Bank.notePoison (b : Bank) (phases : List Nat) (line : Option Nat) : Bank :=
  { b with poison := phases.foldl (fun m q => match line with | some l => PMap.put m q l | none => PMap.erase m q) b.poison }

/-- A bank consumes a poisoned value in a phase: it is counted, and the bank and its gang roll back, or its nest ends where the
re-execution of the phase consumes the same line again, or its checkpoint is itself uncorrectable (R352, R353, R355). A mismatch
of the same phases that Yarrow may still report then causes no second rollback (R354). -/
def State.consumePoison (s : State) (bid phase : Nat) (line : Option Nat) (ckptBad : Bool) : State :=
  let b := s.bank bid
  let d := dieOf bid
  let s := if (s.die d).ucons < 0xFFFF then (s.modDie d (fun d => { d with ucons := d.ucons + 1 })).rasRise d else s
  if (line.isSome && PMap.find b.poison phase = line) || ckptBad || !(b.ckpts.any (·.phase = b.committed)) then
    s.terminateOf bid 0x13
  else
    let ms := s.members (s.handleBank bid)
    (ms.foldl (fun s m =>
      let b := s.bank m
      (s.rollback m).modBank m (fun k => { k.notePoison b.openPhases line with misOpen := b.comparing })) s).fireAll ms

/-- An agent of a bank consumes a poisoned value (R352). -/
def State.agentPoison (s : State) (bid : Nat) (e : Option Engine) (line : Option Nat) : State :=
  s.consumePoison bid ((s.bank bid).phaseOf e) line false

/-! ### How an engine goes on after a word (R157, R250) -/

/-- The micro-PC of an engine passes the last word of its store: its word has completed, and an illegal word stands behind it (R157, R229). -/
def Bank.overrun (b : Bank) (e : Engine) : Bank := b.modEngine e (fun g => { g with stopped := none })

/-- The `upc` of an engine's illegal word is recorded (R229). -/
def State.noteIllegal (s : State) (bid : Nat) (e : Engine) : State :=
  s.modCore (coreOf bid) (fun c => { c with illegalUpc := ((s.bank bid).engine e).regs.upc })

/-- How an engine goes on after a word. -/
inductive Flow where
  | next
  | goto (a : Nat)
  | ret
  /-- the word has not ended: it takes further turns -/
  | more
  deriving DecidableEq, Repr, Inhabited

/-- The entry in execution ends (R157). -/
def Bank.endEntry (b : Bank) (e : Engine) : Bank :=
  (b.modEngine e (fun g =>
    { g with entry := none, stopped := none, regs := { g.regs with upc := none } })).passBoundary e 3

/-- The bank as its engine goes on after a word; none where it runs past the end of its store (R156, R157). -/
def Bank.flowed (b : Bank) (e : Engine) (f : Flow) : Option Bank :=
  let g := b.engine e
  let goTo := fun (a : Nat) => b.setEngine e { g with stopped := none, regs := { g.regs with upc := some a } }
  match f with
  | .more => some b
  | .ret => some (b.endEntry e)
  | .goto a => some (goTo a)
  | .next =>
    match g.regs.upc with
    | none => some (b.endEntry e)
    | some u => if 8191 ≤ u then none else some (goTo (u + 1))

/-! ### Retirement of markers (R131, R144, R152, R267) -/

/-- A marker of an engine retires with number `n` in a window: it releases the engine's domain writes, and what the bank's committed
phases released before it (R131, R144, R152). -/
def Bank.release (b : Bank) (e : Engine) (n : BitVec 32) (window : Nat) : Bank :=
  let g := b.engine e
  let own := g.domWrites.map (fun d => { marker := n, phase := some d.1, line := d.2, window := window : Release })
  let past := b.phaseDom.map (fun d => { marker := n, phase := none, line := d.1, window := d.2 : Release })
  let b := b.setEngine e { g with domWrites := [], released := own ++ past ++ g.released, regs := { g.regs with marker := some n } }
  if e = .cx then b.coverCopy (fun _ => true) window else b

/-- A marker of an engine retires with number `n`: it sets the retired-marker number, and rendezvous registers may fire (R131, R132). -/
def State.retireMarker (s : State) (bid : Nat) (e : Engine) (n : BitVec 32) : State :=
  let s := s.modBank bid (fun b => b.release e n s.window)
  (s.fireRv bid).fireRv (s.handleBank bid)

/-- The number of the marker at which an engine stands: a `mark` word that has executed, or a marker entry that has issued. -/
def Eng.pendingMark (g : Eng) : Option (BitVec 32) :=
  match g.mark with
  | some n => some n
  | none => match g.entry with
    | some ⟨.marker n, _, _⟩ => some n
    | _ => none

/-- A marker at which an engine stands may retire: every earlier copy word is complete, and every earlier phase has committed (R131,
R152). -/
def Bank.markerReady (b : Bank) (e : Engine) : Bool :=
  (b.engine e).pendingMark.isSome && (e ≠ .cx || b.flights.isEmpty) && (b.engine e).phase ≤ b.committed

/-- The marker at which an engine stands retires (R131). -/
def State.retirePending (s : State) (bid : Nat) (e : Engine) : State :=
  match ((s.bank bid).engine e).pendingMark with
  | none => s
  | some n =>
    let s := s.retireMarker bid e n
    let g := (s.bank bid).engine e
    if g.mark.isSome then s.modBank bid (fun b => (b.setEngine e { g with mark := none }).passBoundary e 3)
    else s.modBank bid (·.endEntry e)

/-! ### Re-issue (R70, R186) -/

/-- Every version of a handle with one change. -/
def Bank.mapVers (b : Bank) (f : HVer → HVer) : Bank :=
  { b with core := { b.core with ph := b.core.ph.map (fun h => { cur := f h.cur, old := h.old.map f }) } }

/-- The version a resolved waiter named is walked again: its leaf fills the TLBs, a failure removes what they hold (R34, R35, R244); also where
the word waited for the link (R42; log 110). While a table of the walk cannot be read, the version is as one whose walk goes on (R74). -/
def State.rewalkVer (s : State) (bid ver : Nat) (w : Who) : State :=
  let hb := s.handleBank bid
  let hit := fun (v : HVer) => v.id = ver && v.state = .pending && v.cause ≠ 0
  match ((s.bank hb).core.ph.toList.flatMap (fun h => h.cur :: h.old)).find? hit with
  | none => s
  | some v =>
    let va := canonAddr (v.vpage * 4096)
    match s.walk w.die w.root va with
    | .ok l => (s.tlbRenew w va l).modBank hb (·.mapVers (fun v =>
        if hit v then { v with state := .valid, cause := 0, leaf := l } else v))
    | .error 0 => s.modBank hb (·.mapVers (fun v => if hit v then { v with cause := 0 } else v))
    | .error c => (s.tlbDrop w va).modBank hb (·.mapVers (fun v => if hit v then { v with cause := c } else v))

def Waiter.ver : Waiter → Nat
  | .record _ _ v => v
  | .alloc _ _ _ v => v
  | .link v => v

/-- A stopped word re-issues (R186). -/
def State.reissueWord (s : State) (bid : Nat) (e : Engine) : State :=
  match ((s.bank bid).engine e).stopped with
  | some st =>
    match st.waiter with
    | some w =>
      let s := s.modBank bid (fun b => b.modEngine e (fun g => { g with stopped := some { st with waiter := none } }))
      (s.rewalkVer bid w.ver (s.whoHandle bid (some e))).gcFaults
    | none => s
  | none => s

/-- The promise of a word that issues now (R64). -/
def State.promise (s : State) (empty : Bool) : Nat := (s.cycle + (if empty then 1 else max 1 s.cur.forecast)) % 2 ^ 64

/-- The replay of an issued copy word begins: its version is walked again and it makes a new promise (R70, R186, R244). -/
def State.reissueFlight (s : State) (bid : Nat) (f : Flight) : State :=
  match f.waiter with
  | none => s
  | some w =>
    let s := s.rewalkVer bid w.ver (s.whoHandle bid (some .cx))
    (s.modBank bid (fun b => (b.modFlight f.n (fun f => { f with waiter := none })).setProm f.n (fun p =>
      { p with state := .promised, time := s.promise false, read := false }))).gcFaults

/-- The issued copy words of a bank whose records are resolved re-issue (R186). -/
def State.reissueDue (s : State) (bid : Nat) : State :=
  (s.bank bid).flights.foldl (fun s f => if f.waiter.any (s.resolved (dieOf bid)) then s.reissueFlight bid f else s) s

/-! ### Drain (R179, R180) -/

/-- The promise of an issued copy word shows that it waits on a fault (R70). -/
def Bank.flightWaits (b : Bank) (n : Nat) (w : Waiter) : Bank :=
  (b.modFlight n (fun f => { f with waiter := some w })).setProm n (fun p => { p with state := .waiting })

/-- What a request of an issued copy word that stops does: a fault of the page-fault path makes a record, link-down a waiter, poison a
rollback, any other fault ends the nest (R177). -/
def State.flightStop (s : State) (bid n : Nat) : Stop → State
  | .access c va acc ver =>
    if c ≤ 5 then
      let (s, w) := s.recordFault bid 3 c va acc ver
      s.modBank bid (·.flightWaits n w)
    else if c = 6 then s.modBank bid (·.flightWaits n (.link ver))
    else s.terminateOf bid c
  | .ends c => s.terminateOf bid c
  | .poison l =>
    let f := (s.bank bid).flights.find? (·.n = n)
    s.consumePoison bid ((f.map (·.phase)).getD 0) l false
  | _ => s

/-- The issued copy words complete in queue order; one that stops keeps its progress, and holds up only the words that touch what it
touches (R126, R179). `tried` are the words that wait. -/
def State.drainFlights (s : State) (bid : Nat) (tried : List Nat) : Nat → State
  | 0 => s
  | k + 1 =>
    match s.nextFlight bid tried with
    | none => s
    | some n =>
      match (finishFlight bid n).run s with
      | .ok _ s' => s'.drainFlights bid tried k
      | .error .wait s' => s'.drainFlights bid (n :: tried) k
      | .error x s' => (s'.flightStop bid n x).drainFlights bid (n :: tried) k

/-- A multiply word of a bank has begun, waits on nothing, and finds its next slot pair. -/
def Bank.hasPair (b : Bank) : Bool :=
  let g := b.engine .mx
  match g.stopped with
  | some st => st.waiter.isNone && st.mul.any (fun j =>
      g.regs.rings[ringA j.rings].filled ≠ 0 && g.regs.rings[ringB j.rings].filled ≠ 0)
  | none => false

/-- The next slot pair of every member, in lock step (R173). -/
def nextPairs : List Nat → M Bool
  | [] => return false
  | [m] => nextPair m
  | m :: ms => do
    let _ ← nextPair m
    nextPairs ms

/-- A multiply word at the end of its store has completed in a drain: from now on the bank, or its gang, drains for the end of its nest, which
comes before whatever it drained for (R157, R178, R229). -/
def State.overrunMul (s : State) (bid : Nat) : State :=
  ((s.noteIllegal bid .mx).modBank bid (·.overrun .mx)).modBank (s.handleBank bid) (fun b => { b with draining := .ends .mx 0x10 })

/-- A multiply word that has begun takes the slot pairs that are there, and completes with its last (R179). -/
def State.drainMul (s : State) (ms : List Nat) : Nat → State
  | 0 => s
  | k + 1 =>
    if ms.all (fun m => (s.bank m).hasPair) then
      match (nextPairs ms).run s with
      | .ok false s' => s'.drainMul ms k
      | .ok true s' => ms.foldl (fun s m => match (s.bank m).flowed .mx .next with
          | some b => s.setBank m b
          | none => s.overrunMul m) s'
      | .error (.poison l) s' => s'.agentPoison (ms.headD 0) (some .mx) l
      | .error (.ends c) s' => s'.terminateOf (ms.headD 0) c
      | .error _ _ => s
    else s

/-- The slot pairs of the longest multiply word: 65,535 in steps of 96. -/
def maxPairs : Nat := 683

/-- The oldest closed phase of a gang, or of a bank alone, can commit: every word of it has completed in every member (R152, R256). -/
def State.canCommit (s : State) (ms : List Nat) : Bool :=
  ms.all (fun m =>
    let b := s.bank m
    b.task.isSome && b.committed < b.phase && b.phaseDone b.committed)

/-- The markers of a bank that may retire do. -/
def State.retireReady (s : State) (bid : Nat) : State :=
  allEngines.foldl (fun s e => if (s.bank bid).markerReady e then s.retirePending bid e else s) s

/-- What goes on in a drain by itself, in every member of a gang: copy words first, also those whose records are resolved, then a multiply
word that has begun, markers, and the commit of a phase (R152, R173, R179, R186). -/
def State.drainStep (s : State) (ms : List Nat) : State :=
  let s := ms.foldl (fun s m => s.reissueDue m) s
  let s := ms.foldl (fun s m => s.drainFlights m [] (s.bank m).flights.length) s
  let s := s.drainMul ms maxPairs
  let s := ms.foldl (fun s m => s.retireReady m) s
  if s.canCommit ms then ms.foldl (fun s m => s.commit m) s else s

/-- No engine of the bank has tried in vain to go on with its entry. -/
def Bank.clearWaits (b : Bank) : Bank := b.modEngines (fun _ g => { g with waited := false })

/-- The drain goes on by itself until nothing changes; what an engine waits for may have come with a change. -/
def State.drain (s : State) (ms : List Nat) : Nat → State
  | 0 => s
  | k + 1 =>
    let t := s.drainStep ms
    if ms.all (fun m => t.bank m = s.bank m) then t
    else (ms.foldl (fun s m => s.modBank m Bank.clearWaits) t).drain ms k

/-- Rounds of a drain in one step of the model; what is left goes on in the next. -/
def drainRounds : Nat := 8

/-- The word of an engine has faulted, and its fault is not resolved (R180, R186). -/
def State.wordStuck (s : State) (bid : Nat) (e : Engine) : Bool :=
  ((s.bank bid).engine e).stopped.any (·.waiter.any (fun w => !s.resolved (dieOf bid) w))

/-- The entry of an engine can be left: there is none; or its word has faulted; or it is a marker that cannot retire; or its word has tried in
vain to go on, and it waits neither for a comparison nor for the end of a flip (R45, R162, R179). -/
def State.engineStill (s : State) (bid : Nat) (e : Engine) : Bool :=
  let b := s.bank bid
  let g := b.engine e
  if g.pendingMark.isSome then !b.markerReady e
  else g.entry.isNone || s.wordStuck bid e || (g.waited && (b.uncompared e).isNone && s.host.flips.isEmpty)

/-- An issued copy word that a drain has left can stay: it has faulted, or waits for more than that its writes persist or a flip ends
(R45, R81, R179). -/
def Flight.still (f : Flight) (flip : Bool) : Bool := f.waiter.isSome || (!f.reqs.isEmpty && !flip)

/-- Nothing of a bank goes on in a drain: no use waits for a walk, and each issued word has stopped; one engine may be left out (R39,
R179). -/
def State.still (s : State) (but : Option Engine) (bid : Nat) : Bool :=
  let b := s.bank bid
  b.uses.all (·.1 = 0) && b.flights.all (·.still (!s.host.flips.isEmpty))
    && allEngines.all (fun e => but = some e || s.engineStill bid e)

/-- The drain of a gang, or of a bank alone, is over. -/
def State.drained (s : State) (ms : List Nat) (but : Option Engine) : Bool :=
  ms.all (fun m => (s.drainStep ms).bank m = s.bank m && s.still but m)

/-- A drain of a bank's gang goes on, or of the bank alone (R173): it is kept with the bank that leads. -/
def State.drains (s : State) (bid : Nat) : Bool := (s.bank (s.handleBank bid)).draining ≠ .none

/-! ### Events due at an instruction boundary (R178) -/

/-- Queue-low is enabled and pending (R161, R176, R178). -/
def Bank.lowPending (b : Bank) : Option Engine :=
  if b.core.priv = .super && b.core.csr.sstatus.getLsbD 1 && b.core.csr.sie.getLsbD 16 then b.lowDue else none

abbrev queueLow : Nat := 2 ^ 63 + 16

/-- The trap or interrupt that the bank takes before its next instruction: scause and stval. -/
def Bank.due (b : Bank) : Option (Nat × Nat) :=
  match b.ctxDue with
  | some d => some (62, d)
  | none => match b.missDue with
    | n :: _ => some (61, n)
    | [] => b.lowPending.map (fun e => (queueLow, (engIx e).val))

/-- A pending queue-low is pending no longer. -/
def Bank.dropLow (b : Bank) : Bank :=
  { b with lowDue := none, core := { b.core with csr := { b.core.csr with sip := b.core.csr.sip &&& ~~~ BitVec.twoPow 64 16 } } }

/-- The event that is due at the boundary is taken, and is due no longer. -/
def Bank.served (b : Bank) : Bank :=
  match b.ctxDue with
  | some _ => { b with ctxDue := none }
  | none => match b.missDue with
    | n :: _ => { b with missDue := b.missDue.filter (· ≠ n) }
    | [] => b.dropLow

/-- The row of R178 that the drain of a bank serves; none: 9. -/
def Bank.drainRow (b : Bank) : Nat :=
  match b.draining with
  | .ends .. => 1
  | .trap .. => 3
  | .fault => 4
  | .due => if b.ctxDue.isSome then 4 else 6
  | .switch => 5
  | .save => 8
  | .none => 9

/-! ### Taking an exception, and returning from one (R175, R176) -/

/-- Bits of `sstatus` (R175). -/
abbrev bSIE : Nat := 1
abbrev bSPIE : Nat := 5
abbrev bSPP : Nat := 8

def setBit64 (w : Word) (i : Nat) (b : Bool) : Word :=
  if b then w ||| BitVec.twoPow 64 i else w &&& ~~~ BitVec.twoPow 64 i

/-- `sstatus` as a trap leaves it: SPP and SPIE take the prior privilege and SIE, SIE is cleared (R175). -/
def trapStatus (st : Word) (p : Priv) : Word :=
  setBit64 (setBit64 (setBit64 st bSPP (p = .super)) bSPIE (st.getLsbD bSIE)) bSIE false

/-- `sstatus` as a return leaves it: SIE takes SPIE, SPIE is set, SPP is cleared (R120, R225). -/
def returnStatus (st : Word) : Word :=
  setBit64 (setBit64 (setBit64 st bSIE (st.getLsbD bSPIE)) bSPIE true) bSPP false

/-- Where a trap goes: `stvec`, with the vector of an interrupt where its mode bit is set (R175; log 16). -/
def trapTarget (stvec : Word) (scause : Nat) : Word :=
  let base := stvec &&& 0xFFFFFFFFFFFFFFFC#64
  if stvec.getLsbD 0 && 2 ^ 63 ≤ scause then base + BitVec.ofNat 64 (4 * (scause % 2 ^ 63)) else base

/-- A wait that a trap or a page fault ends; a `gang` that has not formed is no longer waited in (R178). -/
def Bank.leaveWait (b : Bank) : Bank :=
  { b with
    wait := .none, waiter := none, gang := b.gang.filter (·.formed), uses := PMap.erase b.uses 0, issued := false }

/-- An instruction that waits when the core's bank gives way to a page fault is left unretired, and executed again afterwards; a `wfi` retires when
its wait ends, and a follower's `gang` waits on in its formed gang (R173, R178, R225). -/
def Bank.unwait (b : Bank) : Bank :=
  if b.wait = .wfi || b.gang.any (·.formed) && b.wait = .gang then b
  else { b with wait := .none, gang := b.gang.filter (·.formed), issued := false }

/-- Taking an exception: `sepc`, `scause` and `stval` are written, `sstatus` keeps the prior privilege and SIE, the bank goes
to S-mode at `stvec` (R175). -/
def Bank.enterTrap (b : Bank) (scause tval : Nat) : Bank :=
  let c := b.core.csr
  { b.leaveWait with
    draining := .none
    core := { b.core with
      pc := trapTarget c.stvec scause
      priv := .super
      csr := { c with sepc := b.core.pc, scause := BitVec.ofNat 64 scause, stval := BitVec.ofNat 64 tval,
                      sstatus := trapStatus c.sstatus b.core.priv } } }

/-- Leaving S-mode withdraws a pending queue-low (R178). -/
def Bank.leaveSuper (b : Bank) : Bank := if b.core.priv = .super then b else b.dropLow

/-- Returning from an exception to an address: privilege from SPP, SIE from SPIE (R120, R225). -/
def Bank.returnFromTrap (b : Bank) (pc : Word) : Bank :=
  let c := b.core.csr
  let p : Priv := if c.sstatus.getLsbD bSPP then .super else .user
  ({ b with core := { b.core with pc := pc, priv := p, csr := { c with sstatus := returnStatus c.sstatus } } }).leaveSuper

/-- A registered `dopen.w` of the bank is withdrawn (R99). -/
def State.withdraw (s : State) (bid : Nat) : State :=
  { s with dirWaiters := s.dirWaiters.filter (·.bid ≠ bid) }

/-- The open phase after a context fault begins at its trap, in every member (R173, R258). -/
def State.ckptAfter (s : State) (bid scause : Nat) : State :=
  if scause = 62 then (s.members bid).foldl (fun s m => s.modBank m (fun b => b.fullCkpt b.phase b.core.pc)) s else s

/-- The trap that is due at the instruction boundary is taken (R178). -/
def State.enterDue (s : State) (bid : Nat) : State :=
  match (s.bank bid).due with
  | none => s
  | some (c, t) => (s.modBank bid (fun b => b.served.enterTrap c t)).ckptAfter bid c

/-- What the drain of a bank's gang was for, once it is over; a save goes on where it began the drain, also behind a context fault that came
before it (R178). -/
def State.afterDrain (s : State) (bid : Nat) : State :=
  let d := (s.bank bid).draining
  let s := (s.members bid).foldl (fun s m => s.modBank m Bank.clearWaits) s
  let s := s.modBank bid (fun b => { b with draining := .none })
  match d with
  | .trap c t => s.modBank bid (·.enterTrap c t)
  | .due => s.enterDue bid
  | .switch => ((s.members bid).foldl (fun s m => s.modBank m Bank.unwait) s).switchAll bid
  | .ends _ c => s.terminateOf bid c
  | .fault => if (s.bank bid).saving.isSome then s.modBank bid (fun b => { b with draining := .save }) else s
  | .none | .save => s

/-- The drain of a bank that leads goes on, whether or not the bank is active, and what it was for follows once it is over (R179). The drain
for a context fault is the `vstub`'s, until that is no longer in execution (R116). -/
def State.settleDrain (s : State) (bid : Nat) : State :=
  let ms := s.members bid
  match (s.bank bid).draining with
  | .none => s
  | .fault => if ms.all (fun m => ((s.bank m).engine .vx).entry.isNone) then s.afterDrain bid else s
  | d =>
    let but := match d with | .ends e _ => some e | _ => none
    let s := s.drain ms drainRounds
    if s.drained ms but then s.afterDrain bid else s

/-- A bank or its gang begins to drain: the leader's bank keeps for what. -/
def State.beginDrain (s : State) (bid : Nat) (d : Drain) : State :=
  let lead := s.handleBank bid
  (s.modBank lead (fun b => { b with draining := d })).settleDrain lead

/-- A trap of a bank: it drains, and then takes the exception; a drain that ends its task or cancels its phase is served first (R175, R178,
R179). -/
def State.takeTrap (s : State) (bid scause tval : Nat) : State := (s.withdraw bid).beginDrain bid (.trap scause tval)

/-! ### Page faults (R172, R177) -/

/-- A word of a bank's gang waits on a fault that is not resolved: it has stopped, or has issued and its request has. -/
def State.wordsWait (s : State) (bid : Nat) : Bool :=
  (s.members bid).any (fun m => (s.bank m).wordWaiters.any (fun w => !s.resolved (dieOf m) w))

/-- A fault of the page-fault path has its waiter: the bank drains, and its core switches (R172, R177). It comes before a promise-missed or a
queue-low trap for which the bank drains already, and before a context fault where a word waits on it, for that fault's drain includes it;
any other drain ends as it will. A context fault that is due already is served first: its trap leaves the instruction that the page fault has
stopped unretired (R116, R178). -/
def State.giveWay (s : State) (bid : Nat) : State :=
  let lead := s.handleBank bid
  let b := s.bank lead
  if b.draining = .none && b.ctxDue.isSome then ((s.modBank lead Bank.leaveWait).gcFaults).beginDrain bid .due
  else if b.draining = .none || (b.draining = .due && b.drainRow = 6) || (b.draining = .fault && s.wordsWait lead) then s.beginDrain bid .switch
  else s

/-- The control core's access takes the page-fault path: record, drain, switch (R177). -/
def State.pageFaultCore (s : State) (bid code va acc ver : Nat) : State :=
  let (s, w) := s.recordFault bid 0 code va acc ver
  let s := s.modBank bid (fun b => { b.leaveWait with waiter := some w })
  (s.withdraw bid).giveWay bid

/-- A stopped word that has nothing to keep yet. -/
def Stopped.init (tick : Nat) : Stopped := { ops := [], done := 0, vals := [], mul := none, began := tick, waiter := none }

def Bank.wordWaits (b : Bank) (e : Engine) (tick : Nat) (w : Waiter) : Bank :=
  b.modEngine e (fun g => { g with stopped := some { g.stopped.getD (Stopped.init tick) with waiter := some w } })

/-- An engine word's access takes the page-fault path (R177, R180). -/
def State.pageFaultWord (s : State) (bid : Nat) (e : Engine) (code va acc ver : Nat) : State :=
  let (s, w) := s.recordFault bid (1 + (engIx e).val) code va acc ver
  (s.modBank bid (·.wordWaits e s.ticks w)).giveWay bid

/-! ### Running a body -/

/-- What stops a control-core instruction, as the next state (R177, R178, R239). -/
def State.coreStop (s : State) (bid : Nat) : Stop → Host.Outcome State Fault Refusal
  | .trap c t => .next (s.takeTrap bid c t)
  | .access c va acc ver =>
    if c ≤ 5 then .next (s.pageFaultCore bid c va acc ver) else .next (s.takeTrap bid (48 + c) va)
  | .wait => .next s
  | .ends c => .next (s.terminateOf bid c)
  | .poison l => .next (s.agentPoison bid none l)

/-- The instruction retires: it is counted, and nothing of it waits any more (R226). -/
def Bank.retire (b : Bank) : Bank := { b with instret := b.instret + 1, wait := .none, waiter := none, issued := false }

/-- Run a control-core instruction whose next instruction follows it. -/
def runCc (body : M Unit) (s : State) : Host.Outcome State Fault Refusal :=
  match body.run s with
  | .ok _ s' => .next (s'.modBank s.cur.bid (fun b => (b.setPc (b.core.pc + BitVec.ofNat 64 s.cur.ilen)).retire))
  | .error e s' => s'.coreStop s.cur.bid e

/-- Run a control-core instruction that says where the next instruction is. -/
def runJump (body : M Word) (s : State) : Host.Outcome State Fault Refusal :=
  match body.run s with
  | .ok t s' => .next (s'.modBank s.cur.bid (fun b => (b.setPc t).retire))
  | .error e s' => s'.coreStop s.cur.bid e

/-- The address after the instruction. -/
def nextPc : M Word := do
  let s ← get
  return (s.bank s.cur.bid).core.pc + BitVec.ofNat 64 s.cur.ilen

/-- Every word of the bank, or of the gang it leads, has completed and every closed phase has committed (R259). -/
def State.settled (s : State) (bid : Nat) : Bool :=
  (s.members bid).all (fun m => (s.bank m).quiet && (s.bank m).committed = (s.bank m).phase)

/-- The open phase of the bank, or of every member of the gang it leads, commits (R256, R259). -/
def State.commitOpenAll (s : State) (bid : Nat) : State :=
  (s.members bid).foldl (fun s m => s.commitOpen m (s.bank m).core.pc) s

/-- The phase that begins behind an irrevocable form takes its checkpoint, with the pc given for the issuing bank (R259). -/
def State.beginPhase (s : State) (bid : Nat) (pc : Word) : State :=
  (s.members bid).foldl (fun s m => s.modBank m (fun b => b.fullCkpt b.phase (if m = bid then pc else b.core.pc))) s

/-- An irrevocable form issues: it waits until every word has completed and every closed phase has committed, and the open phase
commits, once for the form (R259). -/
def issueIrrevocable : M Unit := do
  let s ← get
  let bid := s.cur.bid
  if !s.settled bid then waitMore
  if !(s.bank bid).issued then
    modify fun s => (s.commitOpenAll bid).modBank bid (fun b => { b with issued := true })

/-- An irrevocable form that says where the next instruction is: it issues; its checks and accesses come before its effect; the next
phase begins with a checkpoint behind it (R259). -/
def irrevocableTo {α : Type} (checks : M α) (effect : α → M Word) : M Word := do
  issueIrrevocable
  let x ← checks
  let pc ← effect x
  let bid ← curBid
  modify fun s => s.beginPhase bid pc
  return pc

/-- An irrevocable form whose next instruction follows it (R259). -/
def irrevocable {α : Type} (checks : M α) (effect : α → M Unit) : M Unit := do
  let _ ← irrevocableTo checks (fun x => do
    effect x
    nextPc)

/-- An engine fault that ends the nest; an illegal word's `upc` is recorded, and the bank drains first (R177, R229). -/
def State.faultEnd (s : State) (bid : Nat) (e : Engine) (cause : Nat) : State :=
  if cause = 0x10 then (s.noteIllegal bid e).beginDrain bid (.ends e cause)
  else s.terminateOf bid cause

/-- What stops an engine word, as the next state (R177). -/
def State.wordStop (s : State) (bid : Nat) (e : Engine) : Stop → Host.Outcome State Fault Refusal
  | .access c va acc ver =>
    if c ≤ 5 then .next (s.pageFaultWord bid e c va acc ver)
    else if c = 6 then .next ((s.modBank bid (·.wordWaits e s.ticks (.link ver))).giveWay bid)
    else .next (s.faultEnd bid e c)
  | .wait => .next s
  | .ends c => .next (s.faultEnd bid e c)
  | .trap .. => .next s
  | .poison l => .next (s.agentPoison bid (some e) l)

/-- The engine goes on after a word (R157, R250). -/
def State.flow (s : State) (bid : Nat) (e : Engine) (f : Flow) : State :=
  match (s.bank bid).flowed e f with
  | some b => s.setBank bid b
  | none => (s.modBank bid (·.overrun e)).faultEnd bid e 0x10

/-- Run an engine word of the bank and engine in execution. -/
def runWord (body : Engine → M Flow) (s : State) : Host.Outcome State Fault Refusal :=
  match s.cur.eng with
  | none => .next s
  | some e =>
    match (body e).run s with
    | .ok f s' => .next (s'.flow s.cur.bid e f)
    | .error x s' => s'.wordStop s.cur.bid e x

end Sys2Proof.Machine
end

