-- ==== Sys2Proof/Machine/Words.lean ====
section
/-! DEFINITION. What engine words share: the parameter stack (R157, R263), the data queues at an engine (R162, R270) and the
operands and progress of a word that stops (R180). -/

namespace Sys2Proof.Machine

def paramDepth : Nat := 8
def returnDepth : Nat := 4

/-! ### The parameter stack (R157, R263) -/

/-- The entries that a word which pops `n` and pushes `k` takes, top first; the stack is not changed. The word is illegal where the
stack holds fewer or has no room. -/
def operands (e : Engine) (n k : Nat) : M (List Word) := do
  let st := (← curEng e).regs.pstack
  if st.length < n || paramDepth < st.length - n + k then illegalWord
  return st.take n

/-- The stack without its top `n` entries, and with others on top, the top first. -/
def restack (e : Engine) (n : Nat) (push : List Word) : M Unit :=
  modRegs e (fun r => { r with pstack := push ++ r.pstack.drop n })

/-! ### Data queues at an engine (R162, R270) -/

/-- The head element of a queue towards the engine, once Yarrow's copy of it has been compared (R162); it is not popped. -/
def queueFront (e : Engine) (q : BitVec 3) : M Elem := do
  let b ← curBank
  match b.queueOf q with
  | [] => waitMore
  | v :: _ =>
    if PMap.get 0 (b.engine e).checked q.toNat = 0 then waitMore
    if v.bad then fail (.poison none)
    return v

/-- The head element of a queue towards the engine is popped. -/
def Bank.takeElem (b : Bank) (e : Engine) (q : BitVec 3) : Bank :=
  (b.setQueue q (b.queueOf q).tail).modEngine e (fun g =>
    { g with checked := PMap.put g.checked q.toNat (PMap.get 0 g.checked q.toNat - 1) })

def elemDepth : Nat := 32

/-- Whether the executing bank delivers what its engines push: a follower of a formed gang delivers nothing (R173). -/
def delivers : M Bool := do
  let s ← get
  return s.handleBank s.cur.bid = s.cur.bid

/-- An element goes to a queue from the engine, once there is room (R270). -/
def deliver (e : Engine) (q : BitVec 3) (v : Word) (valid : Bool) : M Unit := do
  if ← delivers then
    let b ← curBank
    if elemDepth ≤ (b.queueOf q).length then waitMore
    modCur (·.pushElem q ⟨v, valid, (b.engine e).phase, false⟩)

end Sys2Proof.Machine
end

