-- ==== Sys2Proof/Machine/Common.lean ====
section
/-! DEFINITION. The words that every engine has (R263 to R270). -/

namespace Sys2Proof.Machine

/-! ### Stack words (R263) -/

/-- A literal: its 15 bits zero-extended. -/
def execLiteral (v : BitVec 15) (s : State) : Host.Outcome State Fault Refusal :=
  runWord (fun e => do
    let _ ← operands e 0 1
    restack e 0 [v.setWidth 64]
    return .next) s

/-- A stack word that replaces its operands, top first, by others. -/
def stackWord (pops pushes : Nat) (f : List Word → List Word) (s : State) : Host.Outcome State Fault Refusal :=
  runWord (fun e => do
    let l ← operands e pops pushes
    restack e pops (f l)
    return .next) s

def execLix (s : State) : Host.Outcome State Fault Refusal :=
  stackWord 2 1 (fun l => match l with
    | [lo, hi] => [hi * 0x8000#64 + lo]
    | l => l) s

def execDup (s : State) : Host.Outcome State Fault Refusal :=
  stackWord 1 2 (fun l => match l with
    | [a] => [a, a]
    | l => l) s

def execDrop (s : State) : Host.Outcome State Fault Refusal := stackWord 1 0 (fun _ => []) s

def execSwap (s : State) : Host.Outcome State Fault Refusal :=
  stackWord 2 2 (fun l => match l with
    | [a, b] => [b, a]
    | l => l) s

/-- `rot`: the third entry comes to the top. -/
def execRot (s : State) : Host.Outcome State Fault Refusal :=
  stackWord 3 3 (fun l => match l with
    | [a, b, c] => [c, a, b]
    | l => l) s

def execNop (s : State) : Host.Outcome State Fault Refusal := runWord (fun _ => return .next) s

/-! ### Hardware loops (R158, R264, R265) -/

def loopIx (l : BitVec 2) : Fin 3 := Fin.ofNat 3 l.toNat

def EngRegs.modLoop (r : EngRegs) (l : BitVec 2) (f : LoopReg → LoopReg) : EngRegs :=
  { r with loops := r.loops.set (loopIx l) (f r.loops[loopIx l]) }

/-- The word `endl lcN` (R264). -/
def endlWord (l : BitVec 2) : Half := 0x0E00#16 + l.setWidth 16

/-- Address of the first `endl` of a level after a word address. -/
def firstEndl (store : List Half) (l : BitVec 2) (a : Nat) : Option Nat :=
  ((store.drop (a + 1)).findIdx? (· = endlWord l)).map (· + (a + 1))

def execLoop (l : BitVec 2) (s : State) : Host.Outcome State Fault Refusal :=
  runWord (fun e => do
    let s ← get
    let g ← curEng e
    let r := g.regs.loops[loopIx l]
    match g.regs.upc with
    | none => illegalWord
    | some a =>
      if r.active then illegalWord
      let stop ← match r.sle with
        | some le => pure le
        | none => match firstEndl ((s.coreSt (coreOf s.cur.bid)).store[engIx e]) l a with
          | some le => pure le
          | none => illegalWord
      match ← operands e 1 0 with
      | [v] =>
        let c : BitVec 32 := v.setWidth 32
        restack e 1 []
        modRegs e (·.modLoop l (fun r =>
          { lc := if c = 0 then r.lc else c, ls := r.sls.getD (a + 1), le := stop, sls := none, sle := none,
            active := c ≠ 0 }))
        return if c = 0 then .goto (stop + 1) else .next
      | _ => illegalWord) s

def execEndl (l : BitVec 2) (s : State) : Host.Outcome State Fault Refusal :=
  runWord (fun e => do
    let g ← curEng e
    let r := g.regs.loops[loopIx l]
    if g.regs.upc ≠ some r.le || !r.active then illegalWord
    if r.lc.toNat ≤ 1 then
      modRegs e (·.modLoop l (fun r => { r with lc := 0, active := false }))
      return .next
    else
      modRegs e (·.modLoop l (fun r => { r with lc := r.lc - 1 }))
      return .goto r.ls) s

/-- The last word of an engine store (R156). -/
def lastWord : Nat := 8191

def execLset (k l : BitVec 2) (s : State) : Host.Outcome State Fault Refusal :=
  runWord (fun e => do
    match ← operands e 1 0 with
    | [v] =>
      if k ≠ 0 && lastWord < v.toNat then illegalWord
      restack e 1 []
      modRegs e (·.modLoop l (fun r =>
        if k = 0 then { r with lc := v.setWidth 32 }
        else if k = 1 then { r with sls := some v.toNat }
        else { r with sle := some v.toNat }))
      return .next
    | _ => illegalWord) s

/-- What `lget` reads (R158, R265). -/
def LoopReg.reads (r : LoopReg) (k : BitVec 2) : Word :=
  if k = 0 then r.lc.setWidth 64
  else if k = 1 then BitVec.ofNat 64 (r.sls.getD r.ls)
  else BitVec.ofNat 64 (r.sle.getD r.le)

def execLget (k l : BitVec 2) (s : State) : Host.Outcome State Fault Refusal :=
  runWord (fun e => do
    let _ ← operands e 0 1
    let g ← curEng e
    restack e 0 [g.regs.loops[loopIx l].reads k]
    return .next) s

/-! ### Tokens, marks and calls (R266 to R268) -/

def tokenDepth : Nat := 16

def execTokw (peer : Engine) (s : State) : Host.Outcome State Fault Refusal :=
  runWord (fun e => do
    let b ← curBank
    if tokenDepth ≤ (b.tokens e peer).length then waitMore
    modCur (·.pushToken e peer (b.engine e).phase)
    return .next) s

def execTokr (peer : Engine) (s : State) : Host.Outcome State Fault Refusal :=
  runWord (fun e => do
    let b ← curBank
    match b.tokens peer e with
    | [] => waitMore
    | _ :: rest =>
      modCur (·.setTokens peer e rest)
      return .next) s

/-- `mark`: the engine holds its next words until the marker has retired (R131, R267). -/
def execMark (s : State) : Host.Outcome State Fault Refusal :=
  runWord (fun e => do
    match ← operands e 1 0 with
    | [v] =>
      restack e 1 []
      modEng e (fun g => { g with mark := some (v.setWidth 32) })
      return .next
    | _ => illegalWord) s

def execCall (s : State) : Host.Outcome State Fault Refusal :=
  runWord (fun e => do
    let g ← curEng e
    match ← operands e 1 0 with
    | [v] =>
      if lastWord < v.toNat || returnDepth ≤ g.regs.rstack.length then illegalWord
      restack e 1 []
      match g.regs.upc with
      | some u => modRegs e (fun r => { r with rstack := (u + 1) :: r.rstack })
      | none => pure ()
      return .goto v.toNat
    | _ => illegalWord) s

def execRet (s : State) : Host.Outcome State Fault Refusal :=
  runWord (fun e => do
    match (← curEng e).regs.rstack with
    | [] => return .ret
    | a :: rest =>
      modRegs e (fun r => { r with rstack := rest })
      return .goto a) s

/-! ### Format select and data queues (R269, R270) -/

def execFsel (f : BitVec 4) (s : State) : Host.Outcome State Fault Refusal :=
  runWord (fun e => do
    modRegs e (fun r => { r with fmt := f.toNat })
    return .next) s

def execQin (q : BitVec 3) (s : State) : Host.Outcome State Fault Refusal :=
  runWord (fun e => do
    let _ ← operands e 0 1
    let v ← queueFront e q
    modCur (·.takeElem e q)
    restack e 0 [v.value]
    return .next) s

def execQout (q : BitVec 3) (s : State) : Host.Outcome State Fault Refusal :=
  runWord (fun e => do
    match ← operands e 1 0 with
    | [v] =>
      deliver e q v true
      restack e 1 []
      return .next
    | _ => illegalWord) s

end Sys2Proof.Machine
end

