-- ==== Sys2Proof/Machine/Context.lean ====
section
/-! DEFINITION. The virtual-context forms of the control core: `vcfp`, `vcrep`, `vcsync` (R120, R121). -/

namespace Sys2Proof.Machine

/-- Field of a context descriptor word that lies in a bit range (R107). -/
def ctxWord (w : Who) (ctx i : Nat) : M Nat := loadVa w (ctx + 8 * i) 8

/-- `vcfp`: pops a fault record; 0 where the queue is empty (R120). -/
def execVcfp (d a : Reg) (s : State) : Host.Outcome State Fault Refusal :=
  runCc (do
    if (← curBank).core.priv ≠ .super then illegal
    irrevocable
      (do
        let s ← get
        let w := s.whoCore s.cur.bid
        let fq ← ctxWord w (← readX a).toNat 3
        let hd ← loadVa w (fq + 8) 8
        let tl ← loadVa w (fq + 16) 8
        let cap ← loadVa w fq 8
        if hd ≠ tl then
          let _ ← translateSpan w (fq + 16) 8 accW 0
        return (fq, hd, tl, bits cap 0 4))
      (fun (fq, hd, tl, c) => do
        if hd = tl then writeX d 0
        else
          let s ← get
          storeVa (s.whoCore s.cur.bid) (fq + 16) 8 ((tl + 1) % 2 ^ 64)
          writeX d (BitVec.ofNat 64 (fq + 64 + 32 * (tl % 2 ^ c))))) s

/-- `vcrep`: resolves a fault record and resumes the token at the replay entry (R120), whose bit 0 the pc does not hold (log 65). -/
def execVcrep (a : Reg) (s : State) : Host.Outcome State Fault Refusal :=
  runJump (do
    if (← curBank).core.priv ≠ .super then illegal
    irrevocableTo
      (do
        let s ← get
        let w := s.whoCore s.cur.bid
        let r := (← readX a).toNat
        if r % 32 ≠ 0 then trap 4 r
        let rec0 ← loadBlock w r 32
        let ctx := blockWord rec0 0
        let w1 := blockWord rec0 1
        let w3 := blockWord rec0 3
        let res := bits w3 62 2
        let fdepth := bits w1 32 8
        let slot := bits w3 0 16
        let depth := bits (← ctxWord w ctx 9) 0 8
        let rcap := bits (← ctxWord w ctx 6) 48 16
        let replay ← ctxWord w ctx 5
        if res = 0 || res = 3 || fdepth = 0 || 4 < fdepth || fdepth ≠ depth || (res = 1 && rcap ≤ slot) then illegal
        let pin := if res = 1 then slot else (0x8000 + bits w1 16 16) % 2 ^ 16
        let _ ← translateSpan w (ctx + 64 + 2 * (fdepth - 1)) 2 accW 0
        return (ctx, w1, fdepth, pin, replay))
      (fun (ctx, w1, fdepth, pin, replay) => do
        let s ← get
        storeVa (s.whoCore s.cur.bid) (ctx + 64 + 2 * (fdepth - 1)) 2 pin
        writeX 10#5 (BitVec.ofNat 64 ctx)
        writeX 11#5 (BitVec.ofNat 64 (bits w1 48 16))
        writeX 12#5 (BitVec.ofNat 64 (bits w1 40 8))
        let pc := BitVec.ofNat 64 replay &&& 0xFFFFFFFFFFFFFFFE#64
        modCur (·.returnFromTrap pc)
        return pc)) s

/-- The domain writes that the committed phases of a bank, or of every member of the gang it leads, have released (R152, R256). -/
def State.committedDom (s : State) (bid : Nat) : List (Nat × Nat) := (s.members bid).flatMap (fun m => (s.bank m).phaseDom)

/-- `vcsync`: waits until every earlier `phsw` has committed, acquires what those phases wrote, and clears depth and pins (R121, R152). -/
def execVcsync (a : Reg) (s : State) : Host.Outcome State Fault Refusal :=
  runCc (do
    let s ← get
    let b ← curBank
    if b.committed < b.phase then waitMore
    let w := s.whoCore s.cur.bid
    let ctx := (← readX a).toNat
    let _ ← translateSpan w (ctx + 64) 8 accW 0
    let _ ← translate w (ctx + 72) accW 0
    storeVa w (ctx + 64) 8 (2 ^ 64 - 1)
    storeVa w (ctx + 72) 1 0
    modCur (fun b => { b with dom := joinAll b.dom (s.committedDom s.cur.bid) })) s

end Sys2Proof.Machine
end

