-- ==== Sys2Proof/Decode.lean ====
section
/-! DEFINITION. The decoder of control-core instructions (R219 to R225) and of engine words (R227 to R238), total on any
bits and rejecting by name, and after it the encoder, written from the same tables. -/

namespace Sys2Proof

/-- Why bits are no instruction. Each is an illegal-instruction trap on the control core (R222, R225) or an illegal word in
an engine (R229). -/
inductive DecodeError where
  /-- fewer bytes than the encoding needs -/
  | truncated
  /-- an encoding of 48 bits or longer (R225) -/
  | longEncoding
  /-- a compressed encoding that is reserved, or one of the four floating-point ones (R225) -/
  | reservedCompressed
  /-- a word in custom-0 to custom-3 that R221 does not list -/
  | unlistedForm
  /-- a field that must be zero is not zero, or a sub-field breaks R220 -/
  | badField
  /-- a standard encoding outside R225 -/
  | unlistedStandard
  /-- an engine word whose opcode the engine does not assign (R229) -/
  | unassignedOpcode
  /-- an engine word with a modifier outside its range, or used in an engine where it is forbidden (R229) -/
  | badModifier
  deriving DecidableEq, Repr, Inhabited

/-! ### Fields -/

abbrev fOpcode (w : Word32) : BitVec 7 := w.extractLsb' 0 7
abbrev fRd (w : Word32) : Reg := w.extractLsb' 7 5
abbrev fFunct3 (w : Word32) : BitVec 3 := w.extractLsb' 12 3
abbrev fRs1 (w : Word32) : Reg := w.extractLsb' 15 5
abbrev fRs2 (w : Word32) : Reg := w.extractLsb' 20 5
abbrev fFunct7 (w : Word32) : BitVec 7 := w.extractLsb' 25 7
abbrev fImm12 (w : Word32) : BitVec 12 := w.extractLsb' 20 12

/-- The engine with a code (R220). -/
def Engine.ofCode (c : BitVec 2) : Engine :=
  if c = 0#2 then .mx else if c = 1#2 then .vx else if c = 2#2 then .cx else .sx

/-- The code of an engine (R220). -/
def Engine.code : Engine → BitVec 2
  | .mx => 0#2 | .vx => 1#2 | .cx => 2#2 | .sx => 3#2

/-- Accept an instruction if it is well formed as a scalar form; the legality of sub-fields is R220's and R222's. -/
def acceptScalar (zeros : Bool) (i : Instr) : Except DecodeError Instr :=
  if zeros && i.scalarOk then .ok i else .error .badField

/-! ### Lomtal scalar forms (R221, R223, R224) -/

/-- A 5-bit field that holds a 4-bit handle or mask: its top bit is zero (R220). -/
abbrev low4 (r : Reg) : BitVec 4 := r.extractLsb' 0 4
abbrev low3 (r : Reg) : BitVec 3 := r.extractLsb' 0 3
abbrev low2 (r : Reg) : BitVec 2 := r.extractLsb' 0 2
abbrev top4Zero (r : Reg) : Bool := r.extractLsb' 4 1 = 0#1
abbrev top3Zero (r : Reg) : Bool := r.extractLsb' 3 2 = 0#2
abbrev top2Zero (r : Reg) : Bool := r.extractLsb' 2 3 = 0#3

def decodeCustom0 (w : Word32) : Except DecodeError Instr :=
  let d := fRd w; let a := fRs1 w; let b := fRs2 w; let f7 := fFunct7 w
  match fFunct3 w with
  | 0b000#3 =>
    if f7 = 0#7 then acceptScalar (b = 0#5 && top4Zero d) (.xlat a (low4 d))
    else if f7 = 1#7 then acceptScalar (b = 0#5 && top4Zero d) (.xlatW a (low4 d))
    else if f7 = 2#7 then acceptScalar (b = 0#5 && a = 0#5 && top4Zero d) (.hinv (low4 d))
    else if f7 = 3#7 then acceptScalar (b = 0#5 && top4Zero a) (.hstat d (low4 a))
    else .error .unlistedForm
  | 0b001#3 =>
    if f7 = 0#7 then acceptScalar (b = 0#5 && top3Zero d) (.qpush (low3 d) a)
    else if f7 = 1#7 then acceptScalar (b = 0#5 && top3Zero a) (.qpop d (low3 a))
    else if f7 = 2#7 then acceptScalar (b = 0#5 && top3Zero a) (.qpeek d (low3 a))
    else if f7 = 3#7 then acceptScalar (b = 0#5 && top3Zero a) (.qlvl d (low3 a))
    else if f7 = 4#7 then acceptScalar (b = 0#5 && top2Zero d) (.qwm (Engine.ofCode (low2 d)) a)
    else .error .unlistedForm
  | 0b010#3 =>
    if f7 = 0#7 then acceptScalar (b = 0#5 && d = 0#5) (.waitt a)
    else if f7 = 1#7 then acceptScalar (b = 0#5) (.prm d a)
    else .error .unlistedForm
  | 0b011#3 =>
    if f7.extractLsb' 3 4 = 0#4 then acceptScalar (top4Zero b) (.ldh d (low4 b) a (f7.extractLsb' 0 3))
    else .error .unlistedForm
  | 0b100#3 =>
    if f7.extractLsb' 3 4 = 0#4 then acceptScalar (top4Zero d) (.sdh b (low4 d) a (f7.extractLsb' 0 3))
    else .error .unlistedForm
  | _ => .error .unlistedForm

def decodeCustom1 (w : Word32) : Except DecodeError Instr :=
  let d := fRd w; let a := fRs1 w; let b := fRs2 w; let f7 := fFunct7 w
  match fFunct3 w with
  | 0b000#3 =>
    acceptScalar (w.extractLsb' 18 2 = 0#2 && d = 0#5)
      (.ecall (Engine.ofCode (w.extractLsb' 15 2)) (w.extractLsb' 17 1 ++ w.extractLsb' 20 12))
  | 0b001#3 =>
    if f7 = 0#7 then acceptScalar (b = 0#5 && top4Zero d) (.epush (Engine.ofCode (low2 d)) a (d.extractLsb' 2 2))
    else if f7 = 1#7 then acceptScalar (b = 0#5 && top2Zero d) (.emark (Engine.ofCode (low2 d)) a)
    else if f7 = 2#7 then acceptScalar (top4Zero b && top3Zero d) (.rdvs (low3 d) (low4 b) a)
    else if f7 = 3#7 then acceptScalar (b = 0#5 && a = 0#5 && top3Zero d) (.rdvw (low3 d))
    else .error .unlistedForm
  | 0b010#3 => acceptScalar (a = 0#5 && d = 0#5) (.safept (fImm12 w))
  | 0b011#3 =>
    if f7 = 0#7 then acceptScalar (b = 0#5) (.nsub d a)
    else if f7 = 1#7 then acceptScalar (b = 0#5 && a = 0#5 && d = 0#5) .tdone
    else if f7 = 2#7 then acceptScalar (b = 0#5 && d = 0#5) (.gang a)
    else if f7 = 3#7 then acceptScalar (b = 0#5 && a = 0#5 && d = 0#5) .ungang
    else if f7 = 4#7 then acceptScalar (d = 0#5) (.csyncSet a b)
    else if f7 = 5#7 then acceptScalar (b = 0#5 && d = 0#5) (.csyncW a)
    else if f7 = 6#7 then acceptScalar (b = 0#5 && a = 0#5 && d = 0#5) .phsw
    else .error .unlistedForm
  | _ => .error .unlistedForm

def decodeCustom2 (w : Word32) : Except DecodeError Instr :=
  let d := fRd w; let a := fRs1 w; let b := fRs2 w; let f7 := fFunct7 w
  match fFunct3 w with
  | 0b000#3 =>
    if f7 = 0#7 then acceptScalar (b = 0#5) (.dopen d a)
    else if f7 = 1#7 then acceptScalar true (.dopenW d a b)
    else if f7 = 2#7 then acceptScalar (b = 0#5 && d = 0#5) (.dclose a)
    else if f7 = 3#7 then acceptScalar true (.dbind d a b)
    else if f7 = 4#7 then acceptScalar (b = 0#5) (.dunbind d a)
    else if f7 = 5#7 then acceptScalar (b = 0#5) (.dbset d a)
    else if f7 = 6#7 then acceptScalar (b = 0#5) (.dqry d a)
    else .error .unlistedForm
  | 0b001#3 =>
    if f7 = 0#7 then acceptScalar (top3Zero b && a = 0#5 && d = 0#5) (.pbar (low3 b))
    else if f7 = 1#7 then acceptScalar (b = 0#5 && d = 0#5) (.pwb a)
    else if f7 = 2#7 then acceptScalar (top3Zero b && a = 0#5 && d = 0#5) (.fenceS (low3 b))
    else .error .unlistedForm
  | _ => .error .unlistedForm

def decodeCustom3 (w : Word32) : Except DecodeError Instr :=
  let d := fRd w; let a := fRs1 w; let b := fRs2 w; let f7 := fFunct7 w
  match fFunct3 w with
  | 0b000#3 =>
    if f7 = 0#7 then acceptScalar (b = 0#5) (.vcfp d a)
    else if f7 = 1#7 then acceptScalar (b = 0#5 && d = 0#5) (.vcrep a)
    else if f7 = 2#7 then acceptScalar (b = 0#5 && d = 0#5) (.vcsync a)
    else if f7 = 4#7 then acceptScalar (b = 0#5) (.fqpop d a)
    else if f7 = 5#7 then acceptScalar (d = 0#5) (.fqrep a b)
    else if f7 = 8#7 then acceptScalar (b = 0#5) (.ergr d a)
    else .error .unlistedForm
  | _ => .error .unlistedForm

/-! ### Standard instructions (R225) -/

def decodeLoad (w : Word32) : Except DecodeError Instr :=
  let k : Option LoadKind :=
    match fFunct3 w with
    | 0#3 => some .lb | 1#3 => some .lh | 2#3 => some .lw | 3#3 => some .ld
    | 4#3 => some .lbu | 5#3 => some .lhu | 6#3 => some .lwu | _ => none
  match k with
  | some k => .ok (.load k (fRd w) (fRs1 w) (fImm12 w))
  | none => .error .unlistedStandard

def decodeStore (w : Word32) : Except DecodeError Instr :=
  let k : Option StoreKind :=
    match fFunct3 w with
    | 0#3 => some .sb | 1#3 => some .sh | 2#3 => some .sw | 3#3 => some .sd | _ => none
  match k with
  | some k => .ok (.store k (fRs2 w) (fRs1 w) (fFunct7 w ++ fRd w))
  | none => .error .unlistedStandard

def AmoOp.ofFunct5 (f : BitVec 5) : Option AmoOp :=
  match f with
  | 0b00001#5 => some .swap | 0b00000#5 => some .add | 0b00100#5 => some .xor | 0b01100#5 => some .and
  | 0b01000#5 => some .or | 0b10000#5 => some .min | 0b10100#5 => some .max | 0b11000#5 => some .minu
  | 0b11100#5 => some .maxu | _ => none

def AmoOp.funct5 : AmoOp → BitVec 5
  | .swap => 0b00001#5 | .add => 0b00000#5 | .xor => 0b00100#5 | .and => 0b01100#5 | .or => 0b01000#5
  | .min => 0b10000#5 | .max => 0b10100#5 | .minu => 0b11000#5 | .maxu => 0b11100#5

def decodeAmo (w : Word32) : Except DecodeError Instr :=
  let f5 : BitVec 5 := w.extractLsb' 27 5
  let aq : Bool := w.extractLsb' 26 1 = 1#1
  let rl : Bool := w.extractLsb' 25 1 = 1#1
  if fFunct3 w = 2#3 ∨ fFunct3 w = 3#3 then
    let dbl : Bool := fFunct3 w = 3#3
    if f5 = 0b00010#5 then
      if fRs2 w = 0#5 then .ok (.lr dbl aq rl (fRd w) (fRs1 w)) else .error .unlistedStandard
    else if f5 = 0b00011#5 then .ok (.sc dbl aq rl (fRd w) (fRs1 w) (fRs2 w))
    else match AmoOp.ofFunct5 f5 with
      | some op => .ok (.amo op dbl aq rl (fRd w) (fRs1 w) (fRs2 w))
      | none => .error .unlistedStandard
  else .error .unlistedStandard

def decodeOpImm (w : Word32) : Except DecodeError Instr :=
  let d := fRd w; let a := fRs1 w; let imm := fImm12 w
  let f6 : BitVec 6 := w.extractLsb' 26 6
  let sh : BitVec 6 := w.extractLsb' 20 6
  match fFunct3 w with
  | 0#3 => .ok (.intRI .addi d a imm)
  | 2#3 => .ok (.intRI .slti d a imm)
  | 3#3 => .ok (.intRI .sltiu d a imm)
  | 4#3 => .ok (.intRI .xori d a imm)
  | 6#3 => .ok (.intRI .ori d a imm)
  | 7#3 => .ok (.intRI .andi d a imm)
  | 1#3 =>
    if f6 = 0#6 then .ok (.intShift .slli d a sh)
    else if imm = 0x600#12 then .ok (.intUnary .clz d a)
    else if imm = 0x601#12 then .ok (.intUnary .ctz d a)
    else if imm = 0x602#12 then .ok (.intUnary .cpop d a)
    else if imm = 0x604#12 then .ok (.intUnary .sextB d a)
    else if imm = 0x605#12 then .ok (.intUnary .sextH d a)
    else .error .unlistedStandard
  | _ =>
    if f6 = 0#6 then .ok (.intShift .srli d a sh)
    else if f6 = 0b010000#6 then .ok (.intShift .srai d a sh)
    else if f6 = 0b011000#6 then .ok (.intShift .rori d a sh)
    else if imm = 0x287#12 then .ok (.intUnary .orcB d a)
    else if imm = 0x6B8#12 then .ok (.intUnary .rev8 d a)
    else .error .unlistedStandard

def decodeOpImm32 (w : Word32) : Except DecodeError Instr :=
  let d := fRd w; let a := fRs1 w; let imm := fImm12 w
  let f6 : BitVec 6 := w.extractLsb' 26 6
  let sh : BitVec 6 := w.extractLsb' 20 6
  let sh5 : BitVec 6 := 0#1 ++ fRs2 w
  match fFunct3 w with
  | 0#3 => .ok (.intRI .addiw d a imm)
  | 1#3 =>
    if fFunct7 w = 0#7 then .ok (.intShift .slliw d a sh5)
    else if f6 = 0b000010#6 then .ok (.intShift .slliUw d a sh)
    else if imm = 0x600#12 then .ok (.intUnary .clzw d a)
    else if imm = 0x601#12 then .ok (.intUnary .ctzw d a)
    else if imm = 0x602#12 then .ok (.intUnary .cpopw d a)
    else .error .unlistedStandard
  | 5#3 =>
    if fFunct7 w = 0#7 then .ok (.intShift .srliw d a sh5)
    else if fFunct7 w = 0b0100000#7 then .ok (.intShift .sraiw d a sh5)
    else if fFunct7 w = 0b0110000#7 then .ok (.intShift .roriw d a sh5)
    else .error .unlistedStandard
  | _ => .error .unlistedStandard

/-- The funct7, funct3 and opcode (OP, or OP-32 when the flag is set) of a register-register operation. -/
def IntRR.code : IntRR → BitVec 7 × BitVec 3 × Bool
  | .add => (0b0000000#7, 0#3, false) | .sub => (0b0100000#7, 0#3, false) | .sll => (0b0000000#7, 1#3, false)
  | .slt => (0b0000000#7, 2#3, false) | .sltu => (0b0000000#7, 3#3, false) | .xor => (0b0000000#7, 4#3, false)
  | .srl => (0b0000000#7, 5#3, false) | .sra => (0b0100000#7, 5#3, false) | .or => (0b0000000#7, 6#3, false)
  | .and => (0b0000000#7, 7#3, false)
  | .addw => (0b0000000#7, 0#3, true) | .subw => (0b0100000#7, 0#3, true) | .sllw => (0b0000000#7, 1#3, true)
  | .srlw => (0b0000000#7, 5#3, true) | .sraw => (0b0100000#7, 5#3, true)
  | .mul => (0b0000001#7, 0#3, false) | .mulh => (0b0000001#7, 1#3, false) | .mulhsu => (0b0000001#7, 2#3, false)
  | .mulhu => (0b0000001#7, 3#3, false) | .div => (0b0000001#7, 4#3, false) | .divu => (0b0000001#7, 5#3, false)
  | .rem => (0b0000001#7, 6#3, false) | .remu => (0b0000001#7, 7#3, false)
  | .mulw => (0b0000001#7, 0#3, true) | .divw => (0b0000001#7, 4#3, true) | .divuw => (0b0000001#7, 5#3, true)
  | .remw => (0b0000001#7, 6#3, true) | .remuw => (0b0000001#7, 7#3, true)
  | .sh1add => (0b0010000#7, 2#3, false) | .sh2add => (0b0010000#7, 4#3, false) | .sh3add => (0b0010000#7, 6#3, false)
  | .addUw => (0b0000100#7, 0#3, true) | .sh1addUw => (0b0010000#7, 2#3, true) | .sh2addUw => (0b0010000#7, 4#3, true)
  | .sh3addUw => (0b0010000#7, 6#3, true)
  | .andn => (0b0100000#7, 7#3, false) | .orn => (0b0100000#7, 6#3, false) | .xnor => (0b0100000#7, 4#3, false)
  | .max => (0b0000101#7, 6#3, false) | .maxu => (0b0000101#7, 7#3, false) | .min => (0b0000101#7, 4#3, false)
  | .minu => (0b0000101#7, 5#3, false)
  | .rol => (0b0110000#7, 1#3, false) | .ror => (0b0110000#7, 5#3, false)
  | .rolw => (0b0110000#7, 1#3, true) | .rorw => (0b0110000#7, 5#3, true)
  | .czeroEqz => (0b0000111#7, 5#3, false) | .czeroNez => (0b0000111#7, 7#3, false)

/-- Every register-register operation, for the search of the decoder. -/
def IntRR.all : List IntRR :=
  [.add, .sub, .sll, .slt, .sltu, .xor, .srl, .sra, .or, .and, .addw, .subw, .sllw, .srlw, .sraw] ++
  [.mul, .mulh, .mulhsu, .mulhu, .div, .divu, .rem, .remu, .mulw, .divw, .divuw, .remw, .remuw] ++
  [.sh1add, .sh2add, .sh3add, .addUw, .sh1addUw, .sh2addUw, .sh3addUw] ++
  [.andn, .orn, .xnor, .max, .maxu, .min, .minu, .rol, .ror, .rolw, .rorw, .czeroEqz, .czeroNez]

/-- The operation with a code: the codes are pairwise different. -/
def IntRR.ofCode (c : BitVec 7 × BitVec 3 × Bool) : Option IntRR := IntRR.all.find? (fun op => op.code = c)

def decodeOp (w : Word32) (w32 : Bool) : Except DecodeError Instr :=
  if w32 && fFunct7 w = 0b0000100#7 && fFunct3 w = 4#3 && fRs2 w = 0#5 then .ok (.intUnary .zextH (fRd w) (fRs1 w))
  else match IntRR.ofCode (fFunct7 w, fFunct3 w, w32) with
    | some op => .ok (.intRR op (fRd w) (fRs1 w) (fRs2 w))
    | none => .error .unlistedStandard

def BranchCond.ofFunct3 (f : BitVec 3) : Option BranchCond :=
  match f with
  | 0#3 => some .beq | 1#3 => some .bne | 4#3 => some .blt | 5#3 => some .bge | 6#3 => some .bltu | 7#3 => some .bgeu
  | _ => none

def BranchCond.funct3 : BranchCond → BitVec 3
  | .beq => 0#3 | .bne => 1#3 | .blt => 4#3 | .bge => 5#3 | .bltu => 6#3 | .bgeu => 7#3

def decodeSystem (w : Word32) : Except DecodeError Instr :=
  let csr := fImm12 w; let d := fRd w; let a := fRs1 w
  match fFunct3 w with
  | 0#3 =>
    if d = 0#5 then
      if csr = 0x000#12 ∧ a = 0#5 then .ok .standardEcall
      else if csr = 0x001#12 ∧ a = 0#5 then .ok .ebreak
      else if csr = 0x102#12 ∧ a = 0#5 then .ok .sret
      else if csr = 0x105#12 ∧ a = 0#5 then .ok .wfi
      else if fFunct7 w = 0b0001001#7 then .ok (.sfenceVma a (fRs2 w))
      else .error .unlistedStandard
    else .error .unlistedStandard
  | 1#3 => .ok (.csrAccess .rw false csr d a)
  | 2#3 => .ok (.csrAccess .rs false csr d a)
  | 3#3 => .ok (.csrAccess .rc false csr d a)
  | 5#3 => .ok (.csrAccess .rw true csr d a)
  | 6#3 => .ok (.csrAccess .rs true csr d a)
  | 7#3 => .ok (.csrAccess .rc true csr d a)
  | _ => .error .unlistedStandard

def decodeMiscMem (w : Word32) : Except DecodeError Instr :=
  let d := fRd w; let a := fRs1 w
  let fm : BitVec 4 := w.extractLsb' 28 4
  let pre : BitVec 4 := w.extractLsb' 24 4
  let suc : BitVec 4 := w.extractLsb' 20 4
  match fFunct3 w with
  | 0#3 => if isTsoFence fm pre suc then .ok (.fenceTso a d) else .ok (.fence fm pre suc a d)
  | 1#3 => .ok (.fenceI (fImm12 w) a d)
  | _ => .error .unlistedStandard

/-- A 32-bit control-core word (R219 to R225). -/
def decode32 (w : Word32) : Except DecodeError Instr :=
  match fOpcode w with
  | 0b0001011#7 => decodeCustom0 w
  | 0b0101011#7 => decodeCustom1 w
  | 0b1011011#7 => decodeCustom2 w
  | 0b1111011#7 => decodeCustom3 w
  | 0b0000011#7 => decodeLoad w
  | 0b0100011#7 => decodeStore w
  | 0b0101111#7 => decodeAmo w
  | 0b0010011#7 => decodeOpImm w
  | 0b0011011#7 => decodeOpImm32 w
  | 0b0110011#7 => decodeOp w false
  | 0b0111011#7 => decodeOp w true
  | 0b0110111#7 => .ok (.lui (fRd w) (w.extractLsb' 12 20))
  | 0b0010111#7 => .ok (.auipc (fRd w) (w.extractLsb' 12 20))
  | 0b1101111#7 =>
    .ok (.jal (fRd w) (w.extractLsb' 31 1 ++ w.extractLsb' 12 8 ++ w.extractLsb' 20 1 ++ w.extractLsb' 21 10))
  | 0b1100111#7 => if fFunct3 w = 0#3 then .ok (.jalr (fRd w) (fRs1 w) (fImm12 w)) else .error .unlistedStandard
  | 0b1100011#7 =>
    match BranchCond.ofFunct3 (fFunct3 w) with
    | some k =>
      .ok (.branch k (fRs1 w) (fRs2 w)
        (w.extractLsb' 31 1 ++ w.extractLsb' 7 1 ++ w.extractLsb' 25 6 ++ w.extractLsb' 8 4))
    | none => .error .unlistedStandard
  | 0b1110011#7 => decodeSystem w
  | 0b0001111#7 => decodeMiscMem w
  | _ => .error .unlistedStandard

/-! ### Compressed instructions (R225): each is a 32-bit instruction in 16 bits -/

/-- x8 to x15, from a 3-bit field. -/
abbrev creg (f : BitVec 3) : Reg := 0b01#2 ++ f

def decodeC0 (h : Half) : Except DecodeError Instr :=
  let d := creg (h.extractLsb' 2 3)
  let a := creg (h.extractLsb' 7 3)
  let immW : BitVec 12 := 0#5 ++ h.extractLsb' 5 1 ++ h.extractLsb' 10 3 ++ h.extractLsb' 6 1 ++ 0#2
  let immD : BitVec 12 := 0#4 ++ h.extractLsb' 5 2 ++ h.extractLsb' 10 3 ++ 0#3
  match h.extractLsb' 13 3 with
  | 0b000#3 =>
    let imm : BitVec 12 :=
      0#2 ++ h.extractLsb' 7 4 ++ h.extractLsb' 11 2 ++ h.extractLsb' 5 1 ++ h.extractLsb' 6 1 ++ 0#2
    if imm = 0#12 then .error .reservedCompressed else .ok (.intRI .addi d 2#5 imm)
  | 0b010#3 => .ok (.load .lw d a immW)
  | 0b011#3 => .ok (.load .ld d a immD)
  | 0b110#3 => .ok (.store .sw d a immW)
  | 0b111#3 => .ok (.store .sd d a immD)
  | _ => .error .reservedCompressed

def decodeC1 (h : Half) : Except DecodeError Instr :=
  let d : Reg := h.extractLsb' 7 5
  let imm6 : BitVec 6 := h.extractLsb' 12 1 ++ h.extractLsb' 2 5
  let dc := creg (h.extractLsb' 7 3)
  let bc := creg (h.extractLsb' 2 3)
  let joff : BitVec 11 :=
    h.extractLsb' 12 1 ++ h.extractLsb' 8 1 ++ h.extractLsb' 9 2 ++ h.extractLsb' 6 1 ++ h.extractLsb' 7 1 ++
    h.extractLsb' 2 1 ++ h.extractLsb' 11 1 ++ h.extractLsb' 3 3
  let boff : BitVec 8 :=
    h.extractLsb' 12 1 ++ h.extractLsb' 5 2 ++ h.extractLsb' 2 1 ++ h.extractLsb' 10 2 ++ h.extractLsb' 3 2
  match h.extractLsb' 13 3 with
  | 0b000#3 => .ok (.intRI .addi d d (imm6.signExtend 12))
  | 0b001#3 => if d = 0#5 then .error .reservedCompressed else .ok (.intRI .addiw d d (imm6.signExtend 12))
  | 0b010#3 => .ok (.intRI .addi d 0#5 (imm6.signExtend 12))
  | 0b011#3 =>
    if d = 2#5 then
      let imm : BitVec 10 :=
        h.extractLsb' 12 1 ++ h.extractLsb' 3 2 ++ h.extractLsb' 5 1 ++ h.extractLsb' 2 1 ++ h.extractLsb' 6 1 ++ 0#4
      if imm = 0#10 then .error .reservedCompressed else .ok (.intRI .addi 2#5 2#5 (imm.signExtend 12))
    else if imm6 = 0#6 then .error .reservedCompressed
    else .ok (.lui d (imm6.signExtend 20))
  | 0b100#3 =>
    match h.extractLsb' 10 2 with
    | 0b00#2 => .ok (.intShift .srli dc dc imm6)
    | 0b01#2 => .ok (.intShift .srai dc dc imm6)
    | 0b10#2 => .ok (.intRI .andi dc dc (imm6.signExtend 12))
    | _ =>
      if h.extractLsb' 12 1 = 0#1 then
        match h.extractLsb' 5 2 with
        | 0b00#2 => .ok (.intRR .sub dc dc bc)
        | 0b01#2 => .ok (.intRR .xor dc dc bc)
        | 0b10#2 => .ok (.intRR .or dc dc bc)
        | _ => .ok (.intRR .and dc dc bc)
      else
        match h.extractLsb' 5 2 with
        | 0b00#2 => .ok (.intRR .subw dc dc bc)
        | 0b01#2 => .ok (.intRR .addw dc dc bc)
        | _ => .error .reservedCompressed
  | 0b101#3 => .ok (.jal 0#5 (joff.signExtend 20))
  | 0b110#3 => .ok (.branch .beq dc 0#5 (boff.signExtend 12))
  | _ => .ok (.branch .bne dc 0#5 (boff.signExtend 12))

def decodeC2 (h : Half) : Except DecodeError Instr :=
  let d : Reg := h.extractLsb' 7 5
  let b : Reg := h.extractLsb' 2 5
  let sh : BitVec 6 := h.extractLsb' 12 1 ++ h.extractLsb' 2 5
  match h.extractLsb' 13 3 with
  | 0b000#3 => .ok (.intShift .slli d d sh)
  | 0b010#3 =>
    if d = 0#5 then .error .reservedCompressed
    else .ok (.load .lw d 2#5 (0#4 ++ h.extractLsb' 2 2 ++ h.extractLsb' 12 1 ++ h.extractLsb' 4 3 ++ 0#2))
  | 0b011#3 =>
    if d = 0#5 then .error .reservedCompressed
    else .ok (.load .ld d 2#5 (0#3 ++ h.extractLsb' 2 3 ++ h.extractLsb' 12 1 ++ h.extractLsb' 5 2 ++ 0#3))
  | 0b100#3 =>
    if h.extractLsb' 12 1 = 0#1 then
      if b = 0#5 then
        if d = 0#5 then .error .reservedCompressed else .ok (.jalr 0#5 d 0#12)
      else .ok (.intRR .add d 0#5 b)
    else if b = 0#5 then
      if d = 0#5 then .ok .ebreak else .ok (.jalr 1#5 d 0#12)
    else .ok (.intRR .add d d b)
  | 0b110#3 => .ok (.store .sw b 2#5 (0#4 ++ h.extractLsb' 7 2 ++ h.extractLsb' 9 4 ++ 0#2))
  | 0b111#3 => .ok (.store .sd b 2#5 (0#3 ++ h.extractLsb' 7 3 ++ h.extractLsb' 10 3 ++ 0#3))
  | _ => .error .reservedCompressed

/-- A compressed control-core instruction (R225, extension C). -/
def decode16 (h : Half) : Except DecodeError Instr :=
  match h.extractLsb' 0 2 with
  | 0b00#2 => decodeC0 h
  | 0b01#2 => decodeC1 h
  | _ => decodeC2 h

/-- The instruction at the head of a byte list, with its length in bytes (R219, R225; little-endian). -/
def decodeScalar (bs : List Byte) : Except DecodeError (Instr × Nat) :=
  match bs with
  | b0 :: b1 :: rest =>
    if b0.extractLsb' 0 2 ≠ 0b11#2 then (decode16 (b1 ++ b0)).map (·, 2)
    else if b0.extractLsb' 2 3 = 0b111#3 then .error .longEncoding
    else match rest with
      | b2 :: b3 :: _ => (decode32 (b3 ++ b2 ++ b1 ++ b0)).map (·, 4)
      | _ => .error .truncated
  | _ => .error .truncated

/-! ### Engine words (R227 to R238) -/

/-- Accept an operation word if its modifier is in range for this engine (R229). -/
def acceptWord (e : Engine) (zeros : Bool) (i : Instr) : Except DecodeError Instr :=
  if zeros && i.wordOk e then .ok i else .error .badModifier

/-- The common words, opcodes 0 to 19 (R230). -/
def decodeCommon (e : Engine) (op : Nat) (m : BitVec 9) : Except DecodeError Instr :=
  let l : BitVec 2 := m.extractLsb' 0 2
  match op with
  | 1 => acceptWord e (m = 0#9) .lix
  | 2 => acceptWord e (m = 0#9) .dup
  | 3 => acceptWord e (m = 0#9) .drop
  | 4 => acceptWord e (m = 0#9) .swap
  | 5 => if m = 1#9 then acceptWord e true .rotD else acceptWord e (m = 0#9) .rot
  | 6 => acceptWord e (m.extractLsb' 2 7 = 0#7) (.loop l)
  | 7 => acceptWord e (m.extractLsb' 2 7 = 0#7) (.endl l)
  | 8 => acceptWord e (m.extractLsb' 4 5 = 0#5) (.lset (m.extractLsb' 2 2) l)
  | 9 => acceptWord e (m.extractLsb' 4 5 = 0#5) (.lget (m.extractLsb' 2 2) l)
  | 10 => acceptWord e (m.extractLsb' 2 7 = 0#7) (.tokw (Engine.ofCode l))
  | 11 => acceptWord e (m.extractLsb' 2 7 = 0#7) (.tokr (Engine.ofCode l))
  | 12 => acceptWord e (m = 0#9) .mark
  | 13 => acceptWord e (m = 0#9) .call
  | 14 => acceptWord e (m = 0#9) .ret
  | 15 => acceptWord e (m = 0#9) .nop
  | 16 => acceptWord e (m.extractLsb' 4 5 = 0#5) (.fsel (m.extractLsb' 0 4))
  | 17 => acceptWord e (m.extractLsb' 3 6 = 0#6) (.qin (m.extractLsb' 0 3))
  | 18 => acceptWord e (m.extractLsb' 3 6 = 0#6) (.qout (m.extractLsb' 0 3))
  | _ => .error .unassignedOpcode

/-- The copy words, opcodes 20 to 30 of cx (R231, R232). -/
def decodeCopy (op : Nat) (m : BitVec 9) : Except DecodeError Instr :=
  let p : BitVec 3 := m.extractLsb' 6 3
  let s : BitVec 2 := m.extractLsb' 4 2
  let d : BitVec 2 := m.extractLsb' 2 2
  let g : BitVec 2 := m.extractLsb' 0 2
  match op with
  | 20 => acceptWord .cx true (.cpy p s d g)
  | 21 => acceptWord .cx true (.cpy2 p s d g)
  | 22 => acceptWord .cx (s = 0#2 && g = 0#2) (.cpyz p d)
  | 23 => acceptWord .cx true (.gath p s d g)
  | 24 => acceptWord .cx (g = 0#2) (.scat p s d)
  | 25 => acceptWord .cx (d = 0#2 && g = 0#2) (.pfch p s)
  | 26 => acceptWord .cx (g = 0#2) (.cpyg p s d)
  | 27 => acceptWord .cx (g = 0#2) (.cpyd p s d)
  | 28 => acceptWord .cx (s = 0#2 && g = 0#2) (.fill p d)
  | 29 => acceptWord .cx (d = 3#2) (.rfeed p s g)
  | 30 => acceptWord .cx (m = 0#9) .dln
  | _ => .error .unassignedOpcode

/-- The select words, opcodes 20 to 24 of sx (R233). -/
def decodeSelect (op : Nat) (m : BitVec 9) : Except DecodeError Instr :=
  let f : BitVec 4 := m.extractLsb' 0 4
  let d : BitVec 2 := m.extractLsb' 4 2
  let hi : Bool := m.extractLsb' 6 3 = 0#3
  match op with
  | 20 => acceptWord .sx (hi && d = 0#2) (.skey f)
  | 21 => acceptWord .sx hi (.hist d f)
  | 22 => acceptWord .sx (hi && d = 0#2) (.selk f)
  | 23 => acceptWord .sx (hi && d = 0#2) (.selp f)
  | 24 => acceptWord .sx (hi && d = 0#2) (.cmpk f)
  | _ => .error .unassignedOpcode

/-- The vector words, opcodes 20 to 61 of vx (R234 to R236). -/
def decodeVector (op : Nat) (m : BitVec 9) : Except DecodeError Instr :=
  let g : BitVec 3 := m.extractLsb' 6 3
  let q : Bool := m.extractLsb' 5 1 = 1#1
  let s : BitVec 2 := m.extractLsb' 3 2
  let v : BitVec 3 := m.extractLsb' 0 3
  let z : Bool := v = 0#3
  let kd : BitVec 4 := m.extractLsb' 4 4
  let ks : BitVec 4 := m.extractLsb' 0 4
  let k0 : Bool := m.extractLsb' 8 1 = 0#1
  let k1 : Bool := k0 && ks = 0#4
  match op with
  | 20 => acceptWord .vx z (.vadd g q s)
  | 21 => acceptWord .vx z (.vsub g q s)
  | 22 => acceptWord .vx z (.vmul g q s)
  | 23 => acceptWord .vx z (.vfma g q s)
  | 24 => acceptWord .vx z (.vmax g q s)
  | 25 => acceptWord .vx z (.vmin g q s)
  | 26 => acceptWord .vx z (.vabs g q s)
  | 27 => acceptWord .vx z (.vneg g q s)
  | 28 => acceptWord .vx true (.vcvt g q s v)
  | 29 => acceptWord .vx z (.vexp g q s)
  | 30 => acceptWord .vx z (.vlog g q s)
  | 31 => acceptWord .vx z (.vrcp g q s)
  | 32 => acceptWord .vx z (.vrsq g q s)
  | 33 => acceptWord .vx true (.vcmp g q s v)
  | 34 => acceptWord .vx z (.vsel g q s)
  | 35 => acceptWord .vx true (.vred g q s v)
  | 36 => acceptWord .vx true (.vscan g q s v)
  | 37 => acceptWord .vx z (.vbsr g q s)
  | 38 => acceptWord .vx z (.vperm g q s)
  | 39 => acceptWord .vx z (.vand g q s)
  | 40 => acceptWord .vx z (.vor g q s)
  | 41 => acceptWord .vx z (.vxor g q s)
  | 42 => acceptWord .vx z (.vshl g q s)
  | 43 => acceptWord .vx true (.vshr g q s v)
  | 44 => acceptWord .vx z (.vmov g q s)
  | 45 => acceptWord .vx z (.vbc g q s)
  | 46 => acceptWord .vx z (.vclamp g q s)
  | 47 => acceptWord .vx z (.vstub g q s)
  | 48 => acceptWord .vx z (.vsoft g q s)
  | 49 => acceptWord .vx (m.extractLsb' 5 4 = 0#4) (.dset (m.extractLsb' 0 5))
  | 50 => acceptWord .vx (m.extractLsb' 5 4 = 0#4) (.dget (m.extractLsb' 0 5))
  | 51 => acceptWord .vx (m.extractLsb' 3 6 = 0#6) (.pgs v)
  | 52 => acceptWord .vx k1 (.kld kd)
  | 53 => acceptWord .vx k1 (.kst kd)
  | 54 => acceptWord .vx k0 (.kor kd ks)
  | 55 => acceptWord .vx k0 (.kand kd ks)
  | 56 => acceptWord .vx k0 (.kxor kd ks)
  | 57 => acceptWord .vx k0 (.knot kd ks)
  | 58 =>
    if ks = 0#4 then acceptWord .vx k0 (.kbitTst kd)
    else if ks = 1#4 then acceptWord .vx k0 (.kbitSet kd)
    else if ks = 2#4 then acceptWord .vx k0 (.kbitClr kd)
    else .error .badModifier
  | 59 => acceptWord .vx k1 (.kpop kd)
  | 60 => acceptWord .vx k1 (.kget kd)
  | 61 => acceptWord .vx k1 (.kset kd)
  | _ => .error .unassignedOpcode

/-- The matrix words, opcodes 20 to 38 of mx (R237, R238). -/
def decodeMatrix (op : Nat) (m : BitVec 9) : Except DecodeError Instr :=
  let c : BitVec 2 := m.extractLsb' 7 2
  let b : Bool := m.extractLsb' 6 1 = 1#1
  let f : BitVec 4 := m.extractLsb' 2 4
  let l : BitVec 2 := m.extractLsb' 0 2
  let bankOnly : Bool := c = 0#2 && m.extractLsb' 0 6 = 0#6
  match op with
  | 20 => acceptWord .mx true (.mm 0#2 c b f l)
  | 21 => acceptWord .mx true (.mm 1#2 c b f l)
  | 22 => acceptWord .mx true (.mm 2#2 c b f l)
  | 23 => acceptWord .mx true (.mm 3#2 c b f l)
  | 24 => acceptWord .mx true (.mml 0#2 c b f l)
  | 25 => acceptWord .mx true (.mml 1#2 c b f l)
  | 26 => acceptWord .mx true (.mml 2#2 c b f l)
  | 27 => acceptWord .mx true (.mml 3#2 c b f l)
  | 28 => acceptWord .mx true (.mmm 0#2 c b f l)
  | 29 => acceptWord .mx true (.mmm 1#2 c b f l)
  | 30 => acceptWord .mx true (.mmm 2#2 c b f l)
  | 31 => acceptWord .mx true (.mmm 3#2 c b f l)
  | 32 => acceptWord .mx (m = 0#9) .mpb
  | 33 => acceptWord .mx (c = 0#2 && m.extractLsb' 4 2 = 0#2) (.acco b (m.extractLsb' 0 4))
  | 34 => acceptWord .mx bankOnly (.accz b)
  | 35 => acceptWord .mx bankOnly (.accg b)
  | 36 => acceptWord .mx (m.extractLsb' 2 7 = 0#7) (.rng l)
  | 37 => acceptWord .mx (m.extractLsb' 4 5 = 0#5) (.fte (m.extractLsb' 0 4))
  | 38 => acceptWord .mx bankOnly (.draw b)
  | _ => .error .unassignedOpcode

/-- The engine word `w` as engine `e` reads it (R227, R229). -/
def decodeWord (e : Engine) (w : Half) : Except DecodeError Instr :=
  if w.extractLsb' 15 1 = 1#1 then .ok (.literal (w.extractLsb' 0 15))
  else
    let op := (w.extractLsb' 9 6).toNat
    let m : BitVec 9 := w.extractLsb' 0 9
    if op < 20 then decodeCommon e op m
    else match e with
      | .mx => decodeMatrix op m
      | .vx => decodeVector op m
      | .cx => decodeCopy op m
      | .sx => decodeSelect op m

/-- The engines in which a word is legal, in the order in which `decodeTableWord` tries them. The word alone does not
name its engine (R227): a word that several engines read is given to the first of them. -/
def tableEngines : List Engine := [.vx, .cx, .mx, .sx]

/-- The first engine of `tableEngines` in which `w` is legal. -/
def wordEngine (w : Half) : Option Engine := tableEngines.find? (fun e => (decodeWord e w).toOption.isSome)

/-- The bytes of an instruction of 32 bits, first byte first (R219: little-endian). -/
def bytes32 (w : Word32) : List Byte :=
  [w.extractLsb' 0 8, w.extractLsb' 8 8, w.extractLsb' 16 8, w.extractLsb' 24 8]

/-- The instruction this decoder reads from a word of the opcode table: 32 bits for a control-core word, 16 for an
engine word. -/
def decodeTableWord (nbits w : Nat) : Option Instr :=
  if nbits = 32 then ((decodeScalar (bytes32 (BitVec.ofNat 32 w))).toOption).map (·.1)
  else if nbits = 16 then
    (wordEngine (BitVec.ofNat 16 w)).bind (fun e => (decodeWord e (BitVec.ofNat 16 w)).toOption)
  else none

/-! ### The encoder -/

/-- An R-type word (R219). -/
abbrev rType (f7 : BitVec 7) (b a : Reg) (f3 : BitVec 3) (d : Reg) (op : BitVec 7) : Word32 :=
  f7 ++ b ++ a ++ f3 ++ d ++ op

/-- An I-type word (R219). -/
abbrev iType (imm : BitVec 12) (a : Reg) (f3 : BitVec 3) (d : Reg) (op : BitVec 7) : Word32 :=
  imm ++ a ++ f3 ++ d ++ op

abbrev custom0 : BitVec 7 := 0b0001011#7
abbrev custom1 : BitVec 7 := 0b0101011#7
abbrev custom2 : BitVec 7 := 0b1011011#7
abbrev custom3 : BitVec 7 := 0b1111011#7

abbrev ph5 (p : BitVec 4) : Reg := 0#1 ++ p
abbrev q5 (q : BitVec 3) : Reg := 0#2 ++ q
abbrev e5 (e : Engine) : Reg := 0#3 ++ e.code

def LoadKind.funct3 : LoadKind → BitVec 3
  | .lb => 0#3 | .lh => 1#3 | .lw => 2#3 | .ld => 3#3 | .lbu => 4#3 | .lhu => 5#3 | .lwu => 6#3

def StoreKind.funct3 : StoreKind → BitVec 3
  | .sb => 0#3 | .sh => 1#3 | .sw => 2#3 | .sd => 3#3

def CsrOp.funct3 (op : CsrOp) (useImm : Bool) : BitVec 3 :=
  match op, useImm with
  | .rw, false => 1#3 | .rs, false => 2#3 | .rc, false => 3#3
  | .rw, true => 5#3 | .rs, true => 6#3 | .rc, true => 7#3

def boolBit (b : Bool) : BitVec 1 := if b then 1#1 else 0#1

def amoWord (f5 : BitVec 5) (dbl aq rl : Bool) (d a b : Reg) : Word32 :=
  f5 ++ boolBit aq ++ boolBit rl ++ b ++ a ++ (if dbl then 3#3 else 2#3) ++ d ++ 0b0101111#7

def encodeIntRI (op : IntRI) (d a : Reg) (imm : BitVec 12) : Word32 :=
  match op with
  | .addi => iType imm a 0#3 d 0b0010011#7
  | .slti => iType imm a 2#3 d 0b0010011#7
  | .sltiu => iType imm a 3#3 d 0b0010011#7
  | .xori => iType imm a 4#3 d 0b0010011#7
  | .ori => iType imm a 6#3 d 0b0010011#7
  | .andi => iType imm a 7#3 d 0b0010011#7
  | .addiw => iType imm a 0#3 d 0b0011011#7

def encodeIntShift (op : IntShift) (d a : Reg) (sh : BitVec 6) : Word32 :=
  let sh5 : Reg := sh.extractLsb' 0 5
  match op with
  | .slli => iType (0b000000#6 ++ sh) a 1#3 d 0b0010011#7
  | .srli => iType (0b000000#6 ++ sh) a 5#3 d 0b0010011#7
  | .srai => iType (0b010000#6 ++ sh) a 5#3 d 0b0010011#7
  | .rori => iType (0b011000#6 ++ sh) a 5#3 d 0b0010011#7
  | .slliUw => iType (0b000010#6 ++ sh) a 1#3 d 0b0011011#7
  | .slliw => rType 0b0000000#7 sh5 a 1#3 d 0b0011011#7
  | .srliw => rType 0b0000000#7 sh5 a 5#3 d 0b0011011#7
  | .sraiw => rType 0b0100000#7 sh5 a 5#3 d 0b0011011#7
  | .roriw => rType 0b0110000#7 sh5 a 5#3 d 0b0011011#7

def encodeIntUnary (op : IntUnary) (d a : Reg) : Word32 :=
  match op with
  | .clz => iType 0x600#12 a 1#3 d 0b0010011#7
  | .ctz => iType 0x601#12 a 1#3 d 0b0010011#7
  | .cpop => iType 0x602#12 a 1#3 d 0b0010011#7
  | .sextB => iType 0x604#12 a 1#3 d 0b0010011#7
  | .sextH => iType 0x605#12 a 1#3 d 0b0010011#7
  | .orcB => iType 0x287#12 a 5#3 d 0b0010011#7
  | .rev8 => iType 0x6B8#12 a 5#3 d 0b0010011#7
  | .clzw => iType 0x600#12 a 1#3 d 0b0011011#7
  | .ctzw => iType 0x601#12 a 1#3 d 0b0011011#7
  | .cpopw => iType 0x602#12 a 1#3 d 0b0011011#7
  | .zextH => rType 0b0000100#7 0#5 a 4#3 d 0b0111011#7

/-- The 32-bit word of a control-core instruction (R221, R225); zero, which is no instruction, for anything else. -/
def encode32 : Instr → Word32
  | .xlat a p => rType 0#7 0#5 a 0#3 (ph5 p) custom0
  | .xlatW a p => rType 1#7 0#5 a 0#3 (ph5 p) custom0
  | .hinv p => rType 2#7 0#5 0#5 0#3 (ph5 p) custom0
  | .hstat d p => rType 3#7 0#5 (ph5 p) 0#3 d custom0
  | .ldh d p a c => rType (0#4 ++ c) (ph5 p) a 3#3 d custom0
  | .sdh b p a c => rType (0#4 ++ c) b a 4#3 (ph5 p) custom0
  | .qpush q a => rType 0#7 0#5 a 1#3 (q5 q) custom0
  | .qpop d q => rType 1#7 0#5 (q5 q) 1#3 d custom0
  | .qpeek d q => rType 2#7 0#5 (q5 q) 1#3 d custom0
  | .qlvl d q => rType 3#7 0#5 (q5 q) 1#3 d custom0
  | .qwm e a => rType 4#7 0#5 a 1#3 (e5 e) custom0
  | .waitt a => rType 0#7 0#5 a 2#3 0#5 custom0
  | .prm d a => rType 1#7 0#5 a 2#3 d custom0
  | .ecall e r => r.extractLsb' 0 12 ++ 0#2 ++ r.extractLsb' 12 1 ++ e.code ++ 0#3 ++ 0#5 ++ custom1
  | .epush e a n => rType 0#7 0#5 a 1#3 (0#1 ++ n ++ e.code) custom1
  | .emark e a => rType 1#7 0#5 a 1#3 (e5 e) custom1
  | .rdvs v m a => rType 2#7 (0#1 ++ m) a 1#3 (q5 v) custom1
  | .rdvw v => rType 3#7 0#5 0#5 1#3 (q5 v) custom1
  | .safept i => iType i 0#5 2#3 0#5 custom1
  | .nsub d a => rType 0#7 0#5 a 3#3 d custom1
  | .tdone => rType 1#7 0#5 0#5 3#3 0#5 custom1
  | .gang a => rType 2#7 0#5 a 3#3 0#5 custom1
  | .ungang => rType 3#7 0#5 0#5 3#3 0#5 custom1
  | .csyncSet a b => rType 4#7 b a 3#3 0#5 custom1
  | .csyncW a => rType 5#7 0#5 a 3#3 0#5 custom1
  | .phsw => rType 6#7 0#5 0#5 3#3 0#5 custom1
  | .dopen d a => rType 0#7 0#5 a 0#3 d custom2
  | .dopenW d a b => rType 1#7 b a 0#3 d custom2
  | .dclose a => rType 2#7 0#5 a 0#3 0#5 custom2
  | .dbind d a b => rType 3#7 b a 0#3 d custom2
  | .dunbind d a => rType 4#7 0#5 a 0#3 d custom2
  | .dbset d a => rType 5#7 0#5 a 0#3 d custom2
  | .dqry d a => rType 6#7 0#5 a 0#3 d custom2
  | .pbar c => rType 0#7 (q5 c) 0#5 1#3 0#5 custom2
  | .pwb a => rType 1#7 0#5 a 1#3 0#5 custom2
  | .fenceS c => rType 2#7 (q5 c) 0#5 1#3 0#5 custom2
  | .vcfp d a => rType 0#7 0#5 a 0#3 d custom3
  | .vcrep a => rType 1#7 0#5 a 0#3 0#5 custom3
  | .vcsync a => rType 2#7 0#5 a 0#3 0#5 custom3
  | .fqpop d a => rType 4#7 0#5 a 0#3 d custom3
  | .fqrep a b => rType 5#7 b a 0#3 0#5 custom3
  | .ergr d a => rType 8#7 0#5 a 0#3 d custom3
  | .load k d a imm => iType imm a k.funct3 d 0b0000011#7
  | .store k b a imm => rType (imm.extractLsb' 5 7) b a k.funct3 (imm.extractLsb' 0 5) 0b0100011#7
  | .amo op dbl aq rl d a b => amoWord op.funct5 dbl aq rl d a b
  | .lr dbl aq rl d a => amoWord 0b00010#5 dbl aq rl d a 0#5
  | .sc dbl aq rl d a b => amoWord 0b00011#5 dbl aq rl d a b
  | .csrAccess op useImm csr d a => iType csr a (op.funct3 useImm) d 0b1110011#7
  | .standardEcall => iType 0x000#12 0#5 0#3 0#5 0b1110011#7
  | .ebreak => iType 0x001#12 0#5 0#3 0#5 0b1110011#7
  | .sret => iType 0x102#12 0#5 0#3 0#5 0b1110011#7
  | .wfi => iType 0x105#12 0#5 0#3 0#5 0b1110011#7
  | .sfenceVma a b => rType 0b0001001#7 b a 0#3 0#5 0b1110011#7
  | .fence fm pre suc a d => iType (fm ++ pre ++ suc) a 0#3 d 0b0001111#7
  | .fenceTso a d => iType 0x833#12 a 0#3 d 0b0001111#7
  | .fenceI imm a d => iType imm a 1#3 d 0b0001111#7
  | .intRR op d a b => rType op.code.1 b a op.code.2.1 d (if op.code.2.2 then 0b0111011#7 else 0b0110011#7)
  | .intRI op d a imm => encodeIntRI op d a imm
  | .intShift op d a sh => encodeIntShift op d a sh
  | .intUnary op d a => encodeIntUnary op d a
  | .lui d imm => imm ++ d ++ 0b0110111#7
  | .auipc d imm => imm ++ d ++ 0b0010111#7
  | .jal d off =>
    off.extractLsb' 19 1 ++ off.extractLsb' 0 10 ++ off.extractLsb' 10 1 ++ off.extractLsb' 11 8 ++ d ++ 0b1101111#7
  | .jalr d a imm => iType imm a 0#3 d 0b1100111#7
  | .branch k a b off =>
    off.extractLsb' 11 1 ++ off.extractLsb' 4 6 ++ b ++ a ++ k.funct3 ++ off.extractLsb' 0 4 ++ off.extractLsb' 10 1 ++
    0b1100011#7
  | _ => 0#32

/-- An operation word of an engine (R227). -/
abbrev opWord (op : BitVec 6) (m : BitVec 9) : Half := 0#1 ++ op ++ m

/-- The modifier of a class V word (R235). -/
abbrev vMod (g : BitVec 3) (q : Bool) (s : BitVec 2) (v : BitVec 3) : BitVec 9 := g ++ boolBit q ++ s ++ v

/-- The modifier of a class K word (R235). -/
abbrev kMod (d s : BitVec 4) : BitVec 9 := 0#1 ++ d ++ s

/-- The modifier of a copy word (R231). -/
abbrev cMod (p : BitVec 3) (s d g : BitVec 2) : BitVec 9 := p ++ s ++ d ++ g

/-- The modifier of a multiply word (R238). -/
abbrev mMod (c : BitVec 2) (b : Bool) (f : BitVec 4) (l : BitVec 2) : BitVec 9 := c ++ boolBit b ++ f ++ l

/-- The 16-bit word of an engine instruction (R230 to R238); zero, an illegal word, for anything else. -/
def encodeWord : Instr → Half
  | .literal v => 1#1 ++ v
  | .lix => opWord 1#6 0#9
  | .dup => opWord 2#6 0#9
  | .drop => opWord 3#6 0#9
  | .swap => opWord 4#6 0#9
  | .rot => opWord 5#6 0#9
  | .rotD => opWord 5#6 1#9
  | .loop l => opWord 6#6 (0#7 ++ l)
  | .endl l => opWord 7#6 (0#7 ++ l)
  | .lset k l => opWord 8#6 (0#5 ++ k ++ l)
  | .lget k l => opWord 9#6 (0#5 ++ k ++ l)
  | .tokw e => opWord 10#6 (0#7 ++ e.code)
  | .tokr e => opWord 11#6 (0#7 ++ e.code)
  | .mark => opWord 12#6 0#9
  | .call => opWord 13#6 0#9
  | .ret => opWord 14#6 0#9
  | .nop => opWord 15#6 0#9
  | .fsel f => opWord 16#6 (0#5 ++ f)
  | .qin q => opWord 17#6 (0#6 ++ q)
  | .qout q => opWord 18#6 (0#6 ++ q)
  | .cpy p s d g => opWord 20#6 (cMod p s d g)
  | .cpy2 p s d g => opWord 21#6 (cMod p s d g)
  | .cpyz p d => opWord 22#6 (cMod p 0#2 d 0#2)
  | .gath p s d g => opWord 23#6 (cMod p s d g)
  | .scat p s d => opWord 24#6 (cMod p s d 0#2)
  | .pfch p s => opWord 25#6 (cMod p s 0#2 0#2)
  | .cpyg p s d => opWord 26#6 (cMod p s d 0#2)
  | .cpyd p s d => opWord 27#6 (cMod p s d 0#2)
  | .fill p d => opWord 28#6 (cMod p 0#2 d 0#2)
  | .rfeed p s g => opWord 29#6 (cMod p s 3#2 g)
  | .dln => opWord 30#6 0#9
  | .skey f => opWord 20#6 (0#5 ++ f)
  | .hist d f => opWord 21#6 (0#3 ++ d ++ f)
  | .selk f => opWord 22#6 (0#5 ++ f)
  | .selp f => opWord 23#6 (0#5 ++ f)
  | .cmpk f => opWord 24#6 (0#5 ++ f)
  | .vadd g q s => opWord 20#6 (vMod g q s 0#3)
  | .vsub g q s => opWord 21#6 (vMod g q s 0#3)
  | .vmul g q s => opWord 22#6 (vMod g q s 0#3)
  | .vfma g q s => opWord 23#6 (vMod g q s 0#3)
  | .vmax g q s => opWord 24#6 (vMod g q s 0#3)
  | .vmin g q s => opWord 25#6 (vMod g q s 0#3)
  | .vabs g q s => opWord 26#6 (vMod g q s 0#3)
  | .vneg g q s => opWord 27#6 (vMod g q s 0#3)
  | .vcvt g q s v => opWord 28#6 (vMod g q s v)
  | .vexp g q s => opWord 29#6 (vMod g q s 0#3)
  | .vlog g q s => opWord 30#6 (vMod g q s 0#3)
  | .vrcp g q s => opWord 31#6 (vMod g q s 0#3)
  | .vrsq g q s => opWord 32#6 (vMod g q s 0#3)
  | .vcmp g q s v => opWord 33#6 (vMod g q s v)
  | .vsel g q s => opWord 34#6 (vMod g q s 0#3)
  | .vred g q s v => opWord 35#6 (vMod g q s v)
  | .vscan g q s v => opWord 36#6 (vMod g q s v)
  | .vbsr g q s => opWord 37#6 (vMod g q s 0#3)
  | .vperm g q s => opWord 38#6 (vMod g q s 0#3)
  | .vand g q s => opWord 39#6 (vMod g q s 0#3)
  | .vor g q s => opWord 40#6 (vMod g q s 0#3)
  | .vxor g q s => opWord 41#6 (vMod g q s 0#3)
  | .vshl g q s => opWord 42#6 (vMod g q s 0#3)
  | .vshr g q s v => opWord 43#6 (vMod g q s v)
  | .vmov g q s => opWord 44#6 (vMod g q s 0#3)
  | .vbc g q s => opWord 45#6 (vMod g q s 0#3)
  | .vclamp g q s => opWord 46#6 (vMod g q s 0#3)
  | .vstub g q s => opWord 47#6 (vMod g q s 0#3)
  | .vsoft g q s => opWord 48#6 (vMod g q s 0#3)
  | .dset n => opWord 49#6 (0#4 ++ n)
  | .dget n => opWord 50#6 (0#4 ++ n)
  | .pgs n => opWord 51#6 (0#6 ++ n)
  | .kld d => opWord 52#6 (kMod d 0#4)
  | .kst d => opWord 53#6 (kMod d 0#4)
  | .kor d s => opWord 54#6 (kMod d s)
  | .kand d s => opWord 55#6 (kMod d s)
  | .kxor d s => opWord 56#6 (kMod d s)
  | .knot d s => opWord 57#6 (kMod d s)
  | .kbitTst d => opWord 58#6 (kMod d 0#4)
  | .kbitSet d => opWord 58#6 (kMod d 1#4)
  | .kbitClr d => opWord 58#6 (kMod d 2#4)
  | .kpop d => opWord 59#6 (kMod d 0#4)
  | .kget d => opWord 60#6 (kMod d 0#4)
  | .kset d => opWord 61#6 (kMod d 0#4)
  | .mm r c b f l => opWord (5#4 ++ r) (mMod c b f l)
  | .mml r c b f l => opWord (6#4 ++ r) (mMod c b f l)
  | .mmm r c b f l => opWord (7#4 ++ r) (mMod c b f l)
  | .mpb => opWord 32#6 0#9
  | .acco b f => opWord 33#6 (0#2 ++ boolBit b ++ 0#2 ++ f)
  | .accz b => opWord 34#6 (0#2 ++ boolBit b ++ 0#6)
  | .accg b => opWord 35#6 (0#2 ++ boolBit b ++ 0#6)
  | .rng g => opWord 36#6 (0#7 ++ g)
  | .fte n => opWord 37#6 (0#5 ++ n)
  | .draw b => opWord 38#6 (0#2 ++ boolBit b ++ 0#6)
  | _ => 0#16

/-- The words of a well-formed instruction: one 32-bit word for a control-core form (`.inl`), one 16-bit word for an
engine word (`.inr`), none for a step that no word encodes. -/
def encode (i : Instr) : Option (Word32 ⊕ Half) :=
  if i.scalarOk then some (.inl (encode32 i))
  else if i.isEvent then none
  else some (.inr (encodeWord i))

end Sys2Proof
end

