-- ==== Sys2Proof/Machine/LoadStore.lean ====
section
/-! DEFINITION. Loads, stores, atomics, fences and persist barriers of the control core (R72 to R80, R125, R135 to R149). -/

namespace Sys2Proof.Machine

/-! ### Loads and stores (R125, R225) -/

def LoadBytes (w : LoadKind) : Nat :=
  match w with
  | .lb | .lbu => 1
  | .lh | .lhu => 2
  | .lw | .lwu => 4
  | .ld => 8

/-- A loaded value, extended as its instruction says. -/
def loadExtend (w : LoadKind) (v : Nat) : Word :=
  match w with
  | .lb => (BitVec.ofNat 8 v).signExtend 64
  | .lh => (BitVec.ofNat 16 v).signExtend 64
  | .lw => (BitVec.ofNat 32 v).signExtend 64
  | .ld | .lbu | .lhu | .lwu => BitVec.ofNat 64 v

def storeSize (w : StoreKind) : Nat :=
  match w with
  | .sb => 1
  | .sh => 2
  | .sw => 4
  | .sd => 8

/-- The address of a load or store. -/
def Bank.effAddr (b : Bank) (a : Reg) (imm : BitVec 12) : Nat := (b.readX a + imm.signExtend 64).toNat

def execLoad (w : LoadKind) (d a : Reg) (imm : BitVec 12) (s : State) : Host.Outcome State Fault Refusal :=
  runCc (do
    let s ← get
    let v ← loadVa (s.whoCore s.cur.bid) ((← curBank).effAddr a imm) (LoadBytes w)
    writeX d (loadExtend w v)) s

def execStore (w : StoreKind) (b a : Reg) (imm : BitVec 12) (s : State) : Host.Outcome State Fault Refusal :=
  runCc (do
    let s ← get
    storeVa (s.whoCore s.cur.bid) ((← curBank).effAddr a imm) (storeSize w)
      ((← readX b).toNat % 2 ^ (8 * storeSize w))) s

/-! ### Domain fences (R142, R146) -/

/-- Windows that a wait counts: 2 while the module is locked, 4 otherwise (R142). -/
def State.windowWait (s : State) : Nat := if s.host.tstatErr.toNat ≤ 32 then 2 else 4

/-- The last window in which a domain write of the list was issued. -/
def lastWindow (l : List (Nat × Nat)) : Nat := l.foldl (fun m d => max m d.2) 0

/-- Whether a domain write is held by link loss (R150). -/
def State.heldLine (s : State) (line : Nat) : Bool := s.dies.any (fun d => d.2.heldLines.any (·.line = line))

/-- The windows that a domain fence of a bank counts: those with which its wait began, or the present ones (R142). -/
def State.fenceWindows (s : State) (b : Bank) : Nat :=
  match b.wait with
  | .fenceS k | .fenceRl k => k
  | _ => s.windowWait

/-- Every domain write that a fence of a bank covers has become visible (R146). -/
def State.fenceOver (s : State) (b : Bank) : Bool := b.dom.isEmpty || lastWindow b.dom + s.fenceWindows b ≤ s.window

/-- A domain write that a fence of a bank covers is held by link loss (R146, R150). -/
def State.fenceHeld (s : State) (b : Bank) : Bool := b.dom.any (fun w => s.heldLine w.1)

/-- The waits of `fence.s domain`, also those of an atomic with rl (R147): a held write traps link-down; else every covered write has
become visible (R146). Both are tested at every turn of the wait, so that a write which becomes held during it traps too (log 106). -/
def fenceWait (rl : Bool) : M Unit := do
  let s ← get
  let b ← curBank
  if s.fenceHeld b then trap 54 0
  if s.fenceOver b then modCur (fun b => { b with wait := .none })
  else
    modCur (fun b => { b with wait := if rl then .fenceRl (s.fenceWindows b) else .fenceS (s.fenceWindows b) })
    waitMore

/-! ### Atomics (R125, R147 to R149, R259) -/

def amoSize (dbl : Bool) : Nat := if dbl then 8 else 4

/-- A value of the access's width as a register shows it. -/
def amoValue (dbl : Bool) (v : Nat) : Word :=
  if dbl then BitVec.ofNat 64 v else (BitVec.ofNat 32 v).signExtend 64

/-- What an AMO stores: the old value combined with the register. -/
def amoResult {n : Nat} (op : AmoOp) (old src : BitVec n) : BitVec n :=
  match op with
  | .swap => src
  | .add => old + src
  | .xor => old ^^^ src
  | .and => old &&& src
  | .or => old ||| src
  | .min => if old.slt src then old else src
  | .max => if old.slt src then src else old
  | .minu => if old.ult src then old else src
  | .maxu => if old.ult src then src else old

def amoStored (op : AmoOp) (dbl : Bool) (old : Nat) (src : Word) : Nat :=
  if dbl then (amoResult op (BitVec.ofNat 64 old) src).toNat
  else (amoResult op (BitVec.ofNat 32 old) (src.setWidth 32)).toNat

/-- The checks of an atomic: alignment, translation, and with rl on a domain line the waits of a domain fence (R125, R147). -/
def atomicPlace (a : Reg) (dbl rl : Bool) (acc cause : Nat) : M Place := do
  let s ← get
  let va := (← readX a).toNat
  if va % amoSize dbl ≠ 0 then trap cause va
  let p ← translate (s.whoCore s.cur.bid) va acc 0
  if rl && isDomain p.pa then fenceWait true
  return p

/-- A store of an atomic: the device cache takes its line whatever the page's policy (R148). -/
def State.storeAtomic (s : State) (bid : Nat) (p : Place) (data : List Byte) : State :=
  (s.dirtyLines (dieOf bid) (s.bank bid).vfId p.pa data.length 0).storeAt bid none p data

/-- A reservation keeps the ownership of a domain line for 256 c (R149). -/
def State.keepsLine (s : State) (line : Nat) (r : Resv) : Bool := r.domain && lineOf r.addr = line && s.since r.time < 256

/-- An LR, of a bank or of an agent of another module, keeps the ownership of a line (R148, R149). -/
def State.owned (s : State) (line : Nat) : Bool :=
  s.banks.any (fun b => b.2.resv.any (s.keepsLine line)) || s.host.peerResvs.any (fun e => s.keepsLine line e.2)

/-- An atomic of the host on a line that it holds, in its cache: it stores its result, and the host receives the old value (R148). One that
is not aligned, or meets a poisoned line, stores nothing (log 81). -/
def State.hostAtomic (s : State) (line : Nat) (a : HostAtomic) : State :=
  let n := amoSize a.dbl
  let pa := line * 64 + a.off
  if a.off % n ≠ 0 || 64 ≤ a.off || s.poison.contains line then { s with host := { s.host with answer := [] } }
  else
    let old := leNat (s.mem.read pa n)
    let s := s.storeOutside hostAgent pa (leBytes n (amoStored a.op a.dbl old a.src))
    { s with host := { s.host with answer := [BitVec.ofNat 64 old] } }

/-- The host holds a line: it performs its atomic, if that is what it took the line for. -/
def State.hostActs (s : State) (n : Snoop) : State :=
  match n.atomic with
  | some a => s.hostAtomic n.line a
  | none => s

/-- The host takes a line: reservations on it end, the device cache gives it up, and the host performs its atomic (R148, R149). -/
def State.takeLine (s : State) (n : Snoop) : State :=
  { s.breakResv none (n.line * 64) 64 with dirtyHost := s.dirtyHost.filter (fun l => l.1.line ≠ n.line) }.hostActs n

/-- A snoop waits: an LR keeps its line, or the link on which the answer goes is down (R149; log 121). -/
def State.keepsSnoop (s : State) (n : Snoop) : Bool := s.owned n.line || !s.host.link

/-- The snoops that wait no longer are answered (R149). -/
def State.answerSnoops (s : State) : State :=
  let free := s.host.snoops.filter (fun n => !s.keepsSnoop n)
  free.foldl (fun s n => s.takeLine n) { s with host := { s.host with snoops := s.host.snoops.filter s.keepsSnoop } }

def execAmo (op : AmoOp) (dbl _aq rl : Bool) (d a b : Reg) (s : State) : Host.Outcome State Fault Refusal :=
  runCc (irrevocable
    (do
      let p ← atomicPlace a dbl rl (accR ||| accW) 6
      let old ← loadBytes (← curBid) none p.pa (amoSize dbl)
      return (p, leNat old))
    (fun (p, old) => do
      let src ← readX b
      let bid ← curBid
      modify (·.storeAtomic bid p (leBytes (amoSize dbl) (amoStored op dbl old src)))
      writeX d (amoValue dbl old))) s

/-- LR (R125, R149). Each LR begins 256 c of ownership of its own: one on a line that the bank holds already extends them (log 107). -/
def execLr (dbl _aq rl : Bool) (d a : Reg) (s : State) : Host.Outcome State Fault Refusal :=
  runCc (irrevocable
    (do
      let p ← atomicPlace a dbl rl accR 4
      let old ← loadBytes (← curBid) none p.pa (amoSize dbl)
      return (p, leNat old))
    (fun (p, old) => do
      let t := (← get).cycle
      modCur (fun b => { b with resv := some { addr := p.pa, size := amoSize dbl, value := old, time := t, domain := isDomain p.pa } })
      modify (·.answerSnoops)
      writeX d (amoValue dbl old))) s

/-- A reservation on exactly the bytes of an SC (R149). -/
def Bank.reserves (b : Bank) (pa n : Nat) : Bool :=
  match b.resv with
  | some r => r.addr = pa && r.size = n
  | none => false

def execSc (dbl _aq rl : Bool) (d a b : Reg) (s : State) : Host.Outcome State Fault Refusal :=
  runCc (irrevocable (atomicPlace a dbl rl accW 6)
    (fun p => do
      let src ← readX b
      let bid ← curBid
      let ok := (← curBank).reserves p.pa (amoSize dbl)
      if ok then modify (·.storeAtomic bid p (leBytes (amoSize dbl) src.toNat))
      modCur (fun b => { b with resv := none })
      modify (·.answerSnoops)
      writeX d (if ok then 0#64 else 1#64))) s

/-! ### Fences and barriers (R79, R80, R139, R146) -/

/-- FENCE retires at once: R135 gives what it would order (R139). -/
def execFence (_fm _pre _suc : BitVec 4) (_a _d : Reg) (s : State) : Host.Outcome State Fault Refusal := runCc (pure ()) s

/-- FENCE.TSO retires at once (R139). -/
def execFenceTso (_a _d : Reg) (s : State) : Host.Outcome State Fault Refusal := runCc (pure ()) s

/-- FENCE.I: a fetch already follows the bank's own stores (R225). -/
def execFenceI (_imm : BitVec 12) (_a _d : Reg) (s : State) : Host.Outcome State Fault Refusal := runCc (pure ()) s

/-- `fence.s`: scopes 0 to 3 retire at once, scopes 4 and 5 wait (R139, R146). -/
def execFenceS (c : BitVec 3) (s : State) : Host.Outcome State Fault Refusal :=
  runCc (if 6 ≤ c.toNat then illegal else if c.toNat < 4 then pure () else fenceWait false) s

/-- Durable stores of an agent that are not yet persistent. -/
def State.unpersisted (s : State) (a : DAgent) : List Nat := (s.betony.pending.filter (·.agent = a)).map (·.id)

/-- Durable stores of the engines of a bank that are not yet persistent. -/
def State.enginesUnpersisted (s : State) (bid : Nat) : List Nat :=
  (allEngines.map (fun e => s.unpersisted (dagent bid (some e)))).flatten

/-- Durable stores of the control core and of the engines of a bank that are not yet persistent. -/
def State.bankUnpersisted (s : State) (bid : Nat) : List Nat := s.unpersisted (dagent bid none) ++ s.enginesUnpersisted bid

/-- Durable stores of commands that a bank pushed to the engines of a gang which has ended, and that are not yet persistent (R79, R262). -/
def State.pushedUnpersisted (s : State) (bid : Nat) : List Nat :=
  (s.bank bid).pushed.filter (fun i => s.betony.pending.any (·.id = i))

def execPbar (c : BitVec 3) (s : State) : Host.Outcome State Fault Refusal :=
  runCc (do
    let s ← get
    let bid := s.cur.bid
    match c.toNat with
    | 0 => modCur (fun b => { b with barred := s.unpersisted (dagent bid none) })
    | 1 => if s.unpersisted (dagent bid none) ≠ [] then waitMore
    | 2 =>
      if (s.members bid).any (fun m => !(s.bank m).quiet || s.bankUnpersisted m ≠ [] || s.pushedUnpersisted m ≠ []) then waitMore
    | _ => illegal) s

/-- `pwb`: translation as a load; a dirty durable line is already on its way to Betony (R80). -/
def execPwb (a : Reg) (s : State) : Host.Outcome State Fault Refusal :=
  runCc (do
    let s ← get
    let _ ← translate (s.whoCore s.cur.bid) (← readX a).toNat accR 0) s

/-- LR_RESERVATION_EXPIRY: 256 c after an LR on a domain line its ownership may go, and with it the reservation (R149). -/
def execLrReservationExpiry (bank : Nat) (s : State) : Host.Outcome State Fault Refusal :=
  .next (match (s.bank bank).resv with
    | some r =>
      if r.domain && 256 ≤ s.since r.time then (s.modBank bank (fun b => { b with resv := none })).answerSnoops else s
    | none => s.answerSnoops)

end Sys2Proof.Machine
end

