-- ==== Sys2Proof/Machine/Vetch.lean ====
section
/-! DEFINITION. Vetch: enumeration (R166), engine images and map tables (R167, R188), and the start of a task (R170, R175). -/

namespace Sys2Proof.Machine

/-! ### Enumeration (R166) -/

/-- Indices of linear number `k`, the last dimension fastest. -/
def rowIndex (k : Nat) : List Nat → List Nat
  | [] => []
  | _ :: bs =>
    let inner := bs.foldl (· * ·) 1
    (k / inner) :: rowIndex (k % inner) bs

/-- Indices of linear number `k`, dimension 0 fastest. -/
def colIndex (k : Nat) : List Nat → List Nat
  | [] => []
  | b :: bs => (k % b) :: colIndex (k / b) bs

/-- Bits needed for the values below a bound. -/
def log2Up (b : Nat) : Nat := ((List.range 33).find? (fun n => b ≤ 2 ^ n)).getD 33

/-- Index of dimension `d` of `n` in a Morton code: bit b is code bit n·b + (n − 1 − d). -/
def mortonDim (n d code : Nat) : Nat :=
  (List.range 33).foldl (fun v b => v + (if bit code (n * b + (n - 1 - d)) then 2 ^ b else 0)) 0

def mortonIndex (bounds : List Nat) (code : Nat) : List Nat :=
  (List.range bounds.length).map (fun d => mortonDim bounds.length d code)

/-- The code of linear number `k`: codes outside the bounds take no number. -/
def mortonCode (bounds : List Nat) (k code : Nat) : Nat → Nat
  | 0 => code
  | fuel + 1 =>
    let inside := ((mortonIndex bounds code).zip bounds).all (fun p => p.1 < p.2)
    if inside then (if k = 0 then code else mortonCode bounds (k - 1) (code + 1) fuel)
    else mortonCode bounds k (code + 1) fuel

/-- The indices of a linear tile number in the declared order (R166). -/
def tileIndex (order : Nat) (bounds : List Nat) (k : Nat) : List Nat :=
  match order with
  | 0 => rowIndex k bounds
  | 1 => colIndex k bounds
  | 2 =>
    let m := bounds.foldl (fun a b => max a (log2Up b)) 0
    mortonIndex bounds (mortonCode bounds k 0 (2 ^ (m * bounds.length)))
  | _ => rowIndex (bounds.foldl (· * ·) 1 - 1 - k) bounds

/-! ### Engine images (R167, R188) -/

/-- `n` chunks of 64 bytes of the image, as user reads of the task (R39, R167). -/
def loadChunks (w : Who) (bid va : Nat) : Nat → M (List Byte)
  | 0 => return []
  | n + 1 => do
    let p ← translate w va accR 0
    let bs ← loadBytes bid none p.pa 64
    return bs ++ (← loadChunks w bid (va + 64) n)

/-- 16-bit words of bytes. -/
def halves : List Byte → List Half
  | a :: b :: t => (b ++ a) :: halves t
  | _ => []

/-- A map-table entry that R188 allows. -/
def mapOk (m : Nat × Nat) : Bool :=
  bits m.1 0 8 = 0 && bits m.2 24 40 = 0 && bits m.2 16 2 = 0 && bits m.2 10 2 = 0 && bits m.2 4 2 = 0

/-- Pairs of doublewords of bytes. -/
def pairs (bs : List Byte) (n : Nat) : List (Nat × Nat) :=
  (List.range n).map (fun i => (leNat ((bs.drop (16 * i)).take 8), leNat ((bs.drop (16 * i + 8)).take 8)))

/-- Load the image of the nest of a bank's task into the core's engine stores (R167). -/
def loadImage (bid image : Nat) : M Unit := do
  let s ← get
  let w := s.whoEngine bid
  let h ← loadChunks w bid image 1
  let off := fun i => bits (blockWord h i) 32 32
  let count := fun i => bits (blockWord h i) 0 32
  let mapoff := off 4
  let maps := count 4
  if (List.range 4).any (fun i => off i % 256 ≠ 0 || 8192 < count i) || mapoff % 8 ≠ 0 || 4096 < maps
    || (h.drop 40).any (· ≠ 0#8) then endNest 0xF0
  let words : Nat → M (List Half) := fun i => do
    let bs ← loadChunks w bid (image + off i) ((2 * count i + 63) / 64)
    return halves (bs.take (2 * count i))
  let m ← words 0
  let v ← words 1
  let c ← words 2
  let x ← words 3
  let t ← loadChunks w bid ((image + mapoff) / 64 * 64) (((image + mapoff) % 64 + 16 * maps + 63) / 64)
  let table := pairs (t.drop ((image + mapoff) % 64)) maps
  if !table.all mapOk then endNest 0xF0
  modify fun s => s.modCore (coreOf bid) (fun k =>
    { k with store := #v[m, v, c, x], marks := [], maps := table, image := some image })

/-! ### The start of a task (R170, R175) -/

/-- Clear the core's scratchpad, its share of cluster shared memory and its lane slices (R170); their lines are poisoned no longer
(R351). -/
def State.clearCore (s : State) (g : Nat) : State :=
  let m := s.mem.blank (scratchBase g) (scratchBase g + coreSpan) none
  let lanes := laneBase + g * 0x40000
  ({ s with mem := m.blank lanes (lanes + 0x40000) none }.unpoison (scratchBase g) coreSpan).unpoison lanes 0x40000

/-- A core that a task of a VF goes to: it is cleared where its previous task belonged to another VF (R170). -/
def State.clearFor (s : State) (vf g : Nat) : State :=
  let s := match (s.coreSt g).prevVf with
    | some v => if v = vf then s else s.clearCore g
    | none => s
  s.modCore g (fun c => { c with prevVf := some vf })

/-- Clear the condition bits of a group (R170, R174). -/
def State.clearCond (s : State) (g0 size : Nat) : State :=
  let c := g0 / 8 % 3
  let mask := BitVec.ofNat 16 ((2 ^ (2 * size) - 1) * 2 ^ (2 * (g0 % 8)))
  s.modDie (dieOfCore g0) (fun d => { d with cond := d.cond.set (Fin.ofNat 3 c) (d.cond[Fin.ofNat 3 c] &&& ~~~mask) })

/-- The control core of a bank at the start of a task (R170, R175). -/
def startRegs (n : Nest) (t : Task) (svec satp : Word) (bank nextVer : Nat) : CoreRegs :=
  let idx := tileIndex n.order n.bounds t.k
  let w := fun (v : Nat) => BitVec.ofNat 64 v
  let x : Vector Word 32 := (((((((Vector.replicate 32 0).set 10 (w (idx.getD 0 0))).set 11 (w (idx.getD 1 0))).set 12
    (w (idx.getD 2 0))).set 13 (w (idx.getD 3 0))).set 14 (w t.j)).set 15 n.param |>.set 16 (w t.k)).set 17 (w bank)
  { CoreRegs.init with
    x := x
    pc := n.entry
    csr := { Csrs.init with stvec := svec, scounteren := 7, satp := satp }
    ph := freshHandles nextVer }

/-- A task starts in its bank with the state of R170 and R175; what its control core has issued before stays with it (R76, R79, R146). What the
start acquires of a task it waited for enters no fence: R146 lists no such acquire (log 114). -/
def State.startTask (s : State) (bid : Nat) : State :=
  let b := s.bank bid
  match b.task with
  | none => s
  | some t =>
    match s.nests.find? (·.id = t.nest) with
    | none => s
    | some n =>
      let regs := startRegs n t (s.vf t.vf).svec (s.astSatp t.vf t.asid) (bankOf bid) b.nextVer
      let b' := { b.emptied with task := some t, core := regs, nextVer := b.nextVer + 16, preempt := b.preempt }
      s.setBank bid (b'.fullCkpt 0 n.entry)

/-- Load the image where the address of the one that the core holds differs (log 27), then start the task, or go on with a context that
resumes (R167, R170, R190). -/
def loadAndStart (bid : Nat) : M Unit := do
  let s ← get
  match (s.bank bid).task with
  | none => return
  | some t =>
    match s.nests.find? (·.id = t.nest) with
    | none => return
    | some n =>
      if (s.coreSt (coreOf bid)).image ≠ some n.image then loadImage bid n.image
      modify (fun s => if (s.bank bid).resuming then
        s.modBank bid (fun b => { b with loading := false, resuming := false }) else s.startTask bid)

/-- A fault of an image load: replayable ones are page faults of the task, the others end the nest (R167, R177). -/
def State.loadStop (s : State) (bid : Nat) : Stop → State
  | .access c va acc ver =>
    if c ≤ 5 then s.pageFaultCore bid c va acc ver
    else if c = 6 then (s.modBank bid (fun b => { b with waiter := some (.link 0) })).switchAll bid
    else s.terminateOf bid c
  | .ends c => s.terminateOf bid c
  | .poison l => s.agentPoison bid none l
  | _ => s

/-- A task that was handed to a bank begins, or goes on, loading its image (R167). -/
def State.beginTask (s : State) (bid : Nat) : State :=
  match (loadAndStart bid).run s with
  | .ok _ s' => s'
  | .error e s' => s'.loadStop bid e

end Sys2Proof.Machine
end

