-- ==== Sys2Proof/Machine/Tasks.lean ====
section
/-! DEFINITION. Accepting nests (R163, R164, R196), ending tasks (R171), gangs (R173) and condition bits (R174). -/

namespace Sys2Proof.Machine

/-! ### Acceptance (R163, R164) -/

def nestTableSize : Nat := 256

/-- Nests of a die that have not reached state 0x02 or 0x03 (R195). -/
def State.nestCount (s : State) (d : Nat) : Nat := (s.nests.filter (·.die = d)).length

def addrOk (a align : Nat) : Bool := a % align = 0 && canonical a

/-- A record that breaks a rule of R163 or R164. -/
def badRecord (bs : List Byte) (vf : Nat) : Bool :=
  let w := blockWord bs
  let w2 := w 2
  let n := bits w2 5 3
  let stages := bits w2 8 5
  let bound := fun d => bits (w (4 + d / 2)) (32 * (d % 2)) 32
  let preds := ((List.range 4).map (fun i => w (6 + 2 * i))).filter (· ≠ 0)
  let kinds := (List.range 4).map (fun i => w (7 + 2 * i))
  bits w2 19 20 ≠ 0 || bits w2 13 3 ≠ 0 || bits w2 4 1 ≠ 0 || bits (w 3) 0 32 ≠ 0 || kinds.any (fun k => bits k 0 63 ≠ 0)
    || stages = 0 || 16 < stages || n = 0 || 4 < n
    || (List.range 4).any (fun d => if d < n then bound d = 0 else bound d ≠ 0)
    || 2 ^ 48 < ((List.range n).map bound).foldl (· * ·) 1
    || !addrOk (w 0) 2 || !addrOk (w 1) 8 || !addrOk (w 14) 256 || preds.any (fun p => !addrOk p 128)
    || !decide preds.Nodup || bits w2 39 9 ≠ vf || (bits w2 17 2 = 3 && 1 < stages)

/-- The nest that a good record describes. -/
def parseNest (bs : List Byte) (id die recAddr recAsid cap : Nat) : Nest :=
  let w := blockWord bs
  let w2 := w 2
  let n := bits w2 5 3
  let base := min (bits w2 0 2) cap
  { id := id, die := die, recAddr := recAddr, recAsid := recAsid, vf := bits w2 39 9, asid := bits w2 48 16,
    entry := BitVec.ofNat 64 (w 0), param := BitVec.ofNat 64 (w 1), gsize := 2 ^ bits w2 17 2, cobank := bit w2 16,
    stages := bits w2 8 5, order := bits w2 2 2,
    bounds := (List.range n).map (fun d => bits (w (4 + d / 2)) (32 * (d % 2)) 32), energy := bits (w 3) 32 32,
    preds := ((List.range 4).filter (fun i => w (6 + 2 * i) ≠ 0)).map (fun i => (w (6 + 2 * i), bit (w (7 + 2 * i)) 63)),
    image := w 14, base := base, level := base, waiting := none, handed := [], ended := [], measured := 0, count := 0,
    cause := none }

/-- Vetch accepts a record it has read: state 0x01 and done 0, or state 0x03 with cause 0xF0 where the record is bad; a nest that
no group of its die can take ends with 0xF2 (R164, R359). -/
def State.accept (s : State) (bs : List Byte) (die recAddr recAsid vf cap : Nat) : State :=
  let n := parseNest bs s.nextNest die recAddr recAsid cap
  let n := { n with vf := vf }
  let s := { s.writeWord15 { n with ended := [] } 1 0 with nextNest := s.nextNest + 1 }
  if badRecord bs vf then s.writeWord15 n 3 0xF0
  else
    let s := { s with nests := s.nests ++ [n] }
    if (s.groups die n.gsize).isEmpty then s.terminate n.id 0xF2 else s.updateLevels die

/-- `nsub`: the record at x[rs1] goes to the nest table of the die (R196, R262). -/
def execNsub (d a : Reg) (s : State) : Host.Outcome State Fault Refusal :=
  runCc (irrevocable
    (do
      let s ← get
      let bid := s.cur.bid
      let va := (← readX a).toNat
      if va % 128 ≠ 0 then trap 4 va
      if nestTableSize ≤ s.nestCount (dieOf bid) then return none
      return some (va, ← loadBlock (s.whoCore bid) va 128))
    (fun r => do
      match r with
      | none => writeX d (BitVec.ofNat 64 (2 ^ 63 + 2))
      | some (va, bs) =>
        let b ← curBank
        let bid ← curBid
        modify (fun s => s.accept bs (dieOf bid) va b.asidOf b.vfId ((b.task.map (·.base)).getD 0))
        writeX d 0)) s

/-! ### The end of a task (R171) -/

/-- The members' banks of a group task. -/
def Task.banks (t : Task) (bank : Nat) : List Nat := groupBanks t.group0 t.gsize bank

/-- Two banks hold the same task, as members of its group. -/
def Task.same (t u : Task) : Bool := u.nest = t.nest && u.k = t.k && u.j = t.j

/-- A bank is freed; its state stays as it is, without the elements of its data queues (R171). -/
def Bank.free (b : Bank) : Bank :=
  { b with task := none, draining := .none, dq := Vector.replicate 8 [], gang := none, wait := .none, waiter := none, preempt := none,
           missDue := [], ctxDue := none, resv := none, ckpts := [] }

/-- The task of a bank has executed `tdone`; with the last member the task ends and its banks are free (R171). -/
def State.finishTask (s : State) (bid : Nat) : State :=
  match (s.bank bid).task with
  | none => s
  | some t =>
    let s := s.modBank bid (fun b => { b with task := some { t with ended := true } })
    let ms := t.banks (bankOf bid)
    if ms.all (fun m => (s.bank m).task.any (fun u => u.ended && t.same u)) then
      let energy := (ms.map (fun m => ((s.bank m).task.map (·.energy)).getD 0)).sum
      let s := ms.foldl (fun s m => (s.settle m).modBank m Bank.free) s
      let s := s.taskEnded { t with energy := energy }
      ms.foldl (fun s m => if s.isActive m then s.switchAway m else s) s
    else s.switchAway bid

/-- `tdone`: the open phase that it ends counts as committed (R171, R256; log 117). -/
def execTdone (s : State) : Host.Outcome State Fault Refusal :=
  runCc (do
    let s ← get
    let bid := s.cur.bid
    let b := s.bank bid
    if b.gang.any (·.formed) then illegal
    if !s.settled bid then waitMore
    modify fun s => (s.commit bid).finishTask bid) s

/-! ### Gangs (R173) -/

/-- Bank of a core of the cluster with the issuing bank's number. -/
def clusterBank (bid c : Nat) : Nat := 2 * (clusterOfCore (coreOf bid) * 8 + c) + bankOf bid

/-- The banks a mask of cluster cores names, lowest first. -/
def maskBanks (bid mask : Nat) : List Nat := ((List.range 8).filter (bit mask)).map (clusterBank bid)

/-- A gang forms: the leader's `gang` retires, each follower's stays unretired (R173). -/
def State.formGang (s : State) (ms : List Nat) (mask : BitVec 8) : State :=
  ms.foldl (fun s m => s.modBank m (fun b => { b with gang := some ⟨mask, ms, true⟩, wait := .gang })) s

/-- Another core of the cluster has executed a `gang` that concerns this bank, with a different mask (R173). -/
def State.otherMask (s : State) (bid : Nat) (mask : BitVec 8) (ms : List Nat) : Bool :=
  (maskBanks bid 255).any (fun m => m ≠ bid && (s.bank m).gang.any (fun g =>
    (ms.contains m || (!g.formed && g.mask.getLsbD (coreOf bid % 8))) && g.mask ≠ mask))

/-- A member's `gang` or a follower's at `ungang` retires, with a checkpoint behind it (R173, R259). -/
def Bank.retireGang (b : Bank) : Bank :=
  let b := (b.setPc (b.core.pc + 4#64)).retire
  b.fullCkpt b.phase b.core.pc

/-- `gang` (R173); in a core whose gang is formed it is illegal (log 93). -/
def execGang (a : Reg) (s : State) : Host.Outcome State Fault Refusal :=
  runCc (irrevocable
    (do
      let s ← get
      let bid := s.cur.bid
      let b := s.bank bid
      let x := (← readX a).toNat
      let mask : BitVec 8 := BitVec.ofNat 8 x
      let ms := maskBanks bid (bits x 0 8)
      let group := match b.task with | some t => t.banks (bankOf bid) | none => []
      if bits x 8 56 ≠ 0 || ms.length < 2 || !ms.all group.contains || !ms.contains bid || b.gang.any (·.formed) then illegal
      if s.otherMask bid mask ms then illegal
      modCur (fun b => { b with gang := some ⟨mask, [], false⟩, wait := .gang })
      if !ms.all (fun m => m = bid || (s.bank m).gang.any (fun g => !g.formed && g.mask = mask) && (s.bank m).quiet) then waitMore
      let leader := ms.headD bid
      if leader ≠ bid then
        modify fun s => (s.formGang ms mask).modBank leader Bank.retireGang
        waitMore
      return (ms, mask))
    (fun (ms, mask) => do
      modify fun s => s.formGang ms mask)) s

/-- The leader of a gang that ends pushed the commands of the others: those of their durable stores that are not yet persistent stay covered by
its `pbar bank` (R79, R262). -/
def State.keepPushed (s : State) (bid : Nat) (others : List Nat) : State :=
  s.modBank bid (fun b => { b with pushed := s.pushedUnpersisted bid ++ others.flatMap s.enginesUnpersisted })

/-- `ungang` of the leader (R173); as with the other irrevocable forms, the check comes once the open phase has committed (log 72). -/
def execUngang (s : State) : Host.Outcome State Fault Refusal :=
  runCc (irrevocable
    (do
      let bid ← curBid
      match (← curBank).gang with
      | some g => if g.formed && g.members.headD bid = bid then return g else illegal
      | none => illegal)
    (fun g => do
      let bid ← curBid
      modify fun s => (g.members.filter (· ≠ bid)).foldl (fun s m =>
        s.modBank m (fun b => { b.retireGang with gang := none })) (s.keepPushed bid (g.members.filter (· ≠ bid)))
      modCur (fun b => { b with gang := none }))) s

/-! ### Condition bits (R174) -/

/-- Cluster of its die, and first bit, of the condition bits of a bank's group. -/
def Bank.condAt (b : Bank) (bid : Nat) : Nat × Nat × Nat :=
  match b.task with
  | some t => (t.group0 / 8 % 3, 2 * (t.group0 % 8), 2 * t.gsize)
  | none => (clusterOfCore (coreOf bid) % 3, 2 * (coreOf bid % 8), 2)

def execCsyncSet (a b : Reg) (s : State) : Host.Outcome State Fault Refusal :=
  runCc (irrevocable
    (do
      let bk ← curBank
      let bid ← curBid
      let mask := (← readX a).toNat
      let (c, lo, n) := bk.condAt bid
      if 2 ^ n ≤ mask then illegal
      return (c, lo, mask))
    (fun (c, lo, mask) => do
      let bid ← curBid
      let v := (← readX b).toNat
      modify fun s => s.modDie (dieOf bid) (fun d =>
        let old := d.cond[Fin.ofNat 3 c]
        let m := BitVec.ofNat 16 (mask * 2 ^ lo)
        { d with cond := d.cond.set (Fin.ofNat 3 c) ((old &&& ~~~m) ||| (BitVec.ofNat 16 (v % 2 ^ 16 * 2 ^ lo) &&& m)) }))) s

/-- `csync.w`: what it acquires enters no fence, for R146 lists no such acquire (R174; log 114). -/
def execCsyncW (a : Reg) (s : State) : Host.Outcome State Fault Refusal :=
  runCc (do
    let s ← get
    let bid := s.cur.bid
    let mask := (← readX a).toNat
    let (c, lo, n) := (s.bank bid).condAt bid
    if 2 ^ n ≤ mask then illegal
    let have1 := bits (s.die (dieOf bid)).cond[Fin.ofNat 3 c].toNat lo n
    if mask &&& have1 ≠ mask then waitMore) s

end Sys2Proof.Machine
end

