-- ==== Sys2Proof/Machine/Save.lean ====
section
/-! DEFINITION. Safe points and pre-emption (R187), what a save keeps (R188, R189), the persist barrier of a save (R82), and
resuming a saved context (R190, R199). -/

namespace Sys2Proof.Machine

/-! ### What a save keeps (R188, R189) -/

/-- The local ranges of the occupied slots of a ring. -/
def Ring.occupied (r : Ring) : List (Nat × Nat) :=
  (List.range r.filled).map (fun i =>
    let slot := (r.head + i) % (max r.slots 1)
    ((r.base + slot * r.size) * 256, (r.base + (slot + 1) * r.size) * 256))

/-- Local ranges that a forced save covers: all of the core's, or the half of a cobank task (R168, R189). -/
def forcedRanges (cobank : Bool) (bank : Nat) : List (Nat × Nat) :=
  if cobank then
    if bank = 0 then [(0, 0x180000), (0x300000, 0x320000)] else [(0x180000, 0x300000), (0x320000, 0x340000)]
  else [(0, 0x340000)]

/-- The six bits of an engine in a map-table entry: stack, loops, regions, rings, acc0, acc1 (R188). -/
def mapBit (m : Nat × Nat) (e : Engine) (i : Nat) : Bool :=
  bit m.2 (i + match e with | .mx => 18 | .vx => 12 | .cx => 6 | .sx => 0)

/-- Local ranges that a save under a map covers (R188, R189). -/
def Bank.mapRanges (b : Bank) (m : Nat × Nat) : List (Nat × Nat) :=
  allEngines.flatMap (fun e =>
    let r := (b.engine e).regs
    (if mapBit m e 3 then (r.rings.toList.map Ring.occupied).flatten else [])
      ++ (if mapBit m e 2 then r.regions.toList.filterMap Region.span else []))

/-- The registers of an engine with the dead ones at their task-start values (R189). -/
def EngRegs.live (r : EngRegs) (m : Nat × Nat) (e : Engine) : EngRegs :=
  let z := EngRegs.init
  let r := if mapBit m e 0 then r else { r with pstack := [], fmt := z.fmt, deadline := z.deadline }
  let r := if mapBit m e 1 then r else { r with loops := z.loops }
  let r := if mapBit m e 2 then r
    else { r with regions := z.regions, pg := z.pg, k := z.k, streams := z.streams, bsrPair := z.bsrPair }
  let r := if mapBit m e 3 then r else { r with rings := z.rings, ftab := z.ftab, mask := z.mask }
  let r := if mapBit m e 4 then r else { r with acc0 := z.acc0, gamma0 := z.gamma0 }
  if mapBit m e 5 then r else { r with acc1 := z.acc1, gamma1 := z.gamma1 }

/-- The data queues with the dead ones empty (R189). -/
def Bank.liveQueues (b : Bank) (m : Nat × Nat) : Bank :=
  { b with
    dq := b.dq.mapFinIdx (fun i l _ => if bit m.1 (8 + i) then l else [])
    vbit := b.vbit.mapFinIdx (fun i v _ => if bit m.1 (8 + i) then v else true) }

/-- The handles with the dead ones empty; commands still queued keep the versions they were pushed with (R38, R189). -/
def Bank.liveHandles (b : Bank) (m : Nat × Nat) (used : List Nat) : Bank :=
  { b with
    nextVer := b.nextVer + 16
    core := { b.core with ph := b.core.ph.mapFinIdx (fun i h _ =>
      if bit m.1 (16 + i) then h else ⟨HVer.empty (b.nextVer + i), h.live used⟩) } }

/-- The bank as a save under a map keeps it (R189). -/
def Bank.live (b : Bank) (m : Nat × Nat) (used : List Nat) : Bank :=
  let b := (b.liveQueues m).liveHandles m used
  let b := { b with core := { b.core with x := b.core.x.mapFinIdx (fun i v _ => if bit m.1 (32 + i) then v else 0) } }
  b.modEngines (fun e g => g.modRegs (fun r => r.live m e))

/-! ### Saving (R82, R187, R189) -/

/-- What a save leaves of a bank's waits: instructions in execution are executed again, but for the `gang` of a follower, which stays unretired
in a formed gang; comparisons are complete (R162, R173, R189, R190). -/
def Bank.settled (b : Bank) : Bank :=
  let b : Bank := { b with
    wait := if b.wait = .gang && b.gang.any (·.formed) then .gang else .none
    gang := b.gang.filter (·.formed)
    preempt := none, draining := .none, saving := none, resv := none, uses := [], issued := false }
  b.clearWaits.compareAll

/-- The context of a bank goes to its save frame, and the bank is free (R189). -/
def State.saveBank (s : State) (group : Nat) (kind : Option Nat) (bid : Nat) : State :=
  let g := coreOf bid
  let b := ((s.bank bid).takeSpans g s.mem).settled
  let m := ((s.coreSt g).maps).getD (kind.getD 0) (0, 0)
  let cobank := b.task.any (·.cobank)
  let ranges := match kind with
    | none => forcedRanges cobank (bankOf bid)
    | some _ => b.mapRanges m
  let areas := (ranges.flatMap (fun r => savedRange g r.1 r.2)).map (fun r => (r.1, r.2, s.mem.clip r.1 r.2))
  let kept := if kind.isSome then b.live m (s.usedVers (s.handleBank bid)) else b
  let kept := { kept with held := kept.held.filter (fun h => areas.any (fun a => a.1 ≤ h.addr && h.addr < a.2.1)) }
  let c : Saved :=
    { core := g, bank := bankOf bid, state := kept, areas := areas, forced := kind.isNone, group := group }
  let s := { s with saved := PMap.put s.saved s.nextSaved c, nextSaved := s.nextSaved + 1 }
  (s.settle bid).setBank bid b.emptied

/-- The banks that are saved and resume as one with a bank: those of the task's group (R173, R190; log 102). -/
def State.saveSet (s : State) (bid : Nat) : List Nat :=
  match (s.bank bid).task with
  | some t => (t.banks (bankOf bid)).filter (fun m => (s.bank m).task.any t.same)
  | none => [bid]

/-- The bank holds a task that has not ended. -/
def State.running (s : State) (bid : Nat) : Bool := (s.bank bid).task.any (fun t => !t.ended)

/-- A save waits for a bank: it runs and has not come to a save of its own, it drains, or a durable store of it is not persistent (R82, R173). -/
def State.saveWaits (s : State) (bid : Nat) : Bool :=
  (s.running bid && (s.bank bid).saving.isNone) || s.drains bid || s.bankUnpersisted bid ≠ []

/-- A save that has begun drains its bank, and completes once its whole group has come to a save and every durable store of the group is
persistent: each bank under its own map, or forced (R82, R173, R189). A rollback in the drain takes a map save back: the request stays
pending (R260). -/
def State.saveStep (s : State) (bid : Nat) : State :=
  if (s.bank bid).saving.isNone then s
  else
    let s' := s.settleDrain (s.handleBank bid)
    let ms := s'.saveSet bid
    if (s'.bank bid).saving.isNone || ms.any s'.saveWaits then s'
    else
      let s' := ms.foldl (fun s m => s.saveBank s'.nextSaved ((s.bank m).saving.getD none) m) s'
      let s' := ms.foldl (fun s m => if s.isActive m then s.switchAway m else s) s'
      s'.updateLevels (dieOf bid)

/-- A `wfi` whose wait ends retires first (R225). -/
def Bank.endWfi (b : Bank) : Bank :=
  if b.wait = .wfi then { (b.setPc (b.core.pc + 4#64)).retire with wait := .none } else b

/-- A save of a bank, or of its gang, begins: forced, or under a map; a `wfi` that waits retires (R173, R187, R189, R225). -/
def State.beginSave (s : State) (bid : Nat) (kind : Option Nat) : State :=
  let lead := s.handleBank bid
  let s := (s.members lead).foldl (fun s m => (s.withdraw m).modBank m (fun b => { b.endWfi with saving := some kind })) s
  (s.modBank lead (fun b => { b with draining := .save })).saveStep bid

/-- The times of the pending requests for a bank or another of its group (R173, R187). -/
def State.requests (s : State) (bid : Nat) : List Nat := (s.saveSet bid).filterMap (fun m => (s.bank m).preempt)

/-- `safept`: serves a pending pre-emption request under the map it names, or switches to the other bank (R172, R187). -/
def execSafept (i : BitVec 12) (s : State) : Host.Outcome State Fault Refusal :=
  let bid := s.cur.bid
  if (s.coreSt (coreOf bid)).maps.length ≤ i.toNat then .next (s.takeTrap bid 2 s.cur.ibits)
  else
    let s' := s.modBank bid (fun b => (b.setPc (b.core.pc + BitVec.ofNat 64 s.cur.ilen)).retire)
    if s.requests bid ≠ [] then .next (s'.beginSave bid (some i.toNat))
    else .next (s'.switchAll bid)

/-! ### Requests and forced saves (R187, R200) -/

/-- A bank is not active and waits only on unresolved records (R187). -/
def State.idleOnRecords (s : State) (bid : Nat) : Bool :=
  !s.isActive bid && !s.ready bid && (s.bank bid).waiters.all (fun w => match w with | .record .. => true | _ => false)

def Bank.inDopenW (b : Bank) : Bool := match b.wait with | .dopenW _ => true | _ => false

/-- A trap that is due in a bank or in the gang it leads comes before a save, unless the bank is not active and waits on records: there it
reaches no instruction boundary at which the trap could be taken (R178, R187; log 122). -/
def State.trapFirst (s : State) (bid : Nat) : Bool :=
  (s.members (s.handleBank bid)).any (fun m => (s.bank m).due.isSome) && !s.idleOnRecords bid

/-- A pending request calls for a forced save; an event that is served before it, and its drain, ends first (R99, R178, R187). -/
def State.saveDue (s : State) (bid : Nat) : Bool :=
  s.requests bid ≠ [] && !s.drains bid && !s.trapFirst bid
    && ((s.requests bid).any (fun t => 150000 ≤ s.since t) || (s.bank bid).inDopenW || s.idleOnRecords bid)

/-- FORCED_SAVE: a request that no `safept` served in time, or whose bank waits, is served by a forced save; a save that waited
for persistence goes on (R82, R187). -/
def execForcedSave (bank : Nat) (s : State) : Host.Outcome State Fault Refusal :=
  .next (
    if s.host.stopped || s.host.safe || !s.running bank then s
    else if (s.bank bank).saving.isSome then s.saveStep bank
    else if s.saveDue bank then s.beginSave bank none
    else s)

/-- The effective level of a bank's task: its nest's (R197, R200). -/
def State.taskLevel (s : State) (bid : Nat) : Nat :=
  match (s.bank bid).task with
  | none => 4
  | some t => ((s.nests.find? (·.id = t.nest)).map (·.level)).getD 4

/-- Banks of suitable groups that run a task of a lower level than a nest's (R200). -/
def State.lowBanks (s : State) (n : Nest) : List Nat :=
  ((s.groups n.die n.gsize).flatMap (fun g => groupBanks g n.gsize 0 ++ groupBanks g n.gsize 1)).filter (fun b =>
    s.running b && s.taskLevel b < n.level)

def State.startedAt (s : State) (bid : Nat) : Nat := ((s.bank bid).task.map (·.started)).getD 0

/-- A bank has a request, its own or one of its group. -/
def State.asked (s : State) (bid : Nat) : Bool := s.requests bid ≠ []

/-- The eligible tasks of a nest; of the tasks of stage 0 that it has yet to hand out, one more than the module has banks: no more can
have a request each (R168, R200). -/
def State.eligibleTasks (s : State) (n : Nest) : List (Nat × Nat) :=
  ((s.candidates n ++ (List.range (n.handed.length + 193)).map (fun k => (k, 0))).filter (s.eligible n)).eraseDups

/-- The eligible tasks of a die that no group can take while a bank of a suitable group runs a task of a lower level (R200). -/
def State.unplaced (s : State) (d bank : Nat) : Nat :=
  ((s.nests.filter (fun n => n.die = d && (s.places n).isEmpty && (s.lowBanks n).contains bank)).map (fun n =>
    (s.eligibleTasks n).length)).sum

/-- A request that R200 sends for a nest goes to this bank: no group can take the nest's task; fewer of the banks it could use have a
request than there are such tasks; and of those without one, this one runs the lowest level, most recently started. -/
def State.calls (s : State) (n : Nest) (bank : Nat) : Bool :=
  let low := s.lowBanks n
  let free := low.filter (fun b => !s.asked b)
  (s.nextTask n).isSome && (s.places n).isEmpty && free.contains bank
    && (low.filter (fun b => (s.bank b).preempt.isSome)).length < s.unplaced n.die bank
    && free.all (fun b => s.taskLevel bank < s.taskLevel b
        || (s.taskLevel bank = s.taskLevel b && s.since (s.startedAt bank) ≤ s.since (s.startedAt b)))

/-- PREEMPTION_REQUEST: the scheduler asks for a bank; a bank that waits is saved at once (R187, R200). -/
def execPreemptionRequest (bank : Nat) (s : State) : Host.Outcome State Fault Refusal :=
  .next (
    if !s.host.stopped && !s.host.safe && s.nests.any (fun n => n.die = dieOf bank && s.calls n bank) then
      let s := s.modBank bank (fun b => { b with preempt := some s.cycle })
      if s.saveDue bank then s.beginSave bank none else s
    else s)

end Sys2Proof.Machine
end

