-- ==== Sys2Proof/Machine/System.lean ====
section
/-! DEFINITION. CSR accesses (R226), ECALL, EBREAK, SRET, WFI and SFENCE.VMA (R175, R176, R225), and the service and energy forms
`fqpop`, `fqrep`, `ergr` (R184, R185, R204). -/

namespace Sys2Proof.Machine

/-! ### CSRs (R226) -/

/-- The value of a CSR, or none where there is no such CSR (R226). -/
def State.readCsr (s : State) (bid : Nat) (n : Nat) : Option Word :=
  let b := s.bank bid
  let c := b.core.csr
  let w := fun (v : Nat) => BitVec.ofNat 64 v
  match n with
  | 0xC00 | 0xC01 => some (w s.cycle)
  | 0xC02 => some (w b.instret)
  | 0xCC0 => some (w b.sbstall)
  | 0xCC1 => some (w b.prmiss)
  | 0xCC2 => some (w b.fbcnt)
  | 0xCC3 => some (w s.ftime)
  | 0xCC4 => some (w s.window)
  | 0xCC5 => some (w b.thrcyc)
  | 0x100 => some c.sstatus
  | 0x104 => some c.sie
  | 0x105 => some c.stvec
  | 0x106 => some c.scounteren
  | 0x140 => some c.sscratch
  | 0x141 => some c.sepc
  | 0x142 => some c.scause
  | 0x143 => some c.stval
  | 0x144 => some c.sip
  | 0x180 => some c.satp
  | _ => none

/-- The bits of `sstatus` that a write changes: SIE, SPIE, SPP, SUM, MXR (log 4). -/
def sstatusMask : Word := 0x00000000000C0122#64

/-- A write of an S-mode register; the bits that are not there keep their values (R175, R226; log 17). -/
def Csrs.write (c : Csrs) (n : Nat) (v : Word) : Csrs :=
  match n with
  | 0x100 => { c with sstatus := (v &&& sstatusMask) ||| (c.sstatus &&& ~~~sstatusMask) }
  | 0x104 => { c with sie := v &&& 0x10000#64 }
  | 0x105 => { c with stvec := v &&& 0xFFFFFFFFFFFFFFFD#64 }
  | 0x106 => { c with scounteren := v &&& 7#64 }
  | 0x140 => { c with sscratch := v }
  | 0x141 => { c with sepc := v &&& 0xFFFFFFFFFFFFFFFE#64 }
  | 0x142 => { c with scause := v }
  | 0x143 => { c with stval := v }
  | _ => c

/-- What a CSR instruction writes. -/
def csrNew (op : CsrOp) (old v : Word) : Word :=
  match op with
  | .rw => v
  | .rs => old ||| v
  | .rc => old &&& ~~~v

/-- Whether the mode may access a CSR: S-mode registers in S-mode only; `cycle`, `time`, `instret` in U-mode where `scounteren`
allows (R226). -/
def Bank.csrAllowed (b : Bank) (n : Nat) : Bool :=
  b.core.priv = .super
  || (bits n 8 2 = 0 && (0xC02 < n || b.core.csr.scounteren.getLsbD (n - 0xC00)))

/-- The mode does not allow the access, or it writes a register that cannot be written (R226). -/
def Bank.csrRefuses (b : Bank) (n : Nat) (writes : Bool) : Bool := !b.csrAllowed n || (writes && (bits n 10 2 = 3 || n = 0x180))

def execCsrAccess (op : CsrOp) (useImm : Bool) (csr : BitVec 12) (d a : Reg) (s : State) :
    Host.Outcome State Fault Refusal :=
  runCc (do
    let s ← get
    let b ← curBank
    let n := csr.toNat
    let writes := op = .rw || a ≠ 0#5
    match s.readCsr s.cur.bid n with
    | none => illegal
    | some old =>
      if b.csrRefuses n writes then illegal
      let v := if useImm then a.setWidth 64 else b.readX a
      if writes then modCur (fun b => b.setCsr (b.core.csr.write n (csrNew op old v)))
      writeX d old) s

/-! ### Traps, returns, waits (R175, R225) -/

/-- ECALL: scause 8 in U-mode, illegal-instruction in S-mode (R225). -/
def execStandardEcall (s : State) : Host.Outcome State Fault Refusal :=
  runCc (do if (← curBank).core.priv = .user then trap 8 0 else illegal) s

/-- EBREAK: scause 3, the address in `stval` (R176, R225). -/
def execEbreak (s : State) : Host.Outcome State Fault Refusal :=
  runCc (do trap 3 (← curBank).core.pc.toNat) s

/-- Checks that a form runs in S-mode (R222, R225). -/
def needSuper : M Unit := do if (← curBank).core.priv ≠ .super then illegal

def execSret (s : State) : Host.Outcome State Fault Refusal :=
  runJump (do
    needSuper
    let pc := (← curBank).core.csr.sepc
    modCur (·.returnFromTrap pc)
    return pc) s

/-- Something for which `wfi` retires: an enabled interrupt pending, or a trap due (R225). -/
def Bank.wakes (b : Bank) : Bool :=
  (b.lowDue.isSome && b.core.csr.sie.getLsbD 16) || b.missDue ≠ [] || b.ctxDue.isSome

def execWfi (s : State) : Host.Outcome State Fault Refusal :=
  runCc (do
    needSuper
    if !(← curBank).wakes then
      modCur (fun b => { b with wait := .wfi })
      waitMore) s

def execSfenceVma (a b : Reg) (s : State) : Host.Outcome State Fault Refusal :=
  runCc (do
    needSuper
    let va ← readX a
    let asid ← readX b
    let vf := (← curBank).vfId
    let i : Inval :=
      { vf := vf, asid := if b = 0#5 then none else some (bits asid.toNat 0 16),
        va := if a = 0#5 then 0 else va.toNat / 4096 * 4096, len := if a = 0#5 then 0 else 4096 }
    modify (·.invalidate i)) s

/-- An instruction that decodes is illegal in the mode, by its bits and that mode alone: this comes before every other exception of it, and
before it reads a register (R222, R225, R226). -/
def State.refuses (s : State) (bid : Nat) : Instr → Bool
  | .vcfp .. | .vcrep _ | .fqpop .. | .fqrep .. | .sret | .wfi | .sfenceVma .. => decide ((s.bank bid).core.priv ≠ .super)
  | .csrAccess op _ csr _ a =>
    (s.readCsr bid csr.toNat).isNone || (s.bank bid).csrRefuses csr.toNat (decide (op = .rw) || a ≠ 0#5)
  | _ => false

/-! ### Fault records (R184, R185) -/

/-- The record as `fqpop` copies it (R182). -/
def FaultRec.image (r : FaultRec) : List Byte :=
  leBytes 8 r.va
    ++ leBytes 8 (r.asid * 2 ^ 48 + r.vf * 2 ^ 39 + r.code * 2 ^ 24 + r.access * 2 ^ 16 + r.dups * 2 ^ 8)
    ++ leBytes 8 (r.state * 2 ^ 56 + r.core * 2 ^ 48 + r.bank * 2 ^ 40 + r.agent * 2 ^ 32)
    ++ leBytes 8 r.stamp

/-- The oldest new record of a VF: lowest stamp, then lower die, then lower index (R184). -/
def State.oldestNew (s : State) (vf : Nat) : Option (Nat × Nat × FaultRec) :=
  ((s.dies.map (fun d => (d.2.faults.filter (fun r => r.2.state = 1 && r.2.vf = vf)).map (fun r => (d.1, r.1, r.2)))).flatten).foldl
    (fun best r => match best with
      | none => some r
      | some b => if r.2.2.stamp < b.2.2.stamp then some r else some b) none

def State.setFault (s : State) (d i : Nat) (r : FaultRec) : State :=
  s.modDie d (fun die => { die with faults := PMap.put die.faults i r })

def execFqpop (d a : Reg) (s : State) : Host.Outcome State Fault Refusal :=
  runCc (do
    needSuper
    irrevocable
      (do
        let s ← get
        let va := (← readX a).toNat
        if va % 32 ≠ 0 then trap 6 va
        translate (s.whoCore s.cur.bid) va accW 0)
      (fun p => do
        let s ← get
        match s.oldestNew (← curBank).vfId with
        | none => writeX d 0
        | some (die, i, r) =>
          let r := { r with state := 2 }
          let bid ← curBid
          modify (fun s => (s.setFault die i r).storeAt bid none p r.image)
          writeX d (BitVec.ofNat 64 (2 ^ 63 + die * 2 ^ 12 + i)))) s

/-- Nests with a waiter on a record (R185). -/
def State.nestsOn (s : State) (d i : Nat) : List Nat :=
  (s.banks.map (·.2) ++ s.saved.map (·.2.state)).filterMap (fun b =>
    if b.waiters.any (Waiter.onRecord d i) then b.task.map (·.nest) else none)

def execFqrep (a b : Reg) (s : State) : Host.Outcome State Fault Refusal :=
  runCc (do
    needSuper
    irrevocable
      (do
        let s ← get
        let n := (← readX a).toNat
        let v := (← readX b).toNat
        if !bit n 63 || bits n 14 49 ≠ 0 || 1 < v then illegal
        let d := bits n 12 2
        let i := bits n 0 12
        match PMap.find (s.die d).faults i with
        | some r =>
          if r.state ≠ 2 || r.vf ≠ (← curBank).vfId then illegal
          return (d, i, r, v)
        | none => illegal)
      (fun (d, i, r, v) => do
        if v = 0 then modify (fun s => (s.setFault d i { r with state := 3 }).gcFaults)
        else
          let s ← get
          let nests := (s.nestsOn d i).eraseDups
          modify (fun s => (nests.foldl (fun s n => s.terminate n r.code) (s.setFault d i { r with state := 4 })).gcFaults))) s

/-! ### Energy (R204) -/

def State.vfEnergyOf (s : State) (d v : Nat) : Nat := PMap.get 0 (s.die d).vfEnergy v

def execErgr (d a : Reg) (s : State) : Host.Outcome State Fault Refusal :=
  runCc (do
    let s ← get
    let b ← curBank
    let v := (← readX a).toNat
    let core := bit v 12
    let sum := bit v 11
    let die := bits v 9 2
    let i := bits v 0 9
    if bits v 13 51 ≠ 0 then illegal
    if core then
      if b.core.priv = .user || sum || 23 < i then illegal
      writeX d (BitVec.ofNat 64 (s.coreSt (die * 24 + i)).energy)
    else
      if i ≠ b.vfId then illegal
      writeX d (BitVec.ofNat 64
        (if sum then ((List.range 4).map (fun x => s.vfEnergyOf x i)).sum else s.vfEnergyOf die i))) s

end Sys2Proof.Machine
end

