-- ==== Sys2Proof/Machine/Fetch.lean ====
section
/-! DEFINITION. A turn of an agent up to the instruction it runs: which turn is next and what passes before it (R4), bank
activity (R172), events due at an instruction boundary (R178), re-issue (R186), and fetching (R157, R225). -/

namespace Sys2Proof.Machine

/-! ### The next turn -/

/-- The agent with a number below 960: a control core or an engine of a bank (log 1). -/
def agentOf (n : Nat) : Agent :=
  match n % 5 with
  | 0 => .core (n / 5 % 192)
  | 1 => .engine (n / 5 % 192) .mx
  | 2 => .engine (n / 5 % 192) .vx
  | 3 => .engine (n / 5 % 192) .cx
  | _ => .engine (n / 5 % 192) .sx

/-- The turn to come: the schedule's head, or one the spec leaves open (log 1). -/
def State.nextTurn (s : State) : Turn :=
  match s.schedule with
  | t :: _ => t
  | [] => { who := agentOf (Config.turnAgent s.ticks), cycles := Config.turnCycles s.ticks, ns := 0, energy := 0,
            stall := 0, forecast := 1, port := .mailbox }

/-- The bank that a step of the device works for, where it works for one. -/
def eventBank : Instr → Option Nat
  | .preemptionRequest b | .forcedSave b | .pageWalkEnd b _ _ | .faultRecordAlloc b _ | .promiseMissed b _ _ | .waittWake b
  | .dopenWTimeout b | .lrReservationExpiry b | .copyComplete b | .markerRetire b _ | .phaseCommit b | .checkedEntryIssue b _
  | .yarrowMismatch b | .poisonConsume b _ | .fenceSWaitEnd b => some b
  | _ => none

/-- The bank of an agent. -/
def Agent.bid : Agent → Option Nat
  | .core b | .engine b _ => some b
  | .event i => eventBank i

/-- A context is being saved, or resumes now: it is loaded once it is ready and has the core (R172, R190, R202). -/
def State.moves (s : State) (bid : Nat) : Bool :=
  let b := s.bank bid
  b.saving.isSome || (b.resuming && s.ready bid && (s.isActive bid || !s.ready (otherBank bid)))

/-- The bank whose VF a core's energy is charged to: one that is being saved or resumes, else the active one (R202). -/
def State.chargedBank (s : State) (bid : Nat) : Nat :=
  if s.moves bid then bid else if s.moves (otherBank bid) then otherBank bid
  else if s.isActive bid then bid else otherBank bid

/-- The core works for the bank: it runs, drains, or is being saved; else the core idles (R172, R202). -/
def State.working (s : State) (bid : Nat) : Bool :=
  s.ready bid || s.drains bid || (s.bank bid).saving.isSome

/-- Energy drawn is charged to the core, and to the VF of its active bank or of the context that is saved or resumes, but to no VF while the
core idles (R202); a task's own energy is what R199 measures. -/
def State.charge (s : State) (bid energy : Nat) : State :=
  if energy = 0 then s
  else
    let bid := s.chargedBank bid
    let b := s.bank bid
    let idle := !s.working bid
    let s := s.modCore (coreOf bid) (fun c => { c with energy := c.energy + energy })
    match b.task, idle with
    | none, _ | _, true => s
    | some t, false =>
      let s := s.modDie (dieOf bid) (fun d => { d with vfEnergy := PMap.put d.vfEnergy t.vf (PMap.get 0 d.vfEnergy t.vf + energy) })
      s.modBank bid (fun b => { b with task := b.task.map (fun t => { t with energy := t.energy + energy }) })

/-- What passes before the agent moves: cycles, time, energy, stall cycles; the counters are 64 bits wide (R4, R52, R141, R202). Snoops that
are due are answered (R149), and what a checkpoint takes of memory is taken before anything else writes it (R310). -/
def State.pass (s : State) (t : Turn) : State :=
  let s := { s.takeSpans with
    schedule := s.schedule.tail
    cycle := (s.cycle + t.cycles) % 2 ^ 64
    ftime := (s.ftime + t.ns) % 2 ^ 64
    ticks := s.ticks + 1
    uses := 0
    cur := { s.cur with forecast := t.forecast, port := t.port } }.answerSnoops
  match t.who.bid with
  | none => s
  | some bid =>
    let s := s.charge bid t.energy
    if t.stall = 0 then s else s.modBank bid (fun b => { b with sbstall := b.sbstall + t.stall })

/-! ### Activity and re-issue (R172, R186) -/

/-- Make the bank active if it may run and the active bank of its core may not; none where it cannot run now, or one of the two drains
(R172, R179). -/
def State.claim (s : State) (bid : Nat) : Option State :=
  if s.host.stopped || s.host.safe || 192 ≤ bid || !s.ready bid || (s.bank bid).saving.isSome || s.drains bid
    || s.drains (otherBank bid) then none
  else if s.isActive bid then some s
  else if s.ready (otherBank bid) then none
  else some ((s.modBank (otherBank bid) Bank.compareAll).activate bid)

/-- The same for every member of a gang: they run together or not at all (R160, R173). -/
def State.claimAll (s : State) (bid : Nat) : Option State := (s.members (s.handleBank bid)).foldlM (fun s m => s.claim m) s

/-- The control core's waiter re-issues (R186). -/
def State.reissueCore (s : State) (bid : Nat) : State :=
  match (s.bank bid).waiter with
  | none => s
  | some w =>
    let s := s.modBank bid (fun b => { b with waiter := none })
    (s.rewalkVer bid w.ver (s.whoCore bid)).gcFaults

/-! ### Fetching -/

/-- The bytes of the instruction at the pc: two, and two more for a long encoding (R225). -/
def fetchBytes (bid : Nat) : M (List Byte) := do
  let s ← get
  let w := s.whoCore bid
  let pc := (s.bank bid).core.pc.toNat
  let p ← translate w pc accX 0
  let lo ← loadBytes bid none p.pa 2
  if leNat lo % 4 ≠ 3 then return lo
  let va := (pc + 2) % 2 ^ 64
  let pa ← if va % 4096 = 0 then (do return (← translate w va accX 0).pa) else pure (p.pa + 2)
  let hi ← loadBytes bid none pa 2
  return lo ++ hi

/-- The x registers that an instruction reads (R225, R239). -/
def instrReads : Instr → List Reg
  | .xlat a _ | .xlatW a _ | .ldh _ _ a _ | .qpush _ a | .qwm _ a | .waitt a | .prm _ a | .epush _ a _ | .emark _ a | .rdvs _ _ a
  | .nsub _ a | .gang a | .csyncW a | .dopen _ a | .dclose a | .dunbind _ a | .dbset _ a | .dqry _ a | .pwb a | .vcfp _ a
  | .vcrep a | .vcsync a | .fqpop _ a | .ergr _ a | .load _ _ a _ | .lr _ _ _ _ a | .csrAccess _ false _ _ a | .intRI _ _ a _
  | .intShift _ _ a _ | .intUnary _ _ a | .jalr _ a _ => [a]
  | .sdh a _ b _ | .csyncSet a b | .dopenW _ a b | .dbind _ a b | .fqrep a b | .store _ a b _ | .amo _ _ _ _ _ a b | .sc _ _ _ _ a b
  | .sfenceVma a b | .intRR _ _ a b | .branch _ a b _ => [a, b]
  | _ => []

/-- The instruction reads a poisoned register (R351, R352); one that is illegal by its bits and the mode reads none (R222). -/
def State.readsPoison (s : State) (bid : Nat) (i : Instr) : Bool :=
  !s.refuses bid i && (s.bank bid).marks.any (fun m => match m with | .x r => (instrReads i).contains r | _ => false)

/-- What a turn comes to: a state that is already next, or an instruction to run. -/
inductive Ready where
  | done (o : Host.Outcome State Fault Refusal)
  | run (i : Instr) (s : State)

/-- A trap that is due at the boundary is served: the bank drains, and takes it; a `wfi` that waits retires first (R178, R225). -/
def State.takeDue (s : State) (bid : Nat) : State := ((s.modBank bid Bank.endWfi).withdraw bid).beginDrain bid .due

/-- The control core's turn up to its instruction: a save or a drain that has begun goes on first. -/
def State.coreReady (s : State) (bid : Nat) : Ready :=
  if (s.bank bid).saving.isSome && !s.host.stopped && !s.host.safe then .done (.next (s.saveStep bid))
  else if (s.bank bid).draining ≠ .none && !s.host.stopped && !s.host.safe then .done (.next (s.settleDrain bid))
  else match s.claimAll bid with
  | none => .done (.next s)
  | some s =>
    let b := s.bank bid
    if b.loading then .done (.next ((s.reissueCore bid).beginTask bid))
    else if s.handleBank bid ≠ bid then .done (.next s)
    else
      let s := s.reissueCore bid
      if (s.bank bid).due.isSome then .done (.next (s.takeDue bid))
      else
        match (fetchBytes bid).run s with
        | .error e s' => .done (s'.coreStop bid e)
        | .ok bs s' =>
          let s' := { s' with cur := { s'.cur with bid := bid, eng := none, ilen := bs.length, ibits := leNat bs } }
          match decodeScalar bs with
          | .ok (i, _) => if s'.readsPoison bid i then .done (.next (s'.agentPoison bid none none)) else .run i s'
          | .error _ => .done (.next (s'.takeTrap bid 2 (leNat bs)))

/-- The word an engine executes next: the raw word of its entry, or the routine word at its micro-PC; a word beyond the image
is 0x0000 (R157, R223). -/
def State.engineWord (s : State) (bid : Nat) (e : Engine) : Option Half :=
  let g := (s.bank bid).engine e
  if g.mark.isSome then none
  else match g.entry with
    | none => none
    | some c =>
      match g.regs.upc, c.kind with
      | some u, _ => some (((s.coreSt (coreOf bid)).store[engIx e]).getD u 0x0000#16)
      | none, .word w => some w
      | none, _ => none

/-- The engine's registers, or the store word it executes, are poisoned (R351, R352). -/
def State.wordPoison (s : State) (bid : Nat) (e : Engine) : Bool :=
  let g := (s.bank bid).engine e
  (s.bank bid).marks.contains (.regs e)
    || g.regs.upc.any (fun u => (s.coreSt (coreOf bid)).marks.contains ((engIx e).val, u))

/-- The word of an engine has stopped in a drain, and stays so until it is over: it waits on a fault that is not resolved, or is the illegal
word for which the bank drains (R179, R186, R229). -/
def State.stays (s : State) (bid : Nat) (e : Engine) : Bool :=
  s.wordStuck bid e
    || match (s.bank (s.handleBank bid)).draining with | .ends f _ => e = f | _ => false

/-- The turn of one member's engine up to its word. In a drain, the words that have issued go on, whether or not the bank is active (R179). -/
def State.engineReady (s : State) (bid : Nat) (e : Engine) : Ready :=
  if (s.bank bid).task.isNone || (s.bank bid).loading
    || (if s.drains bid then s.stays bid e else !s.isActive bid || !s.ready bid) then .done (.next s)
  else
    let s := s.reissueWord bid e
    match s.engineWord bid e with
    | none => .done (.next s)
    | some w =>
      if s.wordPoison bid e then .done (.next (s.agentPoison bid (some e) none))
      else
        let s := { s with cur := { s.cur with bid := bid, eng := some e, ilen := 2, ibits := w.toNat } }
        match decodeWord e w with
        | .ok i => .run i s
        | .error _ => .done (.next (s.faultEnd bid e 0x10))

/-- The banks whose engines execute in lock step at the turn of a bank's engine: none at a follower's turn (R173). In a drain the bank need not
be the active one (R179). -/
def State.engineTurn (s : State) (bid : Nat) : Option (State × List Nat) :=
  if s.handleBank bid ≠ bid then none
  else if s.drains bid then (if s.host.stopped || s.host.safe then none else some (s, s.members bid))
  else (s.claimAll bid).map (fun s => (s, s.members bid))

/-- In a drain, an engine whose turn brought nothing on has tried in vain; one that went on may have brought what the others wait for
(R179). -/
def State.noteTurn (s : State) (bid : Nat) (e : Engine) (moved : Bool) : State :=
  if s.drains bid then
    (s.members bid).foldl (fun s m => s.modBank m (fun b =>
      if moved then b.clearWaits else b.modEngine e (fun g => { g with waited := true }))) s
  else s

/-! ### Placing an instruction where the next step fetches it -/

/-- The page and the bank in which a placed instruction runs: core 0, bank 0, in the DRAM of die 0 (log 5). -/
def placedPage : Nat := 0x200000

def placedLeaf : Leaf :=
  { Leaf.none with va := placedPage, pa := placedPage, level := 1, r := true, w := true, x := true, u := true, dirty := true }

def placedTask : Task :=
  { nest := 1, k := 0, j := 0, vf := 0, asid := 0, base := 0, level := 0, cobank := false, group0 := 0, gsize := 1,
    est := 0, energy := 0, energy0 := 0, started := 0, ended := false }

def turnOf (a : Agent) : Turn := { who := a, cycles := 1, ns := 0, energy := 0, stall := 0, forecast := 1, port := .mailbox }

/-- A control-core instruction at the pc of bank 0, whose turn is next. -/
def State.placeScalar (s : State) (bytes : List Byte) : State :=
  let b := s.bank 0
  let b := { b with
    task := some (b.task.getD placedTask)
    core := { b.core with pc := BitVec.ofNat 64 placedPage } }
  let s := s.setBank 0 (b.fullCkpt b.phase (BitVec.ofNat 64 placedPage))
  let s := s.modCore 0 (fun c => { c with active := 0, tlb := [⟨b.vfId, b.asidOf, { placedLeaf with u := b.core.priv = .user }⟩] })
  { s with mem := s.mem.write placedPage bytes, schedule := turnOf (.core 0) :: s.schedule }

/-- A routine word of an engine of bank 0, at word 0 of its store, whose turn is next. -/
def State.placeWord (s : State) (e : Engine) (w : Half) : State :=
  let b := s.bank 0
  let b := ({ b with task := some (b.task.getD placedTask) }).modEngine e (fun g =>
    { g with entry := some ⟨.call 0, b.curVers, false⟩, stopped := none, mark := none, regs := { g.regs with upc := some 0 } })
  let s := s.setBank 0 b
  let s := s.modCore 0 (fun c => { c with active := 0, store := c.store.set (engIx e) [w] })
  { s with schedule := turnOf (.engine 0 e) :: s.schedule }

end Sys2Proof.Machine
end

