-- ==== Sys2Proof/Machine/Copy.lean ====
section
/-! DEFINITION. The copy words (R271 to R283): their checks, issue, promise and requests; and the completion of an issued word
(R64, R66, R70). -/

namespace Sys2Proof.Machine

/-! ### Operands (R271, R275) -/

/-- A source or destination kind of a modifier (R231). -/
def kindOf (k : BitVec 2) : OpKind :=
  if k = 0#2 then .handle else if k = 1#2 then .loc else if k = 2#2 then .slice else .ring

/-- An extent of an operand: its kind and address, where the extent begins behind the address, and its length. -/
structure Extent where
  kind : OpKind
  addr : Word
  first : Nat
  len : Nat

/-- The form of an operand, and for a local one that its extent lies in one range (R48, R49, R271). -/
def Extent.ok (x : Extent) : Bool :=
  match x.kind with
  | .loc =>
    let a := x.addr.toNat
    decide (a < 2 ^ 26) && localOk false a 0 && (x.len = 0 || localOk false (a + x.first) x.len)
  | .slice => decide (x.addr.toNat < 2 ^ 29) && bits x.addr.toNat 24 5 < 24 && bits x.addr.toNat 22 2 = 0
  | _ => true

/-- A slice operand names an offset beyond a staging size, or an extent that reaches it (R54, R272). -/
def Extent.pastStaging (x : Extent) (size : Nat) : Bool :=
  x.kind = .slice && (size ≤ bits x.addr.toNat 0 22 || (x.len ≠ 0 && size < bits x.addr.toNat 0 22 + x.first + x.len))

/-- Bytes from the start of the first row to the end of the last. -/
def rowSpan (rows stride rowb : Nat) : Nat := if rows = 0 || rowb = 0 then 0 else (rows - 1) * stride + rowb

/-- What a copy word asks for, once its own limits hold. -/
structure CopyPlan where
  extents : List Extent
  /-- bytes moved into one ring slot -/
  slot : Nat
  /-- the word moves no byte -/
  empty : Bool
  /-- requests, for a destination, or for the bases of the ring slots in order -/
  reqs : (Nat → Word) → List Req

/-- Requests that move `len` bytes, split at the destination's boundaries (R274). -/
def moveRow (sk dk : OpKind) (src dst : Word) (len : Nat) : List Req :=
  (pieces dst.toNat len).map (fun p => .move (sk.add src p.1) (dk.add dst p.1) p.2)

/-- Rows of `rowb` bytes. -/
def moveRows (sk dk : OpKind) (src : Nat → Word) (dst : Nat → Word) (rows rowb : Nat) : List Req :=
  ((List.range rows).map (fun r => moveRow sk dk (src r) (dst r) rowb)).flatten

/-- An operand address that holds for every slot. -/
def fixedAt (a : Word) : Nat → Word := fun _ => a

/-! ### Issue (R65, R71, R272) -/

/-- A word of a ring waits for a slot, also behind an `rfeed` that has slots to come (R272, R276). -/
def Bank.ringFull (b : Bank) (g : Nat) : Bool :=
  let r := (b.engine .mx).regs.rings[Fin.ofNat 4 g]
  r.slots ≤ r.filled + r.reserved || b.flights.any (fun f => f.reqs.contains (.slotWait g))

/-- Local address of slot `i` from the first slot that is neither filled nor reserved (R276, R314). -/
def Ring.freeSlot (r : Ring) (i : Nat) : Word :=
  BitVec.ofNat 64 ((r.base + (r.tail + r.reserved + i) % (max r.slots 1) * r.size) * 256)

/-- A promise or a deadline decides how the entry of a word begins (R64, R71, R272). -/
def firstState (empty : Bool) (promise deadline : Nat) : PromState :=
  if deadline ≠ 0 && deadline < promise then .fallback else if empty then .complete else .promised

/-- A copy data word reaches execution: its checks, its waits, then its number, promise and requests (R272). -/
def issueCopy (src dst : OpKind) (ring : Nat) (pol pops : Nat) (persist : Bool)
    (plan : List Word → M CopyPlan) (dstOf : List Word → Word) : M Flow := do
  let ops ← operands .cx pops 0
  let pl ← plan ops
  if !pl.extents.all Extent.ok then illegalWord
  let s ← get
  let b := s.bank s.cur.bid
  let r := (b.engine .mx).regs.rings[Fin.ofNat 4 ring]
  if dst = .ring && (r.slots = 0 || 256 * r.size < pl.slot) then illegalWord
  match pl.extents.find? (·.pastStaging (s.stagingSize (dieOf s.cur.bid))) with
  | some x => fail (.access 9 x.addr.toNat 0 0)
  | none => pure ()
  if dst = .ring && !pl.empty && b.ringFull ring then waitMore
  let n := b.nextWord
  match PMap.find b.proms (n % 64) with
  | some p => if p.state = .promised || p.state = .waiting then waitMore
  | none => pure ()
  let g := b.engine .cx
  let promise := s.promise pl.empty
  let st := firstState pl.empty promise g.regs.deadline.toNat
  restack .cx pops []
  modRegs .cx (fun r => { r with deadline := 0 })
  modCur (fun b => { b with
    nextWord := n + 1
    fbcnt := if st = .fallback then b.fbcnt + 1 else b.fbcnt
    proms := PMap.put b.proms (n % 64) { n := n, state := st, time := promise, read := false, trapped := false } })
  if st = .promised then
    let isRing : Bool := dst = .ring
    let reqs := pl.reqs (if isRing then r.freeSlot else fixedAt (dstOf ops)) ++ (if isRing then [.slotDone ring] else [])
    let f : Flight :=
      { n := n, srcKind := src, dstKind := if isRing then .loc else dst, pol := pol, reqs := reqs, done := 0,
        persist := persist, stores := [], lines := [], vers := (g.entry.map (·.vers)).getD [], phase := g.phase,
        tick := s.ticks, waiter := none }
    modCur (fun b =>
      let b := { b with flights := b.flights ++ [f] }
      if isRing then b.modRing ring (fun r => { r with reserved := r.reserved + 1 }) else b)
  return .next

/-- The operand at a place, top first. -/
def opAt (ops : List Word) (i : Nat) : Word := ops.getD i 0
def natAt (ops : List Word) (i : Nat) : Nat := (opAt ops i).toNat

abbrev big : Nat := 2 ^ 32
abbrev rowLimit : Nat := 65535

/-- The kind under which a destination's requests address it: ring slots are local (R276). -/
def placeKind (d : OpKind) : OpKind := if d = .ring then .loc else d

/-! ### The moving words (R275 to R277) -/

/-- `cpy`, and `cpyd`: len, src, and dst unless it is a ring. -/
def planCpy (sk dk : OpKind) (ops : List Word) : M CopyPlan := do
  let len := natAt ops 0
  if big ≤ len then illegalWord
  return { extents := ⟨sk, opAt ops 1, 0, len⟩ :: (if dk = .ring then [] else [⟨dk, opAt ops 2, 0, len⟩])
           slot := len
           empty := len = 0
           reqs := fun d => moveRow sk (placeKind dk) (opAt ops 1) (d 0) len }

def execCpy (p : BitVec 3) (src d g : BitVec 2) (s : State) : Host.Outcome State Fault Refusal :=
  let sk := kindOf src
  let dk := kindOf d
  runWord (fun _ => issueCopy sk dk g.toNat p.toNat (if dk = .ring then 2 else 3) false (planCpy sk dk) (opAt · 2)) s

def execCpyd (p : BitVec 3) (src d : BitVec 2) (s : State) : Host.Outcome State Fault Refusal :=
  let sk := kindOf src
  let dk := kindOf d
  runWord (fun _ => issueCopy sk dk 0 p.toNat 3 true (planCpy sk dk) (opAt · 2)) s

/-- `cpy2`: rows, rowb, sstr, src, and dstr, dst unless it is a ring. -/
def planCpy2 (sk dk : OpKind) (ops : List Word) : M CopyPlan := do
  let rows := natAt ops 0
  let rowb := natAt ops 1
  let sstr := natAt ops 2
  let src := opAt ops 3
  let dstr := if dk = .ring then rowb else natAt ops 4
  if rowLimit < rows || rowLimit < rowb || big ≤ sstr || big ≤ dstr then illegalWord
  return { extents := ⟨sk, src, 0, rowSpan rows sstr rowb⟩
             :: (if dk = .ring then [] else [⟨dk, opAt ops 5, 0, rowSpan rows dstr rowb⟩])
           slot := rows * rowb
           empty := rows = 0 || rowb = 0
           reqs := fun d => moveRows sk (placeKind dk) (fun r => sk.add src (r * sstr))
             (fun r => (placeKind dk).add (d 0) (r * dstr)) rows rowb }

def execCpy2 (p : BitVec 3) (src d g : BitVec 2) (s : State) : Host.Outcome State Fault Refusal :=
  let sk := kindOf src
  let dk := kindOf d
  runWord (fun _ => issueCopy sk dk g.toNat p.toNat (if dk = .ring then 4 else 6) false (planCpy2 sk dk) (opAt · 5)) s

/-- The index list of `gath` or `scat`, read in full before the first request, once the earlier words that may write it are complete
(R126, R277); a word that falls back reads nothing (R71). -/
def indexList (rows rowb : Nat) (idx : Word) : M (List Nat) := do
  if !(Extent.ok ⟨.loc, idx, 0, 4 * rows⟩) || idx.toNat % 4 ≠ 0 then illegalWord
  let s ← get
  let bid := s.cur.bid
  let g ← curEng .cx
  if rows = 0 || rowb = 0 || firstState false (s.promise false) g.regs.deadline.toNat = .fallback then return []
  let list := s.opSpans bid [] .loc idx (4 * rows)
  if (s.bank bid).flights.any (fun f => f.phase ≠ g.phase || clash (list, []) (s.flightSpans bid f)) then waitMore
  let bs ← loadLocal bid .cx idx.toNat (4 * rows)
  return (List.range rows).map (fun r => leNat ((bs.drop (4 * r)).take 4))

/-- The extent of scattered rows: from the lowest row to the end of the highest. -/
def rowsExtent (k : OpKind) (a : Word) (stride rowb : Nat) (ix : List Nat) : Extent :=
  match ix with
  | [] => ⟨k, a, 0, 0⟩
  | i :: is =>
    let lo := is.foldl min i
    let hi := is.foldl max i
    ⟨k, a, lo * stride, (hi - lo) * stride + rowb⟩

/-- `gath`: rows, rowb, idx, sstr, src, and dst unless it is a ring. -/
def planGath (sk dk : OpKind) (ops : List Word) : M CopyPlan := do
  let rows := natAt ops 0
  let rowb := natAt ops 1
  let sstr := natAt ops 3
  let src := opAt ops 4
  if rowLimit < rows || rowLimit < rowb || big ≤ sstr then illegalWord
  let ix ← indexList rows rowb (opAt ops 2)
  return { extents := rowsExtent sk src sstr rowb ix
             :: (if dk = .ring then [] else [⟨dk, opAt ops 5, 0, rows * rowb⟩])
           slot := rows * rowb
           empty := rows = 0 || rowb = 0
           reqs := fun d => moveRows sk (placeKind dk) (fun r => sk.add src (ix.getD r 0 * sstr))
             (fun r => (placeKind dk).add (d 0) (r * rowb)) rows rowb }

def execGath (p : BitVec 3) (src d g : BitVec 2) (s : State) : Host.Outcome State Fault Refusal :=
  let sk := kindOf src
  let dk := kindOf d
  runWord (fun _ => issueCopy sk dk g.toNat p.toNat (if dk = .ring then 5 else 6) false (planGath sk dk) (opAt · 5)) s

/-- `scat`: rows, rowb, idx, src, dstr, dst. -/
def planScat (sk dk : OpKind) (ops : List Word) : M CopyPlan := do
  let rows := natAt ops 0
  let rowb := natAt ops 1
  let src := opAt ops 3
  let dstr := natAt ops 4
  if rowLimit < rows || rowLimit < rowb || big ≤ dstr then illegalWord
  let ix ← indexList rows rowb (opAt ops 2)
  return { extents := [⟨sk, src, 0, rows * rowb⟩]
           slot := 0
           empty := rows = 0 || rowb = 0
           reqs := fun d => moveRows sk dk (fun r => sk.add src (r * rowb)) (fun r => dk.add (d 0) (ix.getD r 0 * dstr))
             rows rowb }

def execScat (p : BitVec 3) (src d : BitVec 2) (s : State) : Host.Outcome State Fault Refusal :=
  runWord (fun _ =>
    issueCopy (kindOf src) (kindOf d) 0 p.toNat 6 false (planScat (kindOf src) (kindOf d)) (opAt · 5)) s

/-- `rfeed`: slots, step, rows, rowb, sstr, src; each slot after the first waits for a free one (R277). -/
def planRfeed (sk : OpKind) (g : Nat) (ops : List Word) : M CopyPlan := do
  let slots := natAt ops 0
  let step := natAt ops 1
  let rows := natAt ops 2
  let rowb := natAt ops 3
  let sstr := natAt ops 4
  let src := opAt ops 5
  if slots = 0 || 255 < slots || big ≤ step || rowLimit < rows || rowLimit < rowb || big ≤ sstr then illegalWord
  let one := rowSpan rows sstr rowb
  let ofSlot := fun (d : Nat → Word) (i : Nat) =>
    (if i = 0 then [] else [.slotDone g, .slotWait g]) ++
      moveRows sk .loc (fun r => sk.add src (i * step + r * sstr)) (fun r => OpKind.loc.add (d i) (r * rowb)) rows rowb
  return { extents := [⟨sk, src, 0, if one = 0 then 0 else (slots - 1) * step + one⟩]
           slot := rows * rowb
           empty := rows = 0 || rowb = 0
           reqs := fun d => ((List.range slots).map (ofSlot d)).flatten }

def execRfeed (p : BitVec 3) (src g : BitVec 2) (s : State) : Host.Outcome State Fault Refusal :=
  runWord (fun _ =>
    issueCopy (kindOf src) .ring g.toNat p.toNat 6 false (planRfeed (kindOf src) g.toNat) (opAt · 6)) s

/-! ### Packed tensors, guards, prefetch, fill (R278 to R282) -/

/-- `cpyz`: ng, j0, src, pdst, sdst (R278). -/
def planCpyz (dk : OpKind) (ops : List Word) : M CopyPlan := do
  let ng := natAt ops 0
  let j0 := natAt ops 1
  let src := opAt ops 2
  let pdst := opAt ops 3
  let sdst := opAt ops 4
  if big ≤ ng || big ≤ j0 then illegalWord
  return { extents := [⟨dk, pdst, 256 * j0, 256 * ng⟩, ⟨dk, sdst, 128 * j0, 128 * ng⟩]
           slot := 0
           empty := ng = 0
           reqs := fun _ => .header (j0 + ng) src :: (List.range ng).map (fun i => .group (j0 + i) src pdst sdst) }

def execCpyz (p : BitVec 3) (d : BitVec 2) (s : State) : Host.Outcome State Fault Refusal :=
  runWord (fun _ => issueCopy .handle (kindOf d) 0 p.toNat 5 false (planCpyz (kindOf d)) (opAt · 3)) s

/-- `pfch`: len, src (R281). -/
def planPfch (ops : List Word) : M CopyPlan := do
  let len := natAt ops 0
  let src := opAt ops 1
  if big ≤ len then illegalWord
  return { extents := []
           slot := 0
           empty := len = 0
           reqs := fun _ => (pieces src.toNat len).map (fun q => .place (OpKind.handle.add src q.1) q.2) }

def execPfch (p : BitVec 3) (src : BitVec 2) (s : State) : Host.Outcome State Fault Refusal :=
  runWord (fun _ => issueCopy (kindOf src) .handle 0 p.toNat 2 false planPfch (opAt · 1)) s

/-- The handle version that a word of the copy engine waits for, once it is valid (R39, R279). -/
def validVersion (bid : Nat) (p : BitVec 4) (id : Option Nat) (off acc : Nat) : M HVer := do
  let s ← get
  let hb := s.handleBank bid
  versionPage bid 3 (some .cx) (s.whoHandle bid (some .cx)) hb p (s.useVer hb p id) off 8 acc

/-- A guard that R279 calls bad. -/
def guardBad (v : HVer) (guard dst : Word) (len : Nat) : Bool :=
  haddrPh guard ≠ haddrPh dst || haddrOff guard % 8 ≠ 0 || pageSize v.leaf.level < haddrOff guard + 8
    || pageSize v.leaf.level < haddrOff dst + len

/-- `cpyg`: len, g, guard, src, dst; the guard's handle is waited for, and faults, before the limits are tested (R279; log 119). -/
def planCpyg (sk : OpKind) (ops : List Word) : M CopyPlan := do
  let len := natAt ops 0
  let guard := opAt ops 2
  let src := opAt ops 3
  let dst := opAt ops 4
  let bid ← curBid
  let vers := ((← curEng .cx).entry.map (·.vers)).getD []
  let v ← validVersion bid (haddrPh guard) (vers[(haddrPh guard).toNat]?) (haddrOff guard) accW
  if 4096 < len || guardBad v guard dst len then illegalWord
  return { extents := [⟨sk, src, 0, len⟩]
           slot := 0
           empty := len = 0
           reqs := fun d => [.guarded len ((opAt ops 1).setWidth 16) guard src (d 0)] }

def execCpyg (p : BitVec 3) (src d : BitVec 2) (s : State) : Host.Outcome State Fault Refusal :=
  runWord (fun _ => issueCopy (kindOf src) (kindOf d) 0 p.toNat 5 false (planCpyg (kindOf src)) (opAt · 4)) s

/-- The bytes of one element of a `fill`, in the current format; for int4 one byte with the element in both halves (R282). -/
def fillUnit (fmt : Nat) (v : Word) : List Byte :=
  if fmt = fInt4 then leBytes 1 (bits v.toNat 0 4 * 17) else leBytes (codeBits fmt / 8) v.toNat

/-- `fill`: count, value, dst (R282). -/
def planFill (dk : OpKind) (ops : List Word) : M CopyPlan := do
  let count := natAt ops 0
  let fmt := (← curEng .cx).regs.fmt
  if big ≤ count || (fmt = fInt4 && count % 2 = 1) then illegalWord
  let unit := fillUnit fmt (opAt ops 1)
  let len := if fmt = fInt4 then count / 2 else count * unit.length
  let byteAt := fun (i : Nat) => unit.getD (i % unit.length) 0
  return { extents := [⟨dk, opAt ops 2, 0, len⟩]
           slot := 0
           empty := count = 0
           reqs := fun d => (pieces (d 0).toNat len).map (fun q =>
             .put (dk.add (d 0) q.1) ((List.range q.2).map (fun i => byteAt (q.1 + i)))) }

def execFill (p : BitVec 3) (d : BitVec 2) (s : State) : Host.Outcome State Fault Refusal :=
  runWord (fun _ => issueCopy .handle (kindOf d) 0 p.toNat 3 false (planFill (kindOf d)) (opAt · 2)) s

/-- `dln`: the pending deadline of the bank's next copy data word (R273). -/
def execDln (s : State) : Host.Outcome State Fault Refusal :=
  runWord (fun e => do
    match ← operands e 1 0 with
    | [v] =>
      restack e 1 []
      modRegs e (fun r => { r with deadline := v })
      return .next
    | _ => illegalWord) s

/-! ### Completion (R64, R66, R70, R177) -/

/-- What a stop of an issued copy word makes of the bank: a fault drains it and it may switch (R177). -/
def State.copyStop (s : State) (bid n : Nat) (x : Stop) : State :=
  match x with
  | .access c _ _ _ => if c ≤ 6 then (s.flightStop bid n x).giveWay bid else s.flightStop bid n x
  | x => s.flightStop bid n x

/-- COPY_COMPLETE: the first issued copy word of a bank that can go on performs its requests and completes, or stops (R64, R126,
R177). -/
def execCopyComplete (bank : Nat) (s : State) : Host.Outcome State Fault Refusal :=
  .next (match s.claimAll bank with
    | none => s
    | some s =>
      let s := (s.bank bank).flights.foldl (fun s f => s.reissueFlight bank f) s
      match s.nextFlight bank [] with
      | none => s
      | some n =>
        match (finishFlight bank n).run s with
        | .ok _ s' => s'
        | .error x s' => s'.copyStop bank n x)

end Sys2Proof.Machine
end

