-- ==== Sys2Proof/Machine/Directory.lean ====
section
/-! DEFINITION. The tensor directory: objects, binds, opens, waiters and reclaim records (R89 to R105). -/

namespace Sys2Proof.Machine

/-! ### Names, slots, handles (R90 to R93) -/

/-- Home die of a name (R90). -/
def homeDie (vf : Nat) (name : Word) : Nat :=
  let n := name.toNat
  ((bits n 48 16) ^^^ (bits n 32 16) ^^^ (bits n 16 16) ^^^ (bits n 0 16) ^^^ vf) % 4

def slotsPerDie : Nat := 16384

def State.slot (s : State) (i : Nat) : Slot := PMap.get Slot.init s.slots i
def State.setSlot (s : State) (i : Nat) (v : Slot) : State := { s with slots := PMap.put s.slots i v }

/-- The object bound to a name of a VF: slot index (R91, R97). -/
def State.boundObject (s : State) (vf : Nat) (name : Word) : Option Nat :=
  (s.slots.find? (fun e => e.2.used && e.2.bound && e.2.vf = vf && e.2.name = name)).map (·.1)

/-- Handle of the object in a slot (R92). -/
def State.handleOf (s : State) (i : Nat) : Nat := i / slotsPerDie * 2 ^ 30 + i % slotsPerDie * 2 ^ 16 + (s.slot i).inc

/-- Free slots of a die, and the lowest of them (R90, R91). -/
def State.freeSlots (s : State) (d : Nat) : Nat :=
  slotsPerDie - (s.slots.filter (fun e => e.1 / slotsPerDie = d && e.2.used)).length

def State.lowestFree (s : State) (d : Nat) : Option Nat :=
  findFrom (fun i => !(s.slot i).used) (d * slotsPerDie) slotsPerDie

def State.vfSlots (s : State) (vf : Nat) : Nat := (s.slots.filter (fun e => e.2.used && e.2.vf = vf)).length

/-- Binding generation of a name (R93). -/
def State.genOf (s : State) (vf : Nat) (name : Word) : Nat :=
  ((s.nameGen.find? (fun e => e.1 = (vf, name))).map (·.2)).getD 0

def State.setGen (s : State) (vf : Nat) (name : Word) (g : Nat) : State :=
  { s with nameGen := ((vf, name), g) :: s.nameGen.filter (fun e => e.1 ≠ (vf, name)) }

/-- Freeing a slot advances its incarnation, which skips 0 (R91). -/
def State.freeSlot (s : State) (i : Nat) : State :=
  let inc := ((s.slot i).inc + 1) % 65536
  s.setSlot i { Slot.init with inc := if inc = 0 then 1 else inc }

/-! ### Reclaim records (R102, R103) -/

/-- Post the reclaim record of an object with bound = 0 and opens = 0: the slot is freed at once, with its record, or held. Head less
tail is taken modulo 2^64, so a tail that software has put past head holds the record (R103; log 62). The unit takes the bytes of a poisoned
line of the header as they stand: R352 speaks of banks only (log 105). -/
def State.postRecord (s : State) (i : Nat) : State :=
  let o := s.slot i
  let rq := blockWord o.desc 5
  let d := i / slotsPerDie
  let asid := bits (blockWord o.desc 2) 48 16
  let hold := fun (s : State) => s.setSlot i { o with held := true }
  if rq = 0 then s.freeSlot i
  else match s.unitPlace d o.vf asid rq 64 accR with
    | .error _ => hold s
    | .ok (hp, s) =>
      let h := s.mem.read hp.pa 64
      let c := bits (blockWord h 0) 0 5
      let head := blockWord h 1
      let tail := blockWord h 2
      if c < 4 || 16 < c || bits (blockWord h 0) 5 59 ≠ 0 || (h.drop 24).any (· ≠ 0#8)
        || 2 ^ c ≤ (head + 2 ^ 64 - tail) % 2 ^ 64 then hold s
      else match s.unitPlace d o.vf asid (rq + 64 + 32 * (head % 2 ^ c)) 32 accW with
        | .error _ => hold s
        | .ok (rp, s) =>
          match s.unitPlace d o.vf asid (rq + 8) 8 accW with
          | .error _ => hold s
          | .ok (np, s) =>
            let record := leBytes 8 o.name.toNat ++ leBytes 8 (blockWord o.desc 6) ++ leBytes 8 (blockWord o.desc 0)
              ++ leBytes 8 o.gen
            ((s.unitStore d o.vf rp record).unitStore d o.vf np (leBytes 8 (head + 1))).freeSlot i

/-- Reclamation begins as soon as bound = 0 and opens = 0 (R100). -/
def State.reclaimIfDone (s : State) (i : Nat) : State :=
  let o := s.slot i
  if o.used && !o.bound && o.opens = 0 && !o.held then s.postRecord i else s

/-- RECLAIM_RETRY: a held record is tried again (R103). -/
def execReclaimRetry (slot : Nat) (s : State) : Host.Outcome State Fault Refusal :=
  .next (if (s.slot slot).used && (s.slot slot).held then s.postRecord slot else s)

/-! ### Binding (R98) -/

/-- A bad descriptor (R94). -/
def badDesc (d : List Byte) : Bool :=
  let w := blockWord d
  let rank := bits (w 2) 8 4
  let ext := fun i => bits (w (3 + i / 2)) (32 * (i % 2)) 32
  bits (w 2) 12 36 ≠ 0 || w 7 ≠ 0 || 4 < rank || (List.range 4).any (fun i => rank ≤ i && ext i ≠ 0)
    || !canonical (w 0) || w 5 % 64 ≠ 0

/-- An entry of a bind: a name, and the descriptor to bind it to; none: unbind. -/
abbrev BindEntry := Word × Option (List Byte)

/-- An open of the object in a slot (R97). -/
def State.openSlot (s : State) (i : Nat) : State := s.setSlot i { s.slot i with opens := (s.slot i).opens + 1 }

/-- A `dopen.w` that has waited retires with a value in rd, and the next phase begins behind it (R99, R259). -/
def State.endDopenW (s : State) (w : DirWaiter) (v : Nat) : State :=
  let s := s.modBank w.bid (fun b => ((b.writeX w.rd (BitVec.ofNat 64 v)).setPc (b.core.pc + 4#64)).retire)
  s.beginPhase w.bid (s.bank w.bid).core.pc

/-- The counter has reached the deadline of a registration (R99). -/
def State.expired (s : State) (w : DirWaiter) : Bool := w.deadline ≠ 0 && w.deadline ≤ s.cycle

/-- A waiter of a name that has become bound is opened on the object: its open block receives the descriptor, rd the handle, and
its `dopen.w` retires. The block is translated again; where that stops, the registration is withdrawn and the bank executes its
`dopen.w` again (R44, R97, R99; log 71). -/
def State.wake (s : State) (i : Nat) (w : DirWaiter) : State :=
  let s := { s with dirWaiters := s.dirWaiters.filter (·.bid ≠ w.bid) }
  match (translate (s.whoCore w.bid) w.va accW 0).run s with
  | .error _ s' => s'.modBank w.bid (fun b => { b with wait := .none })
  | .ok p s' =>
    let s := (s'.openSlot i).storeAt w.bid none { p with pa := p.pa + 64 } (s'.slot i).desc
    s.endDopenW w (s.handleOf i)

/-- One entry of the atomic step: the old object first, so that a slot it frees may take the new one (R91, R98; log 61). -/
def State.bindEntry (s : State) (vf g : Nat) (e : BindEntry) : State :=
  let s := match s.boundObject vf e.1 with
    | some i => (s.setSlot i { s.slot i with bound := false }).reclaimIfDone i
    | none => s
  let s := match e.2 with
    | none => s
    | some d =>
      match s.lowestFree (homeDie vf e.1) with
      | none => s
      | some i =>
        s.setSlot i { s.slot i with used := true, name := e.1, vf := vf, desc := d, bound := true, opens := 0, gen := g, held := false }
  s.setGen vf e.1 g

/-- The waiters of a name whose deadline has not come are served by the bind, in the order of their registration (R99). -/
def State.serveWaiters (s : State) (vf : Nat) (name : Word) : State :=
  match s.boundObject vf name with
  | none => s
  | some i => (s.dirWaiters.filter (fun w => w.vf = vf && w.name = name && !s.expired w)).foldl (fun s w => s.wake i w) s

/-- The atomic step of `dbind`, `dunbind` and `dbset`: the result for rd, and the state; the generation counts in 63 bits (R93, R95,
R98; log 66). -/
def State.bindStep (s : State) (vf : Nat) (es : List BindEntry) : Nat × State :=
  let news := es.filter (·.2.isSome)
  if es.any (fun e => e.2.isNone && (s.boundObject vf e.1).isNone) then (2 ^ 63 + 1, s)
  else if es.any (fun e => match e.2 with | some d => badDesc d | none => false) then (2 ^ 63 + 3, s)
  else if (List.range 4).any (fun d => s.freeSlots d < (news.filter (fun e => homeDie vf e.1 = d)).length)
    || (s.vf vf).quota < s.vfSlots vf + news.length && news.length ≠ 0 then (2 ^ 63 + 2, s)
  else
    let g := ((s.vf vf).gen + 1) % 2 ^ 63
    let s := s.setVf vf { s.vf vf with gen := g }
    let s := es.foldl (fun s e => s.bindEntry vf g e) s
    (g, es.foldl (fun s e => s.serveWaiters vf e.1) s)

def bindForm (d : Reg) (checks : M (Option (List BindEntry))) : M Unit :=
  irrevocable checks (fun es => do
    let s ← get
    match es with
    | none => writeX d (BitVec.ofNat 64 (2 ^ 63 + 4))
    | some es =>
      let r := s.bindStep (← curBank).vfId es
      set r.2
      writeX d (BitVec.ofNat 64 r.1))

/-- A descriptor read as loads of the bank, 64-byte aligned (R96). -/
def loadDesc (va : Nat) : M (List Byte) := do
  let s ← get
  if va % 64 ≠ 0 then trap 4 va
  loadBlock (s.whoCore s.cur.bid) va 64

/-- `dbind`: one entry; a descriptor address of 0 reads nothing and unbinds (R98). -/
def execDbind (d a b : Reg) (s : State) : Host.Outcome State Fault Refusal :=
  runCc (bindForm d (do
    let name ← readX a
    let va := (← readX b).toNat
    if va = 0 then return some [(name, none)]
    return some [(name, some (← loadDesc va))])) s

def execDunbind (d a : Reg) (s : State) : Host.Outcome State Fault Refusal :=
  runCc (bindForm d (do return some [(← readX a, none)])) s

/-- The entries of a bind list; none: BADLIST (R98). -/
def loadBindList (list : Nat) : M (Option (List BindEntry)) := do
  let s ← get
  let w := s.whoCore s.cur.bid
  if list % 16 ≠ 0 then trap 4 list
  let h ← loadBlock w list 16
  let n := bits (blockWord h 0) 0 6
  if n = 0 || 32 < n || bits (blockWord h 0) 6 58 ≠ 0 || blockWord h 1 ≠ 0 then return none
  let es ← (List.range n).mapM (fun i => do
    let e ← loadBlock w (list + 16 + 16 * i) 16
    return (blockWord e 0, blockWord e 1))
  if !decide ((es.map (·.1)).Nodup) then return none
  let out ← es.mapM (fun e => do
    if e.2 = 0 then return ((BitVec.ofNat 64 e.1, none) : BindEntry)
    return (BitVec.ofNat 64 e.1, some (← loadDesc e.2)))
  return some out

def execDbset (d a : Reg) (s : State) : Host.Outcome State Fault Refusal :=
  runCc (bindForm d (do loadBindList (← readX a).toNat)) s

/-! ### Opening and closing (R97, R99 to R101) -/

/-- The open block: aligned, the whole block translated for write, and the name in its first doubleword (R96, R262). -/
def openBlock (a : Reg) : M (Place × Word) := do
  let s ← get
  let va := (← readX a).toNat
  if va % 128 ≠ 0 then trap 6 va
  let p ← translate (s.whoCore s.cur.bid) va accW 0
  let bs ← loadBytes s.cur.bid none p.pa 8
  return (p, BitVec.ofNat 64 (leNat bs))

/-- The effect of an open: UNBOUND, LIMIT, or the handle with the descriptor in the block. A failure writes all of 2^63 + status, as
R95 and the pseudocode of R97 have it (log 60). -/
def openEffect (d : Reg) (p : Place) (name : Word) (unbound : Nat) : M Unit := do
  let s ← get
  let bid := s.cur.bid
  match s.boundObject (s.bank bid).vfId name with
  | none => writeX d (BitVec.ofNat 64 (2 ^ 63 + unbound))
  | some i =>
    if (s.slot i).opens = 2 ^ 32 - 1 then writeX d (BitVec.ofNat 64 (2 ^ 63 + 5))
    else
      modify (fun s => (s.openSlot i).storeAt bid none { p with pa := p.pa + 64 } (s.slot i).desc)
      writeX d (BitVec.ofNat 64 (s.handleOf i))

def execDopen (d a : Reg) (s : State) : Host.Outcome State Fault Refusal :=
  runCc (irrevocable (openBlock a) (fun (p, name) => openEffect d p name 1)) s

/-- `dopen.w`: on an unbound name it registers and waits, unless its deadline has been reached; a registered one only waits for its
bind or its deadline (R97, R99, R262). -/
def execDopenW (d a b : Reg) (s : State) : Host.Outcome State Fault Refusal :=
  match s.dirWaiters.find? (·.bid = s.cur.bid) with
  | some w => .next (if s.expired w then (s.withdraw w.bid).endDopenW w (2 ^ 63 + 6) else s)
  | none =>
    runCc (irrevocable
      (do
        let (p, name) ← openBlock a
        let s ← get
        let bid := s.cur.bid
        let vf := (s.bank bid).vfId
        let w : DirWaiter := { bid := bid, vf := vf, name := name, va := (← readX a).toNat, rd := d, deadline := (← readX b).toNat }
        if (s.boundObject vf name).isNone && !s.expired w then
          modify (fun s => { s with dirWaiters := s.dirWaiters ++ [w] })
          modCur (fun b => { b with wait := .dopenW w.deadline })
          waitMore
        return (p, name))
      (fun (p, name) => openEffect d p name 6)) s

/-- DOPEN_W_TIMEOUT: the counter reaches the deadline: the registration is withdrawn and rd takes TIMEOUT (R99). -/
def execDopenWTimeout (bank : Nat) (s : State) : Host.Outcome State Fault Refusal :=
  .next (match s.dirWaiters.find? (·.bid = bank) with
    | some w => if s.expired w then (s.withdraw bank).endDopenW w (2 ^ 63 + 6) else s
    | none => s)

/-- `dclose`: one open is dropped; a handle that names no open object of the VF traps dir-handle (R100). -/
def execDclose (a : Reg) (s : State) : Host.Outcome State Fault Refusal :=
  runCc (irrevocable
    (do
      let s ← get
      let h := bits (← readX a).toNat 0 32
      let i := bits h 30 2 * slotsPerDie + bits h 16 14
      let o := s.slot i
      if h ≠ 0 && (o.inc ≠ bits h 0 16 || o.vf ≠ (← curBank).vfId || o.opens = 0) then trap 60 h
      return (h, i))
    (fun (h, i) => do
      if h ≠ 0 then
        modify (fun s => (s.setSlot i { s.slot i with opens := (s.slot i).opens - 1 }).reclaimIfDone i))) s

/-- `dqry`: the binding generation of a name (R101). -/
def execDqry (d a : Reg) (s : State) : Host.Outcome State Fault Refusal :=
  runCc (do
    let s ← get
    writeX d (BitVec.ofNat 64 (s.genOf (← curBank).vfId (← readX a)))) s

end Sys2Proof.Machine
end

