-- ==== Sys2Proof/Machine/Matrix.lean ====
section
/-! DEFINITION. The matrix words but `draw` (R211 to R216, R313 to R327). -/

namespace Sys2Proof.Machine

/-! ### The multiply words (R318 to R321) -/

/-- The checks of R318 that come after the stack holds three entries; they pop nothing. -/
def checkMul (k : MulKind) (r : EngRegs) (x : FmtEntry) (a b : Ring) (kk n m : Nat) : M Unit := do
  if m = 0 || 96 < m || n = 0 || 96 < n || kk = 0 || 65535 < kk || (k = .mmm && r.mask.isNone) then illegalWord
  if !formatsOk (k = .mml) x || !planeOk x.a x.ascl a.slots || !planeOk x.b x.bscl b.slots then endNest 0x11
  if kk % (if k = .mml then 4 else fmtClass x.a) ≠ 0 || a.slots = 0 || b.slots = 0 || a.size * 256 < footprint x.a
    || b.size * 256 < footprint x.b then illegalWord

/-- StartElements of R319 for one element. -/
def startElement (c : BitVec 2) (gamma : Nat) (take : Bool) (v : Nat) : Nat :=
  if c = 3#2 then v
  else if !take then negInf32
  else if c = 0#2 then 0
  else if c = 2#2 then mul32 v gamma
  else v

/-- A multiply word: first its checks, its format entry, its pops and its start; then a slot pair a turn (R214, R318, R319, R321). -/
def multiply (k : MulKind) (r c : BitVec 2) (b : Bool) (f : BitVec 4) (l : BitVec 2) : M Flow := do
  let g ← curEng .mx
  let bid ← curBid
  match g.stopped with
  | none =>
    let v := g.regs.selectFmt f l
    match ← operands .mx 3 0 with
    | [kk, n, m] =>
      checkMul k g.regs (fmtEntry v) g.regs.rings[ringA r] g.regs.rings[ringB r] kk.toNat n.toNat m.toNat
      if c = 1#2 || c = 2#2 then readTile bid b m.toNat n.toNat
      restack .mx 3 []
      let take := g.regs.maskOf k
      let gamma := (g.regs.gamma b).toNat
      if c ≠ 3#2 then
        modCur (·.clearTile b m.toNat n.toNat)
        modRegs .mx (fun r => r.setAcc b ((r.acc b).mapTile bid (b2n b) m.toNat n.toNat (fun i j v =>
          startElement c gamma (take i j) v)))
      keepAs .mx [kk, n, m] 0 [] (some { kind := k, rings := r, start := c, bank := b, entry := v })
      return .more
    | _ => illegalWord
  | some _ => return if ← nextPair bid then .next else .more

def execMm (r c : BitVec 2) (b : Bool) (f : BitVec 4) (l : BitVec 2) (s : State) : Host.Outcome State Fault Refusal :=
  runWord (fun _ => multiply .mm r c b f l) s

def execMml (r c : BitVec 2) (b : Bool) (f : BitVec 4) (l : BitVec 2) (s : State) : Host.Outcome State Fault Refusal :=
  runWord (fun _ => multiply .mml r c b f l) s

def execMmm (r c : BitVec 2) (b : Bool) (f : BitVec 4) (l : BitVec 2) (s : State) : Host.Outcome State Fault Refusal :=
  runWord (fun _ => multiply .mmm r c b f l) s

/-! ### The mask (R322) -/

/-- A block that R322 does not take. -/
def maskBad (blk : List Byte) : Bool :=
  let w0 := blockWord blk 0
  let rows := bits w0 0 16
  let cols := bits w0 16 16
  bits w0 33 31 ≠ 0 || rows = 0 || 96 < rows || cols = 0 || 96 < cols || blockWord blk 2 ≠ 0 || blockWord blk 3 ≠ 0
    || (blk.drop 64).any (· ≠ 0#8)

/-- A request of 64 bytes of `mpb`; where it stops, the word keeps what it has read. -/
def readMask (a : Word) (vers : List Nat) (have0 : List Byte) (i : Nat) : M (List Byte) := do
  let bid ← curBid
  let p := haddrPh a
  tryCatch (do
    let pl ← handlePlace bid (some .mx) p (vers[p.toNat]?) (haddrOff a + 64 * i) 64 accR 0
    return have0 ++ (← loadBytes bid (some .mx) pl.pa 64)) (fun st => do
      keep .mx [a] i (have0.map (·.toNat))
      fail st)

/-- `mpb` (R322). -/
def execMpb (s : State) : Host.Outcome State Fault Refusal :=
  runWord (fun e => do
    let g ← curEng e
    let vers := (g.entry.map (·.vers)).getD []
    let (a, have0) ← match g.stopped with
      | some st => pure (st.ops.getD 0 0, st.vals.map (BitVec.ofNat 8 ·))
      | none => match ← operands e 1 0 with
        | [a] => do
          if haddrOff a % 128 ≠ 0 then illegalWord
          restack e 1 []
          pure (a, [])
        | _ => illegalWord
    let have0 ← if have0.length < 64 then readMask a vers [] 0 else pure have0
    let blk ← readMask a vers have0 1
    if maskBad blk then endNest 0x11
    modRegs e (fun r => { r with mask := some blk })
    return .next) s

/-! ### Accumulators and tables (R314, R324 to R327) -/

def execAccz (b : Bool) (s : State) : Host.Outcome State Fault Refusal :=
  runWord (fun e => do
    modCur (·.clearTile b 96 96)
    modRegs e (fun r => r.setAcc b Acc.init)
    return .next) s

def execAccg (b : Bool) (s : State) : Host.Outcome State Fault Refusal :=
  runWord (fun e => do
    match ← operands e 1 0 with
    | [v] =>
      restack e 1 []
      modRegs e (fun r => if b then { r with gamma1 := v.setWidth 32 } else { r with gamma0 := v.setWidth 32 })
      return .next
    | _ => illegalWord) s

def execFte (n : BitVec 4) (s : State) : Host.Outcome State Fault Refusal :=
  runWord (fun e => do
    match ← operands e 1 0 with
    | [v] =>
      if bits v.toNat 46 10 ≠ 0 || bits v.toNat 14 18 ≠ 0 then illegalWord
      restack e 1 []
      modRegs e (fun r => { r with ftab := r.ftab.set n.toFin v })
      return .next
    | _ => illegalWord) s

/-- An issued copy word into the ring has not completed (R314). -/
def Bank.ringBusy (b : Bank) (g : Nat) : Bool :=
  (b.engine .mx).regs.rings[Fin.ofNat 4 g].reserved ≠ 0
    || b.flights.any (fun f => f.reqs.contains (.slotWait g) || f.reqs.contains (.slotDone g))

/-- 256-byte units of core scratchpad. -/
def scratchUnits : Nat := 12288

def execRng (g : BitVec 2) (s : State) : Host.Outcome State Fault Refusal :=
  runWord (fun e => do
    match ← operands e 3 0 with
    | [z, n, b] =>
      if z.toNat = 0 || n.toNat = 0 || 255 < n.toNat || scratchUnits < b.toNat + n.toNat * z.toNat then illegalWord
      if (← curBank).ringBusy g.toNat then waitMore
      restack e 3 []
      let q : Ring := { Ring.init with base := b.toNat, size := z.toNat, slots := n.toNat }
      modRegs e (·.onRing g.toFin (fun _ => q))
      return .next
    | _ => illegalWord) s

/-- The rank of a bank among the members of its gang, or 0 (R327). -/
def State.rank (s : State) (bid : Nat) : Nat :=
  ((s.members (s.handleBank bid)).findIdx? (· = bid)).getD 0

/-- An element converted for `acco` (R325). -/
def convert (f v : Nat) : Nat := if f = 0 then v else (roundTo f (ofFp32 v)).1

/-- The requests of `acco`: offset from the handle's, and the bytes (R325). -/
def accoRequests (a : Acc) (bid bank f st off0 base : Nat) : List (Nat × List Byte) :=
  let w := codeBits f / 8
  ((List.range 96).map (fun i =>
    let row := ((List.range 96).map (fun j => leBytes w (convert f (a.get bid bank (accIx i j)).toNat))).flatten
    (pieces (base + off0 + i * st) (96 * w)).map (fun p => (off0 + i * st + p.1, (row.drop p.1).take p.2)))).flatten

/-- Requests written one after the other; where one stops, the word keeps its progress (R180). -/
def accoWrites (h : Word) (vers : List Nat) (ops : List Word) : Nat → List (Nat × List Byte) → M Unit
  | _, [] => return
  | done, (off, d) :: rs => do
    let bid ← curBid
    let p := haddrPh h
    tryCatch (do
      let pl ← handlePlace bid (some .mx) p (vers[p.toNat]?) (haddrOff h + off) d.length accW 0
      modify (·.storeAt bid (some .mx) pl d)) (fun st => do
        keep .mx ops done []
        fail st)
    accoWrites h vers ops (done + 1) rs

/-- `acco` (R325, R327). -/
def execAcco (b : Bool) (f : BitVec 4) (s : State) : Host.Outcome State Fault Refusal :=
  runWord (fun e => do
    let s ← get
    let bid := s.cur.bid
    let g ← curEng e
    let vers := (g.entry.map (·.vers)).getD []
    let (ops, done) ← match g.stopped with
      | some st => pure (st.ops, st.done)
      | none => do
        let ops ← operands e 2 0
        if 2 ^ 32 ≤ (ops.getD 0 0).toNat then illegalWord
        restack e 2 []
        pure (ops, 0)
    let st := (ops.getD 0 0).toNat
    let h := ops.getD 1 0
    let w := codeBits f.toNat / 8
    let p := s.rank bid
    let off0 := p / 4 * 96 * st + p % 4 * 96 * w
    readTile bid b 96 96
    let rs := accoRequests (g.regs.acc b) bid (b2n b) f.toNat st off0 (haddrOff h)
    accoWrites h vers ops done (rs.drop done)
    return .next) s

end Sys2Proof.Machine
end

