-- ==== Sys2Proof/Machine/Draw.lean ====
section
/-! DEFINITION. Teasel, the draw unit (R328 to R331). -/

namespace Sys2Proof.Machine

/-! ### The noise (R329) -/

/-- x xor (x >> n), on 64 bits. -/
def foldRight (x : Word) (n : Nat) : Word := x ^^^ (x >>> n)

def mix (key c : Word) : Word :=
  let x := c ^^^ key
  let x := foldRight x 31 * 0xA3B195D74C2E6F1B#64
  let x := foldRight x 29 * 0xC6E42F871D53A96D#64
  let x := foldRight x 32 * 0x8F3DB72AE4150C5B#64
  foldRight x 29

/-- FP32 bits of the noise of a candidate. -/
def noise (key ctr : Word) (e : Nat) : Nat :=
  let x := (mix key (ctr + BitVec.ofNat 64 e)).toNat
  let u := toFp32 (.fin false (2 * bits x 41 23 + 1) (-24))
  let l1 := ln32 u
  let l2 := ln32 ((l1 + sign32) % 2 ^ 32)
  (l2 + sign32) % 2 ^ 32

/-! ### The score and the winner (R330) -/

/-- The operands of a draw (R328). -/
structure DrawOps where
  n : Nat
  ctl : Nat
  key : Word
  ctr : Word
  rb : Nat

def DrawOps.ok (o : DrawOps) : Bool :=
  1 ≤ o.n && o.n ≤ 9216 && bits o.ctl 33 31 = 0 && bits o.rb 46 16 = 0 && bits o.rb 14 18 = 0

def DrawOps.score (o : DrawOps) (v e : Nat) : Nat :=
  if bit o.ctl 32 then v else add32 (mul32 v (bits o.ctl 0 32)) (noise o.key o.ctr e)

def isNan32 (v : Nat) : Bool := (ofFp32 v).isNan

/-- Whether a score takes the place of the best so far: the greater key, and a NaN loses to every other. -/
def beats (x best : Nat) : Bool :=
  if isNan32 x then false else isNan32 best || keyFp32 best < keyFp32 x

/-- The winner of candidates in rising order: index and score. -/
def winner (cs : List (Nat × Nat)) : Nat × Nat :=
  match cs with
  | [] => (0, 0)
  | c :: cs => cs.foldl (fun b x => if beats x.2 b.2 then x else b) c

/-- Scores of the candidates of a bank, numbered from a member's first. -/
def State.candidatesOf (s : State) (bid rank : Nat) (bank : Bool) (o : DrawOps) : List (Nat × Nat) :=
  let a := ((s.bank bid).engine .mx).regs.acc bank
  (List.range o.n).map (fun e => (rank * o.n + e, o.score (a.get bid (b2n bank) e).toNat (rank * o.n + e)))

/-- The candidates of every member of the gang, or of the bank alone. -/
def State.allCandidates (s : State) (bid : Nat) (bank : Bool) (o : DrawOps) : List (Nat × Nat) :=
  ((s.members (s.handleBank bid)).zipIdx.map (fun m => s.candidatesOf m.1 m.2 bank o)).flatten

/-! ### Rebasing (R331) -/

/-- The ring a draw rebases, and where to; none where it is refused. -/
def rebaseTo (g : Ring) (rb win : Nat) : Option Nat :=
  let b := bits rb 0 14 + win * bits rb 32 14
  if g.slots = 0 || scratchUnits < b + g.slots * g.size then none else some b

/-- The operands on a parameter stack (R328). -/
def drawOps (ops : List Word) : DrawOps :=
  ⟨(ops.getD 0 0).toNat, (ops.getD 1 0).toNat, ops.getD 2 0, ops.getD 3 0, (ops.getD 4 0).toNat⟩

/-- A candidate of the gang is a poisoned element (R351). -/
def State.drawPoison (s : State) (bid : Nat) (bank : Bool) (n : Nat) : Bool :=
  (s.members (s.handleBank bid)).any (fun m => (s.bank m).marks.any (fun k => match k with
    | .acc c ix => c = bank && ix < n
    | _ => false))

/-- `draw`: under a gang the candidates are judged by the leader's operands, so that every member has the same winner (R330, R331). -/
def execDraw (b : Bool) (s : State) : Host.Outcome State Fault Refusal :=
  runWord (fun e => do
    let s ← get
    let bid := s.cur.bid
    let o := drawOps (← operands e 5 0)
    if !o.ok then illegalWord
    let lead := drawOps ((s.bank (s.handleBank bid)).engine e).regs.pstack
    if s.drawPoison bid b lead.n then fail (.poison none)
    let cs := s.allCandidates bid b lead
    let (win, score) := winner cs
    let g := if bit o.rb 62 then 3 else 1
    let r := (← curEng e).regs.rings[Fin.ofNat 4 g]
    let target := if bit o.rb 63 then rebaseTo r o.rb win else none
    if target.isSome && (s.bank bid).ringBusy g then waitMore
    let allNan := cs.all (fun c => isNan32 c.2)
    let refused : Bool := bit o.rb 63 && target.isNone
    deliver e 4#3 (BitVec.ofNat 64 (score * 2 ^ 32 + b2n allNan * 2 ^ 31 + b2n refused * 2 ^ 30 + win)) true
    restack e 5 []
    match target with
    | some base =>
      modRegs e (fun r => r.onRing (Fin.ofNat 4 g) (fun q =>
        { q with base := base, head := 0, tail := 0, full := List.replicate q.slots ((s.bank bid).engine e).phase }))
    | none => pure ()
    return .next) s

end Sys2Proof.Machine
end

