-- ==== Sys2Proof/Machine/Submit.lean ====
section
/-! DEFINITION. Submission rings (R191 to R193) and Cowslip (R194, R195). -/

namespace Sys2Proof.Machine

/-- The module operates: it is neither shut down nor in the safe state (R85, R361). -/
def State.operates (s : State) : Bool := !s.host.stopped && !s.host.safe

/-- A command of the management path: over I3C only the commands that the rule names are taken, in the safe state only those that R361
names, and these over the mailbox alone; the others complete with status Unsupported (R344, R361). -/
def State.command (s : State) (overI3c inSafe : Bool) (f : State → Host.Outcome State Fault Refusal) :
    Host.Outcome State Fault Refusal :=
  if s.host.stopped then .next s
  else if (s.cur.port = .i3c && !overI3c) || (s.host.safe && (!inSafe || s.cur.port = .i3c)) then .next { s with host := { s.host with status := .unsupported } }
  else f { s with host := { s.host with status := .ok } }

/-! ### The ring table (R191) -/

def ringCount : Nat := 1024
def activeSlots : Nat := 32

def Die.ring (d : Die) (r : Nat) : SubRing := PMap.get SubRing.init d.rings r
def Die.setRing (d : Die) (r : Nat) (v : SubRing) : Die := { d with rings := PMap.put d.rings r v }
def SubRing.vf (g : SubRing) : Nat := bits g.w1.toNat 39 9
def SubRing.asid (g : SubRing) : Nat := bits g.w1.toNat 48 16
def SubRing.pcap (g : SubRing) : Nat := bits g.w1.toNat 1 2
def SubRing.en (g : SubRing) : Bool := bit g.w1.toNat 0

/-! ### Slots (R194) -/

/-- The ring holds an active slot from now on, last in the order of turns. -/
def Die.takeSlot (d : Die) (r cycle : Nat) : Die :=
  { d.setRing r { d.ring r with active := true, pending := false, timer := cycle } with slots := d.slots ++ [r] }

/-- The pending ring with the lowest number above the grant pointer, wrapping past 1,023 (R194). -/
def Die.nextPending (d : Die) : Option Nat :=
  ((List.range ringCount).map (fun i => (d.grant + 1 + i) % ringCount)).find? (fun r => (d.ring r).pending)

/-- A freed slot goes to the next pending ring, whose number the grant pointer takes (R194). -/
def Die.grantSlot (d : Die) (cycle : Nat) : Die :=
  match d.nextPending with
  | none => d
  | some r => { d.takeSlot r cycle with grant := r }

/-- A ring becomes idle: its pending bit is cleared, and a slot it holds is freed (R194). -/
def Die.idleRing (d : Die) (r cycle : Nat) : Die :=
  let d' := { d.setRing r { d.ring r with active := false, pending := false } with slots := d.slots.filter (· ≠ r) }
  if d.slots.contains r then d'.grantSlot cycle else d'

/-- The die and the ring of a notify register, by its offset in BAR2 (R193). -/
def notifyRing (off : Nat) : Nat × Nat := (off / 0x2000, off % 0x2000 / 8)

/-- A ring of a VF is notified (R194). -/
def State.notified (s : State) (vf die ring : Nat) : State :=
  let d := s.die die
  let g := d.ring ring
  if 4 ≤ die || !g.en || g.vf ≠ vf then s
  else if g.active then s.setDie die (d.setRing ring { g with timer := s.cycle })
  else if g.pending then s
  else if d.slots.length < activeSlots then s.setDie die (d.takeSlot ring s.cycle)
  else s.setDie die (d.setRing ring { g with pending := true })

/-! ### Reading a ring (R192, R195) -/

/-- Why a ring is not read: its access waits, or it has an error, with the status of R192. -/
inductive RingStop where
  | waits
  | status (v : Nat)
  deriving DecidableEq, Repr

/-- Bytes of one page of a ring, as Cowslip and Vetch read them with acquire: a translation fault is status 2; the access waits where its page
is under a flip or the durable tier is not ready (R45, R74, R192). Poison of its lines is not seen (log 105). -/
def State.ringRead (s : State) (die : Nat) (g : SubRing) (va n : Nat) : Except RingStop (List Byte × State) :=
  match s.unitPlace die g.vf g.asid va n accR with
  | .ok (p, s) => .ok (s.mem.read p.pa n, s)
  | .error .wait => .error .waits
  | .error _ => .error (.status 2)

def SubRing.write (g : SubRing) (die word v : Nat) (s : State) : State :=
  s.unitWrite die g.vf g.asid (g.w0.toNat + 8 * word) (leBytes 8 v)

/-- An error while reading a ring: its status is written and it becomes idle; a read that waits is made again later (R45, R74, R194). -/
def State.ringError (s : State) (die r : Nat) : RingStop → State
  | .waits => s
  | .status v => ((s.die die).ring r).write die 3 v s |>.modDie die (·.idleRing r s.cycle)

/-- The header of a ring: c, head and tail, or the status of its error; on a good header whose status shows an earlier error, ok is
written (R192, R194, R359). A ring whose base is not a multiple of 128 has a bad header (log 86). -/
def State.ringHeader (s : State) (die : Nat) (g : SubRing) : Except RingStop (Nat × Nat × Nat × State) :=
  if (List.range 24).all (fun i => !s.coreInService (24 * die + i)) then .error (.status 2)
  else if g.w0.toNat % 128 ≠ 0 then .error (.status 1)
  else match s.ringRead die g g.w0.toNat 128 with
    | .error e => .error e
    | .ok (h, s) =>
      let c := bits (blockWord h 0) 0 4
      let head := blockWord h 1
      let tail := blockWord h 2
      if 12 < c || bits (blockWord h 0) 4 60 ≠ 0 || bits (blockWord h 3) 8 56 ≠ 0 || (h.drop 32).any (· ≠ 0#8) then .error (.status 1)
      else if 2 ^ c < (head + 2 ^ 64 - tail) % 2 ^ 64 then .error (.status 3)
      else .ok (c, head, tail, if blockWord h 3 = 0 then s else g.write die 3 0 s)

/-- COWSLIP_ACCEPT: the turn of the die's next active slot: one record is accepted and tail advances (R195). -/
def execCowslipAccept (die : Nat) (s : State) : Host.Outcome State Fault Refusal :=
  .next (match (s.die die).slots with
    | [] => s
    | r :: rest =>
      let g := (s.die die).ring r
      let turned := fun (s : State) => s.modDie die (fun d => { d with slots := rest ++ [r] })
      if !s.operates || 4 ≤ die then s
      else match s.ringHeader die g with
        | .error e => s.ringError die r e
        | .ok (c, head, tail, s) =>
          if head = tail then turned s
          else if nestTableSize ≤ s.nestCount die then s
          else
            let va := (g.w0.toNat + 128 + 128 * (tail % 2 ^ c)) % 2 ^ 64
            match s.ringRead die g va 128 with
            | .error e => s.ringError die r e
            | .ok (bs, s) =>
              let s := s.accept bs die va g.asid g.vf g.pcap
              let s := g.write die 2 ((tail + 1) % 2 ^ 64) s
              (turned s).modDie die (fun d => d.setRing r { d.ring r with timer := s.cycle }))

/-- RING_IDLE_TIMEOUT: an active ring that had nothing for 12,000 c reads head again, and is released if that still equals
tail (R194). -/
def execRingIdleTimeout (die ring : Nat) (s : State) : Host.Outcome State Fault Refusal :=
  let g := (s.die die).ring ring
  .next (
    if !s.operates || 4 ≤ die || !g.active || s.since g.timer < 12000 then s
    else match s.ringHeader die g with
      | .error e => s.ringError die ring e
      | .ok (_, head, tail, s) =>
        if head = tail then s.modDie die (·.idleRing ring s.cycle)
        else s.modDie die (fun d => d.setRing ring { g with timer := s.cycle }))

end Sys2Proof.Machine
end

