-- ==== Sys2Proof/Machine/Durable.lean ====
section
/-! DEFINITION. Betony: acceptance and persist order (R73 to R79), the media, power loss and orderly shutdown (R84, R85). -/

namespace Sys2Proof.Machine

/-- Bytes that the write buffer holds: 16 MiB (R73). -/
def bufferBytes : Nat := 0x1000000

/-- Accepted bytes that are not yet on the media (R73, R74). -/
def Betony.held (t : Betony) : Nat := (t.buffer.map (fun a => 8 * a.words.length)).sum

/-- The media with words written. -/
def writeMedia (m : Mem) (words : List (Nat × Word)) : Mem :=
  words.foldl (fun m w => m.write (8 * w.1) (leBytes 8 w.2.toNat)) m

/-- A store may be accepted: every store that must persist before it has (R75, R76, R79). -/
def Betony.free (t : Betony) (d : DStore) : Bool := d.after.all (fun i => !t.pending.any (·.id = i))

/-- A store to this module's tier, not to another module's (R72). -/
def DStore.own (d : DStore) : Bool := d.words.all (fun w => isDurable (8 * w.1))

/-- Betony takes a store: one to another module's tier is that module's to accept; else it is ready, and has room while hold-up energy
is armed, or nothing left to write while it is not (R73, R74). -/
def Betony.room (t : Betony) (d : DStore) : Bool :=
  !d.own || (t.rdy && if t.hok then t.held + 8 * d.words.length ≤ bufferBytes else t.buffer.isEmpty)

/-- A store is accepted, and is persistent from now on: into the buffer while hold-up energy is armed, onto the media while it is
not; it takes one sequence number, as one write request within a line (R73, R85). -/
def Betony.accept (t : Betony) (d : DStore) : Betony :=
  let t := { t with pending := t.pending.filter (·.id ≠ d.id) }
  if !d.own then t
  else if t.hok then { t with buffer := t.buffer ++ [⟨t.seq, d.words⟩], seq := (t.seq + 1) % 2 ^ 64 }
  else { t with media := writeMedia t.media d.words, lastSeq := t.seq, seq := (t.seq + 1) % 2 ^ 64 }

/-- The oldest accepted store is written to the media (R73). -/
def Betony.drain1 (t : Betony) : Betony :=
  match t.buffer with
  | [] => t
  | a :: rest => { t with buffer := rest, media := writeMedia t.media a.words, lastSeq := a.seq }

def Betony.drain (t : Betony) : Nat → Betony
  | 0 => t
  | n + 1 => t.drain1.drain n

/-- DURABLE_ACCEPT: a durable store is accepted (R73, R75 to R79). -/
def execDurableAccept (i : Nat) (s : State) : Host.Outcome State Fault Refusal :=
  let t := s.betony
  .next (match t.pending.find? (·.id = i) with
    | none => s
    | some d => if t.free d && t.room d then { s with betony := t.accept d } else s)

/-- MEDIA_WRITE: the oldest accepted store reaches the media (R73). -/
def execMediaWrite (s : State) : Host.Outcome State Fault Refusal :=
  .next (if s.betony.rdy then { s with betony := s.betony.drain1 } else s)

/-- HOLD_UP_ENERGY_ARMING: hold-up energy is armed or is not (R73, R74). -/
def execHoldUpEnergyArming (armed : Bool) (s : State) : Host.Outcome State Fault Refusal :=
  .next (if s.betony.rdy then { s with betony := { s.betony with hok := armed } } else s)

/-- The durable tier as the media holds it: stores that were not accepted are lost (R84, R85). -/
def tierMem (m media : Mem) : Mem := m.graft durableBase durableEnd (media.clip durableBase durableEnd)

/-- QUIESCE: orderly shutdown: Betony drains, and the next summary has the loss bit clear (R85; log 46). -/
def execQuiesce (s : State) : Host.Outcome State Fault Refusal :=
  s.command false false (fun s =>
    let t := s.betony.drain s.betony.buffer.length
    .next { s with
      mem := tierMem s.mem t.media
      betony := { t with rdy := false, loss := false, drainOk := true, entries := [], pending := [] }
      host := { s.host with stopped := true, answer := [], unitWrites := [] } })

/-! ### Power loss (R84, R85, R88) -/

/-- The words of the recovery summary's entry of a bank; a task of a group gives one for each member bank (R88; log 111). -/
def State.lossEntry (s : State) (bid : Nat) : Option (Nat × Nat × Nat × Nat) :=
  let b := s.bank bid
  b.task.map (fun t =>
    (((s.nests.find? (·.id = t.nest)).map (·.recAddr)).getD 0,
      t.vf * 2 ^ 48 + t.asid * 2 ^ 32 + coreOf bid * 2 ^ 24 + bankOf bid * 2 ^ 16, t.k, b.committed * 2 ^ 32))

/-- Memory as a loss of power leaves it: the durable tier as on the media; dirty host-homed lines as their home has them (R84,
R348). -/
def State.lossMem (s : State) (media : Mem) : Mem :=
  tierMem (s.dirtyHost.foldl (fun m l => m.write (l.1.line * 64) l.1.data) s.mem) media

/-- What outlasts a loss of power, everything else as after reset: the durable tier, flash, host and peer memory, firmware, fuses,
cores marked failed, the clock of 1588 time (R84, R350, R353, R356). -/
def State.powerless (s : State) (mem : Mem) : State :=
  let h := s.host
  { State.reset with
    mem := mem
    cores := (s.cores.filter (fun c => c.2.failed)).map (fun c => (c.1, { CoreSt.init with failed := true }))
    betony := { s.betony with pending := [], buffer := [], rdy := false, hok := false }
    poison := s.poison.filter (fun l => isDurable (l * 64))
    host := { HostSt.init with
      stopped := true, fw0 := h.fw0, fw1 := h.fw1, fwActive := h.fwActive, fwStaged := h.fwStaged, fwPending := h.fwPending
      fwMin := h.fwMin, retired := h.retired, burnt := h.burnt }
    cycle := s.cycle, ftime := s.ftime, ticks := s.ticks, uses := s.uses, schedule := s.schedule, cur := s.cur }

/-- POWER_LOSS: stores not accepted are lost, cores, engines and links stop, and hold-up energy drains the buffer; where it was not armed,
as many of the stores still in it as are given (R73, R84, R85; log 46). -/
def execPowerLoss (drained : Nat) (s : State) : Host.Outcome State Fault Refusal :=
  .next (
    if s.host.stopped then s
    else
      let n := if s.betony.hok then s.betony.buffer.length else min drained s.betony.buffer.length
      let t := s.betony.drain n
      let t := { t with
        loss := true
        drainOk := decide (n = s.betony.buffer.length)
        lossCyc := s.cycle, lossTime := s.ftime
        entries := (List.range 192).filterMap s.lossEntry }
      ({ s with betony := t }).powerless (s.lossMem t.media))

end Sys2Proof.Machine
end

