-- ==== Sys2Proof/Machine/Handle.lean ====
section
/-! DEFINITION. The page-handle forms `xlat`, `xlat.w`, `hinv`, `hstat`, `ldh`, `sdh` (R37, R38, R242 to R244) and the end of a
table walk (R37). -/

namespace Sys2Proof.Machine

/-- A version filled from a leaf (R37). -/
def HVer.fill (v : HVer) (l : Leaf) : HVer := { v with state := .valid, cause := 0, leaf := l }

/-- The version that `xlat` or `xlat.w` makes, without its number (R37): the TLB's entry where it hits, for `xlat.w` after a
second walk where the entry denies write (R35); else a walk that goes on. -/
def State.xlatVer (s : State) (bid : Nat) (va : Nat) (wint : Bool) : HVer × State :=
  let w := s.whoCore bid
  let v : HVer :=
    { HVer.empty 0 with
      state := .pending, vpage := bits va 12 45, asid := w.asid, wint := wint, domcfg := s.host.domcfg }
  if !canonical va then ({ v with cause := 0xB }, s)
  else match s.tlbLookup w va with
    | none => (v, s)
    | some l =>
      if wint && !l.w then
        match s.walk w.die w.root va with
        | .ok l' => (v.fill l', (s.tlbRenew w va l').touch w l' accR)
        | .error 0 => (v, s)
        | .error c => ({ v with cause := c }, s.tlbDrop w va)
      else (v.fill l, s)

/-- `xlat` and `xlat.w` make a new current version; a fifth version waits (R37, R38). -/
def xlatForm (a : Reg) (p : BitVec 4) (wint : Bool) : M Unit := do
  let s ← get
  let bid := s.cur.bid
  let va := (← readX a).toNat
  let (v, s') := s.xlatVer bid va wint
  match (s'.bank bid).newVersion p (s'.usedVers bid) (fun id => { v with id := id }) with
  | none => waitMore
  | some b => set (s'.setBank bid b)

def execXlat (a : Reg) (p : BitVec 4) (s : State) : Host.Outcome State Fault Refusal := runCc (xlatForm a p false) s

def execXlatW (a : Reg) (p : BitVec 4) (s : State) : Host.Outcome State Fault Refusal := runCc (xlatForm a p true) s

/-- `hinv`: a new version in the empty state (R242). -/
def execHinv (p : BitVec 4) (s : State) : Host.Outcome State Fault Refusal :=
  runCc (do
    match (← curBank).newVersion p ((← get).usedVers (← curBid)) HVer.empty with
    | none => waitMore
    | some b => modCur (fun _ => b)) s

/-- The value of R41 for a version. -/
def HVer.stat (v : HVer) : Word :=
  let l := v.leaf
  let page := l.level * 2 ^ 60 + l.ceil * 2 ^ 57 + b2n l.durable * 2 ^ 56 + b2n l.hostHomed * 2 ^ 55 + b2n l.ctxseg * 2 ^ 54
    + b2n v.wint * 2 ^ 53 + b2n l.r * 2 ^ 52 + b2n l.w * 2 ^ 51
  BitVec.ofNat 64 (match v.state with
    | .empty => 0
    | .pending => 1 * 2 ^ 62 + b2n v.wint * 2 ^ 53 + v.cause * 2 ^ 40
    | .valid => 2 * 2 ^ 62 + page
    | .revoked => 3 * 2 ^ 62 + page + 8 * 2 ^ 40)

def execHstat (d : Reg) (p : BitVec 4) (s : State) : Host.Outcome State Fault Refusal :=
  runCc (do writeX d ((← curBank).handle p).cur.stat) s

/-- `ldh`: one doubleword at a byte offset of the handle's page (R244). -/
def execLdh (d : Reg) (p : BitVec 4) (a : Reg) (c : BitVec 3) (s : State) : Host.Outcome State Fault Refusal :=
  runCc (do
    let off := (← readX a).toNat
    if off % 8 ≠ 0 then trap 4 off
    let bid ← curBid
    let pl ← handlePlace bid none p none off 8 accR c.toNat
    writeX d (BitVec.ofNat 64 (leNat (← loadBytes bid none pl.pa 8)))) s

/-- `sdh` (R244). -/
def execSdh (b : Reg) (p : BitVec 4) (a : Reg) (c : BitVec 3) (s : State) : Host.Outcome State Fault Refusal :=
  runCc (do
    let off := (← readX a).toNat
    if off % 8 ≠ 0 then trap 6 off
    let bid ← curBid
    let pl ← handlePlace bid none p none off 8 accW c.toNat
    let v ← readX b
    modify (·.storeAt bid none pl (leBytes 8 v.toNat))) s

/-- The walk of a pending version cannot end yet (R74). -/
def State.walkGoesOn (s : State) (bid : Nat) (v : HVer) : Bool :=
  let w := s.whoCore bid
  match s.walkUnder v.domcfg w.die w.root (canonAddr (v.vpage * 4096)) with
  | .error 0 => true
  | _ => false

/-- The walk of a pending version ends: valid with its leaf and A set, or pending with the cause (R31, R37). It walks with the domain
size of its beginning (R375). -/
def State.walkEnds (s : State) (bid : Nat) (p : BitVec 4) (v : HVer) : State :=
  let w := s.whoCore bid
  let va := canonAddr (v.vpage * 4096)
  match s.walkUnder v.domcfg w.die w.root va with
  | .ok l =>
    let s := (s.tlbRenew w va l).touch w l accR
    s.modBank bid (fun b => b.setHandle p ((b.handle p).update v.id (fun v => v.fill l)))
  | .error c =>
    let s := s.tlbDrop w va
    s.modBank bid (fun b => b.setHandle p ((b.handle p).update v.id (fun v => { v with cause := c })))

/-- A use that waited for a version acts by its cause: a fault of the page-fault path (R39, R177). The keys are those of `useKey`. -/
def State.useFaults (s : State) (bid cause key : Nat) (u : WalkUse) : State :=
  let (s, w) := s.recordFault bid (if 5 ≤ key then 3 else key) cause u.va u.acc u.ver
  s.modBank bid (fun b =>
    match key with
    | 0 => { b.leaveWait with waiter := some w }
    | k + 1 => match allEngines[k]? with
      | some e => b.wordWaits e s.ticks w
      | none => b.flightWaits (k - 4) w)

/-- The uses of a bank that waited for a version wait no longer; where its walk failed with a cause of the page-fault path, each of
them faults, the engines' first (R39, R177, R181; log 70). -/
def State.usesEnd (s : State) (bid ver cause : Nat) : State :=
  let b := s.bank bid
  let mine := b.uses.filter (fun u => u.2.ver = ver)
  let s := s.setBank bid { b with uses := b.uses.filter (fun u => u.2.ver ≠ ver) }.clearWaits
  if cause = 0 || 5 < cause then s
  else (mine.filter (·.1 ≠ 0) ++ mine.filter (·.1 = 0)).foldl (fun s u => s.useFaults bid cause u.1 u.2) s

/-- PAGE_WALK_END: the walk that a version waits for ends (R37); uses that waited for it act by the new state at once, and where
they fault the bank drains and may switch (R39, R177, R179). A walk that goes on does not end (R74). -/
def execPageWalkEnd (bank ph ver : Nat) (s : State) : Host.Outcome State Fault Refusal :=
  let p := BitVec.ofNat 4 ph
  .next (match ((s.bank bank).handle p).find ver with
    | some v =>
      if ph < 16 && v.state = .pending && v.cause = 0 && (s.bank bank).task.isSome && !s.walkGoesOn bank v then
        let ms := s.members bank
        let s := s.walkEnds bank p v
        let cause := (((s.bank bank).handle p).find ver).elim 0 (·.cause)
        let s' := ms.foldl (fun s m => s.usesEnd m ver cause) s
        if ms.all (fun m => (s'.bank m).waiters = (s.bank m).waiters) then s' else (s'.withdraw bank).giveWay bank
      else s
    | none => s)

end Sys2Proof.Machine
end

