-- ==== Sys2Proof/Machine/Integer.lean ====
section
/-! DEFINITION. The standard integer instructions of R225: RV64I, M, Zba, Zbb and Zicond computation, jumps and branches, by
the RISC-V specifications that R225 names (log 6). -/

namespace Sys2Proof.Machine

/-- The low 32 bits, sign-extended. -/
abbrev sext32 (v : Word32) : Word := v.signExtend 64
abbrev low32 (v : Word) : Word32 := v.setWidth 32

def boolWord (b : Bool) : Word := if b then 1#64 else 0#64

/-- Quotient and remainder with the corners of the M extension: division by zero gives all ones and the dividend; the most
negative number by −1 gives itself and 0. -/
def divS {n : Nat} (a b : BitVec n) : BitVec n := if b = 0 then BitVec.allOnes n else a.sdiv b
def remS {n : Nat} (a b : BitVec n) : BitVec n := if b = 0 then a else a.srem b
def divU {n : Nat} (a b : BitVec n) : BitVec n := if b = 0 then BitVec.allOnes n else a / b
def remU {n : Nat} (a b : BitVec n) : BitVec n := if b = 0 then a else a % b

/-- The high half of an exact product. -/
def highHalf (p : Int) : Word := (BitVec.ofInt 128 p).extractLsb' 64 64

/-- The result of a register-register operation. -/
def intRRResult (op : IntRR) (a b : Word) : Word :=
  let sh := bits b.toNat 0 6
  let sh32 := bits b.toNat 0 5
  let uw := (low32 a).setWidth 64
  match op with
  | .add => a + b
  | .sub => a - b
  | .sll => a <<< sh
  | .slt => boolWord (a.slt b)
  | .sltu => boolWord (a.ult b)
  | .xor => a ^^^ b
  | .srl => a >>> sh
  | .sra => a.sshiftRight sh
  | .or => a ||| b
  | .and => a &&& b
  | .addw => sext32 (low32 a + low32 b)
  | .subw => sext32 (low32 a - low32 b)
  | .sllw => sext32 (low32 a <<< sh32)
  | .srlw => sext32 (low32 a >>> sh32)
  | .sraw => sext32 ((low32 a).sshiftRight sh32)
  | .mul => a * b
  | .mulh => highHalf (a.toInt * b.toInt)
  | .mulhsu => highHalf (a.toInt * (b.toNat : Int))
  | .mulhu => highHalf ((a.toNat : Int) * (b.toNat : Int))
  | .div => divS a b
  | .divu => divU a b
  | .rem => remS a b
  | .remu => remU a b
  | .mulw => sext32 (low32 a * low32 b)
  | .divw => sext32 (divS (low32 a) (low32 b))
  | .divuw => sext32 (divU (low32 a) (low32 b))
  | .remw => sext32 (remS (low32 a) (low32 b))
  | .remuw => sext32 (remU (low32 a) (low32 b))
  | .sh1add => (a <<< 1) + b
  | .sh2add => (a <<< 2) + b
  | .sh3add => (a <<< 3) + b
  | .addUw => uw + b
  | .sh1addUw => (uw <<< 1) + b
  | .sh2addUw => (uw <<< 2) + b
  | .sh3addUw => (uw <<< 3) + b
  | .andn => a &&& ~~~b
  | .orn => a ||| ~~~b
  | .xnor => ~~~(a ^^^ b)
  | .max => if a.slt b then b else a
  | .maxu => if a.ult b then b else a
  | .min => if a.slt b then a else b
  | .minu => if a.ult b then a else b
  | .rol => a.rotateLeft sh
  | .ror => a.rotateRight sh
  | .rolw => sext32 ((low32 a).rotateLeft sh32)
  | .rorw => sext32 ((low32 a).rotateRight sh32)
  | .czeroEqz => if b = 0#64 then 0#64 else a
  | .czeroNez => if b = 0#64 then a else 0#64

/-- The result of an operation with a 12-bit immediate. -/
def intRIResult (op : IntRI) (a : Word) (imm : BitVec 12) : Word :=
  let i : Word := imm.signExtend 64
  match op with
  | .addi => a + i
  | .slti => boolWord (a.slt i)
  | .sltiu => boolWord (a.ult i)
  | .xori => a ^^^ i
  | .ori => a ||| i
  | .andi => a &&& i
  | .addiw => sext32 (low32 a + low32 i)

/-- The result of a shift or rotation by an immediate count. -/
def intShiftResult (op : IntShift) (a : Word) (sh : BitVec 6) : Word :=
  let n := sh.toNat
  match op with
  | .slli => a <<< n
  | .srli => a >>> n
  | .srai => a.sshiftRight n
  | .rori => a.rotateRight n
  | .slliUw => (low32 a).setWidth 64 <<< n
  | .slliw => sext32 (low32 a <<< n)
  | .srliw => sext32 (low32 a >>> n)
  | .sraiw => sext32 ((low32 a).sshiftRight n)
  | .roriw => sext32 ((low32 a).rotateRight n)

/-- Zero bits above the highest set bit of the low `n` bits; `n` where none is set. -/
def countLeading (v n : Nat) : Nat := ((List.range n).find? (fun i => bit v (n - 1 - i))).getD n
/-- Zero bits below the lowest set bit of the low `n` bits; `n` where none is set. -/
def countTrailing (v n : Nat) : Nat := ((List.range n).find? (fun i => bit v i)).getD n
/-- Set bits among the low `n`. -/
def countSet (v n : Nat) : Nat := ((List.range n).filter (bit v)).length

/-- The bytes of a word, the lowest first. -/
def wordBytes (a : Word) : List Byte := leBytes 8 a.toNat

/-- The result of a one-operand operation. -/
def intUnaryResult (op : IntUnary) (a : Word) : Word :=
  let n := a.toNat
  match op with
  | .clz => BitVec.ofNat 64 (countLeading n 64)
  | .ctz => BitVec.ofNat 64 (countTrailing n 64)
  | .cpop => BitVec.ofNat 64 (countSet n 64)
  | .clzw => BitVec.ofNat 64 (countLeading n 32)
  | .ctzw => BitVec.ofNat 64 (countTrailing n 32)
  | .cpopw => BitVec.ofNat 64 (countSet n 32)
  | .sextB => (a.setWidth 8).signExtend 64
  | .sextH => (a.setWidth 16).signExtend 64
  | .zextH => (a.setWidth 16).setWidth 64
  | .orcB => BitVec.ofNat 64 (leNat ((wordBytes a).map (fun b => if b = 0#8 then 0#8 else 0xFF#8)))
  | .rev8 => BitVec.ofNat 64 (leNat (wordBytes a).reverse)

/-- Whether a branch is taken. -/
def branchHolds (k : BranchCond) (a b : Word) : Bool :=
  match k with
  | .beq => a = b
  | .bne => a ≠ b
  | .blt => a.slt b
  | .bge => !a.slt b
  | .bltu => a.ult b
  | .bgeu => !a.ult b

def execIntRR (op : IntRR) (d a b : Reg) (s : State) : Host.Outcome State Fault Refusal :=
  runCc (do writeX d (intRRResult op (← readX a) (← readX b))) s

def execIntRI (op : IntRI) (d a : Reg) (imm : BitVec 12) (s : State) : Host.Outcome State Fault Refusal :=
  runCc (do writeX d (intRIResult op (← readX a) imm)) s

def execIntShift (op : IntShift) (d a : Reg) (sh : BitVec 6) (s : State) : Host.Outcome State Fault Refusal :=
  runCc (do writeX d (intShiftResult op (← readX a) sh)) s

def execIntUnary (op : IntUnary) (d a : Reg) (s : State) : Host.Outcome State Fault Refusal :=
  runCc (do writeX d (intUnaryResult op (← readX a))) s

/-- An upper immediate, sign-extended. -/
def upperImm (imm : BitVec 20) : Word := (imm ++ 0#12).signExtend 64

def execLui (d : Reg) (imm : BitVec 20) (s : State) : Host.Outcome State Fault Refusal :=
  runCc (writeX d (upperImm imm)) s

def execAuipc (d : Reg) (imm : BitVec 20) (s : State) : Host.Outcome State Fault Refusal :=
  runCc (do writeX d ((← curBank).core.pc + upperImm imm)) s

def execJal (d : Reg) (off : BitVec 20) (s : State) : Host.Outcome State Fault Refusal :=
  runJump (do
    let pc := (← curBank).core.pc
    writeX d (← nextPc)
    return pc + (off ++ 0#1).signExtend 64) s

def execJalr (d a : Reg) (imm : BitVec 12) (s : State) : Host.Outcome State Fault Refusal :=
  runJump (do
    let t := (← readX a) + imm.signExtend 64
    writeX d (← nextPc)
    return t &&& 0xFFFFFFFFFFFFFFFE#64) s

def execBranch (k : BranchCond) (a b : Reg) (off : BitVec 12) (s : State) : Host.Outcome State Fault Refusal :=
  runJump (do
    let pc := (← curBank).core.pc
    if branchHolds k (← readX a) (← readX b) then return pc + (off ++ 0#1).signExtend 64 else nextPc) s

end Sys2Proof.Machine
end

