-- ==== Sys2Proof/Machine/Invalidate.lean ====
section
/-! DEFINITION. The host's invalidation queue (R43 to R45, R345) and faults that wait for a free record slot (R181). -/

namespace Sys2Proof.Machine

/-! ### Entries of the queue (R345) -/

/-- An entry of the invalidation queue, as its four words. -/
structure IqWords where
  va : Nat
  len : Nat
  ctl : Nat
  done : Nat
  deriving DecidableEq, Repr, Inhabited

def IqWords.op (w : IqWords) : Nat := bits w.ctl 0 2
def IqWords.allAsid (w : IqWords) : Bool := bit w.ctl 2
def IqWords.vf (w : IqWords) : Nat := bits w.ctl 39 9
def IqWords.asid (w : IqWords) : Nat := bits w.ctl 48 16

/-- A non-zero reserved field, a reserved op or a misaligned field (R345). -/
def IqWords.bad (w : IqWords) : Bool :=
  bits w.ctl 3 36 ≠ 0 || 2 ≤ w.op || w.va % 4096 ≠ 0 || w.len % 4096 ≠ 0 || w.done % 8 ≠ 0

/-- The entry that the device takes next, with its number: the queue holds one, and none is in progress (R345). -/
def State.iqNext (s : State) : Option (Nat × IqWords) :=
  let h := s.host
  if !s.operates || !h.link || h.inv.isSome || h.iqhead = h.iqtail then none
  else
    let k := h.iqhead.toNat
    let a := hostBase + (h.iqbase.toNat + 32 * (k % 2 ^ h.iqlog)) % 2 ^ 54
    some (k, ⟨s.mem64 a, s.mem64 (a + 8), s.mem64 (a + 16), s.mem64 (a + 24)⟩)

/-- The entry is in progress from now on. -/
def State.iqTake (s : State) (k : Nat) (w : IqWords) : State :=
  let e : InvEntry := { k := k, vf := w.vf, va := w.va, flip := w.op = 1, bad := w.bad, acked := false, done := w.done }
  { s with host := { s.host with inv := some e } }

/-- What an invalidate entry names (R43). -/
def IqWords.inval (w : IqWords) : Inval :=
  { vf := w.vf, asid := if w.allAsid then none else some w.asid, va := w.va, len := w.len }

/-- IQ_INVALIDATE: the device takes an entry that is no flip request; a good one removes and revokes what it matches (R43,
R345). -/
def execIqInvalidate (s : State) : Host.Outcome State Fault Refusal :=
  .next (match s.iqNext with
    | none => s
    | some (k, w) =>
      if w.bad then s.iqTake k w
      else if w.op = 0 then (s.iqTake k w).invalidate w.inval
      else s)

/-- The physical range of the page at a virtual address of an address space (R45). -/
def State.pageAt (s : State) (vf asid va : Nat) : Option (Nat × Nat) :=
  match s.walk 0 (s.whoUnit 0 vf asid).root va with
  | .error _ => none
  | .ok l => some (l.pa, l.pa + pageSize l.level)

/-- The device cannot read the tables of an address space yet (R74). -/
def State.pageWaits (s : State) (vf asid va : Nat) : Bool :=
  s.astWaits vf asid || match s.walk 0 (s.whoUnit 0 vf asid).root va with | .error 0 => true | _ => false

/-- FLIP_REQUEST: the device takes a flip request; from now on no access to the page passes translation (R45, R345). Where the walk of its
address reaches no leaf there is no page: nothing is closed and no handle revoked, and the request is acknowledged as any other (log 104).
While the device cannot read the tables, it does not take the request (R74). -/
def execFlipRequest (s : State) : Host.Outcome State Fault Refusal :=
  .next (match s.iqNext with
    | none => s
    | some (k, w) =>
      if w.bad then s.iqTake k w
      else if w.op = 1 then
        if s.pageWaits w.vf w.asid w.va then s else
        let s := s.iqTake k w
        { s with host := { s.host with flips := (s.pageAt w.vf w.asid w.va).toList } }
      else s)

/-- A leaf of a page that a physical range overlaps. -/
def Leaf.within (l : Leaf) (r : Nat × Nat) : Bool := l.pa < r.2 && r.1 < l.pa + pageSize l.level

/-- Every handle on the pages of a list is revoked, and no TLB entry of them is left (R45). -/
def State.revokePages (s : State) (rs : List (Nat × Nat)) : State :=
  let hit := fun (l : Leaf) => rs.any l.within
  let keep := fun (e : TlbEntry) => !hit e.leaf
  let rev := fun (b : Bank) => b.revoke (fun v => v.state = .valid && hit v.leaf)
  { s with
    cores := s.cores.map (fun c => (c.1, { c.2 with tlb := c.2.tlb.filter keep }))
    dies := s.dies.map (fun d => (d.1, { d.2 with tlb := d.2.tlb.filter keep }))
    banks := s.banks.map (fun b => (b.1, rev b.2))
    saved := s.saved.map (fun c => (c.1, { c.2 with state := rev c.2.state })) }

/-- A durable store to the pages of a flip is not yet accepted: it is not written back to its home (R45, R73). -/
def State.flipDirty (s : State) : Bool :=
  s.betony.pending.any (fun d => d.words.any (fun w => s.host.flips.any (fun r => r.1 ≤ 8 * w.1 && 8 * w.1 < r.2)))

/-- FLIP_ACK: earlier accesses have completed and the page's writes are at their home; its handles are revoked and the flip is
acknowledged (R45); words that waited for it can go on, and so can writes of the units (R179). -/
def execFlipAck (s : State) : Host.Outcome State Fault Refusal :=
  .next (match s.host.inv with
    | some e =>
      if s.operates && e.flip && !e.bad && !e.acked && !s.flipDirty then
        let s := s.revokePages s.host.flips
        let s : State := { s with
          banks := s.banks.map (fun b => (b.1, b.2.clearWaits))
          host := { s.host with flips := [], inv := some { e with acked := true } } }
        s.retryUnits
      else s
    | none => s)

/-- INVALIDATION_COMPLETE: the completion word is written and iqhead advances (R44, R345). -/
def execInvalidationComplete (s : State) : Host.Outcome State Fault Refusal :=
  .next (match s.host.inv with
    | some e =>
      if s.operates && s.host.link && (e.bad || !e.flip || e.acked) then
        let v := if e.bad then 2 ^ 63 + e.k else e.k
        let s := s.storeOutside unitAgent (hostBase + e.done % 2 ^ 54) (leBytes 8 v)
        { s with host := { s.host with inv := none, iqhead := s.host.iqhead + 1 } }
      else s
    | none => s)

/-! ### Faults that wait for a slot (R181) -/

/-- A waiter that waits for a free record slot tries again (R181, R183). -/
def State.retryAlloc (s : State) (bid agent : Nat) : Waiter → State × Waiter
  | .alloc va code acc ver => s.recordFault bid agent code va acc ver
  | w => (s, w)

/-- The waiting words of an engine of a bank try again: its stopped word, and for the copy engine each issued word. -/
def State.retryWords (s : State) (bid agent : Nat) (e : Engine) : State :=
  let s := match ((s.bank bid).engine e).stopped with
    | some st => match st.waiter with
      | some w =>
        let (s, w) := s.retryAlloc bid agent w
        s.modBank bid (fun b => b.modEngine e (fun g => { g with stopped := some { st with waiter := some w } }))
      | none => s
    | none => s
  if e = .cx then
    (s.bank bid).flights.foldl (fun s f => match f.waiter with
      | some w =>
        let (s, w) := s.retryAlloc bid agent w
        s.modBank bid (fun b => b.modFlight f.n (fun f => { f with waiter := some w }))
      | none => s) s
  else s

/-- FAULT_RECORD_ALLOC: the fault of a control core (agent 0) or engine (1 to 4, as in R182) that found the queue full gets a record
(R181). -/
def execFaultRecordAlloc (bank agent : Nat) (s : State) : Host.Outcome State Fault Refusal :=
  .next (
    if !s.operates then s
    else match agent with
      | 0 => match (s.bank bank).waiter with
        | some w =>
          let (s, w) := s.retryAlloc bank 0 w
          s.modBank bank (fun b => { b with waiter := some w })
        | none => s
      | n + 1 => match allEngines[n]? with
        | none => s
        | some e => s.retryWords bank agent e)

end Sys2Proof.Machine
end

