-- ==== Sys2Proof/Machine/Queue.lean ====
section
/-! DEFINITION. Data queues and command queues from the control core (R159, R245 to R251), rendezvous (R252, R253), time and
promises (R66 to R69, R254), phases (R152, R256). -/

namespace Sys2Proof.Machine

/-! ### Data queues (R245 to R247) -/

def queueDepth : Nat := 32

/-- `qpush`: into the queue of every member, once each has room (R239, R245); a mismatch from now on may be the new element's (R354). -/
def execQpush (q : BitVec 3) (a : Reg) (s : State) : Host.Outcome State Fault Refusal :=
  runCc (do
    if !queueFromCore q then illegal
    let s ← get
    let ms := s.members s.cur.bid
    if ms.any (fun m => queueDepth ≤ ((s.bank m).queueOf q).length) then waitMore
    let v ← readX a
    modify (fun s => ms.foldl (fun s m => s.modBank m (fun b => { b.pushElem q ⟨v, true, b.phase, false⟩ with misOpen := false })) s)) s

/-- The head element of a queue is read: its value to rd, its valid bit to vbit (R246). -/
def queueHead (d : Reg) (q : BitVec 3) (pop : Bool) : M Unit := do
  if !queueToCore q then illegal
  let b ← curBank
  match b.queueOf q with
  | [] => waitMore
  | e :: rest =>
    if e.bad then fail (.poison none)
    modCur (fun b =>
      let b := { b with vbit := b.vbit.set q.toFin e.valid }
      (if pop then b.setQueue q rest else b).writeX d e.value)

def execQpop (d : Reg) (q : BitVec 3) (s : State) : Host.Outcome State Fault Refusal := runCc (queueHead d q true) s

def execQpeek (d : Reg) (q : BitVec 3) (s : State) : Host.Outcome State Fault Refusal := runCc (queueHead d q false) s

/-- The value that `qlvl` writes (R247). -/
def Bank.level (b : Bank) (q : BitVec 3) : Word :=
  let valid := if queueToCore q then b.vbit[q.toFin] else true
  BitVec.ofNat 64 (b2n valid * 2 ^ 63 + (b.queueOf q).length % 64)

def execQlvl (d : Reg) (q : BitVec 3) (s : State) : Host.Outcome State Fault Refusal :=
  runCc (do writeX d ((← curBank).level q)) s

/-- `qwm`: the watermark of an engine's command queue (R161, R248). -/
def execQwm (e : Engine) (a : Reg) (s : State) : Host.Outcome State Fault Refusal :=
  runCc (do
    let v := (← readX a).toNat
    if 63 < v then illegal
    modCur (fun b => b.modEngine e (fun g => { g with watermark := v }))) s

/-! ### Command queues (R249 to R251) -/

def commandDepth : Nat := 64

/-- Push entries into the command queue of every member, once each has room for all (R239, R249); a mismatch from now on may be that of a
new entry (R354). -/
def pushCommands (e : Engine) (ks : List CmdKind) : M Unit := do
  let s ← get
  let ms := s.members s.cur.bid
  if ms.any (fun m => commandDepth < ((s.bank m).engine e).level + ks.length) then waitMore
  let vers := (s.bank s.cur.bid).curVers
  let cs := ks.map (fun k => (⟨k, vers, false⟩ : Cmd))
  modify (fun s => ms.foldl (fun s m => s.modBank m (fun b =>
    { b.modEngine e (fun g => { g with queue := g.queue ++ cs }) with misOpen := false })) s)

def execEcall (e : Engine) (r : BitVec 13) (s : State) : Host.Outcome State Fault Refusal :=
  runCc (pushCommands e [.call r.toNat]) s

/-- The raw words of `epush`, word 0 first (R224). -/
def rawWords (v : Word) (n : BitVec 2) : List CmdKind :=
  (List.range (n.toNat + 1)).map (fun i => .word (v.extractLsb' (16 * i) 16))

def execEpush (e : Engine) (a : Reg) (n : BitVec 2) (s : State) : Host.Outcome State Fault Refusal :=
  runCc (do pushCommands e (rawWords (← readX a) n)) s

def execEmark (e : Engine) (a : Reg) (s : State) : Host.Outcome State Fault Refusal :=
  runCc (do pushCommands e [.marker ((← readX a).setWidth 32)]) s

/-! ### Rendezvous (R132, R252, R253) -/

def execRdvs (v : BitVec 3) (m : BitVec 4) (a : Reg) (s : State) : Host.Outcome State Fault Refusal :=
  runCc (do
    let n : BitVec 32 := (← readX a).setWidth 32
    let bid ← curBid
    modCur (fun b => { b with core := { b.core with rv := b.core.rv.set v.toFin ⟨.armed, m, n⟩ } })
    modify (·.fireRv bid)) s

/-- The domain writes that the markers a rendezvous names have released (R132, R146): those of each named engine whose number is serially at
or before its n. What a later marker released, also the one that made the condition hold, is not acquired (log 79). -/
def State.acquired (s : State) (bid : Nat) (r : Rv) : List (Nat × Nat) :=
  ((s.members bid).map (fun m => (allEngines.map (fun e =>
    if r.mask.getLsbD (engIx e).val then
      (((s.bank m).engine e).released.filter (fun x => (r.n - x.marker).toNat < 2 ^ 31)).map (fun x => (x.line, x.window))
    else [])).flatten)).flatten

def execRdvw (v : BitVec 3) (s : State) : Host.Outcome State Fault Refusal :=
  runCc (do
    let s ← get
    let bid := s.cur.bid
    let r := (s.bank bid).core.rv[v.toFin]
    match r.state with
    | .unarmed => illegal
    | .armed => waitMore
    | .fired => modCur (fun b => { b with dom := joinAll b.dom (s.acquired bid r) })) s

/-! ### Time and promises (R66 to R68) -/

def execWaitt (a : Reg) (s : State) : Host.Outcome State Fault Refusal :=
  runCc (do
    let t := (← readX a).toNat
    if (← get).cycle < t then
      modCur (fun b => { b with wait := .waitt t })
      waitMore) s

/-- The value of R66 for word `n`. -/
def Bank.prmValue (b : Bank) (n : Nat) : Nat :=
  if b.nextWord ≤ n then 1
  else match b.prom n with
    | none => 2
    | some p => match p.state with
      | .fallback => 0
      | .complete => 2
      | .waiting => 3
      | .promised => p.time

/-- The control core acquires the domain writes of copy word `n` (R67, R146). -/
def Bank.acquireCopy (b : Bank) (n : Nat) : Bank :=
  { b with
    dom := joinAll b.dom ((b.copyDom.filter (·.n = n)).flatMap (·.lines))
    copyDom := b.copyDom.map (fun c => if c.n = n then { c with acquired := true } else c) }

/-- `prm`: the value of R66; a 2 acquires the writes of the word (R67). -/
def execPrm (d a : Reg) (s : State) : Host.Outcome State Fault Refusal :=
  runCc (do
    let n := (← readX a).toNat
    let v := (← curBank).prmValue n
    if v = 2 then modCur (·.acquireCopy n)
    modCur (fun b => (b.setProm n (fun p => { p with read := p.read || p.state = PromState.promised })).writeX
      d (BitVec.ofNat 64 v))) s

/-! ### Phases (R152, R256) -/

/-- A boundary that begins phase `p` is placed in a bank: the control core's checkpoint, a boundary behind the last word of
each queue (R152, R256, R257). -/
def Bank.placeBoundary (b : Bank) (pc : Word) : Bank :=
  let p := b.phase + 1
  let b := { b with ckpts := b.ckpts ++ [b.corePart p pc], phase := p }
  let b := b.modEngines (fun _ g => { g with queue := g.queue ++ [⟨.boundary p, [], false⟩] })
  b.passBoundaries

def execPhsw (s : State) : Host.Outcome State Fault Refusal :=
  runCc (do
    let s ← get
    let bid := s.cur.bid
    let ms := s.members bid
    if ms.any (fun m => (s.bank m).committed < (s.bank m).phase) then waitMore
    let pc := (s.bank bid).core.pc + BitVec.ofNat 64 s.cur.ilen
    modify (fun s => ms.foldl (fun s m =>
      s.modBank m (fun b => b.placeBoundary (if m = bid then pc else b.core.pc))) s)) s

/-- PHASE_COMMIT: the oldest closed phase commits once every word of it has completed in every member (R152, R256). -/
def execPhaseCommit (bank : Nat) (s : State) : Host.Outcome State Fault Refusal :=
  let ms := s.members bank
  .next (if s.handleBank bank = bank && s.canCommit ms then ms.foldl (fun s m => s.commit m) s else s)

/-- WAITT_WAKE: the counter reaches the time that `waitt` waits for, and it retires (R68). -/
def execWaittWake (bank : Nat) (s : State) : Host.Outcome State Fault Refusal :=
  .next (match (s.bank bank).wait with
    | .waitt t => if t ≤ s.cycle && s.ready bank && s.isActive bank && !s.drains bank then
        s.modBank bank (fun b => (b.setPc (b.core.pc + 4#64)).retire) else s
    | _ => s)

/-- PROMISE_MISSED: the counter has passed the promise of a word that is not complete: a new promise, the count, and the trap if
the promise was read (R69). The promise of a word that waits on a fault is void until its replay makes a new one, and is not
missed (R70; log 59). -/
def execPromiseMissed (bank n promise : Nat) (s : State) : Host.Outcome State Fault Refusal :=
  let b := s.bank bank
  .next (match b.prom n with
    | some p =>
      if p.state = .promised && p.time < s.cycle && b.flights.any (·.n = n) then
        let b := b.setProm n (fun p =>
          { p with time := max (promise % 2 ^ 64) ((s.cycle + 1) % 2 ^ 64), read := false, trapped := p.trapped || p.read })
        s.setBank bank { b with
          prmiss := b.prmiss + 1
          missDue := if p.read && !p.trapped then b.missDue ++ [n] else b.missDue }
      else s
    | none => s)

end Sys2Proof.Machine
end

