-- ==== Sys2Proof/Machine/Issue.lean ====
section
/-! DEFINITION. What Yarrow lets issue (R161, R162), markers at the head of a queue (R131, R144), Yarrow's mismatches (R353,
R354), and poison in a bank's own state or in transit (R352). -/

namespace Sys2Proof.Machine

/-! ### Checked entries (R162) -/

/-- The bank holds a started task (R160). -/
def State.present (s : State) (bid : Nat) : Bool :=
  !s.host.stopped && !s.host.safe && (s.bank bid).task.any (fun t => !t.ended) && !(s.bank bid).loading

/-- The bank is active and holds a started task (R160). -/
def State.started (s : State) (bid : Nat) : Bool := s.present bid && s.isActive bid

/-- The bank holds a started task and goes on with it: it is active, or drains (R172, R179). -/
def State.engaged (s : State) (bid : Nat) : Bool := s.present bid && (s.isActive bid || s.drains bid)

/-- The engines of the bank take new entries: the bank is active and ready, holds a started task, drains for nothing and is not being saved
(R160, R172, R179). -/
def State.executes (s : State) (bid : Nat) : Bool :=
  s.started bid && s.ready bid && !s.drains bid && (s.bank bid).saving.isNone

/-- Queue-low is raised: the level of an engine's queue has fallen to a watermark that is not 0 while the control core is in
S-mode (R161, R176). Of two engines that raise it before the interrupt is taken, the later is kept (log 82). -/
def Bank.raiseLow (b : Bank) (e : Engine) : Bank :=
  let g := b.engine e
  if g.watermark ≠ 0 && g.level = g.watermark && b.core.priv = .super then
    { b with lowDue := some e, core := { b.core with csr := { b.core.csr with
        sip := b.core.csr.sip ||| BitVec.twoPow 64 16 } } }
  else b

/-- The number of elements of a queue towards an engine, or at `cmdKey` of entries of its command queue, that Yarrow has compared. -/
def Bank.compared (b : Bank) (e : Engine) (key : Nat) : Nat := PMap.get 0 (b.engine e).checked key

/-- The head entry of an engine's command queue issues: a call sets the micro-PC (R157). -/
def Bank.issue (b : Bank) (e : Engine) (c : Cmd) (rest : List Cmd) : Bank :=
  let upc := match c.kind with | .call a => some a | _ => none
  let b := b.modEngine e (fun g => { g with
    queue := rest, entry := some c, regs := { g.regs with upc := upc }, checked := PMap.put g.checked cmdKey (b.compared e cmdKey - 1) })
  { b.raiseLow e with misOpen := false }

/-- Yarrow's copy of the next element of a queue arrives and matches; a word that waited for it can go on. -/
def Bank.compare (b : Bank) (e : Engine) (q : BitVec 3) : Bank :=
  { b.modEngine e (fun g => { g with checked := PMap.put g.checked q.toNat (b.compared e q.toNat + 1), waited := false }) with
    misOpen := false }

/-- The next element towards an engine is compared, where there is one. -/
def State.compareNext (s : State) (bid : Nat) (e : Engine) (b : Bank) : State :=
  match b.uncompared e with
  | some q => s.setBank bid (b.compare e q)
  | none => s

/-- CHECKED_ENTRY_ISSUE: Yarrow's copy of an entry arrives and matches: the head of the command queue of an idle engine issues;
else the next data element towards the engine may be taken (R157, R162). While the bank drains, active or not, no entry issues (R179). An entry whose word
is poisoned is consumed (R352). -/
def execCheckedEntryIssue (bank : Nat) (e : Engine) (s : State) : Host.Outcome State Fault Refusal :=
  .next (
    if !s.executes bank then (if s.present bank && s.drains bank then s.compareNext bank e (s.bank bank) else s)
    else
      let b := (s.bank bank).passBoundary e 3
      let g := b.engine e
      match g.entry, g.stopped, g.mark, g.queue with
      | none, none, none, c :: rest =>
        if c.bad then s.agentPoison bank (some e) none else s.setBank bank (b.issue e c rest)
      | _, _, _, _ => s.compareNext bank e b)

/-! ### Markers (R131, R144, R152) -/

/-- MARKER_RETIRE: the marker at the head of an engine's queue retires (R131). -/
def execMarkerRetire (bank : Nat) (e : Engine) (s : State) : Host.Outcome State Fault Refusal :=
  .next (if s.executes bank && (s.bank bank).markerReady e then s.retirePending bank e else s)

/-! ### Yarrow's mismatches (R162, R353, R354) -/

/-- A mismatch is counted on every uncommitted phase: it cancels them all (R353; log 67). -/
def Bank.countMismatch (b : Bank) : Bank :=
  { b with mismatches := b.openPhases.foldl (fun m p => PMap.put m p (PMap.get 0 m p + 1)) b.mismatches }

/-- YARROW_MISMATCH: a copy does not match: it is counted, and the bank and its gang roll back; three on one phase end the nest and mark
the core failed (R162, R353 to R355). Where the consumption of an error has rolled the bank back while the comparison was pending, one
rollback serves both (R354). -/
def execYarrowMismatch (bank : Nat) (s : State) : Host.Outcome State Fault Refusal :=
  .next (
    let b := s.bank bank
    if !s.engaged bank || !(b.comparing || b.misOpen) then s
    else
      let d := dieOf bank
      let s := if (s.die d).ymis < 0xFFFF then (s.modDie d (fun d => { d with ymis := d.ymis + 1 })).rasRise d else s
      let s := s.modBank bank Bank.countMismatch
      if b.openPhases.any (fun p => 3 ≤ PMap.get 0 (s.bank bank).mismatches p) then
        (s.modCore (coreOf bank) (fun c => { c with failed := true })).terminateOf bank 0x14
      else if b.misOpen then s.modBank bank (fun b => { b with misOpen := false })
      else
        let ms := s.members (s.handleBank bank)
        (ms.foldl (fun s m => s.rollback m) s).fireAll ms)

/-! ### Poison (R352) -/

/-- POISON_CONSUME: a bank's own checkpoint, queue or register state, or a value in transit from a line, is found uncorrectable, whether or not
the bank is active: it rolls back, or ends its nest where the checkpoint that the rollback needs is the one (R352, R353). -/
def execPoisonConsume (bank : Nat) (p : PoisonRead) (s : State) : Host.Outcome State Fault Refusal :=
  .next (if s.present bank then s.consumePoison bank (s.bank bank).committed (some p.line) p.ckpt else s)

/-! ### The end of a domain fence's wait (R146) -/

/-- FENCE_S_WAIT_END: every covered domain write has become visible, and the `fence.s` retires (R146). -/
def execFenceSWaitEnd (bank : Nat) (s : State) : Host.Outcome State Fault Refusal :=
  let b := s.bank bank
  .next (match b.wait with
    | .fenceS _ =>
      if s.executes bank && !s.fenceHeld b && s.fenceOver b then s.setBank bank (b.setPc (b.core.pc + 4#64)).retire
      else s
    | _ => s)

end Sys2Proof.Machine
end

