-- ==== Sys2Proof/Machine/Outside.lean ====
section
/-! DEFINITION. Accesses from outside the package (R28, R343), the host link and its loss (R46, R150, R348), peer links (R343),
and snoops (R149). -/

namespace Sys2Proof.Machine

/-! ### The HDM range (R343) -/

def hdmSize : Nat := 0x5000000000

/-- The physical address of an HDM offset: the DRAM of the four dies, then the durable tier (R343). -/
def hdmPa (off : Nat) : Nat := if off < 4 * dramSpan then off else durableBase + (off - 4 * dramSpan)

/-- Link-loss holding areas and the reserved area: they read as all ones and discard writes (R343). -/
def shut (pa : Nat) : Bool := match regionOf pa with | .holding _ | .reserved => true | _ => false

/-- Bytes of an answer, one per word. -/
def answerBytes (bs : List Byte) : List Word := bs.map (·.setWidth 64)

/-- A byte as the host reads it. -/
def State.hostByte (s : State) (pa : Nat) : Byte := if shut pa then 0xFF#8 else s.mem.get pa

/-- The bytes of an outside access do not exist: beyond the range, or beyond the DRAM in service (R343, R359). -/
def State.hdmMissing (s : State) (off len : Nat) : Bool :=
  hdmSize < off + len || (List.range len).any (fun i =>
    match regionOf (hdmPa (off + i)) with
    | .dram d => decide (s.dramBytes d ≤ hdmPa (off + i) % dramSpan)
    | _ => false)

/-- HOST_MEM_ACCESS: a read or a write of the host through the HDM range. A read answers with its bytes, and with nothing where it
meets a poisoned line; a write to the durable tier is a durable store of the host, one request for each line (R28, R72, R85, R343, R351).
An access of which a byte lies in the tier waits while that is not ready (R74). -/
def execHostMemAccess (off len : Nat) (data : Option (List Byte)) (s : State) : Host.Outcome State Fault Refusal :=
  let pa := hdmPa off
  if !s.operates || !s.host.link || (!s.betony.rdy && (isDurable pa || isDurable (hdmPa (off + (len - 1))))) then .next s
  else if s.hdmMissing off len then .fault .noAddress
  else match data with
    | none =>
      let bs := (List.range len).map (fun i => s.hostByte (hdmPa (off + i)))
      let a := if (linesOf pa len).any s.poison.contains then [] else answerBytes bs
      .next { s with host := { s.host with answer := a } }
    | some d =>
      let d := d.take len
      .next ((pieces off d.length).foldl (fun s q =>
        let at' := hdmPa (off + q.1)
        if shut at' then s else s.storeOutside hostAgent at' ((d.drop q.1).take q.2)) s)

/-- This module's memory that another module reaches through peer memory: DRAM in service, and the durable tier (R27, R50, R359). -/
def State.peerReaches (s : State) (pa len : Nat) : Bool :=
  (List.range len).all (fun i =>
    match regionOf (pa + i) with
    | .dram d => decide ((pa + i) % dramSpan < s.dramBytes d)
    | .durable => true
    | _ => false)

/-- A write of an agent of another module; a reservation of its own stands (R72, R149). -/
def State.storePeer (s : State) (agent pa : Nat) (data : List Byte) : State :=
  s.storeFrom (peerAgent agent) (some (peerHolder agent)) pa data

/-- What an agent of another module receives. -/
def State.answers (s : State) (l : List Word) : State := { s with host := { s.host with answer := l } }

def HostSt.setPeerResv (h : HostSt) (agent : Nat) (r : Resv) : HostSt := { h with peerResvs := PMap.put h.peerResvs agent r }
def HostSt.dropPeerResv (h : HostSt) (agent : Nat) : HostSt := { h with peerResvs := PMap.erase h.peerResvs agent }

/-- An agent of another module holds a reservation on exactly these bytes (R149). -/
def State.peerReserves (s : State) (agent pa n : Nat) : Bool :=
  (PMap.find s.host.peerResvs agent).any (fun r => r.addr = pa && r.size = n)

/-- The bytes that an atomic of another module takes; none for a read or a write (R125). -/
def peerAtomic : PeerKind → Option Nat
  | .read | .write _ => none
  | .amo _ dbl _ | .lr dbl | .sc dbl _ => some (amoSize dbl)

/-- An access of an agent of another module that is performed here, its home (R148). An AMO stores its result and answers the old value; an LR
answers the value, and reserves its bytes; an SC stores where that reservation still stands, and answers 0 or 1 (R125, R149; log 109). -/
def State.peerActs (s : State) (pa len : Nat) (a : PeerOp) : State :=
  let old := fun (dbl : Bool) => leNat (s.mem.read pa (amoSize dbl))
  match a.kind with
  | .read => s.answers (answerBytes (s.mem.read pa len))
  | .write d => s.storePeer a.agent pa (d.take len)
  | .amo op dbl src =>
    (s.storePeer a.agent pa (leBytes (amoSize dbl) (amoStored op dbl (old dbl) src))).answers [amoValue dbl (old dbl)]
  | .lr dbl =>
    let r : Resv := { addr := pa, size := amoSize dbl, value := old dbl, time := s.cycle, domain := true }
    { s with host := s.host.setPeerResv a.agent r }.answerSnoops.answers [amoValue dbl (old dbl)]
  | .sc dbl src =>
    let ok := s.peerReserves a.agent pa (amoSize dbl)
    let s := if ok then s.storePeer a.agent pa (leBytes (amoSize dbl) src.toNat) else s
    { s with host := s.host.dropPeerResv a.agent }.answerSnoops.answers [if ok then 0#64 else 1#64]

/-- PEER_ACCESS: an agent of another module reads or writes this module's DRAM or durable tier through peer memory, or performs an atomic
there (R27, R72, R140, R145, R148). An access to any other part of the range, and an atomic that is not aligned, is not performed: it ends at
its requester (R50, R125); what reads a poisoned line answers nothing (R351). -/
def execPeerAccess (pa len : Nat) (a : PeerOp) (s : State) : Host.Outcome State Fault Refusal :=
  let n := (peerAtomic a.kind).getD len
  let bad : Bool := match a.kind with | .write _ | .sc .. => false | _ => (linesOf pa n).any s.poison.contains
  if !s.operates || (isDurable pa && !s.betony.rdy) then .next s
  else if !s.peerReaches pa n || ((peerAtomic a.kind).isSome && pa % n ≠ 0) || bad then .next (s.answers [])
  else .next (s.peerActs pa len a)

/-! ### Loss and return of the host link (R46, R150, R348) -/

/-- Every domain write that an agent has issued, acquired or released, with its window: replaced, or dropped. -/
def mapLines (f : Nat → Nat → Option Nat) (l : List (Nat × Nat)) : List (Nat × Nat) :=
  l.filterMap (fun d => (f d.1 d.2).map (fun w => (d.1, w)))

def Bank.mapDom (b : Bank) (f : Nat → Nat → Option Nat) : Bank :=
  let b := { b with
    dom := mapLines f b.dom
    phaseDom := mapLines f b.phaseDom
    copyDom := b.copyDom.map (fun c => { c with lines := mapLines f c.lines })
    flights := b.flights.map (fun c => { c with lines := c.lines.filter (fun l => (f l 0).isSome) }) }
  [Engine.mx, .vx, .cx, .sx].foldl (fun b e => b.modEngine e (fun g =>
    { g with
      domWrites := g.domWrites.filter (fun d => (f d.2 0).isSome)
      released := g.released.filterMap (fun r => (f r.line r.window).map (fun w => { r with window := w })) })) b

def State.mapDom (s : State) (f : Nat → Nat → Option Nat) : State :=
  { s with
    banks := s.banks.map (fun b => (b.1, b.2.mapDom f))
    saved := s.saved.map (fun c => (c.1, { c.2 with state := c.2.state.mapDom f })) }

/-- An entry of the link-loss record (R348). -/
def HeldLine.entry (l : HeldLine) : Nat × Nat := (l.line * 64 - hostBase, l.vf)

/-- HOST_LINK_DOWN: dirty host-homed lines move to the holding area of their die, and the home keeps the bytes it has; the
host goes on with the lines of its own memory that it waited for (R46, R150, R348). A reservation on such a line stands (log 108). A
back-invalidate of a line of this module's memory waits on (R149; log 121). -/
def execHostLinkDown (s : State) : Host.Outcome State Fault Refusal :=
  .next (
    if !s.host.link then s
    else
      let hold := fun (s : State) (l : HeldLine × Nat) =>
        let now := s.mem.read (l.1.line * 64) 64
        let s := s.modDie l.2 (fun d => { d with
          heldLines := d.heldLines ++ [{ l.1 with data := now }]
          linkRec := d.linkRec ++ [l.1.entry] })
        { s with mem := s.mem.write (l.1.line * 64) l.1.data }
      let s := s.dirtyHost.foldl hold s
      let s := [0, 1, 2, 3].foldl (fun (s : State) d => s.modDie d (fun x => { x with linkDown := true })) s
      let (own, rest) := s.host.snoops.partition (fun n => isHost (n.line * 64))
      own.foldl (fun s n => s.hostActs n) { s with dirtyHost := [], host := { s.host with link := false, snoops := rest } })

/-- HOST_LINK_UP: CXL.io comes up; the dies stay in the link-down state until each is settled (R348). -/
def execHostLinkUp (s : State) : Host.Outcome State Fault Refusal :=
  .next (if s.host.stopped then s else { s with host := { s.host with link := true } })

/-- A LINKREC ends the record that the one before it kept, and itself keeps one or none; the die leaves the link-down state (R348). -/
def State.settleDie (s : State) (d : Nat) (record : List (Nat × Nat)) : State :=
  s.modDie d (fun x => { x with heldLines := [], linkRec := record, linkKept := record.length, linkDown := false })

/-- The entries of a die's link-loss record since its latest LINKREC: the lines held, and those that a reset of their VF has discarded since
(R347, R348). -/
def Die.newRecord (d : Die) : List (Nat × Nat) := d.linkRec.drop d.linkKept

/-- A die can be settled: the link has trained again (R348). -/
def State.canSettle (s : State) (d : Nat) : Bool := d < 4 && s.host.link

/-- Domain writes to lines that are dropped belong to no fence any more (R150). -/
def State.dropLines (s : State) (ls : List HeldLine) : State :=
  s.mapDom (fun l old => if ls.any (·.line = l) then none else some old)

/-- LINKREC_ACCEPT: every held line is written back; the write-back's window is its stores' issue window (R150, R348). -/
def execLinkrecAccept (die : Nat) (s : State) : Host.Outcome State Fault Refusal :=
  s.command false false (fun s => .next (
    if !s.canSettle die then s
    else
      let ls := (s.die die).heldLines
      let s := ls.foldl (fun s l => s.storeOutside unitAgent (l.line * 64) l.data) s
      let w := s.window
      (s.mapDom (fun l old => some (if ls.any (·.line = l) then w else old))).settleDie die []))

/-- LINKREC_DISCARD: every held line is dropped, and its stores never become visible; the record stays until the next LINKREC of the die, and
what an earlier one kept of it ends now (R150, R348). -/
def execLinkrecDiscard (die : Nat) (s : State) : Host.Outcome State Fault Refusal :=
  s.command false false (fun s => .next (
    if !s.canSettle die then s
    else
      let ls := (s.die die).heldLines
      (s.dropLines ls).settleDie die (s.die die).newRecord))

/-- LINKLOG: the link-loss record of a die: host physical address and VF of each line (R348). -/
def execLinklog (die : Nat) (s : State) : Host.Outcome State Fault Refusal :=
  s.command false false (fun s => .next (
    if 4 ≤ die then s
    else { s with host := { s.host with
      answer := (s.die die).linkRec.flatMap (fun e => [BitVec.ofNat 64 e.1, BitVec.ofNat 64 e.2]) } }))

/-! ### Peer links and snoops (R149, R343) -/

/-- PEER_LINK_DOWN: accesses to the module's memory fault with link-down (R343). -/
def execPeerLinkDown (m : Nat) (s : State) : Host.Outcome State Fault Refusal :=
  .next (if s.host.peersDown.contains m then s else { s with host := { s.host with peersDown := s.host.peersDown ++ [m] } })

/-- PEER_LINK_UP: the module's memory can be reached again (R343). -/
def execPeerLinkUp (m : Nat) (s : State) : Host.Outcome State Fault Refusal :=
  .next { s with host := { s.host with peersDown := s.host.peersDown.filter (· ≠ m) } }

/-- A line that the host takes from the device's caches, by a snoop or by back-invalidate: one of its own memory, of DRAM or of the durable
tier (R148, R343). -/
def State.snoopable (s : State) (line : Nat) : Bool :=
  match regionOf (line * 64) with
  | .host => true
  | .dram d => decide (line * 64 % dramSpan < s.dramBytes d)
  | .durable => s.betony.rdy
  | _ => false

/-- HOST_SNOOP: the host takes a line, and performs its atomic on it; while an LR keeps the line, the snoop waits (R148, R149). While the
link is down the device holds no line of host memory, and the host acts there by itself (R150). -/
def execHostSnoop (n : Snoop) (s : State) : Host.Outcome State Fault Refusal :=
  .next (
    if !s.operates || !s.snoopable n.line then s
    else if !s.host.link then (if isHost (n.line * 64) then s.hostActs n else s)
    else if s.owned n.line then { s with host := { s.host with snoops := s.host.snoops ++ [n] } }
    else s.takeLine n)

end Sys2Proof.Machine
end

