-- ==== Sys2Proof/Machine/Manage.lean ====
section
/-! DEFINITION. The management path: registers and commands of the PF (R344 to R346), resetting a VF (R347), TDISP, SPDM and IDE
(R342, R349), time lock (R142), and detected errors (R351, R355, R356). -/

namespace Sys2Proof.Machine

/-! ### Reading registers (R344) -/

/-- Accepted bytes not yet on the media, in KiB, rounded up (R74). -/
def Betony.bufKib (t : Betony) : Nat := (t.held + 1023) / 1024

def dtstat (t : Betony) : Nat := t.bufKib * 2 ^ 32 + b2n t.hok * 2 + b2n t.rdy

/-- TSTAT (R142). -/
def HostSt.tstat (h : HostSt) : Nat :=
  h.tstatErr.toNat * 2 ^ 32 + b2n h.tstatRef * 2 + b2n (decide (h.tstatErr.toNat ≤ 32))

/-- RASSTAT (R355). -/
def Die.rasstat (d : Die) : Nat := d.ucons * 2 ^ 48 + d.ymis * 2 ^ 32 + d.corr

/-- The value of a register, or none where the die has none of that number (R344). -/
def State.regValue (s : State) : MgmtReg → Option Word
  | .dtstat => some (BitVec.ofNat 64 (dtstat s.betony))
  | .tstat => some (BitVec.ofNat 64 s.host.tstat)
  | .domcfg => some s.host.domcfg
  | .biststat => some s.host.bist
  | .caps d => if d < 4 then some (s.die d).caps else none
  | .schedcfg d => if d < 4 then some (s.die d).schedcfg else none
  | .l2part d => if d < 4 then some (s.die d).l2part else none
  | .rasstat d => if d < 4 then some (BitVec.ofNat 64 (s.die d).rasstat) else none
  | .gdrop d v => if d < 4 && v < 512 then some (PMap.get 0 (s.die d).gdrop v) else none
  | .ring d r w =>
    if d < 4 && r < ringCount then
      match w with
      | 0 => some ((s.die d).ring r).w0
      | 1 => some ((s.die d).ring r).w1
      | _ => none
    else none

/-- REG_READ: the value of a register; a read of RASSTAT arms vector 1 again (R344, R355). -/
def execRegRead (r : MgmtReg) (s : State) : Host.Outcome State Fault Refusal :=
  s.command true true (fun s =>
    match s.regValue r with
    | none => .fault .noAddress
    | some v =>
      let s := { s with host := { s.host with answer := [v] } }
      .next (match r with
        | .rasstat d => s.modDie d (fun x => { x with rasRaised := false })
        | _ => s))

/-- RSVD_READ: bytes of the reserved area (R86, R344). -/
def execRsvdRead (off len : Nat) (s : State) : Host.Outcome State Fault Refusal :=
  s.command true true (fun s =>
    if durableEnd - reservedBase < off + len then .fault .noAddress
    else .next { s with host := { s.host with answer := answerBytes (s.mem.read (reservedBase + off) len) } })

/-! ### Resetting a VF (R347) -/

/-- Rings of a VF become idle on a die; other rings take the slots they free (R194, R347). -/
def State.idleRings (s : State) (vf d : Nat) : State :=
  let mine := ((s.die d).rings.filter (fun r => r.2.vf = vf && (r.2.active || r.2.pending))).map (·.1)
  let s := s.modDie d (fun x => { x with rings := x.rings.map (fun r =>
    (r.1, if mine.contains r.1 then { r.2 with pending := false } else r.2)) })
  mine.foldl (fun s r => s.modDie d (·.idleRing r s.cycle)) s

/-- What a VF loses on a die: its fault records, its held lines, its energy counter, its GDROP register, its TLB entries (R347). -/
def Die.forget (d : Die) (vf : Nat) : Die :=
  { d with
    faults := d.faults.filter (fun r => r.2.vf ≠ vf)
    heldLines := d.heldLines.filter (fun l => l.vf ≠ vf)
    vfEnergy := PMap.erase d.vfEnergy vf
    gdrop := PMap.erase d.gdrop vf
    tlb := d.tlb.filter (fun e => e.vf ≠ vf) }

/-- A VF reset: every nest of the VF ends with the one cause, also where another of them was its predecessor; the VF's generation counter and
the binding generations of its names stay (R347; log 112). -/
def State.resetVf (s : State) (vf : Nat) : State :=
  let s := s.terminateAll ((s.nests.filter (·.vf = vf)).map (·.id)) 0xF3
  let s := s.dropLines ([0, 1, 2, 3].flatMap (fun d => (s.die d).heldLines.filter (·.vf = vf)))
  let s := [0, 1, 2, 3].foldl (fun (s : State) d => s.modDie d (·.forget vf)) s
  let slots := (s.slots.filter (fun e => e.2.used && e.2.vf = vf)).map (·.1)
  let s := slots.foldl (fun s i => s.freeSlot i) s
  let s := [0, 1, 2, 3].foldl (fun (s : State) d => s.idleRings vf d) s
  { s with cores := s.cores.map (fun c => (c.1, { c.2 with tlb := c.2.tlb.filter (fun e => e.vf ≠ vf) })) }

/-- FLR of a VF (R347). -/
def execFlr (vf : Nat) (s : State) : Host.Outcome State Fault Refusal :=
  if 512 ≤ vf then .fault .noAddress else .next (if s.operates then s.resetVf vf else s)

/-! ### TDISP (R349) -/

def State.setTdi (s : State) (vf : Nat) (t : Tdi) : State := s.setVf vf { s.vf vf with tdi := t }

/-- The configuration block and the ring-table entries of the VF are frozen (R349). -/
def State.frozen (s : State) (vf : Nat) : Bool := (s.vf vf).tdi = .locked || (s.vf vf).tdi = .run

/-- A PF write to a frozen item: it is dropped, the TDI goes to ERROR and the VF is reset (R349). -/
def State.tdispError (s : State) (vf : Nat) : State := (s.setTdi vf .error).resetVf vf

/-- TDISP messages travel inside an SPDM session (R349). -/
def State.tdisp (s : State) (vf : Nat) (f : Tdi → Tdi) : Host.Outcome State Fault Refusal :=
  .next (if s.operates && vf < 512 && s.host.session.isSome then s.setTdi vf (f (s.vf vf).tdi) else s)

def execLockInterface (vf : Nat) (s : State) : Host.Outcome State Fault Refusal :=
  s.tdisp vf (fun t => if t = .unlocked then .locked else t)

def execStartInterface (vf : Nat) (s : State) : Host.Outcome State Fault Refusal :=
  s.tdisp vf (fun t => if t = .locked then .run else t)

def execStopInterface (vf : Nat) (s : State) : Host.Outcome State Fault Refusal := s.tdisp vf (fun _ => .unlocked)

/-! ### Notify registers (R193) -/

/-- NOTIFY: an access to a 64-bit register of a VF's BAR2. A read gives zero; the value written is ignored (R7, R193). While the VF is in
RUN, an access without IDE protection is a TDISP error and has no other effect (R349). -/
def execNotify (vf off : Nat) (a : BarAccess) (s : State) : Host.Outcome State Fault Refusal :=
  .next (
    if !s.operates || 512 ≤ vf then s
    else if !a.protect && (s.vf vf).tdi = .run then s.tdispError vf
    else match a.data with
      | none => { s with host := { s.host with answer := [0] } }
      | some _ => if off % 8 = 0 then s.notified vf (notifyRing off).1 (notifyRing off).2 else s)

/-! ### Measurements and sessions (R349) -/

/-- The image in a firmware slot; a slot that nothing was staged to holds the image of manufacture (log 11). -/
def HostSt.slot (h : HostSt) (i : Nat) : List Byte :=
  let image := if i = 0 then h.fw0 else h.fw1
  if image.isEmpty then Config.factoryImage else image

/-- The active firmware image. -/
def HostSt.fwImage (h : HostSt) : List Byte := h.slot h.fwActive

/-- The security version number in an image's header (R350). -/
def fwVersion (image : List Byte) : Nat := leNat ((image.drop 8).take 4)

/-- The four measurement blocks, index 1 first (R349; log 11). -/
def State.measured (s : State) : List (List Byte) :=
  let h := s.host
  [Config.bootRom, h.fwImage, leBytes 4 (fwVersion h.fwImage),
    Config.fuseBlock h.fwMin ((List.range 4).map (fun d => (s.die d).caps.toNat)) h.burnt h.retired]

/-- GET_MEASUREMENTS: the SHA-256 digests of the measurement blocks (R349). -/
def execGetMeasurements (s : State) : Host.Outcome State Fault Refusal :=
  .next (if s.host.stopped then s
    else { s with host := { s.host with answer := answerBytes (s.measured.flatMap sha256) } })

/-- SPDM_KEY_EXCHANGE: a session is opened; the device shows the identity chain of slot 0 (R349; log 11). -/
def execSpdmKeyExchange (s : State) : Host.Outcome State Fault Refusal :=
  .next (if s.host.stopped then s
    else { s with host := { s.host with session := some (Config.sessionKey s.ticks), answer := answerBytes Config.identityChain } })

/-- IDE_KM: the keys of one of the five ports, over the session (R342, R349). -/
def execIdeKm (port : Nat) (key : BitVec 256) (s : State) : Host.Outcome State Fault Refusal :=
  .next (if s.host.stopped || s.host.session.isNone || 5 ≤ port then s
    else { s with host := { s.host with ideKeys := PMap.put s.host.ideKeys port key } })

/-! ### Writing registers (R344 to R346, R375) -/

/-- L2PART is written: cache parts are written back, staging bytes that change side are undefined (R54). -/
def State.writeL2part (s : State) (die : Nat) (v : Word) : State :=
  let old := s.stagingSize die
  let s := s.modDie die (fun d => { d with l2part := v &&& 15#64 })
  let new := s.stagingSize die
  let blank := fun (m : Mem) (slice : Nat) =>
    let b := l2Base + (die * 24 + slice) * coreSpan
    m.blank (b + min old new) (b + max old new) (some s.ticks)
  { s with
    mem := if old = new then s.mem else (List.range 24).foldl blank s.mem
    dirtyHost := s.dirtyHost.filter (fun l => l.2 ≠ die) }

def execL2partWrite (die : Nat) (v : Word) (s : State) : Host.Outcome State Fault Refusal :=
  s.command false false (fun s => if 4 ≤ die then .fault .noAddress else .next (s.writeL2part die v))

/-- The writable bits of a ring-table word (R191). -/
def ringMask (word : Nat) : Word := if word = 0 then 0xFFFFFFFFFFFFFFFF#64 else 0xFFFFFF8000000007#64

/-- A ring-table entry is written, unless it belongs to a VF whose items are frozen (R191, R349). A ring that is pending or active stays so,
whatever is written to its entry (log 86). -/
def State.writeRing (s : State) (d r word : Nat) (v : Word) : State :=
  let g := (s.die d).ring r
  if g.en && s.frozen g.vf then s.tdispError g.vf
  else
    let v := v &&& ringMask word
    s.modDie d (fun x => x.setRing r (if word = 0 then { g with w0 := v } else { g with w1 := v }))

/-- REG_WRITE: a write of a configuration register; a write of a read-only one is ignored (R7, R344, R375). -/
def execRegWrite (r : MgmtReg) (v : Word) (s : State) : Host.Outcome State Fault Refusal :=
  s.command false false (fun s =>
    if (s.regValue r).isNone then .fault .noAddress
    else .next (match r with
      | .l2part d => s.writeL2part d v
      | .schedcfg d => s.modDie d (fun x => { x with schedcfg := v })
      | .domcfg => { s with host := { s.host with domcfg := v &&& 0x3F#64 } }
      | .ring d r w => s.writeRing d r w v
      | _ => s))

/-- FLASH_LOAD: flash contents are written, whole 4 KiB blocks at once for any reader (R59). -/
def execFlashLoad (off : Nat) (data : List Byte) (s : State) : Host.Outcome State Fault Refusal :=
  s.command false false (fun s =>
    if flashSize < off + data.length then .fault .noAddress
    else .next (s.storeOutside unitAgent (flashBase + off) data))

/-- VF_ENABLE: the generation counter starts at 1, and no name has a binding generation (R93, R346). In the safe state a VF cannot be
enabled (R361). -/
def State.enableVf (s : State) (vf : Nat) : State :=
  let f := s.vf vf
  if f.en || s.host.safe then s
  else { s.setVf vf { f with en := true, gen := 1 } with nameGen := s.nameGen.filter (fun e => e.1.1 ≠ vf) }

/-- Word `i` of a VF's configuration block is written (R346). -/
def State.writeVf (s : State) (vf i : Nat) (v : Word) : State :=
  let f := s.vf vf
  let n := v.toNat
  match i with
  | 0 => s.setVf vf { f with astbase := v }
  | 1 => s.setVf vf { f with astsize := bits n 0 17 }
  | 2 => s.setVf vf { f with svec := v }
  | _ =>
    let s := s.setVf vf { f with weight := bits n 24 8, quota := bits n 0 16, en := f.en && bit n 63 }
    let s := if bit n 63 then s.enableVf vf else s
    if bit n 62 then s.resetVf vf else s

/-- A PF write to a VF's configuration block: where that is frozen, the VF goes to ERROR (R346, R349). -/
def State.pfWriteVf (s : State) (vf : Nat) (f : State → State) : State :=
  if s.frozen vf then s.tdispError vf else f s

/-- VF_ENABLE: the PF writes `en` (R93, R346). -/
def execVfEnable (vf : Nat) (s : State) : Host.Outcome State Fault Refusal :=
  if 512 ≤ vf then .fault .noAddress
  else .next (if s.host.stopped then s else s.pfWriteVf vf (·.enableVf vf))

/-- VF_RESET: the PF writes `rst` (R346, R347). -/
def execVfReset (vf : Nat) (s : State) : Host.Outcome State Fault Refusal :=
  if 512 ≤ vf then .fault .noAddress
  else .next (if s.host.stopped then s else s.pfWriteVf vf (·.resetVf vf))

/-- Word `i` of a VF's configuration block as a read shows it: `rst` and the reserved bits read zero (R7, R346). -/
def Vf.word (f : Vf) : Nat → Word
  | 0 => f.astbase
  | 1 => BitVec.ofNat 64 f.astsize
  | 2 => f.svec
  | _ => BitVec.ofNat 64 (b2n f.en * 2 ^ 63 + f.weight * 2 ^ 24 + f.quota)

/-- The VF and the word of its configuration block at an offset of PF BAR0 (R346). -/
def vfWord (off : Nat) : Option (Nat × Nat) :=
  if 0x100000 ≤ off && off < 0x104000 && off % 8 = 0 then some ((off - 0x100000) / 32, (off - 0x100000) % 32 / 8) else none

/-- The value of a 64-bit register of PF BAR0, or none where there is none (R345, R346). -/
def State.barValue (s : State) (off : Nat) : Option Word :=
  let h := s.host
  if off = 0x1000 then some h.iqbase
  else if off = 0x1008 then some (BitVec.ofNat 64 h.iqlog)
  else if off = 0x1010 then some h.iqtail
  else if off = 0x1018 then some h.iqhead
  else (vfWord off).map (fun x => (s.vf x.1).word x.2)

/-- A 64-bit register of PF BAR0 is written: the invalidation queue's registers and the VF configuration blocks; `iqhead` is read-only
(R345, R346). -/
def State.barWrite (s : State) (off : Nat) (v : Word) : State :=
  let h := s.host
  if off = 0x1000 then { s with host := { h with iqbase := v } }
  else if off = 0x1008 then { s with host := { h with iqlog := bits v.toNat 0 4 } }
  else if off = 0x1010 then { s with host := { h with iqtail := v } }
  else match vfWord off with
    | some (vf, i) => s.pfWriteVf vf (fun s => s.writeVf vf i v)
    | none => s

/-- REGISTER_WRITE: an access to a 64-bit register of PF BAR0 that has no row of its own: a write of a value, or a read, which answers with
the value (R7, R345, R346; log 90). -/
def execRegisterWrite (off : Nat) (v : Option Word) (s : State) : Host.Outcome State Fault Refusal :=
  match s.barValue off with
  | none => .fault .noAddress
  | some old =>
    .next (if s.host.stopped then s
      else match v with
        | some v => s.barWrite off v
        | none => { s with host := { s.host with answer := [old] } })

/-! ### Time lock (R142) and detected errors (R351, R355, R356) -/

/-- TSTAT_LOCK_CHANGE: the bound on the time error, and whether the references are present (R142). -/
def execTstatLockChange (err : BitVec 16) (ref : Bool) (s : State) : Host.Outcome State Fault Refusal :=
  .next (if s.host.stopped then s else { s with host := { s.host with tstatErr := err, tstatRef := ref } })

/-- The entry count of the pending list, and one of its entries (R356). -/
def State.pprCount (s : State) : Nat := bits (s.mem64 reservedBase) 0 12
def State.pprEntry (s : State) (i : Nat) : Nat := s.mem64 (reservedBase + 64 + 16 * i)

/-- The device writes a doubleword of the reserved area, which is kept on the media (R86). -/
def State.writeReserved (s : State) (off v : Nat) : State :=
  { s with
    mem := s.mem.write (reservedBase + off) (leBytes 8 v)
    betony := { s.betony with media := s.betony.media.write (reservedBase + off) (leBytes 8 v) } }

/-- A DRAM fault goes to the pending list, unless it is there; a full list retires the channel at the next start (R356). -/
def State.pprAdd (s : State) (word0 : Word) : State :=
  let n := s.pprCount
  if (List.range n).any (fun i => s.pprEntry i = word0.toNat) then s
  else if 4092 ≤ n then { s with host := { s.host with retired := bits word0.toNat 58 6 :: s.host.retired } }
  else ((s.writeReserved (64 + 16 * n) word0.toNat).writeReserved (72 + 16 * n) s.cycle).writeReserved 0 (n + 1)

/-- Whether the device holds anything at an address (R351). -/
def isHeld (pa : Nat) : Bool :=
  (laneBase ≤ pa && pa < laneBase + 96 * 0x40000)
    || match regionOf pa with | .unmapped | .peer _ => false | _ => true

/-- The row of a pending-list entry: die, channel, bank and row, without the kind and the column (R356). -/
def faultRow (w : Word) : Word := w &&& 0xFCFFFFFF00000000#64

/-- Nanoseconds of a second. -/
def secondNs : Nat := 1000000000

/-- A correctable error of a row is noted: the sixteenth within a second lists the fault (R356). -/
def State.rowError (s : State) (die : Nat) (w : Word) : State :=
  let recent := (s.die die).rowErrs.filter (fun e => (s.ftime + (2 ^ 64 - e.2)) % 2 ^ 64 < secondNs)
  let l := (faultRow w, s.ftime) :: recent
  let s := s.modDie die (fun x => { x with rowErrs := l })
  if 16 ≤ (l.filter (·.1 = faultRow w)).length then s.pprAdd w else s

/-- An SRAM word of a bank, or of its core's engine stores, is poisoned (R351). -/
def State.markWord (s : State) (bid : Nat) : SramWord → State
  | .x r => s.modBank bid (fun b => { b with marks := .x r :: b.marks })
  | .element q i => s.modBank bid (fun b => b.setQueue q ((b.queueOf q).mapIdx (fun j v => if j = i then { v with bad := true } else v)))
  | .command e i => s.modBank bid (fun b => b.modEngine e (fun g =>
      { g with queue := g.queue.mapIdx (fun j c => if j = i then { c with bad := true } else c) }))
  | .engineRegs e => s.modBank bid (fun b => { b with marks := .regs e :: b.marks })
  | .accumulator bank i => s.modBank bid (fun b => { b with marks := .acc bank i :: b.marks })
  | .storeWord e a => s.modCore (coreOf bid) (fun c => { c with marks := ((engIx e).val, a) :: c.marks })

/-- ERROR_DETECTED: a corrected error is counted; an uncorrectable one poisons its line or its SRAM word; a DRAM fault is listed (R351,
R355, R356). -/
def execErrorDetected (r : ErrorReport) (s : State) : Host.Outcome State Fault Refusal :=
  if s.host.stopped then .next s
  else match r with
    | .corrected d w =>
      if 4 ≤ d then .fault .noAddress
      else
        let s := s.modDie d (fun x => { x with corr := min 0xFFFFFFFF (x.corr + 1) })
        .next (match w with | some w => s.rowError d w | none => s)
    | .poisonLine pa w =>
      if !isHeld pa then .fault .noAddress
      else
        let s := if s.poison.contains (lineOf pa) then s else { s with poison := lineOf pa :: s.poison }
        .next (match w with | some w => s.pprAdd w | none => s)
    | .poisonWord bank w => if 192 ≤ bank then .fault .noAddress else .next (s.markWord bank w)

end Sys2Proof.Machine
end

