-- ==== Sys2Proof/Machine/Sched.lean ====
section
/-! DEFINITION. The scheduler (R197 to R199), Speedwell (R201, R203), handing out tasks (R168, R170) and resuming saved contexts
(R190, R199). -/

namespace Sys2Proof.Machine

/-! ### Speedwell (R201, R202) -/

def Die.quantum (d : Die) : Nat := bits d.schedcfg.toNat 32 32
def Die.budget (d : Die) : Nat := bits d.schedcfg.toNat 0 32
def speedwellPeriod : Nat := 3000000
def agingPeriod : Nat := 30000000

/-- Banks of a die that hold a task. -/
def State.taskBanks (s : State) (d : Nat) : List Nat :=
  ((List.range 48).map (· + 48 * d)).filter (fun b => (s.bank b).task.isSome)

/-- Speedwell admits a task of an estimate: within the budget of the window, or as the only one (R201). -/
def State.admitted (s : State) (d est : Nat) : Bool :=
  (s.die d).planned + est ≤ 1000 * (s.die d).budget || (s.taskBanks d).isEmpty

/-- Est minus energy so far of the task that a bank runs, over the members of its group, if the bank is its lowest; 0 for another member. Est is
the nest's at this time (R199, R201), and the energy that of the latest hand-out (log 115). -/
def State.toDraw (s : State) (bid : Nat) : Nat :=
  match (s.bank bid).task with
  | none => 0
  | some t =>
    if coreOf bid ≠ t.group0 then 0
    else ((s.nests.find? (·.id = t.nest)).map Nest.est).getD 0 - ((t.banks (bankOf bid)).map (fun m =>
      match (s.bank m).task with
      | some u => if t.same u then u.energy - u.energy0 else 0
      | none => 0)).sum

/-- SPEEDWELL_WINDOW: a window begins, at a multiple of its length in the chip cycle counter (log 84), and the planned sum is what the
running tasks have yet to draw (R201). -/
def execSpeedwellWindow (die : Nat) (s : State) : Host.Outcome State Fault Refusal :=
  let start := s.cycle / speedwellPeriod * speedwellPeriod
  .next (
    if !s.operates || 4 ≤ die || start = (s.die die).windowStart then s
    else s.modDie die (fun d =>
      { d with windowStart := start, planned := ((s.taskBanks die).map s.toDraw).sum }))

/-- HEAT_THROTTLE: cycles of throttled issue of a core are counted in its banks' `thrcyc` (R203). -/
def execHeatThrottle (core cycles : Nat) (s : State) : Host.Outcome State Fault Refusal :=
  let count := fun (s : State) (bid : Nat) =>
    if (s.bank bid).task.isSome then s.modBank bid (fun b => { b with thrcyc := b.thrcyc + cycles }) else s
  .next (if !s.operates || 96 ≤ core then s else count (count s (2 * core)) (2 * core + 1))

/-! ### Aging (R197) -/

/-- AGING_TICK: a nest that has waited 10 ms for a hand-out rises one level (R197). -/
def execAgingTick (die nest : Nat) (s : State) : Host.Outcome State Fault Refusal :=
  .next (match s.nests.find? (fun n => n.id = nest && n.die = die) with
    | none => s
    | some n => match n.waiting with
      | none => s
      | some t =>
        if !s.operates || s.since t < agingPeriod || 3 ≤ n.level then s
        else (s.modNest nest (fun n => { n with level := n.level + 1, waiting := some ((t + agingPeriod) % 2 ^ 64) })).updateLevels die)

/-! ### Offers: what can go out (R168, R190, R197 to R199) -/

/-- The contexts that were saved together. -/
def State.savedGroup (s : State) (g : Nat) : List (Nat × Saved) := s.saved.filter (fun c => c.2.group = g)

/-- A saved group can resume: the same banks of the same cores are free (R168, R190). -/
def State.resumable (s : State) (n : Nest) (g : Nat) : Bool :=
  (s.savedGroup g).all (fun c => s.bankFree n (2 * c.2.core + c.2.bank) && s.coreInService c.2.core)

/-- What a nest offers to the scheduler: a saved group that resumes, or a task. -/
inductive Offer where
  | resume (group : Nat)
  | task (k j : Nat)
  deriving DecidableEq, Repr, Inhabited

/-- What a nest can have placed, with its task: the saved groups that can resume, and its next task, once the entry of its address space can be
read (R26, R74, R168, R190). -/
def State.placeable (s : State) (n : Nest) : List ((Nat × Nat) × Offer) :=
  (s.saved.filter (fun c => c.2.state.runs n.id && c.1 = c.2.group && s.resumable n c.2.group)).filterMap (fun c =>
      c.2.state.task.map (fun t => ((t.k, t.j), .resume c.2.group)))
    ++ (s.nextTask n).toList.filterMap (fun t =>
      if (s.places n).isEmpty || s.astWaits n.vf n.asid then none else some (t, .task t.1 t.2))

/-- The first thing of a nest that can be placed: of its tasks, those that resume among them, the lowest in the order of R168 (R198, R199). -/
def State.offer (s : State) (n : Nest) : Option Offer :=
  ((s.placeable n).foldl (fun b x => match b with
    | none => some x
    | some b => if taskBefore x.1 b.1 then some x else some b) (none : Option ((Nat × Nat) × Offer))).map (·.2)

/-- The nests of a level of a die, in the order of their acceptance, that offer something. -/
def State.offers (s : State) (d l : Nat) : List (Nest × Offer) :=
  (s.nests.filter (fun n => n.die = d && n.level = l && n.cause.isNone)).filterMap (fun n => (s.offer n).map (fun o => (n, o)))

/-- Nothing of a higher level could be placed: no task, and no saved context that could resume (R197; log 116). -/
def State.topLevel (s : State) (d l : Nat) : Bool :=
  (List.range 4).all (fun h => h ≤ l || (s.offers d h).isEmpty)

/-! ### Hand-out (R168, R170) -/

/-- A task of a nest goes to the banks of a group, whose cores are cleared before any member starts; they load its image and start it at
their turns (R167, R168, R170). -/
def State.handOut (s : State) (n : Nest) (k j place level : Nat) : State :=
  let ms := groupBanks (place / 2) n.gsize (place % 2)
  let s := ms.foldl (fun s m =>
    let t : Task :=
      { nest := n.id, k := k, j := j, vf := n.vf, asid := n.asid, base := n.base, level := level, cobank := n.cobank,
        group0 := place / 2, gsize := n.gsize, est := if coreOf m = place / 2 then n.est else 0, energy := 0, energy0 := 0,
        started := s.cycle, ended := false }
    s.modBank m (fun b => { b.emptied with
      task := some t, loading := true
      core := { CoreRegs.init with csr := { Csrs.init with satp := s.astSatp n.vf n.asid } } })) s
  let s := ms.foldl (fun s m => s.clearFor n.vf (coreOf m)) (s.clearCond (place / 2) n.gsize)
  s.modNest n.id (fun n => { n with handed := (k, j) :: n.handed, level := n.base, waiting := none })

/-- A saved context goes back to its bank: what its save wrote is restored, and what a map save did not write is undefined; a member whose part
of the task has ended has nothing to load (R171, R189, R190). -/
def State.resumeBank (s : State) (level est : Nat) (c : Saved) : State :=
  let bid := 2 * c.core + c.bank
  let b := c.state
  let cobank := b.task.any (·.cobank)
  let lost := if c.forced then [] else (forcedRanges cobank c.bank).flatMap (fun r => savedRange c.core r.1 r.2)
  let mem := lost.foldl (fun m r => m.blank r.1 r.2 (some s.ticks)) s.mem
  let mem := c.areas.foldl (fun m a => m.graft a.1 a.2.1 a.2.2) mem
  let task := b.task.map (fun t => { t with level := level, est := est, energy0 := t.energy, started := s.cycle })
  let runs := b.task.any (fun t => !t.ended)
  let s := ({ s with mem := mem }).modCore c.core (fun k => { k with prevVf := some b.vfId })
  s.setBank bid { b with
    task := task, loading := runs, resuming := runs && (!b.loading || b.resuming), nextVer := max b.nextVer (s.bank bid).nextVer
    barred := (s.bank bid).barred, pushed := (s.bank bid).pushed, dom := joinAll b.dom (s.bank bid).dom }

/-- The contexts of a saved group resume as one; the first carries the estimate (R190, R199). -/
def State.resumeGroup (s : State) (g level est : Nat) : State :=
  let cs := s.savedGroup g
  let s := cs.foldl (fun s c => s.resumeBank level (if c.1 = g then est else 0) c.2) s
  { s with saved := s.saved.filter (fun c => c.2.group ≠ g) }

/-- Something goes out at the cost of its estimate, on the place named where that is one of the places it could go (R168, R198,
R201). -/
def State.goOut (s : State) (d l : Nat) (n : Nest) (o : Offer) (place : Nat) : State :=
  let s' := match o with
    | .resume g => s.resumeGroup g l n.est
    | .task k j =>
      let ps := s.places n
      s.handOut n k j (if ps.contains place then place else ps.headD place) l
  let s' := s'.addDeficit d l n.vf (-(n.est : Int))
  s'.modDie d (fun x => { x with planned := x.planned + n.est })

/-! ### A visit (R198) -/

/-- The hand-outs of a visit: the VF's earliest nest with something placeable and admitted goes first, while the deficit
covers it (R198). -/
def State.visit (s : State) (d l v : Nat) : Nat → List Nat → State
  | 0, _ => s
  | fuel + 1, places =>
    match (s.offers d l).find? (fun o => o.1.vf = v && s.admitted d o.1.est) with
    | none => s
    | some (n, o) =>
      if (n.est : Int) ≤ s.deficit d l v then (s.goOut d l n o (places.headD 0)).visit d l v fuel places.tail else s

/-- What a visited VF is given, quantum times weight (R198). -/
def State.allowance (s : State) (d v : Nat) : Nat := (s.die d).quantum * (if (s.vf v).weight = 0 then 1 else (s.vf v).weight)

/-- A visit of a level may be made: something of it can be placed and admitted, and nothing of a higher level could be placed (R197,
R198). -/
def State.mayVisit (s : State) (d l : Nat) : Bool :=
  s.operates && d < 4 && l < 4 && s.topLevel d l && (s.offers d l).any (fun o => s.admitted d o.1.est)

/-- The visit of a VF at the head of a level's list: it receives its quantum, its tasks go out within its deficit, and it moves to
the tail (R198). -/
def State.visitHead (s : State) (d l v : Nat) (places : List Nat) : State :=
  let s := s.addDeficit d l v (s.allowance d v : Int)
  let s := s.visit d l v 49 places
  let s := s.modDie d (fun x =>
    { x with levels := x.levels.mapFinIdx (fun i q _ => if i = l then q.filter (· ≠ v) ++ q.filter (· = v) else q) })
  s.updateLevels d

/-- SCHEDULER_VISIT: the head VF of a level's list is visited (R198). -/
def execSchedulerVisit (die level : Nat) (places : List Nat) (s : State) : Host.Outcome State Fault Refusal :=
  let s := if die < 4 then s.updateLevels die else s
  .next (match (s.die die).levels.toList.getD level [] with
    | [] => s
    | v :: _ => if s.mayVisit die level then s.visitHead die level v places else s)

/-- The first hand-out of a visit of a VF resumes a saved group (R190, R198, R199). -/
def State.resumesFirst (s : State) (d l v group : Nat) : Bool :=
  match (s.offers d l).find? (fun o => o.1.vf = v && s.admitted d o.1.est) with
  | some (n, o) => o = .resume group && (n.est : Int) ≤ s.deficit d l v + (s.allowance d v : Int)
  | none => false

/-- CONTEXT_RESUME: the visit whose first hand-out is a saved context, with its group, as a new task of its VF (R190, R198, R199). -/
def execContextResume (saved : Nat) (s : State) : Host.Outcome State Fault Refusal :=
  .next (match PMap.find s.saved saved with
    | none => s
    | some c => match s.nests.find? (fun n => c.state.runs n.id) with
      | none => s
      | some n =>
        match (s.die n.die).levels.toList.getD n.level [] with
        | [] => s
        | v :: _ =>
          if s.mayVisit n.die n.level && s.resumesFirst n.die n.level v c.group then s.visitHead n.die n.level v [] else s)

end Sys2Proof.Machine
end

