-- ==== Sys2Proof/Machine/Select.lean ====
section
/-! DEFINITION. Campion, the radix-select engine (R218, R284 to R286). -/

namespace Sys2Proof.Machine

/-! ### Operands (R284) -/

/-- Scratchpad, cluster shared memory or chip scratchpad, in one range, aligned (R284). -/
def arrayOk (a : Word) (len align : Nat) : Bool :=
  decide (a.toNat < 2 ^ 26) && a.toNat % align = 0 && localOk false a.toNat len

def countOk (n : Nat) : Bool := 1 ≤ n && n ≤ 2 ^ 20

/-- Width in bytes of a source format of Campion (R233). -/
def selectWidth (f : BitVec 4) : Nat := if f = 1#4 then 2 else 4

/-- Values of `w` bytes from a local address on. -/
def loadValues (a : Word) (n w : Nat) : M (List Nat) := do
  let bs ← loadLocal (← curBid) .sx a.toNat (n * w)
  return (List.range n).map (fun i => leNat ((bs.drop (i * w)).take w))

def storeValues (a : Word) (w : Nat) (vs : List Nat) : M Unit := do
  let bid ← curBid
  modify (·.storeLocalBlock bid .sx a.toNat (vs.map (leBytes w)).flatten)

/-- Pairs of `cmpk` from two local addresses on: element by element, each with its index first, so that of two elements that meet in a byte the
higher one stays (R126; log 101). -/
def State.storePairs (s : State) (bid didx dval w : Nat) (l : List (Nat × Nat)) : State :=
  l.zipIdx.foldl (fun s p => (s.storeLocal bid .sx (didx + 4 * p.2) (leBytes 4 p.1.1)).storeLocal bid .sx (dval + w * p.2) (leBytes w p.1.2))
    ((s.unpoisonLocal bid .sx didx (4 * l.length)).unpoisonLocal bid .sx dval (w * l.length))

/-! ### The descending order (R284, R285) -/

/-- Indices with their keys. -/
abbrev Keyed := List (Nat × Nat)

def keyed (ks : List Nat) : Keyed := ks.zipIdx.map (fun p => (p.2, p.1))

/-- Whether an element comes no later than another in the descending order. -/
def noLater (a b : Nat × Nat) : Bool := b.2 < a.2 || (a.2 = b.2 && a.1 ≤ b.1)

/-- An element put into a list in the descending order. -/
def placeKey (k : Nat × Nat) : Keyed → Keyed
  | [] => [k]
  | j :: js => if noLater k j then k :: j :: js else j :: placeKey k js

/-- The descending order of a key array: highest key first, among equal keys the lower index first. -/
def descending (ks : List Nat) : Keyed := (keyed ks).foldr placeKey []

/-- Keys above a key, and keys equal to it. -/
def above (ks : List Nat) (t : Nat) : Nat := (ks.filter (t < ·)).length
def equals (ks : List Nat) (t : Nat) : Nat := (ks.filter (t = ·)).length

/-- Sel(m) of R285: T is the key at position m − 1 of the descending order. -/
def selOf (ks : List Nat) (m : Nat) : Word :=
  if m = 0 then 0xFFFFFFFF00000000#64
  else
    let t := (ks.find? (fun k => above ks k < m && m ≤ above ks k + equals ks k)).getD 0
    BitVec.ofNat 64 (t * 2 ^ 32 + (m - above ks t))

/-- The smallest count after which the running sum of the descending order reaches p, or n (R286). -/
def topP (p : Nat) : List Nat → Nat → Nat → Nat
  | [], _, m => m
  | v :: vs, s, m =>
    let s' := add32 s v
    if !((ofFp32 s').isNan) && !((ofFp32 p).isNan) && !((ofFp32 s').lt (ofFp32 p)) then m + 1 else topP p vs s' (m + 1)

/-- A value in FP32 (R286). -/
def valueFp32 (f : BitVec 4) (v : Nat) : Nat :=
  if f = 1#4 then v * 2 ^ 16 else if f = 6#4 then toFp32 (Num.ofInt (signedOf 32 v) 0 false) else v

/-! ### The words (R285) -/

def campion (pops pushes : Nat) (f : List Word → M (List Word)) (s : State) : Host.Outcome State Fault Refusal :=
  runWord (fun e => do
    let ops ← operands e pops pushes
    let push ← f ops
    restack e pops push
    return .next) s

/-- `skey`: n, src, dst. Overlapping keys of any but an in-place transform are undefined: the free values of log 9. -/
def execSkey (f : BitVec 4) (s : State) : Host.Outcome State Fault Refusal :=
  campion 3 0 (fun ops => do
    match ops with
    | [n, src, dst] =>
      let w := selectWidth f
      let c := n.toNat
      if !countOk c || !arrayOk src (c * w) w || !arrayOk dst (c * 4) 4 then illegalWord
      let vs ← loadValues src c w
      let overlap := fun (i : Nat) => decide (dst.toNat + 4 * i < src.toNat + c * w ∧ src.toNat < dst.toNat + 4 * i + 4)
      let inPlace : Bool := dst = src && w = 4
      let ks ← vs.zipIdx.mapM (fun p => do
        if !inPlace && overlap p.2 then return (← freshWord).toNat else return keyOf f.toNat p.1)
      storeValues dst 4 ks
      return []
    | _ => illegalWord) s

/-- The counts of `hist` (R285). -/
def histogram (d p : Nat) (ks : List Nat) : List Nat :=
  let chosen := ks.filter (fun k => d = 0 || bits k (32 - 8 * d) (8 * d) = bits p (32 - 8 * d) (8 * d))
  (List.range 256).map (fun v => (chosen.filter (fun k => bits k (24 - 8 * d) 8 = v)).length)

/-- `hist`: P, n, keys, dst. -/
def execHist (d : BitVec 2) (_f : BitVec 4) (s : State) : Host.Outcome State Fault Refusal :=
  campion 4 0 (fun ops => do
    match ops with
    | [p, n, keys, dst] =>
      let c := n.toNat
      if !countOk c || !arrayOk keys (c * 4) 4 || !arrayOk dst 1024 4 then illegalWord
      let ks ← loadValues keys c 4
      storeValues dst 4 (histogram d.toNat p.toNat ks)
      return []
    | _ => illegalWord) s

/-- `selk`: k, n, keys. -/
def execSelk (_f : BitVec 4) (s : State) : Host.Outcome State Fault Refusal :=
  campion 3 1 (fun ops => do
    match ops with
    | [k, n, keys] =>
      let c := n.toNat
      if !countOk c || !arrayOk keys (c * 4) 4 then illegalWord
      let ks ← loadValues keys c 4
      return [selOf ks (min k.toNat c)]
    | _ => illegalWord) s

/-- `selp`: p, n, keys, vals. -/
def execSelp (f : BitVec 4) (s : State) : Host.Outcome State Fault Refusal :=
  campion 4 1 (fun ops => do
    match ops with
    | [p, n, keys, vals] =>
      let c := n.toNat
      let w := selectWidth f
      if !countOk c || !arrayOk keys (c * 4) 4 || !arrayOk vals (c * w) w then illegalWord
      let ks ← loadValues keys c 4
      let vs ← loadValues vals c w
      let order := (descending ks).map (fun k => valueFp32 f (vs.getD k.1 0))
      return [selOf ks (topP (p.toNat % 2 ^ 32) order 0 0)]
    | _ => illegalWord) s

/-- Indices that `cmpk` selects for a pair (T, t), ascending (R285). -/
def selected (t need : Nat) (ks : List Nat) : List Nat :=
  let ties := ((keyed ks).filter (fun k => k.2 = t)).map (·.1) |>.take need
  ((keyed ks).filter (fun k => t < k.2 || ties.contains k.1)).map (·.1)

/-- `cmpk`: s, n, keys, vals, didx, dval. -/
def execCmpk (f : BitVec 4) (s : State) : Host.Outcome State Fault Refusal :=
  campion 6 1 (fun ops => do
    match ops with
    | [pair, n, keys, vals, didx, dval] =>
      let c := n.toNat
      let w := selectWidth f
      if !countOk c || !arrayOk keys (c * 4) 4 || !arrayOk vals (c * w) w then illegalWord
      let ks ← loadValues keys c 4
      let sel := selected (bits pair.toNat 32 32) (bits pair.toNat 0 32) ks
      if !arrayOk didx (sel.length * 4) 4 || !arrayOk dval (sel.length * w) w then illegalWord
      let vs ← loadValues vals c w
      let bid ← curBid
      modify (·.storePairs bid didx.toNat dval.toNat w (sel.map (fun i => (i, vs.getD i 0))))
      return [BitVec.ofNat 64 sel.length]
    | _ => illegalWord) s

end Sys2Proof.Machine
end

