-- ==== Sys2Proof/Machine/Lanes.lean ====
section
/-! DEFINITION. What the vector words compute from element values (R295 to R307), as functions of bits: element arithmetic,
comparison, conversion, reductions, scans and the softmax. Formats are the codes of R228. -/

namespace Sys2Proof.Machine

/-- The low bits that an element of a format has. -/
def lowBits (f v : Nat) : Nat := v % 2 ^ codeBits f

/-- All ones in an element of a format. -/
def allOnes (f : Nat) : Nat := 2 ^ codeBits f - 1

/-- The two's-complement value of an element. -/
def intOf (f v : Nat) : Int := signedOf (codeBits f) v

/-- The exact result of a floating-point operation, rounded once into a format (R297). -/
def rounded (f : Nat) (r : Num × Nat) : Res :=
  let (v, g) := roundTo f r.1
  (v, g ||| r.2)

/-- The result of integer arithmetic, saturated with OF (R297). -/
def saturated (f : Nat) (v : Int) : Res := saturate (codeBits f) flagOF v

/-! ### Elementwise (R298) -/

def elemAdd (f a b : Nat) : Res :=
  if isFloatCode f then rounded f ((valueOf f a).add (valueOf f b)) else saturated f (intOf f a + intOf f b)

def elemSub (f a b : Nat) : Res :=
  if isFloatCode f then rounded f ((valueOf f a).add (valueOf f b).negate) else saturated f (intOf f a - intOf f b)

def elemMul (f a b : Nat) : Res :=
  if isFloatCode f then rounded f ((valueOf f a).mul (valueOf f b)) else saturated f (intOf f a * intOf f b)

def elemFma (f a b c : Nat) : Res :=
  if isFloatCode f then rounded f ((valueOf f a).fma (valueOf f b) (valueOf f c))
  else saturated f (intOf f a * intOf f b + intOf f c)

def elemMax (f a b : Nat) : Res :=
  if isFloatCode f then rounded f ((valueOf f a).max (valueOf f b), 0) else saturated f (max (intOf f a) (intOf f b))

def elemMin (f a b : Nat) : Res :=
  if isFloatCode f then rounded f ((valueOf f a).min (valueOf f b), 0) else saturated f (min (intOf f a) (intOf f b))

def elemAbs (f a : Nat) : Res :=
  if isFloatCode f then rounded f ((valueOf f a).absolute, 0) else saturated f (intOf f a).natAbs

def elemNeg (f a : Nat) : Res :=
  if isFloatCode f then rounded f ((valueOf f a).negate, 0) else saturated f (-intOf f a)

/-- vmin(vmax(a, lo), hi) (R298). -/
def elemClamp (f a lo hi : Nat) : Res := elemMin f (elemMax f a lo).1 hi

/-- A shift left; a count of the width or more gives 0 (R298). -/
def elemShl (f a b : Nat) : Res := (if codeBits f ≤ b then 0 else lowBits f (a * 2 ^ b), 0)

/-- A logical or arithmetic right shift (R298). -/
def elemShr (arith : Bool) (f a b : Nat) : Res :=
  if arith then (unsignedOf (codeBits f) (intOf f a / (2 ^ min b (codeBits f) : Nat)), 0)
  else (if codeBits f ≤ b then 0 else a / 2 ^ b, 0)

/-- Whether a condition holds, and NV of an ordered comparison with a NaN (R236, R298). -/
def compares (cond : Nat) (x y : Num) : Bool × Nat :=
  if x.isNan || y.isNan then (cond = 1 || cond = 6, if 2 ≤ cond && cond ≤ 5 then flagNV else 0)
  else
    let lt := x.lt y
    let gt := y.lt x
    (match cond with
      | 0 => !lt && !gt
      | 1 => lt || gt
      | 2 => lt
      | 3 => !gt
      | 4 => gt
      | 5 => !lt
      | _ => false, 0)

def elemCmp (cond f a b : Nat) : Res :=
  let (c, g) := compares cond (valueOf f a) (valueOf f b)
  (if c then allOnes f else 0, g)

/-- s ≠ 0 ? a : b (R298). -/
def elemSel (s a b : Nat) : Res := (if s ≠ 0 then a else b, 0)

/-- `vcvt` from a format to another (R300). -/
def elemCvt (f t a : Nat) : Res :=
  if f = t then (a, 0)
  else if isFloatCode f then roundTo t (valueOf f a)
  else if isFloatCode t then roundTo t (valueOf f a)
  else saturated t (intOf f a)

def elemExp (f a : Nat) : Res := expRound (roundTo f) (valueOf f a)
def elemLog (f a : Nat) : Res := logRound (roundTo f) (valueOf f a)

/-! ### Reductions and scans (R303, R304) -/

/-- The operation of a reduction in FP32: 0 add, 1 max, 2 min. -/
def foldFloat (op a b : Nat) : Res :=
  match op with
  | 0 => rounded 0 ((ofFp32 a).add (ofFp32 b))
  | 1 => (toFp32 ((ofFp32 a).max (ofFp32 b)), 0)
  | _ => (toFp32 ((ofFp32 a).min (ofFp32 b)), 0)

/-- The identity of a reduction in FP32: −0.0, −∞, +∞. -/
def idFloat (op : Nat) : Nat := match op with | 0 => sign32 | 1 => sign32 + inf32 | _ => inf32

/-- The operation of a reduction of integers, exact. -/
def foldInt (op : Nat) (a b : Int) : Int := match op with | 0 => a + b | 1 => max a b | _ => min a b

def idInt (op f : Nat) : Int := match op with | 0 => 0 | 1 => intLow (codeBits f) | _ => intHigh (codeBits f)

/-- An input in FP32, exactly (R303). -/
def inFp32 (f v : Nat) : Nat := toFp32 (valueOf f v)

/-- FP32 bits rounded into the format of a result. -/
def outFloat (f v : Nat) : Res := roundTo f (ofFp32 v)

/-- The 64 partial results and the flags so far. -/
abbrev Partials := List Nat × Nat

/-- One element joins the partial result of its lane. -/
def joinLane (op f : Nat) (p : Partials) (e : Nat × Nat) : Partials :=
  let l := e.1 % 64
  let (v, g) := foldFloat op (p.1.getD l 0) (inFp32 f e.2)
  (p.1.set l v, p.2 ||| g)

/-- One step of the tree: the lower half takes the upper half. -/
def treeStep (op : Nat) (p : Partials) (s : Nat) : Partials :=
  let rs := ((p.1.take s).zip (p.1.drop s)).map (fun x => foldFloat op x.1 x.2)
  (rs.map (·.1), rs.foldl (fun g r => g ||| r.2) p.2)

/-- `vred` over the on elements, with their indices (R303). -/
def reduce (op f : Nat) (es : List (Nat × Nat)) : Res :=
  if isFloatCode f then
    let p := [32, 16, 8, 4, 2, 1].foldl (treeStep op) (es.foldl (joinLane op f) (List.replicate 64 (idFloat op), 0))
    let (v, g) := outFloat f (p.1.getD 0 0)
    (v, g ||| p.2)
  else saturated f (es.foldl (fun a e => foldInt op a (intOf f e.2)) (idInt op f))

/-- The prefixes of `vscan` from an accumulator in FP32 on: index, result bits, flags (R304). -/
def scanFloat (op f : Nat) (acc : Nat) : List (Nat × Nat) → List (Nat × Nat × Nat)
  | [] => []
  | (i, v) :: es =>
    let (a, g) := foldFloat op acc (inFp32 f v)
    let (r, h) := outFloat f a
    (i, r, g ||| h) :: scanFloat op f a es

def scanInt (op f : Nat) (acc : Int) : List (Nat × Nat) → List (Nat × Nat × Nat)
  | [] => []
  | (i, v) :: es =>
    let a := foldInt op acc (intOf f v)
    (i, saturated f a) :: scanInt op f a es

def scan (op f : Nat) (es : List (Nat × Nat)) : List (Nat × Nat × Nat) :=
  if isFloatCode f then scanFloat op f (idFloat op) es else scanInt op f (idInt op f) es

/-- The last prefix alone, with the flags of the operations and of its own output (R296, R304). -/
def lastFloat (op f acc g : Nat) : List (Nat × Nat) → Nat × Nat
  | [] => let (r, h) := outFloat f acc
          (r, g ||| h)
  | (_, v) :: es =>
    let (a, h) := foldFloat op acc (inFp32 f v)
    lastFloat op f a (g ||| h) es

def lastInt (op f : Nat) (acc : Int) : List (Nat × Nat) → Nat × Nat
  | [] => saturated f acc
  | (_, v) :: es => lastInt op f (foldInt op acc (intOf f v)) es

def scanLast (op f : Nat) (es : List (Nat × Nat)) : Option (Nat × Nat) :=
  if es.isEmpty then none
  else if isFloatCode f then some (lastFloat op f (idFloat op) 0 es) else some (lastInt op f (idInt op f) es)

/-! ### Softmax (R306) -/

/-- exp(a − m), the difference rounded and then the exponential, in FP32. -/
def expDiff (a m : Nat) : Res :=
  let (d, g) := rounded 0 ((ofFp32 a).add (ofFp32 m).negate)
  let (r, h) := expRound fp32.round (ofFp32 d)
  (r, g ||| h)

/-- The largest of FP32 values; −∞ of none. -/
def maxFp32 (vs : List Nat) : Nat := vs.foldl max32 (sign32 + inf32)

/-- The sum of FP32 terms in their order, from +0, with its flags. -/
def sumFp32 (vs : List Res) : Res :=
  vs.foldl (fun t v => let (r, g) := rounded 0 ((ofFp32 t.1).add (ofFp32 v.1)); (r, g ||| t.2 ||| v.2)) (0, 0)

/-- `vsoft` over the on elements; the pair (m, T) of a queue operand, or none (R306). -/
def softmax (f : Nat) (es : List (Nat × Nat)) (pair : Option (Nat × Nat)) : List (Nat × Nat × Nat) :=
  let xs := es.map (fun e => (e.1, inFp32 f e.2))
  let m := match pair with | some p => p.1 | none => maxFp32 (xs.map (·.2))
  let ss := xs.map (fun x => (x.1, expDiff x.2 m))
  let t : Res := match pair with | some p => (p.2, 0) | none => sumFp32 (ss.map (·.2))
  ss.map (fun x =>
    let (q, g) := rounded 0 ((ofFp32 x.2.1).div (ofFp32 t.1))
    let (r, h) := outFloat f q
    (x.1, r, x.2.2 ||| t.2 ||| g ||| h))

end Sys2Proof.Machine
end

