-- ==== Sys2Proof/Machine/VectorRun.lean ====
section
/-! DEFINITION. How a vector word reaches its elements: regions (R288, R289), predicates (R292), operands and queues (R293 to R295),
its requests and its progress (R309). -/

namespace Sys2Proof.Machine

/-! ### Regions (R288, R289) -/

def Region.handle (r : Region) : Bool := bit r.geom.toNat 63
def Region.count (r : Region) : Nat := bits r.geom.toNat 0 16
def Region.stride (r : Region) : Int := (r.geom.extractLsb' 16 32).toInt

/-- Width in nibbles of an element of a format (R289). -/
def nibbles (f : Nat) : Nat := codeBits f / 4

/-- Bytes that one element touches. -/
def elemBytes (nib : Nat) : Nat := max 1 (nib / 2)

/-- Byte offset of element `i` from the base, and whether it is a high nibble (R289). -/
def Region.offset (r : Region) (nib i : Nat) : Int × Bool :=
  let at0 : Int := (i : Int) * r.stride * nib
  (at0 / 2, at0 % 2 = 1)

/-- The extent of elements 0 to n − 1 of a local region lies in one range of R48 (R289). -/
def Region.extentOk (r : Region) (nib n : Nat) : Bool :=
  r.handle || n = 0 ||
    let base : Int := r.base.toNat
    let a := (r.offset nib 0).1
    let b := (r.offset nib (n - 1)).1
    let lo := base + min a b
    let hi := base + max a b + elemBytes nib
    decide (0 ≤ lo) && localOk true lo.toNat (hi - lo).toNat

/-- Region register `n`. -/
def EngRegs.region (r : EngRegs) (n : Nat) : Region := r.regions.toList.getD n ⟨0, 0⟩

/-- A region operand: its number names a register that is set (R293). -/
def regionOperand (r : EngRegs) (n : Word) : M Region := do
  if 31 < n.toNat then illegalWord
  let g := r.region n.toNat
  if g.count = 0 then illegalWord
  return g

/-! ### Predicates (R292) -/

/-- Element `i` is on under stage predicate `g`. -/
def EngRegs.on (r : EngRegs) (g : BitVec 3) (i : Nat) : Bool :=
  let p := r.pg[g.toFin]
  g = 0 || (i < p.limit.toNat && p.pattern.getLsbD (i % 16))

/-! ### Requests (R309) -/

/-- One element of a region, in a width of nibbles. -/
structure ElemRef where
  reg : Region
  nib : Nat
  i : Nat

/-- A nibble of a byte, and the byte with one nibble replaced. -/
def nibbleOf (b : Nat) (high : Bool) : Nat := if high then b / 16 % 16 else b % 16
def withNibble (b : Nat) (high : Bool) (v : Nat) : Nat := if high then b % 16 + 16 * (v % 16) else b / 16 * 16 + v % 16

/-- The handle version that the word in execution uses for a handle (R38). -/
def entryVer (e : Engine) (p : BitVec 4) : M (Option Nat) := do
  let vs := ((← curEng e).entry.map (·.vers)).getD []
  return vs[p.toNat]?

/-- Where an element of a handle region lies; one below the start of the page faults before the handle's state is looked at (R39, R40,
R289; log 57). -/
def elemPlace (x : ElemRef) (acc : Nat) : M Place := do
  let p := haddrPh x.reg.base
  let off : Int := (haddrOff x.reg.base : Int) + (x.reg.offset x.nib x.i).1
  if off < 0 then fail (.access 9 p.toNat acc 0)
  handlePlace (← curBid) (some .vx) p (← entryVer .vx p) off.toNat (elemBytes x.nib) acc 0

/-- Local address of an element of a local region. -/
def elemLocal (x : ElemRef) : Nat := ((x.reg.base.toNat : Int) + (x.reg.offset x.nib x.i).1).toNat

/-- One element is read. -/
def readElem (x : ElemRef) : M Nat := do
  let bid ← curBid
  let bs ← if x.reg.handle then (do loadBytes bid (some .vx) (← elemPlace x accR).pa (elemBytes x.nib))
    else loadLocal bid .vx (elemLocal x) (elemBytes x.nib)
  return if x.nib = 1 then nibbleOf (leNat bs) (x.reg.offset 1 x.i).2 else leNat bs

/-- The byte that the latest write to an address left, of any phase of the bank. -/
def State.latest (s : State) (bid pa : Nat) : Nat :=
  match (s.bank bid).held.find? (·.addr = pa) with
  | some h => h.val.toNat
  | none => (s.mem.get pa).toNat

/-- One element is written; a nibble leaves the other nibble of its byte (R309). -/
def writeElem (x : ElemRef) (v : Nat) : M Unit := do
  let bid ← curBid
  let bytesAt := fun (s : State) (pa : Nat) =>
    if x.nib = 1 then leBytes 1 (withNibble (s.latest bid pa) (x.reg.offset 1 x.i).2 v) else leBytes (x.nib / 2) v
  if x.reg.handle then
    let p ← elemPlace x accW
    modify fun s => s.storeAt bid (some .vx) p (bytesAt s p.pa)
  else
    let la := elemLocal x
    modify fun s => s.storeLocalBlock bid .vx la (bytesAt s (localPa (coreOf bid) la))

/-! ### A vector word in two parts: its reads, then its writes (R309) -/

/-- What a vector word does, once its operands have passed every check. -/
structure VJob where
  /-- the elements read, in order; later ones may depend on the values of earlier ones -/
  reads : List Nat → List ElemRef
  /-- what the engine's registers become once everything is read -/
  regs : List Nat → EngRegs → EngRegs
  /-- destination region and its element width -/
  dst : Region
  nib : Nat
  /-- elements written: index, bits, flags -/
  writes : List Nat → List (Nat × Nat × Nat)
  /-- what goes to q2: value, valid, flags -/
  push : List Nat → Option (Nat × Bool × Nat)

/-- Read elements one after the other; where one stops, the word keeps the values it has. -/
def readAll (ops : List Word) : List ElemRef → List Nat → M (List Nat)
  | [], acc => return acc.reverse
  | x :: xs, acc => do
    let v ← tryCatch (readElem x) (fun st => do
      keep .vx ops 0 acc.reverse
      fail st)
    readAll ops xs (v :: acc)

/-- A result that waits to be written, as one number. -/
def packResult (r : Nat × Nat × Nat) : Nat := r.2.1 + 2 ^ 32 * (r.2.2 + 16 * r.1)
def unpackResult (v : Nat) : Nat × Nat × Nat := (v / 2 ^ 36, v % 2 ^ 32, v / 2 ^ 32 % 16)

/-- Raise sticky flags in k15 (R296). -/
def raiseFlags (g : Nat) : M Unit :=
  if g = 0 then pure () else modRegs .vx (fun r => { r with k := r.k.set 15 (r.k[15] ||| BitVec.ofNat 16 g) })

/-- Write results one after the other, each with its flags; where one stops, the word keeps what is left. -/
def writeAll (ops : List Word) (reg : Region) (nib : Nat) : List (Nat × Nat × Nat) → M Unit
  | [] => return
  | (i, v, g) :: rs => do
    tryCatch (writeElem ⟨reg, nib, i⟩ v) (fun st => do
      keep .vx ops 1 (((i, v, g) :: rs).map packResult)
      fail st)
    raiseFlags g
    writeAll ops reg nib rs

/-- The queue that a word takes its queue operand from (R235). -/
def sourceQueue (s : BitVec 2) : BitVec 3 := if s = 1#2 then 0#3 else 1#3

/-- A vector word executes or resumes: checks, then its queue operand and room in q2, then its pops, reads and writes (R293 to
R295, R309). The queue operand is kept as the last operand. -/
def runVector (pops : Nat) (s : BitVec 2) (q : Bool) (plan : EngRegs → List Word → Word → M VJob) : M Flow := do
  let g ← curEng .vx
  match g.stopped with
  | some st =>
    let job ← plan g.regs (st.ops.take pops) (st.ops.getD pops 0)
    if st.done = 0 then go st.ops job st.vals else
      writeAll st.ops job.dst job.nib (st.vals.map unpackResult)
      return .next
  | none =>
    let ops ← operands .vx pops 0
    let _ ← plan g.regs ops 0
    let v ← if s = 0#2 then pure 0 else (do return (← queueFront .vx (sourceQueue s)).value)
    if q && (← delivers) && elemDepth ≤ ((← curBank).queueOf 2#3).length then waitMore
    restack .vx pops []
    if s ≠ 0#2 then modCur (·.takeElem .vx (sourceQueue s))
    let job ← plan g.regs ops v
    go (ops ++ [v]) job []
where
  /-- The reads that are left, then the writes or the push. -/
  go (ops : List Word) (job : VJob) (vals : List Nat) : M Flow := do
    let vals ← readAll ops ((job.reads vals).drop vals.length) vals.reverse
    let vals ← readAll ops ((job.reads vals).drop vals.length) vals.reverse
    modRegs .vx (job.regs vals)
    writeAll ops job.dst job.nib (job.writes vals)
    match job.push vals with
    | some (v, ok, f) =>
      raiseFlags f
      deliver .vx 2#3 (BitVec.ofNat 64 v) ok
    | none => pure ()
    return .next

/-! ### Operands of class V (R293) -/

/-- Which formats, queue sources and queue destinations a word takes (R295). -/
structure VForms where
  fmts : Nat → Bool
  qs : Bool
  qd : Bool

def fmtFI (f : Nat) : Bool := f < 3 || f = 5 || f = 6
def fmtF (f : Nat) : Bool := f < 3
def fmtI (f : Nat) : Bool := f = 5 || f = 6
def fmt32 (f : Nat) : Bool := f = 0
def fmtAny (_ : Nat) : Bool := true

def formsArith : VForms := ⟨fmtFI, true, true⟩
def formsAny : VForms := ⟨fmtAny, true, true⟩

/-- The word takes the current format, its queue source and its queue destination (R295). -/
def checkForms (k : VForms) (f : Nat) (s : BitVec 2) (q : Bool) : M Unit := do
  if !k.fmts f || (s ≠ 0#2 && !k.qs) || (q && !k.qd) then illegalWord

/-- The destination operand: none with qd = 1. -/
def dstOperand (r : EngRegs) (q : Bool) (ops : List Word) : M (Option Region) := do
  if q then return none
  return some (← regionOperand r (ops.getD 0 0))

/-- The source regions of a word, after the destination (R293). -/
def sourceOperands (r : EngRegs) (ops : List Word) (from1 n : Nat) : M (List Region) :=
  (List.range n).mapM (fun i => regionOperand r (ops.getD (from1 + i) 0))

/-- A source has at least n elements and its extent is good (R289, R293). -/
def checkSource (g : Region) (nib n : Nat) : M Unit := do
  if g.count < n || !g.extentOk nib n then illegalWord

/-- Values of the sources of each on element, in their order. -/
def groupsOf (k : Nat) : List Nat → List Nat → List (Nat × List Nat)
  | [], _ => []
  | i :: is, vs => (i, vs.take k) :: groupsOf k is (vs.drop k)

/-- Number of entries that a word pops: destination, region sources, stack values. -/
def popsOf (q : Bool) (sources stack : Nat) : Nat := (if q then 0 else 1) + sources + stack

/-- A job whose destination takes one result for each on element (R293 to R295). -/
def perElement (r : EngRegs) (g : BitVec 3) (q : Bool) (dst : Option Region) (outNib n : Nat) (reads : Nat → List ElemRef)
    (f : List Nat → Res) : VJob :=
  let on := (List.range n).filter (r.on g)
  let all := (on.map reads).flatten
  let k := if on.isEmpty then 0 else all.length / on.length
  let res := fun (vals : List Nat) => (groupsOf k on vals).map (fun x => (x.1, f x.2))
  { reads := fun _ => all
    regs := fun _ r => r
    dst := dst.getD ⟨0, 0⟩
    nib := outNib
    writes := fun vals => if q then [] else res vals
    push := fun vals =>
      if !q then none
      else match res vals with
        | (_, v, h) :: _ => some (v, true, h)
        | [] => some (0, false, 0) }

/-- What an elementwise word does: `srcs` sources, the last from a queue where qs ≠ 0, and stack values (R293, R298). -/
def elementPlan (k : VForms) (g : BitVec 3) (q : Bool) (s : BitVec 2) (srcs : Nat) (outFmt : Nat → Nat)
    (f : Nat → List Nat → List Nat → Res) (r : EngRegs) (ops : List Word) (v : Word) : M VJob := do
  checkForms k r.fmt s q
  let dst ← dstOperand r q ops
  let first := if q then 0 else 1
  let regs := if s = 0#2 then srcs else srcs - 1
  let sources ← sourceOperands r ops first regs
  let n := match dst with | some d => d.count | none => 1
  let nib := nibbles r.fmt
  let _ ← sources.mapM (fun a => checkSource a nib n)
  let outNib := nibbles (outFmt r.fmt)
  match dst with
  | some d => if !d.extentOk outNib n then illegalWord
  | none => pure ()
  let extra := if s = 0#2 then [] else [lowBits r.fmt v.toNat]
  let values := (ops.drop (first + regs)).map (fun w => lowBits r.fmt w.toNat)
  return perElement r g q dst outNib n (fun i => sources.map (fun a => ⟨a, nib, i⟩))
    (fun xs => f r.fmt (xs ++ extra) values)

/-- Number of entries that an elementwise word pops. -/
def elementPops (q : Bool) (s : BitVec 2) (srcs stack : Nat) : Nat := popsOf q (if s = 0#2 then srcs else srcs - 1) stack

def elementwise (k : VForms) (g : BitVec 3) (q : Bool) (s : BitVec 2) (srcs stack : Nat) (outFmt : Nat → Nat)
    (f : Nat → List Nat → List Nat → Res) : M Flow :=
  runVector (elementPops q s srcs stack) s q (elementPlan k g q s srcs outFmt f)

/-- The value at a place in a list of source elements. -/
def arg (xs : List Nat) (i : Nat) : Nat := xs.getD i 0

end Sys2Proof.Machine
end

