-- ==== Sys2Proof/Machine/Vector.lean ====
section
/-! DEFINITION. The vector words (R290 to R308) but `vstub`. -/

namespace Sys2Proof.Machine

/-! ### Elementwise arithmetic (R298) -/

def vectorWord (m : M Flow) (s : State) : Host.Outcome State Fault Refusal := runWord (fun _ => m) s

def same (f : Nat) : Nat := f

def execVadd (g : BitVec 3) (q : Bool) (v0 : BitVec 2) (s : State) : Host.Outcome State Fault Refusal :=
  vectorWord (elementwise formsArith g q v0 2 0 same (fun f x _ => elemAdd f (arg x 0) (arg x 1))) s

def execVsub (g : BitVec 3) (q : Bool) (v0 : BitVec 2) (s : State) : Host.Outcome State Fault Refusal :=
  vectorWord (elementwise formsArith g q v0 2 0 same (fun f x _ => elemSub f (arg x 0) (arg x 1))) s

def execVmul (g : BitVec 3) (q : Bool) (v0 : BitVec 2) (s : State) : Host.Outcome State Fault Refusal :=
  vectorWord (elementwise formsArith g q v0 2 0 same (fun f x _ => elemMul f (arg x 0) (arg x 1))) s

def execVfma (g : BitVec 3) (q : Bool) (v0 : BitVec 2) (s : State) : Host.Outcome State Fault Refusal :=
  vectorWord (elementwise formsArith g q v0 3 0 same (fun f x _ => elemFma f (arg x 0) (arg x 1) (arg x 2))) s

def execVmax (g : BitVec 3) (q : Bool) (v0 : BitVec 2) (s : State) : Host.Outcome State Fault Refusal :=
  vectorWord (elementwise formsArith g q v0 2 0 same (fun f x _ => elemMax f (arg x 0) (arg x 1))) s

def execVmin (g : BitVec 3) (q : Bool) (v0 : BitVec 2) (s : State) : Host.Outcome State Fault Refusal :=
  vectorWord (elementwise formsArith g q v0 2 0 same (fun f x _ => elemMin f (arg x 0) (arg x 1))) s

def execVabs (g : BitVec 3) (q : Bool) (v0 : BitVec 2) (s : State) : Host.Outcome State Fault Refusal :=
  vectorWord (elementwise formsArith g q v0 1 0 same (fun f x _ => elemAbs f (arg x 0))) s

def execVneg (g : BitVec 3) (q : Bool) (v0 : BitVec 2) (s : State) : Host.Outcome State Fault Refusal :=
  vectorWord (elementwise formsArith g q v0 1 0 same (fun f x _ => elemNeg f (arg x 0))) s

def execVclamp (g : BitVec 3) (q : Bool) (v0 : BitVec 2) (s : State) : Host.Outcome State Fault Refusal :=
  vectorWord (elementwise formsArith g q v0 1 2 same (fun f x st => elemClamp f (arg x 0) (arg st 0) (arg st 1))) s

def execVcmp (g : BitVec 3) (q : Bool) (v0 : BitVec 2) (v : BitVec 3) (s : State) : Host.Outcome State Fault Refusal :=
  vectorWord (elementwise formsArith g q v0 2 0 same (fun f x _ => elemCmp v.toNat f (arg x 0) (arg x 1))) s

def execVexp (g : BitVec 3) (q : Bool) (v0 : BitVec 2) (s : State) : Host.Outcome State Fault Refusal :=
  vectorWord (elementwise ⟨fmtF, true, true⟩ g q v0 1 0 same (fun f x _ => elemExp f (arg x 0))) s

def execVlog (g : BitVec 3) (q : Bool) (v0 : BitVec 2) (s : State) : Host.Outcome State Fault Refusal :=
  vectorWord (elementwise ⟨fmtF, true, true⟩ g q v0 1 0 same (fun f x _ => elemLog f (arg x 0))) s

def execVrcp (g : BitVec 3) (q : Bool) (v0 : BitVec 2) (s : State) : Host.Outcome State Fault Refusal :=
  vectorWord (elementwise ⟨fmt32, true, true⟩ g q v0 1 0 same (fun _ x _ => rcp32 (arg x 0))) s

def execVrsq (g : BitVec 3) (q : Bool) (v0 : BitVec 2) (s : State) : Host.Outcome State Fault Refusal :=
  vectorWord (elementwise ⟨fmt32, true, true⟩ g q v0 1 0 same (fun _ x _ => rsq32 (arg x 0))) s

def execVcvt (g : BitVec 3) (q : Bool) (v0 : BitVec 2) (v : BitVec 3) (s : State) : Host.Outcome State Fault Refusal :=
  vectorWord (elementwise formsAny g q v0 1 0 (fun _ => v.toNat) (fun f x _ => elemCvt f v.toNat (arg x 0))) s

/-! ### Bits and moves (R297, R298) -/

def execVsel (g : BitVec 3) (q : Bool) (v0 : BitVec 2) (s : State) : Host.Outcome State Fault Refusal :=
  vectorWord (elementwise formsAny g q v0 3 0 same (fun _ x _ => elemSel (arg x 0) (arg x 1) (arg x 2))) s

def execVand (g : BitVec 3) (q : Bool) (v0 : BitVec 2) (s : State) : Host.Outcome State Fault Refusal :=
  vectorWord (elementwise formsAny g q v0 2 0 same (fun _ x _ => (arg x 0 &&& arg x 1, 0))) s

def execVor (g : BitVec 3) (q : Bool) (v0 : BitVec 2) (s : State) : Host.Outcome State Fault Refusal :=
  vectorWord (elementwise formsAny g q v0 2 0 same (fun _ x _ => (arg x 0 ||| arg x 1, 0))) s

def execVxor (g : BitVec 3) (q : Bool) (v0 : BitVec 2) (s : State) : Host.Outcome State Fault Refusal :=
  vectorWord (elementwise formsAny g q v0 2 0 same (fun _ x _ => (arg x 0 ^^^ arg x 1, 0))) s

def execVshl (g : BitVec 3) (q : Bool) (v0 : BitVec 2) (s : State) : Host.Outcome State Fault Refusal :=
  vectorWord (elementwise ⟨fmtI, true, true⟩ g q v0 2 0 same (fun f x _ => elemShl f (arg x 0) (arg x 1))) s

def execVshr (g : BitVec 3) (q : Bool) (v0 : BitVec 2) (v : BitVec 3) (s : State) : Host.Outcome State Fault Refusal :=
  vectorWord (elementwise ⟨fmtI, true, true⟩ g q v0 2 0 same (fun f x _ => elemShr (v = 1#3) f (arg x 0) (arg x 1))) s

def execVmov (g : BitVec 3) (q : Bool) (v0 : BitVec 2) (s : State) : Host.Outcome State Fault Refusal :=
  vectorWord (elementwise formsAny g q v0 1 0 same (fun _ x _ => (arg x 0, 0))) s

/-- `vbc`: one stack value, or the queue operand, in every on element (R298). -/
def execVbc (g : BitVec 3) (q : Bool) (v0 : BitVec 2) (s : State) : Host.Outcome State Fault Refusal :=
  vectorWord
    (if v0 = 0#2 then elementwise formsAny g q v0 0 1 same (fun _ _ st => (arg st 0, 0))
     else elementwise formsAny g q v0 1 0 same (fun _ x _ => (arg x 0, 0))) s

/-! ### Reductions, scans, permutation, softmax (R303 to R306) -/

/-- The on elements of a source with their values. -/
def onValues (r : EngRegs) (g : BitVec 3) (n : Nat) (vals : List Nat) : List (Nat × Nat) :=
  ((List.range n).filter (r.on g)).zip vals

def readsOf (r : EngRegs) (g : BitVec 3) (a : Region) (nib n : Nat) : List ElemRef :=
  ((List.range n).filter (r.on g)).map (fun i => ⟨a, nib, i⟩)

/-- A result for a queue, or the merge value where no element is on (R295). -/
def queueResult (r : Option Res) : Nat × Bool × Nat :=
  match r with
  | some (v, f) => (v, true, f)
  | none => (0, false, 0)

/-- What `vred` does: element 0 of dst, or q2 (R303). -/
def planVred (g : BitVec 3) (q : Bool) (v0 : BitVec 2) (v : BitVec 3) (r : EngRegs) (ops : List Word) (_e : Word) : M VJob := do
  checkForms ⟨fmtFI, false, true⟩ r.fmt v0 q
  let dst ← dstOperand r q ops
  let a ← regionOperand r (ops.getD (if q then 0 else 1) 0)
  let nib := nibbles r.fmt
  let n := a.count
  checkSource a nib n
  match dst with
  | some d => if !d.extentOk nib n then illegalWord
  | none => pure ()
  let result := fun (vals : List Nat) =>
    let es := onValues r g n vals
    if es.isEmpty then none else some (reduce v.toNat r.fmt es)
  return { reads := fun _ => readsOf r g a nib n
           regs := fun _ r => r
           dst := dst.getD ⟨0, 0⟩
           nib := nib
           writes := fun vals => if q then [] else match result vals with | some (x, f) => [(0, x, f)] | none => []
           push := fun vals => if q then some (queueResult (result vals)) else none }

def execVred (g : BitVec 3) (q : Bool) (v0 : BitVec 2) (v : BitVec 3) (s : State) : Host.Outcome State Fault Refusal :=
  vectorWord (runVector (popsOf q 1 0) v0 q (planVred g q v0 v)) s

/-- What `vscan` does: the inclusive prefixes, or the last of them to q2 (R304). -/
def planVscan (g : BitVec 3) (q : Bool) (v0 : BitVec 2) (v : BitVec 3) (r : EngRegs) (ops : List Word) (_e : Word) : M VJob := do
  checkForms ⟨fmtFI, false, true⟩ r.fmt v0 q
  let dst ← dstOperand r q ops
  let a ← regionOperand r (ops.getD (if q then 0 else 1) 0)
  let nib := nibbles r.fmt
  let n := match dst with | some d => d.count | none => a.count
  checkSource a nib n
  match dst with
  | some d => if !d.extentOk nib n then illegalWord
  | none => pure ()
  let es := fun (vals : List Nat) => onValues r g n vals
  return { reads := fun _ => readsOf r g a nib n
           regs := fun _ r => r
           dst := dst.getD ⟨0, 0⟩
           nib := nib
           writes := fun vals => if q then [] else scan v.toNat r.fmt (es vals)
           push := fun vals => if q then some (queueResult (scanLast v.toNat r.fmt (es vals))) else none }

def execVscan (g : BitVec 3) (q : Bool) (v0 : BitVec 2) (v : BitVec 3) (s : State) : Host.Outcome State Fault Refusal :=
  vectorWord (runVector (popsOf q 1 0) v0 q (planVscan g q v0 v)) s

/-- The data element of `vperm` that an index names, if it is one of a's (R305). -/
def permIndex (a : Region) (x : Nat) : Option Nat :=
  let i := signedOf 32 x
  if 0 ≤ i && i < a.count then some i.toNat else none

/-- The values of `vperm` from the elements read for the indices that name one. -/
def permute (a : Region) : List Nat → List Nat → List Nat
  | [], _ => []
  | x :: xs, vs =>
    match permIndex a x with
    | some _ => vs.headD 0 :: permute a xs vs.tail
    | none => 0 :: permute a xs vs

/-- What `vperm` does: a element of the data region for each index, or zeros (R305). -/
def planVperm (g : BitVec 3) (q : Bool) (v0 : BitVec 2) (r : EngRegs) (ops : List Word) (e : Word) : M VJob := do
  let queue : Bool := v0 ≠ 0#2
  checkForms formsAny r.fmt v0 q
  let dst ← dstOperand r q ops
  let first := if q then 0 else 1
  let nib := nibbles r.fmt
  let n := match dst with | some d => d.count | none => 1
  let a ← regionOperand r (ops.getD first 0)
  if !a.extentOk nib a.count then illegalWord
  let on := (List.range n).filter (r.on g)
  let xs ← if queue then pure [] else (do
    let x ← regionOperand r (ops.getD (first + 1) 0)
    checkSource x 8 n
    return on.map (fun i => (⟨x, 8, i⟩ : ElemRef)))
  match dst with
  | some d => if !d.extentOk nib n then illegalWord
  | none => pure ()
  let indices := fun (vals : List Nat) => if queue then on.map (fun _ => bits e.toNat 0 32) else vals.take xs.length
  let data := fun (vals : List Nat) =>
    if vals.length < xs.length then [] else (indices vals).filterMap (fun x => (permIndex a x).map (fun i => (⟨a, nib, i⟩ : ElemRef)))
  let results := fun (vals : List Nat) =>
    (on.zip (permute a (indices vals) (vals.drop xs.length))).map (fun p => (p.1, p.2, 0))
  return { reads := fun vals => xs ++ data vals
           regs := fun _ r => r
           dst := dst.getD ⟨0, 0⟩
           nib := nib
           writes := fun vals => if q then [] else results vals
           push := fun vals =>
             if q then some (queueResult ((results vals).head?.map (·.2))) else none }

def execVperm (g : BitVec 3) (q : Bool) (v0 : BitVec 2) (s : State) : Host.Outcome State Fault Refusal :=
  vectorWord (runVector (popsOf q (if v0 = 0#2 then 2 else 1) 0) v0 q (planVperm g q v0)) s

/-- What `vsoft` does (R306). -/
def planVsoft (g : BitVec 3) (q : Bool) (v0 : BitVec 2) (r : EngRegs) (ops : List Word) (e : Word) : M VJob := do
  checkForms ⟨fmtF, true, false⟩ r.fmt v0 q
  let d ← regionOperand r (ops.getD 0 0)
  let a ← regionOperand r (ops.getD 1 0)
  let nib := nibbles r.fmt
  let n := d.count
  checkSource a nib n
  if !d.extentOk nib n then illegalWord
  let pair := if v0 = 0#2 then none else some (bits e.toNat 0 32, bits e.toNat 32 32)
  return { reads := fun _ => readsOf r g a nib n
           regs := fun _ r => r
           dst := d
           nib := nib
           writes := fun vals => softmax r.fmt (onValues r g n vals) pair
           push := fun _ => none }

def execVsoft (g : BitVec 3) (q : Bool) (v0 : BitVec 2) (s : State) : Host.Outcome State Fault Refusal :=
  vectorWord (runVector (popsOf q 1 0) v0 q (planVsoft g q v0)) s

/-! ### Bit streams (R299) -/

/-- The two regions of a stream. -/
structure StreamSrc where
  a : Region
  b : Region

/-- Words of one lane's stream, and word `w` of lane `l` as a region element. -/
def StreamSrc.words (t : StreamSrc) : Nat := t.a.count / 64 + t.b.count / 64
def StreamSrc.elem (t : StreamSrc) (l w : Nat) : ElemRef :=
  let k := t.a.count / 64
  if w < k then ⟨t.a, 8, l + 64 * w⟩ else ⟨t.b, 8, l + 64 * (w - k)⟩

/-- Stream words that a field at a cursor touches. -/
def StreamSrc.touched (t : StreamSrc) (cursor wd : Nat) : List Nat :=
  let first := cursor / 32
  (List.range ((cursor % 32 + wd + 31) / 32)).map (fun i => (first + i) % t.words)

/-- The four words of a window: the one that contains the cursor and the next three. -/
def StreamSrc.window (t : StreamSrc) (cursor : Nat) : List Nat := (List.range 4).map (fun i => (cursor / 32 + i) % t.words)

/-- Lane and cursor of each on element, and the cursors after the word. -/
def cursors (t : StreamSrc) (wd : Nat) : List Nat → PMap Nat → List (Nat × Nat × Nat) × PMap Nat
  | [], m => ([], m)
  | i :: is, m =>
    let l := i % 64
    let c := PMap.get 0 m l
    let (rest, m') := cursors t wd is (PMap.put m l ((c + wd) % (32 * t.words)))
    ((i, l, c) :: rest, m')

/-- Keys without repeats, in their order. -/
def distinct (l : List (Nat × Nat)) : List (Nat × Nat) :=
  l.foldl (fun acc x => if acc.contains x then acc else acc ++ [x]) []

/-- A field of a stream from the words it touches. -/
def fieldOf (cursor wd : Nat) (words : List Nat) : Nat :=
  (words.foldr (fun w acc => w + 2 ^ 32 * acc) 0) / 2 ^ (cursor % 32) % 2 ^ wd

/-- What `vbsr` does: the next wd bits of each lane's stream (R299). -/
def planVbsr (g : BitVec 3) (q : Bool) (v0 : BitVec 2) (r : EngRegs) (ops : List Word) (_e : Word) : M VJob := do
  checkForms ⟨fmtAny, false, true⟩ r.fmt v0 q
  let dst ← dstOperand r q ops
  let first := if q then 0 else 1
  let p := (ops.getD first 0).toNat
  let wd := (ops.getD (first + 1) 0).toNat
  if 30 < p || p % 2 = 1 || wd = 0 || 32 < wd then illegalWord
  let a ← regionOperand r (BitVec.ofNat 64 p)
  let b ← regionOperand r (BitVec.ofNat 64 (p + 1))
  if a.count % 64 ≠ 0 || b.count % 64 ≠ 0 || !a.extentOk 8 a.count || !b.extentOk 8 b.count then illegalWord
  let n := match dst with | some d => d.count | none => 1
  match dst with
  | some d => if !d.extentOk 8 n then illegalWord
  | none => pure ()
  let t : StreamSrc := ⟨a, b⟩
  let streams : PMap Stream := if r.bsrPair = some p then r.streams else []
  let on := (List.range n).filter (r.on g)
  let (uses, after) := cursors t wd on (streams.map (fun x => (x.1, x.2.cursor)))
  let windows := (List.range 64).map (fun l => (l, t.window (PMap.get 0 after l)))
  let wanted := distinct ((uses.map (fun u => (t.touched u.2.2 wd).map (fun w => (u.2.1, w)))).flatten
    ++ (windows.map (fun x => x.2.map (fun w => (x.1, w)))).flatten)
  let cached := fun (x : Nat × Nat) =>
    (PMap.find streams x.1).bind (fun st => (st.window.find? (·.1 = x.2)).map (·.2.toNat))
  let fresh := wanted.filter (fun x => (cached x).isNone)
  let wordOf := fun (vals : List Nat) (x : Nat × Nat) =>
    match cached x with
    | some v => v
    | none => (((fresh.zip vals).find? (·.1 = x)).map (·.2)).getD 0
  let results := fun (vals : List Nat) => uses.map (fun u =>
    (u.1, fieldOf u.2.2 wd ((t.touched u.2.2 wd).map (fun w => wordOf vals (u.2.1, w))), 0))
  return { reads := fun _ => fresh.map (fun x => t.elem x.1 x.2)
           regs := fun vals r => { r with
             bsrPair := some p
             streams := windows.map (fun x => (x.1,
               { cursor := PMap.get 0 after x.1, window := x.2.map (fun w => (w, BitVec.ofNat 32 (wordOf vals (x.1, w)))) })) }
           dst := dst.getD ⟨0, 0⟩
           nib := 8
           writes := fun vals => if q then [] else results vals
           push := fun vals => if q then some (queueResult ((results vals).head?.map (·.2))) else none }

def execVbsr (g : BitVec 3) (q : Bool) (v0 : BitVec 2) (s : State) : Host.Outcome State Fault Refusal :=
  vectorWord (runVector (popsOf q 0 2) v0 q (planVbsr g q v0)) s

/-! ### Region registers and predicates (R290 to R292) -/

/-- The cursors and windows are emptied where the pair is among the registers written (R299). -/
def EngRegs.bsrReset (r : EngRegs) (written : Nat → Bool) : EngRegs :=
  match r.bsrPair with
  | some p => if written p || written (p + 1) then { r with streams := [] } else r
  | none => r

def execDset (n : BitVec 5) (s : State) : Host.Outcome State Fault Refusal :=
  runWord (fun e => do
    match ← operands e 2 0 with
    | [g, b] =>
      if bits g.toNat 48 15 ≠ 0 || bits g.toNat 0 16 = 0 || bits b.toNat 0 8 ≠ 0
        || (!bit g.toNat 63 && bits b.toNat 26 38 ≠ 0) then illegalWord
      restack e 2 []
      modRegs e (fun r => { r with regions := r.regions.set n.toFin ⟨b, g⟩ }.bsrReset (· = n.toNat))
      return .next
    | _ => illegalWord) s

def execDget (n : BitVec 5) (s : State) : Host.Outcome State Fault Refusal :=
  runWord (fun e => do
    let _ ← operands e 0 2
    let r := (← curEng e).regs.regions[n.toFin]
    restack e 0 [r.geom, r.base]
    return .next) s

/-- `rot d`: d16 to d31 turn by one, and the stage predicates shift (R291). -/
def EngRegs.rotate (r : EngRegs) : EngRegs :=
  let d := r.regions
  { r with
    regions := Vector.ofFn (fun (i : Fin 32) =>
      if i.val < 16 then d[i] else if i.val = 16 then d[31] else d[i.val - 1])
    pg := Vector.ofFn (fun (j : Fin 8) => if j.val < 2 then r.pg[j] else r.pg[j.val - 1]) }

def execRotD (s : State) : Host.Outcome State Fault Refusal :=
  runWord (fun e => do
    modRegs e (fun r => r.rotate.bsrReset (16 ≤ ·))
    return .next) s

def execPgs (n : BitVec 3) (s : State) : Host.Outcome State Fault Refusal :=
  runWord (fun e => do
    match ← operands e 2 0 with
    | [l, p] =>
      if 65535 < l.toNat then illegalWord
      restack e 2 []
      modRegs e (fun r => { r with pg := r.pg.set n.toFin ⟨p.setWidth 16, l.setWidth 16⟩ })
      return .next
    | _ => illegalWord) s

/-! ### Mask registers (R308) -/

/-- The address of `kld` and `kst`: 2-byte aligned, in one range of R48. -/
def maskAddress (a : Word) : M Nat := do
  if 2 ^ 26 ≤ a.toNat || a.toNat % 2 ≠ 0 || !localOk true a.toNat 2 then illegalWord
  return a.toNat

def setK (d : BitVec 4) (v : Half) : M Unit := modRegs .vx (fun r => { r with k := r.k.set d.toFin v })
def getK (d : BitVec 4) : M Half := do return (← curEng .vx).regs.k[d.toFin]

def execKld (d : BitVec 4) (s : State) : Host.Outcome State Fault Refusal :=
  runWord (fun e => do
    match ← operands e 1 0 with
    | [a] =>
      let la ← maskAddress a
      let bs ← loadLocal (← curBid) .vx la 2
      restack e 1 []
      setK d (BitVec.ofNat 16 (leNat bs))
      return .next
    | _ => illegalWord) s

def execKst (d : BitVec 4) (s : State) : Host.Outcome State Fault Refusal :=
  runWord (fun e => do
    match ← operands e 1 0 with
    | [a] =>
      let la ← maskAddress a
      let v ← getK d
      let bid ← curBid
      restack e 1 []
      modify (·.storeLocalBlock bid .vx la (leBytes 2 v.toNat))
      return .next
    | _ => illegalWord) s

/-- A K word of two registers. -/
def maskWord (d src : BitVec 4) (f : Half → Half → Half) (s : State) : Host.Outcome State Fault Refusal :=
  runWord (fun _ => do
    setK d (f (← getK d) (← getK src))
    return .next) s

def execKor (d v0 : BitVec 4) (s : State) : Host.Outcome State Fault Refusal := maskWord d v0 (· ||| ·) s
def execKand (d v0 : BitVec 4) (s : State) : Host.Outcome State Fault Refusal := maskWord d v0 (· &&& ·) s
def execKxor (d v0 : BitVec 4) (s : State) : Host.Outcome State Fault Refusal := maskWord d v0 (· ^^^ ·) s
def execKnot (d v0 : BitVec 4) (s : State) : Host.Outcome State Fault Refusal := maskWord d v0 (fun _ b => ~~~b) s

/-- `kbit`: one bit of a mask register, numbered by the top of the stack. -/
def maskBit (d : BitVec 4) (pushes : Bool) (f : Half → Nat → Half) (s : State) : Host.Outcome State Fault Refusal :=
  runWord (fun e => do
    match ← operands e 1 (if pushes then 1 else 0) with
    | [b] =>
      if 15 < b.toNat then illegalWord
      let v ← getK d
      restack e 1 (if pushes then [if v.getLsbD b.toNat then 1 else 0] else [])
      setK d (f v b.toNat)
      return .next
    | _ => illegalWord) s

def execKbitTst (d : BitVec 4) (s : State) : Host.Outcome State Fault Refusal := maskBit d true (fun v _ => v) s
def execKbitSet (d : BitVec 4) (s : State) : Host.Outcome State Fault Refusal :=
  maskBit d false (fun v b => v ||| BitVec.twoPow 16 b) s
def execKbitClr (d : BitVec 4) (s : State) : Host.Outcome State Fault Refusal :=
  maskBit d false (fun v b => v &&& ~~~BitVec.twoPow 16 b) s

def execKpop (d : BitVec 4) (s : State) : Host.Outcome State Fault Refusal :=
  runWord (fun e => do
    let _ ← operands e 0 1
    restack e 0 [BitVec.ofNat 64 (popCount (← getK d).toNat)]
    return .next) s

def execKget (d : BitVec 4) (s : State) : Host.Outcome State Fault Refusal :=
  runWord (fun e => do
    let _ ← operands e 0 1
    restack e 0 [(← getK d).setWidth 64]
    return .next) s

def execKset (d : BitVec 4) (s : State) : Host.Outcome State Fault Refusal :=
  runWord (fun e => do
    match ← operands e 1 0 with
    | [v] =>
      restack e 1 []
      setK d (v.setWidth 16)
      return .next
    | _ => illegalWord) s

end Sys2Proof.Machine
end

