-- ==== Sys2Proof/Machine/Sorrel.lean ====
section
/-! DEFINITION. Sorrel, the context unit: `vstub`, the mass check and the context fault (R106 to R116, R307). -/

namespace Sys2Proof.Machine

/-! ### The descriptor (R107, R113) -/

/-- A context descriptor and the header of its fault-record queue, read afresh. -/
structure Context where
  va : Nat
  w : List Nat
  q : List Nat

def Context.word (c : Context) (i : Nat) : Nat := c.w.getD i 0
def Context.rcap (c : Context) : Nat := bits (c.word 6) 48 16
def Context.scap (c : Context) : Nat := bits (c.word 6) 32 16
def Context.theta (c : Context) : Nat := bits (c.word 6) 16 16
def Context.lgrp (c : Context) : Nat := bits (c.word 6) 8 8
def Context.heads (c : Context) : Nat := bits (c.word 7) 48 16
def Context.dk (c : Context) : Nat := bits (c.word 7) 32 16
def Context.depth (c : Context) : Nat := bits (c.word 9) 0 8
def Context.nfault (c : Context) : Nat := bits (c.word 9) 8 32
/-- The pin entries in use (R112). -/
def Context.pins (c : Context) : List Nat := (List.range (min 4 c.depth)).map (fun j => bits (c.word 8) (16 * j) 16)
def Context.logcap (c : Context) : Nat := bits (c.q.getD 0 0) 0 4
def Context.head (c : Context) : Nat := c.q.getD 1 0
def Context.tail (c : Context) : Nat := c.q.getD 2 0

/-- The checks of R113 on the descriptor. -/
def descriptorOk (c : Context) : Bool :=
  c.word 0 % 16 = 0 && c.word 1 % 16 = 0 && c.word 2 % 256 = 0 && c.word 3 % 64 = 0 && c.word 4 % 128 = 0
    && c.word 5 % 2 = 0 && 1 ≤ c.rcap && c.rcap ≤ 32767 && c.scap ≤ 32767 && 1 ≤ c.lgrp && c.lgrp ≤ 64
    && bits (c.word 6) 0 8 = 0 && 1 ≤ c.heads && c.heads ≤ 64 && c.dk % 64 = 0 && 64 ≤ c.dk && c.dk ≤ 512
    && bits (c.word 7) 0 32 = 0 && bits (c.word 9) 40 24 = 0 && c.depth ≤ 4 && (c.w.drop 10).all (· = 0)

/-- The checks of R113 on the header of the fault-record queue (R111). -/
def headerOk (c : Context) : Bool := bits (c.q.getD 0 0) 4 60 = 0 && c.logcap ≤ 8 && (c.q.drop 3).all (· = 0)

/-- Context-format: cause 0x12 (R113, R229). -/
def contextFormat {α : Type} : M α := endNest 0x12

/-- `n` bytes of a context at a virtual address, in one page, as an engine read of the bank (R113). -/
def readCtx (va n : Nat) (seg : Bool) : M (List Byte) := do
  let s ← get
  let bid := s.cur.bid
  let p ← translate (s.whoEngine bid) (va % 2 ^ 64) accR 0
  if seg && !p.leaf.ctxseg then contextFormat
  loadBytes bid (some .vx) p.pa n

def wordsOfBytes (bs : List Byte) : List Nat := (List.range (bs.length / 8)).map (blockWord bs)

def readContext (va : Nat) : M Context := do
  if va % 128 ≠ 0 then contextFormat
  let d ← readCtx va 128 false
  let c : Context := ⟨va, wordsOfBytes d, []⟩
  if !descriptorOk c then contextFormat
  let q ← readCtx (c.word 3) 64 false
  let c := { c with q := wordsOfBytes q }
  if !headerOk c then contextFormat
  return c

/-! ### Tables (R108, R109) -/

/-- Word 1 of each entry of a table, from its valid bit on: index and count of the valid ones. -/
def readTable (base n : Nat) : M (List (Nat × Nat)) := do
  let es ← (List.range n).mapM (fun i => do
    let e ← readCtx (base + 16 * i) 16 true
    let w1 := blockWord e 1
    let count := bits w1 40 8
    if bit w1 0 && (count = 0 || 128 < count || bits w1 1 39 ≠ 0) then contextFormat
    return (i, count, bit w1 0))
  return (es.filter (·.2.2)).map (fun e => (e.1, e.2.1))

/-- BF16 elements from bytes. -/
def bf16List (bs : List Byte) : List Nat := (List.range (bs.length / 2)).map (fun j => leNat ((bs.drop (2 * j)).take 2))

/-- Bytes of the mean-key plane: the means of every entry of the stub table (R107, R109). -/
def Context.planeSize (c : Context) : Nat := c.scap * c.lgrp * c.heads * 2 * c.dk

/-- The page at an address has a leaf, as the TLB or a walk shows it, and is no context segment (R113). -/
def State.outsideSegs (s : State) (w : Who) (va : Nat) : Bool :=
  match s.tlbLookup w va with
  | some l => !l.ctxseg
  | none => match s.walk w.die w.root va with
    | .ok l => !l.ctxseg
    | .error _ => false

/-- A page of the mean-key plane has ctxseg = 0: those that the word does not read are looked at only, and one without a leaf passes (R113;
log 64). -/
def checkPlane (c : Context) : M Unit := do
  let s ← get
  let w := s.whoEngine s.cur.bid
  let page := c.word 2 / 4096
  let pages := if c.planeSize = 0 then 0 else (c.word 2 + c.planeSize - 1) / 4096 - page + 1
  if (List.range pages).any (fun i => s.outsideSegs w ((page + i) * 4096 % 2 ^ 64)) then contextFormat

/-- The mean key of a stub for a layer of the group and a head (R109). -/
def readMean (c : Context) (stub g head : Nat) : M (List Nat) := do
  let at0 := c.word 2 + ((stub * c.lgrp + g) * c.heads + head) * 2 * c.dk
  let bs ← (List.range (c.dk / 64)).mapM (fun i => readCtx (at0 + 128 * i) 128 true)
  return bf16List bs.flatten

/-- The exact sum of products, rounded once into FP32 (R307). -/
def dot32 (xs ys : List Nat) : Nat :=
  toFp32 ((xs.zip ys).foldl (fun a p => (a.add ((ofFp32 p.1).mul (bf16.decode p.2)).1).1) (.fin true 0 0))

/-! ### The mass check (R114, R115) -/

/-- A stub that takes part: index, estimated mass. -/
abbrev Masses := List (Nat × Nat)

/-- e × 2^16 > theta × T, exactly. -/
def overThreshold (theta t e : Nat) : Bool :=
  theta ≠ 0 && ((Num.ofInt theta 0 false).mul (ofFp32 t)).1.lt ((Num.ofInt 65536 0 false).mul (ofFp32 e)).1

/-- Descending order of mass, on a tie the lower index first. -/
def placeMass (x : Nat × Nat) : Masses → Masses
  | [] => [x]
  | y :: ys => if (ofFp32 x.2).lt (ofFp32 y.2) then y :: placeMass x ys else x :: y :: ys

/-- What the check decides: reason bits of the marks, and the stub that faults (R110, R115). A queue whose tail software has put past its head
is full (log 62). -/
def judge (c : Context) : Masses → Nat → Nat × Option (Nat × Nat)
  | [], marks => (marks, none)
  | x :: xs, marks =>
    if c.pins.any (fun p => p ≠ 0xFFFF && bit p 15 && p % 2 ^ 15 = x.1) then judge c xs (marks ||| 8)
    else if c.depth = 4 then (marks ||| 2, none)
    else if c.rcap ≤ (c.pins.filter (fun p => !bit p 15)).length then (marks ||| 4, none)
    else if 2 ^ c.logcap ≤ (c.head + 2 ^ 64 - c.tail) % 2 ^ 64 then (marks ||| 16, none)
    else (marks, some x)

/-! ### The context fault (R116) -/

/-- Registers of an engine after a context fault. The return stacks are emptied with the routines they belong to (log 63). -/
def EngRegs.discarded (r : EngRegs) (ticks : Nat) : EngRegs :=
  { r with
    upc := none, rstack := [], pstack := [], loops := Vector.replicate 3 LoopReg.init, deadline := 0
    rings := r.rings.map (fun g => { g with head := g.tail, full := [], reserved := 0 })
    acc0 := { cells := [], junk := some ticks }, acc1 := { cells := [], junk := some ticks } }

/-- An armed rendezvous is armed no longer. -/
def Rv.disarm (r : Rv) : Rv := if r.state = RvState.armed then { r with state := .unarmed } else r

/-- Step 4 of R116 in one bank, with the phases cancelled; `ctx` is due at the control core that takes the trap, whose instruction no longer
waits on a page fault: it is executed again after the trap (R178; log 94). The checkpoint of the faulting phase stays until the trap is taken
(R258, R260). -/
def Bank.contextDiscard (b : Bank) (ticks window : Nat) (ctx : Option Nat) : Bank :=
  let p := b.committed
  let b := (b.dropFlights (fun _ => true) window).modEngines (fun _ g =>
    { g with regs := g.regs.discarded ticks, queue := [], entry := none, stopped := none, mark := none, phase := p, checked := [] })
  { b with
    dq := Vector.replicate 8 []
    tok := []
    held := []
    phase := p
    ckpts := b.ckpts.filter (·.phase = p)
    marks := b.marks.filter (fun m => match m with | .acc .. => false | _ => true)
    uses := b.uses.filter (·.1 = 0)
    ctxDue := ctx
    waiter := if ctx.isSome then none else b.waiter
    core := { b.core with rv := b.core.rv.map Rv.disarm } }

/-- A word of a phase that reads a range waits for the commit of an earlier phase (R153). -/
def Bank.awaitsIn (b : Bank) (bid p : Nat) (x : Nat × Nat) : Bool :=
  (List.range (x.2 - x.1)).any (fun i => (b.ownByte p (x.1 + i)).isNone && b.awaits bid true p (x.1 + i))

/-- The part of a range in which a word can wait for a commit: the core scratchpad. -/
def scratchPart (bid : Nat) (x : Nat × Nat) : Nat × Nat :=
  (max x.1 (scratchBase (coreOf bid)), min x.2 (scratchBase (coreOf bid) + scratchSize))

/-- The next request of an issued copy word reads a byte that an earlier phase, not yet committed, has written or may write: with no fault and
no walk to wait for, the word waits for that commit (R153). -/
def State.waitsCommit (s : State) (bid : Nat) (f : Flight) : Bool :=
  let b := s.bank bid
  f.waiter.isNone && (PMap.find b.uses (5 + f.n)).isNone &&
  match f.reqs with
  | r :: _ => (s.reqSpans bid f r).1.any (fun x => x.any (fun x => b.awaitsIn bid f.phase (scratchPart bid x)))
  | [] => false

/-- Issued copy words of a bank that wait for an input that only a discarded word could provide: a slot that a discarded multiply word
would free, bytes that such a word would write, the commit of a phase that is cancelled, or a slot of their ring behind one that a discarded
word leaves unfilled (R116, R276, R287; log 94). -/
def State.deadFlights (s : State) (bid : Nat) : List Flight :=
  go (s.bank bid).flights []
where
  go : List Flight → List Flight → List Flight
    | [], dead => dead
    | f :: rest, dead =>
      let slot : Bool := match f.reqs with | .slotWait _ :: _ => s.flightStuck bid f && f.waiter.isNone | _ => s.waitsCommit bid f
      let fed := dead.any (fun d =>
        f.rings.any d.rings.contains || (s.flightSpans bid d).2.any (fun x => (s.flightSpans bid f).1.any x.meets))
      go rest (if slot || fed then dead ++ [f] else dead)

/-- An issued copy word is back among the others, in queue order. -/
def Bank.putBack (b : Bank) (f : Flight) : Bank :=
  { b with flights := b.flights.takeWhile (·.n < f.n) ++ f :: b.flights.dropWhile (·.n < f.n) }

/-- What a bank that leads drains for is served before a context fault: an earlier row of R178, the trap of a context fault before it, or a
page fault on which a word waits (R116, R122, R178). -/
def State.beforeFault (s : State) (bid : Nat) : Bool :=
  let b := s.bank bid
  (b.drainRow ≤ 4 && b.draining ≠ .fault) || (b.draining = .switch && s.wordsWait bid)

/-- Step 1 of R116: the bank drains for the fault; every word of an earlier phase, and what else has issued, completes in every member, or
the word waits; what waits for an input of a discarded word is left to be discarded. A rollback in the drain, and a page fault on which a word
waits, are served first; a later row of R178 for which the bank drains already is served afterwards (R122, R178, R260). -/
def settleForFault : M Unit := do
  let s ← get
  let bid := s.cur.bid
  let lead := s.handleBank bid
  let ms := s.members lead
  if ms.any (fun m => (s.bank m).committed ≠ ((s.bank m).engine .vx).phase) then waitMore
  if s.beforeFault lead then waitMore
  let s1 := (s.modBank lead (fun b => { b with draining := .fault })).drain ms drainRounds
  let dead := ms.map (fun m => (m, s1.deadFlights m))
  let s2 := (dead.foldl (fun s d => s.modBank d.1 (fun b =>
    { b with flights := b.flights.filter (fun f => !d.2.contains f) })) s1).drain ms drainRounds
  let settled := s2.drained ms (some .vx) && ms.all (fun m => (s2.bank m).flights.isEmpty)
  let cancelled := fun (m : Nat) => (s2.bank m).cancels ≠ (s.bank m).cancels
  let s3 := dead.foldl (fun s x => s.modBank x.1 (fun b =>
    if b.task.isNone then b
    else
      let b' := x.2.foldl Bank.putBack b
      if cancelled x.1 then b'.dropFlights (fun _ => true) s2.window else b')) s2
  set s3
  if (s3.bank lead).draining ≠ .fault then waitMore
  if s3.wordsWait lead then
    modify (·.giveWay lead)
    waitMore
  if !settled then waitMore
  modify (·.afterDrain lead)

/-- Words to write, each with its place (R113, R116 step 2). -/
def placeWords (l : List (Nat × Nat)) : M (List (Place × Nat)) := do
  let s ← get
  l.mapM (fun x => do return (← translate (s.whoEngine s.cur.bid) (x.1 % 2 ^ 64) accW 0, x.2))

def storeWords (l : List (Place × Nat)) : M Unit := do
  let bid ← curBid
  modify fun s => l.foldl (fun s x => s.storeAt bid (some .vx) x.1 (leBytes 8 x.2)) s

/-- The tag of a `vstub`: layer, token slot, head (R307). -/
structure StubTag where
  layer : Nat
  tok : Nat
  head : Nat

/-- The words that step 2 of R116 writes: depth and nfault, pins, the record, and last the head of the queue. -/
def faultWords (c : Context) (t : StubTag) (stub share : Nat) : List (Nat × Nat) :=
  let depth := c.depth + 1
  let pins := (c.word 8 ||| 0xFFFF * 2 ^ (16 * (depth - 1))) % 2 ^ 64
  let record := c.word 3 + 64 + 32 * (c.head % 2 ^ c.logcap)
  [(c.va + 72, (c.nfault + 1) % 2 ^ 32 * 256 + depth), (c.va + 64, pins),
   (record, c.va), (record + 8, t.layer * 2 ^ 48 + t.tok * 2 ^ 40 + depth * 2 ^ 32 + stub * 2 ^ 16 + t.head),
   (record + 16, share * 2 ^ 32), (record + 24, 0), (c.word 3 + 8, (c.head + 1) % 2 ^ 64)]

/-- The domain lines of words with their places, in a window: the trap acquires them (R116 step 5, R146). -/
def domainLines (l : List (Place × Nat)) (window : Nat) : List (Nat × Nat) :=
  (l.filter (fun x => isDomain x.1.pa)).flatMap (fun x => (linesOf x.1.pa 8).map (fun k => (k, window)))

/-- ContextFault: the writes of Sorrel, acquired by the trap, then the discard in every member; the trap is due at the control core of the
bank, or of the leader (R116, R173). The places are found before the drain, and acquired when the writes are made (log 94). -/
def contextFault (c : Context) (t : StubTag) (stub e total : Nat) : M Flow := do
  let ws ← placeWords (faultWords c t stub (div32 e total))
  settleForFault
  storeWords ws
  modify fun s =>
    let lead := s.handleBank s.cur.bid
    let s := s.modBank lead (fun b => { b with dom := joinAll b.dom (domainLines ws s.window) })
    ((s.members lead).foldl (fun s m => s.modBank m (·.contextDiscard s.ticks s.window (if m = lead then some c.va else none))) s).gcFaults
  return .more

/-! ### `vstub` (R307) -/

/-- m, T, the estimated masses, from the exact scores and the scores of the stubs with their counts. -/
def stubMass (scores : List Nat) (stubs : List (Nat × Nat × Nat)) : Nat × Nat × Masses :=
  let m := maxFp32 (scores ++ stubs.map (·.2.2))
  let t := scores.foldl (fun t x => add32 t (expDiff x m).1) 0
  let es := stubs.map (fun s => (s.1, toFp32 ((Num.ofInt s.2.1 0 false).mul (ofFp32 (expDiff s.2.2 m).1)).1))
  (m, es.foldl (fun t e => add32 t e.2) t, es)

/-- Where the result goes: the two elements of dst, translated before anything changes. -/
def checkResult (d : Region) : M Unit := do
  if d.handle then
    let _ ← elemPlace ⟨d, 8, 0⟩ accW
    let _ ← elemPlace ⟨d, 8, 1⟩ accW

/-- The token record with its marks (R110): OVERSHOT, the reasons, the layer. -/
def markedRecord (old layer marks : Nat) : Nat :=
  (old ||| 1 ||| marks) - bits old 8 8 * 256 + layer % 256 * 256

/-- The regions of a `vstub`: destination, query, scores, once their forms have passed (R307). -/
def stubRegions (r : EngRegs) (q : Bool) (v0 : BitVec 2) (ops : List Word) : M (Option Region × Region × Region) := do
  checkForms ⟨fmt32, false, true⟩ r.fmt v0 q
  let dst ← dstOperand r q ops
  let first := if q then 0 else 1
  let qr ← regionOperand r (ops.getD first 0)
  let sr ← regionOperand r (ops.getD (first + 1) 0)
  if !qr.extentOk 8 qr.count || !sr.extentOk 8 sr.count then illegalWord
  match dst with
  | some d => if d.count < 2 || !d.extentOk 8 d.count then illegalWord
  | none => pure ()
  return (dst, qr, sr)

/-- What the mass check of a `vstub` comes to. -/
structure StubJob where
  c : Context
  t : StubTag
  m : Nat
  total : Nat
  /-- m or T is a NaN -/
  bad : Bool
  /-- marks for the token record -/
  marks : Nat
  /-- the stub that faults, and its mass -/
  fault : Option (Nat × Nat)

/-- The context is read, and the mass of its stubs judged (R307). -/
def stubJudge (tag ctx : Nat) (qr sr : Region) : M StubJob := do
  let c ← readContext ctx
  let t : StubTag := ⟨bits tag 48 16, bits tag 40 8, bits tag 0 16⟩
  if bits tag 16 24 ≠ 0 || 15 < t.tok || c.heads ≤ t.head || qr.count ≠ c.dk then contextFormat
  checkPlane c
  let query ← (List.range qr.count).mapM (fun i => readElem ⟨qr, 8, i⟩)
  let scores ← (List.range sr.count).mapM (fun i => readElem ⟨sr, 8, i⟩)
  let _ ← readTable (c.word 0) c.rcap
  let valid ← readTable (c.word 1) c.scap
  let stubs ← valid.mapM (fun x => do
    let k ← readMean c x.1 (t.layer % c.lgrp) t.head
    return (x.1, x.2, dot32 query k))
  let (m, total, es) := stubMass scores stubs
  let bad := (ofFp32 m).isNan || (ofFp32 total).isNan
  let heavy := if bad then [] else (es.filter (fun e => overThreshold c.theta total e.2)).foldr placeMass []
  let (marks, fault) := judge c heavy 0
  return { c := c, t := t, m := m, total := total, bad := bad, marks := marks, fault := fault }

/-- The places of the marks in the token record, and the destination, before anything changes. -/
def stubPlaces (j : StubJob) (dst : Option Region) : M (List (Place × Nat)) := do
  let at0 := j.c.word 4 + 8 * j.t.tok
  let ws ← if j.marks = 0 then pure [] else (do
    let old ← readCtx at0 8 false
    placeWords [(at0, markedRecord (leNat old) j.t.layer j.marks)])
  match dst with
  | some d => checkResult d
  | none => pure ()
  return ws

/-- The result of a `vstub` that does not fault: its marks, NV, m and T (R307). -/
def stubResult (j : StubJob) (dst : Option Region) (ws : List (Place × Nat)) : M Unit := do
  storeWords ws
  if j.bad then raiseFlags flagNV
  match dst with
  | some d =>
    writeElem ⟨d, 8, 0⟩ j.m
    writeElem ⟨d, 8, 1⟩ j.total
  | none => deliver .vx 2#3 (BitVec.ofNat 64 (j.total * 2 ^ 32 + j.m)) true

/-- `vstub`: a word that stops keeps its operands and no progress, and is executed as a whole again (R180, R307). -/
def execVstub (g : BitVec 3) (q : Bool) (v0 : BitVec 2) (s : State) : Host.Outcome State Fault Refusal :=
  vectorWord (do
    let pops := popsOf q 2 2
    let e ← curEng .vx
    let r := e.regs
    let ops ← match e.stopped with
      | some st => pure st.ops
      | none => operands .vx pops 0
    let (dst, qr, sr) ← stubRegions r q v0 ops
    let first := if q then 0 else 1
    let tag := (ops.getD (first + 2) 0).toNat
    let ctx := (ops.getD (first + 3) 0).toNat
    if q && (← delivers) && elemDepth ≤ ((← curBank).queueOf 2#3).length then waitMore
    if e.stopped.isNone then
      restack .vx pops []
      keep .vx ops 0 []
    if !r.on g 0 then
      if q then deliver .vx 2#3 0 false
      return .next
    let j ← stubJudge tag ctx qr sr
    match j.fault with
    | some x => contextFault j.c j.t x.1 x.2 j.total
    | none =>
      let ws ← stubPlaces j dst
      stubResult j dst ws
      return .next) s

end Sys2Proof.Machine
end

