-- ==== Sys2Proof/Machine/Start.lean ====
section
/-! DEFINITION. Firmware (R350), and the start sequence with repair, capacity, recovery summary and the safe state (R85, R87,
R88, R357 to R361). -/

namespace Sys2Proof.Machine

/-! ### Firmware (R350) -/

/-- The form of an image: header, signature, body of the length given (R350). -/
def fwForm (image : List Byte) : Bool :=
  448 ≤ image.length && leNat (image.take 4) = 0x4B425846 && ((image.drop 16).take 48).all (· = 0#8)
    && image.length = 448 + leNat ((image.drop 12).take 4)

/-- The signature of an image verifies over its header and body under the fused key (R350). -/
def fwSigned (image : List Byte) : Bool :=
  rsaVerifies Config.fwKey (image.take 64 ++ image.drop 448) ((image.drop 64).take 384)

/-- FW_STAGE: a good image goes to the inactive slot (R350; log 11). -/
def execFwStage (image : List Byte) (s : State) : Host.Outcome State Fault Refusal :=
  s.command true true (fun s =>
    let h := s.host
    .next (
      if !fwForm image || !fwSigned image || fwVersion image < h.fwMin then s
      else if h.fwActive = 0 then { s with host := { h with fw1 := image, fwStaged := true } }
      else { s with host := { h with fw0 := image, fwStaged := true } }))

/-- FW_ACTIVATE: the staged slot becomes active at the next reset (R350). -/
def execFwActivate (s : State) : Host.Outcome State Fault Refusal :=
  s.command true true (fun s => .next (if s.host.fwStaged then { s with host := { s.host with fwPending := true } } else s))

/-- The reset at which an activation takes effect: the slots change roles and the fused minimum rises (R350). -/
def HostSt.activate (h : HostSt) : HostSt :=
  if h.fwPending then
    let a := 1 - h.fwActive
    { h with fwActive := a, fwStaged := false, fwPending := false, fwMin := max h.fwMin (fwVersion (h.slot a)) }
  else h

/-- The active slot verifies (R350). -/
def HostSt.fwGood (h : HostSt) : Bool := fwForm h.fwImage && fwSigned h.fwImage

/-- The firmware check: the active slot, else the other. A staged image that becomes active so is staged no longer: the slot that fails is
then no image to activate (R350). -/
def HostSt.checkFw (h : HostSt) : Bool × HostSt :=
  if h.fwGood then (true, h)
  else
    let h' := { h with fwActive := 1 - h.fwActive, fwStaged := false, fwPending := false }
    (h'.fwGood, h')

/-! ### Repair and capacity (R357, R358) -/

/-- Channels in service of a die, or cores: set bits of a mask. -/
def popcount (v n : Nat) : Nat := ((List.range n).filter (bit v)).length

/-- The channel mask of a die without the channels that retire (R356, R357). -/
def State.chmask (s : State) (r : StartReport) (d : Nat) : Nat :=
  ((List.range 16).map (fun c => if bit (r.chmasks.getD d 0) c && !s.host.retired.contains (16 * d + c) then 2 ^ c else 0)).sum

/-- The core mask of a die without the cores marked failed (R353). -/
def State.coremask (s : State) (r : StartReport) (d : Nat) : Nat :=
  ((List.range 24).map (fun c => if bit (r.coremasks.getD d 0) c && !(s.coreSt (24 * d + c)).failed then 2 ^ c else 0)).sum

/-- CAPS of a die (R358). -/
def State.capsOf (s : State) (r : StartReport) (d : Nat) : Word :=
  let ch := s.chmask r d
  BitVec.ofNat 64 (4 * popcount ch 16 * 2 ^ 48 + ch * 2 ^ 32 + (if d = 0 then r.lanes % 256 else 0) * 2 ^ 24 + s.coremask r d)

/-- One entry of the pending list is repaired: it is burnt, or retires its channel where no spare is left. The row reads as poisoned
until it is written (R351, R357). -/
def State.repair1 (s : State) (entry : Nat) : State :=
  let h := s.host
  let lines := (Config.rowLines entry).filter (fun l => regionOf (64 * l) = .dram (bits entry 62 2))
  if Config.spareLeft h.burnt entry then
    { s with host := { h with burnt := entry :: h.burnt }, poison := lines.filter (fun l => !s.poison.contains l) ++ s.poison }
  else { s with host := { h with retired := bits entry 58 6 :: h.retired } }

/-- The repairs of the pending list, which is empty after them (R357). -/
def State.repair (s : State) : State :=
  let s := ((List.range s.pprCount).map s.pprEntry).foldl State.repair1 s
  { s with
    mem := s.mem.blank reservedBase (reservedBase + 0x10000) none
    betony := { s.betony with media := s.betony.media.blank reservedBase (reservedBase + 0x10000) none } }

/-! ### The recovery summary (R87, R88) -/

/-- The doublewords of the summary. -/
def Betony.summary (t : Betony) (free : Nat → Nat) : List Nat :=
  [b2n t.drainOk * 2 ^ 33 + b2n t.loss * 2 ^ 32 + t.entries.length * 2 ^ 16 + 1, t.starts,
    if t.loss then t.lossCyc else free 0, if t.loss then t.lossTime else free 1, t.lastSeq, t.firstSeq, 0, 0]
    ++ t.entries.flatMap (fun e => [e.1, e.2.1, e.2.2.1, e.2.2.2])

def summaryOff : Nat := 0x10000

/-- Doublewords written to the reserved area from an offset on. -/
def State.writeWords (s : State) (off : Nat) : List Nat → State
  | [] => s
  | v :: vs => (s.writeReserved off v).writeWords (off + 8) vs

/-- Betony starts: the summary is written, then it serves accesses, and the run's first sequence number is recorded (R85, R87); writes of the
units that waited for it go on (R74). Where the previous run ended in neither a loss of power nor an orderly shutdown, as a safe state that is
left by a reset does, the summary's loss bit is that of the latest end of a run since the last summary, and 0 where there was none (log 103). -/
def State.startBetony (s : State) : State :=
  let clear := fun (m : Mem) => m.blank (reservedBase + summaryOff) (reservedBase + summaryOff + 0x4000) none
  let s := { s with mem := clear s.mem, betony := { s.betony with media := clear s.betony.media } }
  let s := s.writeWords summaryOff (s.betony.summary (fun i => (Config.freeWord s.ticks i).toNat))
  { s with betony := { s.betony with
    rdy := true, loss := false, drainOk := true, entries := [], firstSeq := s.betony.seq } }.retryUnits

/-! ### The start sequence (R360, R361) -/

/-- The memories whose contents a start leaves undefined. -/
def State.scramble (s : State) : State :=
  let u := some s.ticks
  let m := s.mem.blank 0 (4 * dramSpan) u
  let m := m.blank chipBase (chipBase + 4 * chipSize) u
  let m := m.blank coreBase (coreBase + 96 * coreSpan) u
  let m := m.blank l2Base (l2Base + 96 * coreSpan) u
  { s with mem := m.blank laneBase (laneBase + 96 * 0x40000) u }

/-- BISTSTAT (R360). -/
def bistWord (state step die detail : Nat) : Word :=
  BitVec.ofNat 64 (state * 2 ^ 56 + step * 2 ^ 48 + die * 2 ^ 40 + (if step = 0 then 0 else detail % 2 ^ 40))

/-- What puts the module into the safe state: the step that fails first, and the die (R361). -/
def State.unsafeStart (s : State) (r : StartReport) (fw : Bool) : Option (Nat × Nat) :=
  match (List.range 4).find? (fun d => s.coremask r d = 0 || popcount (s.chmask r d) 16 < 4) with
  | some d => some (if s.coremask r d = 0 || popcount (r.chmasks.getD d 0) 16 < 4 then 1 else 2, d)
  | none =>
    if !fw then some (4, 0) else if !r.mediaOk then some (5, 0) else if r.lanes < 4 then some (6, 0) else none

/-- What a degraded start has out of service, by the first step that failed, and the die (R358, R360). -/
def State.degraded (s : State) (r : StartReport) : Option (Nat × Nat) :=
  let tested := fun (d : Nat) => s.coremask r d = 0xFFFFFF && r.chmasks.getD d 0 % 2 ^ 16 = 0xFFFF
  if !r.bistOk then some (1, r.failDie)
  else match (List.range 4).find? (fun d => !tested d) with
    | some d => some (1, d)
    | none => match (List.range 4).find? (fun d => s.chmask r d ≠ 0xFFFF) with
      | some d => some (2, d)
      | none => if r.lanes < 16 then some (6, 0) else none

/-- A start may run: after a loss of power or a shutdown, from the safe state, or at first. -/
def State.canStart (s : State) : Bool := s.host.stopped || s.host.safe || !s.betony.rdy

/-- START_SEQUENCE: self-test, repair, CAPS, firmware check, Betony and the recovery summary, then CXL; or the safe state (R85,
R357, R360, R361). -/
def execStartSequence (r : StartReport) (s : State) : Host.Outcome State Fault Refusal :=
  .next (
    if !s.canStart then s
    else
      let s := (s.powerless s.mem).scramble.repair
      let caps := #v[s.capsOf r 0, s.capsOf r 1, s.capsOf r 2, s.capsOf r 3]
      let dies : PMap Die :=
        [(0, { Die.init 0 with caps := caps[0] }), (1, { Die.init 1 with caps := caps[1] }),
          (2, { Die.init 2 with caps := caps[2] }), (3, { Die.init 3 with caps := caps[3] })]
      let (fw, h) := s.host.activate.checkFw
      let trouble := s.unsafeStart r fw
      let bist := match trouble with
        | some (step, die) => bistWord 3 step die r.detail
        | none => match s.degraded r with
          | some (step, die) => bistWord 2 step die r.detail
          | none => bistWord 1 0 0 0
      let s := { s with
        dies := dies, cycle := 0
        betony := { s.betony with starts := s.betony.starts + 1 }
        host := { h with stopped := false, safe := trouble.isSome, bist := bist } }
      if trouble.all (fun t => t.1 = 6) then s.startBetony else s)

end Sys2Proof.Machine
end

