-- ==== Sys2Proof/Machine/Dispatch.lean ====
section
/-! DEFINITION. What each instruction does: one arm for each constructor, a direct call of its meaning. -/

namespace Sys2Proof.Machine

open Sys2Proof

def exec (i : Instr) (s : State) : Host.Outcome State Fault Refusal :=
  match i with
  | .xlat a p => Sys2Proof.Machine.execXlat a p s
  | .xlatW a p => Sys2Proof.Machine.execXlatW a p s
  | .hinv p => Sys2Proof.Machine.execHinv p s
  | .hstat d p => Sys2Proof.Machine.execHstat d p s
  | .ldh d p a c => Sys2Proof.Machine.execLdh d p a c s
  | .sdh b p a c => Sys2Proof.Machine.execSdh b p a c s
  | .qpush q a => Sys2Proof.Machine.execQpush q a s
  | .qpop d q => Sys2Proof.Machine.execQpop d q s
  | .qpeek d q => Sys2Proof.Machine.execQpeek d q s
  | .qlvl d q => Sys2Proof.Machine.execQlvl d q s
  | .qwm e a => Sys2Proof.Machine.execQwm e a s
  | .waitt a => Sys2Proof.Machine.execWaitt a s
  | .prm d a => Sys2Proof.Machine.execPrm d a s
  | .ecall e r => Sys2Proof.Machine.execEcall e r s
  | .epush e a n => Sys2Proof.Machine.execEpush e a n s
  | .emark e a => Sys2Proof.Machine.execEmark e a s
  | .rdvs v m a => Sys2Proof.Machine.execRdvs v m a s
  | .rdvw v => Sys2Proof.Machine.execRdvw v s
  | .safept v0 => Sys2Proof.Machine.execSafept v0 s
  | .nsub d a => Sys2Proof.Machine.execNsub d a s
  | .tdone => Sys2Proof.Machine.execTdone s
  | .gang a => Sys2Proof.Machine.execGang a s
  | .ungang => Sys2Proof.Machine.execUngang s
  | .csyncSet a b => Sys2Proof.Machine.execCsyncSet a b s
  | .csyncW a => Sys2Proof.Machine.execCsyncW a s
  | .phsw => Sys2Proof.Machine.execPhsw s
  | .dopen d a => Sys2Proof.Machine.execDopen d a s
  | .dopenW d a b => Sys2Proof.Machine.execDopenW d a b s
  | .dclose a => Sys2Proof.Machine.execDclose a s
  | .dbind d a b => Sys2Proof.Machine.execDbind d a b s
  | .dunbind d a => Sys2Proof.Machine.execDunbind d a s
  | .dbset d a => Sys2Proof.Machine.execDbset d a s
  | .dqry d a => Sys2Proof.Machine.execDqry d a s
  | .pbar c => Sys2Proof.Machine.execPbar c s
  | .pwb a => Sys2Proof.Machine.execPwb a s
  | .fenceS c => Sys2Proof.Machine.execFenceS c s
  | .vcfp d a => Sys2Proof.Machine.execVcfp d a s
  | .vcrep a => Sys2Proof.Machine.execVcrep a s
  | .vcsync a => Sys2Proof.Machine.execVcsync a s
  | .fqpop d a => Sys2Proof.Machine.execFqpop d a s
  | .fqrep a b => Sys2Proof.Machine.execFqrep a b s
  | .ergr d a => Sys2Proof.Machine.execErgr d a s
  | .load w d a imm => Sys2Proof.Machine.execLoad w d a imm s
  | .store w b a imm => Sys2Proof.Machine.execStore w b a imm s
  | .amo op dbl aq rl d a b => Sys2Proof.Machine.execAmo op dbl aq rl d a b s
  | .lr dbl aq rl d a => Sys2Proof.Machine.execLr dbl aq rl d a s
  | .sc dbl aq rl d a b => Sys2Proof.Machine.execSc dbl aq rl d a b s
  | .csrAccess op useImm csr d a => Sys2Proof.Machine.execCsrAccess op useImm csr d a s
  | .standardEcall => Sys2Proof.Machine.execStandardEcall s
  | .ebreak => Sys2Proof.Machine.execEbreak s
  | .sret => Sys2Proof.Machine.execSret s
  | .wfi => Sys2Proof.Machine.execWfi s
  | .sfenceVma a b => Sys2Proof.Machine.execSfenceVma a b s
  | .fence fm pre suc a d => Sys2Proof.Machine.execFence fm pre suc a d s
  | .fenceTso a d => Sys2Proof.Machine.execFenceTso a d s
  | .fenceI imm a d => Sys2Proof.Machine.execFenceI imm a d s
  | .intRR op d a b => Sys2Proof.Machine.execIntRR op d a b s
  | .intRI op d a imm => Sys2Proof.Machine.execIntRI op d a imm s
  | .intShift op d a sh => Sys2Proof.Machine.execIntShift op d a sh s
  | .intUnary op d a => Sys2Proof.Machine.execIntUnary op d a s
  | .lui d imm => Sys2Proof.Machine.execLui d imm s
  | .auipc d imm => Sys2Proof.Machine.execAuipc d imm s
  | .jal d off => Sys2Proof.Machine.execJal d off s
  | .jalr d a imm => Sys2Proof.Machine.execJalr d a imm s
  | .branch k a b off => Sys2Proof.Machine.execBranch k a b off s
  | .literal v => Sys2Proof.Machine.execLiteral v s
  | .lix => Sys2Proof.Machine.execLix s
  | .dup => Sys2Proof.Machine.execDup s
  | .drop => Sys2Proof.Machine.execDrop s
  | .swap => Sys2Proof.Machine.execSwap s
  | .rot => Sys2Proof.Machine.execRot s
  | .rotD => Sys2Proof.Machine.execRotD s
  | .loop l => Sys2Proof.Machine.execLoop l s
  | .endl l => Sys2Proof.Machine.execEndl l s
  | .lset k l => Sys2Proof.Machine.execLset k l s
  | .lget k l => Sys2Proof.Machine.execLget k l s
  | .tokw e => Sys2Proof.Machine.execTokw e s
  | .tokr e => Sys2Proof.Machine.execTokr e s
  | .mark => Sys2Proof.Machine.execMark s
  | .call => Sys2Proof.Machine.execCall s
  | .ret => Sys2Proof.Machine.execRet s
  | .nop => Sys2Proof.Machine.execNop s
  | .fsel f => Sys2Proof.Machine.execFsel f s
  | .qin q => Sys2Proof.Machine.execQin q s
  | .qout q => Sys2Proof.Machine.execQout q s
  | .cpy p v1 d g => Sys2Proof.Machine.execCpy p v1 d g s
  | .cpy2 p v1 d g => Sys2Proof.Machine.execCpy2 p v1 d g s
  | .cpyz p d => Sys2Proof.Machine.execCpyz p d s
  | .gath p v1 d g => Sys2Proof.Machine.execGath p v1 d g s
  | .scat p v1 d => Sys2Proof.Machine.execScat p v1 d s
  | .pfch p v1 => Sys2Proof.Machine.execPfch p v1 s
  | .cpyg p v1 d => Sys2Proof.Machine.execCpyg p v1 d s
  | .cpyd p v1 d => Sys2Proof.Machine.execCpyd p v1 d s
  | .fill p d => Sys2Proof.Machine.execFill p d s
  | .rfeed p v1 g => Sys2Proof.Machine.execRfeed p v1 g s
  | .dln => Sys2Proof.Machine.execDln s
  | .skey f => Sys2Proof.Machine.execSkey f s
  | .hist d f => Sys2Proof.Machine.execHist d f s
  | .selk f => Sys2Proof.Machine.execSelk f s
  | .selp f => Sys2Proof.Machine.execSelp f s
  | .cmpk f => Sys2Proof.Machine.execCmpk f s
  | .vadd g q v2 => Sys2Proof.Machine.execVadd g q v2 s
  | .vsub g q v2 => Sys2Proof.Machine.execVsub g q v2 s
  | .vmul g q v2 => Sys2Proof.Machine.execVmul g q v2 s
  | .vfma g q v2 => Sys2Proof.Machine.execVfma g q v2 s
  | .vmax g q v2 => Sys2Proof.Machine.execVmax g q v2 s
  | .vmin g q v2 => Sys2Proof.Machine.execVmin g q v2 s
  | .vabs g q v2 => Sys2Proof.Machine.execVabs g q v2 s
  | .vneg g q v2 => Sys2Proof.Machine.execVneg g q v2 s
  | .vcvt g q v2 v => Sys2Proof.Machine.execVcvt g q v2 v s
  | .vexp g q v2 => Sys2Proof.Machine.execVexp g q v2 s
  | .vlog g q v2 => Sys2Proof.Machine.execVlog g q v2 s
  | .vrcp g q v2 => Sys2Proof.Machine.execVrcp g q v2 s
  | .vrsq g q v2 => Sys2Proof.Machine.execVrsq g q v2 s
  | .vcmp g q v2 v => Sys2Proof.Machine.execVcmp g q v2 v s
  | .vsel g q v2 => Sys2Proof.Machine.execVsel g q v2 s
  | .vred g q v2 v => Sys2Proof.Machine.execVred g q v2 v s
  | .vscan g q v2 v => Sys2Proof.Machine.execVscan g q v2 v s
  | .vbsr g q v2 => Sys2Proof.Machine.execVbsr g q v2 s
  | .vperm g q v2 => Sys2Proof.Machine.execVperm g q v2 s
  | .vand g q v2 => Sys2Proof.Machine.execVand g q v2 s
  | .vor g q v2 => Sys2Proof.Machine.execVor g q v2 s
  | .vxor g q v2 => Sys2Proof.Machine.execVxor g q v2 s
  | .vshl g q v2 => Sys2Proof.Machine.execVshl g q v2 s
  | .vshr g q v2 v => Sys2Proof.Machine.execVshr g q v2 v s
  | .vmov g q v2 => Sys2Proof.Machine.execVmov g q v2 s
  | .vbc g q v2 => Sys2Proof.Machine.execVbc g q v2 s
  | .vclamp g q v2 => Sys2Proof.Machine.execVclamp g q v2 s
  | .vstub g q v2 => Sys2Proof.Machine.execVstub g q v2 s
  | .vsoft g q v2 => Sys2Proof.Machine.execVsoft g q v2 s
  | .dset n => Sys2Proof.Machine.execDset n s
  | .dget n => Sys2Proof.Machine.execDget n s
  | .pgs n => Sys2Proof.Machine.execPgs n s
  | .kld d => Sys2Proof.Machine.execKld d s
  | .kst d => Sys2Proof.Machine.execKst d s
  | .kor d v1 => Sys2Proof.Machine.execKor d v1 s
  | .kand d v1 => Sys2Proof.Machine.execKand d v1 s
  | .kxor d v1 => Sys2Proof.Machine.execKxor d v1 s
  | .knot d v1 => Sys2Proof.Machine.execKnot d v1 s
  | .kbitTst d => Sys2Proof.Machine.execKbitTst d s
  | .kbitSet d => Sys2Proof.Machine.execKbitSet d s
  | .kbitClr d => Sys2Proof.Machine.execKbitClr d s
  | .kpop d => Sys2Proof.Machine.execKpop d s
  | .kget d => Sys2Proof.Machine.execKget d s
  | .kset d => Sys2Proof.Machine.execKset d s
  | .mm r c b f l => Sys2Proof.Machine.execMm r c b f l s
  | .mml r c b f l => Sys2Proof.Machine.execMml r c b f l s
  | .mmm r c b f l => Sys2Proof.Machine.execMmm r c b f l s
  | .mpb => Sys2Proof.Machine.execMpb s
  | .acco b f => Sys2Proof.Machine.execAcco b f s
  | .accz b => Sys2Proof.Machine.execAccz b s
  | .accg b => Sys2Proof.Machine.execAccg b s
  | .rng g => Sys2Proof.Machine.execRng g s
  | .fte n => Sys2Proof.Machine.execFte n s
  | .draw b => Sys2Proof.Machine.execDraw b s
  | .notify vf off a => Sys2Proof.Machine.execNotify vf off a s
  | .cowslipAccept die => Sys2Proof.Machine.execCowslipAccept die s
  | .ringIdleTimeout die ring => Sys2Proof.Machine.execRingIdleTimeout die ring s
  | .schedulerVisit die level places => Sys2Proof.Machine.execSchedulerVisit die level places s
  | .agingTick die nest => Sys2Proof.Machine.execAgingTick die nest s
  | .speedwellWindow die => Sys2Proof.Machine.execSpeedwellWindow die s
  | .heatThrottle core cycles => Sys2Proof.Machine.execHeatThrottle core cycles s
  | .preemptionRequest bank => Sys2Proof.Machine.execPreemptionRequest bank s
  | .forcedSave bank => Sys2Proof.Machine.execForcedSave bank s
  | .contextResume saved => Sys2Proof.Machine.execContextResume saved s
  | .pageWalkEnd bank ph ver => Sys2Proof.Machine.execPageWalkEnd bank ph ver s
  | .faultRecordAlloc bank agent => Sys2Proof.Machine.execFaultRecordAlloc bank agent s
  | .iqInvalidate => Sys2Proof.Machine.execIqInvalidate s
  | .flipRequest => Sys2Proof.Machine.execFlipRequest s
  | .flipAck => Sys2Proof.Machine.execFlipAck s
  | .invalidationComplete => Sys2Proof.Machine.execInvalidationComplete s
  | .promiseMissed bank n promise => Sys2Proof.Machine.execPromiseMissed bank n promise s
  | .waittWake bank => Sys2Proof.Machine.execWaittWake bank s
  | .dopenWTimeout bank => Sys2Proof.Machine.execDopenWTimeout bank s
  | .reclaimRetry slot => Sys2Proof.Machine.execReclaimRetry slot s
  | .lrReservationExpiry bank => Sys2Proof.Machine.execLrReservationExpiry bank s
  | .copyComplete bank => Sys2Proof.Machine.execCopyComplete bank s
  | .markerRetire bank e => Sys2Proof.Machine.execMarkerRetire bank e s
  | .phaseCommit bank => Sys2Proof.Machine.execPhaseCommit bank s
  | .checkedEntryIssue bank e => Sys2Proof.Machine.execCheckedEntryIssue bank e s
  | .yarrowMismatch bank => Sys2Proof.Machine.execYarrowMismatch bank s
  | .durableAccept v0 => Sys2Proof.Machine.execDurableAccept v0 s
  | .mediaWrite => Sys2Proof.Machine.execMediaWrite s
  | .powerLoss drained => Sys2Proof.Machine.execPowerLoss drained s
  | .startSequence r => Sys2Proof.Machine.execStartSequence r s
  | .hostLinkDown => Sys2Proof.Machine.execHostLinkDown s
  | .hostLinkUp => Sys2Proof.Machine.execHostLinkUp s
  | .peerLinkDown m => Sys2Proof.Machine.execPeerLinkDown m s
  | .hostMemAccess off len data => Sys2Proof.Machine.execHostMemAccess off len data s
  | .peerAccess pa len a => Sys2Proof.Machine.execPeerAccess pa len a s
  | .errorDetected r => Sys2Proof.Machine.execErrorDetected r s
  | .poisonConsume bank p => Sys2Proof.Machine.execPoisonConsume bank p s
  | .regRead r => Sys2Proof.Machine.execRegRead r s
  | .regWrite r v => Sys2Proof.Machine.execRegWrite r v s
  | .l2partWrite die v => Sys2Proof.Machine.execL2partWrite die v s
  | .flashLoad off data => Sys2Proof.Machine.execFlashLoad off data s
  | .quiesce => Sys2Proof.Machine.execQuiesce s
  | .linkrecAccept die => Sys2Proof.Machine.execLinkrecAccept die s
  | .linkrecDiscard die => Sys2Proof.Machine.execLinkrecDiscard die s
  | .linklog die => Sys2Proof.Machine.execLinklog die s
  | .rsvdRead off len => Sys2Proof.Machine.execRsvdRead off len s
  | .fwStage image => Sys2Proof.Machine.execFwStage image s
  | .fwActivate => Sys2Proof.Machine.execFwActivate s
  | .registerWrite off v => Sys2Proof.Machine.execRegisterWrite off v s
  | .vfEnable vf => Sys2Proof.Machine.execVfEnable vf s
  | .vfReset vf => Sys2Proof.Machine.execVfReset vf s
  | .flr vf => Sys2Proof.Machine.execFlr vf s
  | .lockInterface vf => Sys2Proof.Machine.execLockInterface vf s
  | .startInterface vf => Sys2Proof.Machine.execStartInterface vf s
  | .stopInterface vf => Sys2Proof.Machine.execStopInterface vf s
  | .getMeasurements => Sys2Proof.Machine.execGetMeasurements s
  | .tstatLockChange err ref => Sys2Proof.Machine.execTstatLockChange err ref s
  | .holdUpEnergyArming armed => Sys2Proof.Machine.execHoldUpEnergyArming armed s
  | .peerLinkUp m => Sys2Proof.Machine.execPeerLinkUp m s
  | .hostSnoop n => Sys2Proof.Machine.execHostSnoop n s
  | .fenceSWaitEnd bank => Sys2Proof.Machine.execFenceSWaitEnd bank s
  | .spdmKeyExchange => Sys2Proof.Machine.execSpdmKeyExchange s
  | .ideKm port key => Sys2Proof.Machine.execIdeKm port key s

end Sys2Proof.Machine
end

