-- ==== Sys2Proof/Machine/Turn.lean ====
section
/-! DEFINITION. The turn of an agent, once its instruction is known: a control core's instruction, an engine word of every member of a
gang in lock step (R173), or a step of the device or the host (95). -/

namespace Sys2Proof.Machine

/-- Run what a turn came to. -/
def runReady : Ready → Host.Outcome State Fault Refusal
  | .done o => o
  | .run i s => exec i s

/-- A member's word went on: its engine has changed, it does not wait on a fault, and it has neither ended the nest, nor rolled its bank back,
nor taken a context fault. -/
def wentOn (e : Engine) (m : Nat) (s : State) : Host.Outcome State Fault Refusal → Bool
  | .next s' =>
    let b := s.bank m
    let b' := s'.bank m
    let lead := s.handleBank m
    decide (b'.engine e ≠ b.engine e) && ((b'.engine e).stopped.bind (·.waiter)).isNone
      && b'.task.isSome && b'.cancels = b.cancels && (s'.bank lead).ctxDue = (s.bank lead).ctxDue
  | _ => true

/-- The word of an engine has ended, or is a multiply word between two slot pairs; one that waits after it has kept its operands is neither
(R180, R319). -/
def Eng.between (g : Eng) : Bool := g.stopped.all (·.mul.isSome)

/-- A member's word has gone the step that lock step counts: it went on, and does not wait behind what it has kept (R173, R327). -/
def advanced (e : Engine) (m : Nat) (s : State) (o : Host.Outcome State Fault Refusal) : Bool :=
  wentOn e m s o && match o with | .next s' => ((s'.bank m).engine e).between | _ => true

/-- The engines of a gang execute one word each, in the order given. -/
def stepEngines (e : Engine) : List Nat → State → Host.Outcome State Fault Refusal
  | [], s => .next s
  | m :: ms, s =>
    match runReady (s.engineReady m e) with
    | .next s' => stepEngines e ms s'
    | o => o

/-- Lock step: where one member waits or faults, only that happens, and no member's word goes on (R173, R327). The leader, whose operands
a `draw` of every member reads, comes last. -/
def lockStep (e : Engine) (ms : List Nat) (s : State) : Host.Outcome State Fault Refusal :=
  match ms with
  | [m] => runReady (s.engineReady m e)
  | ms =>
    match ms.find? (fun m => !advanced e m s (runReady (s.engineReady m e))) with
    | some m => runReady (s.engineReady m e)
    | none => stepEngines e (ms.drop 1 ++ ms.take 1) s

/-- The turn of an agent. -/
def turn (who : Agent) (s : State) : Host.Outcome State Fault Refusal :=
  match who with
  | .core bid => runReady (s.coreReady bid)
  | .engine bid e =>
    match s.engineTurn bid with
    | none => .next s
    | some (s, ms) =>
      match lockStep e ms s with
      | .next t => .next (t.noteTurn bid e (ms.any (fun m => wentOn e m s (.next t))))
      | o => o
  | .event i => if i.isEvent then exec i s else .next s

/-- The state with an instruction where the next step fetches it: 32 bits for a control-core form, 16 for an engine word, in
the engine that `decodeTableWord` reads it for. -/
def State.place (s : State) (nbits w : Nat) : State :=
  if nbits = 16 then s.placeWord ((wordEngine (BitVec.ofNat 16 w)).getD .vx) (BitVec.ofNat 16 w)
  else s.placeScalar (bytes32 (BitVec.ofNat 32 w))

end Sys2Proof.Machine
end

