-- ==== Sys2Proof/Machine/Step.lean ====
section
/-! DEFINITION. One step: the turn of one agent. -/

namespace Sys2Proof.Machine

/-- One step: the next turn passes, and its agent moves. -/
def step (s : State) : Host.Outcome State Fault Refusal := turn s.nextTurn.who (s.pass s.nextTurn)

/-- The state with an instruction where the next step fetches it (log 5). -/
def State.withFetchWord (s : State) (nbits w : Nat) : State := s.place nbits w

end Sys2Proof.Machine
end

