-- ==== Sys2Proof/Safety.lean ====
section
/-! DEFINITION. What counts as a safe run, and the words in which the statements speak: the canonical memory that every step is
to keep, runs that do not stop, the bank in execution, bytes that can be read, and how an instruction or an engine word goes
on. -/

namespace Sys2Proof

open Sys2Proof.Machine

/-- The memory of bytes and the media of the durable tier are in canonical form. -/
def MemOk (s : State) : Prop := s.mem.wf = true ∧ s.betony.media.wf = true

/-- The machine answers a next state. -/
def Runs (o : Host.Outcome State Fault Refusal) : Prop := ∃ t, o = .next t

/-- `n` steps from a state all answer a next state. -/
def SafeFor : Nat → State → Prop
  | 0, _ => True
  | n + 1, s => ∃ t, step s = .next t ∧ SafeFor n t

namespace Machine

/-- The bank in execution. -/
abbrev State.own (s : State) : Bank := s.bank s.cur.bid

/-- The address of the instruction after the one in execution. -/
def State.after (s : State) : Word := s.own.core.pc + BitVec.ofNat 64 s.cur.ilen

/-- The bank in execution changes by `f` and its instruction retires, with the pc given. -/
def State.retires (s : State) (f : Bank → Bank) (pc : Word) : State :=
  s.modBank s.cur.bid (fun b => ((f b).setPc pc).retire)

/-- An irrevocable form of the bank in execution has had its effect: the phase behind it begins with a checkpoint, and it
retires (R259). -/
def State.behind (s : State) : State := (s.beginPhase s.cur.bid s.after).retires id s.after

/-- The state in which the checks of an irrevocable form begin: the open phase has committed, once for the form (R259). -/
def State.issues (s : State) : State :=
  if s.own.issued then s else (s.commitOpenAll s.cur.bid).modBank s.cur.bid (fun b => { b with issued := true })

/-- An engine stands at no word that a drain completes: it has no entry, or its word waits on a fault, or it is the engine left
out, whose word does not end the drain. -/
def Eng.atRest (g : Eng) (stuck out : Prop) : Prop :=
  g.pendingMark = none ∧ g.waited = false ∧ (g.entry = none ∨ stuck ∨ out)

/-- Nothing of some banks goes on in a drain: no issued copy word, no multiply word that finds its next slot pair in every bank,
no walk that a use waits for, no engine word that goes on, one engine left out, and no phase that can commit (R179). -/
def State.quietAll (s : State) (ms : List Nat) (out : Option Engine) : Prop :=
  s.canCommit ms = false ∧ (∃ m ∈ ms, (s.bank m).hasPair = false)
    ∧ ∀ m ∈ ms, (s.bank m).flights = [] ∧ (∀ u ∈ (s.bank m).uses, u.1 = 0)
      ∧ ∀ e ∈ allEngines, ((s.bank m).engine e).atRest (s.wordStuck m e = true) (out = some e)

/-- Nothing of a bank that leads, nor of its gang, is left for a drain to complete, and none has begun. -/
def State.atRest (s : State) (bid : Nat) (out : Option Engine) : Prop :=
  s.handleBank bid = bid ∧ (s.bank bid).draining = .none ∧ s.quietAll (s.members bid) out

/-- Two states that read alike: they differ at most in how the list of banks is written down. -/
def Alike (s t : State) : Prop := (∀ m, t.bank m = s.bank m) ∧ t = { s with banks := t.banks }

/-- The registers of an engine of the bank in execution. -/
def State.ownRegs (s : State) (e : Engine) : EngRegs := (s.own.engine e).regs

/-- The registers of the engine in execution change by `f`, and it goes on after its word. -/
def State.wordEnds (s : State) (e : Engine) (f : EngRegs → EngRegs) (go : Flow) : State :=
  (s.modBank s.cur.bid (fun b => b.modEngine e (·.modRegs f))).flow s.cur.bid e go

/-- The bytes at an address as an agent of a bank reads them: none where one is poisoned, or where an
earlier phase has not committed that wrote one of them, or may still write one in a phase buffer (R133, R153, R255). -/
def State.readable (s : State) (bid : Nat) (e : Option Engine) (pa n : Nat) : Option (List Byte) :=
  if (s.poisoned bid e pa n).isSome then none else (List.range n).mapM (fun i => s.peek bid e (pa + i))

/-- The bytes at `n` local addresses of a core as an engine of one of its banks reads them: none where a line is poisoned, or
where an earlier phase has not committed that wrote one of them, or may still write one in a phase buffer (R133, R153, R255). -/
def State.localBytes (s : State) (bid : Nat) (e : Engine) (la n : Nat) : Option (List Byte) :=
  (List.range n).mapM (fun i => (s.readable bid (some e) (localPa (coreOf bid) (la + i)) 1).bind List.head?)

/-- Whether a byte address lies outside every place of a span. -/
def outside (ps : List (Place × Nat)) (x : Nat) : Prop := ∀ p ∈ ps, x < p.1.pa ∨ p.1.pa + p.2 ≤ x

/-- Whether a state has the address spaces, tasks, registers and engines of another: only memory of bytes, TLBs, and what a write of
the walker touches may differ: reservations, of peers too, the durable tier, dirty lines of host memory (R31, R148). -/
def SameButMemTlb (s t : State) : Prop :=
  (∀ m, t.bank m = { s.bank m with resv := (t.bank m).resv } ∧ ((t.bank m).resv = (s.bank m).resv ∨ (t.bank m).resv = none))
    ∧ t.vfs = s.vfs ∧ t.nests = s.nests ∧ t.slots = s.slots
    ∧ t.host = { s.host with peerResvs := t.host.peerResvs } ∧ (∀ r ∈ t.host.peerResvs, r ∈ s.host.peerResvs)
    ∧ t.saved = s.saved ∧ t.cur = s.cur ∧ t.cycle = s.cycle ∧ t.ftime = s.ftime ∧ t.poison = s.poison
    ∧ t.schedule = s.schedule ∧ (∀ g, { t.coreSt g with tlb := (s.coreSt g).tlb } = s.coreSt g)
    ∧ (∀ d, { t.die d with tlb := (s.die d).tlb } = s.die d)

end Machine

end Sys2Proof
end

