-- ==== Sys2Proof/Certificates/Slice0/Obligations.lean ====
section
/-! DEFINITION. The statements for the provers. A statement that ends in an equality with a next state says both that the
instruction completes and all it changes: what the next state does not name is as it was. -/

open Sys2Proof Sys2Proof.Machine

/-! ### The control core's integer instructions (R225) -/

/-- Every computational instruction of R225 completes: rd takes the result, and the pc moves past the instruction. -/
def Claim.IntegerCompletes : Prop :=
  ∀ (s : State) (d a b : Reg) (imm : BitVec 12) (sh : BitVec 6) (up : BitVec 20),
    (∀ op, exec (.intRR op d a b) s
      = .next (s.retires (·.writeX d (intRRResult op (s.own.readX a) (s.own.readX b))) s.after))
    ∧ (∀ op, exec (.intRI op d a imm) s = .next (s.retires (·.writeX d (intRIResult op (s.own.readX a) imm)) s.after))
    ∧ (∀ op, exec (.intShift op d a sh) s = .next (s.retires (·.writeX d (intShiftResult op (s.own.readX a) sh)) s.after))
    ∧ (∀ op, exec (.intUnary op d a) s = .next (s.retires (·.writeX d (intUnaryResult op (s.own.readX a))) s.after))
    ∧ exec (.lui d up) s = .next (s.retires (·.writeX d ((up ++ 0#12).signExtend 64)) s.after)
    ∧ exec (.auipc d up) s = .next (s.retires (·.writeX d (s.own.core.pc + (up ++ 0#12).signExtend 64)) s.after)

/-- The results of the register forms in exact arithmetic, narrowed at the end, as the RISC-V specifications give them (R225; log 6):
sums and products modulo 2^64, quotients rounded towards zero with the corners of the M extension, shifts by the low bits of
the count. -/
def Claim.RegisterArithmetic : Prop :=
  ∀ a b : Word,
    let lo := a.toNat % 2 ^ 32
    (intRRResult .add a b).toNat = (a.toNat + b.toNat) % 2 ^ 64
    ∧ (intRRResult .sub a b).toInt = (a.toInt - b.toInt).bmod (2 ^ 64)
    ∧ (intRRResult .sll a b).toNat = a.toNat * 2 ^ (b.toNat % 64) % 2 ^ 64
    ∧ (intRRResult .srl a b).toNat = a.toNat / 2 ^ (b.toNat % 64)
    ∧ (intRRResult .sra a b).toInt = a.toInt / 2 ^ (b.toNat % 64)
    ∧ intRRResult .slt a b = (if a.toInt < b.toInt then 1#64 else 0#64)
    ∧ intRRResult .sltu a b = (if a.toNat < b.toNat then 1#64 else 0#64)
    ∧ (intRRResult .mul a b).toNat = a.toNat * b.toNat % 2 ^ 64
    ∧ (intRRResult .mulhu a b).toNat = a.toNat * b.toNat / 2 ^ 64
    ∧ (intRRResult .mulh a b).toInt = a.toInt * b.toInt / 2 ^ 64
    ∧ (intRRResult .mulhsu a b).toInt = a.toInt * b.toNat / 2 ^ 64
    ∧ (b = 0#64 → intRRResult .div a b = BitVec.allOnes 64 ∧ intRRResult .divu a b = BitVec.allOnes 64
        ∧ intRRResult .rem a b = a ∧ intRRResult .remu a b = a)
    ∧ (b ≠ 0#64 → (intRRResult .div a b).toInt = (a.toInt.tdiv b.toInt).bmod (2 ^ 64)
        ∧ (intRRResult .divu a b).toNat = a.toNat / b.toNat
        ∧ (intRRResult .rem a b).toInt = a.toInt.tmod b.toInt
        ∧ (intRRResult .remu a b).toNat = a.toNat % b.toNat)
    ∧ (intRRResult .sh1add a b).toNat = (2 * a.toNat + b.toNat) % 2 ^ 64
    ∧ (intRRResult .sh2add a b).toNat = (4 * a.toNat + b.toNat) % 2 ^ 64
    ∧ (intRRResult .sh3add a b).toNat = (8 * a.toNat + b.toNat) % 2 ^ 64
    ∧ (intRRResult .addUw a b).toNat = (lo + b.toNat) % 2 ^ 64
    ∧ (intRRResult .sh1addUw a b).toNat = (2 * lo + b.toNat) % 2 ^ 64
    ∧ (intRRResult .sh2addUw a b).toNat = (4 * lo + b.toNat) % 2 ^ 64
    ∧ (intRRResult .sh3addUw a b).toNat = (8 * lo + b.toNat) % 2 ^ 64
    ∧ (intRRResult .max a b).toInt = max a.toInt b.toInt ∧ (intRRResult .min a b).toInt = min a.toInt b.toInt
    ∧ (intRRResult .maxu a b).toNat = max a.toNat b.toNat ∧ (intRRResult .minu a b).toNat = min a.toNat b.toNat

/-- The W forms compute in 32 bits, and sign-extend (R225; log 6). -/
def Claim.WordArithmetic : Prop :=
  ∀ a b : Word,
    let la := a.toNat % 2 ^ 32
    let lb := b.toNat % 2 ^ 32
    let x := (a.setWidth 32).toInt
    let y := (b.setWidth 32).toInt
    let n := b.toNat % 32
    (intRRResult .addw a b).toInt = (a.toInt + b.toInt).bmod (2 ^ 32)
    ∧ (intRRResult .subw a b).toInt = (a.toInt - b.toInt).bmod (2 ^ 32)
    ∧ (intRRResult .mulw a b).toInt = (a.toInt * b.toInt).bmod (2 ^ 32)
    ∧ (intRRResult .sllw a b).toInt = ((la * 2 ^ n : Nat) : Int).bmod (2 ^ 32)
    ∧ (intRRResult .srlw a b).toInt = ((la / 2 ^ n : Nat) : Int).bmod (2 ^ 32)
    ∧ (intRRResult .sraw a b).toInt = x / 2 ^ n
    ∧ (lb = 0 → intRRResult .divw a b = BitVec.allOnes 64 ∧ intRRResult .divuw a b = BitVec.allOnes 64
        ∧ (intRRResult .remw a b).toInt = x ∧ (intRRResult .remuw a b).toInt = x)
    ∧ (lb ≠ 0 → (intRRResult .divw a b).toInt = (x.tdiv y).bmod (2 ^ 32)
        ∧ (intRRResult .divuw a b).toInt = ((la / lb : Nat) : Int).bmod (2 ^ 32)
        ∧ (intRRResult .remw a b).toInt = x.tmod y
        ∧ (intRRResult .remuw a b).toInt = ((la % lb : Nat) : Int).bmod (2 ^ 32))

/-- The forms that work on bits: the logical forms and their negated ones, rotations, and the conditional zeros (R225; log 6). -/
def Claim.BitForms : Prop :=
  ∀ a b : Word,
    (∀ i, i < 64 →
      (intRRResult .and a b).getLsbD i = (a.getLsbD i && b.getLsbD i) ∧ (intRRResult .or a b).getLsbD i = (a.getLsbD i || b.getLsbD i)
      ∧ (intRRResult .xor a b).getLsbD i = (a.getLsbD i != b.getLsbD i)
      ∧ (intRRResult .andn a b).getLsbD i = (a.getLsbD i && !b.getLsbD i) ∧ (intRRResult .orn a b).getLsbD i = (a.getLsbD i || !b.getLsbD i)
      ∧ (intRRResult .xnor a b).getLsbD i = (a.getLsbD i == b.getLsbD i)
      ∧ (intRRResult .rol a b).getLsbD i = a.getLsbD ((i + 64 - b.toNat % 64) % 64)
      ∧ (intRRResult .ror a b).getLsbD i = a.getLsbD ((i + b.toNat % 64) % 64)
      ∧ (intRRResult .rolw a b).getLsbD i = a.getLsbD ((min i 31 + 32 - b.toNat % 32) % 32)
      ∧ (intRRResult .rorw a b).getLsbD i = a.getLsbD ((min i 31 + b.toNat % 32) % 32))
    ∧ intRRResult .czeroEqz a b = (if b = 0#64 then 0#64 else a)
    ∧ intRRResult .czeroNez a b = (if b = 0#64 then a else 0#64)

/-- An immediate form computes as the register form does on the sign-extended immediate, a shift or rotation by a count as that by a
register; a W form's count has five bits (R225; log 6). -/
def Claim.ImmediateForms : Prop :=
  ∀ (a : Word) (imm : BitVec 12) (sh : BitVec 6),
    let i : Word := imm.signExtend 64
    let n : Word := sh.setWidth 64
    (intRIResult .addi a imm).toNat = (a.toNat + i.toNat) % 2 ^ 64
    ∧ intRIResult .slti a imm = (if a.toInt < imm.toInt then 1#64 else 0#64)
    ∧ intRIResult .sltiu a imm = (if a.toNat < i.toNat then 1#64 else 0#64)
    ∧ intRIResult .xori a imm = intRRResult .xor a i ∧ intRIResult .ori a imm = intRRResult .or a i
    ∧ intRIResult .andi a imm = intRRResult .and a i
    ∧ (intRIResult .addiw a imm).toInt = (a.toInt + imm.toInt).bmod (2 ^ 32)
    ∧ intShiftResult .slli a sh = intRRResult .sll a n ∧ intShiftResult .srli a sh = intRRResult .srl a n
    ∧ intShiftResult .srai a sh = intRRResult .sra a n ∧ intShiftResult .rori a sh = intRRResult .ror a n
    ∧ (intShiftResult .slliUw a sh).toNat = a.toNat % 2 ^ 32 * 2 ^ sh.toNat % 2 ^ 64
    ∧ (sh.toNat < 32 → intShiftResult .slliw a sh = intRRResult .sllw a n ∧ intShiftResult .srliw a sh = intRRResult .srlw a n
      ∧ intShiftResult .sraiw a sh = intRRResult .sraw a n ∧ intShiftResult .roriw a sh = intRRResult .rorw a n)

/-- The one-operand forms: counts of leading and trailing zeros and of ones, extensions, and the forms on bytes (R225; log 6). -/
def Claim.UnaryForms : Prop :=
  ∀ a : Word,
    let res := fun op => intUnaryResult op a
    let lo := a.toNat % 2 ^ 32
    (a ≠ 0#64 → 2 ^ (63 - (res .clz).toNat) ≤ a.toNat ∧ a.toNat < 2 ^ (64 - (res .clz).toNat)
      ∧ a.getLsbD (res .ctz).toNat = true ∧ ∀ i, i < (res .ctz).toNat → a.getLsbD i = false)
    ∧ (a = 0#64 → res .clz = 64#64 ∧ res .ctz = 64#64)
    ∧ (lo ≠ 0 → (res .clzw).toNat < 32 ∧ 2 ^ (31 - (res .clzw).toNat) ≤ lo ∧ lo < 2 ^ (32 - (res .clzw).toNat)
      ∧ (res .ctzw).toNat < 32 ∧ a.getLsbD (res .ctzw).toNat = true ∧ ∀ i, i < (res .ctzw).toNat → a.getLsbD i = false)
    ∧ (lo = 0 → res .clzw = 32#64 ∧ res .ctzw = 32#64)
    ∧ (res .cpop).toNat = ((List.range 64).map (fun i => if a.getLsbD i then 1 else 0)).sum
    ∧ (res .cpopw).toNat = ((List.range 32).map (fun i => if a.getLsbD i then 1 else 0)).sum
    ∧ (res .sextB).toInt = a.toInt.bmod (2 ^ 8) ∧ (res .sextH).toInt = a.toInt.bmod (2 ^ 16)
    ∧ (res .zextH).toNat = a.toNat % 2 ^ 16
    ∧ (∀ k, k < 8 → (res .orcB).toNat / 256 ^ k % 256 = (if a.toNat / 256 ^ k % 256 = 0 then 0 else 255)
      ∧ (res .rev8).toNat / 256 ^ k % 256 = a.toNat / 256 ^ (7 - k) % 256)

/-- When a branch is taken (R225; log 6). -/
def Claim.BranchConditions : Prop :=
  ∀ a b : Word,
    (branchHolds .beq a b = true ↔ a = b) ∧ (branchHolds .bne a b = true ↔ a ≠ b)
    ∧ (branchHolds .blt a b = true ↔ a.toInt < b.toInt) ∧ (branchHolds .bge a b = true ↔ b.toInt ≤ a.toInt)
    ∧ (branchHolds .bltu a b = true ↔ a.toNat < b.toNat) ∧ (branchHolds .bgeu a b = true ↔ b.toNat ≤ a.toNat)

/-- The results of every computational form of R225, register, immediate and one-operand, and the conditions of branches (log 6). -/
def Obligations.IntegerArithmetic : Prop :=
  Claim.RegisterArithmetic ∧ Claim.WordArithmetic ∧ Claim.BitForms ∧ Claim.ImmediateForms ∧ Claim.UnaryForms ∧ Claim.BranchConditions

/-- Jumps and branches complete: rd takes the address after the instruction; `jalr` clears bit 0 of its target; a branch goes to
its target where its condition holds. -/
def Claim.JumpsComplete : Prop :=
  ∀ (s : State) (d a b : Reg) (imm : BitVec 12) (up : BitVec 20) (k : BranchCond),
    exec (.jal d up) s = .next (s.retires (·.writeX d s.after) (s.own.core.pc + (up ++ 0#1).signExtend 64))
    ∧ exec (.jalr d a imm) s
      = .next (s.retires (·.writeX d s.after) ((s.own.readX a + imm.signExtend 64) &&& 0xFFFFFFFFFFFFFFFE#64))
    ∧ (branchHolds k (s.own.readX a) (s.own.readX b) = true → exec (.branch k a b imm) s
      = .next (s.retires id (s.own.core.pc + (imm ++ 0#1).signExtend 64)))
    ∧ (branchHolds k (s.own.readX a) (s.own.readX b) = false → exec (.branch k a b imm) s = .next (s.retires id s.after))

/-- Every computational instruction, jump and branch of R225 completes. -/
def Obligations.IntegersAndJumpsComplete : Prop :=
  Claim.IntegerCompletes ∧ Claim.JumpsComplete

/-! ### Loads, stores and atomics (R39, R125, R149, R259) -/

/-- A load completes where its bytes translate and can be read: rd takes them, little-endian and extended as its form says. -/
def Claim.LoadCompletes : Prop :=
  ∀ (s t : State) (w : LoadKind) (d a : Reg) (imm : BitVec 12) (ps : List (Place × Nat)) (bss : List (List Byte)),
    (translateSpan (s.whoCore s.cur.bid) (s.own.effAddr a imm) (LoadBytes w) accR 0).run s = .ok ps t →
    ps.mapM (fun p => t.readable s.cur.bid none p.1.pa p.2) = some bss →
    exec (.load w d a imm) s = .next (t.retires (·.writeX d (loadExtend w (leNat bss.flatten))) s.after)

/-- A store completes where its bytes translate: they are stored at the places of the span. -/
def Claim.StoreCompletes : Prop :=
  ∀ (s t : State) (w : StoreKind) (b a : Reg) (imm : BitVec 12) (ps : List (Place × Nat)),
    (translateSpan (s.whoCore s.cur.bid) (s.own.effAddr a imm) (storeSize w) accW 0).run s = .ok ps t →
    exec (.store w b a imm) s
      = .next ((t.storeSpan s.cur.bid ps (storeSize w) ((s.own.readX b).toNat % 2 ^ (8 * storeSize w))).retires id s.after)

/-- Loads and stores complete (R39, R125). -/
def Obligations.LoadsAndStoresComplete : Prop :=
  Claim.LoadCompletes ∧ Claim.StoreCompletes

/-- The frame of a store: in the state after it, the stored bytes are the register's low bytes in order, in a span of one place and in one
of several, as of two pages, where each place takes one byte; and every other byte reads as it did once the address was translated; a bank
can only lose its reservation; the bank in execution changes otherwise only its pc and count of instructions, and what it holds apart and
has issued to the domain; no VF, nest, object or host register changes, and agents of other modules too can only lose a reservation. -/
def Obligations.StoreFrame : Prop :=
  ∀ (s t u : State) (w : StoreKind) (b a : Reg) (imm : BitVec 12) (ps : List (Place × Nat)),
    (translateSpan (s.whoCore s.cur.bid) (s.own.effAddr a imm) (storeSize w) accW 0).run s = .ok ps t →
    exec (.store w b a imm) s = .next u →
    (∀ x, outside ps x → u.mem.get x = t.mem.get x)
    ∧ (∀ p, ps = [(p, storeSize w)] → ∀ i, i < storeSize w →
        (u.mem.get (p.pa + i)).toNat = (s.own.readX b).toNat / 2 ^ (8 * i) % 256)
    ∧ (∀ i p, ps.length ≠ 1 → ps[i]? = some p → p.2 = 1 ∧ ((∀ j q, i < j → ps[j]? = some q → q.1.pa ≠ p.1.pa) →
        (u.mem.get p.1.pa).toNat = (s.own.readX b).toNat / 2 ^ (8 * i) % 256))
    ∧ (∀ m, m ≠ s.cur.bid → u.bank m = { s.bank m with resv := (u.bank m).resv }
        ∧ ((u.bank m).resv = (s.bank m).resv ∨ (u.bank m).resv = none))
    ∧ u.own = { (s.own.setPc s.after).retire with held := u.own.held, dom := u.own.dom, resv := u.own.resv }
    ∧ u.vfs = s.vfs ∧ u.nests = s.nests ∧ u.slots = s.slots
    ∧ u.host = { s.host with peerResvs := u.host.peerResvs } ∧ (∀ r ∈ u.host.peerResvs, r ∈ s.host.peerResvs)

/-- An access of a page completes at its place where the address is canonical, the TLBs or else a walk give a leaf that permits it,
and the checks behind translation pass; a fresh leaf replaces what the TLBs held for the address (R34, R35, R39). Where A or D must be set
in an entry of host memory and the link is down, it ends in link-down (R46, R150); in one of the durable tier while that is not ready, it
waits (R74). It waits, too, while its walk cannot read a table there. -/
def Claim.TranslationCompletes : Prop :=
  ∀ (s : State) (w : Who) (va acc pol : Nat) (l : Leaf), canonical va = true → l.denies w acc = 0 →
    let lands := fun (t : State) => t.passes w (l.pa + (va - l.va)) 1 = .ok () →
      ((t.marks l acc = false ∨ (t.linkUp w.die l.pte = true ∧ (isDurable l.pte = false ∨ t.betony.rdy = true))) →
        (translate w va acc pol).run s = .ok ⟨l.pa + (va - l.va), max l.ceil pol, l.io, l⟩ (t.touch w l acc))
      ∧ (t.marks l acc = true → t.linkUp w.die l.pte = false → (translate w va acc pol).run s = .error (.access 6 va acc 0) t)
      ∧ (t.marks l acc = true → t.linkUp w.die l.pte = true → isDurable l.pte = true → t.betony.rdy = false →
        (translate w va acc pol).run s = .error .wait t)
    (s.tlbLookup w va = some l → lands s)
    ∧ ((s.tlbLookup w va = none ∨ ∃ l', s.tlbLookup w va = some l' ∧ l'.denies w acc ≠ 0) →
      (s.walk w.die w.root va = .ok l → lands (s.tlbRenew w va l))
      ∧ (s.walk w.die w.root va = .error 0 → (translate w va acc pol).run s = .error .wait s))

/-- What a translation changes: TLBs, and of memory at most one byte, the low byte of the leaf's own entry, where it sets A and,
for a write, D; and only with that byte: reservations on it end, and it is a durable store or dirties a host line as any write
there (R31, R148). -/
def Claim.TranslationFrame : Prop :=
  ∀ (s t : State) (w : Who) (va acc pol : Nat) (p : Place), (translate w va acc pol).run s = .ok p t →
    SameButMemTlb s t ∧ (∀ x, x ≠ p.leaf.pte → t.mem.get x = s.mem.get x)
    ∧ (t.mem.get p.leaf.pte = s.mem.get p.leaf.pte
      ∨ t.mem.get p.leaf.pte = s.mem.get p.leaf.pte ||| 0x40#8
      ∨ (bit acc 1 = true ∧ t.mem.get p.leaf.pte = s.mem.get p.leaf.pte ||| 0xC0#8))
    ∧ (t.mem.get p.leaf.pte = s.mem.get p.leaf.pte → t.banks = s.banks ∧ t.betony = s.betony ∧ t.dirtyHost = s.dirtyHost)

/-- A translation completes, and what it changes (R31, R34, R35, R39, R74). -/
def Obligations.Translation : Prop :=
  Claim.TranslationCompletes ∧ Claim.TranslationFrame

/-- R125: a misaligned AMO, LR or SC traps address-misaligned, an LR as a load (R176); as the model orders it, once the bank has settled and
its open phase has committed (log 72). -/
def Claim.MisalignedAtomicTraps : Prop :=
  ∀ (s : State) (op : AmoOp) (dbl aq rl : Bool) (d a b : Reg), s.settled s.cur.bid = true →
    (s.own.readX a).toNat % amoSize dbl ≠ 0 →
    exec (.amo op dbl aq rl d a b) s = .next (s.issues.takeTrap s.cur.bid 6 (s.own.readX a).toNat)
    ∧ exec (.sc dbl aq rl d a b) s = .next (s.issues.takeTrap s.cur.bid 6 (s.own.readX a).toNat)
    ∧ exec (.lr dbl aq rl d a) s = .next (s.issues.takeTrap s.cur.bid 4 (s.own.readX a).toNat)

/-- Atomics complete once every word and closed phase of the bank is complete and the address passes its checks: the open phase has
committed, the effect follows, and the next phase begins behind it (R259). An SC stores where the bank still reserves the bytes and
gives 0, else it stores nothing and gives 1; it ends the reservation. Snoops of lines that no reservation owns any more are
answered behind an LR or SC, while the link is up (R149; log 121). -/
def Claim.AtomicsComplete : Prop :=
  ∀ (s t : State) (op : AmoOp) (dbl aq rl : Bool) (d a b : Reg) (p : Place) (bs : List Byte),
    let id := s.cur.bid
    let done := fun (v : State) => Host.Outcome.next ((v.beginPhase id s.after).retires (fun b => b) s.after)
    s.settled id = true →
    ((atomicPlace a dbl rl (accR ||| accW) 6).run s.issues = .ok p t → t.readable id none p.pa (amoSize dbl) = some bs →
      exec (.amo op dbl aq rl d a b) s = done
        ((t.storeAtomic id p (leBytes (amoSize dbl) (amoStored op dbl (leNat bs) (s.own.readX b)))).modBank id
          (·.writeX d (amoValue dbl (leNat bs)))))
    ∧ ((atomicPlace a dbl rl accR 4).run s.issues = .ok p t → t.readable id none p.pa (amoSize dbl) = some bs →
      exec (.lr dbl aq rl d a) s = done ((t.modBank id (fun b =>
        { b with resv := some ⟨p.pa, amoSize dbl, leNat bs, s.cycle, isDomain p.pa⟩ })).answerSnoops.modBank id
          (·.writeX d (amoValue dbl (leNat bs)))))
    ∧ ((atomicPlace a dbl rl accW 6).run s.issues = .ok p t →
      ((t.bank id).reserves p.pa (amoSize dbl) = true → exec (.sc dbl aq rl d a b) s = done
        (((t.storeAtomic id p (leBytes (amoSize dbl) (s.own.readX b).toNat)).modBank id
          (fun b => { b with resv := none })).answerSnoops.modBank id (·.writeX d 0#64)))
      ∧ ((t.bank id).reserves p.pa (amoSize dbl) = false → exec (.sc dbl aq rl d a b) s = done
        ((t.modBank id (fun b => { b with resv := none })).answerSnoops.modBank id (·.writeX d 1#64))))

/-- Atomics complete, and trap where they are misaligned (R125, R149, R259). -/
def Obligations.Atomics : Prop :=
  Claim.MisalignedAtomicTraps ∧ Claim.AtomicsComplete

/-! ### Control and status registers (R226) -/

/-- Whether a CSR instruction writes: CSRRS and CSRRC with rs1 = x0 count as a read only (R226). -/
def csrWrites (op : CsrOp) (a : Reg) : Prop := op = .rw ∨ a ≠ 0#5

/-- A read-only CSR: bits [11:10] of its number are 0b11, or it is `satp` (R226). -/
def csrReadOnly (csr : BitVec 12) : Prop := csr.extractLsb' 10 2 = 3#2 ∨ csr = 0x180#12

/-- A CSR instruction completes where the CSR exists, the mode may access it, and a write does not name a read-only one: rd takes the
old value, and a write takes its effect. -/
def Claim.CsrCompletes : Prop :=
  ∀ (s : State) (op : CsrOp) (useImm : Bool) (csr : BitVec 12) (d a : Reg) (old : Word),
    let v := if useImm then a.setWidth 64 else s.own.readX a
    s.readCsr s.cur.bid csr.toNat = some old → s.own.csrAllowed csr.toNat = true →
    (csrWrites op a → ¬ csrReadOnly csr →
      exec (.csrAccess op useImm csr d a) s = .next
        (s.retires (fun b => (b.setCsr (b.core.csr.write csr.toNat (csrNew op old v))).writeX d old) s.after))
    ∧ (¬ csrWrites op a → exec (.csrAccess op useImm csr d a) s = .next (s.retires (·.writeX d old) s.after))

/-- A CSR number outside the table of R226, a write to a read-only CSR, an S-mode register in U-mode, and a counter that `scounteren`
keeps from U-mode raise illegal-instruction, with the instruction bits in `stval` (R222, R226); nothing else does, and
`sbstall` to `thrcyc` are always readable. -/
def Claim.CsrTraps : Prop :=
  ∀ (s : State) (op : CsrOp) (useImm : Bool) (csr : BitVec 12) (d a : Reg),
    let trapped := exec (.csrAccess op useImm csr d a) s = .next (s.takeTrap s.cur.bid 2 s.cur.ibits)
    (csr.toNat ∉ [0xC00, 0xC01, 0xC02, 0xCC0, 0xCC1, 0xCC2, 0xCC3, 0xCC4, 0xCC5, 0x100, 0x104, 0x105, 0x106, 0x140, 0x141,
        0x142, 0x143, 0x144, 0x180] → trapped)
    ∧ (csrWrites op a → csrReadOnly csr → trapped)
    ∧ (s.own.core.priv = .user → csr.extractLsb' 8 2 = 1#2 → trapped)
    ∧ (s.own.core.priv = .user → ∀ i : Nat, i < 3 → csr.toNat = 0xC00 + i → s.own.core.csr.scounteren.getLsbD i = false → trapped)
    ∧ (¬ csrWrites op a → 0xCC0 ≤ csr.toNat → csr.toNat ≤ 0xCC5 →
      ∃ old, s.readCsr s.cur.bid csr.toNat = some old
        ∧ exec (.csrAccess op useImm csr d a) s = .next (s.retires (·.writeX d old) s.after))

/-- Which CSRs can be read, and in which mode (R226): the numbers of the table are those that have a value; in S-mode each of them is
reachable; in U-mode no S-mode register is, `cycle`, `time` and `instret` each where its bit of `scounteren` is set, and the other
counters always. -/
def Claim.CsrReach : Prop :=
  ∀ (s : State) (bid n : Nat),
    let b := s.bank bid
    let counters := [0xCC0, 0xCC1, 0xCC2, 0xCC3, 0xCC4, 0xCC5]
    let supers := [0x100, 0x104, 0x105, 0x106, 0x140, 0x141, 0x142, 0x143, 0x144, 0x180]
    ((s.readCsr bid n).isSome = true ↔ n ∈ [0xC00, 0xC01, 0xC02] ++ counters ++ supers)
    ∧ (b.core.priv = .super → b.csrAllowed n = true)
    ∧ (b.core.priv = .user →
      (n ∈ counters → b.csrAllowed n = true) ∧ (n ∈ supers → b.csrAllowed n = false)
      ∧ ∀ i, i < 3 → b.csrAllowed (0xC00 + i) = b.core.csr.scounteren.getLsbD i)

/-- CSR instructions complete, which CSRs a mode reaches, and when they raise illegal-instruction (R222, R226). -/
def Obligations.CsrAccess : Prop :=
  Claim.CsrCompletes ∧ Claim.CsrReach ∧ Claim.CsrTraps

/-- What each counter and S-mode register reads as (R4, R26, R52, R141, R203, R226). -/
def Claim.CsrValues : Prop :=
  ∀ (s : State) (bid : Nat),
    let b := s.bank bid
    let c := b.core.csr
    s.readCsr bid 0xC00 = some (BitVec.ofNat 64 s.cycle) ∧ s.readCsr bid 0xC01 = some (BitVec.ofNat 64 s.cycle)
    ∧ s.readCsr bid 0xC02 = some (BitVec.ofNat 64 b.instret) ∧ s.readCsr bid 0xCC0 = some (BitVec.ofNat 64 b.sbstall)
    ∧ s.readCsr bid 0xCC1 = some (BitVec.ofNat 64 b.prmiss) ∧ s.readCsr bid 0xCC2 = some (BitVec.ofNat 64 b.fbcnt)
    ∧ s.readCsr bid 0xCC3 = some (BitVec.ofNat 64 s.ftime) ∧ s.readCsr bid 0xCC4 = some (BitVec.ofNat 64 (s.ftime / 128))
    ∧ s.readCsr bid 0xCC5 = some (BitVec.ofNat 64 b.thrcyc)
    ∧ [0x100, 0x104, 0x105, 0x106, 0x140, 0x141, 0x142, 0x143, 0x144, 0x180].map (s.readCsr bid)
      = [c.sstatus, c.sie, c.stvec, c.scounteren, c.sscratch, c.sepc, c.scause, c.stval, c.sip, c.satp].map some
    ∧ (∀ v, (c.write 0x140 v).sscratch = v ∧ (c.write 0x142 v).scause = v ∧ (c.write 0x143 v).stval = v
      ∧ (c.write 0x141 v).sepc = v &&& 0xFFFFFFFFFFFFFFFE#64 ∧ c.write 0x144 v = c ∧ c.write 0x180 v = c)

/-- The x registers: x0 reads 0 and discards what is written; any other reads what was last written to it, and a write of one changes no
other register (R222); it also clears the poison of the register's word, which is the model's reading (log 74), and nothing else of the
bank changes. -/
def Claim.XRegisters : Prop :=
  ∀ (b : Bank) (r : Reg) (v : Word),
    b.readX 0#5 = 0#64 ∧ b.writeX 0#5 v = b
    ∧ (r ≠ 0#5 → (b.writeX r v).readX r = v ∧ (∀ m, m ∈ (b.writeX r v).marks ↔ m ∈ b.marks ∧ m ≠ .x r))
    ∧ (∀ q, q ≠ r → (b.writeX r v).readX q = b.readX q)
    ∧ b.writeX r v = { b with core := { b.core with x := (b.writeX r v).core.x }, marks := (b.writeX r v).marks }

/-- The x registers, and what each counter and S-mode CSR reads as (R222, R226). -/
def Obligations.RegisterValues : Prop :=
  Claim.XRegisters ∧ Claim.CsrValues

/-! ### Traps and returns (R175, R176, R225) -/

/-- Taking an exception: the pc goes to `sepc`, the cause and value to `scause` and `stval`, the prior privilege and SIE to SPP and
SPIE, SIE is cleared, and the bank runs in S-mode at `stvec` (at its vector for an interrupt where `stvec` asks for it); x
registers, handles and rendezvous registers, and every other S-mode register, keep their values, and a wait ends. -/
def Claim.TrapEntry : Prop :=
  ∀ (b : Bank) (cause tval : Nat),
    let t := b.enterTrap cause tval
    let c := b.core.csr
    t.core.csr.sepc = b.core.pc ∧ t.core.csr.scause = BitVec.ofNat 64 cause ∧ t.core.csr.stval = BitVec.ofNat 64 tval
    ∧ t.core.priv = .super ∧ t.core.csr.sstatus.getLsbD 8 = decide (b.core.priv = .super)
    ∧ t.core.csr.sstatus.getLsbD 5 = c.sstatus.getLsbD 1 ∧ t.core.csr.sstatus.getLsbD 1 = false
    ∧ (∀ i, i < 64 → i ≠ 1 → i ≠ 5 → i ≠ 8 → t.core.csr.sstatus.getLsbD i = c.sstatus.getLsbD i)
    ∧ ((c.stvec.getLsbD 0 = false ∨ cause < 2 ^ 63) → t.core.pc = c.stvec &&& 0xFFFFFFFFFFFFFFFC#64)
    ∧ (c.stvec.getLsbD 0 = true → cause = 2 ^ 63 + 16 → t.core.pc = (c.stvec &&& 0xFFFFFFFFFFFFFFFC#64) + 64#64)
    ∧ t.core.x = b.core.x ∧ t.core.ph = b.core.ph ∧ t.core.rv = b.core.rv ∧ t.eng = b.eng ∧ t.dq = b.dq
    ∧ t.core.csr = { c with sepc := t.core.csr.sepc, scause := t.core.csr.scause, stval := t.core.csr.stval,
                            sstatus := t.core.csr.sstatus }
    ∧ t.wait = .none ∧ t.instret = b.instret

/-- A trap drains its bank, or the gang it leads, first (R179): the bank takes the exception once nothing of it goes on, and keeps it
until then (log 15); a bank with nothing to drain takes it at once, and nothing but the bank, and the directory's waiters of it,
changes (R99, R175). -/
def Claim.TrapTaken : Prop :=
  ∀ (s : State) (bid cause tval : Nat),
    let asked := (s.withdraw bid).modBank bid (fun b => { b with draining := .trap cause tval })
    let left := asked.drain (s.members bid) drainRounds
    (s.atRest bid none → Alike ((s.withdraw bid).modBank bid (·.enterTrap cause tval)) (s.takeTrap bid cause tval))
    ∧ (s.handleBank bid = bid →
      (left.drained (s.members bid) none = false → s.takeTrap bid cause tval = left)
      ∧ (left.drained (s.members bid) none = true → s.takeTrap bid cause tval = left.afterDrain bid))
    ∧ ((s.bank bid).gang = none → (s.bank bid).draining = .trap cause tval →
      Alike (s.modBank bid (fun b => b.clearWaits.enterTrap cause tval)) (s.afterDrain bid))

/-- What is due at an instruction boundary, in its order: a context fault (62), then the first missed promise (61), then queue-low, only
in S-mode with SIE and `sie` bit 16 set (R178). In a bank with nothing to drain a due trap is taken at once, behind a `wfi` that waits
(log 4), and is due no longer; in one that has drained for it, what is due then is taken. -/
def Claim.DueTraps : Prop :=
  ∀ (b : Bank),
    let low := decide (b.core.priv = .super) && b.core.csr.sstatus.getLsbD 1 && b.core.csr.sie.getLsbD 16
    (∀ d, b.ctxDue = some d → b.due = some (62, d) ∧ b.served = { b with ctxDue := none })
    ∧ (b.ctxDue = none → ∀ n rest, b.missDue = n :: rest →
      b.due = some (61, n) ∧ b.served = { b with missDue := b.missDue.filter (· ≠ n) })
    ∧ (b.ctxDue = none → b.missDue = [] →
      (low = false → b.due = none)
      ∧ (low = true → b.lowDue = none → b.due = none)
      ∧ ∀ e, low = true → b.lowDue = some e → b.due = some (2 ^ 63 + 16, (engIx e).val)
        ∧ b.served.lowDue = none ∧ b.served.core.csr.sip.getLsbD 16 = false)
    ∧ (∀ (s : State) (bid cause tval : Nat), (s.modBank bid Bank.endWfi).atRest bid none →
      (s.bank bid).endWfi.due = some (cause, tval) →
      let t := ((s.bank bid).endWfi.served).enterTrap cause tval
      (cause ≠ 62 → (s.takeDue bid).bank bid = t)
      ∧ (cause = 62 → (s.bank bid).endWfi.gang = none → (s.takeDue bid).bank bid = t.fullCkpt t.phase t.core.pc))
    ∧ (∀ (s : State) (bid cause tval : Nat), (s.bank bid).gang = none → (s.bank bid).draining = .due →
      (s.bank bid).due = some (cause, tval) → cause ≠ 62 →
      Alike (s.modBank bid (fun b => b.clearWaits.served.enterTrap cause tval)) (s.afterDrain bid))

/-- Taking an exception, and what is due before an instruction (R175, R176, R178). -/
def Obligations.Exceptions : Prop :=
  Claim.TrapEntry ∧ Claim.TrapTaken ∧ Claim.DueTraps

/-- A fault of the page-fault path (R181 to R183): it merges into a record of its die in state new or taken with the same VF, ASID, cause
and page, which takes its access bits and counts it; else it makes a new record in the lowest free of 4,096 slots; where none is free
it waits for one. -/
def Claim.FaultRecords : Prop :=
  ∀ (s : State) (bid agent code va acc ver : Nat),
    let d := dieOf bid
    let die := s.die d
    let b := s.bank bid
    let same := fun (r : FaultRec) => (r.state = 1 ∨ r.state = 2) ∧ r.vf = b.vfId ∧ r.asid = b.asidOf ∧ r.code = code
      ∧ bits r.va 12 45 = bits va 12 45
    let merged := fun (r : FaultRec) => { r with access := r.access ||| acc, dups := min 255 (r.dups + 1) }
    let put := fun (i : Nat) (r : FaultRec) => (s.setDie d { die with faults := PMap.put die.faults i r }, Waiter.record d i ver)
    ((∃ x ∈ die.faults, same x.2) → ∃ x ∈ die.faults, same x.2
      ∧ s.recordFault bid agent code va acc ver = put x.1 (merged x.2))
    ∧ ((∀ x ∈ die.faults, ¬ same x.2) →
      (∀ i, i < 4096 → PMap.find die.faults i = none → (∀ j, j < i → (PMap.find die.faults j).isSome = true) →
        s.recordFault bid agent code va acc ver = put i
          { va := va, vf := b.vfId, asid := b.asidOf, code := code, access := acc, dups := 0, state := 1, core := coreOf bid
            bank := bankOf bid, agent := agent, stamp := s.cycle })
      ∧ ((∀ j, j < 4096 → (PMap.find die.faults j).isSome = true) →
        s.recordFault bid agent code va acc ver = (s, .alloc va code acc ver)))

/-- A load or store whose translation fails: with a cause from 0x01 to 0x05 it is not trapped but takes the page-fault path: a record,
the bank drains, the instruction waits on the record with its pc unchanged, and the core switches, where what the gang's other cores wait in
is left too; a context fault that is due is served first, and the instruction is left unretired (R178); with another cause it traps, with
the cause plus 48 and the address (R42, R176, R177; log 15). -/
def Claim.AccessFaults : Prop :=
  ∀ (s t : State) (w : LoadKind) (x : StoreKind) (d a b : Reg) (imm : BitVec 12) (cause va acc ver : Nat),
    let id := s.cur.bid
    let ends := if cause ≤ 5 then t.pageFaultCore id cause va acc ver else t.takeTrap id (48 + cause) va
    ((translateSpan (s.whoCore id) (s.own.effAddr a imm) (LoadBytes w) accR 0).run s = .error (.access cause va acc ver) t →
      exec (.load w d a imm) s = .next ends)
    ∧ ((translateSpan (s.whoCore id) (s.own.effAddr a imm) (storeSize x) accW 0).run s = .error (.access cause va acc ver) t →
      exec (.store x b a imm) s = .next ends)
    ∧ (∀ u wt, t.recordFault id 0 cause va acc ver = (u, wt) → u.atRest id none →
      let waits := (u.modBank id (fun b => { b.leaveWait with waiter := some wt })).withdraw id
      ((u.bank id).ctxDue = none → ∃ x, Alike ((u.members id).foldl (fun s m => s.modBank m Bank.unwait) waits) x
        ∧ t.pageFaultCore id cause va acc ver = x.switchAll id)
      ∧ ((u.bank id).ctxDue.isSome = true →
        t.pageFaultCore id cause va acc ver = ((waits.modBank id Bank.leaveWait).gcFaults).beginDrain id .due))

/-- The page-fault path of the control core, and the records of faults (R177, R178, R181 to R183). -/
def Obligations.PageFaults : Prop :=
  Claim.FaultRecords ∧ Claim.AccessFaults

/-- A rollback (R258): the oldest uncommitted phase and every later one are cancelled. The control core and the engines that had reached
the phase are restored to its checkpoint, with nothing in their queues; an engine that had not reached it keeps what stands before its
boundary; words of the phase, its held bytes, the waits of the bank and a drain that has begun are discarded; a trap of a missed promise is due still where
its word stands before the phase (R178). Memory keeps every byte that is not undefined, as one that a save has left so may be, and every
other bank is unchanged (R258; log 69). -/
def Obligations.RollbackRestores : Prop :=
  ∀ (s : State) (bid : Nat) (c : Ckpt), (s.bank bid).ckpts.find? (·.phase = (s.bank bid).committed) = some c →
    let b := s.bank bid
    let t := s.rollback bid
    let u := t.bank bid
    u.core = c.core ∧ u.phase = c.phase ∧ u.ckpts = [c] ∧ u.held = [] ∧ u.flights = b.flights.filter (fun f => decide (f.phase < c.phase))
    ∧ (∀ e, c.phase ≤ (b.engine e).phase → (u.engine e).regs = PMap.get (b.engine e).regs c.eng (engIx e).val ∧ (u.engine e).queue = []
      ∧ (u.engine e).entry = none ∧ (u.engine e).stopped = none ∧ (u.engine e).mark = none ∧ (u.engine e).phase = c.phase)
    ∧ (∀ e, (b.engine e).phase < c.phase → (u.engine e).regs = (b.engine e).regs ∧ (u.engine e).queue = upToBoundary c.phase (b.engine e).queue
      ∧ (u.engine e).entry = (b.engine e).entry ∧ (u.engine e).stopped = (b.engine e).stopped)
    ∧ (∀ q, u.queueOf q = (PMap.find c.dq q.toNat).getD ((b.queueOf q).filter (fun v => decide (v.phase < c.phase))))
    ∧ u.wait = .none ∧ u.waiter = none ∧ u.ctxDue = none ∧ u.lowDue = c.low ∧ u.task = b.task ∧ u.draining = .none
    ∧ u.missDue = b.missDue.filter (fun n => !(b.flights.any (fun f => c.phase ≤ f.phase && f.n = n)))
    ∧ t.mem = c.mend s.mem ∧ (∀ a, s.mem.undefinedAt a = false → t.mem.get a = s.mem.get a)
    ∧ (∀ m, m ≠ bid → t.bank m = s.bank m)

/-- A standard ECALL raises scause 8 in U-mode and illegal-instruction in S-mode; EBREAK raises scause 3 with the address; each
leaves its own address in `sepc` (R175, R176, R225). -/
def Claim.EnvironmentCalls : Prop :=
  ∀ s : State, s.atRest s.cur.bid none →
    let enters := fun i c t => ∃ u, exec i s = .next u ∧ Alike ((s.withdraw s.cur.bid).modBank s.cur.bid (·.enterTrap c t)) u
    (s.own.core.priv = .user → enters .standardEcall 8 0)
    ∧ (s.own.core.priv = .super → enters .standardEcall 2 s.cur.ibits)
    ∧ enters .ebreak 3 s.own.core.pc.toNat

/-- SRET in S-mode: the pc is `sepc`, the privilege SPP, SIE takes SPIE, SPIE is set and SPP cleared; a pending queue-low is withdrawn
where U-mode is entered (R120, R178, R225). -/
def Claim.SretCompletes : Prop :=
  ∀ s : State, s.own.core.priv = .super →
    exec .sret s = .next (s.retires (·.returnFromTrap s.own.core.csr.sepc) s.own.core.csr.sepc)
    ∧ (let t := s.own.returnFromTrap s.own.core.csr.sepc
      let c := s.own.core.csr
      t.core.pc = c.sepc ∧ (t.core.priv = .super ↔ c.sstatus.getLsbD 8 = true)
      ∧ t.core.csr.sstatus.getLsbD 1 = c.sstatus.getLsbD 5 ∧ t.core.csr.sstatus.getLsbD 5 = true
      ∧ t.core.csr.sstatus.getLsbD 8 = false
      ∧ (∀ i, i < 64 → i ≠ 1 → i ≠ 5 → i ≠ 8 → t.core.csr.sstatus.getLsbD i = c.sstatus.getLsbD i)
      ∧ t.core.x = s.own.core.x
      ∧ (c.sstatus.getLsbD 8 = false → t.lowDue = none ∧ t.core.csr.sip.getLsbD 16 = false))

/-- WFI in S-mode retires once something wakes the bank, and waits until then; SFENCE.VMA in S-mode removes what its operands name of
the VF's translations and retires (R43, R225). -/
def Claim.WfiSfenceComplete : Prop :=
  ∀ (s : State) (a b : Reg), s.own.core.priv = .super →
    (s.own.wakes = true → exec .wfi s = .next (s.retires id s.after))
    ∧ (s.own.wakes = false → exec .wfi s = .next (s.modBank s.cur.bid (fun b => { b with wait := .wfi })))
    ∧ exec (.sfenceVma a b) s = .next ((s.invalidate
      { vf := s.own.vfId, asid := if b = 0#5 then none else some (bits (s.own.readX b).toNat 0 16),
        va := if a = 0#5 then 0 else (s.own.readX a).toNat / 4096 * 4096, len := if a = 0#5 then 0 else 4096 }).retires id s.after)

/-- The forms that are permitted in S-mode only raise illegal-instruction in U-mode before anything else (R120, R184, R185, R222,
R225). -/
def Claim.SuperOnlyForms : Prop :=
  ∀ (s : State) (i : Instr) (a b d : Reg), s.own.core.priv = .user →
    i ∈ [.sret, .wfi, .sfenceVma a b, .vcfp d a, .vcrep a, .fqpop d a, .fqrep a b] →
    exec i s = .next (s.takeTrap s.cur.bid 2 s.cur.ibits)

/-- System forms: ECALL, EBREAK, SRET, WFI, SFENCE.VMA, and the forms of S-mode (R175, R176, R178, R225). -/
def Obligations.SystemForms : Prop :=
  Claim.EnvironmentCalls ∧ Claim.SretCompletes ∧ Claim.WfiSfenceComplete ∧ Claim.SuperOnlyForms

/-! ### Fences and barriers (R79, R80, R139, R146) -/

/-- FENCE, FENCE.TSO, FENCE.I and `fence.s` of scopes 0 to 3 retire at once with no other effect; scopes 4 and 5 do so once every domain
write they cover has become visible, and keep the record of those writes; they wait before that, for the windows that their
first issue counts; and they trap link-down, with stval 0, where a write is held, also one that becomes so in the wait (R139, R146, R225; log
19, 106). -/
def Claim.FencesComplete : Prop :=
  ∀ (s : State) (fm pre suc : BitVec 4) (imm : BitVec 12) (a d : Reg) (c : BitVec 3),
    exec (.fence fm pre suc a d) s = .next (s.retires id s.after)
    ∧ exec (.fenceTso a d) s = .next (s.retires id s.after)
    ∧ exec (.fenceI imm a d) s = .next (s.retires id s.after)
    ∧ (c.toNat < 4 → exec (.fenceS c) s = .next (s.retires id s.after))
    ∧ (c.toNat = 4 ∨ c.toNat = 5 →
      (s.fenceHeld s.own = true → exec (.fenceS c) s = .next (s.takeTrap s.cur.bid 54 0))
      ∧ (s.fenceHeld s.own = false → s.fenceOver s.own = true → exec (.fenceS c) s = .next (s.retires id s.after))
      ∧ (s.fenceHeld s.own = false → s.fenceOver s.own = false → exec (.fenceS c) s
        = .next (s.modBank s.cur.bid (fun b => { b with wait := .fenceS (s.fenceWindows s.own) }))))

/-- The time a domain fence waits for: 2 windows behind the last covered write while the module is locked, 4 otherwise; none where it
covers no write (R142, R146). -/
def Claim.FenceWindows : Prop :=
  ∀ (s : State) (b : Bank), b.wait = .none →
    (b.dom = [] → s.fenceOver b = true)
    ∧ (∀ l w, b.dom = [(l, w)] → s.fenceOver b
      = decide (w + (if s.host.tstatErr.toNat ≤ 32 then 2 else 4) ≤ s.ftime / 128))

/-- `pbar ord` marks the earlier durable stores of its control core as to persist before later ones; `pbar dur` and `pbar bank`
retire once every store they cover is persistent, for `pbar bank` also those of commands that a bank of the gang has pushed to the engines of
one that has ended (R262); `pwb` retires once its address translates (R79, R80). -/
def Claim.PersistBarriersComplete : Prop :=
  ∀ (s t : State) (a : Reg) (p : Place),
    exec (.pbar 0#3) s = .next (s.retires (fun b => { b with barred := s.unpersisted (dagent s.cur.bid none) }) s.after)
    ∧ (s.unpersisted (dagent s.cur.bid none) = [] → exec (.pbar 1#3) s = .next (s.retires id s.after))
    ∧ ((∀ m ∈ s.members s.cur.bid, (s.bank m).quiet = true ∧ s.bankUnpersisted m = [] ∧ s.pushedUnpersisted m = []) →
      exec (.pbar 2#3) s = .next (s.retires id s.after))
    ∧ ((∃ m ∈ s.members s.cur.bid, (s.bank m).quiet = false ∨ s.bankUnpersisted m ≠ [] ∨ s.pushedUnpersisted m ≠ []) →
      exec (.pbar 2#3) s = .next s)
    ∧ ((translate (s.whoCore s.cur.bid) (s.own.readX a).toNat accR 0).run s = .ok p t →
      exec (.pwb a) s = .next (t.retires id s.after))

/-- Fences and persist barriers (R79, R80, R139, R142, R146). -/
def Obligations.FencesAndBarriers : Prop :=
  Claim.FencesComplete ∧ Claim.FenceWindows ∧ Claim.PersistBarriersComplete

/-! ### Page handles (R36 to R41, R242 to R244) -/

/-- `xlat` and `xlat.w` complete unless four versions of the handle are in use: the handle takes a new current version, made from the TLB
or left pending; `hinv` gives it an empty one; `hstat` reads the current version's status and completes in every state (R37, R38,
R242, R243). -/
def Claim.HandleFormsComplete : Prop :=
  ∀ (s : State) (a d : Reg) (p : BitVec 4) (b : Bank) (v : HVer) (t : State),
    (∀ wint, s.xlatVer s.cur.bid (s.own.readX a).toNat wint = (v, t) →
      (t.bank s.cur.bid).newVersion p (t.usedVers s.cur.bid) (fun id => { v with id := id }) = some b →
      exec (if wint then .xlatW a p else .xlat a p) s = .next ((t.setBank s.cur.bid b).retires id s.after))
    ∧ (s.own.newVersion p (s.usedVers s.cur.bid) HVer.empty = some b → exec (.hinv p) s = .next (s.retires (fun _ => b) s.after))
    ∧ exec (.hstat d p) s = .next (s.retires (·.writeX d ((s.own.handle p).cur.stat)) s.after)

/-- A new version of a handle can be made exactly while fewer than four of its versions are live: those from the current one back to the
oldest that a command still uses. It takes the next number and becomes current, every version in use stays, and no other
handle changes (R38; log 68: versions end in their order). -/
def Claim.NewVersions : Prop :=
  ∀ (b : Bank) (p : BitVec 4) (used : List Nat) (f : Nat → HVer),
    let all := (b.handle p).cur :: (b.handle p).old
    let live := (b.handle p).live used
    ((b.newVersion p used f).isSome = true ↔ live.length < 4)
    ∧ (∃ dead, all = live ++ dead ∧ (∀ v ∈ dead, v.id ∉ used) ∧ (∀ v, live.getLast? = some v → v.id ∈ used))
    ∧ (∀ c, b.newVersion p used f = some c → (c.handle p).cur = f b.nextVer ∧ (c.handle p).old = live ∧ c.nextVer = b.nextVer + 1
      ∧ (∀ q, q ≠ p → c.handle q = b.handle q) ∧ c.core.x = b.core.x ∧ c.core.pc = b.core.pc ∧ c.eng = b.eng)

/-- What `hstat` reads: 0 for an empty handle; else the state in bits 63 and 62, the write intent in bit 53, and the cause of a pending
or a revoked version in bits 43 to 40 (R41). -/
def Claim.HandleStatus : Prop :=
  ∀ v : HVer, v.cause < 16 → v.leaf.level < 4 → v.leaf.ceil < 8 →
    (v.state = .empty → v.stat = 0#64)
    ∧ (v.state ≠ .empty → v.stat.extractLsb' 62 2 = (match v.state with | .valid => 2#2 | .revoked => 3#2 | _ => 1#2)
      ∧ v.stat.getLsbD 53 = v.wint)
    ∧ (v.state = .pending → v.stat.extractLsb' 40 4 = BitVec.ofNat 4 v.cause)
    ∧ (v.state = .revoked → v.stat.extractLsb' 40 4 = 8#4)
    ∧ (v.state = .valid ∨ v.state = .revoked → v.stat.extractLsb' 60 2 = BitVec.ofNat 2 v.leaf.level
      ∧ v.stat.extractLsb' 57 3 = BitVec.ofNat 3 v.leaf.ceil ∧ v.stat.getLsbD 56 = v.leaf.durable
      ∧ v.stat.getLsbD 55 = v.leaf.hostHomed ∧ v.stat.getLsbD 54 = v.leaf.ctxseg ∧ v.stat.getLsbD 52 = v.leaf.r
      ∧ v.stat.getLsbD 51 = v.leaf.w)

/-- Page handles: their forms, versions and status (R36 to R41, R242, R243). -/
def Obligations.Handles : Prop :=
  Claim.HandleFormsComplete ∧ Claim.NewVersions ∧ Claim.HandleStatus

/-- `ldh` and `sdh` complete where their offset is a multiple of 8 and the handle's page passes its checks: one doubleword, little
endian, at the page's address plus the offset (R244). -/
def Claim.HandleAccessCompletes : Prop :=
  ∀ (s t : State) (d a b : Reg) (p : BitVec 4) (c : BitVec 3) (pl : Place) (bs : List Byte),
    let off := (s.own.readX a).toNat
    off % 8 = 0 →
    ((handlePlace s.cur.bid none p none off 8 accR c.toNat).run s = .ok pl t →
      t.readable s.cur.bid none pl.pa 8 = some bs →
      exec (.ldh d p a c) s = .next (t.retires (·.writeX d (BitVec.ofNat 64 (leNat bs))) s.after))
    ∧ ((handlePlace s.cur.bid none p none off 8 accW c.toNat).run s = .ok pl t →
      exec (.sdh b p a c) s
        = .next ((t.storeAt s.cur.bid none pl (leBytes 8 (s.own.readX b).toNat)).retires id s.after))

/-- How a use of a handle by the control core, of a bank alone or of the leader of a gang, ends early: an offset that is no multiple of 8
traps address-misaligned, as a load 4 and as a store 6; an empty handle 58, an offset beyond the page 57, a revoked handle 56; at a
pending one with no cause the use waits for its walk (R39, R244). -/
def Claim.HandleUseTraps : Prop :=
  ∀ (s : State) (d a : Reg) (p : BitVec 4) (c : BitVec 3), s.handleBank s.cur.bid = s.cur.bid →
    let off := (s.own.readX a).toNat
    let v := (s.own.handle p).cur
    let stops := fun cause tval => exec (.ldh d p a c) s = .next (s.takeTrap s.cur.bid cause tval)
      ∧ exec (.sdh d p a c) s = .next (s.takeTrap s.cur.bid cause tval)
    let waits := fun acc => Host.Outcome.next (φ := Fault) (ρ := Refusal) (s.modBank s.cur.bid (fun b => { b with
      uses := PMap.put b.uses 0 ⟨v.id, (canonAddr (v.vpage * 4096) + off) % 2 ^ 64, acc⟩ }))
    (off % 8 ≠ 0 → exec (.ldh d p a c) s = .next (s.takeTrap s.cur.bid 4 off)
      ∧ exec (.sdh d p a c) s = .next (s.takeTrap s.cur.bid 6 off))
    ∧ (off % 8 = 0 → v.state = .empty → stops 58 p.toNat)
    ∧ (off % 8 = 0 → v.state = .valid ∨ v.state = .revoked → pageSize v.leaf.level < off + 8 → stops 57 p.toNat)
    ∧ (off % 8 = 0 → v.state = .revoked → off + 8 ≤ pageSize v.leaf.level → stops 56 p.toNat)
    ∧ (off % 8 = 0 → v.state = .pending → v.cause = 0 →
      exec (.ldh d p a c) s = waits accR ∧ exec (.sdh d p a c) s = waits accW)

/-- A use that the rights of a valid handle's leaf deny is walked once more before it faults (R35): where the walk gives a leaf that
denies it too, the handle keeps the new leaf, and the access takes the page-fault path with the cause of the denial; a walk that
fails leaves the handle pending with its cause, which is the fault; while the walk cannot read a table, the access waits (R39, R74, R177; log
56: the walk is at the byte accessed). -/
def Claim.HandleRightsDenied : Prop :=
  ∀ (s : State) (d a : Reg) (p : BitVec 4) (c : BitVec 3) (acc k : Nat) (l : Leaf), s.handleBank s.cur.bid = s.cur.bid →
    let id := s.cur.bid
    let w := s.whoCore id
    let off := (s.own.readX a).toNat
    let v := (s.own.handle p).cur
    let va := v.leaf.va + off
    let kept := fun (t : State) (v' : HVer) => t.modBank id (fun b => b.setHandle p ((b.handle p).update v.id (fun _ => v')))
    let ends := fun (t : State) (va cause : Nat) =>
      if cause ≤ 5 then t.pageFaultCore id cause va acc v.id else t.takeTrap id (48 + cause) va
    let i := if acc = accR then Instr.ldh d p a c else Instr.sdh d p a c
    (acc = accR ∨ acc = accW) → off % 8 = 0 → v.state = .valid → off + 8 ≤ pageSize v.leaf.level → v.leaf.denies w acc ≠ 0 →
    (s.walk w.die w.root va = .ok l → l.denies w acc = k → k ≠ 0 →
      exec i s = .next (ends (kept (s.tlbRenew w va l) { v with state := .valid, cause := 0, leaf := l }) (l.va + off) k))
    ∧ (s.walk w.die w.root va = .error 0 → exec i s = .next s)
    ∧ (s.walk w.die w.root va = .error k → k ≠ 0 →
      exec i s = .next (ends (kept (s.tlbDrop w va) { v with state := .pending, cause := k }) va k))

/-- `ldh` and `sdh` (R35, R39, R244). -/
def Obligations.HandleAccess : Prop :=
  Claim.HandleAccessCompletes ∧ Claim.HandleUseTraps ∧ Claim.HandleRightsDenied

/-! ### Queues (R159, R245 to R251) -/

/-- Data queues from the control core: `qpush` completes once every member of the gang, or the bank, has room, and appends its valid
element; `qpop` and `qpeek` complete once the queue holds an element that is not poisoned, which goes to rd with its valid bit kept;
`qlvl` completes in every state (R245 to R247). -/
def Obligations.DataQueuesComplete : Prop :=
  ∀ (s : State) (q : BitVec 3) (a d : Reg) (e : Elem) (rest : List Elem),
    (q ∈ [0#3, 1#3, 3#3, 5#3, 6#3] → (∀ m ∈ s.members s.cur.bid, ((s.bank m).queueOf q).length < 32) →
      exec (.qpush q a) s = .next (((s.members s.cur.bid).foldl
        (fun s' m => s'.modBank m (fun b => { b.pushElem q ⟨s.own.readX a, true, b.phase, false⟩ with misOpen := false })) s).retires id s.after))
    ∧ (q ∈ [2#3, 4#3, 7#3] → s.own.queueOf q = e :: rest → e.bad = false →
      exec (.qpop d q) s = .next (s.retires
        (fun b => (({ b with vbit := b.vbit.set q.toFin e.valid }).setQueue q rest).writeX d e.value) s.after)
      ∧ exec (.qpeek d q) s = .next (s.retires
        (fun b => ({ b with vbit := b.vbit.set q.toFin e.valid }).writeX d e.value) s.after))
    ∧ exec (.qlvl d q) s = .next (s.retires (·.writeX d (s.own.level q)) s.after)

/-- R248: `qwm` sets the watermark of an engine's command queue; a value above 63 raises illegal-instruction and leaves it. -/
def Claim.WatermarkSet : Prop :=
  ∀ (s : State) (e : Engine) (a : Reg),
    ((s.own.readX a).toNat ≤ 63 → exec (.qwm e a) s
      = .next (s.retires (fun b => b.modEngine e (fun g => { g with watermark := (s.own.readX a).toNat })) s.after))
    ∧ (63 < (s.own.readX a).toNat → exec (.qwm e a) s = .next (s.takeTrap s.cur.bid 2 s.cur.ibits))

/-- Commands: `ecall`, `emark` and `epush` complete once every member of the gang, or the bank, has room for all their entries, which enter
each queue in order with the current handle versions (R38, R224, R249 to R251). -/
def Claim.CommandsComplete : Prop :=
  ∀ (s : State) (e : Engine) (r : BitVec 13) (a : Reg) (n : BitVec 2),
    let room := fun k => ∀ m ∈ s.members s.cur.bid, ((s.bank m).engine e).level + k ≤ 64
    let pushed := fun (ks : List CmdKind) => ((s.members s.cur.bid).foldl (fun s' m => s'.modBank m (fun b =>
      { b.modEngine e (fun g => { g with queue := g.queue ++ ks.map (fun k => ⟨k, s.own.curVers, false⟩) }) with misOpen := false })) s).retires
        id s.after
    (room 1 → exec (.ecall e r) s = .next (pushed [.call r.toNat])
      ∧ exec (.emark e a) s = .next (pushed [.marker ((s.own.readX a).setWidth 32)]))
    ∧ (room (n.toNat + 1) → exec (.epush e a n) s
      = .next (pushed ((List.range (n.toNat + 1)).map (fun i => .word ((s.own.readX a).extractLsb' (16 * i) 16)))))

/-- Command queues: watermarks and commands (R248 to R251). -/
def Obligations.Commands : Prop :=
  Claim.WatermarkSet ∧ Claim.CommandsComplete

/-! ### Rendezvous, time, promises and phases (R66 to R68, R132, R152, R252 to R256) -/

/-- `rdvs` completes in every state: the register is armed, or fires at once where its condition holds; `rdvw` completes on a fired
register and acquires what the markers released (R132, R252, R253). -/
def Claim.RendezvousComplete : Prop :=
  ∀ (s : State) (v : BitVec 3) (m : BitVec 4) (a : Reg),
    exec (.rdvs v m a) s = .next (((s.modBank s.cur.bid (fun b => { b with core := { b.core with
      rv := b.core.rv.set v.toFin ⟨.armed, m, (s.own.readX a).setWidth 32⟩ } })).fireRv s.cur.bid).retires id s.after)
    ∧ (s.own.core.rv[v.toFin].state = .fired → exec (.rdvw v) s
      = .next (s.retires (fun b => { b with dom := joinAll b.dom (s.acquired s.cur.bid s.own.core.rv[v.toFin]) }) s.after))

/-- When a rendezvous fires (R132): after `rdvs` its register has fired exactly where every engine of the mask, of the bank or of every member
of the gang it leads, has a retired-marker number m with (m − n) mod 2^32 below 2^31; it keeps its mask and number. -/
def Claim.RendezvousFires : Prop :=
  ∀ (s t : State) (v : BitVec 3) (m : BitVec 4) (a : Reg), exec (.rdvs v m a) s = .next t →
    let n : BitVec 32 := (s.own.readX a).setWidth 32
    let r := t.own.core.rv[v.toFin]
    r.mask = m ∧ r.n = n ∧ (r.state = .fired ↔ ∀ x ∈ s.members s.cur.bid, ∀ e : Engine, m.getLsbD (engIx e).val = true →
      ∃ k, ((s.bank x).engine e).regs.marker = some k ∧ (k.toNat + 2 ^ 32 - n.toNat) % 2 ^ 32 < 2 ^ 31)
    ∧ (r.state = .fired ∨ r.state = .armed) ∧ t.own.core.x = s.own.core.x ∧ t.own.eng = s.own.eng

/-- Rendezvous registers (R132, R252, R253). -/
def Obligations.Rendezvous : Prop :=
  Claim.RendezvousComplete ∧ Claim.RendezvousFires

/-- `waitt` retires at once where its time is reached, 0 included; `prm` completes in every state with the value of R66, acquires the domain
writes of a complete word, and marks a promise as read (R67 to R69, R254). -/
def Claim.TimeFormsComplete : Prop :=
  ∀ (s : State) (a d : Reg),
    ((s.own.readX a).toNat ≤ s.cycle → exec (.waitt a) s = .next (s.retires id s.after))
    ∧ (let n := (s.own.readX a).toNat
      let v := s.own.prmValue n
      exec (.prm d a) s = .next (s.retires (fun b =>
        (((if v = 2 then b.acquireCopy n else b).setProm n (fun p => { p with read := p.read || p.state = PromState.promised })).writeX d
          (BitVec.ofNat 64 v))) s.after))

/-- The value of a promise: 1 for a word not yet issued, the promise of a word in flight, 3 for one that waits on a fault, 2 for a
complete one or one whose entry is gone, 0 for one that ended in FALLBACK (R66). -/
def Claim.PromiseValues : Prop :=
  ∀ (b : Bank) (n : Nat),
    (b.nextWord ≤ n → b.prmValue n = 1)
    ∧ (n < b.nextWord → b.prom n = none → b.prmValue n = 2)
    ∧ (∀ p, n < b.nextWord → b.prom n = some p → b.prmValue n = match p.state with
      | .fallback => 0 | .complete => 2 | .waiting => 3 | .promised => p.time)

/-- `waitt`, `prm` and what a promise reads (R66, R68, R254). -/
def Obligations.TimeAndPromises : Prop :=
  Claim.TimeFormsComplete ∧ Claim.PromiseValues

/-- `phsw` completes once no phase of the bank, or of a member of the gang it leads, is closed and uncommitted: a boundary goes behind the
last word of each queue, with the checkpoint's pc behind the `phsw`; and a closed phase whose words have all completed commits
(R152, R256). -/
def Claim.PhasesComplete : Prop :=
  ∀ (s : State) (bank : Nat),
    ((∀ m ∈ s.members s.cur.bid, (s.bank m).phase ≤ (s.bank m).committed) →
      exec .phsw s = .next (((s.members s.cur.bid).foldl (fun s' m =>
        s'.modBank m (fun b => b.placeBoundary (if m = s.cur.bid then s.after else b.core.pc))) s).retires id s.after))
    ∧ (s.handleBank bank = bank → (∀ m ∈ s.members bank, (s.bank m).task.isSome = true
          ∧ (s.bank m).committed < (s.bank m).phase ∧ (s.bank m).phaseDone (s.bank m).committed = true) →
      exec (.phaseCommit bank) s = .next ((s.members bank).foldl (fun s' m => s'.commit m) s))

/-- What a commit does: the count of committed phases rises by one, each address that the phase wrote apart takes the last value written
there, no held byte of another phase reaches memory, and no register or queue of the bank changes (R152, R153, R256). -/
def Claim.CommitEffect : Prop :=
  ∀ (s : State) (bid : Nat),
    let b := s.bank bid
    let t := s.commit bid
    let c := t.bank bid
    c.committed = b.committed + 1 ∧ c.phase = b.phase ∧ c.core = b.core ∧ c.dq = b.dq ∧ c.tok = b.tok ∧ c.flights = b.flights
    ∧ (∀ e, (c.engine e).regs = (b.engine e).regs ∧ (c.engine e).queue = (b.engine e).queue)
    ∧ (∀ h ∈ c.held, h ∈ b.held ∧ h.phase ≠ b.committed) ∧ (∀ h ∈ b.held, h.phase ≠ b.committed → h ∈ c.held)
    ∧ (∀ x, (∀ h ∈ b.held, h.phase = b.committed → h.addr ≠ x) → t.mem.get x = s.mem.get x)
    ∧ (∀ x h, b.held.find? (fun h => h.phase = b.committed && h.addr = x) = some h → t.mem.get x = h.val)
    ∧ (∀ m, m ≠ bid → t.bank m = s.bank m)

/-- Phases end and commit (R152, R153, R256). -/
def Obligations.Phases : Prop :=
  Claim.PhasesComplete ∧ Claim.CommitEffect

/-! ### Tasks, gangs and nests (R171, R173, R174, R187, R196) -/

/-- `safept` retires and gives way to the other bank of its core, with the members of its gang, where that is ready, or saves under the
map it names where a pre-emption request is pending for it or another of its task's group (R173; log 102); a map index beyond the
image's raises illegal-instruction (R172, R187). `tdone` completes in a bank whose gang is not formed once every word and closed phase
is complete: the open phase commits, and the member's part of the task ends; in a member of a formed gang it raises
illegal-instruction, whatever else (R171). -/
def Claim.TaskFormsComplete : Prop :=
  ∀ (s : State) (i : BitVec 12),
    let id := s.cur.bid
    let maps := (s.coreSt (coreOf id)).maps.length
    (i.toNat < maps → (∀ m ∈ s.saveSet id, (s.bank m).preempt = none) →
      exec (.safept i) s = .next ((s.retires (fun b => b) s.after).switchAll id))
    ∧ (i.toNat < maps → (∃ m ∈ s.saveSet id, (s.bank m).preempt ≠ none) →
      exec (.safept i) s = .next ((s.retires (fun b => b) s.after).beginSave id (some i.toNat)))
    ∧ (maps ≤ i.toNat → exec (.safept i) s = .next (s.takeTrap id 2 s.cur.ibits))
    ∧ ((∃ g, s.own.gang = some g ∧ g.formed = true) → exec .tdone s = .next (s.takeTrap id 2 s.cur.ibits))
    ∧ ((∀ g, s.own.gang = some g → g.formed = false) → s.settled id = true → exec .tdone s
      = .next (((s.commit id).finishTask id).modBank id
          (fun b => (b.setPc (b.core.pc + BitVec.ofNat 64 s.cur.ilen)).retire)))

/-- After the `tdone` of a task of one core: the bank holds no task, its data queues are empty and its reservation is gone, its open
phase has committed, and x registers and the engines' parameter stacks keep their values (R171). -/
def Claim.TaskEnds : Prop :=
  ∀ (s t : State) (k : Task), s.own.gang = none → s.settled s.cur.bid = true → s.own.task = some k → k.gsize = 1 →
    k.group0 = coreOf s.cur.bid → exec .tdone s = .next t →
    let b := t.bank s.cur.bid
    b.task = none ∧ (∀ q, b.queueOf q = []) ∧ b.resv = none ∧ b.committed = s.own.committed + 1 ∧ b.core.x = s.own.core.x
    ∧ (∀ e, (b.engine e).regs.pstack = (s.own.engine e).regs.pstack)

/-- `safept` and `tdone` (R165, R169, R171, R172, R177, R187). -/
def Obligations.Tasks : Prop :=
  Claim.TaskFormsComplete ∧ Claim.TaskEnds

/-- The end of a nest by a cause (R165, R169, R177): the nest leaves the table, no bank and no saved context runs a task of it; any other
bank keeps its state but for a reservation, or has lost its task too, as one of a successor; no object or VF changes, and nothing of the
host but that a write of word 15 may wait (log 14), or end a reservation of another module's agent (log 23). -/
def Claim.NestEnds : Prop :=
  ∀ (s : State) (id cause : Nat), s.nests.any (·.id = id) = true →
    let t := s.terminate id cause
    (∀ n ∈ t.nests, n.id ≠ id) ∧ (∀ m, (t.bank m).runs id = false) ∧ (∀ c ∈ t.saved, c.2.state.runs id = false)
    ∧ (∀ m, t.bank m = s.bank m ∨ t.bank m = { s.bank m with resv := none } ∨ (t.bank m).task = none)
    ∧ t.host = { s.host with unitWrites := t.host.unitWrites, peerResvs := t.host.peerResvs }
    ∧ (∃ more, t.host.unitWrites = s.host.unitWrites ++ more) ∧ (∀ r ∈ t.host.peerResvs, r ∈ s.host.peerResvs)
    ∧ t.slots = s.slots ∧ t.vfs = s.vfs ∧ t.cycle = s.cycle

/-- A fault of an engine word that ends its nest: an illegal word's micro-PC is recorded, and its bank drains first, the faulting engine
left out; with nothing else to drain the nest ends at once; a format or context-format fault ends the nest as it stands (R177, R229; log
15, 73). -/
def Claim.WordFaults : Prop :=
  ∀ (s : State) (bid : Nat) (e : Engine) (cause : Nat),
    let recorded := s.modCore (coreOf bid) (fun c => { c with illegalUpc := ((s.bank bid).engine e).regs.upc })
    s.faultEnd bid e 0x10 = recorded.beginDrain bid (.ends e 0x10)
    ∧ (s.atRest bid (some e) → ∃ x, Alike recorded x ∧ s.faultEnd bid e 0x10 = x.terminateOf bid 0x10)
    ∧ (cause ≠ 0x10 → s.faultEnd bid e cause = s.terminateOf bid cause)

/-- The end of a nest, and the faults of engine words that end it (R165, R169, R177, R229). -/
def Obligations.EndsOfNests : Prop :=
  Claim.NestEnds ∧ Claim.WordFaults

/-- The banks that a mask of cluster cores names for a bank, lowest first (R173). -/
def gangOf (s : State) (a : Reg) : List Nat := maskBanks s.cur.bid (bits (s.own.readX a).toNat 0 8)

/-- A mask that keeps the rules of R173: at least two cores, all of the group, the issuing one among them, and no higher bit. -/
def gangMaskOk (s : State) (a : Reg) : Prop :=
  (s.own.readX a).toNat < 256 ∧ 2 ≤ (gangOf s a).length ∧ s.cur.bid ∈ gangOf s a
    ∧ ∃ k, s.own.task = some k ∧ ∀ m ∈ gangOf s a, m ∈ k.banks (bankOf s.cur.bid)

/-- Another core of the cluster has executed a `gang` that concerns the bank, with a different mask: a member, or one whose waiting
`gang` names this core (R173). -/
def gangDiffers (s : State) (a : Reg) : Prop :=
  ∃ m ∈ maskBanks s.cur.bid 255, m ≠ s.cur.bid ∧ ∃ g, (s.bank m).gang = some g
    ∧ (m ∈ gangOf s a ∨ (g.formed = false ∧ g.mask.getLsbD (coreOf s.cur.bid % 8) = true))
    ∧ g.mask ≠ BitVec.ofNat 8 (s.own.readX a).toNat

/-- `gang` commits the open phase, and completes for the leader where every other member waits in it with the same mask and empty
queues: the gang forms, and the leader goes on behind its `gang`; where the leader waits already, the last member's `gang` forms
it. It waits before that. A mask against the rules, or one that differs from that of a `gang` of the cluster that concerns the bank,
raises illegal-instruction (R173, R259), as does a `gang` while the core's gang is formed (log 93), each once the open phase has committed
(log 72). -/
def Claim.GangForms : Prop :=
  ∀ (s : State) (a : Reg),
    let id := s.cur.bid
    let mask : BitVec 8 := BitVec.ofNat 8 (s.own.readX a).toNat
    let ms := gangOf s a
    let waits := s.issues.modBank id (fun b => { b with gang := some ⟨mask, [], false⟩, wait := .gang })
    let joined := fun m => (s.bank m).gang = some ⟨mask, [], false⟩ ∧ (s.bank m).quiet = true
    s.settled id = true →
    ((∃ g, s.own.gang = some g ∧ g.formed = true) → exec (.gang a) s = .next (s.issues.takeTrap id 2 s.cur.ibits))
    ∧ ((∀ g, s.own.gang = some g → g.formed = false) → gangMaskOk s a → ¬ gangDiffers s a →
      ((∀ m ∈ ms, m ≠ id → joined m) → ms.head? = some id → exec (.gang a) s = .next (waits.formGang ms mask).behind)
      ∧ (∀ l, (∀ m ∈ ms, m ≠ id → joined m) → ms.head? = some l → l ≠ id →
        exec (.gang a) s = .next ((waits.formGang ms mask).modBank l Bank.retireGang))
      ∧ ((∃ m ∈ ms, m ≠ id ∧ (s.bank m).gang = none) → exec (.gang a) s = .next waits))
    ∧ (gangDiffers s a → exec (.gang a) s = .next (s.issues.takeTrap id 2 s.cur.ibits))
    ∧ (¬ gangMaskOk s a → exec (.gang a) s = .next (s.issues.takeTrap id 2 s.cur.ibits))

/-- `ungang` of the leader completes once every member's words and closed phases are complete: the members' open phases commit, each
follower's `gang` retires with it, and no member is in the gang; the leader keeps which durable stores of the commands it pushed to the
followers its `pbar bank` covers (R79, R262); in any other bank it raises illegal-instruction (R173), once the open phase has committed (log
72). -/
def Claim.GangEnds : Prop :=
  ∀ (s : State) (g : Gang),
    let id := s.cur.bid
    (s.own.gang = some g → g.formed = true → g.members.head? = some id → s.settled id = true →
      exec .ungang s = .next (State.behind (((g.members.filter (· ≠ id)).foldl (fun s m => s.modBank m (fun b =>
        { b.retireGang with gang := none })) (s.issues.keepPushed id (g.members.filter (· ≠ id)))).modBank id
          (fun b => { b with gang := none }))))
    ∧ (s.settled id = true → (∀ h, s.own.gang = some h → h.formed = false ∨ ∃ m, h.members.head? = some m ∧ m ≠ id) →
      exec .ungang s = .next (s.issues.takeTrap id 2 s.cur.ibits))

/-- `gang` and `ungang` (R173). -/
def Obligations.Gangs : Prop :=
  Claim.GangForms ∧ Claim.GangEnds

/-- The condition bits of a cluster, as a number (R174). -/
def condBits (s : State) (b : Bank) : BitVec 16 := (s.die (dieOf s.cur.bid)).cond[Fin.ofNat 3 (b.condAt s.cur.bid).1]

/-- `csync.set` writes the local bits its mask names with the corresponding bits of rs2, and no other; `csync.w` retires once every bit it
names is 1, changes none, and waits before that; a group of g cores at core c uses the 2g bits from 2c; a mask that names a bit at 2g or
above raises illegal-instruction (R174), for `csync.set` once the open phase has committed (R259; log 72). -/
def Obligations.ConditionBits : Prop :=
  ∀ (s : State) (a b : Reg),
    let id := s.cur.bid
    let mask := (s.own.readX a).toNat
    let lo := (s.own.condAt id).2.1
    let n := (s.own.condAt id).2.2
    (2 ^ n ≤ mask → exec (.csyncW a) s = .next (s.takeTrap id 2 s.cur.ibits)
      ∧ (s.settled id = true → exec (.csyncSet a b) s = .next (s.issues.takeTrap id 2 s.cur.ibits)))
    ∧ (mask < 2 ^ n → (∀ i, i < n → mask.testBit i = true → (condBits s s.own).getLsbD (lo + i) = true) → n + lo ≤ 16 →
      exec (.csyncW a) s = .next (s.retires (fun b => b) s.after))
    ∧ (mask < 2 ^ n → (∃ i, i < n ∧ mask.testBit i = true ∧ (condBits s s.own).getLsbD (lo + i) = false) → n + lo ≤ 16 →
      exec (.csyncW a) s = .next s)
    ∧ (∀ k, s.own.task = some k → lo = 2 * (k.group0 % 8) ∧ n = 2 * k.gsize)
    ∧ (mask < 2 ^ n → s.settled id = true → n + lo ≤ 16 → ∃ v : BitVec 16,
      exec (.csyncSet a b) s = .next (State.behind (s.issues.modDie (dieOf id)
        (fun d => { d with cond := d.cond.set (Fin.ofNat 3 (s.own.condAt id).1) v })))
      ∧ ∀ i, i < 16 → v.getLsbD i = if lo ≤ i ∧ mask.testBit (i - lo) = true then (s.own.readX b).getLsbD (i - lo)
          else (condBits s s.own).getLsbD i)

/-- `nsub` completes once the bank has settled: with FULL and nothing read where the nest table holds 256 nests, else the record at
x[rs1] is accepted for the issuing die with the base level as its cap, and rd is 0; a misaligned address traps 4 (R164, R196), once the
open phase has committed (log 72). -/
def Obligations.NestSubmission : Prop :=
  ∀ (s t : State) (d a : Reg) (bs : List Byte),
    let id := s.cur.bid
    let va := (s.own.readX a).toNat
    s.settled id = true →
    (va % 128 ≠ 0 → exec (.nsub d a) s = .next (s.issues.takeTrap id 4 va))
    ∧ (va % 128 = 0 → 256 ≤ s.nestCount (dieOf id) →
      exec (.nsub d a) s = .next ((s.issues.modBank id (·.writeX d 0x8000000000000002#64)).behind))
    ∧ (va % 128 = 0 → s.nestCount (dieOf id) < 256 → (loadBlock (s.issues.whoCore id) va 128).run s.issues = .ok bs t →
      let v := t.accept bs (dieOf id) va (t.bank id).asidOf (t.bank id).vfId (((t.bank id).task.map (·.base)).getD 0)
      exec (.nsub d a) s = .next ((v.modBank id (·.writeX d 0#64)).behind))

/-! ### The tensor directory (R89 to R105) -/

/-- `dqry` gives the binding generation of the name, in every state (R101). -/
def Claim.DirectoryQuery : Prop :=
  ∀ (s : State) (d a : Reg),
    exec (.dqry d a) s = .next (s.retires (·.writeX d (BitVec.ofNat 64 (s.genOf s.own.vfId (s.own.readX a)))) s.after)

/-- `dopen`, and `dopen.w` on a bound name, complete: UNBOUND, LIMIT, or one more open, with the descriptor in the second half of the
block and the handle in rd. `dopen.w` on an unbound name waits, registered, or gives TIMEOUT at its deadline; a registered one only
waits for its bind or its deadline (R97, R99; log 60: a failure gives 2^63 + status; log 71). -/
def Obligations.DirectoryOpens : Prop :=
  ∀ (s t : State) (d a b : Reg) (p : Place) (name : Word),
    let id := s.cur.bid
    let ends := fun (v : Word) (u : State) => (u.modBank id (·.writeX d v)).behind
    let opened := fun i => (t.openSlot i).storeAt id none { p with pa := p.pa + 64 } (s.slot i).desc
    let w : DirWaiter := { bid := id, vf := s.own.vfId, name := name, va := (s.own.readX a).toNat, rd := d, deadline := (s.own.readX b).toNat }
    s.settled id = true → (openBlock a).run s.issues = .ok (p, name) t →
    (s.boundObject s.own.vfId name = none → exec (.dopen d a) s = .next (ends 0x8000000000000001#64 t))
    ∧ (∀ i, s.boundObject s.own.vfId name = some i →
      ((s.slot i).opens = 2 ^ 32 - 1 → exec (.dopen d a) s = .next (ends 0x8000000000000005#64 t))
      ∧ ((s.slot i).opens ≠ 2 ^ 32 - 1 → exec (.dopen d a) s = .next (ends (BitVec.ofNat 64 (s.handleOf i)) (opened i))))
    ∧ ((∀ k ∈ s.dirWaiters, k.bid ≠ id) →
      (∀ i, s.boundObject s.own.vfId name = some i →
        ((s.slot i).opens = 2 ^ 32 - 1 → exec (.dopenW d a b) s = .next (ends 0x8000000000000005#64 t))
        ∧ ((s.slot i).opens ≠ 2 ^ 32 - 1 → exec (.dopenW d a b) s = .next (ends (BitVec.ofNat 64 (s.handleOf i)) (opened i))))
      ∧ (s.boundObject s.own.vfId name = none →
        (s.own.readX b ≠ 0#64 → (s.own.readX b).toNat ≤ s.cycle → exec (.dopenW d a b) s = .next (ends 0x8000000000000006#64 t))
        ∧ ((s.own.readX b = 0#64 ∨ s.cycle < (s.own.readX b).toNat) → exec (.dopenW d a b) s
          = .next (({ t with dirWaiters := t.dirWaiters ++ [w] }).modBank id (fun k => { k with wait := .dopenW w.deadline })))))
    ∧ (∀ k, s.dirWaiters.find? (·.bid = id) = some k →
      (k.deadline = 0 ∨ s.cycle < k.deadline → exec (.dopenW d a b) s = .next s)
      ∧ (k.deadline ≠ 0 → k.deadline ≤ s.cycle →
        exec (.dopenW d a b) s = .next ((s.withdraw id).endDopenW k (2 ^ 63 + 6))))

/-- `dbind`, `dunbind` and `dbset` complete: BADLIST, or the atomic step on the entries read, whose result goes to rd; a `dbind` whose
descriptor address is 0 reads nothing and unbinds (R95, R98). -/
def Claim.DirectoryBinds : Prop :=
  ∀ (s t : State) (d a b : Reg) (desc : List Byte) (l : Option (List BindEntry)),
    let id := s.cur.bid
    let ends := fun (es : List BindEntry) (u : State) =>
      ((u.bindStep (u.bank id).vfId es).2.modBank id (·.writeX d (BitVec.ofNat 64 (u.bindStep (u.bank id).vfId es).1))).behind
    s.settled id = true →
    (s.own.readX b ≠ 0#64 → (loadDesc (s.own.readX b).toNat).run s.issues = .ok desc t →
      exec (.dbind d a b) s = .next (ends [(s.own.readX a, some desc)] t))
    ∧ (s.own.readX b = 0#64 → exec (.dbind d a b) s = .next (ends [(s.own.readX a, none)] s.issues))
    ∧ exec (.dunbind d a) s = .next (ends [(s.own.readX a, none)] s.issues)
    ∧ ((loadBindList (s.own.readX a).toNat).run s.issues = .ok l t →
      (∀ es, l = some es → exec (.dbset d a) s = .next (ends es t))
      ∧ (l = none → exec (.dbset d a) s = .next ((t.modBank id (·.writeX d 0x8000000000000004#64)).behind)))

/-- The atomic step of a bind (R98): the unbinding of an unbound name, a bad descriptor, and a lack of slots or quota each give their
status, and no failure changes anything; where the step succeeds, it gives a generation one above the VF's in 63 bits, which becomes
the VF's and each name's; no other name's generation and no other VF changes (R93, R95; log 66). -/
def Obligations.BindStep : Prop :=
  ∀ (s : State) (vf : Nat) (es : List BindEntry),
    let r := s.bindStep vf es
    let g := ((s.vf vf).gen + 1) % 2 ^ 63
    let news := es.filter (·.2.isSome)
    let unbound := ∃ e ∈ es, e.2 = none ∧ s.boundObject vf e.1 = none
    let bad := ∃ e ∈ es, ∃ d, e.2 = some d ∧ badDesc d = true
    let full := (∃ d, d < 4 ∧ s.freeSlots d < (news.filter (fun e => homeDie vf e.1 = d)).length)
      ∨ (news ≠ [] ∧ (s.vf vf).quota < s.vfSlots vf + news.length)
    (unbound → r = (2 ^ 63 + 1, s)) ∧ (¬ unbound → bad → r = (2 ^ 63 + 3, s)) ∧ (¬ unbound → ¬ bad → full → r = (2 ^ 63 + 2, s))
    ∧ (2 ^ 63 ≤ r.1 → r.2 = s)
    ∧ (¬ unbound → ¬ bad → ¬ full → r.1 = g ∧ (r.2.vf vf).gen = g ∧ (∀ e ∈ es, r.2.genOf vf e.1 = g)
      ∧ (∀ v n, (v ≠ vf ∨ ∀ e ∈ es, e.1 ≠ n) → r.2.genOf v n = s.genOf v n) ∧ (∀ v, v ≠ vf → r.2.vf v = s.vf v))

/-- `dclose` of the null handle has no effect; of an open object of the VF it drops one open, and reclamation begins where that was
the last of an unbound object; any other handle traps dir-handle (R100), once the open phase has committed (log 72). -/
def Claim.DirectoryCloses : Prop :=
  ∀ (s : State) (a : Reg),
    let id := s.cur.bid
    let h := bits (s.own.readX a).toNat 0 32
    let i := bits h 30 2 * 16384 + bits h 16 14
    let live := (s.slot i).inc = bits h 0 16 ∧ (s.slot i).vf = s.own.vfId ∧ (s.slot i).opens ≠ 0
    s.settled id = true →
    (h = 0 → exec (.dclose a) s = .next s.issues.behind)
    ∧ (h ≠ 0 → live → exec (.dclose a) s = .next (State.behind
        ((s.issues.setSlot i { s.slot i with opens := (s.slot i).opens - 1 }).reclaimIfDone i)))
    ∧ (h ≠ 0 → ¬ live → exec (.dclose a) s = .next (s.issues.takeTrap id 60 h))

/-- `dqry`, `dbind`, `dunbind`, `dbset` and `dclose` (R95 to R101). -/
def Obligations.DirectoryBinding : Prop :=
  Claim.DirectoryQuery ∧ Claim.DirectoryBinds ∧ Claim.DirectoryCloses

/-! ### Context faults, fault records and energy counters (R120, R121, R184, R185, R204) -/

/-- `fqpop` completes where its buffer translates: rd is 0 where the VF has no new record, else the oldest new record is taken, its copy
goes to the buffer and its number to rd. `fqrep` of a record that is taken completes: a replay answers it, a failure ends every nest
with a waiter on it with the record's code; of any other it raises illegal-instruction (R184, R185), once the open phase has committed (log
72). -/
def Claim.FaultQueueForms : Prop :=
  ∀ (s t : State) (d a b : Reg) (p : Place),
    let id := s.cur.bid
    let va := (s.own.readX a).toNat
    s.settled id = true → s.own.core.priv = .super →
    (va % 32 = 0 → (translate (s.issues.whoCore id) va accW 0).run s.issues = .ok p t →
      (t.oldestNew s.own.vfId = none → exec (.fqpop d a) s = .next ((t.modBank id (·.writeX d 0#64)).behind))
      ∧ (∀ k i r, t.oldestNew s.own.vfId = some (k, i, r) → exec (.fqpop d a) s = .next
        ((((t.setFault k i { r with state := 2 }).storeAt id none p ({ r with state := 2 } : FaultRec).image).modBank id
          (·.writeX d (BitVec.ofNat 64 (2 ^ 63 + k * 2 ^ 12 + i)))).behind)))
    ∧ (let k := bits va 12 2
       let i := bits va 0 12
       let w := s.issues
       bit va 63 = true → bits va 14 49 = 0 →
       (∀ r, PMap.find (s.die k).faults i = some r → r.state = 2 → r.vf = s.own.vfId →
        (s.own.readX b = 0#64 → exec (.fqrep a b) s = .next (w.setFault k i { r with state := 3 }).gcFaults.behind)
        ∧ (s.own.readX b = 1#64 → exec (.fqrep a b) s = .next (State.behind (State.gcFaults
          (((w.nestsOn k i).eraseDups).foldl (fun s n => s.terminate n r.code) (w.setFault k i { r with state := 4 }))))))
       ∧ ((∀ r, PMap.find (s.die k).faults i = some r → r.state ≠ 2 ∨ r.vf ≠ s.own.vfId) →
        exec (.fqrep a b) s = .next (w.takeTrap id 2 s.cur.ibits)))

/-- `ergr` (R204): a VF counter of a die, the sum of the four, or a core's; a selector against the table raises
illegal-instruction. -/
def Obligations.EnergyCounters : Prop :=
  ∀ (s : State) (d a : Reg),
    let n := (s.own.readX a).toNat
    let gives := fun v => exec (.ergr d a) s = .next (s.retires (·.writeX d (BitVec.ofNat 64 v)) s.after)
    let traps := exec (.ergr d a) s = .next (s.takeTrap s.cur.bid 2 s.cur.ibits)
    let energy := fun k => PMap.get 0 (s.die k).vfEnergy s.own.vfId
    (bits n 13 51 = 0 → bit n 12 = false → bits n 0 9 = s.own.vfId →
      (bit n 11 = false → gives (energy (bits n 9 2)))
      ∧ (bit n 11 = true → gives (energy 0 + energy 1 + energy 2 + energy 3)))
    ∧ (bits n 13 51 = 0 → bit n 12 = true → bit n 11 = false → s.own.core.priv = .super → bits n 0 9 ≤ 23 →
      gives (s.coreSt (24 * bits n 9 2 + bits n 0 9)).energy)
    ∧ ((bits n 13 51 ≠ 0 ∨ (bit n 12 = false ∧ bits n 0 9 ≠ s.own.vfId)
        ∨ (bit n 12 = true ∧ (s.own.core.priv = .user ∨ bit n 11 = true ∨ 23 < bits n 0 9))) → traps)

/-! ### Virtual contexts (R106, R107, R120, R121, R152) -/

/-- The fault queue of a context as `vcfp` reads it: its address, head, tail and capacity word (R107, R120). -/
def ctxQueue (w : Who) (ctx : Nat) : M (Nat × Nat × Nat × Nat) := do
  let fq ← ctxWord w ctx 3
  let hd ← loadVa w (fq + 8) 8
  let tl ← loadVa w (fq + 16) 8
  let cap ← loadVa w fq 8
  return (fq, hd, tl, cap)

/-- What `vcrep` reads for a record whose context is at `ctx`: its depth, resident capacity and replay entry (R107, R120). -/
def ctxReplay (w : Who) (ctx : Nat) : M (Nat × Nat × Nat) := do
  let depth ← ctxWord w ctx 9
  let rcap ← ctxWord w ctx 6
  let replay ← ctxWord w ctx 5
  return (bits depth 0 8, bits rcap 48 16, replay)

/-- `vcfp` and `vcrep` in S-mode, and `vcsync`, complete: `vcfp` gives 0 where the queue is empty, else the address of the record at
tail, which advances; `vcrep` pins what its record asks for, passes the context, stub and level in a0 to a2, and returns to the
replay entry; `vcsync` waits for every earlier `phsw`, then clears depth and pins, and acquires
what the committed phases of the bank, or of every member of its gang, released; a bad record at `vcrep` raises illegal-instruction (R120, R121, R152), once the open phase has committed
(log 72; log 65: bit 0 of the replay address is not in the pc). -/
def Claim.ContextForms : Prop :=
  ∀ (s t u v : State) (d a : Reg) (fq hd tl cap : Nat) (rec : List Byte) (fdepth rcap replay : Nat) (ps : List (Place × Nat)),
    let id := s.cur.bid
    let w := s.issues.whoCore id
    let r := (s.own.readX a).toNat
    (s.settled id = true → s.own.core.priv = .super → (ctxQueue w r).run s.issues = .ok (fq, hd, tl, cap) t →
      (hd = tl → exec (.vcfp d a) s = .next ((t.modBank id (·.writeX d 0#64)).behind))
      ∧ (hd ≠ tl → (translateSpan w (fq + 16) 8 accW 0).run t = .ok ps u →
        (storeVa (u.whoCore id) (fq + 16) 8 ((tl + 1) % 2 ^ 64)).run u = .ok () v →
        exec (.vcfp d a) s
          = .next ((v.modBank id (·.writeX d (BitVec.ofNat 64 (fq + 64 + 32 * (tl % 2 ^ bits cap 0 4))))).behind)))
    ∧ (s.settled id = true → s.own.core.priv = .super → r % 32 = 0 → (loadBlock w r 32).run s.issues = .ok rec t →
      let ctx := blockWord rec 0
      let w1 := blockWord rec 1
      let w3 := blockWord rec 3
      let res := bits w3 62 2
      let pin := if res = 1 then bits w3 0 16 else (0x8000 + bits w1 16 16) % 2 ^ 16
      (ctxReplay w ctx).run t = .ok (fdepth, rcap, replay) u →
      let good := (res = 1 ∧ bits w3 0 16 < rcap ∨ res = 2) ∧ 1 ≤ fdepth ∧ fdepth ≤ 4 ∧ bits w1 32 8 = fdepth
      (¬ good → exec (.vcrep a) s = .next (u.takeTrap id 2 s.cur.ibits))
      ∧ (∀ x y, good → (translateSpan w (ctx + 64 + 2 * (fdepth - 1)) 2 accW 0).run u = .ok ps x →
        (storeVa (x.whoCore id) (ctx + 64 + 2 * (fdepth - 1)) 2 pin).run x = .ok () y →
        let pc := BitVec.ofNat 64 replay &&& 0xFFFFFFFFFFFFFFFE#64
        exec (.vcrep a) s = .next (((y.modBank id (fun b =>
          (((b.writeX 10#5 (BitVec.ofNat 64 ctx)).writeX 11#5 (BitVec.ofNat 64 (bits w1 48 16))).writeX 12#5
            (BitVec.ofNat 64 (bits w1 40 8))).returnFromTrap pc)).beginPhase id pc).retires (fun b => b) pc)))
    ∧ (s.own.committed < s.own.phase → exec (.vcsync a) s = .next s)
    ∧ (s.own.phase ≤ s.own.committed → ∀ p x y, (translateSpan (s.whoCore id) (r + 64) 8 accW 0).run s = .ok ps t →
      (translate (s.whoCore id) (r + 72) accW 0).run t = .ok p u → (storeVa (s.whoCore id) (r + 64) 8 (2 ^ 64 - 1)).run u = .ok () x →
      (storeVa (s.whoCore id) (r + 72) 1 0).run x = .ok () y →
      exec (.vcsync a) s = .next (y.retires (fun b => { b with
        dom := joinAll b.dom ((s.members id).flatMap (fun m => (s.bank m).phaseDom)) }) s.after))

/-- Fault records and context faults: `fqpop`, `fqrep`, `vcfp`, `vcrep`, `vcsync` (R120, R121, R184, R185). -/
def Obligations.SupervisorQueues : Prop :=
  Claim.FaultQueueForms ∧ Claim.ContextForms

/-! ### Engine words: control (R157, R158, R263 to R270) -/

/-- How an engine goes on after a word (R157, R250): to the next routine word, and past word 8,191 the nest ends with cause 0x10; an
entry that is a raw word, or whose outermost `ret` is reached, ends. Only the bank's own engine and checkpoints change. -/
def Obligations.EngineFlow : Prop :=
  ∀ (s : State) (bid : Nat) (e : Engine),
    let g := (s.bank bid).engine e
    let t := fun f => s.flow bid e f
    (∀ u, g.regs.upc = some u → u < 8191 →
      t .next = s.setBank bid ((s.bank bid).setEngine e { g with stopped := none, regs := { g.regs with upc := some (u + 1) } }))
    ∧ (g.regs.upc = some 8191 → t .next = (s.setBank bid ((s.bank bid).setEngine e { g with stopped := none })).faultEnd bid e 0x10)
    ∧ (∀ a, t (.goto a) = s.setBank bid ((s.bank bid).setEngine e { g with stopped := none, regs := { g.regs with upc := some a } }))
    ∧ (g.regs.upc = none → t .next = t .ret)
    ∧ (((t .ret).bank bid).engine e).entry = none ∧ (((t .ret).bank bid).engine e).stopped = none
    ∧ (((t .ret).bank bid).engine e).regs = { g.regs with upc := none }
    ∧ (∀ o, o ≠ e → ((t .ret).bank bid).engine o = (s.bank bid).engine o)
    ∧ ((t .ret).bank bid).core = (s.bank bid).core ∧ ((t .ret).bank bid).dq = (s.bank bid).dq
    ∧ (∀ m, m ≠ bid → (t .ret).bank m = s.bank m) ∧ (t .ret).mem = s.mem ∧ t .more = s.setBank bid (s.bank bid)

/-- The stack words (R263): with enough entries and room each replaces the entries it pops; else it ends the nest with cause 0x10 and
pops nothing. Each stands in its encoding, and bit 0 of `rot` is zero outside the vector engine. -/
def Obligations.StackWords : Prop :=
  ∀ (s : State) (e : Engine), s.cur.eng = some e →
    let st := (s.ownRegs e).pstack
    let does := fun n (push : List Word) => s.wordEnds e (fun r => { r with pstack := push ++ r.pstack.drop n }) .next
    let bad := s.faultEnd s.cur.bid e 0x10
    (∀ v, (st.length < 8 → exec (.literal v) s = .next (does 0 [v.setWidth 64]))
      ∧ (8 ≤ st.length → exec (.literal v) s = .next bad))
    ∧ (∀ lo hi rest, st = lo :: hi :: rest → rest.length < 8 → exec .lix s = .next (does 2 [hi * 0x8000#64 + lo]))
    ∧ (∀ a rest, st = a :: rest → rest.length < 7 → exec .dup s = .next (does 1 [a, a]))
    ∧ (∀ a rest, st = a :: rest → 7 ≤ rest.length → exec .dup s = .next bad)
    ∧ (∀ a rest, st = a :: rest → rest.length ≤ 8 → exec .drop s = .next (does 1 []))
    ∧ (∀ a b rest, st = a :: b :: rest → rest.length ≤ 6 → exec .swap s = .next (does 2 [b, a]))
    ∧ (∀ a b c rest, st = a :: b :: c :: rest → rest.length ≤ 5 → exec .rot s = .next (does 3 [c, a, b]))
    ∧ (st = [] → exec .dup s = .next bad ∧ exec .drop s = .next bad)
    ∧ (st.length < 2 → exec .lix s = .next bad ∧ exec .swap s = .next bad)
    ∧ (st.length < 3 → exec .rot s = .next bad)
    ∧ exec .nop s = .next (s.flow s.cur.bid e .next)
    ∧ (∀ v : BitVec 15, (encodeWord (.literal v)).toNat = 0x8000 + v.toNat)
    ∧ [Instr.lix, .dup, .drop, .swap, .rot, .nop].map encodeWord = [0x0200, 0x0400, 0x0600, 0x0800, 0x0A00, 0x1E00]
    ∧ (∀ o : Engine, o ≠ .vx → ∃ x, decodeWord o 0x0A01#16 = .error x)

/-- `call`, `ret`, `mark` and `fsel` (R267 to R269): a call goes to the address popped with the return address pushed, or none where the
`call` was a raw word; a fifth return address or an address above 8,191 ends the nest; `ret` returns, or ends the entry; `mark`
leaves the engine at a marker; `fsel` sets the format. -/
def Obligations.CallWords : Prop :=
  ∀ (s : State) (e : Engine), s.cur.eng = some e →
    let r := s.ownRegs e
    (∀ a rest, r.pstack = a :: rest → rest.length ≤ 8 →
      (a.toNat ≤ 8191 → r.rstack.length < 4 →
        (∀ u, r.upc = some u → exec .call s = .next (s.wordEnds e
          (fun r => { r with pstack := r.pstack.drop 1, rstack := (u + 1) :: r.rstack }) (.goto a.toNat)))
        ∧ (r.upc = none → exec .call s = .next (s.wordEnds e (fun r => { r with pstack := r.pstack.drop 1 }) (.goto a.toNat))))
      ∧ ((8191 < a.toNat ∨ 4 ≤ r.rstack.length) → exec .call s = .next (s.faultEnd s.cur.bid e 0x10))
      ∧ exec .mark s = .next (((s.modBank s.cur.bid (fun b => b.modEngine e (fun g =>
          { g.modRegs (fun r => { r with pstack := r.pstack.drop 1 }) with mark := some (a.setWidth 32) })))).flow s.cur.bid e .next))
    ∧ (r.pstack = [] → exec .call s = .next (s.faultEnd s.cur.bid e 0x10) ∧ exec .mark s = .next (s.faultEnd s.cur.bid e 0x10))
    ∧ (r.rstack = [] → exec .ret s = .next (s.flow s.cur.bid e .ret))
    ∧ (∀ a rest, r.rstack = a :: rest → exec .ret s = .next (s.wordEnds e (fun r => { r with rstack := rest }) (.goto a)))
    ∧ (∀ f, exec (.fsel f) s = .next (s.wordEnds e (fun r => { r with fmt := f.toNat }) .next))
    ∧ encodeWord .call = 0x1A00#16 ∧ encodeWord .ret = 0x1C00#16

/-- The hardware loops (R158, R264): `loop` enters with the popped count, its body from the shadow or the word behind it to the shadow or
the level's next `endl`, or skips the body on a count of 0; `endl` tests, and goes back or leaves; against the rules each ends the
nest with cause 0x10 and changes nothing before. -/
def Claim.LoopWords : Prop :=
  ∀ (s : State) (e : Engine) (l : BitVec 2), s.cur.eng = some e →
    let r := s.ownRegs e
    let g := r.loops[loopIx l]
    let bad := s.faultEnd s.cur.bid e 0x10
    let store := (s.coreSt (coreOf s.cur.bid)).store[engIx e]
    (∀ a v rest stop, r.upc = some a → r.pstack = v :: rest → rest.length ≤ 8 → g.active = false →
      (g.sle = some stop ∨ (g.sle = none ∧ firstEndl store l a = some stop)) →
      (v.setWidth 32 = 0#32 → exec (.loop l) s = .next (s.wordEnds e (fun r => EngRegs.modLoop { r with pstack := r.pstack.drop 1 } l
        (fun g => { g with ls := g.sls.getD (a + 1), le := stop, sls := none, sle := none, active := false })) (.goto (stop + 1))))
      ∧ (v.setWidth 32 ≠ 0#32 → exec (.loop l) s = .next (s.wordEnds e (fun r => EngRegs.modLoop { r with pstack := r.pstack.drop 1 } l
        (fun g => { g with lc := v.setWidth 32, ls := g.sls.getD (a + 1), le := stop, sls := none, sle := none, active := true }))
        .next)))
    ∧ ((r.upc = none ∨ g.active = true ∨ r.pstack = [] ∨ (∃ a, r.upc = some a ∧ g.sle = none ∧ firstEndl store l a = none)) →
      exec (.loop l) s = .next bad)
    ∧ (r.upc = some g.le → g.active = true →
      (g.lc.toNat ≤ 1 → exec (.endl l) s = .next (s.wordEnds e (·.modLoop l (fun g => { g with lc := 0, active := false })) .next))
      ∧ (1 < g.lc.toNat → exec (.endl l) s = .next (s.wordEnds e (·.modLoop l (fun g => { g with lc := g.lc - 1 })) (.goto g.ls))))
    ∧ ((r.upc ≠ some g.le ∨ g.active = false) → exec (.endl l) s = .next bad)
    ∧ (encodeWord (.loop l)).toNat = 0x0C00 + l.toNat ∧ (encodeWord (.endl l)).toNat = 0x0E00 + l.toNat

/-- The `endl` that a `loop` finds is the first of its level behind the word, and none where there is none (R264). -/
def Claim.FirstEndl : Prop :=
  ∀ (store : List Half) (l : BitVec 2) (a : Nat),
    (∀ x, firstEndl store l a = some x → a < x ∧ store[x]? = some (endlWord l) ∧ ∀ y, a < y → y < x → store[y]? ≠ some (endlWord l))
    ∧ (firstEndl store l a = none → ∀ y, a < y → store[y]? ≠ some (endlWord l))

/-- `lset` and `lget` (R265): a count is written at once, a start or end to the shadow; a start or end above 8,191 ends the nest and pops
nothing; a read gives the shadow where it was written. -/
def Claim.LoopRegisters : Prop :=
  ∀ (s : State) (e : Engine) (l : BitVec 2), s.cur.eng = some e →
    let st := (s.ownRegs e).pstack
    let g := (s.ownRegs e).loops[loopIx l]
    let sets := fun f => s.wordEnds e (fun r => EngRegs.modLoop { r with pstack := r.pstack.drop 1 } l f) .next
    let gets := fun (v : Word) => s.wordEnds e (fun r => { r with pstack := v :: r.pstack }) .next
    (∀ v rest, st = v :: rest → rest.length ≤ 8 →
      exec (.lset 0#2 l) s = .next (sets (fun g => { g with lc := v.setWidth 32 }))
      ∧ (v.toNat ≤ 8191 → exec (.lset 1#2 l) s = .next (sets (fun g => { g with sls := some v.toNat }))
        ∧ exec (.lset 2#2 l) s = .next (sets (fun g => { g with sle := some v.toNat })))
      ∧ (8191 < v.toNat → exec (.lset 1#2 l) s = .next (s.faultEnd s.cur.bid e 0x10)
        ∧ exec (.lset 2#2 l) s = .next (s.faultEnd s.cur.bid e 0x10)))
    ∧ (st.length < 8 → exec (.lget 0#2 l) s = .next (gets (g.lc.setWidth 64))
      ∧ exec (.lget 1#2 l) s = .next (gets (BitVec.ofNat 64 (g.sls.getD g.ls)))
      ∧ exec (.lget 2#2 l) s = .next (gets (BitVec.ofNat 64 (g.sle.getD g.le))))
    ∧ (∀ k, (encodeWord (.lset k l)).toNat = 0x1000 + 4 * k.toNat + l.toNat
      ∧ (encodeWord (.lget k l)).toNat = 0x1200 + 4 * k.toNat + l.toNat)

/-- The hardware loops and their registers (R158, R264, R265). -/
def Obligations.Loops : Prop :=
  Claim.LoopWords ∧ Claim.FirstEndl ∧ Claim.LoopRegisters

/-- Tokens and data queues at an engine (R162, R266, R270): `tokw` waits for room of 16 and adds one token of its phase, `tokr` waits for one
and removes it; `qin` waits for an element that Yarrow has compared and pushes its value; `qout` waits for room and appends its
value, and in a follower of a gang only pops. A word that waits changes nothing. -/
def Obligations.QueueWords : Prop :=
  ∀ (s : State) (e o : Engine) (q : BitVec 3), s.cur.eng = some e →
    let id := s.cur.bid
    let st := (s.ownRegs e).pstack
    let ends := fun (f : Bank → Bank) => (s.modBank id f).flow id e .next
    let pops := fun (n : Nat) (push : List Word) (b : Bank) =>
      b.modEngine e (fun g => g.modRegs (fun r => { r with pstack := push ++ r.pstack.drop n }))
    ((s.own.tokens e o).length < 16 → exec (.tokw o) s = .next (ends (·.pushToken e o (s.own.engine e).phase)))
    ∧ (16 ≤ (s.own.tokens e o).length → exec (.tokw o) s = .next s)
    ∧ (∀ p rest, s.own.tokens o e = p :: rest → exec (.tokr o) s = .next (ends (·.setTokens o e rest)))
    ∧ (s.own.tokens o e = [] → exec (.tokr o) s = .next s)
    ∧ (∀ v rest, s.own.queueOf q = v :: rest → st.length < 8 → v.bad = false →
      (PMap.get 0 (s.own.engine e).checked q.toNat ≠ 0 →
        exec (.qin q) s = .next (ends (fun b => pops 0 [v.value] (b.takeElem e q))))
      ∧ (PMap.get 0 (s.own.engine e).checked q.toNat = 0 → exec (.qin q) s = .next s))
    ∧ (s.own.queueOf q = [] → st.length < 8 → exec (.qin q) s = .next s)
    ∧ (∀ v rest, st = v :: rest → rest.length ≤ 8 →
      (s.handleBank id = id → (s.own.queueOf q).length < 32 → exec (.qout q) s
        = .next (ends (fun b => pops 1 [] (b.pushElem q ⟨v, true, (s.own.engine e).phase, false⟩))))
      ∧ (s.handleBank id = id → 32 ≤ (s.own.queueOf q).length → exec (.qout q) s = .next s)
      ∧ (s.handleBank id ≠ id → exec (.qout q) s = .next (ends (pops 1 []))))

/-! ### Copy words (R64 to R71, R271 to R283) -/

/-- What a copy data word is: kinds of source and destination, ring, policy, operands popped, whether it completes only when
persistent, what it asks for, and which operand names its destination (R231, R275 to R282). -/
structure CopyForm where
  src : OpKind
  dst : OpKind
  ring : Nat
  pol : Nat
  pops : Nat
  persist : Bool
  plan : List Word → M CopyPlan
  dstAt : Nat

def copyForm : Instr → Option CopyForm
  | .cpy p s d g => some ⟨kindOf s, kindOf d, g.toNat, p.toNat, if kindOf d = .ring then 2 else 3, false, planCpy (kindOf s) (kindOf d), 2⟩
  | .cpy2 p s d g =>
    some ⟨kindOf s, kindOf d, g.toNat, p.toNat, if kindOf d = .ring then 4 else 6, false, planCpy2 (kindOf s) (kindOf d), 5⟩
  | .cpyz p d => some ⟨.handle, kindOf d, 0, p.toNat, 5, false, planCpyz (kindOf d), 3⟩
  | .gath p s d g =>
    some ⟨kindOf s, kindOf d, g.toNat, p.toNat, if kindOf d = .ring then 5 else 6, false, planGath (kindOf s) (kindOf d), 5⟩
  | .scat p s d => some ⟨kindOf s, kindOf d, 0, p.toNat, 6, false, planScat (kindOf s) (kindOf d), 5⟩
  | .pfch p s => some ⟨kindOf s, .handle, 0, p.toNat, 2, false, planPfch, 1⟩
  | .cpyg p s d => some ⟨kindOf s, kindOf d, 0, p.toNat, 5, false, planCpyg (kindOf s), 4⟩
  | .cpyd p s d => some ⟨kindOf s, kindOf d, 0, p.toNat, 3, true, planCpy (kindOf s) (kindOf d), 2⟩
  | .fill p d => some ⟨.handle, kindOf d, 0, p.toNat, 3, false, planFill (kindOf d), 2⟩
  | .rfeed p s g => some ⟨kindOf s, .ring, g.toNat, p.toNat, 6, false, planRfeed (kindOf s) g.toNat, 6⟩
  | _ => none

/-- The state of the promise entry with which a word begins: FALLBACK where a deadline is set and lies before the promise, complete where
the word moves nothing, else promised (R64, R71, R272). -/
def CopyForm.begins (pl : CopyPlan) (s : State) : PromState × Nat :=
  let promise := (s.cycle + (if pl.empty then 1 else max 1 s.cur.forecast)) % 2 ^ 64
  let deadline := (s.ownRegs .cx).deadline.toNat
  (if deadline ≠ 0 ∧ deadline < promise then .fallback else if pl.empty then .complete else .promised, promise)

/-- The bank once a copy word has issued: its operands are popped, the deadline is consumed, its number is taken, its promise is made, and
its requests are in flight where it neither falls back nor is empty; a word into a ring reserves a slot (R65, R272, R274, R276). -/
def CopyForm.issued (c : CopyForm) (pl : CopyPlan) (ops : List Word) (s : State) (b : Bank) : Bank :=
  let st := CopyForm.begins pl s
  let g := b.engine .cx
  let r := (b.engine .mx).regs.rings[Fin.ofNat 4 c.ring]
  let b1 := b.modEngine .cx (·.modRegs (fun r => { r with pstack := r.pstack.drop c.pops, deadline := 0 }))
  let b2 : Bank := { b1 with
    nextWord := b.nextWord + 1
    fbcnt := if st.1 = .fallback then b.fbcnt + 1 else b.fbcnt
    proms := PMap.put b.proms (b.nextWord % 64) { n := b.nextWord, state := st.1, time := st.2, read := false, trapped := false } }
  let f : Flight :=
    { n := b.nextWord, srcKind := c.src, dstKind := if c.dst = .ring then .loc else c.dst, pol := c.pol
      reqs := if c.dst = .ring then pl.reqs r.freeSlot ++ [.slotDone c.ring] else pl.reqs (fixedAt (ops.getD c.dstAt 0))
      done := 0, persist := c.persist, stores := [], lines := [], vers := (g.entry.map (·.vers)).getD [], phase := g.phase
      tick := s.ticks, waiter := none }
  if st.1 = .promised then
    let b3 : Bank := { b2 with flights := b2.flights ++ [f] }
    if c.dst = .ring then b3.modRing c.ring (fun r => { r with reserved := r.reserved + 1 }) else b3
  else b2

/-- Every copy data word issues where its operands are there and pass its own limits, its extents and its ring's slot pass theirs, the
staging area holds its slices, of length 0 too, a slot is free for a ring, and the promise entry that it takes is not in use (R65, R271 to
R277). -/
def Claim.CopyWordsIssue : Prop :=
  ∀ (s t : State) (i : Instr) (c : CopyForm) (pl : CopyPlan), s.cur.eng = some .cx → copyForm i = some c →
    let st := (s.ownRegs .cx).pstack
    c.pops ≤ st.length → st.length ≤ 8 → (c.plan (st.take c.pops)).run s = .ok pl t →
    (∀ x ∈ pl.extents, x.ok = true
      ∧ (x.kind = .slice → bits x.addr.toNat 0 22 < t.stagingSize (dieOf s.cur.bid)
        ∧ (x.len ≠ 0 → bits x.addr.toNat 0 22 + x.first + x.len ≤ t.stagingSize (dieOf s.cur.bid)))) →
    (c.dst = .ring → ((t.ownRegs .mx).rings[Fin.ofNat 4 c.ring]).slots ≠ 0
      ∧ pl.slot ≤ 256 * ((t.ownRegs .mx).rings[Fin.ofNat 4 c.ring]).size ∧ (pl.empty = false → t.own.ringFull c.ring = false)) →
    (∀ p, PMap.find t.own.proms (t.own.nextWord % 64) = some p → p.state ≠ .promised ∧ p.state ≠ .waiting) →
    exec i s = .next ((t.modBank s.cur.bid (c.issued pl (st.take c.pops) t)).flow s.cur.bid .cx .next)

/-- `dln` sets the deadline of the next copy data word (R273). -/
def Claim.DeadlineWord : Prop :=
  ∀ (s : State) (v : Word) (rest : List Word), s.cur.eng = some .cx → (s.ownRegs .cx).pstack = v :: rest → rest.length ≤ 8 →
    exec .dln s = .next (s.wordEnds .cx (fun r => { r with pstack := r.pstack.drop 1, deadline := v }) .next)

/-- Copy words issue (R65, R71, R271 to R282). -/
def Obligations.CopyIssue : Prop :=
  Claim.CopyWordsIssue ∧ Claim.DeadlineWord

/-- The requests of a copy (R274): the pieces of `len` bytes at a destination follow one another from 0 to `len`, none is empty, and
none crosses a 64-byte boundary of the destination. -/
def Claim.CopyRequests : Prop :=
  ∀ dst len : Nat,
    ((pieces dst len).map (·.2)).sum = len
    ∧ (∀ i p, (pieces dst len)[i]? = some p → p.1 = (((pieces dst len).take i).map (·.2)).sum ∧ 0 < p.2
      ∧ (dst + p.1) / 64 = (dst + p.1 + p.2 - 1) / 64)

/-- COPY_COMPLETE performs the first issued word that can go on: where its requests can all be performed, it leaves the flight list
and its promise is complete; a `cpyd` does so once its stores are persistent (R64, R66, R81, R126; log 34). -/
def Claim.CopyCompletes : Prop :=
  ∀ (s c t : State) (bank n : Nat) (f : Flight) (rest : List Flight), s.claimAll bank = some c →
    (∀ x ∈ (c.bank bank).flights, x.waiter = none) → c.nextFlight bank [] = some n →
    ((c.bank bank).headFirst n).flights = f :: rest →
    (runReqs bank f f.reqs).run (c.modBank bank (·.headFirst n)) = .ok () t →
    ∀ h more, (t.bank bank).flights = h :: more → (h.persist = true → ∀ d ∈ t.betony.pending, d.id ∉ h.stores) →
    ∃ u, exec (.copyComplete bank) s = .next u ∧ u.mem = t.mem ∧ (u.bank bank).flights = more
      ∧ (∀ p, (t.bank bank).prom h.n = some p → (u.bank bank).prom h.n = some { p with state := .complete })
      ∧ (u.bank bank).core = (t.bank bank).core ∧ (u.bank bank).eng = (t.bank bank).eng ∧ ∀ m, m ≠ bank → u.bank m = t.bank m

/-- The requests of a copy word, and its completion (R64, R66, R81, R274). -/
def Obligations.CopyRuns : Prop :=
  Claim.CopyRequests ∧ Claim.CopyCompletes

/-! ### Select words (R218, R284 to R286) -/

/-- The values of `w` bytes in a string of bytes. -/
def valuesOf (bs : List Byte) (n w : Nat) : List Nat := (List.range n).map (fun i => leNat ((bs.drop (i * w)).take w))

/-- The select words complete where their counts and arrays pass R284 and their sources can be read: keys, counts and the selected indices
and values are written first, then the operands are replaced by the result; the keys of an `skey` that overlap their source, unless it
transforms in place, are any values (R285, R286). `cmpk` writes element by element, each element's index before its value, which of the two
is the model's choice (R126; log 101). -/
def Claim.SelectWords : Prop :=
  ∀ (s : State) (f : BitVec 4) (d : BitVec 2) (rest : List Word) (kb vb : List Byte), s.cur.eng = some .sx →
    let id := s.cur.bid
    let w := selectWidth f
    let ends := fun (t : State) (n : Nat) (push : List Word) => Host.Outcome.next (φ := Fault) (ρ := Refusal) ((t.modBank id (fun b =>
      b.modEngine .sx (·.modRegs (fun r => { r with pstack := push ++ r.pstack.drop n })))).flow id .sx .next)
    let good := fun (n : Word) => 1 ≤ n.toNat ∧ n.toNat ≤ 2 ^ 20
    let stack := fun (ops : List Word) => (s.ownRegs .sx).pstack = ops ++ rest ∧ rest.length ≤ 7
    (∀ n src dst, stack [n, src, dst] → good n → arrayOk src (n.toNat * w) w = true → arrayOk dst (n.toNat * 4) 4 = true →
      ((dst = src ∧ w = 4) ∨ dst.toNat + 4 * n.toNat ≤ src.toNat ∨ src.toNat + n.toNat * w ≤ dst.toNat) →
      s.localBytes id .sx src.toNat (n.toNat * w) = some vb →
      exec (.skey f) s = ends (s.storeLocalBlock id .sx dst.toNat
        ((((valuesOf vb n.toNat w).map (keyOf f.toNat)).map (leBytes 4)).flatten)) 3 [])
    ∧ (∀ n src dst, stack [n, src, dst] → good n → arrayOk src (n.toNat * w) w = true → arrayOk dst (n.toNat * 4) 4 = true →
      s.localBytes id .sx src.toNat (n.toNat * w) = some vb →
      ∃ (u : Nat) (ks : List Nat), exec (.skey f) s = ends (({ s with uses := u } : State).storeLocalBlock id .sx dst.toNat
          ((ks.map (leBytes 4)).flatten)) 3 []
        ∧ ks.length = n.toNat
        ∧ ∀ i, i < n.toNat → ((dst = src ∧ w = 4) ∨ dst.toNat + 4 * i + 4 ≤ src.toNat ∨ src.toNat + n.toNat * w ≤ dst.toNat + 4 * i) →
          ks[i]? = some (keyOf f.toNat ((valuesOf vb n.toNat w).getD i 0)))
    ∧ (∀ p n keys dst, stack [p, n, keys, dst] → good n → arrayOk keys (n.toNat * 4) 4 = true → arrayOk dst 1024 4 = true →
      s.localBytes id .sx keys.toNat (n.toNat * 4) = some kb →
      exec (.hist d f) s = ends (s.storeLocalBlock id .sx dst.toNat
        (((histogram d.toNat p.toNat (valuesOf kb n.toNat 4)).map (leBytes 4)).flatten)) 4 [])
    ∧ (∀ k n keys, stack [k, n, keys] → good n → arrayOk keys (n.toNat * 4) 4 = true →
      s.localBytes id .sx keys.toNat (n.toNat * 4) = some kb →
      exec (.selk f) s = ends s 3 [selOf (valuesOf kb n.toNat 4) (min k.toNat n.toNat)])
    ∧ (∀ p n keys vals, stack [p, n, keys, vals] → good n → arrayOk keys (n.toNat * 4) 4 = true →
      arrayOk vals (n.toNat * w) w = true → s.localBytes id .sx keys.toNat (n.toNat * 4) = some kb →
      s.localBytes id .sx vals.toNat (n.toNat * w) = some vb →
      exec (.selp f) s = ends s 4 [selOf (valuesOf kb n.toNat 4) (topP (p.toNat % 2 ^ 32)
        ((descending (valuesOf kb n.toNat 4)).map (fun k => valueFp32 f ((valuesOf vb n.toNat w).getD k.1 0))) 0 0)])
    ∧ (∀ pair n keys vals didx dval, stack [pair, n, keys, vals, didx, dval] → good n → arrayOk keys (n.toNat * 4) 4 = true →
      arrayOk vals (n.toNat * w) w = true → s.localBytes id .sx keys.toNat (n.toNat * 4) = some kb →
      s.localBytes id .sx vals.toNat (n.toNat * w) = some vb →
      let sel := selected (bits pair.toNat 32 32) (bits pair.toNat 0 32) (valuesOf kb n.toNat 4)
      arrayOk didx (sel.length * 4) 4 = true → arrayOk dval (sel.length * w) w = true →
      exec (.cmpk f) s = ends (s.storePairs id didx.toNat dval.toNat w (sel.map (fun i => (i, (valuesOf vb n.toNat w).getD i 0)))) 6
        [BitVec.ofNat 64 sel.length])

/-- What the select words compute (R284, R285): `Sel(m)` is the key at position m − 1 of the descending order with the number of its ties
taken; `cmpk` selects, in rising order, the elements above the key and its first ties; so it selects m elements of the pair
that `selk` gives for m; and a histogram counts every key once. -/
def Claim.SelectMeaning : Prop :=
  ∀ (ks : List Nat) (m : Nat), 1 ≤ m → m ≤ ks.length →
    (∃ t ∈ ks, above ks t < m ∧ m ≤ above ks t + equals ks t ∧ selOf ks m = BitVec.ofNat 64 (t * 2 ^ 32 + (m - above ks t))
      ∧ (selected t (m - above ks t) ks).length = m)
    ∧ selOf ks 0 = 0xFFFFFFFF00000000#64
    ∧ (∀ t need, List.Pairwise (· < ·) (selected t need ks))
    ∧ (∀ t need i, i ∈ selected t need ks ↔ ∃ k, ks[i]? = some k ∧ (t < k ∨ (k = t ∧ equals (ks.take i) t < need)))
    ∧ (∀ p, (histogram 0 p ks).sum = ks.length)

/-- The select words and what they compute (R283 to R286). -/
def Obligations.SelectUnit : Prop :=
  Claim.SelectWords ∧ Claim.SelectMeaning

/-! ### Vector words (R288 to R309) -/

/-- What a vector word of class V is: entries popped, its queue source, whether its result goes to q2, and what it does (R293, R295). -/
structure VectorForm where
  pops : Nat
  src : BitVec 2
  queue : Bool
  plan : EngRegs → List Word → Word → M VJob

/-- An elementwise word: its formats, number of sources and stack values, format of the result, and the value of an element. -/
def elementForm (k : VForms) (g : BitVec 3) (q : Bool) (s : BitVec 2) (srcs stack : Nat) (out : Nat → Nat)
    (f : Nat → List Nat → List Nat → Res) : VectorForm :=
  ⟨elementPops q s srcs stack, s, q, elementPlan k g q s srcs out f⟩

/-- The table of R298, with the formats of R295, and the reductions, scans, permutation, streams and softmax (R299, R303 to R306). -/
def vectorForm : Instr → Option VectorForm
  | .vadd g q s => some (elementForm formsArith g q s 2 0 same (fun f x _ => elemAdd f (arg x 0) (arg x 1)))
  | .vsub g q s => some (elementForm formsArith g q s 2 0 same (fun f x _ => elemSub f (arg x 0) (arg x 1)))
  | .vmul g q s => some (elementForm formsArith g q s 2 0 same (fun f x _ => elemMul f (arg x 0) (arg x 1)))
  | .vfma g q s => some (elementForm formsArith g q s 3 0 same (fun f x _ => elemFma f (arg x 0) (arg x 1) (arg x 2)))
  | .vmax g q s => some (elementForm formsArith g q s 2 0 same (fun f x _ => elemMax f (arg x 0) (arg x 1)))
  | .vmin g q s => some (elementForm formsArith g q s 2 0 same (fun f x _ => elemMin f (arg x 0) (arg x 1)))
  | .vabs g q s => some (elementForm formsArith g q s 1 0 same (fun f x _ => elemAbs f (arg x 0)))
  | .vneg g q s => some (elementForm formsArith g q s 1 0 same (fun f x _ => elemNeg f (arg x 0)))
  | .vclamp g q s =>
    some (elementForm formsArith g q s 1 2 same (fun f x st => elemClamp f (arg x 0) (arg st 0) (arg st 1)))
  | .vcmp g q s v => some (elementForm formsArith g q s 2 0 same (fun f x _ => elemCmp v.toNat f (arg x 0) (arg x 1)))
  | .vexp g q s => some (elementForm ⟨fmtF, true, true⟩ g q s 1 0 same (fun f x _ => elemExp f (arg x 0)))
  | .vlog g q s => some (elementForm ⟨fmtF, true, true⟩ g q s 1 0 same (fun f x _ => elemLog f (arg x 0)))
  | .vrcp g q s => some (elementForm ⟨fmt32, true, true⟩ g q s 1 0 same (fun _ x _ => rcp32 (arg x 0)))
  | .vrsq g q s => some (elementForm ⟨fmt32, true, true⟩ g q s 1 0 same (fun _ x _ => rsq32 (arg x 0)))
  | .vcvt g q s v => some (elementForm formsAny g q s 1 0 (fun _ => v.toNat) (fun f x _ => elemCvt f v.toNat (arg x 0)))
  | .vsel g q s => some (elementForm formsAny g q s 3 0 same (fun _ x _ => elemSel (arg x 0) (arg x 1) (arg x 2)))
  | .vand g q s => some (elementForm formsAny g q s 2 0 same (fun _ x _ => (arg x 0 &&& arg x 1, 0)))
  | .vor g q s => some (elementForm formsAny g q s 2 0 same (fun _ x _ => (arg x 0 ||| arg x 1, 0)))
  | .vxor g q s => some (elementForm formsAny g q s 2 0 same (fun _ x _ => (arg x 0 ^^^ arg x 1, 0)))
  | .vshl g q s => some (elementForm ⟨fmtI, true, true⟩ g q s 2 0 same (fun f x _ => elemShl f (arg x 0) (arg x 1)))
  | .vshr g q s v =>
    some (elementForm ⟨fmtI, true, true⟩ g q s 2 0 same (fun f x _ => elemShr (v = 1#3) f (arg x 0) (arg x 1)))
  | .vmov g q s => some (elementForm formsAny g q s 1 0 same (fun _ x _ => (arg x 0, 0)))
  | .vbc g q s =>
    some (if s = 0#2 then elementForm formsAny g q s 0 1 same (fun _ _ st => (arg st 0, 0))
      else elementForm formsAny g q s 1 0 same (fun _ x _ => (arg x 0, 0)))
  | .vred g q s v => some ⟨popsOf q 1 0, s, q, planVred g q s v⟩
  | .vscan g q s v => some ⟨popsOf q 1 0, s, q, planVscan g q s v⟩
  | .vperm g q s => some ⟨popsOf q (if s = 0#2 then 2 else 1) 0, s, q, planVperm g q s⟩
  | .vsoft g q s => some ⟨popsOf q 1 0, s, q, planVsoft g q s⟩
  | .vbsr g q s => some ⟨popsOf q 0 2, s, q, planVbsr g q s⟩
  | _ => none

/-- The value of an element of a local region, if its bytes can be read. -/
def elemValue (s : State) (x : ElemRef) : Option Nat :=
  (s.localBytes s.cur.bid .vx (elemLocal x) (elemBytes x.nib)).map (fun bs =>
    if x.nib = 1 then nibbleOf (leNat bs) (x.reg.offset 1 x.i).2 else leNat bs)

/-- One result written to an element of a local region; its flags are raised in k15 (R289, R296, R309). -/
def putElem (reg : Region) (nib : Nat) (s : State) (w : Nat × Nat × Nat) : State :=
  let x : ElemRef := ⟨reg, nib, w.1⟩
  let bs := if nib = 1 then
      leBytes 1 (withNibble (s.latest s.cur.bid (localPa (coreOf s.cur.bid) (elemLocal x))) (reg.offset 1 w.1).2 w.2.1)
    else leBytes (nib / 2) w.2.1
  let t := s.storeLocalBlock s.cur.bid .vx (elemLocal x) bs
  if w.2.2 = 0 then t else t.modBank s.cur.bid (fun b => b.modEngine .vx (·.modRegs (fun r =>
    { r with k := r.k.set 15 (r.k[15] ||| BitVec.ofNat 16 w.2.2) })))

/-- The element at a place of a handle region as it is read there: the value, and the state after the translation. -/
def elemAt (s : State) (x : ElemRef) : Option (Nat × State) :=
  match (elemPlace x accR).run s with
  | .ok p t => (t.readable s.cur.bid (some .vx) p.pa (elemBytes x.nib)).map (fun bs =>
      (if x.nib = 1 then nibbleOf (leNat bs) (x.reg.offset 1 x.i).2 else leNat bs, t))
  | .error _ _ => none

/-- Elements read one after the other, of local and of handle regions (R309): their values and the state behind them, where each can be
read. -/
def elemsRead : List ElemRef → State → Option (List Nat × State)
  | [], s => some ([], s)
  | x :: xs, s => do
    let (v, t) ← if x.reg.handle then elemAt s x else (elemValue s x).map (·, s)
    let (vs, u) ← elemsRead xs t
    return (v :: vs, u)

/-- One result written to an element of a handle region, where it translates; a nibble leaves the other nibble of its byte (R309). -/
def putAt (reg : Region) (nib : Nat) (s : State) (w : Nat × Nat × Nat) : Option State :=
  let x : ElemRef := ⟨reg, nib, w.1⟩
  match (elemPlace x accW).run s with
  | .ok p t =>
    let bs := if nib = 1 then leBytes 1 (withNibble (t.latest s.cur.bid p.pa) (reg.offset 1 w.1).2 w.2.1) else leBytes (nib / 2) w.2.1
    let u := t.storeAt s.cur.bid (some .vx) p bs
    some (if w.2.2 = 0 then u else u.modBank s.cur.bid (fun b => b.modEngine .vx (·.modRegs (fun r =>
      { r with k := r.k.set 15 (r.k[15] ||| BitVec.ofNat 16 w.2.2) }))))
  | .error _ _ => none

/-- Results written one after the other, to a local or to a handle region (R309). -/
def elemsPut (reg : Region) (nib : Nat) : List (Nat × Nat × Nat) → State → Option State
  | [], s => some s
  | w :: ws, s => do elemsPut reg nib ws (← if reg.handle then putAt reg nib s w else some (putElem reg nib s w))

/-- The state in which a vector word has popped its operands and its queue operand. -/
def vectorPopped (c : VectorForm) (s : State) : State :=
  s.modBank s.cur.bid (fun b =>
    let b := b.modEngine .vx (·.modRegs (fun r => { r with pstack := r.pstack.drop c.pops }))
    if c.src = 0#2 then b else b.takeElem .vx (sourceQueue c.src))

/-- A vector word of class V, on local regions and on handle regions, completes where its operands pass its checks, its queue operand has
been compared, q2 has room, and its elements can be read and written: it pops, reads every on element, and then writes every result, each
flag with its element; or pushes one element to q2 (R289, R293 to R296, R309). `vs` is the queue operand, `v1` the values of the elements
read first, `v2` of those that depend on them. That all reads come before the writes is stated of handle regions; of local regions it is
the model's reading (log 32). -/
def Obligations.VectorWordsComplete : Prop :=
  ∀ (s u1 u2 t : State) (i : Instr) (c : VectorForm) (job job0 : VJob) (vs : Word) (v1 v2 : List Nat), s.cur.eng = some .vx →
    (s.own.engine .vx).stopped = none → vectorForm i = some c →
    let id := s.cur.bid
    let r := s.ownRegs .vx
    let ops := r.pstack.take c.pops
    c.pops ≤ r.pstack.length → r.pstack.length ≤ 8 + c.pops →
    (∀ t, (c.plan r ops 0).run t = .ok job0 t) → (∀ t, (c.plan r ops vs).run t = .ok job t) →
    (c.src = 0#2 → vs = 0#64) →
    (c.src ≠ 0#2 → ∃ x rest, s.own.queueOf (sourceQueue c.src) = x :: rest ∧ x.value = vs
      ∧ x.bad = false ∧ PMap.get 0 (s.own.engine .vx).checked (sourceQueue c.src).toNat ≠ 0) →
    (c.queue = true → s.handleBank id = id → (s.own.queueOf 2#3).length < 32) →
    elemsRead (job.reads []) (vectorPopped c s) = some (v1, u1) → elemsRead ((job.reads v1).drop v1.length) u1 = some (v2, u2) →
    elemsPut job.dst job.nib (job.writes (v1 ++ v2))
      (u2.modBank id (fun b => b.modEngine .vx (·.modRegs (job.regs (v1 ++ v2))))) = some t →
    (job.push (v1 ++ v2) = none → exec i s = .next (t.flow id .vx .next))
    ∧ (∀ v ok g, job.push (v1 ++ v2) = some (v, ok, g) →
      let w := if g = 0 then t else t.modBank id (fun b => b.modEngine .vx (·.modRegs (fun r =>
        { r with k := r.k.set 15 (r.k[15] ||| BitVec.ofNat 16 g) })))
      exec i s = .next ((if s.handleBank id = id
        then w.modBank id (fun b => b.pushElem 2#3 ⟨BitVec.ofNat 64 v, ok, (b.engine .vx).phase, false⟩) else w).flow id .vx .next))

/-- The elements an elementwise word writes: with a region destination every on element below its count, once, in rising order, and no
other; with a queue destination none, and one push of element 0, or the merge value where it is off (R292 to R295). -/
def Claim.ElementsWritten : Prop :=
  ∀ (s t : State) (k : VForms) (g : BitVec 3) (q : Bool) (v0 : BitVec 2) (srcs : Nat) (out : Nat → Nat)
    (f : Nat → List Nat → List Nat → Res) (r : EngRegs) (ops : List Word) (v : Word) (job : VJob) (vals : List Nat),
    (elementPlan k g q v0 srcs out f r ops v).run s = .ok job t →
    t = s
    ∧ (q = false → (job.writes vals).map (·.1) = (List.range job.dst.count).filter (r.on g) ∧ job.push vals = none
      ∧ job.dst = r.region (ops.getD 0 0).toNat ∧ job.dst.count ≠ 0)
    ∧ (q = true → job.writes vals = [] ∧ (r.on g 0 = false → job.push vals = some (0, false, 0))
      ∧ (r.on g 0 = true → ∃ x h, job.push vals = some (x, true, h)))

/-- Stage predicates (R292): under pg0 every element is on; under another those below its limit whose pattern bit is 1. -/
def Claim.StagePredicates : Prop :=
  ∀ (r : EngRegs) (g : BitVec 3) (i : Nat),
    r.on 0#3 i = true ∧ (g ≠ 0#3 → (r.on g i = true ↔ i < (r.pg[g.toFin]).limit.toNat
      ∧ (r.pg[g.toFin]).pattern.getLsbD (i % 16) = true))

/-- Which elements an elementwise word writes (R292 to R295). -/
def Obligations.ElementwiseWrites : Prop :=
  Claim.ElementsWritten ∧ Claim.StagePredicates

/-- The range of an integer format, int8 or int32 (R209). -/
def saturatesTo (n : Nat) (v : Int) (r : Res) : Prop :=
  (v < -(2 ^ (n - 1) : Int) → signedOf n r.1 = -(2 ^ (n - 1) : Int) ∧ r.2 = flagOF)
  ∧ ((2 ^ (n - 1) : Int) ≤ v → signedOf n r.1 = (2 ^ (n - 1) : Int) - 1 ∧ r.2 = flagOF)
  ∧ (-(2 ^ (n - 1) : Int) ≤ v → v < (2 ^ (n - 1) : Int) → signedOf n r.1 = v ∧ r.2 = 0)

/-- Integer arithmetic of the vector engine, in int8 (code 5) and int32 (code 6): the exact result, saturated with OF (R297, R298). -/
def Obligations.IntegerElements : Prop :=
  ∀ f n : Nat, (f = 5 ∧ n = 8) ∨ (f = 6 ∧ n = 32) → ∀ a b c : Nat, a < 2 ^ n → b < 2 ^ n → c < 2 ^ n →
    let v := signedOf n
    saturatesTo n (v a + v b) (elemAdd f a b) ∧ saturatesTo n (v a - v b) (elemSub f a b)
    ∧ saturatesTo n (v a * v b) (elemMul f a b) ∧ saturatesTo n (v a * v b + v c) (elemFma f a b c)
    ∧ saturatesTo n (max (v a) (v b)) (elemMax f a b) ∧ saturatesTo n (min (v a) (v b)) (elemMin f a b)
    ∧ saturatesTo n (v a).natAbs (elemAbs f a) ∧ saturatesTo n (-v a) (elemNeg f a)
    ∧ saturatesTo n (min (max (v a) (v b)) (v c)) (elemClamp f a b c)
    ∧ (elemShl f a b = (if n ≤ b then 0 else a * 2 ^ b % 2 ^ n, 0))
    ∧ (elemShr false f a b = (if n ≤ b then 0 else a / 2 ^ b, 0))
    ∧ (signedOf n (elemShr true f a b).1 = v a / 2 ^ (min b n) ∧ (elemShr true f a b).2 = 0)

/-- `vstub` completes with its element off: it pops, and pushes the merge value to q2 or leaves its destination; and with its element
on where its context, its tables and its regions can be read: the marks and the result are written, or, where a stub exceeds the
threshold and none of its pins excuse it, the context fault is taken (R110, R115, R116, R307). From its first execution on it keeps its
operands, and no progress; one that has stopped is executed again with them (R180). -/
def Claim.VstubCompletes : Prop :=
  ∀ (s j1 j2 j3 : State) (g : BitVec 3) (q : Bool) (v0 : BitVec 2) (dst : Option Region) (qr sr : Region) (j : StubJob)
    (ws : List (Place × Nat)), s.cur.eng = some .vx →
    let id := s.cur.bid
    let r := s.ownRegs .vx
    let st := (s.own.engine .vx).stopped
    let pops := popsOf q 2 2
    let ops := match st with | some x => x.ops | none => r.pstack.take pops
    let k := if q then 0 else 1
    let popped := s.modBank id (fun b => b.modEngine .vx (·.modRegs (fun r => { r with pstack := r.pstack.drop pops })))
    let kept := match st with
      | some _ => s
      | none => popped.modBank id (fun b => b.modEngine .vx (fun g =>
          { g with stopped := some { ops := ops, done := 0, vals := [], mul := none, began := s.ticks, waiter := none } }))
    (st = none → pops ≤ r.pstack.length ∧ r.pstack.length ≤ 8 + pops) → (stubRegions r q v0 ops).run s = .ok (dst, qr, sr) s →
    (q = true → s.handleBank id = id → (s.own.queueOf 2#3).length < 32) →
    (r.on g 0 = false →
      exec (.vstub g q v0) s = .next (((if q = true ∧ s.handleBank id = id
        then kept.modBank id (fun b => b.pushElem 2#3 ⟨0#64, false, (b.engine .vx).phase, false⟩) else kept)).flow id .vx .next))
    ∧ (r.on g 0 = true →
      (∀ t, (stubJudge (ops.getD (k + 2) 0).toNat (ops.getD (k + 3) 0).toNat qr sr).run kept = .error .wait t →
        exec (.vstub g q v0) s = .next t)
      ∧ ((stubJudge (ops.getD (k + 2) 0).toNat (ops.getD (k + 3) 0).toNat qr sr).run kept = .ok j j1 → j1.cur = s.cur →
      (j.fault = none → (stubPlaces j dst).run j1 = .ok ws j2 → j2.cur = s.cur → (stubResult j dst ws).run j2 = .ok () j3 →
        exec (.vstub g q v0) s = .next (j3.flow id .vx .next))
      ∧ (∀ x, j.fault = some x → (contextFault j.c j.t x.1 x.2 j.total).run j1 = .ok .more j2 →
        exec (.vstub g q v0) s = .next (j2.flow id .vx .more))))

/-- The context fault of a `vstub` (R111, R112, R116 steps 2 to 5): it counts depth and nfault, takes the next pin entry as unset, writes the
record of the stub at head and moves head on, which the control core of the trap acquires (log 94); then each member discards what step 4
names, and the trap is due at the control core of the bank, or of the gang's leader. With nothing left to drain the fault is settled at
once. -/
def Claim.ContextFaultTaken : Prop :=
  ∀ (s t u : State) (c : Context) (tag : StubTag) (stub e total : Nat) (ws : List (Place × Nat)),
    let fw := faultWords c tag stub (div32 e total)
    let rc := c.word 3 + 64 + 32 * (c.head % 2 ^ c.logcap)
    let v := fun i => (fw.getD i (0, 0)).2
    let x := ws.foldl (fun s w => s.storeAt u.cur.bid (some .vx) w.1 (leBytes 8 w.2)) u
    let lead := x.handleBank x.cur.bid
    let y := x.modBank lead (fun b => { b with dom := joinAll b.dom (domainLines ws x.window) })
    fw.map (·.1) = [c.va + 72, c.va + 64, rc, rc + 8, rc + 16, rc + 24, c.word 3 + 8]
    ∧ (c.depth ≤ 3 → bits (v 0) 0 8 = c.depth + 1 ∧ bits (v 0) 8 32 = (c.nfault + 1) % 2 ^ 32
      ∧ bits (v 1) (16 * c.depth) 16 = 0xFFFF
      ∧ (∀ j, j < 4 → j ≠ c.depth → bits (v 1) (16 * j) 16 = bits (c.word 8) (16 * j) 16))
    ∧ v 2 = c.va
    ∧ (c.depth ≤ 3 → tag.layer < 2 ^ 16 → tag.tok < 2 ^ 8 → tag.head < 2 ^ 16 → stub < 2 ^ 16 →
      bits (v 3) 48 16 = tag.layer ∧ bits (v 3) 40 8 = tag.tok ∧ bits (v 3) 32 8 = c.depth + 1 ∧ bits (v 3) 16 16 = stub
      ∧ bits (v 3) 0 16 = tag.head)
    ∧ v 4 = div32 e total * 2 ^ 32 ∧ v 5 = 0 ∧ v 6 = (c.head + 1) % 2 ^ 64
    ∧ ((placeWords fw).run s = .ok ws t → settleForFault.run t = .ok () u →
      (contextFault c tag stub e total).run s = .ok .more (State.gcFaults ((y.members lead).foldl (fun y m =>
        y.modBank m (·.contextDiscard y.ticks y.window (if m = lead then some c.va else none))) y)))
    ∧ (t.atRest t.cur.bid (some .vx) → (t.bank t.cur.bid).saving = none → t.ready t.cur.bid = true →
      (∀ m ∈ t.members t.cur.bid, (t.bank m).committed = ((t.bank m).engine .vx).phase) → ∃ v, settleForFault.run t = .ok () v ∧ Alike t v)

/-- What a context fault leaves of a member's bank (R116 step 4): the hardware loops, stacks, pending deadlines and ring fills of its engines
are cleared, every ring head is at its tail, the accumulators are undefined, and every other register of an engine stands (log 63:
the return stacks are cleared too); queues, tokens, commands and held bytes are discarded, issued copy words read as complete, every
armed rendezvous is unarmed, every engine stands in the phase after the last committed one, and the rest of the control core's
registers keep their values; the core that takes the trap waits on no fault any more (log 94). -/
def Claim.ContextDiscard : Prop :=
  ∀ (b : Bank) (ticks window : Nat) (ctx : Option Nat),
    let c := b.contextDiscard ticks window ctx
    c.ctxDue = ctx ∧ c.waiter = (if ctx.isSome then none else b.waiter) ∧ c.phase = b.committed ∧ c.committed = b.committed ∧ c.held = [] ∧ c.flights = [] ∧ (∀ q, c.queueOf q = [])
    ∧ (∀ e o, c.tokens e o = []) ∧ c.core = { b.core with rv := c.core.rv }
    ∧ (∀ i : Fin 8, c.core.rv[i].mask = b.core.rv[i].mask ∧ c.core.rv[i].n = b.core.rv[i].n
      ∧ c.core.rv[i].state = (if b.core.rv[i].state = .armed then .unarmed else b.core.rv[i].state))
    ∧ (∀ f ∈ b.flights, ∀ p, b.prom f.n = some p → c.prom f.n = some { p with state := .complete })
    ∧ (∀ e, (c.engine e).queue = [] ∧ (c.engine e).entry = none ∧ (c.engine e).stopped = none ∧ (c.engine e).phase = b.committed
      ∧ (let r := (b.engine e).regs
         let r' := (c.engine e).regs
         r' = { r with upc := none, rstack := [], pstack := [], loops := Vector.replicate 3 LoopReg.init, deadline := 0#64,
                       rings := r'.rings, acc0 := ⟨[], some ticks⟩, acc1 := ⟨[], some ticks⟩ }
         ∧ ∀ i : Fin 4, r'.rings[i] = { r.rings[i] with head := r.rings[i].tail, full := [], reserved := 0 }))

/-- `vstub` and the context fault (R110, R115, R116, R121, R122, R180, R307). -/
def Obligations.ContextUnit : Prop :=
  Claim.VstubCompletes ∧ Claim.ContextFaultTaken ∧ Claim.ContextDiscard

/-- Region registers and stage predicates (R290 to R292): `dset` takes geom and base from the stack where their fields are good, else ends
the nest; `dget` pushes them; `rot d` turns d16 to d31 and shifts the predicates; `pgs` sets one; a stream's cursors are reset where
a register of its pair is written (R299). -/
def Claim.RegionWords : Prop :=
  ∀ (s : State), s.cur.eng = some .vx →
    let r := s.ownRegs .vx
    let ends := fun (f : EngRegs → EngRegs) => s.wordEnds .vx f .next
    let bad := s.faultEnd s.cur.bid .vx 0x10
    (∀ n g b rest, r.pstack = g :: b :: rest → rest.length ≤ 8 →
      let good := bits g.toNat 48 15 = 0 ∧ bits g.toNat 0 16 ≠ 0 ∧ bits b.toNat 0 8 = 0 ∧ (bit g.toNat 63 = false → bits b.toNat 26 38 = 0)
      (good → exec (.dset n) s = .next (ends (fun r =>
        EngRegs.bsrReset { r with pstack := r.pstack.drop 2, regions := r.regions.set n.toFin ⟨b, g⟩ } (· = n.toNat))))
      ∧ (¬ good → exec (.dset n) s = .next bad))
    ∧ (∀ n, r.pstack.length ≤ 6 → exec (.dget n) s = .next (ends (fun r =>
        { r with pstack := (r.regions[n.toFin]).geom :: (r.regions[n.toFin]).base :: r.pstack })))
    ∧ exec .rotD s = .next (ends (fun r => r.rotate.bsrReset (16 ≤ ·)))
    ∧ (∀ n l p rest, r.pstack = l :: p :: rest → rest.length ≤ 8 →
      (l.toNat ≤ 65535 → exec (.pgs n) s = .next (ends (fun r =>
        { r with pstack := r.pstack.drop 2, pg := r.pg.set n.toFin ⟨p.setWidth 16, l.setWidth 16⟩ })))
      ∧ (65535 < l.toNat → exec (.pgs n) s = .next bad))
    ∧ (∀ n, (encodeWord (.dset n)).toNat = 0x6200 + n.toNat ∧ (encodeWord (.dget n)).toNat = 0x6400 + n.toNat)
    ∧ encodeWord .rotD = 0x0A01#16 ∧ (∀ n, (encodeWord (.pgs n)).toNat = 0x6600 + n.toNat)

/-- What `rot d` does (R291): new d(16 + ((i + 1) mod 16)) is old d(16 + i), d0 to d15 stay, pg2 to pg7 take their lower neighbour, pg1
stays. -/
def Claim.RegionRotation : Prop :=
  ∀ (r : EngRegs),
    (∀ i, i < 16 → r.rotate.region (16 + (i + 1) % 16) = r.region (16 + i) ∧ r.rotate.region i = r.region i)
    ∧ (∀ j : Fin 8, 2 ≤ j.val → r.rotate.pg[j] = r.pg[j.val - 1]) ∧ r.rotate.pg[(1 : Fin 8)] = r.pg[(1 : Fin 8)]
    ∧ r.rotate = { r with regions := r.rotate.regions, pg := r.rotate.pg }

/-- Region registers, their rotation and stage predicates (R290 to R292). -/
def Obligations.Regions : Prop :=
  Claim.RegionWords ∧ Claim.RegionRotation

/-- The K words (R308): two-register words, bits, counts, and loads and stores of a mask register; a limit that is broken ends the nest. -/
def Obligations.MaskWords : Prop :=
  ∀ (s : State) (d a : BitVec 4), s.cur.eng = some .vx →
    let r := s.ownRegs .vx
    let x := r.k[d.toFin]
    let y := r.k[a.toFin]
    let sets := fun (n : Nat) (push : List Word) (v : Half) =>
      s.wordEnds .vx (fun r => { r with pstack := push ++ r.pstack.drop n, k := r.k.set d.toFin v }) .next
    let pushes := fun (n : Nat) (v : Word) => s.wordEnds .vx (fun r => { r with pstack := v :: r.pstack.drop n }) .next
    let bad := s.faultEnd s.cur.bid .vx 0x10
    exec (.kor d a) s = .next (sets 0 [] (x ||| y)) ∧ exec (.kand d a) s = .next (sets 0 [] (x &&& y))
    ∧ exec (.kxor d a) s = .next (sets 0 [] (x ^^^ y)) ∧ exec (.knot d a) s = .next (sets 0 [] (~~~ y))
    ∧ (r.pstack.length < 8 → exec (.kpop d) s = .next (pushes 0 (BitVec.ofNat 64 (popCount x.toNat)))
      ∧ exec (.kget d) s = .next (pushes 0 (x.setWidth 64)))
    ∧ (∀ v rest, r.pstack = v :: rest → rest.length < 8 →
      exec (.kset d) s = .next (sets 1 [] (v.setWidth 16))
      ∧ (v.toNat ≤ 15 → exec (.kbitTst d) s = .next (pushes 1 (if x.getLsbD v.toNat then 1#64 else 0#64))
        ∧ exec (.kbitSet d) s = .next (sets 1 [] (x ||| BitVec.twoPow 16 v.toNat))
        ∧ exec (.kbitClr d) s = .next (sets 1 [] (x &&& ~~~ BitVec.twoPow 16 v.toNat)))
      ∧ (15 < v.toNat → exec (.kbitTst d) s = .next bad ∧ exec (.kbitSet d) s = .next bad ∧ exec (.kbitClr d) s = .next bad)
      ∧ (v.toNat < 2 ^ 26 → v.toNat % 2 = 0 → localOk true v.toNat 2 = true →
        (∀ bs, s.localBytes s.cur.bid .vx v.toNat 2 = some bs →
          exec (.kld d) s = .next (sets 1 [] (BitVec.ofNat 16 (leNat bs))))
        ∧ exec (.kst d) s = .next (((s.modBank s.cur.bid (fun b => b.modEngine .vx (·.modRegs (fun r =>
            { r with pstack := r.pstack.drop 1 })))).storeLocalBlock s.cur.bid .vx v.toNat (leBytes 2 x.toNat)).flow s.cur.bid .vx .next))
      ∧ ((2 ^ 26 ≤ v.toNat ∨ v.toNat % 2 ≠ 0 ∨ localOk true v.toNat 2 = false) →
        exec (.kld d) s = .next bad ∧ exec (.kst d) s = .next bad))
    ∧ [Instr.kld d, .kst d, .kbitTst d, .kbitSet d, .kbitClr d, .kpop d, .kget d, .kset d].map (fun i => (encodeWord i).toNat)
      = [0x6800, 0x6A00, 0x7400, 0x7401, 0x7402, 0x7600, 0x7800, 0x7A00].map (· + 16 * d.toNat)
    ∧ [Instr.kor d a, .kand d a, .kxor d a, .knot d a].map (fun i => (encodeWord i).toNat)
      = [0x6C00, 0x6E00, 0x7000, 0x7200].map (· + 16 * d.toNat + a.toNat)

/-! ### Matrix words and the draw unit (R211 to R216, R313 to R331) -/

/-- The three multiply words. -/
def multiplyWord (k : MulKind) (r c : BitVec 2) (b : Bool) (f : BitVec 4) (l : BitVec 2) : Instr :=
  match k with
  | .mm => .mm r c b f l
  | .mml => .mml r c b f l
  | .mmm => .mmm r c b f l

/-- The checks of R318. -/
def multiplyOk (k : MulKind) (r : EngRegs) (x : FmtEntry) (a b : Ring) (kk n m : Nat) : Prop :=
  1 ≤ m ∧ m ≤ 96 ∧ 1 ≤ n ∧ n ≤ 96 ∧ 1 ≤ kk ∧ kk ≤ 65535 ∧ (k = .mmm → r.mask ≠ none) ∧ formatsOk (k = .mml) x = true
    ∧ planeOk x.a x.ascl a.slots = true ∧ planeOk x.b x.bscl b.slots = true
    ∧ kk % (if k = .mml then 4 else fmtClass x.a) = 0 ∧ a.slots ≠ 0 ∧ b.slots ≠ 0 ∧ footprint x.a ≤ a.size * 256 ∧ footprint x.b ≤ b.size * 256

/-- A tile of an accumulator bank of the bank in execution has no poisoned element (R351). -/
def tileClean (s : State) (bid : Nat) (b : Bool) (m n : Nat) : Prop := (s.bank bid).marks.any (Mark.inTile b m n) = false

/-- A multiply word that passes its checks begins: it pops k, n and m, keeps the format entry it was issued with, and starts the elements
of its tile; it goes on with a slot pair a turn (R214, R318, R319). -/
def Claim.MultiplyBegins : Prop :=
  ∀ (s : State) (kind : MulKind) (r c : BitVec 2) (b : Bool) (f : BitVec 4) (l : BitVec 2) (kk n m : Word) (rest : List Word),
    s.cur.eng = some .mx → (s.own.engine .mx).stopped = none → (s.ownRegs .mx).pstack = kk :: n :: m :: rest → rest.length ≤ 8 →
    let id := s.cur.bid
    let regs := s.ownRegs .mx
    let take := regs.maskOf kind
    let v := regs.selectFmt f l
    multiplyOk kind regs (fmtEntry v) regs.rings[ringA r] regs.rings[ringB r] kk.toNat n.toNat m.toNat →
    ((c = 1#2 ∨ c = 2#2) → tileClean s id b m.toNat n.toNat) →
    exec (multiplyWord kind r c b f l) s = .next ((s.modBank id (fun bk =>
      (if c = 3#2 then bk else bk.clearTile b m.toNat n.toNat).modEngine .mx (fun g =>
      { g.modRegs (fun q =>
          let q := { q with pstack := q.pstack.drop 3 }
          if c = 3#2 then q else q.setAcc b ((q.acc b).mapTile id (b2n b) m.toNat n.toNat (fun i j v =>
            startElement c (regs.gamma b).toNat (take i j) v))) with
        stopped := some { ops := [kk, n, m], done := 0, vals := [], began := s.beganAt id (some .mx), waiter := none,
                          mul := some { kind := kind, rings := r, start := c, bank := b, entry := v } } }))).flow id .mx .more)

/-- A multiply word under way adds one slot pair and pops both head slots, once both rings hold a filled slot; with its last pair it
completes. It waits while a ring is empty. What a later phase has filled a slot with is seen (R133, R153). Under `hold` the accumulators are
unchanged. Its format is the entry it was issued with
(R214, R315, R319, R321). -/
def Claim.MultiplyPairs : Prop :=
  ∀ (s : State) (kind : MulKind) (r c : BitVec 2) (b : Bool) (f : BitVec 4) (l : BitVec 2) (kk n m : Word) (st : Stopped) (j : MulJob)
    (rows cols : List (List MxElem)),
    s.cur.eng = some .mx → (s.own.engine .mx).stopped = some st → st.ops = [kk, n, m] → st.mul = some j →
    let id := s.cur.bid
    let regs := s.ownRegs .mx
    let x := fmtEntry j.entry
    let a := regs.rings[ringA j.rings]
    let q := regs.rings[ringB j.rings]
    let now := min 96 (kk.toNat - 96 * st.done)
    let gs := if j.kind = .mml then 4 else fmtClass x.a
    let t := s.modBank id (fun bk => bk.modEngine .mx (fun g => { g.modRegs (fun rg =>
      let rg := if j.start = 3#2 then rg else rg.setAcc j.bank ((rg.acc j.bank).mapTile id (b2n j.bank) m.toNat n.toNat (fun i k v =>
        if regs.maskOf j.kind i k then addPair gs rows cols i k v else v))
      (rg.onRing (ringA j.rings) Ring.pop).onRing (ringB j.rings) Ring.pop) with stopped := some { st with done := st.done + 1 } }))
    ((a.filled = 0 ∨ q.filled = 0) → exec (multiplyWord kind r c b f l) s = .next s)
    ∧ (a.filled ≠ 0 → q.filled ≠ 0 →
      (j.start ≠ 3#2 → tileClean s id j.bank m.toNat n.toNat
        ∧ (∃ v, (loadA id x.a (a.slotAt a.head) (x.ascl * 256 + a.head * scalePlaneSlot) m.toNat now).run (s.slotView id a) = .ok rows v)
        ∧ ∃ v, (loadB id x.b (q.slotAt q.head) (x.bscl * 256 + q.head * scalePlaneSlot) n.toNat now).run (s.slotView id q) = .ok cols v) →
      exec (multiplyWord kind r c b f l) s = .next (t.flow id .mx (if kk.toNat ≤ 96 * (st.done + 1) then .next else .more)))

/-- Elements outside a tile of m rows and n columns keep their values, and those inside take the value given, in an accumulator bank
(R319). -/
def Claim.TileFrame : Prop :=
  ∀ (a : Acc) (bid bank m n : Nat) (f : Nat → Nat → Nat → Nat), m ≤ 96 → n ≤ 96 → ∀ i j, i < 96 → j < 96 →
    (a.mapTile bid bank m n f).get bid bank (accIx i j) = if i < m ∧ j < n
      then BitVec.ofNat 32 (f i j (a.get bid bank (accIx i j)).toNat) else a.get bid bank (accIx i j)

/-- The multiply words (R211 to R216, R318 to R321). -/
def Obligations.Multiply : Prop :=
  Claim.MultiplyBegins ∧ Claim.MultiplyPairs ∧ Claim.TileFrame

/-- The accumulator, table and ring words (R213, R313, R314, R324): `accz` clears a bank, `accg` sets its γ, `fte` sets a format entry whose
reserved bits are 0, `rng` configures a ring where its operands are in range, once no copy word into it is under way. -/
def Claim.MatrixRegisters : Prop :=
  ∀ (s : State) (b : Bool), s.cur.eng = some .mx →
    let r := s.ownRegs .mx
    let ends := fun (f : EngRegs → EngRegs) => s.wordEnds .mx f .next
    let bad := s.faultEnd s.cur.bid .mx 0x10
    exec (.accz b) s = .next ((s.modBank s.cur.bid (·.clearTile b 96 96)).wordEnds .mx (fun r => r.setAcc b Acc.init) .next)
    ∧ (∀ v rest, r.pstack = v :: rest → rest.length ≤ 8 →
      exec (.accg b) s = .next (ends (fun r => if b then { r with pstack := r.pstack.drop 1, gamma1 := v.setWidth 32 }
        else { r with pstack := r.pstack.drop 1, gamma0 := v.setWidth 32 }))
      ∧ (∀ n, (bits v.toNat 46 10 = 0 ∧ bits v.toNat 14 18 = 0 → exec (.fte n) s
          = .next (ends (fun r => { r with pstack := r.pstack.drop 1, ftab := r.ftab.set n.toFin v })))
        ∧ (bits v.toNat 46 10 ≠ 0 ∨ bits v.toNat 14 18 ≠ 0 → exec (.fte n) s = .next bad)))
    ∧ (∀ g z n a rest, r.pstack = z :: n :: a :: rest → rest.length ≤ 8 →
      let good := 1 ≤ z.toNat ∧ 1 ≤ n.toNat ∧ n.toNat ≤ 255 ∧ a.toNat + n.toNat * z.toNat ≤ 12288
      (good → s.own.ringBusy g.toNat = false → exec (.rng g) s = .next (ends (fun r => EngRegs.onRing { r with pstack := r.pstack.drop 3 }
        g.toFin (fun _ => { Ring.init with base := a.toNat, size := z.toNat, slots := n.toNat }))))
      ∧ (good → s.own.ringBusy g.toNat = true → exec (.rng g) s = .next s)
      ∧ (¬ good → exec (.rng g) s = .next bad))

/-- `mpb` and `acco` complete where the handle's page passes its checks: a good mask block becomes the mask; every piece of every row of
the accumulator bank is stored, converted (R322, R325). -/
def Claim.MatrixMemory : Prop :=
  ∀ (s t u w : State) (a st h : Word) (rest : List Word) (p1 p2 : Place) (lo hi : List Byte) (b : Bool) (f : BitVec 4),
    s.cur.eng = some .mx → (s.own.engine .mx).stopped = none →
    let id := s.cur.bid
    let vers := ((s.own.engine .mx).entry.map (·.vers)).getD []
    let ver := fun (x : Word) => vers[(haddrPh x).toNat]?
    let popped := fun (n : Nat) => s.modBank id (fun bk => bk.modEngine .mx (·.modRegs (fun r => { r with pstack := r.pstack.drop n })))
    ((s.ownRegs .mx).pstack = a :: rest → rest.length ≤ 8 → haddrOff a % 128 = 0 →
      (handlePlace id (some .mx) (haddrPh a) (ver a) (haddrOff a) 64 accR 0).run (popped 1) = .ok p1 t →
      t.readable id (some .mx) p1.pa 64 = some lo → t.cur = s.cur →
      (handlePlace id (some .mx) (haddrPh a) (ver a) (haddrOff a + 64) 64 accR 0).run t = .ok p2 u →
      u.readable id (some .mx) p2.pa 64 = some hi → u.cur = s.cur → maskBad (lo ++ hi) = false →
      exec .mpb s = .next ((u.modBank id (fun bk => bk.modEngine .mx (·.modRegs (fun r => { r with mask := some (lo ++ hi) })))).flow
        id .mx .next))
    ∧ ((s.ownRegs .mx).pstack = st :: h :: rest → rest.length ≤ 8 → st.toNat < 2 ^ 32 → tileClean s id b 96 96 →
      let e := codeBits f.toNat / 8
      let p := s.rank id
      (accoWrites h vers [st, h] 0 (accoRequests ((s.ownRegs .mx).acc b) id (b2n b) f.toNat st.toNat
        (p / 4 * 96 * st.toNat + p % 4 * 96 * e) (haddrOff h))).run (popped 2) = .ok () w → w.cur = s.cur →
      exec (.acco b f) s = .next (w.flow id .mx .next))

/-- The words that set, load and store the state of the matrix engine (R213, R313, R314, R322, R324, R325). -/
def Obligations.MatrixState : Prop :=
  Claim.MatrixRegisters ∧ Claim.MatrixMemory

/-- `draw` completes where its operands are in range: it pushes the winner, of all members, to q4, from the leader only, and rebases its
ring where rb asks for it and it fits; against the ranges it ends the nest (R328, R330, R331). That every member's candidates are made
under the leader's operands, where the members' own differ, is the model's choice (log 25). -/
def Claim.DrawCompletes : Prop :=
  ∀ (s : State) (b : Bool) (n ctl key ctr rb : Word) (rest : List Word), s.cur.eng = some .mx →
    (s.ownRegs .mx).pstack = n :: ctl :: key :: ctr :: rb :: rest → rest.length ≤ 8 →
    let id := s.cur.bid
    let o : DrawOps := ⟨n.toNat, ctl.toNat, key, ctr, rb.toNat⟩
    let lead := drawOps ((s.bank (s.handleBank id)).engine .mx).regs.pstack
    let cs := s.allCandidates id b lead
    let w := winner cs
    let g : Nat := if bit rb.toNat 62 then 3 else 1
    let ring := (s.ownRegs .mx).rings[Fin.ofNat 4 g]
    let base := bits rb.toNat 0 14 + w.1 * bits rb.toNat 32 14
    let fits := ring.slots ≠ 0 ∧ base + ring.slots * ring.size ≤ 12288
    let element := fun (refused : Nat) =>
      BitVec.ofNat 64 (w.2 * 2 ^ 32 + b2n (cs.all (fun c => isNan32 c.2)) * 2 ^ 31 + refused * 2 ^ 30 + w.1)
    let pushed := fun (v : Word) => if s.handleBank id = id
      then s.modBank id (fun bk => bk.pushElem 4#3 ⟨v, true, (bk.engine .mx).phase, false⟩) else s
    let pops := fun (r : EngRegs) => { r with pstack := r.pstack.drop 5 }
    (o.ok = false → exec (.draw b) s = .next (s.faultEnd id .mx 0x10))
    ∧ (o.ok = true → s.drawPoison id b lead.n = false → (s.handleBank id = id → (s.own.queueOf 4#3).length < 32) →
      ((bit rb.toNat 63 = false ∨ ¬ fits) → exec (.draw b) s = .next (((pushed (element (if bit rb.toNat 63 then 1 else 0))).modBank id
        (fun bk => bk.modEngine .mx (·.modRegs pops))).flow id .mx .next))
      ∧ (bit rb.toNat 63 = true → fits → s.own.ringBusy g = true → exec (.draw b) s = .next s)
      ∧ (bit rb.toNat 63 = true → fits → s.own.ringBusy g = false → exec (.draw b) s = .next (((pushed (element 0)).modBank id
        (fun bk => bk.modEngine .mx (·.modRegs (fun r => (pops r).onRing (Fin.ofNat 4 g) (fun q =>
          { q with base := base, head := 0, tail := 0, full := List.replicate q.slots (s.own.engine .mx).phase }))))).flow
          id .mx .next)))

/-- The winner of a draw (R330): a candidate whose score no other exceeds in the order of the FP32 keys of R218, a NaN below every other,
the lowest index first. -/
def Claim.DrawWinner : Prop :=
  ∀ (c : Nat × Nat) (cs : List (Nat × Nat)),
    let w := winner (c :: cs)
    w ∈ c :: cs
    ∧ (∀ x ∈ c :: cs, isNan32 x.2 = false → isNan32 w.2 = false ∧ keyFp32 x.2 ≤ keyFp32 w.2)
    ∧ ((∀ x ∈ c :: cs, isNan32 x.2 = true) → w = c)
    ∧ (List.Pairwise (fun a b => a.1 < b.1) (c :: cs) →
      ∀ x ∈ c :: cs, isNan32 x.2 = false → keyFp32 x.2 = keyFp32 w.2 → w.1 ≤ x.1)

/-- `draw`; the members' candidates under the leader's operands are the model's choice, log 25 (R328 to R331). -/
def Obligations.Draw : Prop :=
  Claim.DrawCompletes ∧ Claim.DrawWinner

/-! ### Submission rings and Cowslip (R192 to R196) -/

/-- NOTIFY: a write at 0x2000 * die + 8 * ring of a VF's BAR2, whatever its value. An active ring's idle time begins again; an idle ring
takes an active slot, or becomes pending where all 32 are taken; of a ring that is another VF's, or not enabled, it has no effect. A read
gives zero. Without IDE protection, while the VF is in RUN, the access is a TDISP error, which resets the VF (R7, R193, R194, R349; log
43). -/
def Claim.NotifyCompletes : Prop :=
  ∀ (s : State) (vf die ring : Nat) (v : Word) (protect : Bool), s.operates = true → die < 4 → ring < 1024 → vf < 512 →
    let off := 0x2000 * die + 8 * ring
    let d := s.die die
    let g := d.ring ring
    (protect = false → (s.vf vf).tdi = .run → ∀ data, exec (.notify vf off ⟨data, protect⟩) s = .next ((s.setTdi vf .error).resetVf vf))
    ∧ ((protect = true ∨ (s.vf vf).tdi ≠ .run) →
      exec (.notify vf off ⟨none, protect⟩) s = .next { s with host := { s.host with answer := [0] } }
      ∧ ((g.en = false ∨ g.vf ≠ vf) → exec (.notify vf off ⟨some v, protect⟩) s = .next s)
      ∧ (g.en = true → g.vf = vf →
        (g.active = true → exec (.notify vf off ⟨some v, protect⟩) s = .next (s.setDie die (d.setRing ring { g with timer := s.cycle })))
        ∧ (g.active = false → g.pending = true → exec (.notify vf off ⟨some v, protect⟩) s = .next s)
        ∧ (g.active = false → g.pending = false → d.slots.length < 32 → ∃ t, exec (.notify vf off ⟨some v, protect⟩) s = .next t
          ∧ (t.die die).ring ring = { g with active := true, timer := s.cycle } ∧ (t.die die).slots = d.slots ++ [ring]
          ∧ t.mem = s.mem ∧ t.banks = s.banks ∧ t.nests = s.nests)
        ∧ (g.active = false → g.pending = false → 32 ≤ d.slots.length → ∃ t, exec (.notify vf off ⟨some v, protect⟩) s = .next t
          ∧ (t.die die).ring ring = { g with pending := true } ∧ (t.die die).slots = d.slots
          ∧ t.mem = s.mem ∧ t.banks = s.banks ∧ t.nests = s.nests)))

/-- COWSLIP_ACCEPT and RING_IDLE_TIMEOUT: a header or record that is bad writes the ring's status, and the ring becomes idle; one that cannot
be read yet is read later (R45, R74); the slot's turn passes where the ring is empty; nothing happens while the nest table is full; else
one record is accepted and tail advances. A ring that stays empty for 12,000 cycles is released (R192, R194, R195, R196). -/
def Claim.RingsComplete : Prop :=
  ∀ (s : State) (die r : Nat), s.operates = true → die < 4 →
    let g := (s.die die).ring r
    (∀ rest, (s.die die).slots = r :: rest →
      let turned := fun (s : State) => s.modDie die (fun d => { d with slots := rest ++ [r] })
      (∀ e, s.ringHeader die g = .error e → exec (.cowslipAccept die) s = .next (s.ringError die r e))
      ∧ (∀ c head tail u, s.ringHeader die g = .ok (c, head, tail, u) →
        let va := (g.w0.toNat + 128 + 128 * (tail % 2 ^ c)) % 2 ^ 64
        (head = tail → exec (.cowslipAccept die) s = .next (turned u))
        ∧ (head ≠ tail → 256 ≤ u.nestCount die → exec (.cowslipAccept die) s = .next u)
        ∧ (head ≠ tail → u.nestCount die < 256 →
          (∀ e, u.ringRead die g va 128 = .error e → exec (.cowslipAccept die) s = .next (u.ringError die r e))
          ∧ (∀ bs w, u.ringRead die g va 128 = .ok (bs, w) →
            let t := turned (g.write die 2 ((tail + 1) % 2 ^ 64) (w.accept bs die va g.asid g.vf g.pcap))
            exec (.cowslipAccept die) s = .next (t.modDie die (fun d => d.setRing r { d.ring r with timer := t.cycle }))))))
    ∧ (g.active = true → 12000 ≤ s.since g.timer →
      (∀ e, s.ringHeader die g = .error e → exec (.ringIdleTimeout die r) s = .next (s.ringError die r e))
      ∧ (∀ c head tail u, s.ringHeader die g = .ok (c, head, tail, u) →
        (head = tail → exec (.ringIdleTimeout die r) s = .next (u.modDie die (·.idleRing r u.cycle)))
        ∧ (head ≠ tail → exec (.ringIdleTimeout die r) s
          = .next (u.modDie die (fun d => d.setRing r { g with timer := u.cycle })))))
    ∧ s.ringError die r .waits = s
    ∧ (∀ v, let t := g.write die 3 v s
      s.ringError die r (.status v) = t.modDie die (·.idleRing r t.cycle))

/-- The header that Cowslip reads, whose poison it does not see (R192, R194; log 105): c, head and tail are its words 0, 1 and 2, where the page can be read, c is at most 12, the
unused bits are 0 and head is at most 2^c ahead of tail; else the status is 1, 2 or 3, and a page under a flip, or in a durable tier that
is not ready, is waited for (R45, R74). A status word that shows an earlier error becomes 0. By the model's choice an address that is
not 128-byte aligned is a bad header (log 86). -/
def Claim.RingHeader : Prop :=
  ∀ (s u : State) (die : Nat) (g : SubRing) (h : List Byte) (i : Nat), i < 24 → s.coreInService (24 * die + i) = true →
    (g.w0.toNat % 128 ≠ 0 → s.ringHeader die g = .error (.status 1))
    ∧ (g.w0.toNat % 128 = 0 → ∀ x, s.unitPlace die g.vf g.asid g.w0.toNat 128 accR = .error x →
      s.ringHeader die g = .error (if x = .wait then .waits else .status 2))
    ∧ (g.w0.toNat % 128 = 0 → s.ringRead die g g.w0.toNat 128 = .ok (h, u) →
      let c := blockWord h 0
      let clean := c ≤ 12 ∧ bits (blockWord h 3) 8 56 = 0 ∧ ∀ b ∈ h.drop 32, b = 0#8
      let ahead := (blockWord h 1 + 2 ^ 64 - blockWord h 2) % 2 ^ 64
      (¬ clean → s.ringHeader die g = .error (.status 1))
      ∧ (clean → 2 ^ c < ahead → s.ringHeader die g = .error (.status 3))
      ∧ (clean → ahead ≤ 2 ^ c → s.ringHeader die g
        = .ok (c, blockWord h 1, blockWord h 2, if blockWord h 3 = 0 then u else g.write die 3 0 u)))

/-- Submission rings and Cowslip; that a ring base which is not 128-byte aligned is a bad header is the model's choice, log 86 (R192 to
R196). -/
def Obligations.SubmissionRings : Prop :=
  Claim.NotifyCompletes ∧ Claim.RingsComplete ∧ Claim.RingHeader

/-! ### The scheduler, Speedwell and pre-emption (R187 to R203) -/

/-- SCHEDULER_VISIT, AGING_TICK, CONTEXT_RESUME, SPEEDWELL_WINDOW: the head VF of a level's list takes its quantum by its weight, hands out
what its deficit covers and moves to the tail; a nest that waited 10 ms rises one level; a saved group that is the first hand-out of its
VF's visit resumes in that visit; a window's planned sum is what the running tasks have yet to draw (R190, R197 to R201; log 37, 38).
That a window begins at each multiple of 3,000,000 cycles is the model's choice (log 84). -/
def Claim.SchedulerCompletes : Prop :=
  ∀ (s : State) (die level : Nat) (places : List Nat), s.operates = true → die < 4 →
    let u := s.updateLevels die
    (level < 4 → ∀ v rest, (u.die die).levels.toList.getD level [] = v :: rest → u.topLevel die level = true →
      (u.offers die level).any (fun o => u.admitted die o.1.est) = true →
      let w := if (u.vf v).weight = 0 then 1 else (u.vf v).weight
      let t := (u.addDeficit die level v (((u.die die).quantum * w : Nat) : Int)).visit die level v 49 places
      let behind := fun (i : Nat) (l : List Nat) => if i = level then l.filter (· ≠ v) ++ l.filter (· = v) else l
      exec (.schedulerVisit die level places) s
        = .next ((t.modDie die (fun d => { d with levels := d.levels.mapFinIdx (fun i l _ => behind i l) })).updateLevels die))
    ∧ (∀ n t, s.nests.find? (fun n => n.id = level && n.die = die) = some n → n.waiting = some t → 30000000 ≤ s.since t →
      (n.level < 3 → exec (.agingTick die level) s = .next ((s.modNest level (fun n =>
        { n with level := n.level + 1, waiting := some ((t + 30000000) % 2 ^ 64) })).updateLevels die))
      ∧ (3 ≤ n.level → exec (.agingTick die level) s = .next s))
    ∧ (∀ k c n v rest, PMap.find s.saved k = some c → s.nests.find? (fun n => c.state.runs n.id) = some n → n.die < 4 → n.level < 4 →
      (s.die n.die).levels.toList.getD n.level [] = v :: rest → s.topLevel n.die n.level = true →
      (s.offers n.die n.level).any (fun o => s.admitted n.die o.1.est) = true →
      s.resumesFirst n.die n.level v c.group = true → exec (.contextResume k) s = .next (s.visitHead n.die n.level v []))
    ∧ ((s.die die).windowStart ≠ s.cycle / 3000000 * 3000000 → exec (.speedwellWindow die) s
      = .next (s.modDie die (fun d => { d with
        windowStart := s.cycle / 3000000 * 3000000, planned := ((s.taskBanks die).map s.toDraw).sum })))

/-- HEAT_THROTTLE counts cycles in both banks of a core that hold a task; PREEMPTION_REQUEST records its cycle in the bank the scheduler
calls, and saves a bank that waits; FORCED_SAVE saves a bank whose request is due, and goes on with a save that waited (R187, R200,
R203); a request is for all of its task's group, whose members are saved together (R173; log 102). -/
def Claim.PreemptionCompletes : Prop :=
  ∀ (s : State) (bank n : Nat), s.operates = true →
    (bank < 96 → ∃ t, exec (.heatThrottle bank n) s = .next t ∧ t.mem = s.mem
      ∧ ∀ m, t.bank m = if m / 2 = bank ∧ (s.bank m).task.isSome = true then { s.bank m with thrcyc := (s.bank m).thrcyc + n }
        else s.bank m)
    ∧ (s.nests.any (fun x => x.die = dieOf bank && s.calls x bank) = true →
      let t := s.modBank bank (fun b => { b with preempt := some s.cycle })
      (t.saveDue bank = false → exec (.preemptionRequest bank) s = .next t)
      ∧ (t.saveDue bank = true → exec (.preemptionRequest bank) s = .next (t.beginSave bank none)))
    ∧ (s.running bank = true →
      ((s.bank bank).saving.isSome = true → exec (.forcedSave bank) s = .next (s.saveStep bank))
      ∧ ((s.bank bank).saving = none → s.saveDue bank = true → exec (.forcedSave bank) s = .next (s.beginSave bank none)))

/-- The scheduler, Speedwell and pre-emption (R187 to R203). -/
def Obligations.SchedulingEvents : Prop :=
  Claim.SchedulerCompletes ∧ Claim.PreemptionCompletes

/-! ### The invalidation queue, walks, records and waits (R37, R43 to R45, R69, R99, R103, R149, R181, R345) -/

/-- The host's invalidation queue: the device takes the next entry; an invalidation removes what it names, a flip closes its page, where the
address has one (log 104), until it is acknowledged, which revokes the page's handles; it takes no flip while it cannot read the page's tables
(R74); what is revoked is so in the checkpoints of its bank too, so that no rollback brings it back (log 87); writes of the device's units that waited for the page are made then (R45); completion writes the entry's number, with bit 63 where it was bad, and
`iqhead` advances (R43 to R45, R345; log 42). -/
def Claim.InvalidationQueue : Prop :=
  ∀ (s : State), s.operates = true → s.host.link = true →
    (∀ k w, s.iqNext = some (k, w) →
      (w.bad = true → exec .iqInvalidate s = .next (s.iqTake k w) ∧ exec .flipRequest s = .next (s.iqTake k w))
      ∧ (w.bad = false → w.op = 0 → exec .iqInvalidate s = .next ((s.iqTake k w).invalidate w.inval))
      ∧ (w.bad = false → w.op = 1 → s.pageWaits w.vf w.asid w.va = true → exec .flipRequest s = .next s)
      ∧ (w.bad = false → w.op = 1 → s.pageWaits w.vf w.asid w.va = false → ∃ t, exec .flipRequest s = .next t ∧ t.host.flips = ((s.iqTake k w).pageAt w.vf w.asid w.va).toList
        ∧ t.mem = s.mem ∧ t.banks = s.banks
        ∧ t.host.inv = some { k := k, vf := w.vf, va := w.va, flip := true, bad := false, acked := false, done := w.done }))
    ∧ (∀ e, s.host.inv = some e →
      (e.flip = true → e.bad = false → e.acked = false → s.flipDirty = false → ∃ t : State, exec .flipAck s = .next t.retryUnits ∧ t.host.flips = []
        ∧ t.host.inv = some { e with acked := true } ∧ t.host.unitWrites = s.host.unitWrites ∧ t.mem = s.mem
        ∧ t.banks = (s.revokePages s.host.flips).banks.map (fun b => (b.1, b.2.clearWaits)))
      ∧ (s.flipDirty = true → exec .flipAck s = .next s)
      ∧ ((e.bad = true ∨ e.flip = false ∨ e.acked = true) → ∃ t, exec .invalidationComplete s = .next t
        ∧ t.mem = s.mem.write (hostBase + e.done % 2 ^ 54) (leBytes 8 (if e.bad then 2 ^ 63 + e.k else e.k))
        ∧ t.host = { s.host with inv := none, iqhead := s.host.iqhead + 1, peerResvs := t.host.peerResvs }))
    ∧ (∀ (b : Bank) (hit : HVer → Bool) (c : CoreRegs), c ∈ (b.revoke hit).core :: (b.revoke hit).ckpts.map (·.core) →
      ∀ (p : Fin 16) (v : HVer), v ∈ (c.ph[p]).cur :: (c.ph[p]).old → v.state = .valid → hit v = false)

/-- PAGE_WALK_END fills a pending version or gives it its cause, and then serves the uses that wait for it: a bank of which a use has
faulted drains and gives way; a walk that waits for a table in the durable tier goes on (R74); FAULT_RECORD_ALLOC tries again for the control core's or an engine's faults; RECLAIM_RETRY posts a held
record; LR_RESERVATION_EXPIRY drops a reservation on the domain after 256 cycles, and the snoops it kept waiting are answered (R37,
R103, R149, R181, R244; log 70, 77). -/
def Claim.RetriesComplete : Prop :=
  ∀ (s : State) (bank ph ver : Nat) (v : HVer), s.operates = true →
    (ph < 16 → ((s.bank bank).handle (BitVec.ofNat 4 ph)).find ver = some v → v.state = .pending → v.cause = 0 →
      (s.bank bank).task.isSome = true →
      (s.walkGoesOn bank v = true → exec (.pageWalkEnd bank ph ver) s = .next s) ∧ (s.walkGoesOn bank v = false →
      let u := s.walkEnds bank (BitVec.ofNat 4 ph) v
      let cause := (((u.bank bank).handle (BitVec.ofNat 4 ph)).find ver).elim 0 (·.cause)
      let t := (s.members bank).foldl (fun s m => s.usesEnd m ver cause) u
      ((∀ m ∈ s.members bank, (t.bank m).waiters = (u.bank m).waiters) → exec (.pageWalkEnd bank ph ver) s = .next t)
      ∧ ((∃ m ∈ s.members bank, (t.bank m).waiters ≠ (u.bank m).waiters) →
        exec (.pageWalkEnd bank ph ver) s = .next ((t.withdraw bank).giveWay bank))))
    ∧ (∀ va code acc t w, (s.bank bank).waiter = some (.alloc va code acc ver) → s.recordFault bank 0 code va acc ver = (t, w) →
      exec (.faultRecordAlloc bank 0) s = .next (t.modBank bank (fun b => { b with waiter := some w })))
    ∧ (∀ e, exec (.faultRecordAlloc bank (1 + (engIx e).val)) s = .next (s.retryWords bank (1 + (engIx e).val) e))
    ∧ (∀ e st va code acc t w, ((s.bank bank).engine e).stopped = some st → st.waiter = some (.alloc va code acc ver) →
      (e = .cx → (s.bank bank).flights = []) → s.recordFault bank (1 + (engIx e).val) code va acc ver = (t, w) →
      s.retryWords bank (1 + (engIx e).val) e
        = t.modBank bank (fun b => b.modEngine e (fun g => { g with stopped := some { st with waiter := some w } })))
    ∧ ((s.slot bank).used = true → (s.slot bank).held = true → exec (.reclaimRetry bank) s = .next (s.postRecord bank))
    ∧ (∀ r, (s.bank bank).resv = some r → r.domain = true → 256 ≤ s.since r.time →
      exec (.lrReservationExpiry bank) s = .next ((s.modBank bank (fun b => { b with resv := none })).answerSnoops))

/-- Waits that time ends: `waitt` at its time, `dopen.w` at its deadline with TIMEOUT in rd, a domain `fence.s` once its writes are visible;
and a promise that the counter has passed is made anew, counted, and trapped where it was read (R68, R69, R99, R146; log 59, 66). -/
def Claim.WaitsEnd : Prop :=
  ∀ (s : State) (bank : Nat),
    let b := s.bank bank
    let goesOn := fun (b : Bank) => (b.setPc (b.core.pc + 4#64)).retire
    (∀ t, b.wait = .waitt t → t ≤ s.cycle → s.ready bank = true → s.isActive bank = true → s.drains bank = false →
      exec (.waittWake bank) s = .next (s.modBank bank goesOn))
    ∧ (∀ w, s.dirWaiters.find? (·.bid = bank) = some w → w.deadline ≠ 0 → w.deadline ≤ s.cycle →
      ∃ u, exec (.dopenWTimeout bank) s = .next u ∧ (u.bank bank).readX w.rd = (if w.rd = 0#5 then 0#64 else 0x8000000000000006#64)
        ∧ (u.bank bank).core.pc = b.core.pc + 4#64 ∧ (u.bank bank).wait = .none ∧ (∀ x ∈ u.dirWaiters, x.bid ≠ bank)
        ∧ u.slots = s.slots ∧ u.mem = s.mem)
    ∧ (∀ k, b.wait = .fenceS k → s.executes bank = true → (∀ w ∈ b.dom, s.heldLine w.1 = false) →
      (b.dom = [] ∨ lastWindow b.dom + k ≤ s.window) → exec (.fenceSWaitEnd bank) s = .next (s.setBank bank (goesOn b)))
    ∧ (∀ n promise p, b.prom n = some p → p.state = .promised → p.time < s.cycle → (∃ f ∈ b.flights, f.n = n) →
      ∃ t, exec (.promiseMissed bank n promise) s = .next t ∧ (t.bank bank).prmiss = b.prmiss + 1
        ∧ (t.bank bank).missDue = (if p.read = true ∧ p.trapped = false then b.missDue ++ [n] else b.missDue)
        ∧ (t.bank bank).core = b.core ∧ (t.bank bank).eng = b.eng ∧ ∀ m, m ≠ bank → t.bank m = s.bank m)
    ∧ (∀ n promise p, b.prom n = some p → p.state ≠ .promised → exec (.promiseMissed bank n promise) s = .next s)

/-- Invalidation queue, walks, records and waits (R37, R43 to R45, R69, R99, R103, R146, R149, R181, R345). -/
def Obligations.TimedEvents : Prop :=
  Claim.InvalidationQueue ∧ Claim.RetriesComplete ∧ Claim.WaitsEnd

/-! ### Checked entries, markers, mismatches and poison (R131, R157, R162, R352 to R354) -/

/-- CHECKED_ENTRY_ISSUE: the head entry of an idle engine issues, a call at its routine word; else the next data element is compared; in a
drain an element is compared, and no entry issues (R179). MARKER_RETIRE: the marker at which the engine stands retires. YARROW_MISMATCH:
counted on every uncommitted phase (log 67), and in RASSTAT; the bank and its gang roll back, after which the rendezvous registers
restored are tested (log 80), once where a consuming read has done so already; the third of a phase ends the nest and marks the core.
POISON_CONSUME: the bank consumes the poison, active or not (R131, R157, R162, R352 to R355). -/
def Obligations.CheckedEntries : Prop :=
  ∀ (s : State) (bank line : Nat) (ckpt : Bool) (e : Engine),
    (s.present bank = true →
      exec (.poisonConsume bank ⟨line, ckpt⟩) s = .next (s.consumePoison bank (s.bank bank).committed (some line) ckpt))
    ∧ (s.engaged bank = true →
    let b := (s.bank bank).passBoundary e 3
    let g := b.engine e
    (s.executes bank = true → g.entry = none → g.stopped = none → g.mark = none → ∀ c rest, g.queue = c :: rest →
      (c.bad = false → ∃ t, exec (.checkedEntryIssue bank e) s = .next t ∧ ((t.bank bank).engine e).queue = rest
        ∧ ((t.bank bank).engine e).entry = some c
        ∧ ((t.bank bank).engine e).regs.upc = (match c.kind with | .call a => some a | _ => none) ∧ t.mem = s.mem)
      ∧ (c.bad = true → exec (.checkedEntryIssue bank e) s = .next (s.agentPoison bank (some e) none)))
    ∧ (s.executes bank = true → (g.entry ≠ none ∨ g.stopped ≠ none ∨ g.mark ≠ none ∨ g.queue = []) →
      (∀ q, b.uncompared e = some q → exec (.checkedEntryIssue bank e) s = .next (s.setBank bank (b.compare e q)))
      ∧ (b.uncompared e = none → exec (.checkedEntryIssue bank e) s = .next s))
    ∧ (s.drains bank = true →
      (∀ q, (s.bank bank).uncompared e = some q → exec (.checkedEntryIssue bank e) s = .next (s.setBank bank ((s.bank bank).compare e q)))
      ∧ ((s.bank bank).uncompared e = none → exec (.checkedEntryIssue bank e) s = .next s))
    ∧ (s.executes bank = true → (s.bank bank).markerReady e = true → exec (.markerRetire bank e) s = .next (s.retirePending bank e))
    ∧ (((s.bank bank).comparing = true ∨ (s.bank bank).misOpen = true) →
      let d := dieOf bank
      let u := if (s.die d).ymis < 0xFFFF then (s.modDie d (fun x => { x with ymis := x.ymis + 1 })).rasRise d else s
      let t := u.modBank bank Bank.countMismatch
      let third := ∃ p, (s.bank bank).committed ≤ p ∧ p ≤ (s.bank bank).phase ∧ 3 ≤ PMap.get 0 (t.bank bank).mismatches p
      (third → exec (.yarrowMismatch bank) s
        = .next ((t.modCore (coreOf bank) (fun c => { c with failed := true })).terminateOf bank 0x14))
      ∧ (¬ third → (s.bank bank).misOpen = true →
        exec (.yarrowMismatch bank) s = .next (t.modBank bank (fun b => { b with misOpen := false })))
      ∧ (¬ third → (s.bank bank).misOpen = false →
        exec (.yarrowMismatch bank) s = .next (((t.members (t.handleBank bank)).foldl (fun s m => s.rollback m) t).fireAll
          (t.members (t.handleBank bank)))))
    ∧ ((s.bank bank).comparing = false → (s.bank bank).misOpen = false → exec (.yarrowMismatch bank) s = .next s))

/-! ### The durable tier (R73 to R79, R84, R85) -/

/-- The media with the words of an accepted store. -/
def mediaWith (m : Mem) (a : Accepted) : Mem := a.words.foldl (fun m w => m.write (8 * w.1) (leBytes 8 w.2.toNat)) m

/-- The bytes that the buffer of the durable tier holds. -/
def bufferHolds (t : Betony) : Nat := (t.buffer.map (fun a => 8 * a.words.length)).sum

/-- DURABLE_ACCEPT: a durable store whose earlier stores are persistent is accepted, at the end of the 16 MiB buffer with the next
sequence number while hold-up energy is armed, else onto the media at once; a store to another module's tier is that module's to
accept; MEDIA_WRITE: the oldest accepted store reaches the media; HOLD_UP_ENERGY_ARMING: the state of the energy; QUIESCE: the
buffer drains, stores not accepted are lost, and the module stops (R73 to R79, R84, R85; log 30, 46). -/
def Claim.DurableTier : Prop :=
  ∀ (s : State), s.betony.rdy = true →
    let t := s.betony
    (∀ i d, t.pending.find? (·.id = i) = some d →
      let left := t.pending.filter (·.id ≠ i)
      ((∃ x ∈ d.after, ∃ y ∈ t.pending, y.id = x) → exec (.durableAccept i) s = .next s)
      ∧ ((∀ x ∈ d.after, ∀ y ∈ t.pending, y.id ≠ x) →
        (d.own = false → exec (.durableAccept i) s = .next { s with betony := { t with pending := left } })
        ∧ (d.own = true → t.hok = true → bufferHolds t + 8 * d.words.length ≤ 0x1000000 → exec (.durableAccept i) s
          = .next { s with betony := { t with pending := left, buffer := t.buffer ++ [⟨t.seq, d.words⟩], seq := (t.seq + 1) % 2 ^ 64 } })
        ∧ (d.own = true → t.hok = true → 0x1000000 < bufferHolds t + 8 * d.words.length → exec (.durableAccept i) s = .next s)
        ∧ (d.own = true → t.hok = false → t.buffer = [] → exec (.durableAccept i) s = .next { s with betony := { t with
          pending := left, media := mediaWith t.media ⟨t.seq, d.words⟩, lastSeq := t.seq, seq := (t.seq + 1) % 2 ^ 64 } })))
    ∧ (∀ a rest, t.buffer = a :: rest → exec .mediaWrite s = .next { s with betony := { t with
        buffer := rest, media := mediaWith t.media a, lastSeq := a.seq } })
    ∧ (∀ x, exec (.holdUpEnergyArming x) s = .next { s with betony := { t with hok := x } })
    ∧ (s.operates = true → s.cur.port = .mailbox → ∃ u, exec .quiesce s = .next u ∧ u.betony.buffer = [] ∧ u.betony.pending = []
      ∧ u.betony.loss = false ∧ u.betony.drainOk = true ∧ u.betony.rdy = false ∧ u.host.stopped = true
      ∧ u.betony.media = t.buffer.foldl mediaWith t.media ∧ u.mem = tierMem s.mem u.betony.media)

/-- POWER_LOSS: with hold-up energy armed every accepted store reaches the media, without it as many as are given; stores not accepted
are lost; no task, nest, handle or name outlasts it. START_SEQUENCE: `cycle` is 0, Betony starts and counts; a die without a core puts
the module into the safe state (R73, R84, R85, R360, R361; log 45, 46). -/
def Claim.PowerCycles : Prop :=
  ∀ (s : State) (n : Nat) (r : StartReport),
    let k := if s.betony.hok then s.betony.buffer.length else min n s.betony.buffer.length
    (s.host.stopped = false → ∃ t, exec (.powerLoss n) s = .next t ∧ t.host.stopped = true ∧ t.betony.pending = [] ∧ t.betony.buffer = []
      ∧ t.betony.loss = true ∧ t.betony.drainOk = decide (k = s.betony.buffer.length) ∧ t.betony.rdy = false
      ∧ t.betony.media = (s.betony.buffer.take k).foldl mediaWith s.betony.media
      ∧ t.banks = [] ∧ t.nests = [] ∧ t.slots = [] ∧ t.nameGen = [] ∧ t.vfs = [] ∧ t.saved = [])
    ∧ (s.canStart = true → ∃ t, exec (.startSequence r) s = .next t ∧ t.cycle = 0 ∧ t.host.stopped = false ∧ t.banks = [] ∧ t.nests = []
      ∧ t.betony.starts = s.betony.starts + 1
      ∧ (t.host.safe = false → t.betony.rdy = true ∧ t.betony.firstSeq = s.betony.seq ∧ t.betony.loss = false)
      ∧ ((∃ d, d < 4 ∧ r.coremasks.getD d 0 = 0) → t.host.safe = true))

/-- The durable tier, loss of power and start (R73 to R79, R84, R85, R360, R361). -/
def Obligations.DurableEvents : Prop :=
  Claim.DurableTier ∧ Claim.PowerCycles

/-! ### Links and accesses from outside (R28, R50, R59, R86, R149, R343, R348) -/

/-- A command of the management path has completed: its status is ok (log 76). -/
def completed (s : State) : State := { s with host := { s.host with status := .ok } }

/-- Links: HOST_LINK_DOWN puts every die into the link-down state with its dirty host-homed lines held, and reservations stand (log 108);
HOST_LINK_UP; a die is settled by
LINKREC_ACCEPT, which writes its held lines back, or LINKREC_DISCARD, which drops them and keeps the record made since the LINKREC before it;
LINKLOG reads the record; peer links go down and up; a snoop ends reservations on its line, or waits while an LR keeps the line (R46, R149, R150, R343,
R348; log 77); once the host has the line it performs the atomic for which it took it, stores the result and receives the old value
(R148), and nothing where the atomic is misaligned or its line poisoned (log 81). -/
def Claim.LinksComplete : Prop :=
  ∀ (s : State) (d m : Nat) (n : Snoop), s.operates = true →
    (s.host.link = true → ∃ t, exec .hostLinkDown s = .next t ∧ t.host.link = false ∧ t.dirtyHost = [] ∧ t.banks = s.banks
      ∧ ∀ x, x < 4 → (t.die x).linkDown = true)
    ∧ exec .hostLinkUp s = .next { s with host := { s.host with link := true } }
    ∧ (d < 4 → s.host.link = true → s.cur.port = .mailbox →
      (∃ t, exec (.linkrecAccept d) s = .next t ∧ (t.die d).linkDown = false ∧ (t.die d).heldLines = [] ∧ (t.die d).linkRec = []
        ∧ t.mem = (s.die d).heldLines.foldl (fun mem l => mem.write (l.line * 64) l.data) s.mem)
      ∧ (∃ t, exec (.linkrecDiscard d) s = .next t ∧ (t.die d).linkDown = false ∧ (t.die d).heldLines = []
        ∧ (t.die d).linkRec = (s.die d).linkRec.drop (s.die d).linkKept ∧ (t.die d).linkKept = (t.die d).linkRec.length ∧ t.mem = s.mem))
    ∧ (d < 4 → s.cur.port = .mailbox → exec (.linklog d) s = .next { completed s with host := { (completed s).host with
        answer := (s.die d).linkRec.flatMap (fun e => [BitVec.ofNat 64 e.1, BitVec.ofNat 64 e.2]) } })
    ∧ (∃ t, exec (.peerLinkDown m) s = .next t ∧ m ∈ t.host.peersDown ∧ t.mem = s.mem ∧ t.banks = s.banks)
    ∧ (∃ t, exec (.peerLinkUp m) s = .next t ∧ m ∉ t.host.peersDown ∧ t.mem = s.mem ∧ t.banks = s.banks)
    ∧ (s.host.link = true → s.snoopable n.line = true →
      (s.owned n.line = true → ∃ t, exec (.hostSnoop n) s = .next t ∧ n ∈ t.host.snoops ∧ t = { s with host := t.host })
      ∧ (s.owned n.line = false → ∃ t, exec (.hostSnoop n) s = .next t ∧ (∀ l ∈ t.dirtyHost, l.1.line ≠ n.line)
        ∧ (∀ b ∈ t.banks, ∀ r, b.2.resv = some r → n.line * 64 + 64 ≤ r.addr ∨ r.addr + r.size ≤ n.line * 64)
        ∧ (∀ r ∈ t.host.peerResvs, n.line * 64 + 64 ≤ r.2.addr ∨ r.2.addr + r.2.size ≤ n.line * 64)
        ∧ (n.atomic = none → t.mem = s.mem ∧ t.host = { s.host with peerResvs := t.host.peerResvs })
        ∧ ∀ a, n.atomic = some a →
          let size := if a.dbl then 8 else 4
          let pa := n.line * 64 + a.off
          let old := leNat (s.mem.read pa size)
          (a.off % size = 0 → a.off < 64 → n.line ∉ s.poison →
            t.host = { s.host with answer := [BitVec.ofNat 64 old], peerResvs := t.host.peerResvs }
            ∧ t.mem = s.mem.write pa (leBytes size (amoStored a.op a.dbl old a.src)))
          ∧ ((a.off % size ≠ 0 ∨ 64 ≤ a.off ∨ n.line ∈ s.poison) →
            t.host = { s.host with answer := [], peerResvs := t.host.peerResvs } ∧ t.mem = s.mem)))

/-- Commands of the management path complete with status Unsupported, and do nothing else, where they come over the I3C port and are none
of the four it takes, or in the safe state and are none of the four it takes, or come there over the I3C port; while the module is stopped
nothing happens (R344, R361; log 76). -/
def Claim.CommandStatus : Prop :=
  ∀ (s : State) (r : MgmtReg) (v : Word) (d n : Nat) (bs : List Byte),
    let refused : Host.Outcome State Fault Refusal := .next { s with host := { s.host with status := .unsupported } }
    let mailboxOnly := [Instr.regWrite r v, .flashLoad n bs, .quiesce, .linkrecAccept d, .linkrecDiscard d, .linklog d, .l2partWrite d v]
    (s.host.stopped = false → s.cur.port = .i3c → ∀ i ∈ mailboxOnly, exec i s = refused)
    ∧ (s.host.stopped = false → s.host.safe = true → ∀ i ∈ mailboxOnly, exec i s = refused)
    ∧ (s.host.stopped = false → s.host.safe = true → s.cur.port = .i3c →
      ∀ i ∈ mailboxOnly ++ [.regRead r, .rsvdRead n d, .fwStage bs, .fwActivate], exec i s = refused)
    ∧ (s.host.stopped = true → ∀ i ∈ mailboxOnly ++ [.regRead r, .rsvdRead n d, .fwStage bs, .fwActivate], exec i s = .next s)

/-- Accesses from outside: a host read answers with the bytes, all ones where the location is shut, and with nothing where it meets poison;
a host or peer write stores its bytes where the location is not shut and changes no other byte; a host access beyond the range
faults (log 44); a host write within a line of the durable tier is one durable store (R72, R85); a peer's access to what is not its to
reach is not performed (R28, R50, R59, R86, R343, R344, R351; log 44, 76). -/
def Claim.OutsideAccesses : Prop :=
  ∀ (s : State) (off len who : Nat) (bs : List Byte), s.operates = true → s.betony.rdy = true → bs.length = len → 0 < len →
    let pa := hdmPa off
    let inDram := fun (i : Nat) => match regionOf (off + i) with | .dram d => (off + i) % dramSpan < s.dramBytes d | _ => False
    (s.host.link = true → s.hdmMissing off len = false →
      ((linesOf pa len).any s.poison.contains = false → exec (.hostMemAccess off len none) s = .next { s with host := { s.host with
        answer := (List.range len).map (fun i =>
          if shut (hdmPa (off + i)) then 0xFF#64 else (s.mem.get (hdmPa (off + i))).setWidth 64) } })
      ∧ ((linesOf pa len).any s.poison.contains = true → exec (.hostMemAccess off len none) s
        = .next { s with host := { s.host with answer := [] } })
      ∧ (∃ t, exec (.hostMemAccess off len (some bs)) s = .next t
        ∧ (∀ i, i < len → shut (hdmPa (off + i)) = false → t.mem.get (hdmPa (off + i)) = bs.getD i 0)
        ∧ (∀ x, (∀ i, i < len → x ≠ hdmPa (off + i) ∨ shut x = true) → t.mem.get x = s.mem.get x)))
    ∧ (s.host.link = true → s.hdmMissing off len = true → exec (.hostMemAccess off len (some bs)) s = .fault .noAddress)
    ∧ (s.host.link = true → s.hdmMissing off len = false → regionOf pa = .durable → off % 64 + len ≤ 64 →
      ∃ t, exec (.hostMemAccess off len (some bs)) s = .next t ∧ t.betony.pending.length = s.betony.pending.length + 1)
    ∧ ((∀ i, i < len → inDram i) →
      ((linesOf off len).any s.poison.contains = false → exec (.peerAccess off len ⟨who, .read⟩) s
        = .next (s.answers ((s.mem.read off len).map (·.setWidth 64))))
      ∧ (∃ t, exec (.peerAccess off len ⟨who, .write bs⟩) s = .next t ∧ t.mem = s.mem.write off bs))
    ∧ (∀ i, i < len → ¬ inDram i → regionOf (off + i) ≠ .durable →
      exec (.peerAccess off len ⟨who, .read⟩) s = .next (s.answers [])
      ∧ exec (.peerAccess off len ⟨who, .write bs⟩) s = .next (s.answers []))
    ∧ (off + len ≤ flashSize → s.cur.port = .mailbox → ∃ t, exec (.flashLoad off bs) s = .next t ∧ t.mem = s.mem.write (flashBase + off) bs)
    ∧ (off + len ≤ durableEnd - reservedBase → exec (.rsvdRead off len) s = .next { completed s with host := { (completed s).host with
        answer := (s.mem.read (reservedBase + off) len).map (·.setWidth 64) } })

/-- Atomics of an agent of another module on memory whose home is here (R148): an AMO answers the value before it, as its width has it,
and stores its result; an LR answers the value and reserves its bytes; an SC stores, and answers 0, where the agent's reservation of those
bytes stands, else it stores nothing and answers 1 (R149). A write of another agent, or of the device, to reserved bytes ends the
reservation; the agent's own does not. No snoop waits here. That an atomic which is not aligned is not performed is the model's choice
(log 109). -/
def Claim.PeerAtomics : Prop :=
  ∀ (s : State) (pa len who : Nat) (op : AmoOp) (dbl : Bool) (src : Word), s.operates = true → s.host.snoops = [] →
    let n := if dbl then 8 else 4
    let old := leNat (s.mem.read pa n)
    let seen : Word := if dbl then BitVec.ofNat 64 old else (BitVec.ofNat 32 old).signExtend 64
    let inDram := fun (i : Nat) => match regionOf (pa + i) with | .dram d => (pa + i) % dramSpan < s.dramBytes d | _ => False
    let acts := fun k => exec (.peerAccess pa len ⟨who, k⟩) s
    let holds := fun (s : State) => ∃ r, PMap.find s.host.peerResvs who = some r ∧ r.addr = pa ∧ r.size = n
    (∀ i, i < n → inDram i) →
    (pa % n = 0 → (linesOf pa n).any s.poison.contains = false →
      (∃ t, acts (.amo op dbl src) = .next t ∧ t.host.answer = [seen] ∧ t.mem = s.mem.write pa (leBytes n (amoStored op dbl old src)))
      ∧ (∃ t, acts (.lr dbl) = .next t ∧ t.host.answer = [seen] ∧ t.mem = s.mem ∧ holds t))
    ∧ (pa % n = 0 →
      (holds s → ∃ t, acts (.sc dbl src) = .next t ∧ t.host.answer = [0#64] ∧ t.mem = s.mem.write pa (leBytes n src.toNat) ∧ ¬ holds t)
      ∧ (¬ holds s → ∃ t, acts (.sc dbl src) = .next t ∧ t.host.answer = [1#64] ∧ t.mem = s.mem ∧ ¬ holds t))
    ∧ (pa % n ≠ 0 → ∀ k ∈ [PeerKind.amo op dbl src, .lr dbl, .sc dbl src], acts k = .next (s.answers []))
    ∧ (holds s → ∀ x bs, 0 < bs.length → x < pa + n → pa < x + bs.length →
      (∀ other, other ≠ who → ¬ holds (s.storePeer other x bs)) ∧ holds (s.storePeer who x bs)
      ∧ ∀ bid e p, bid < 192 → p.pa = x → ¬ holds (s.storeAt bid e p bs))

/-- ERROR_DETECTED: a corrected error is counted, saturating, and of a row listed at its sixteenth within a second; an uncorrectable one
poisons its line, or its SRAM word, and lists the DRAM fault behind it (R351, R355, R356; log 74, 75). -/
def Claim.ErrorsDetected : Prop :=
  ∀ (s : State) (d pa bank : Nat) (w : Word) (r : Reg) (e : Engine) (b : Bool), s.operates = true →
    let u := s.modDie d (fun x => { x with corr := min 0xFFFFFFFF (x.corr + 1) })
    let recent := ((s.die d).rowErrs.filter (fun e => (s.ftime + (2 ^ 64 - e.2)) % 2 ^ 64 < 1000000000))
    let l := (faultRow w, s.ftime) :: recent
    let noted := u.modDie d (fun x => { x with rowErrs := l })
    (d < 4 → exec (.errorDetected (.corrected d none)) s = .next u
      ∧ ((l.filter (·.1 = faultRow w)).length < 16 → exec (.errorDetected (.corrected d (some w))) s = .next noted)
      ∧ (16 ≤ (l.filter (·.1 = faultRow w)).length → exec (.errorDetected (.corrected d (some w))) s = .next (noted.pprAdd w)))
    ∧ (isHeld pa = true → (∃ t, exec (.errorDetected (.poisonLine pa none)) s = .next t ∧ lineOf pa ∈ t.poison ∧ t = { s with poison := t.poison })
      ∧ ∃ t : State, exec (.errorDetected (.poisonLine pa (some w))) s = .next (t.pprAdd w) ∧ lineOf pa ∈ t.poison ∧ t = { s with poison := t.poison })
    ∧ (bank < 192 → exec (.errorDetected (.poisonWord bank (.x r))) s = .next (s.modBank bank (fun b => { b with marks := .x r :: b.marks }))
      ∧ exec (.errorDetected (.poisonWord bank (.engineRegs e))) s = .next (s.modBank bank (fun b => { b with marks := .regs e :: b.marks }))
      ∧ exec (.errorDetected (.poisonWord bank (.accumulator b d))) s = .next (s.modBank bank (fun k => { k with marks := .acc b d :: k.marks }))
      ∧ exec (.errorDetected (.poisonWord bank (.storeWord e d))) s
        = .next (s.modCore (coreOf bank) (fun c => { c with marks := ((engIx e).val, d) :: c.marks }))
      ∧ (∀ q, ∃ t, exec (.errorDetected (.poisonWord bank (.element q d))) s = .next t
        ∧ ((t.bank bank).queueOf q).map (·.bad) = ((s.bank bank).queueOf q).mapIdx (fun j v => decide (j = d) || v.bad) ∧ t.mem = s.mem)
      ∧ ∃ t, exec (.errorDetected (.poisonWord bank (.command e d))) s = .next t
        ∧ (((t.bank bank).engine e).queue).map (·.bad) = (((s.bank bank).engine e).queue).mapIdx (fun j c => decide (j = d) || c.bad)
        ∧ t.mem = s.mem)

/-- Links, accesses from outside and atomics of another module's agents (R28, R46, R59, R148 to R150, R343, R348, R351). -/
def Obligations.LinksAndOutside : Prop :=
  Claim.LinksComplete ∧ Claim.OutsideAccesses ∧ Claim.PeerAtomics ∧ Claim.ErrorsDetected

/-! ### The management path (R142, R342, R344 to R350) -/

/-- Registers: a read answers with the register's value, and of RASSTAT arms vector 1 again; a write of a read-only register changes
nothing, of DOMCFG and SCHEDCFG takes effect; a number the die does not have faults (log 44). A write of L2PART goes by the same
operation. PF BAR0 holds the invalidation queue's registers, `iqhead` read-only, and the VF configuration blocks; they can be read, `rst`
as zero (R7, R344 to R346, R355, R375; log 76, 90). -/
def Claim.ManagementRegisters : Prop :=
  ∀ (s : State) (r : MgmtReg) (v : Word) (d : Nat), s.operates = true → s.cur.port = .mailbox →
    let write := fun (r : MgmtReg) => exec (.regWrite r v) s
    (∀ x, s.regValue r = some x → ∃ t, exec (.regRead r) s = .next t ∧ t.host.answer = [x] ∧ t.host.status = .ok ∧ t.mem = s.mem
      ∧ t.banks = s.banks ∧ (∀ k, r = .rasstat k → (t.die k).rasRaised = false))
    ∧ (s.regValue r = none → exec (.regRead r) s = .fault .noAddress ∧ write r = .fault .noAddress)
    ∧ write .domcfg = .next { completed s with host := { (completed s).host with domcfg := v &&& 0x3F#64 } }
    ∧ write .dtstat = .next (completed s) ∧ write .tstat = .next (completed s) ∧ write .biststat = .next (completed s)
    ∧ (d < 4 → write (.schedcfg d) = .next ((completed s).modDie d (fun x => { x with schedcfg := v }))
      ∧ write (.caps d) = .next (completed s) ∧ write (.rasstat d) = .next (completed s)
      ∧ write (.l2part d) = exec (.l2partWrite d v) s
      ∧ ∃ t, exec (.l2partWrite d v) s = .next t ∧ (t.die d).l2part = v &&& 15#64 ∧ t.banks = s.banks)
    ∧ (s.host.stopped = false → exec (.registerWrite 0x1000 (some v)) s = .next { s with host := { s.host with iqbase := v } }
      ∧ exec (.registerWrite 0x1008 (some v)) s = .next { s with host := { s.host with iqlog := bits v.toNat 0 4 } }
      ∧ exec (.registerWrite 0x1010 (some v)) s = .next { s with host := { s.host with iqtail := v } }
      ∧ exec (.registerWrite 0x1018 (some v)) s = .next s
      ∧ (let reads := fun off (x : Word) => exec (.registerWrite off none) s = .next { s with host := { s.host with answer := [x] } }
        reads 0x1000 s.host.iqbase ∧ reads 0x1008 (BitVec.ofNat 64 s.host.iqlog) ∧ reads 0x1010 s.host.iqtail
        ∧ reads 0x1018 s.host.iqhead
        ∧ ∀ vf, vf < 512 → reads (0x100000 + 32 * vf) (s.vf vf).astbase ∧ reads (0x100000 + 32 * vf + 8) (BitVec.ofNat 64 (s.vf vf).astsize)
          ∧ reads (0x100000 + 32 * vf + 16) (s.vf vf).svec
          ∧ reads (0x100000 + 32 * vf + 24)
            (BitVec.ofNat 64 ((if (s.vf vf).en then 2 ^ 63 else 0) + (s.vf vf).weight * 2 ^ 24 + (s.vf vf).quota))))
    ∧ (∀ err ref, s.host.stopped = false → exec (.tstatLockChange err ref) s
      = .next { s with host := { s.host with tstatErr := err, tstatRef := ref } })

/-- VFs: enabling starts the generation counter at 1 with no binding generation; a reset, and an FLR, leave no nest, no object and no
fault record of the VF and its rings idle; a PF write to a VF that is LOCKED or in RUN puts it into ERROR and resets it; TDISP
messages inside an SPDM session move the VF between its states (R93, R346, R347, R349; log 43, 50). -/
def Claim.VirtualFunctions : Prop :=
  ∀ (s : State) (vf : Nat), s.operates = true → vf < 512 →
    (s.frozen vf = false → (s.vf vf).en = false → ∃ t, exec (.vfEnable vf) s = .next t ∧ (t.vf vf).en = true ∧ (t.vf vf).gen = 1
      ∧ (∀ n, t.genOf vf n = 0) ∧ (∀ w n, w ≠ vf → t.vf w = s.vf w ∧ t.genOf w n = s.genOf w n) ∧ t.mem = s.mem)
    ∧ (s.frozen vf = false → exec (.vfReset vf) s = .next (s.resetVf vf))
    ∧ (s.frozen vf = true → exec (.vfReset vf) s = .next (s.tdispError vf) ∧ exec (.vfEnable vf) s = .next (s.tdispError vf))
    ∧ exec (.flr vf) s = .next (s.resetVf vf)
    ∧ (let t := s.resetVf vf
      (∀ n ∈ t.nests, n.vf ≠ vf) ∧ (∀ i, (t.slot i).used = true → (t.slot i).vf ≠ vf)
      ∧ ∀ d, d < 4 → (∀ r ∈ (t.die d).faults, r.2.vf ≠ vf)
        ∧ ∀ r, ((t.die d).ring r).vf = vf → ((t.die d).ring r).active = false ∧ ((t.die d).ring r).pending = false)
    ∧ (s.host.session.isSome = true →
      let goes := fun (t : Tdi) => s.setVf vf { s.vf vf with tdi := t }
      ((s.vf vf).tdi = .unlocked → exec (.lockInterface vf) s = .next (goes .locked))
      ∧ ((s.vf vf).tdi = .locked → exec (.startInterface vf) s = .next (goes .run))
      ∧ exec (.stopInterface vf) s = .next (goes .unlocked))

/-- Firmware and security: an image of good signature and no lower version, and as the model reads it of good form (log 51), goes to the
inactive slot, its partition written in one step (log 49); activation takes effect at the next reset; a key exchange answers with the
device's identity chain and opens a session, and a session carries the keys of a port; the measurements are the SHA-256 digests of the
four blocks (R342, R349, R350; log 11 for what is uninterpreted). -/
def Claim.FirmwareAndKeys : Prop :=
  ∀ (s : State) (image : List Byte) (port : Nat) (key : BitVec 256), s.host.stopped = false →
    (s.host.safe = false ∨ s.cur.port = .mailbox) →
    let staged := exec (.fwStage image) s
    let d := completed s
    (fwForm image = true → rsaVerifies Config.fwKey (image.take 64 ++ image.drop 448) ((image.drop 64).take 384) = true →
      s.host.fwMin ≤ leNat ((image.drop 8).take 4) →
      (s.host.fwActive = 0 → staged = .next { d with host := { d.host with fw1 := image, fwStaged := true } })
      ∧ (s.host.fwActive ≠ 0 → staged = .next { d with host := { d.host with fw0 := image, fwStaged := true } }))
    ∧ ((fwForm image = false ∨ rsaVerifies Config.fwKey (image.take 64 ++ image.drop 448) ((image.drop 64).take 384) = false
      ∨ leNat ((image.drop 8).take 4) < s.host.fwMin) → staged = .next d)
    ∧ (s.host.fwStaged = true → exec .fwActivate s = .next { d with host := { d.host with fwPending := true } })
    ∧ (s.host.fwStaged = false → exec .fwActivate s = .next d)
    ∧ (∃ k, exec .spdmKeyExchange s
      = .next { s with host := { s.host with session := some k, answer := Config.identityChain.map (·.setWidth 64) } })
    ∧ (s.host.session.isSome = true → port < 5 → exec (.ideKm port key) s
      = .next { s with host := { s.host with ideKeys := PMap.put s.host.ideKeys port key } })
    ∧ exec .getMeasurements s = .next { s with host := { s.host with answer := (s.measured.flatMap sha256).map (·.setWidth 64) } }
    ∧ s.measured.length = 4

/-- The management path (R142, R342, R344 to R350). -/
def Obligations.Management : Prop :=
  Claim.ManagementRegisters ∧ Claim.VirtualFunctions ∧ Claim.FirmwareAndKeys ∧ Claim.CommandStatus

/-! ### Reset, encodings, and the step -/

/-- The machine after reset: the values the spec gives (R4, R7, R54, R59, R93, R142, R194, R344 to R346, R358), no task, nest, object or
record anywhere; and, by the model's choice where the spec gives none (log 2, log 3), every x register and every byte of memory 0. -/
def Obligations.ResetState : Prop :=
  let s := State.reset
  MemOk s ∧ s.cycle = 0 ∧ s.nests = [] ∧ s.slots = [] ∧ s.nameGen = [] ∧ s.saved = [] ∧ s.poison = [] ∧ s.betony.rdy = false
  ∧ s.host.domcfg = 1#64 ∧ s.host.tstat = 0xFFFF00000000
  ∧ (∀ d, d < 4 → (s.die d).schedcfg = 0x000F424000086470#64 ∧ (s.die d).l2part = 4#64 ∧ (s.die d).rasstat = 0
    ∧ (s.die d).faults = [] ∧ (s.die d).slots = [] ∧ (s.die d).grant = 1023 ∧ (s.die d).linkDown = false)
  ∧ (∀ v, (s.vf v).en = false ∧ (s.vf v).weight = 1 ∧ (s.vf v).quota = 0x80 ∧ (s.vf v).tdi = .unlocked)
  ∧ (∀ m, (s.bank m).task = none ∧ (s.bank m).instret = 0 ∧ ∀ r, (s.bank m).readX r = 0#64)
  ∧ (∀ a, s.mem.get a = 0#8)

/-- Words written out from the tables of R221, R225, R230, R231, R233, R235 and R238 decode to the instructions they stand for. -/
def Obligations.SpecWords : Prop :=
  decodeScalar (bytes32 0b00000000000001010000000110001011#32) = .ok (.xlat 10#5 3#4, 4)
  ∧ decodeScalar (bytes32 0b00000010000000010001001010001011#32) = .ok (.qpop 5#5 2#3, 4)
  ∧ decodeScalar (bytes32 0b00001100000000000011000000101011#32) = .ok (.phsw, 4)
  ∧ decodeScalar (bytes32 0b00000010011100110000001011011011#32) = .ok (.dopenW 5#5 6#5 7#5, 4)
  ∧ decodeScalar (bytes32 0b00000000000000110000001011111011#32) = .ok (.vcfp 5#5 6#5, 4)
  ∧ decodeScalar (bytes32 0b11111111110000010010000010000011#32) = .ok (.load .lw 1#5 2#5 0xFFC#12, 4)
  ∧ decodeWord .mx 0b1000000000000101#16 = .ok (.literal 5#15)
  ∧ decodeWord .vx 0b0000110000000001#16 = .ok (.loop 1#2)
  ∧ decodeWord .vx 0b0010100010000000#16 = .ok (.vadd 2#3 false 0#2)
  ∧ decodeWord .cx 0b0010100001000100#16 = .ok (.cpy 1#3 0#2 1#2 0#2)
  ∧ decodeWord .sx 0b0010110000000001#16 = .ok (.selk 1#4)
  ∧ decodeWord .mx 0b0010110011001110#16 = .ok (.mm 2#2 1#2 true 3#4 2#2)

/-- Decoding and encoding agree: every control-core form, and every word legal in an engine, decodes from its own encoding, with every
operand at every value the encoding admits (R219 to R238). -/
def Obligations.RoundTrip : Prop :=
  (∀ i : Instr, i.scalarOk = true → decodeScalar (bytes32 (encode32 i)) = .ok (i, 4))
  ∧ (∀ (e : Engine) (i : Instr), i.wordOk e = true → decodeWord e (encodeWord i) = .ok i)

/-- Every step keeps the memory of bytes and the media of the durable tier in canonical form. -/
def Obligations.StepKeepsMemOk : Prop := ∀ s t : State, MemOk s → step s = .next t → MemOk t

/-- No instruction is refused, no turn of a control core or an engine stops, and the only fault is of a step from outside that names an
address or a number that does not exist, which is the model's choice (log 44). -/
def Obligations.OnlyOutsideFaults : Prop :=
  ∀ s : State,
    let p := s.pass s.nextTurn
    ((∀ i, s.nextTurn.who ≠ .event i) → ∃ t, step s = .next t)
    ∧ (∀ r, step s ≠ .refused r)
    ∧ (∀ f, step s = .fault f → ∃ i, s.nextTurn.who = .event i ∧ match i with
      | .regRead r | .regWrite r _ => p.regValue r = none
      | .rsvdRead off len => durableEnd - reservedBase < off + len
      | .flr vf | .vfEnable vf | .vfReset vf => 512 ≤ vf
      | .l2partWrite d _ => 4 ≤ d
      | .flashLoad off data => flashSize < off + data.length
      | .registerWrite off _ => off ∉ [0x1000, 0x1008, 0x1010, 0x1018] ∧ ¬ (0x100000 ≤ off ∧ off < 0x104000 ∧ off % 8 = 0)
      | .errorDetected (.corrected d _) => 4 ≤ d
      | .errorDetected (.poisonLine pa _) => isHeld pa = false
      | .errorDetected (.poisonWord bank _) => 192 ≤ bank
      | .hostMemAccess off len _ => p.hdmMissing off len = true
      | _ => False)

/-- A step is the turn of the agent whose turn is next, once its time has passed: a control core in a bank that may run, with no trap due,
runs the instruction that its bytes at the pc decode to, and takes illegal-instruction where they decode to none; where the
instruction reads a poisoned register, and is not illegal by its bits and the mode (R222), the bank consumes it; a save or a drain that has begun goes on first; an engine runs the word it
stands at, also in a drain, unless the word has stopped, and an illegal word drains the bank and ends the nest; a step of the device or the
host is that step (R4, R157, R172, R178, R179, R225, R229, R352). -/
def Obligations.StepRunsDecoded : Prop :=
  ∀ (s : State),
    let p := s.pass s.nextTurn
    (∀ bid c t bs, s.nextTurn.who = .core bid → (p.bank bid).saving = none → (p.bank bid).draining = .none → p.claimAll bid = some c →
      (c.bank bid).loading = false → c.handleBank bid = bid → ((c.reissueCore bid).bank bid).due = none →
      (fetchBytes bid).run (c.reissueCore bid) = .ok bs t →
      let u := { t with cur := { t.cur with bid := bid, eng := none, ilen := bs.length, ibits := leNat bs } }
      (∀ i n, decodeScalar bs = .ok (i, n) → u.readsPoison bid i = false → step s = exec i u)
      ∧ (∀ i n, decodeScalar bs = .ok (i, n) → u.readsPoison bid i = true → step s = .next (u.agentPoison bid none none))
      ∧ (∀ e, decodeScalar bs = .error e → step s = .next (u.takeTrap bid 2 (leNat bs))))
    ∧ (∀ bid c, s.nextTurn.who = .core bid → (p.bank bid).saving = none → (p.bank bid).draining = .none →
      p.claimAll bid = some c → (c.bank bid).loading = false → c.handleBank bid = bid →
      ((c.reissueCore bid).bank bid).due.isSome = true → step s = .next ((c.reissueCore bid).takeDue bid))
    ∧ (∀ bid, s.nextTurn.who = .core bid → p.host.stopped = false → p.host.safe = false →
      ((p.bank bid).saving ≠ none → step s = .next (p.saveStep bid))
      ∧ ((p.bank bid).saving = none → (p.bank bid).draining ≠ .none → step s = .next (p.settleDrain bid)))
    ∧ (∀ bid e c m w, s.nextTurn.who = .engine bid e → p.engineTurn bid = some (c, [m]) → (c.bank m).task.isSome = true →
      (c.bank m).loading = false → (if c.drains m then !c.stays m e else c.isActive m && c.ready m) = true →
      (c.reissueWord m e).engineWord m e = some w → (c.reissueWord m e).wordPoison m e = false →
      let u := { c.reissueWord m e with cur := { (c.reissueWord m e).cur with bid := m, eng := some e, ilen := 2, ibits := w.toNat } }
      let out := match decodeWord e w with | .ok i => exec i u | .error _ => .next (u.faultEnd m e 0x10)
      (∀ t, out = .next t → (t.drains bid = false → step s = .next t)
        ∧ (t.drains bid = true → ∃ moved, step s = .next (t.noteTurn bid e moved)))
      ∧ ((∀ t, out ≠ .next t) → step s = out))
    ∧ (∀ i, s.nextTurn.who = .event i → i.isEvent = true → step s = exec i p)
end

