-- ==== Sys2Proof/Laws/Maps.lean ====
section
/-! SUPPORT. Laws of sparse maps: reading after writing, and the rising order of keys. -/

namespace Sys2Proof.Machine

variable {α : Type}

@[simp] theorem PMap.get_nil (d : α) (k : Nat) : PMap.get d [] k = d := rfl
@[simp] theorem PMap.find_nil (k : Nat) : PMap.find ([] : PMap α) k = none := rfl

@[simp] theorem PMap.get_put (d : α) (m : PMap α) (k j : Nat) (v : α) :
    PMap.get d (PMap.put m k v) j = if k = j then v else PMap.get d m j := by
  induction m with
  | nil => simp [PMap.put, PMap.get]
  | cons e t ih =>
    obtain ⟨i, w⟩ := e
    simp only [PMap.put]
    split
    · next h => subst h; simp only [PMap.get]; split <;> simp_all
    · split
      · simp only [PMap.get]
      · simp only [PMap.get, ih]; split <;> split <;> simp_all

@[simp] theorem PMap.find_put (m : PMap α) (k j : Nat) (v : α) :
    PMap.find (PMap.put m k v) j = if k = j then some v else PMap.find m j := by
  induction m with
  | nil => simp [PMap.put, PMap.find]
  | cons e t ih =>
    obtain ⟨i, w⟩ := e
    simp only [PMap.put]
    split
    · next h => subst h; simp only [PMap.find]; split <;> simp_all
    · split
      · simp only [PMap.find]
      · simp only [PMap.find, ih]; split <;> split <;> simp_all

@[simp] theorem PMap.find_erase (m : PMap α) (k j : Nat) : PMap.find (PMap.erase m k) j = if k = j then none else PMap.find m j := by
  induction m with
  | nil => simp [PMap.erase]
  | cons e t ih =>
    obtain ⟨i, w⟩ := e
    have ih' : PMap.find (t.filter (fun e => decide (e.1 ≠ k))) j = if k = j then none else PMap.find t j := ih
    unfold PMap.erase
    by_cases hi : i = k
    · rw [List.filter_cons_of_neg (by simp [hi]), ih']
      by_cases hj : k = j <;> simp [PMap.find, hi, hj]
    · rw [List.filter_cons_of_pos (by simp [hi])]
      by_cases hij : i = j
      · subst hij; simp [PMap.find, Ne.symm hi]
      · simp only [PMap.find, hij, if_false, ih']

@[simp] theorem PMap.put_put (m : PMap α) (k : Nat) (v w : α) : PMap.put (PMap.put m k v) k w = PMap.put m k w := by
  induction m with
  | nil => simp [PMap.put]
  | cons e t ih =>
    obtain ⟨i, u⟩ := e
    by_cases h : i = k
    · simp [PMap.put, h]
    · by_cases h2 : k < i
      · simp [PMap.put, h, h2]
      · simp [PMap.put, h, h2, ih]

theorem PMap.get_eq_find (d : α) (m : PMap α) (k : Nat) : PMap.get d m k = (PMap.find m k).getD d := by
  induction m with
  | nil => rfl
  | cons e t ih =>
    obtain ⟨i, u⟩ := e
    by_cases h : i = k <;> simp [PMap.get, PMap.find, h, ih]

theorem PMap.mem_put {m : PMap α} {k : Nat} {v : α} {x : Nat × α} (h : x ∈ PMap.put m k v) : x = (k, v) ∨ x ∈ m := by
  induction m with
  | nil => simpa [PMap.put] using h
  | cons e t ih =>
    obtain ⟨j, w⟩ := e
    simp only [PMap.put] at h
    simp only [List.mem_cons]
    split at h
    · simp only [List.mem_cons] at h; tauto
    · split at h
      · simp only [List.mem_cons] at h; tauto
      · simp only [List.mem_cons] at h; tauto

/-- The keys of a map rise. -/
def PMap.Rising (m : PMap α) : Prop := m.Pairwise (fun a b => a.1 < b.1)

theorem PMap.rising_put {m : PMap α} (h : m.Rising) (k : Nat) (v : α) : (PMap.put m k v).Rising := by
  induction m with
  | nil => simp [PMap.put, PMap.Rising]
  | cons e t ih =>
    obtain ⟨i, u⟩ := e
    simp only [PMap.Rising, List.pairwise_cons] at h
    simp only [PMap.put]
    split
    · next hk => subst hk; simpa [PMap.Rising] using h
    · next hk =>
      split
      · next hlt =>
        simp only [PMap.Rising, List.pairwise_cons, List.mem_cons]
        refine ⟨?_, h⟩
        rintro x (rfl | hx)
        · exact hlt
        · exact lt_trans hlt (h.1 x hx)
      · next hge =>
        simp only [PMap.Rising, List.pairwise_cons]
        refine ⟨?_, ih h.2⟩
        intro x hx
        rcases PMap.mem_put hx with rfl | hx
        · show i < k; omega
        · exact h.1 x hx

theorem PMap.rising_erase {m : PMap α} (h : m.Rising) (k : Nat) : (PMap.erase m k).Rising := List.Pairwise.filter _ h

theorem PMap.rising_filter {m : PMap α} (h : m.Rising) (p : Nat × α → Bool) : PMap.Rising (m.filter p) :=
  List.Pairwise.filter _ h

@[simp] theorem PMap.get_erase (d : α) (m : PMap α) (k j : Nat) :
    PMap.get d (PMap.erase m k) j = if k = j then d else PMap.get d m j := by
  induction m with
  | nil => simp [PMap.erase]
  | cons e t ih =>
    obtain ⟨i, u⟩ := e
    simp only [PMap.erase] at ih ⊢
    by_cases h : i = k
    · subst h
      rw [List.filter_cons_of_neg (by simp), ih]
      by_cases h2 : i = j <;> simp [PMap.get, h2]
    · rw [List.filter_cons_of_pos (by simpa using h)]
      simp only [PMap.get, ih]
      by_cases h2 : i = j
      · have : k ≠ j := fun h3 => h (h2.trans h3.symm)
        simp [h2, this]
      · simp [h2]

/-- What a map over the banks that keeps the keys leaves at a key. -/
theorem PMap.get_map {α : Type} (d : α) (f : Nat × α → Nat × α) (hk : ∀ e, (f e).1 = e.1) (hd : ∀ k, (f (k, d)).2 = d)
    (m : PMap α) (k : Nat) : PMap.get d (m.map f) k = (f (k, PMap.get d m k)).2 := by
  induction m with
  | nil => simp [hd]
  | cons e m ih =>
    obtain ⟨j, v⟩ := e
    have := hk (j, v)
    simp only [List.map_cons]
    rw [show f (j, v) = (j, (f (j, v)).2) from Prod.ext this rfl]
    simp only [PMap.get]
    by_cases h : j = k
    · subst h; simp
    · simp [h, ih]

end Sys2Proof.Machine
end

