-- ==== Sys2Proof/Laws/Memory.lean ====
section
/-! SUPPORT. Laws of the memory of bytes: reading after writing, and that every operation keeps the canonical form. -/

namespace Sys2Proof.Machine

/-! ### The canonical form as a proposition -/

/-- Rising addresses, and no entry equal to what an unlisted address reads as. -/
def Mem.Good (m : Mem) : Prop := PMap.Rising m.cells ∧ ∀ e ∈ m.cells, e.2 ≠ m.base e.1

theorem Mem.sorted_iff (l : List Host.Cell) : Mem.sorted l = true ↔ PMap.Rising l := by
  induction l with
  | nil => simp [Mem.sorted, PMap.Rising]
  | cons e t ih =>
    obtain ⟨a, v⟩ := e
    cases t with
    | nil => simp [Mem.sorted, PMap.Rising]
    | cons f t =>
      obtain ⟨b, w⟩ := f
      simp only [Mem.sorted, Bool.and_eq_true, decide_eq_true_eq, ih]
      constructor
      · rintro ⟨h1, h2⟩
        refine List.pairwise_cons.2 ⟨?_, h2⟩
        rintro x hx
        rcases List.mem_cons.1 hx with rfl | hx
        · exact h1
        · exact lt_trans h1 ((List.pairwise_cons.1 h2).1 x hx)
      · intro h
        have := List.pairwise_cons.1 h
        exact ⟨this.1 _ (List.mem_cons_self ..), this.2⟩

theorem Mem.wf_iff (m : Mem) : m.wf = true ↔ m.Good := by
  simp only [Mem.wf, Bool.and_eq_true, Mem.sorted_iff, List.all_eq_true, bne_iff_ne, Mem.Good]

/-! ### Reading after writing -/

@[simp] theorem Mem.base_set (m : Mem) (a : Nat) (v : Byte) : (m.set a v).base = m.base := by
  funext x; unfold Mem.set; split <;> rfl

@[simp] theorem Mem.get_set (m : Mem) (a x : Nat) (v : Byte) : (m.set a v).get x = if a = x then v else m.get x := by
  have hb : (m.set a v).base x = m.base x := by rw [Mem.base_set]
  unfold Mem.get
  rw [hb]
  unfold Mem.set
  split
  · next h =>
    show PMap.get (m.base x) (PMap.erase m.cells a) x = _
    rw [PMap.get_erase]
    split
    · next hx => subst hx; exact h.symm
    · rfl
  · show PMap.get (m.base x) (PMap.put m.cells a v) x = _
    rw [PMap.get_put]

@[simp] theorem Mem.base_write (m : Mem) (a : Nat) (bs : List Byte) : (m.write a bs).base = m.base := by
  induction bs generalizing m a with
  | nil => rfl
  | cons b bs ih => rw [Mem.write, ih, Mem.base_set]

/-- A byte after a write: the byte written there, or the byte before. -/
theorem Mem.get_write (m : Mem) (a x : Nat) (bs : List Byte) :
    (m.write a bs).get x = if a ≤ x ∧ x < a + bs.length then bs.getD (x - a) 0 else m.get x := by
  induction bs generalizing m a with
  | nil => simp [Mem.write]
  | cons b bs ih =>
    rw [Mem.write, ih, Mem.get_set]
    by_cases h1 : a = x
    · subst h1
      simp
    · by_cases h2 : a + 1 ≤ x ∧ x < a + 1 + bs.length
      · have h3 : a ≤ x ∧ x < a + (b :: bs).length := by simp only [List.length_cons]; omega
        rw [if_pos h2, if_pos h3]
        obtain ⟨n, hn⟩ : ∃ n, x - a = n + 1 := ⟨x - a - 1, by omega⟩
        rw [hn, show x - (a + 1) = n by omega]
        rfl
      · have h3 : ¬(a ≤ x ∧ x < a + (b :: bs).length) := by simp only [List.length_cons]; omega
        rw [if_neg h2, if_neg h3, if_neg h1]

/-- A write leaves every byte outside its range. -/
theorem Mem.get_write_outside (m : Mem) (a x : Nat) (bs : List Byte) (h : x < a ∨ a + bs.length ≤ x) :
    (m.write a bs).get x = m.get x := by
  rw [Mem.get_write, if_neg (by omega)]

theorem Mem.read_length (m : Mem) (a n : Nat) : (m.read a n).length = n := by
  induction n generalizing a with
  | zero => rfl
  | succ n ih => simp [Mem.read, ih]

theorem Mem.read_getD (m : Mem) (a n i : Nat) (h : i < n) : (m.read a n).getD i 0 = m.get (a + i) := by
  induction n generalizing a i with
  | zero => omega
  | succ n ih =>
    cases i with
    | zero => rfl
    | succ i =>
      show (m.read (a + 1) n).getD i 0 = _
      rw [ih (a + 1) i (by omega)]
      congr 1
      omega

/-! ### Every operation keeps the canonical form -/

theorem Mem.good_empty : Mem.empty.Good := by simp [Mem.Good, Mem.empty, PMap.Rising]

theorem Mem.wf_empty : Mem.empty.wf = true := rfl

theorem Mem.good_set {m : Mem} (h : m.Good) (a : Nat) (v : Byte) : (m.set a v).Good := by
  have hb := Mem.base_set m a v
  refine ⟨?_, ?_⟩
  · unfold Mem.set
    split
    · exact PMap.rising_erase h.1 a
    · exact PMap.rising_put h.1 a v
  · intro e he
    rw [hb]
    unfold Mem.set at he
    split at he
    · exact h.2 e (List.mem_of_mem_filter he)
    · next hv =>
      rcases PMap.mem_put he with rfl | he
      · exact hv
      · exact h.2 e he

theorem Mem.good_write {m : Mem} (h : m.Good) (a : Nat) (bs : List Byte) : (m.write a bs).Good := by
  induction bs generalizing m a with
  | nil => exact h
  | cons b bs ih => exact ih (Mem.good_set h a b) (a + 1)

theorem Mem.base_cons (m : Mem) (b : Blank) (x : Nat) (h : ¬(b.lo ≤ x ∧ x < b.hi)) :
    (⟨m.cells, b :: m.blanks⟩ : Mem).base x = m.base x := by
  unfold Mem.base
  rw [List.find?_cons_of_neg (by simpa using h)]

theorem Mem.base_congr (m : Mem) (cs : List Host.Cell) (x : Nat) : (⟨cs, m.blanks⟩ : Mem).base x = m.base x := rfl

theorem Mem.good_blank {m : Mem} (h : m.Good) (lo hi : Nat) (t : Option Nat) : (m.blank lo hi t).Good := by
  have hf : ∀ e ∈ m.cells.filter (fun e => !(decide (lo ≤ e.1) && decide (e.1 < hi))), e ∈ m.cells ∧ ¬(lo ≤ e.1 ∧ e.1 < hi) := by
    intro e he
    have := List.mem_filter.1 he
    refine ⟨this.1, ?_⟩
    have h2 := this.2
    simp only [Bool.not_eq_true', Bool.and_eq_false_iff, decide_eq_false_iff_not] at h2
    omega
  unfold Mem.blank
  split
  · refine ⟨PMap.rising_filter h.1 _, ?_⟩
    intro e he
    rw [Mem.base_congr]
    exact h.2 e (hf e he).1
  · refine ⟨PMap.rising_filter h.1 _, ?_⟩
    intro e he
    have h1 := hf e he
    show e.2 ≠ Mem.base ⟨m.cells, ⟨lo, hi, t⟩ :: m.blanks⟩ e.1
    rw [Mem.base_cons m ⟨lo, hi, t⟩ e.1 h1.2]
    exact h.2 e h1.1

theorem find_map_clip (lo hi x : Nat) (hx : lo ≤ x ∧ x < hi) (l : List Blank) :
    (((l.filter (fun b => decide (b.lo < hi) && decide (lo < b.hi))).map
      (fun b => (⟨max lo b.lo, min hi b.hi, b.since⟩ : Blank))).find? (fun b => decide (b.lo ≤ x) && decide (x < b.hi))).map (·.since)
      = (l.find? (fun b => decide (b.lo ≤ x) && decide (x < b.hi))).map (·.since) := by
  induction l with
  | nil => rfl
  | cons b t ih =>
    by_cases h : b.lo ≤ x ∧ x < b.hi
    · have h1 : (decide (b.lo < hi) && decide (lo < b.hi)) = true := by simp; omega
      rw [List.filter_cons, if_pos h1, List.map_cons, List.find?_cons_of_pos (by simp; omega), List.find?_cons_of_pos (by simpa using h)]
      rfl
    · rw [List.find?_cons_of_neg (l := t) (by simpa using h)]
      by_cases h1 : (decide (b.lo < hi) && decide (lo < b.hi)) = true
      · rw [List.filter_cons, if_pos h1, List.map_cons, List.find?_cons_of_neg (by simp; omega)]
        exact ih
      · rw [List.filter_cons, if_neg h1]
        exact ih

theorem Mem.base_eq (m : Mem) (x : Nat) :
    m.base x = match (m.blanks.find? (fun b => decide (b.lo ≤ x) && decide (x < b.hi))).map (·.since) with
      | some (some t) => Config.freeByte t x
      | _ => 0#8 := by
  unfold Mem.base
  cases m.blanks.find? (fun b => decide (b.lo ≤ x) && decide (x < b.hi)) with
  | none => rfl
  | some b => obtain ⟨_, _, s⟩ := b; cases s <;> rfl

theorem Mem.base_clip (m : Mem) (lo hi x : Nat) (h : lo ≤ x ∧ x < hi) : (m.clip lo hi).base x = m.base x := by
  rw [Mem.base_eq, Mem.base_eq]
  show (match ((((m.blanks.filter _).map _).find? _).map _ : Option (Option Nat)) with
    | some (some t) => Config.freeByte t x | _ => 0#8) = _
  rw [find_map_clip lo hi x h]

theorem Mem.good_clip {m : Mem} (h : m.Good) (lo hi : Nat) : (m.clip lo hi).Good := by
  refine ⟨PMap.rising_filter h.1 _, ?_⟩
  intro e he
  have h1 := List.mem_filter.1 he
  have h2 : lo ≤ e.1 ∧ e.1 < hi := by simpa using h1.2
  rw [Mem.base_clip m lo hi e.1 h2]
  exact h.2 e h1.1

theorem Mem.good_foldl_set (cs : List Host.Cell) {m : Mem} (h : m.Good) : (cs.foldl (fun m e => m.set e.1 e.2) m).Good := by
  induction cs generalizing m with
  | nil => exact h
  | cons e t ih => exact ih (Mem.good_set h e.1 e.2)

theorem Mem.good_graft {m : Mem} (h : m.Good) (lo hi : Nat) (old : Mem) : (m.graft lo hi old).Good := by
  have hb : (m.blank lo hi none).Good := Mem.good_blank h lo hi none
  refine Mem.good_foldl_set _ ?_
  refine ⟨hb.1, ?_⟩
  intro e he
  have hout : ¬(lo ≤ e.1 ∧ e.1 < hi) := by
    have : e ∈ m.cells.filter (fun e => !(decide (lo ≤ e.1) && decide (e.1 < hi))) := by
      revert he; unfold Mem.blank; split <;> exact id
    have h2 := (List.mem_filter.1 this).2
    simp only [Bool.not_eq_true', Bool.and_eq_false_iff, decide_eq_false_iff_not] at h2
    omega
  have : (⟨(m.blank lo hi none).cells, (old.clip lo hi).blanks ++ (m.blank lo hi none).blanks⟩ : Mem).base e.1
      = (m.blank lo hi none).base e.1 := by
    unfold Mem.base
    rw [List.find?_append]
    have hn : (old.clip lo hi).blanks.find? (fun b => decide (b.lo ≤ e.1) && decide (e.1 < b.hi)) = none := by
      rw [List.find?_eq_none]
      intro b hb
      obtain ⟨c, _, rfl⟩ := List.mem_map.1 hb
      simp only [Bool.and_eq_true, decide_eq_true_eq]
      omega
    rw [hn]
    rfl
  rw [this]
  exact hb.2 e he

/-! ### Undefined bytes that come back -/

@[simp] theorem Mem.blanks_set (m : Mem) (a : Nat) (v : Byte) : (m.set a v).blanks = m.blanks := by
  unfold Mem.set; split <;> rfl

theorem Mem.undefinedAt_set (m : Mem) (a x : Nat) (v : Byte) (h : a ≠ x) : (m.set a v).undefinedAt x = m.undefinedAt x := by
  unfold Mem.undefinedAt
  rw [Mem.blanks_set]
  congr 2
  unfold Mem.set
  split
  · simp [h]
  · simp [h]

theorem Mem.good_mend {m : Mem} (h : m.Good) (lo hi : Nat) (old : Mem) : (m.mend lo hi old).Good := by
  unfold Mem.mend
  split
  · generalize (List.range (hi - lo)).filter _ = l
    generalize hm : m = t at h ⊢
    clear hm
    induction l generalizing t with
    | nil => exact h
    | cons i l ih => exact ih _ (Mem.good_set h _ _)
  · exact h

/-- A byte that is not undefined stays what it is, and is not undefined then. -/
theorem Mem.mend_defined (m : Mem) (lo hi : Nat) (old : Mem) (a : Nat) (h : m.undefinedAt a = false) :
    (m.mend lo hi old).get a = m.get a ∧ (m.mend lo hi old).undefinedAt a = false := by
  have key : ∀ (l : List Nat) (t : Mem), (∀ i ∈ l, lo + i ≠ a) → t.undefinedAt a = false →
      (l.foldl (fun t i => t.set (lo + i) (old.get (lo + i))) t).get a = t.get a
        ∧ (l.foldl (fun t i => t.set (lo + i) (old.get (lo + i))) t).undefinedAt a = false := by
    intro l
    induction l with
    | nil => exact fun t _ ht => ⟨rfl, ht⟩
    | cons i l ih =>
      intro t hl ht
      have hi : lo + i ≠ a := hl i (List.mem_cons_self ..)
      have k := ih (t.set (lo + i) (old.get (lo + i))) (fun j hj => hl j (List.mem_cons_of_mem _ hj))
        (by rw [Mem.undefinedAt_set _ _ _ _ hi]; exact ht)
      exact ⟨k.1.trans (by simp [hi]), k.2⟩
  unfold Mem.mend
  split
  · refine key _ m (fun i hi => ?_) h
    have hu := (List.mem_filter.1 hi).2
    intro he
    rw [he, h] at hu
    cases hu
  · exact ⟨rfl, h⟩

/-! ### Little-endian values -/

@[simp] theorem leBytes_length (n v : Nat) : (leBytes n v).length = n := by
  induction n generalizing v with
  | zero => rfl
  | succ n ih => simp [leBytes, ih]

theorem leBytes_getD (n v i : Nat) (h : i < n) : (leBytes n v).getD i 0 = BitVec.ofNat 8 (v / 256 ^ i) := by
  induction n generalizing v i with
  | zero => omega
  | succ n ih =>
    cases i with
    | zero => simp [leBytes]
    | succ i =>
      simp only [leBytes, List.getD_cons_succ]
      rw [ih _ _ (by omega), Nat.div_div_eq_div_mul, Nat.pow_succ, Nat.mul_comm]

theorem leNat_leBytes (n v : Nat) : leNat (leBytes n v) = v % 256 ^ n := by
  induction n generalizing v with
  | zero => simp [leBytes, leNat, Nat.mod_one]
  | succ n ih =>
    simp only [leBytes, leNat, ih, BitVec.toNat_ofNat]
    rw [show (256 : Nat) ^ (n + 1) = 256 * 256 ^ n from by rw [Nat.pow_succ]; exact Nat.mul_comm _ _, Nat.mod_mul]

end Sys2Proof.Machine
end

