-- ==== Sys2Proof/Laws/State.lean ====
section
/-! SUPPORT. One lemma for each field of the state under each update, and for each part of a bank under the updates of a bank. -/

namespace Sys2Proof.Machine

/-! ### The fields of the machine under the updates of its parts -/

@[simp] theorem State.setBank_mem (s : State) (i : Nat) (b : Bank) : (s.setBank i b).mem = s.mem := rfl
@[simp] theorem State.setBank_cores (s : State) (i : Nat) (b : Bank) : (s.setBank i b).cores = s.cores := rfl
@[simp] theorem State.setBank_dies (s : State) (i : Nat) (b : Bank) : (s.setBank i b).dies = s.dies := rfl
@[simp] theorem State.setBank_vfs (s : State) (i : Nat) (b : Bank) : (s.setBank i b).vfs = s.vfs := rfl
@[simp] theorem State.setBank_nests (s : State) (i : Nat) (b : Bank) : (s.setBank i b).nests = s.nests := rfl
@[simp] theorem State.setBank_nextNest (s : State) (i : Nat) (b : Bank) : (s.setBank i b).nextNest = s.nextNest := rfl
@[simp] theorem State.setBank_slots (s : State) (i : Nat) (b : Bank) : (s.setBank i b).slots = s.slots := rfl
@[simp] theorem State.setBank_nameGen (s : State) (i : Nat) (b : Bank) : (s.setBank i b).nameGen = s.nameGen := rfl
@[simp] theorem State.setBank_dirWaiters (s : State) (i : Nat) (b : Bank) : (s.setBank i b).dirWaiters = s.dirWaiters := rfl
@[simp] theorem State.setBank_betony (s : State) (i : Nat) (b : Bank) : (s.setBank i b).betony = s.betony := rfl
@[simp] theorem State.setBank_saved (s : State) (i : Nat) (b : Bank) : (s.setBank i b).saved = s.saved := rfl
@[simp] theorem State.setBank_nextSaved (s : State) (i : Nat) (b : Bank) : (s.setBank i b).nextSaved = s.nextSaved := rfl
@[simp] theorem State.setBank_dirtyHost (s : State) (i : Nat) (b : Bank) : (s.setBank i b).dirtyHost = s.dirtyHost := rfl
@[simp] theorem State.setBank_poison (s : State) (i : Nat) (b : Bank) : (s.setBank i b).poison = s.poison := rfl
@[simp] theorem State.setBank_host (s : State) (i : Nat) (b : Bank) : (s.setBank i b).host = s.host := rfl
@[simp] theorem State.setBank_cycle (s : State) (i : Nat) (b : Bank) : (s.setBank i b).cycle = s.cycle := rfl
@[simp] theorem State.setBank_ftime (s : State) (i : Nat) (b : Bank) : (s.setBank i b).ftime = s.ftime := rfl
@[simp] theorem State.setBank_ticks (s : State) (i : Nat) (b : Bank) : (s.setBank i b).ticks = s.ticks := rfl
@[simp] theorem State.setBank_uses (s : State) (i : Nat) (b : Bank) : (s.setBank i b).uses = s.uses := rfl
@[simp] theorem State.setBank_schedule (s : State) (i : Nat) (b : Bank) : (s.setBank i b).schedule = s.schedule := rfl
@[simp] theorem State.setBank_cur (s : State) (i : Nat) (b : Bank) : (s.setBank i b).cur = s.cur := rfl

@[simp] theorem State.setCore_mem (s : State) (g : Nat) (c : CoreSt) : (s.setCore g c).mem = s.mem := rfl
@[simp] theorem State.setCore_banks (s : State) (g : Nat) (c : CoreSt) : (s.setCore g c).banks = s.banks := rfl
@[simp] theorem State.setCore_dies (s : State) (g : Nat) (c : CoreSt) : (s.setCore g c).dies = s.dies := rfl
@[simp] theorem State.setCore_vfs (s : State) (g : Nat) (c : CoreSt) : (s.setCore g c).vfs = s.vfs := rfl
@[simp] theorem State.setCore_nests (s : State) (g : Nat) (c : CoreSt) : (s.setCore g c).nests = s.nests := rfl
@[simp] theorem State.setCore_nextNest (s : State) (g : Nat) (c : CoreSt) : (s.setCore g c).nextNest = s.nextNest := rfl
@[simp] theorem State.setCore_slots (s : State) (g : Nat) (c : CoreSt) : (s.setCore g c).slots = s.slots := rfl
@[simp] theorem State.setCore_nameGen (s : State) (g : Nat) (c : CoreSt) : (s.setCore g c).nameGen = s.nameGen := rfl
@[simp] theorem State.setCore_dirWaiters (s : State) (g : Nat) (c : CoreSt) : (s.setCore g c).dirWaiters = s.dirWaiters := rfl
@[simp] theorem State.setCore_betony (s : State) (g : Nat) (c : CoreSt) : (s.setCore g c).betony = s.betony := rfl
@[simp] theorem State.setCore_saved (s : State) (g : Nat) (c : CoreSt) : (s.setCore g c).saved = s.saved := rfl
@[simp] theorem State.setCore_nextSaved (s : State) (g : Nat) (c : CoreSt) : (s.setCore g c).nextSaved = s.nextSaved := rfl
@[simp] theorem State.setCore_dirtyHost (s : State) (g : Nat) (c : CoreSt) : (s.setCore g c).dirtyHost = s.dirtyHost := rfl
@[simp] theorem State.setCore_poison (s : State) (g : Nat) (c : CoreSt) : (s.setCore g c).poison = s.poison := rfl
@[simp] theorem State.setCore_host (s : State) (g : Nat) (c : CoreSt) : (s.setCore g c).host = s.host := rfl
@[simp] theorem State.setCore_cycle (s : State) (g : Nat) (c : CoreSt) : (s.setCore g c).cycle = s.cycle := rfl
@[simp] theorem State.setCore_ftime (s : State) (g : Nat) (c : CoreSt) : (s.setCore g c).ftime = s.ftime := rfl
@[simp] theorem State.setCore_ticks (s : State) (g : Nat) (c : CoreSt) : (s.setCore g c).ticks = s.ticks := rfl
@[simp] theorem State.setCore_uses (s : State) (g : Nat) (c : CoreSt) : (s.setCore g c).uses = s.uses := rfl
@[simp] theorem State.setCore_schedule (s : State) (g : Nat) (c : CoreSt) : (s.setCore g c).schedule = s.schedule := rfl
@[simp] theorem State.setCore_cur (s : State) (g : Nat) (c : CoreSt) : (s.setCore g c).cur = s.cur := rfl

@[simp] theorem State.setDie_mem (s : State) (d : Nat) (x : Die) : (s.setDie d x).mem = s.mem := rfl
@[simp] theorem State.setDie_banks (s : State) (d : Nat) (x : Die) : (s.setDie d x).banks = s.banks := rfl
@[simp] theorem State.setDie_cores (s : State) (d : Nat) (x : Die) : (s.setDie d x).cores = s.cores := rfl
@[simp] theorem State.setDie_vfs (s : State) (d : Nat) (x : Die) : (s.setDie d x).vfs = s.vfs := rfl
@[simp] theorem State.setDie_nests (s : State) (d : Nat) (x : Die) : (s.setDie d x).nests = s.nests := rfl
@[simp] theorem State.setDie_nextNest (s : State) (d : Nat) (x : Die) : (s.setDie d x).nextNest = s.nextNest := rfl
@[simp] theorem State.setDie_slots (s : State) (d : Nat) (x : Die) : (s.setDie d x).slots = s.slots := rfl
@[simp] theorem State.setDie_nameGen (s : State) (d : Nat) (x : Die) : (s.setDie d x).nameGen = s.nameGen := rfl
@[simp] theorem State.setDie_dirWaiters (s : State) (d : Nat) (x : Die) : (s.setDie d x).dirWaiters = s.dirWaiters := rfl
@[simp] theorem State.setDie_betony (s : State) (d : Nat) (x : Die) : (s.setDie d x).betony = s.betony := rfl
@[simp] theorem State.setDie_saved (s : State) (d : Nat) (x : Die) : (s.setDie d x).saved = s.saved := rfl
@[simp] theorem State.setDie_nextSaved (s : State) (d : Nat) (x : Die) : (s.setDie d x).nextSaved = s.nextSaved := rfl
@[simp] theorem State.setDie_dirtyHost (s : State) (d : Nat) (x : Die) : (s.setDie d x).dirtyHost = s.dirtyHost := rfl
@[simp] theorem State.setDie_poison (s : State) (d : Nat) (x : Die) : (s.setDie d x).poison = s.poison := rfl
@[simp] theorem State.setDie_host (s : State) (d : Nat) (x : Die) : (s.setDie d x).host = s.host := rfl
@[simp] theorem State.setDie_cycle (s : State) (d : Nat) (x : Die) : (s.setDie d x).cycle = s.cycle := rfl
@[simp] theorem State.setDie_ftime (s : State) (d : Nat) (x : Die) : (s.setDie d x).ftime = s.ftime := rfl
@[simp] theorem State.setDie_ticks (s : State) (d : Nat) (x : Die) : (s.setDie d x).ticks = s.ticks := rfl
@[simp] theorem State.setDie_uses (s : State) (d : Nat) (x : Die) : (s.setDie d x).uses = s.uses := rfl
@[simp] theorem State.setDie_schedule (s : State) (d : Nat) (x : Die) : (s.setDie d x).schedule = s.schedule := rfl
@[simp] theorem State.setDie_cur (s : State) (d : Nat) (x : Die) : (s.setDie d x).cur = s.cur := rfl

@[simp] theorem State.setVf_mem (s : State) (v : Nat) (f : Vf) : (s.setVf v f).mem = s.mem := rfl
@[simp] theorem State.setVf_banks (s : State) (v : Nat) (f : Vf) : (s.setVf v f).banks = s.banks := rfl
@[simp] theorem State.setVf_cores (s : State) (v : Nat) (f : Vf) : (s.setVf v f).cores = s.cores := rfl
@[simp] theorem State.setVf_dies (s : State) (v : Nat) (f : Vf) : (s.setVf v f).dies = s.dies := rfl
@[simp] theorem State.setVf_nests (s : State) (v : Nat) (f : Vf) : (s.setVf v f).nests = s.nests := rfl
@[simp] theorem State.setVf_nextNest (s : State) (v : Nat) (f : Vf) : (s.setVf v f).nextNest = s.nextNest := rfl
@[simp] theorem State.setVf_slots (s : State) (v : Nat) (f : Vf) : (s.setVf v f).slots = s.slots := rfl
@[simp] theorem State.setVf_nameGen (s : State) (v : Nat) (f : Vf) : (s.setVf v f).nameGen = s.nameGen := rfl
@[simp] theorem State.setVf_dirWaiters (s : State) (v : Nat) (f : Vf) : (s.setVf v f).dirWaiters = s.dirWaiters := rfl
@[simp] theorem State.setVf_betony (s : State) (v : Nat) (f : Vf) : (s.setVf v f).betony = s.betony := rfl
@[simp] theorem State.setVf_saved (s : State) (v : Nat) (f : Vf) : (s.setVf v f).saved = s.saved := rfl
@[simp] theorem State.setVf_nextSaved (s : State) (v : Nat) (f : Vf) : (s.setVf v f).nextSaved = s.nextSaved := rfl
@[simp] theorem State.setVf_dirtyHost (s : State) (v : Nat) (f : Vf) : (s.setVf v f).dirtyHost = s.dirtyHost := rfl
@[simp] theorem State.setVf_poison (s : State) (v : Nat) (f : Vf) : (s.setVf v f).poison = s.poison := rfl
@[simp] theorem State.setVf_host (s : State) (v : Nat) (f : Vf) : (s.setVf v f).host = s.host := rfl
@[simp] theorem State.setVf_cycle (s : State) (v : Nat) (f : Vf) : (s.setVf v f).cycle = s.cycle := rfl
@[simp] theorem State.setVf_ftime (s : State) (v : Nat) (f : Vf) : (s.setVf v f).ftime = s.ftime := rfl
@[simp] theorem State.setVf_ticks (s : State) (v : Nat) (f : Vf) : (s.setVf v f).ticks = s.ticks := rfl
@[simp] theorem State.setVf_uses (s : State) (v : Nat) (f : Vf) : (s.setVf v f).uses = s.uses := rfl
@[simp] theorem State.setVf_schedule (s : State) (v : Nat) (f : Vf) : (s.setVf v f).schedule = s.schedule := rfl
@[simp] theorem State.setVf_cur (s : State) (v : Nat) (f : Vf) : (s.setVf v f).cur = s.cur := rfl

@[simp] theorem State.modBank_mem (s : State) (i : Nat) (f : Bank → Bank) : (s.modBank i f).mem = s.mem := rfl
@[simp] theorem State.modBank_cores (s : State) (i : Nat) (f : Bank → Bank) : (s.modBank i f).cores = s.cores := rfl
@[simp] theorem State.modBank_dies (s : State) (i : Nat) (f : Bank → Bank) : (s.modBank i f).dies = s.dies := rfl
@[simp] theorem State.modBank_vfs (s : State) (i : Nat) (f : Bank → Bank) : (s.modBank i f).vfs = s.vfs := rfl
@[simp] theorem State.modBank_nests (s : State) (i : Nat) (f : Bank → Bank) : (s.modBank i f).nests = s.nests := rfl
@[simp] theorem State.modBank_nextNest (s : State) (i : Nat) (f : Bank → Bank) : (s.modBank i f).nextNest = s.nextNest := rfl
@[simp] theorem State.modBank_slots (s : State) (i : Nat) (f : Bank → Bank) : (s.modBank i f).slots = s.slots := rfl
@[simp] theorem State.modBank_nameGen (s : State) (i : Nat) (f : Bank → Bank) : (s.modBank i f).nameGen = s.nameGen := rfl
@[simp] theorem State.modBank_dirWaiters (s : State) (i : Nat) (f : Bank → Bank) : (s.modBank i f).dirWaiters = s.dirWaiters := rfl
@[simp] theorem State.modBank_betony (s : State) (i : Nat) (f : Bank → Bank) : (s.modBank i f).betony = s.betony := rfl
@[simp] theorem State.modBank_saved (s : State) (i : Nat) (f : Bank → Bank) : (s.modBank i f).saved = s.saved := rfl
@[simp] theorem State.modBank_nextSaved (s : State) (i : Nat) (f : Bank → Bank) : (s.modBank i f).nextSaved = s.nextSaved := rfl
@[simp] theorem State.modBank_dirtyHost (s : State) (i : Nat) (f : Bank → Bank) : (s.modBank i f).dirtyHost = s.dirtyHost := rfl
@[simp] theorem State.modBank_poison (s : State) (i : Nat) (f : Bank → Bank) : (s.modBank i f).poison = s.poison := rfl
@[simp] theorem State.modBank_host (s : State) (i : Nat) (f : Bank → Bank) : (s.modBank i f).host = s.host := rfl
@[simp] theorem State.modBank_cycle (s : State) (i : Nat) (f : Bank → Bank) : (s.modBank i f).cycle = s.cycle := rfl
@[simp] theorem State.modBank_ftime (s : State) (i : Nat) (f : Bank → Bank) : (s.modBank i f).ftime = s.ftime := rfl
@[simp] theorem State.modBank_ticks (s : State) (i : Nat) (f : Bank → Bank) : (s.modBank i f).ticks = s.ticks := rfl
@[simp] theorem State.modBank_uses (s : State) (i : Nat) (f : Bank → Bank) : (s.modBank i f).uses = s.uses := rfl
@[simp] theorem State.modBank_schedule (s : State) (i : Nat) (f : Bank → Bank) : (s.modBank i f).schedule = s.schedule := rfl
@[simp] theorem State.modBank_cur (s : State) (i : Nat) (f : Bank → Bank) : (s.modBank i f).cur = s.cur := rfl

@[simp] theorem State.modCore_mem (s : State) (g : Nat) (f : CoreSt → CoreSt) : (s.modCore g f).mem = s.mem := rfl
@[simp] theorem State.modCore_banks (s : State) (g : Nat) (f : CoreSt → CoreSt) : (s.modCore g f).banks = s.banks := rfl
@[simp] theorem State.modCore_dies (s : State) (g : Nat) (f : CoreSt → CoreSt) : (s.modCore g f).dies = s.dies := rfl
@[simp] theorem State.modCore_vfs (s : State) (g : Nat) (f : CoreSt → CoreSt) : (s.modCore g f).vfs = s.vfs := rfl
@[simp] theorem State.modCore_nests (s : State) (g : Nat) (f : CoreSt → CoreSt) : (s.modCore g f).nests = s.nests := rfl
@[simp] theorem State.modCore_nextNest (s : State) (g : Nat) (f : CoreSt → CoreSt) : (s.modCore g f).nextNest = s.nextNest := rfl
@[simp] theorem State.modCore_slots (s : State) (g : Nat) (f : CoreSt → CoreSt) : (s.modCore g f).slots = s.slots := rfl
@[simp] theorem State.modCore_nameGen (s : State) (g : Nat) (f : CoreSt → CoreSt) : (s.modCore g f).nameGen = s.nameGen := rfl
@[simp] theorem State.modCore_dirWaiters (s : State) (g : Nat) (f : CoreSt → CoreSt) : (s.modCore g f).dirWaiters = s.dirWaiters := rfl
@[simp] theorem State.modCore_betony (s : State) (g : Nat) (f : CoreSt → CoreSt) : (s.modCore g f).betony = s.betony := rfl
@[simp] theorem State.modCore_saved (s : State) (g : Nat) (f : CoreSt → CoreSt) : (s.modCore g f).saved = s.saved := rfl
@[simp] theorem State.modCore_nextSaved (s : State) (g : Nat) (f : CoreSt → CoreSt) : (s.modCore g f).nextSaved = s.nextSaved := rfl
@[simp] theorem State.modCore_dirtyHost (s : State) (g : Nat) (f : CoreSt → CoreSt) : (s.modCore g f).dirtyHost = s.dirtyHost := rfl
@[simp] theorem State.modCore_poison (s : State) (g : Nat) (f : CoreSt → CoreSt) : (s.modCore g f).poison = s.poison := rfl
@[simp] theorem State.modCore_host (s : State) (g : Nat) (f : CoreSt → CoreSt) : (s.modCore g f).host = s.host := rfl
@[simp] theorem State.modCore_cycle (s : State) (g : Nat) (f : CoreSt → CoreSt) : (s.modCore g f).cycle = s.cycle := rfl
@[simp] theorem State.modCore_ftime (s : State) (g : Nat) (f : CoreSt → CoreSt) : (s.modCore g f).ftime = s.ftime := rfl
@[simp] theorem State.modCore_ticks (s : State) (g : Nat) (f : CoreSt → CoreSt) : (s.modCore g f).ticks = s.ticks := rfl
@[simp] theorem State.modCore_uses (s : State) (g : Nat) (f : CoreSt → CoreSt) : (s.modCore g f).uses = s.uses := rfl
@[simp] theorem State.modCore_schedule (s : State) (g : Nat) (f : CoreSt → CoreSt) : (s.modCore g f).schedule = s.schedule := rfl
@[simp] theorem State.modCore_cur (s : State) (g : Nat) (f : CoreSt → CoreSt) : (s.modCore g f).cur = s.cur := rfl

@[simp] theorem State.modDie_mem (s : State) (d : Nat) (f : Die → Die) : (s.modDie d f).mem = s.mem := rfl
@[simp] theorem State.modDie_banks (s : State) (d : Nat) (f : Die → Die) : (s.modDie d f).banks = s.banks := rfl
@[simp] theorem State.modDie_cores (s : State) (d : Nat) (f : Die → Die) : (s.modDie d f).cores = s.cores := rfl
@[simp] theorem State.modDie_vfs (s : State) (d : Nat) (f : Die → Die) : (s.modDie d f).vfs = s.vfs := rfl
@[simp] theorem State.modDie_nests (s : State) (d : Nat) (f : Die → Die) : (s.modDie d f).nests = s.nests := rfl
@[simp] theorem State.modDie_nextNest (s : State) (d : Nat) (f : Die → Die) : (s.modDie d f).nextNest = s.nextNest := rfl
@[simp] theorem State.modDie_slots (s : State) (d : Nat) (f : Die → Die) : (s.modDie d f).slots = s.slots := rfl
@[simp] theorem State.modDie_nameGen (s : State) (d : Nat) (f : Die → Die) : (s.modDie d f).nameGen = s.nameGen := rfl
@[simp] theorem State.modDie_dirWaiters (s : State) (d : Nat) (f : Die → Die) : (s.modDie d f).dirWaiters = s.dirWaiters := rfl
@[simp] theorem State.modDie_betony (s : State) (d : Nat) (f : Die → Die) : (s.modDie d f).betony = s.betony := rfl
@[simp] theorem State.modDie_saved (s : State) (d : Nat) (f : Die → Die) : (s.modDie d f).saved = s.saved := rfl
@[simp] theorem State.modDie_nextSaved (s : State) (d : Nat) (f : Die → Die) : (s.modDie d f).nextSaved = s.nextSaved := rfl
@[simp] theorem State.modDie_dirtyHost (s : State) (d : Nat) (f : Die → Die) : (s.modDie d f).dirtyHost = s.dirtyHost := rfl
@[simp] theorem State.modDie_poison (s : State) (d : Nat) (f : Die → Die) : (s.modDie d f).poison = s.poison := rfl
@[simp] theorem State.modDie_host (s : State) (d : Nat) (f : Die → Die) : (s.modDie d f).host = s.host := rfl
@[simp] theorem State.modDie_cycle (s : State) (d : Nat) (f : Die → Die) : (s.modDie d f).cycle = s.cycle := rfl
@[simp] theorem State.modDie_ftime (s : State) (d : Nat) (f : Die → Die) : (s.modDie d f).ftime = s.ftime := rfl
@[simp] theorem State.modDie_ticks (s : State) (d : Nat) (f : Die → Die) : (s.modDie d f).ticks = s.ticks := rfl
@[simp] theorem State.modDie_uses (s : State) (d : Nat) (f : Die → Die) : (s.modDie d f).uses = s.uses := rfl
@[simp] theorem State.modDie_schedule (s : State) (d : Nat) (f : Die → Die) : (s.modDie d f).schedule = s.schedule := rfl
@[simp] theorem State.modDie_cur (s : State) (d : Nat) (f : Die → Die) : (s.modDie d f).cur = s.cur := rfl

/-! ### A part after an update -/

@[simp] theorem State.bank_setBank (s : State) (i j : Nat) (b : Bank) : (s.setBank i b).bank j = if i = j then b else s.bank j := by
  simp [State.bank, State.setBank]
@[simp] theorem State.bank_setCore (s : State) (g j : Nat) (c : CoreSt) : (s.setCore g c).bank j = s.bank j := rfl
@[simp] theorem State.bank_setDie (s : State) (d j : Nat) (x : Die) : (s.setDie d x).bank j = s.bank j := rfl
@[simp] theorem State.bank_setVf (s : State) (v j : Nat) (f : Vf) : (s.setVf v f).bank j = s.bank j := rfl
@[simp] theorem State.coreSt_setCore (s : State) (g h : Nat) (c : CoreSt) :
    (s.setCore g c).coreSt h = if g = h then c else s.coreSt h := by simp [State.coreSt, State.setCore]
@[simp] theorem State.coreSt_setBank (s : State) (i g : Nat) (b : Bank) : (s.setBank i b).coreSt g = s.coreSt g := rfl
@[simp] theorem State.coreSt_setDie (s : State) (d g : Nat) (x : Die) : (s.setDie d x).coreSt g = s.coreSt g := rfl
@[simp] theorem State.die_setDie (s : State) (d e : Nat) (x : Die) : (s.setDie d x).die e = if d = e then x else s.die e := by
  simp [State.die, State.setDie]
@[simp] theorem State.die_setBank (s : State) (i d : Nat) (b : Bank) : (s.setBank i b).die d = s.die d := rfl
@[simp] theorem State.die_setCore (s : State) (g d : Nat) (c : CoreSt) : (s.setCore g c).die d = s.die d := rfl
@[simp] theorem State.vf_setVf (s : State) (v w : Nat) (f : Vf) : (s.setVf v f).vf w = if v = w then f else s.vf w := by
  simp [State.vf, State.setVf]
@[simp] theorem State.vf_setBank (s : State) (i v : Nat) (b : Bank) : (s.setBank i b).vf v = s.vf v := rfl
@[simp] theorem State.vf_setDie (s : State) (d v : Nat) (x : Die) : (s.setDie d x).vf v = s.vf v := rfl

@[simp] theorem State.setBank_setBank (s : State) (i : Nat) (b c : Bank) : (s.setBank i b).setBank i c = s.setBank i c := by
  simp [State.setBank]
@[simp] theorem State.setDie_setDie (s : State) (i : Nat) (b c : Die) : (s.setDie i b).setDie i c = s.setDie i c := by
  simp [State.setDie]
theorem State.modBank_eq (s : State) (i : Nat) (f : Bank → Bank) : s.modBank i f = s.setBank i (f (s.bank i)) := rfl
theorem State.modDie_eq (s : State) (i : Nat) (f : Die → Die) : s.modDie i f = s.setDie i (f (s.die i)) := rfl
theorem State.modCore_eq (s : State) (i : Nat) (f : CoreSt → CoreSt) : s.modCore i f = s.setCore i (f (s.coreSt i)) := rfl
@[simp] theorem State.bank_modBank (s : State) (i j : Nat) (f : Bank → Bank) :
    (s.modBank i f).bank j = if i = j then f (s.bank i) else s.bank j := by simp [State.modBank_eq]
@[simp] theorem State.die_modDie (s : State) (i j : Nat) (f : Die → Die) :
    (s.modDie i f).die j = if i = j then f (s.die i) else s.die j := by simp [State.modDie_eq]
@[simp] theorem State.modBank_modBank (s : State) (i : Nat) (f g : Bank → Bank) :
    (s.modBank i f).modBank i g = s.modBank i (fun b => g (f b)) := by simp [State.modBank_eq]
@[simp] theorem State.modDie_modDie (s : State) (i : Nat) (f g : Die → Die) :
    (s.modDie i f).modDie i g = s.modDie i (fun b => g (f b)) := by simp [State.modDie_eq]

/-! ### Parts of a bank -/

@[simp] theorem Bank.engine_setEngine (b : Bank) (e f : Engine) (v : Eng) :
    (b.setEngine e v).engine f = if e = f then v else b.engine f := by
  cases e <;> cases f <;> simp [Bank.engine, Bank.setEngine, engIx]
@[simp] theorem Bank.engine_modEngine (b : Bank) (e f : Engine) (g : Eng → Eng) :
    (b.modEngine e g).engine f = if e = f then g (b.engine e) else b.engine f := by
  simp [Bank.modEngine]
@[simp] theorem Bank.engine_setPc (b : Bank) (v : Word) (e : Engine) : (b.setPc v).engine e = b.engine e := rfl
@[simp] theorem Bank.setEngine_setEngine (b : Bank) (e : Engine) (v w : Eng) : (b.setEngine e v).setEngine e w = b.setEngine e w := by
  cases e <;> simp [Bank.setEngine]
@[simp] theorem Bank.modEngine_modEngine (b : Bank) (e : Engine) (f g : Eng → Eng) :
    (b.modEngine e f).modEngine e g = b.modEngine e (fun x => g (f x)) := by
  simp [Bank.modEngine]
@[simp] theorem Bank.engine_writeX (b : Bank) (r : Reg) (v : Word) (e : Engine) : (b.writeX r v).engine e = b.engine e := by
  unfold Bank.writeX; split <;> rfl
@[simp] theorem Bank.setPc_setPc (b : Bank) (v w : Word) : (b.setPc v).setPc w = b.setPc w := rfl
@[simp] theorem Bank.setPc_pc (b : Bank) (v : Word) : (b.setPc v).core.pc = v := rfl
@[simp] theorem Bank.readX_setPc (b : Bank) (v : Word) (r : Reg) : (b.setPc v).readX r = b.readX r := rfl
@[simp] theorem Bank.readX_setEngine (b : Bank) (e : Engine) (v : Eng) (r : Reg) : (b.setEngine e v).readX r = b.readX r := rfl
@[simp] theorem Bank.writeX_pc (b : Bank) (r : Reg) (v : Word) : (b.writeX r v).core.pc = b.core.pc := by
  unfold Bank.writeX; split <;> rfl
@[simp] theorem Bank.writeX_csr (b : Bank) (r : Reg) (v : Word) : (b.writeX r v).core.csr = b.core.csr := by
  unfold Bank.writeX; split <;> rfl
@[simp] theorem Bank.writeX_priv (b : Bank) (r : Reg) (v : Word) : (b.writeX r v).core.priv = b.core.priv := by
  unfold Bank.writeX; split <;> rfl
@[simp] theorem Bank.readX_zero (b : Bank) : b.readX 0#5 = 0#64 := rfl
@[simp] theorem Bank.writeX_zero (b : Bank) (v : Word) : b.writeX 0#5 v = b := rfl

/-- A register after a write: x0 reads zero, the register written holds the value, every other keeps its own (R222). -/
theorem Bank.readX_writeX (b : Bank) (d r : Reg) (v : Word) :
    (b.writeX d v).readX r = if r = 0#5 then 0#64 else if r = d then v else b.readX r := by
  unfold Bank.readX Bank.writeX
  by_cases hr : r = 0#5
  · simp [hr]
  · by_cases hd : d = 0#5
    · subst hd
      simp [hr]
    · by_cases h : r = d
      · subst h
        simp [hd]
      · have hne : d.toFin ≠ r.toFin := fun h2 => h (BitVec.eq_of_toFin_eq h2).symm
        simp only [hr, hd, h, if_false]
        exact Vector.getElem_set_ne _ _ (fun h2 => hne (Fin.ext h2))

@[simp] theorem Bank.setEngine_task (b : Bank) (e : Engine) (v : Eng) : (b.setEngine e v).task = b.task := rfl
@[simp] theorem Bank.modEngine_task (b : Bank) (e : Engine) (f : Eng → Eng) : (b.modEngine e f).task = b.task := rfl
@[simp] theorem Bank.setEngine_loading (b : Bank) (e : Engine) (v : Eng) : (b.setEngine e v).loading = b.loading := rfl
@[simp] theorem Bank.modEngine_loading (b : Bank) (e : Engine) (f : Eng → Eng) : (b.modEngine e f).loading = b.loading := rfl
@[simp] theorem Bank.setEngine_resuming (b : Bank) (e : Engine) (v : Eng) : (b.setEngine e v).resuming = b.resuming := rfl
@[simp] theorem Bank.modEngine_resuming (b : Bank) (e : Engine) (f : Eng → Eng) : (b.modEngine e f).resuming = b.resuming := rfl
@[simp] theorem Bank.setEngine_saving (b : Bank) (e : Engine) (v : Eng) : (b.setEngine e v).saving = b.saving := rfl
@[simp] theorem Bank.modEngine_saving (b : Bank) (e : Engine) (f : Eng → Eng) : (b.modEngine e f).saving = b.saving := rfl
@[simp] theorem Bank.setEngine_core (b : Bank) (e : Engine) (v : Eng) : (b.setEngine e v).core = b.core := rfl
@[simp] theorem Bank.modEngine_core (b : Bank) (e : Engine) (f : Eng → Eng) : (b.modEngine e f).core = b.core := rfl
@[simp] theorem Bank.setEngine_instret (b : Bank) (e : Engine) (v : Eng) : (b.setEngine e v).instret = b.instret := rfl
@[simp] theorem Bank.modEngine_instret (b : Bank) (e : Engine) (f : Eng → Eng) : (b.modEngine e f).instret = b.instret := rfl
@[simp] theorem Bank.setEngine_sbstall (b : Bank) (e : Engine) (v : Eng) : (b.setEngine e v).sbstall = b.sbstall := rfl
@[simp] theorem Bank.modEngine_sbstall (b : Bank) (e : Engine) (f : Eng → Eng) : (b.modEngine e f).sbstall = b.sbstall := rfl
@[simp] theorem Bank.setEngine_prmiss (b : Bank) (e : Engine) (v : Eng) : (b.setEngine e v).prmiss = b.prmiss := rfl
@[simp] theorem Bank.modEngine_prmiss (b : Bank) (e : Engine) (f : Eng → Eng) : (b.modEngine e f).prmiss = b.prmiss := rfl
@[simp] theorem Bank.setEngine_fbcnt (b : Bank) (e : Engine) (v : Eng) : (b.setEngine e v).fbcnt = b.fbcnt := rfl
@[simp] theorem Bank.modEngine_fbcnt (b : Bank) (e : Engine) (f : Eng → Eng) : (b.modEngine e f).fbcnt = b.fbcnt := rfl
@[simp] theorem Bank.setEngine_thrcyc (b : Bank) (e : Engine) (v : Eng) : (b.setEngine e v).thrcyc = b.thrcyc := rfl
@[simp] theorem Bank.modEngine_thrcyc (b : Bank) (e : Engine) (f : Eng → Eng) : (b.modEngine e f).thrcyc = b.thrcyc := rfl
@[simp] theorem Bank.setEngine_dq (b : Bank) (e : Engine) (v : Eng) : (b.setEngine e v).dq = b.dq := rfl
@[simp] theorem Bank.modEngine_dq (b : Bank) (e : Engine) (f : Eng → Eng) : (b.modEngine e f).dq = b.dq := rfl
@[simp] theorem Bank.setEngine_vbit (b : Bank) (e : Engine) (v : Eng) : (b.setEngine e v).vbit = b.vbit := rfl
@[simp] theorem Bank.modEngine_vbit (b : Bank) (e : Engine) (f : Eng → Eng) : (b.modEngine e f).vbit = b.vbit := rfl
@[simp] theorem Bank.setEngine_tok (b : Bank) (e : Engine) (v : Eng) : (b.setEngine e v).tok = b.tok := rfl
@[simp] theorem Bank.modEngine_tok (b : Bank) (e : Engine) (f : Eng → Eng) : (b.modEngine e f).tok = b.tok := rfl
@[simp] theorem Bank.setEngine_flights (b : Bank) (e : Engine) (v : Eng) : (b.setEngine e v).flights = b.flights := rfl
@[simp] theorem Bank.modEngine_flights (b : Bank) (e : Engine) (f : Eng → Eng) : (b.modEngine e f).flights = b.flights := rfl
@[simp] theorem Bank.setEngine_proms (b : Bank) (e : Engine) (v : Eng) : (b.setEngine e v).proms = b.proms := rfl
@[simp] theorem Bank.modEngine_proms (b : Bank) (e : Engine) (f : Eng → Eng) : (b.modEngine e f).proms = b.proms := rfl
@[simp] theorem Bank.setEngine_nextWord (b : Bank) (e : Engine) (v : Eng) : (b.setEngine e v).nextWord = b.nextWord := rfl
@[simp] theorem Bank.modEngine_nextWord (b : Bank) (e : Engine) (f : Eng → Eng) : (b.modEngine e f).nextWord = b.nextWord := rfl
@[simp] theorem Bank.setEngine_committed (b : Bank) (e : Engine) (v : Eng) : (b.setEngine e v).committed = b.committed := rfl
@[simp] theorem Bank.modEngine_committed (b : Bank) (e : Engine) (f : Eng → Eng) : (b.modEngine e f).committed = b.committed := rfl
@[simp] theorem Bank.setEngine_phase (b : Bank) (e : Engine) (v : Eng) : (b.setEngine e v).phase = b.phase := rfl
@[simp] theorem Bank.modEngine_phase (b : Bank) (e : Engine) (f : Eng → Eng) : (b.modEngine e f).phase = b.phase := rfl
@[simp] theorem Bank.setEngine_held (b : Bank) (e : Engine) (v : Eng) : (b.setEngine e v).held = b.held := rfl
@[simp] theorem Bank.modEngine_held (b : Bank) (e : Engine) (f : Eng → Eng) : (b.modEngine e f).held = b.held := rfl
@[simp] theorem Bank.setEngine_ckpts (b : Bank) (e : Engine) (v : Eng) : (b.setEngine e v).ckpts = b.ckpts := rfl
@[simp] theorem Bank.modEngine_ckpts (b : Bank) (e : Engine) (f : Eng → Eng) : (b.modEngine e f).ckpts = b.ckpts := rfl
@[simp] theorem Bank.setEngine_poison (b : Bank) (e : Engine) (v : Eng) : (b.setEngine e v).poison = b.poison := rfl
@[simp] theorem Bank.modEngine_poison (b : Bank) (e : Engine) (f : Eng → Eng) : (b.modEngine e f).poison = b.poison := rfl
@[simp] theorem Bank.setEngine_mismatches (b : Bank) (e : Engine) (v : Eng) : (b.setEngine e v).mismatches = b.mismatches := rfl
@[simp] theorem Bank.modEngine_mismatches (b : Bank) (e : Engine) (f : Eng → Eng) : (b.modEngine e f).mismatches = b.mismatches := rfl
@[simp] theorem Bank.setEngine_gang (b : Bank) (e : Engine) (v : Eng) : (b.setEngine e v).gang = b.gang := rfl
@[simp] theorem Bank.modEngine_gang (b : Bank) (e : Engine) (f : Eng → Eng) : (b.modEngine e f).gang = b.gang := rfl
@[simp] theorem Bank.setEngine_wait (b : Bank) (e : Engine) (v : Eng) : (b.setEngine e v).wait = b.wait := rfl
@[simp] theorem Bank.modEngine_wait (b : Bank) (e : Engine) (f : Eng → Eng) : (b.modEngine e f).wait = b.wait := rfl
@[simp] theorem Bank.setEngine_waiter (b : Bank) (e : Engine) (v : Eng) : (b.setEngine e v).waiter = b.waiter := rfl
@[simp] theorem Bank.modEngine_waiter (b : Bank) (e : Engine) (f : Eng → Eng) : (b.modEngine e f).waiter = b.waiter := rfl
@[simp] theorem Bank.setEngine_resv (b : Bank) (e : Engine) (v : Eng) : (b.setEngine e v).resv = b.resv := rfl
@[simp] theorem Bank.modEngine_resv (b : Bank) (e : Engine) (f : Eng → Eng) : (b.modEngine e f).resv = b.resv := rfl
@[simp] theorem Bank.setEngine_preempt (b : Bank) (e : Engine) (v : Eng) : (b.setEngine e v).preempt = b.preempt := rfl
@[simp] theorem Bank.modEngine_preempt (b : Bank) (e : Engine) (f : Eng → Eng) : (b.modEngine e f).preempt = b.preempt := rfl
@[simp] theorem Bank.setEngine_missDue (b : Bank) (e : Engine) (v : Eng) : (b.setEngine e v).missDue = b.missDue := rfl
@[simp] theorem Bank.modEngine_missDue (b : Bank) (e : Engine) (f : Eng → Eng) : (b.modEngine e f).missDue = b.missDue := rfl
@[simp] theorem Bank.setEngine_ctxDue (b : Bank) (e : Engine) (v : Eng) : (b.setEngine e v).ctxDue = b.ctxDue := rfl
@[simp] theorem Bank.modEngine_ctxDue (b : Bank) (e : Engine) (f : Eng → Eng) : (b.modEngine e f).ctxDue = b.ctxDue := rfl
@[simp] theorem Bank.setEngine_lowDue (b : Bank) (e : Engine) (v : Eng) : (b.setEngine e v).lowDue = b.lowDue := rfl
@[simp] theorem Bank.modEngine_lowDue (b : Bank) (e : Engine) (f : Eng → Eng) : (b.modEngine e f).lowDue = b.lowDue := rfl
@[simp] theorem Bank.setEngine_dom (b : Bank) (e : Engine) (v : Eng) : (b.setEngine e v).dom = b.dom := rfl
@[simp] theorem Bank.modEngine_dom (b : Bank) (e : Engine) (f : Eng → Eng) : (b.modEngine e f).dom = b.dom := rfl
@[simp] theorem Bank.setEngine_phaseDom (b : Bank) (e : Engine) (v : Eng) : (b.setEngine e v).phaseDom = b.phaseDom := rfl
@[simp] theorem Bank.modEngine_phaseDom (b : Bank) (e : Engine) (f : Eng → Eng) : (b.modEngine e f).phaseDom = b.phaseDom := rfl
@[simp] theorem Bank.setEngine_barred (b : Bank) (e : Engine) (v : Eng) : (b.setEngine e v).barred = b.barred := rfl
@[simp] theorem Bank.modEngine_barred (b : Bank) (e : Engine) (f : Eng → Eng) : (b.modEngine e f).barred = b.barred := rfl
@[simp] theorem Bank.setEngine_pushed (b : Bank) (e : Engine) (v : Eng) : (b.setEngine e v).pushed = b.pushed := rfl
@[simp] theorem Bank.modEngine_pushed (b : Bank) (e : Engine) (f : Eng → Eng) : (b.modEngine e f).pushed = b.pushed := rfl
@[simp] theorem Bank.setEngine_copyDom (b : Bank) (e : Engine) (v : Eng) : (b.setEngine e v).copyDom = b.copyDom := rfl
@[simp] theorem Bank.modEngine_copyDom (b : Bank) (e : Engine) (f : Eng → Eng) : (b.modEngine e f).copyDom = b.copyDom := rfl
@[simp] theorem Bank.setEngine_nextVer (b : Bank) (e : Engine) (v : Eng) : (b.setEngine e v).nextVer = b.nextVer := rfl
@[simp] theorem Bank.modEngine_nextVer (b : Bank) (e : Engine) (f : Eng → Eng) : (b.modEngine e f).nextVer = b.nextVer := rfl
@[simp] theorem Bank.setPc_task (b : Bank) (v : Word) : (b.setPc v).task = b.task := rfl
@[simp] theorem Bank.writeX_task (b : Bank) (r : Reg) (v : Word) : (b.writeX r v).task = b.task := by unfold Bank.writeX; split <;> rfl
@[simp] theorem Bank.setPc_loading (b : Bank) (v : Word) : (b.setPc v).loading = b.loading := rfl
@[simp] theorem Bank.writeX_loading (b : Bank) (r : Reg) (v : Word) : (b.writeX r v).loading = b.loading := by unfold Bank.writeX; split <;> rfl
@[simp] theorem Bank.setPc_resuming (b : Bank) (v : Word) : (b.setPc v).resuming = b.resuming := rfl
@[simp] theorem Bank.writeX_resuming (b : Bank) (r : Reg) (v : Word) : (b.writeX r v).resuming = b.resuming := by unfold Bank.writeX; split <;> rfl
@[simp] theorem Bank.setPc_saving (b : Bank) (v : Word) : (b.setPc v).saving = b.saving := rfl
@[simp] theorem Bank.writeX_saving (b : Bank) (r : Reg) (v : Word) : (b.writeX r v).saving = b.saving := by unfold Bank.writeX; split <;> rfl
@[simp] theorem Bank.setPc_instret (b : Bank) (v : Word) : (b.setPc v).instret = b.instret := rfl
@[simp] theorem Bank.writeX_instret (b : Bank) (r : Reg) (v : Word) : (b.writeX r v).instret = b.instret := by unfold Bank.writeX; split <;> rfl
@[simp] theorem Bank.setPc_sbstall (b : Bank) (v : Word) : (b.setPc v).sbstall = b.sbstall := rfl
@[simp] theorem Bank.writeX_sbstall (b : Bank) (r : Reg) (v : Word) : (b.writeX r v).sbstall = b.sbstall := by unfold Bank.writeX; split <;> rfl
@[simp] theorem Bank.setPc_prmiss (b : Bank) (v : Word) : (b.setPc v).prmiss = b.prmiss := rfl
@[simp] theorem Bank.writeX_prmiss (b : Bank) (r : Reg) (v : Word) : (b.writeX r v).prmiss = b.prmiss := by unfold Bank.writeX; split <;> rfl
@[simp] theorem Bank.setPc_fbcnt (b : Bank) (v : Word) : (b.setPc v).fbcnt = b.fbcnt := rfl
@[simp] theorem Bank.writeX_fbcnt (b : Bank) (r : Reg) (v : Word) : (b.writeX r v).fbcnt = b.fbcnt := by unfold Bank.writeX; split <;> rfl
@[simp] theorem Bank.setPc_thrcyc (b : Bank) (v : Word) : (b.setPc v).thrcyc = b.thrcyc := rfl
@[simp] theorem Bank.writeX_thrcyc (b : Bank) (r : Reg) (v : Word) : (b.writeX r v).thrcyc = b.thrcyc := by unfold Bank.writeX; split <;> rfl
@[simp] theorem Bank.setPc_dq (b : Bank) (v : Word) : (b.setPc v).dq = b.dq := rfl
@[simp] theorem Bank.writeX_dq (b : Bank) (r : Reg) (v : Word) : (b.writeX r v).dq = b.dq := by unfold Bank.writeX; split <;> rfl
@[simp] theorem Bank.setPc_vbit (b : Bank) (v : Word) : (b.setPc v).vbit = b.vbit := rfl
@[simp] theorem Bank.writeX_vbit (b : Bank) (r : Reg) (v : Word) : (b.writeX r v).vbit = b.vbit := by unfold Bank.writeX; split <;> rfl
@[simp] theorem Bank.setPc_tok (b : Bank) (v : Word) : (b.setPc v).tok = b.tok := rfl
@[simp] theorem Bank.writeX_tok (b : Bank) (r : Reg) (v : Word) : (b.writeX r v).tok = b.tok := by unfold Bank.writeX; split <;> rfl
@[simp] theorem Bank.setPc_flights (b : Bank) (v : Word) : (b.setPc v).flights = b.flights := rfl
@[simp] theorem Bank.writeX_flights (b : Bank) (r : Reg) (v : Word) : (b.writeX r v).flights = b.flights := by unfold Bank.writeX; split <;> rfl
@[simp] theorem Bank.setPc_proms (b : Bank) (v : Word) : (b.setPc v).proms = b.proms := rfl
@[simp] theorem Bank.writeX_proms (b : Bank) (r : Reg) (v : Word) : (b.writeX r v).proms = b.proms := by unfold Bank.writeX; split <;> rfl
@[simp] theorem Bank.setPc_nextWord (b : Bank) (v : Word) : (b.setPc v).nextWord = b.nextWord := rfl
@[simp] theorem Bank.writeX_nextWord (b : Bank) (r : Reg) (v : Word) : (b.writeX r v).nextWord = b.nextWord := by unfold Bank.writeX; split <;> rfl
@[simp] theorem Bank.setPc_committed (b : Bank) (v : Word) : (b.setPc v).committed = b.committed := rfl
@[simp] theorem Bank.writeX_committed (b : Bank) (r : Reg) (v : Word) : (b.writeX r v).committed = b.committed := by unfold Bank.writeX; split <;> rfl
@[simp] theorem Bank.setPc_phase (b : Bank) (v : Word) : (b.setPc v).phase = b.phase := rfl
@[simp] theorem Bank.writeX_phase (b : Bank) (r : Reg) (v : Word) : (b.writeX r v).phase = b.phase := by unfold Bank.writeX; split <;> rfl
@[simp] theorem Bank.setPc_held (b : Bank) (v : Word) : (b.setPc v).held = b.held := rfl
@[simp] theorem Bank.writeX_held (b : Bank) (r : Reg) (v : Word) : (b.writeX r v).held = b.held := by unfold Bank.writeX; split <;> rfl
@[simp] theorem Bank.setPc_ckpts (b : Bank) (v : Word) : (b.setPc v).ckpts = b.ckpts := rfl
@[simp] theorem Bank.writeX_ckpts (b : Bank) (r : Reg) (v : Word) : (b.writeX r v).ckpts = b.ckpts := by unfold Bank.writeX; split <;> rfl
@[simp] theorem Bank.setPc_poison (b : Bank) (v : Word) : (b.setPc v).poison = b.poison := rfl
@[simp] theorem Bank.writeX_poison (b : Bank) (r : Reg) (v : Word) : (b.writeX r v).poison = b.poison := by unfold Bank.writeX; split <;> rfl
@[simp] theorem Bank.setPc_mismatches (b : Bank) (v : Word) : (b.setPc v).mismatches = b.mismatches := rfl
@[simp] theorem Bank.writeX_mismatches (b : Bank) (r : Reg) (v : Word) : (b.writeX r v).mismatches = b.mismatches := by unfold Bank.writeX; split <;> rfl
@[simp] theorem Bank.setPc_gang (b : Bank) (v : Word) : (b.setPc v).gang = b.gang := rfl
@[simp] theorem Bank.writeX_gang (b : Bank) (r : Reg) (v : Word) : (b.writeX r v).gang = b.gang := by unfold Bank.writeX; split <;> rfl
@[simp] theorem Bank.setPc_wait (b : Bank) (v : Word) : (b.setPc v).wait = b.wait := rfl
@[simp] theorem Bank.writeX_wait (b : Bank) (r : Reg) (v : Word) : (b.writeX r v).wait = b.wait := by unfold Bank.writeX; split <;> rfl
@[simp] theorem Bank.setPc_waiter (b : Bank) (v : Word) : (b.setPc v).waiter = b.waiter := rfl
@[simp] theorem Bank.writeX_waiter (b : Bank) (r : Reg) (v : Word) : (b.writeX r v).waiter = b.waiter := by unfold Bank.writeX; split <;> rfl
@[simp] theorem Bank.setPc_resv (b : Bank) (v : Word) : (b.setPc v).resv = b.resv := rfl
@[simp] theorem Bank.writeX_resv (b : Bank) (r : Reg) (v : Word) : (b.writeX r v).resv = b.resv := by unfold Bank.writeX; split <;> rfl
@[simp] theorem Bank.setPc_preempt (b : Bank) (v : Word) : (b.setPc v).preempt = b.preempt := rfl
@[simp] theorem Bank.writeX_preempt (b : Bank) (r : Reg) (v : Word) : (b.writeX r v).preempt = b.preempt := by unfold Bank.writeX; split <;> rfl
@[simp] theorem Bank.setPc_missDue (b : Bank) (v : Word) : (b.setPc v).missDue = b.missDue := rfl
@[simp] theorem Bank.writeX_missDue (b : Bank) (r : Reg) (v : Word) : (b.writeX r v).missDue = b.missDue := by unfold Bank.writeX; split <;> rfl
@[simp] theorem Bank.setPc_ctxDue (b : Bank) (v : Word) : (b.setPc v).ctxDue = b.ctxDue := rfl
@[simp] theorem Bank.writeX_ctxDue (b : Bank) (r : Reg) (v : Word) : (b.writeX r v).ctxDue = b.ctxDue := by unfold Bank.writeX; split <;> rfl
@[simp] theorem Bank.setPc_lowDue (b : Bank) (v : Word) : (b.setPc v).lowDue = b.lowDue := rfl
@[simp] theorem Bank.writeX_lowDue (b : Bank) (r : Reg) (v : Word) : (b.writeX r v).lowDue = b.lowDue := by unfold Bank.writeX; split <;> rfl
@[simp] theorem Bank.setPc_dom (b : Bank) (v : Word) : (b.setPc v).dom = b.dom := rfl
@[simp] theorem Bank.writeX_dom (b : Bank) (r : Reg) (v : Word) : (b.writeX r v).dom = b.dom := by unfold Bank.writeX; split <;> rfl
@[simp] theorem Bank.setPc_phaseDom (b : Bank) (v : Word) : (b.setPc v).phaseDom = b.phaseDom := rfl
@[simp] theorem Bank.writeX_phaseDom (b : Bank) (r : Reg) (v : Word) : (b.writeX r v).phaseDom = b.phaseDom := by unfold Bank.writeX; split <;> rfl
@[simp] theorem Bank.setPc_barred (b : Bank) (v : Word) : (b.setPc v).barred = b.barred := rfl
@[simp] theorem Bank.writeX_barred (b : Bank) (r : Reg) (v : Word) : (b.writeX r v).barred = b.barred := by unfold Bank.writeX; split <;> rfl
@[simp] theorem Bank.setPc_pushed (b : Bank) (v : Word) : (b.setPc v).pushed = b.pushed := rfl
@[simp] theorem Bank.writeX_pushed (b : Bank) (r : Reg) (v : Word) : (b.writeX r v).pushed = b.pushed := by unfold Bank.writeX; split <;> rfl

/-! What outlasts a task in its bank (R38, R76, R79, R146). -/

@[simp] theorem Bank.emptied_nextVer (b : Bank) : b.emptied.nextVer = b.nextVer := rfl
@[simp] theorem Bank.emptied_barred (b : Bank) : b.emptied.barred = b.barred := rfl
@[simp] theorem Bank.emptied_pushed (b : Bank) : b.emptied.pushed = b.pushed := rfl
@[simp] theorem Bank.emptied_dom (b : Bank) : b.emptied.dom = b.dom := rfl
@[simp] theorem Bank.emptied_task (b : Bank) : b.emptied.task = none := rfl
@[simp] theorem Bank.setPc_copyDom (b : Bank) (v : Word) : (b.setPc v).copyDom = b.copyDom := rfl
@[simp] theorem Bank.writeX_copyDom (b : Bank) (r : Reg) (v : Word) : (b.writeX r v).copyDom = b.copyDom := by unfold Bank.writeX; split <;> rfl
@[simp] theorem Bank.setPc_nextVer (b : Bank) (v : Word) : (b.setPc v).nextVer = b.nextVer := rfl
@[simp] theorem Bank.writeX_nextVer (b : Bank) (r : Reg) (v : Word) : (b.writeX r v).nextVer = b.nextVer := by unfold Bank.writeX; split <;> rfl
@[simp] theorem Bank.setPc_eng (b : Bank) (v : Word) : (b.setPc v).eng = b.eng := rfl
@[simp] theorem Bank.writeX_eng (b : Bank) (r : Reg) (v : Word) : (b.writeX r v).eng = b.eng := by unfold Bank.writeX; split <;> rfl
@[simp] theorem Bank.setEngine_misOpen (b : Bank) (e : Engine) (v : Eng) : (b.setEngine e v).misOpen = b.misOpen := rfl
@[simp] theorem Bank.modEngine_misOpen (b : Bank) (e : Engine) (f : Eng → Eng) : (b.modEngine e f).misOpen = b.misOpen := rfl
@[simp] theorem Bank.setPc_misOpen (b : Bank) (v : Word) : (b.setPc v).misOpen = b.misOpen := rfl
@[simp] theorem Bank.writeX_misOpen (b : Bank) (r : Reg) (v : Word) : (b.writeX r v).misOpen = b.misOpen := by unfold Bank.writeX; split <;> rfl
@[simp] theorem Bank.setEngine_issued (b : Bank) (e : Engine) (v : Eng) : (b.setEngine e v).issued = b.issued := rfl
@[simp] theorem Bank.modEngine_issued (b : Bank) (e : Engine) (f : Eng → Eng) : (b.modEngine e f).issued = b.issued := rfl
@[simp] theorem Bank.setPc_issued (b : Bank) (v : Word) : (b.setPc v).issued = b.issued := rfl
@[simp] theorem Bank.writeX_issued (b : Bank) (r : Reg) (v : Word) : (b.writeX r v).issued = b.issued := by unfold Bank.writeX; split <;> rfl
@[simp] theorem Bank.setEngine_cancels (b : Bank) (e : Engine) (v : Eng) : (b.setEngine e v).cancels = b.cancels := rfl
@[simp] theorem Bank.modEngine_cancels (b : Bank) (e : Engine) (f : Eng → Eng) : (b.modEngine e f).cancels = b.cancels := rfl
@[simp] theorem Bank.setPc_cancels (b : Bank) (v : Word) : (b.setPc v).cancels = b.cancels := rfl
@[simp] theorem Bank.writeX_cancels (b : Bank) (r : Reg) (v : Word) : (b.writeX r v).cancels = b.cancels := by unfold Bank.writeX; split <;> rfl
@[simp] theorem Bank.setEngine_uses (b : Bank) (e : Engine) (v : Eng) : (b.setEngine e v).uses = b.uses := rfl
@[simp] theorem Bank.modEngine_uses (b : Bank) (e : Engine) (f : Eng → Eng) : (b.modEngine e f).uses = b.uses := rfl
@[simp] theorem Bank.setPc_uses (b : Bank) (v : Word) : (b.setPc v).uses = b.uses := rfl
@[simp] theorem Bank.writeX_uses (b : Bank) (r : Reg) (v : Word) : (b.writeX r v).uses = b.uses := by unfold Bank.writeX; split <;> rfl
@[simp] theorem Bank.setEngine_marks (b : Bank) (e : Engine) (v : Eng) : (b.setEngine e v).marks = b.marks := rfl
@[simp] theorem Bank.modEngine_marks (b : Bank) (e : Engine) (f : Eng → Eng) : (b.modEngine e f).marks = b.marks := rfl
@[simp] theorem Bank.setPc_marks (b : Bank) (v : Word) : (b.setPc v).marks = b.marks := rfl
/-- A write of an x register clears the poison of that register alone (R351). -/
theorem Bank.writeX_marks (b : Bank) (r : Reg) (v : Word) : (b.writeX r v).marks = if r = 0#5 then b.marks else b.marks.filter (· ≠ .x r) := by
  unfold Bank.writeX; split <;> rfl

end Sys2Proof.Machine
end

