-- ==== Sys2Proof/Laws/Run.lean ====
section
/-! SUPPORT. What the bodies of meanings do, step by step: one lemma for each named operation of the monad, and what running a
body of the control core or of an engine comes to. -/

namespace Sys2Proof.Machine

variable {α β : Type}

/-! ### The monad -/

@[simp high] theorem M.run_pure (a : α) (s : State) : (pure a : M α).run s = .ok a s := id rfl
@[simp high] theorem M.run_get (s : State) : (get : M State).run s = .ok s s := id rfl
@[simp high] theorem M.run_set (t s : State) : (set t : M PUnit).run s = .ok ⟨⟩ t := id rfl
@[simp high] theorem M.run_modify (f : State → State) (s : State) : (modify f : M PUnit).run s = .ok ⟨⟩ (f s) := id rfl

@[simp 5000] theorem M.run_bind (x : M α) (f : α → M β) (s : State) :
    (x >>= f).run s = match x.run s with | .ok a t => (f a).run t | .error e t => .error e t := by
  show EStateM.bind x f s = _
  unfold EStateM.bind EStateM.run
  cases x s <;> rfl

@[simp 5000] theorem M.run_map (g : α → β) (x : M α) (s : State) :
    (g <$> x).run s = match x.run s with | .ok a t => .ok (g a) t | .error e t => .error e t := by
  show EStateM.map g x s = _
  unfold EStateM.map EStateM.run
  cases x s <;> rfl

/-- A body whose first part answers goes on with the rest. -/
theorem M.bind_ok {x : M α} {f : α → M β} {s t : State} {a : α} (h : x.run s = .ok a t) : (x >>= f).run s = (f a).run t := by
  rw [M.run_bind, h]

/-- A body whose first part stops, stops. -/
theorem M.bind_error {x : M α} {f : α → M β} {s t : State} {e : Stop} (h : x.run s = .error e t) :
    (x >>= f).run s = .error e t := by rw [M.run_bind, h]

@[simp high] theorem M.bind_pure (a : α) (f : α → M β) (s : State) : ((pure a : M α) >>= f).run s = (f a).run s := id rfl
@[simp high] theorem M.bind_get (f : State → M β) (s : State) : ((get : M State) >>= f).run s = (f s).run s := id rfl
@[simp high] theorem M.bind_modify (g : State → State) (f : PUnit → M β) (s : State) :
    ((modify g : M PUnit) >>= f).run s = (f ⟨⟩).run (g s) := id rfl
@[simp high] theorem M.bind_set (t : State) (f : PUnit → M β) (s : State) : ((set t : M PUnit) >>= f).run s = (f ⟨⟩).run t := id rfl
@[simp high] theorem M.bind_assoc {γ : Type} (x : M α) (f : α → M β) (g : β → M γ) (s : State) :
    ((x >>= f) >>= g).run s = (x >>= fun a => f a >>= g).run s := by
  simp only [M.run_bind]
  cases x.run s <;> rfl

@[simp high] theorem M.run_fail (e : Stop) (s : State) : (fail e : M α).run s = .error e s := id rfl
@[simp high] theorem M.run_trap (c t : Nat) (s : State) : (trap c t : M α).run s = .error (.trap c t) s := id rfl
@[simp high] theorem M.run_illegal (s : State) : (illegal : M α).run s = .error (.trap 2 s.cur.ibits) s := id rfl
@[simp high] theorem M.run_waitMore (s : State) : (waitMore : M α).run s = .error .wait s := id rfl
@[simp high] theorem M.run_endNest (c : Nat) (s : State) : (endNest c : M α).run s = .error (.ends c) s := id rfl
@[simp high] theorem M.run_illegalWord (s : State) : (illegalWord : M α).run s = .error (.ends 0x10) s := id rfl

@[simp high] theorem M.bind_fail (e : Stop) (f : α → M β) (s : State) : ((fail e : M α) >>= f).run s = .error e s := id rfl
@[simp high] theorem M.bind_trap (c t : Nat) (f : α → M β) (s : State) :
    ((trap c t : M α) >>= f).run s = .error (.trap c t) s := id rfl
@[simp high] theorem M.bind_illegal (f : α → M β) (s : State) :
    ((illegal : M α) >>= f).run s = .error (.trap 2 s.cur.ibits) s := id rfl
@[simp high] theorem M.bind_waitMore (f : α → M β) (s : State) : ((waitMore : M α) >>= f).run s = .error .wait s := id rfl
@[simp high] theorem M.bind_endNest (c : Nat) (f : α → M β) (s : State) :
    ((endNest c : M α) >>= f).run s = .error (.ends c) s := id rfl
@[simp high] theorem M.bind_illegalWord (f : α → M β) (s : State) :
    ((illegalWord : M α) >>= f).run s = .error (.ends 0x10) s := id rfl

/-! ### The bank in execution -/

@[simp high] theorem M.bind_curBid (f : Nat → M β) (s : State) : (curBid >>= f).run s = (f s.cur.bid).run s := id rfl
@[simp high] theorem M.bind_curBank (f : Bank → M β) (s : State) : (curBank >>= f).run s = (f (s.bank s.cur.bid)).run s := id rfl
@[simp high] theorem M.bind_modCur (g : Bank → Bank) (f : Unit → M β) (s : State) :
    (modCur g >>= f).run s = (f ()).run (s.modBank s.cur.bid g) := id rfl
@[simp high] theorem M.run_modCur (g : Bank → Bank) (s : State) : (modCur g).run s = .ok () (s.modBank s.cur.bid g) := id rfl
@[simp high] theorem M.bind_readX (r : Reg) (f : Word → M β) (s : State) :
    (readX r >>= f).run s = (f ((s.bank s.cur.bid).readX r)).run s := id rfl
@[simp high] theorem M.bind_writeX (r : Reg) (v : Word) (f : Unit → M β) (s : State) :
    (writeX r v >>= f).run s = (f ()).run (s.modBank s.cur.bid (·.writeX r v)) := id rfl
@[simp high] theorem M.run_writeX (r : Reg) (v : Word) (s : State) :
    (writeX r v).run s = .ok () (s.modBank s.cur.bid (·.writeX r v)) := id rfl
@[simp high] theorem M.bind_nextPc (f : Word → M β) (s : State) :
    (nextPc >>= f).run s = (f ((s.bank s.cur.bid).core.pc + BitVec.ofNat 64 s.cur.ilen)).run s := id rfl
@[simp high] theorem M.run_nextPc (s : State) :
    nextPc.run s = .ok ((s.bank s.cur.bid).core.pc + BitVec.ofNat 64 s.cur.ilen) s := id rfl

/-! ### The engine in execution -/

@[simp high] theorem M.bind_curEng (e : Engine) (f : Eng → M β) (s : State) :
    (curEng e >>= f).run s = (f ((s.bank s.cur.bid).engine e)).run s := id rfl
@[simp high] theorem M.bind_modRegs (e : Engine) (g : EngRegs → EngRegs) (f : Unit → M β) (s : State) :
    (modRegs e g >>= f).run s = (f ()).run (s.modBank s.cur.bid (fun b => b.modEngine e (·.modRegs g))) := id rfl
@[simp high] theorem M.run_modRegs (e : Engine) (g : EngRegs → EngRegs) (s : State) :
    (modRegs e g).run s = .ok () (s.modBank s.cur.bid (fun b => b.modEngine e (·.modRegs g))) := id rfl
@[simp high] theorem M.bind_restack (e : Engine) (n : Nat) (l : List Word) (f : Unit → M β) (s : State) :
    (restack e n l >>= f).run s
      = (f ()).run (s.modBank s.cur.bid (fun b => b.modEngine e (·.modRegs (fun r => { r with pstack := l ++ r.pstack.drop n })))) :=
  id rfl

@[simp high] theorem M.run_restack (e : Engine) (n : Nat) (l : List Word) (s : State) :
    (restack e n l).run s
      = .ok () (s.modBank s.cur.bid (fun b => b.modEngine e (·.modRegs (fun r => { r with pstack := l ++ r.pstack.drop n })))) :=
  id rfl
@[simp high] theorem M.bind_modEng (e : Engine) (g : Eng → Eng) (f : Unit → M β) (s : State) :
    (modEng e g >>= f).run s = (f ()).run (s.modBank s.cur.bid (fun b => b.modEngine e g)) := id rfl
@[simp high] theorem M.run_modEng (e : Engine) (g : Eng → Eng) (s : State) :
    (modEng e g).run s = .ok () (s.modBank s.cur.bid (fun b => b.modEngine e g)) := id rfl

/-- A word whose operands are there and whose results have room takes its operands. -/
theorem M.bind_operands (e : Engine) (n k : Nat) (f : List Word → M β) (s : State)
    (hn : n ≤ ((s.bank s.cur.bid).engine e).regs.pstack.length)
    (hk : ((s.bank s.cur.bid).engine e).regs.pstack.length - n + k ≤ paramDepth) :
    (operands e n k >>= f).run s = (f (((s.bank s.cur.bid).engine e).regs.pstack.take n)).run s := by
  have h : (decide (((s.bank s.cur.bid).engine e).regs.pstack.length < n)
      || decide (paramDepth < ((s.bank s.cur.bid).engine e).regs.pstack.length - n + k)) = false := by
    simp only [Bool.or_eq_false_iff, decide_eq_false_iff_not]; omega
  simp only [operands, M.bind_assoc, M.bind_curEng, h]
  rfl

/-- A word with too few operands, or with no room for its results, is illegal (R157, R229). -/
theorem M.run_operands_bad (e : Engine) (n k : Nat) (s : State)
    (h : ((s.bank s.cur.bid).engine e).regs.pstack.length < n
      ∨ paramDepth < ((s.bank s.cur.bid).engine e).regs.pstack.length - n + k) :
    (operands e n k).run s = .error (.ends 0x10) s := by
  have h : (decide (((s.bank s.cur.bid).engine e).regs.pstack.length < n)
      || decide (paramDepth < ((s.bank s.cur.bid).engine e).regs.pstack.length - n + k)) = true := by
    simp only [Bool.or_eq_true, decide_eq_true_eq]; omega
  simp only [operands, M.bind_curEng, h]
  rfl

/-! ### What running a body comes to -/

theorem runCc_ok {body : M Unit} {s t : State} (h : body.run s = .ok () t) :
    runCc body s = .next (t.modBank s.cur.bid (fun b => (b.setPc (b.core.pc + BitVec.ofNat 64 s.cur.ilen)).retire)) := by
  simp only [runCc, h]

theorem runCc_error {body : M Unit} {s t : State} {e : Stop} (h : body.run s = .error e t) :
    runCc body s = t.coreStop s.cur.bid e := by simp only [runCc, h]

theorem runJump_ok {body : M Word} {s t : State} {a : Word} (h : body.run s = .ok a t) :
    runJump body s = .next (t.modBank s.cur.bid (fun b => (b.setPc a).retire)) := by simp only [runJump, h]

theorem runWord_ok {body : Engine → M Flow} {s t : State} {e : Engine} {f : Flow} (he : s.cur.eng = some e)
    (h : (body e).run s = .ok f t) : runWord body s = .next (t.flow s.cur.bid e f) := by
  simp only [runWord, he, h]

theorem runWord_error {body : Engine → M Flow} {s t : State} {e : Engine} {x : Stop} (he : s.cur.eng = some e)
    (h : (body e).run s = .error x t) : runWord body s = t.wordStop s.cur.bid e x := by
  simp only [runWord, he, h]

/-- A word that begins with its operands, where they are there and its results have room. -/
theorem runWord_operands {n k : Nat} {f : Engine → List Word → M Flow} {s t : State} {e : Engine} {go : Flow} (he : s.cur.eng = some e)
    (hn : n ≤ ((s.bank s.cur.bid).engine e).regs.pstack.length)
    (hk : ((s.bank s.cur.bid).engine e).regs.pstack.length - n + k ≤ paramDepth)
    (h : (f e (((s.bank s.cur.bid).engine e).regs.pstack.take n)).run s = .ok go t) :
    runWord (fun e => operands e n k >>= f e) s = .next (t.flow s.cur.bid e go) :=
  runWord_ok he (by rw [M.bind_operands e n k _ s hn hk, h])

/-- The same, where what follows stops. -/
theorem runWord_operands_error {n k : Nat} {f : Engine → List Word → M Flow} {s t : State} {e : Engine} {x : Stop}
    (he : s.cur.eng = some e) (hn : n ≤ ((s.bank s.cur.bid).engine e).regs.pstack.length)
    (hk : ((s.bank s.cur.bid).engine e).regs.pstack.length - n + k ≤ paramDepth)
    (h : (f e (((s.bank s.cur.bid).engine e).regs.pstack.take n)).run s = .error x t) :
    runWord (fun e => operands e n k >>= f e) s = t.wordStop s.cur.bid e x :=
  runWord_error he (by rw [M.bind_operands e n k _ s hn hk, h])

/-- A word whose operands are not there, or whose results have no room, ends the nest and pops nothing (R157, R263). -/
theorem runWord_operands_bad {n k : Nat} {f : Engine → List Word → M Flow} {s : State} {e : Engine} (he : s.cur.eng = some e)
    (h : ((s.bank s.cur.bid).engine e).regs.pstack.length < n
      ∨ paramDepth < ((s.bank s.cur.bid).engine e).regs.pstack.length - n + k) :
    runWord (fun e => operands e n k >>= f e) s = .next (s.faultEnd s.cur.bid e 0x10) := by
  rw [runWord_error he (M.bind_error (M.run_operands_bad e n k s h))]
  rfl

end Sys2Proof.Machine
end

