-- ==== Sys2Proof/Laws/Access.lean ====
section
/-! SUPPORT. What the shared accesses do: a read of memory, a translation, an irrevocable form, and the pc of a bank that the
operations leave alone. -/

namespace Sys2Proof.Machine

variable {α : Type}

/-- Bytes that can be read are what a read answers, and a read changes nothing. -/
theorem loadBytes_ok {bid pa n : Nat} {e : Option Engine} {s : State} {bs : List Byte} (h : s.readable bid e pa n = some bs) :
    (loadBytes bid e pa n).run s = .ok bs s := by
  unfold State.readable at h
  split at h
  · cases h
  · rename_i hp
    have hf : s.poisoned bid e pa n = none := by simpa using hp
    simp [loadBytes, hf, h]

/-- A read changes nothing. -/
theorem loadBytes_state {bid pa n : Nat} {e : Option Engine} {s t : State} {bs : List Byte}
    (h : (loadBytes bid e pa n).run s = .ok bs t) : t = s := by
  simp only [loadBytes, M.bind_get] at h
  split at h
  · simp at h
  · split at h
    · simp at h
    · simp at h; exact h.2.symm

/-! ### Translation -/

theorem walkLeaf_cases {w : Who} {va acc : Nat} {s t : State} {l : Leaf} (h : (walkLeaf w va acc).run s = .ok l t) :
    s.walk w.die w.root va = .ok l ∧ t = s.tlbRenew w va l := by
  simp only [walkLeaf, M.bind_get] at h
  split at h
  · simp at h
  · simp at h
  · rename_i l' hw
    simp at h
    exact ⟨by rw [hw, h.1], by rw [← h.1, h.2]⟩

theorem walkLeaf_ok {w : Who} {va acc : Nat} {s : State} {l : Leaf} (h : s.walk w.die w.root va = .ok l) :
    (walkLeaf w va acc).run s = .ok l (s.tlbRenew w va l) := by
  simp [walkLeaf, h]

/-- An access that lands: the checks behind its translation pass, the walker can set what it has to set, and has set it (R31, R46, R74). -/
theorem land_cases {s t : State} {w : Who} {l : Leaf} {acc pa n : Nat} (h : s.land w l acc pa n = .ok t) :
    s.passes w pa n = .ok () ∧ (s.marks l acc && !s.linkUp w.die l.pte) = false
      ∧ (s.marks l acc && isDurable l.pte && !s.betony.rdy) = false ∧ t = s.touch w l acc := by
  unfold State.land at h
  cases hp : s.passes w pa n with
  | error e => simp [hp] at h
  | ok x =>
    simp only [hp] at h
    split at h
    · cases h
    · rename_i hm
      split at h
      · cases h
      · rename_i hd
        exact ⟨rfl, by simpa using hm, by simpa using hd, by cases h; rfl⟩

theorem land_ok {s : State} {w : Who} {l : Leaf} {acc pa n : Nat} (hp : s.passes w pa n = .ok ())
    (hm : (s.marks l acc && !s.linkUp w.die l.pte) = false) (hd : (s.marks l acc && isDurable l.pte && !s.betony.rdy) = false) :
    s.land w l acc pa n = .ok (s.touch w l acc) := by
  unfold State.land
  rw [hp, hm, hd]
  rfl

theorem landOn_cases {w : Who} {l : Leaf} {va acc pol : Nat} {s t : State} {p : Place}
    (h : (landOn w l va acc pol).run s = .ok p t) :
    l.denies w acc = 0 ∧ s.land w l acc (l.pa + (va - l.va)) 1 = .ok t
      ∧ p = { pa := l.pa + (va - l.va), pol := max l.ceil pol, io := l.io, leaf := l } := by
  unfold landOn at h
  by_cases hd : l.denies w acc = 0
  · simp only [hd] at h
    cases hp : s.land w l acc (l.pa + (va - l.va)) 1 with
    | error e => simp [hp] at h
    | ok x =>
      simp [hp] at h
      exact ⟨hd, by rw [h.2], h.1.symm⟩
  · simp [hd] at h

theorem landOn_ok {w : Who} {l : Leaf} {va acc pol : Nat} {s t : State} (hd : l.denies w acc = 0)
    (hp : s.land w l acc (l.pa + (va - l.va)) 1 = .ok t) :
    (landOn w l va acc pol).run s = .ok { pa := l.pa + (va - l.va), pol := max l.ceil pol, io := l.io, leaf := l } t := by
  simp [landOn, hd, hp]

/-- A translation that answers: the leaf comes from a TLB, or from a walk that fills them; it permits the access; the checks behind it
pass; A and D are set. -/
theorem translate_cases {w : Who} {va acc pol : Nat} {s t : State} {p : Place} (h : (translate w va acc pol).run s = .ok p t) :
    ∃ l u, canonical va = true ∧ ((s.tlbLookup w va = some l ∧ u = s) ∨ (s.walk w.die w.root va = .ok l ∧ u = s.tlbRenew w va l))
      ∧ l.denies w acc = 0 ∧ u.land w l acc (l.pa + (va - l.va)) 1 = .ok t
      ∧ p = { pa := l.pa + (va - l.va), pol := max l.ceil pol, io := l.io, leaf := l } := by
  have walked : ((walkLeaf w va acc) >>= fun l => landOn w l va acc pol).run s = .ok p t → ∃ l,
      s.walk w.die w.root va = .ok l ∧ (landOn w l va acc pol).run (s.tlbRenew w va l) = .ok p t := by
    intro hf
    rw [M.run_bind] at hf
    split at hf
    · rename_i l u hl
      obtain ⟨hw, rfl⟩ := walkLeaf_cases hl
      exact ⟨l, hw, hf⟩
    · cases hf
  unfold translate at h
  by_cases hc : canonical va = true
  · simp only [hc, Bool.not_true, Bool.false_eq_true, if_false, M.bind_get] at h
    cases hk : s.tlbLookup w va with
    | none =>
      simp only [hk] at h
      obtain ⟨l, hw, hl⟩ := walked (by simpa using h)
      exact ⟨l, _, hc, .inr ⟨hw, rfl⟩, landOn_cases hl⟩
    | some l =>
      by_cases hd : l.denies w acc = 0
      · simp [hk, hd] at h
        exact ⟨l, s, hc, .inl ⟨rfl, rfl⟩, landOn_cases h⟩
      · obtain ⟨l, hw, hl⟩ := walked (by simpa [hk, hd] using h)
        exact ⟨l, _, hc, .inr ⟨hw, rfl⟩, landOn_cases hl⟩
  · simp [hc] at h

/-! ### What the walker and a write leave behind -/

/-- A reservation on the bytes of a write ends, unless the bank made the write; of the banks nothing else changes (R149). -/
theorem breakResv_bank (s : State) (o : Option Nat) (pa n m : Nat) :
    (s.breakResv o pa n).bank m = { s.bank m with resv := ((s.breakResv o pa n).bank m).resv }
    ∧ (((s.breakResv o pa n).bank m).resv = (s.bank m).resv ∨ (((s.breakResv o pa n).bank m).resv = none ∧ o ≠ some m)) := by
  unfold State.breakResv State.bank
  dsimp only
  rw [PMap.get_map]
  · split
    · rename_i r hr
      split
      · rename_i hc
        refine ⟨rfl, .inr ⟨rfl, ?_⟩⟩
        intro hm
        subst hm
        simp at hc
      · exact ⟨rfl, .inl rfl⟩
    · exact ⟨rfl, .inl rfl⟩
  · intro e
    split
    · split <;> rfl
    · rfl
  · intro k
    split
    · rename_i r hr
      cases hr
    · rfl

/-- Of the state, a durable store changes the durable tier alone (R72). -/
theorem durable_eq (s : State) (agent : DAgent) (pa n pol tick : Nat) (l : List Nat) :
    s.durable agent pa n pol tick l = { s with betony := (s.durable agent pa n pol tick l).betony } := by
  unfold State.durable
  split <;> rfl

/-- Of the state, a line that becomes dirty changes the dirty lines alone (R148). -/
theorem dirtyLines_eq (s : State) (die vf pa n pol : Nat) :
    s.dirtyLines die vf pa n pol = { s with dirtyHost := (s.dirtyLines die vf pa n pol).dirtyHost } := by
  have go : ∀ (l : List Nat) (s : State), l.foldl (fun s l => s.dirtyLine die vf l) s
      = { s with dirtyHost := (l.foldl (fun s l => s.dirtyLine die vf l) s).dirtyHost } := by
    intro l
    induction l with
    | nil => intro s; rfl
    | cons k l ih =>
      intro s
      have h1 : s.dirtyLine die vf k = { s with dirtyHost := (s.dirtyLine die vf k).dirtyHost } := by
        unfold State.dirtyLine
        split <;> rfl
      rw [List.foldl_cons]
      have h2 := ih (s.dirtyLine die vf k)
      rw [h1] at h2 ⊢
      exact h2
  unfold State.dirtyLines
  split
  · exact go _ _
  · rfl

/-- The walker writes at most the low byte of the leaf's own entry (R31). -/
theorem touch_mem (s : State) (w : Who) (l : Leaf) (acc : Nat) :
    (s.touch w l acc).mem = s.mem ∨ (s.touch w l acc).mem = s.mem.set l.pte (s.marked l acc) := by
  unfold State.touch
  split
  · right
    dsimp only
    generalize s.marked l acc = d
    rw [dirtyLines_eq]
    show (State.durable _ _ _ _ _ _ _).mem = _
    rw [durable_eq]
  · exact .inl rfl

/-- What a translation leaves of a state: everything but the memory of bytes, the TLBs of cores and dies, and what the walker's write
of a leaf touches: the durable tier, dirty lines of host memory, reservations, of peers too (R31, R148). -/
structure Translated (s t : State) : Prop where
  rest : t = { s with mem := t.mem, cores := t.cores, dies := t.dies, banks := t.banks, betony := t.betony, dirtyHost := t.dirtyHost
                      host := { s.host with peerResvs := t.host.peerResvs } }
  peers : ∀ r ∈ t.host.peerResvs, r ∈ s.host.peerResvs
  own : ∀ m, t.bank m = { s.bank m with resv := (t.bank m).resv }
  resv : ∀ m, (t.bank m).resv = (s.bank m).resv ∨ (t.bank m).resv = none

theorem Translated.refl (s : State) : Translated s s := ⟨rfl, fun _ h => h, fun _ => rfl, fun _ => .inl rfl⟩
theorem Translated.trans {s t u : State} (h : Translated s t) (k : Translated t u) : Translated s u := by
  refine ⟨?_, fun r hr => h.peers r (k.peers r hr), fun m => ?_, fun m => ?_⟩
  · have k1 := k.rest
    rw [h.rest] at k1
    exact k1
  · have k1 := k.own m
    rw [h.own m] at k1
    exact k1
  · rcases k.resv m with k1 | k1
    · rcases h.resv m with h1 | h1
      · exact .inl (k1.trans h1)
      · exact .inr (k1.trans h1)
    · exact .inr k1

/-- A step that changes no bank, and of the rest only what a translation may. -/
theorem Translated.of_banks {s t : State} (h : t.banks = s.banks)
    (hr : t = { s with mem := t.mem, cores := t.cores, dies := t.dies, banks := t.banks, betony := t.betony, dirtyHost := t.dirtyHost }) :
    Translated s t := by
  have hb : ∀ m, t.bank m = s.bank m := fun m => by simp only [State.bank, h]
  have hh : t.host = s.host := by rw [hr]
  refine ⟨?_, fun r h => by rwa [hh] at h, fun m => by rw [hb], fun m => .inl (by rw [hb])⟩
  rw [hh]; exact hr

theorem Translated.cur {s t : State} (h : Translated s t) : t.cur = s.cur := by rw [h.rest]

/-- A translation changes no register of a control core, and no engine. -/
theorem Translated.core {s t : State} (h : Translated s t) (m : Nat) : (t.bank m).core = (s.bank m).core := by rw [h.own m]

theorem tlbFill_frame (s : State) (w : Who) (l : Leaf) : Translated s (s.tlbFill w l) := by
  unfold State.tlbFill
  dsimp only
  split <;> exact Translated.of_banks rfl rfl

theorem tlbDrop_frame (s : State) (w : Who) (va : Nat) : Translated s (s.tlbDrop w va) := by
  unfold State.tlbDrop
  dsimp only
  split <;> exact Translated.of_banks rfl rfl

theorem tlbRenew_frame (s : State) (w : Who) (va : Nat) (l : Leaf) : Translated s (s.tlbRenew w va l) :=
  (tlbDrop_frame s w va).trans (tlbFill_frame _ w l)

theorem touch_frame (s : State) (w : Who) (l : Leaf) (acc : Nat) : Translated s (s.touch w l acc) := by
  unfold State.touch
  split
  · dsimp only
    generalize s.marked l acc = d
    rw [dirtyLines_eq, durable_eq]
    refine ⟨rfl, fun r hr => (List.mem_filter.mp hr).1, fun m => (breakResv_bank _ none l.pte 1 m).1, fun m => ?_⟩
    rcases (breakResv_bank _ none l.pte 1 m).2 with h | h
    · exact .inl h
    · exact .inr h.1
  · exact Translated.refl s

theorem land_frame {s t : State} {w : Who} {l : Leaf} {acc pa n : Nat} (h : s.land w l acc pa n = .ok t) : Translated s t := by
  rw [(land_cases h).2.2.2]
  exact touch_frame s w l acc

theorem translate_frame {w : Who} {va acc pol : Nat} {s t : State} {p : Place} (h : (translate w va acc pol).run s = .ok p t) :
    Translated s t := by
  obtain ⟨l, u, _, hu, _, hl, _⟩ := translate_cases h
  have key : Translated s u := by
    rcases hu with ⟨_, rfl⟩ | ⟨_, rfl⟩
    · exact Translated.refl u
    · exact tlbRenew_frame s w va l
  exact key.trans (land_frame hl)

/-- What holds of every translation holds of the translation of a span. -/
theorem translateSpan_frame {w : Who} {va n acc pol : Nat} {s t : State} {ps} (h : (translateSpan w va n acc pol).run s = .ok ps t) :
    Translated s t := by
  have step : ∀ (l : List Nat) (s t : State) (ps : List (Place × Nat)),
      (l.mapM (fun i => do return (← translate w ((va + i) % 2 ^ 64) acc pol, 1) : Nat → M (Place × Nat))).run s = .ok ps t →
      Translated s t := by
    intro l
    induction l with
    | nil => intro s t ps h; simp at h; rw [h.2]; exact Translated.refl t
    | cons i l ih =>
      intro s t ps h
      simp only [List.mapM_cons, M.bind_assoc] at h
      rw [M.run_bind] at h
      split at h
      · rename_i p u hp
        simp only [M.bind_pure] at h
        rw [M.run_bind] at h
        split at h
        · rename_i qs v hq
          simp at h
          obtain ⟨_, rfl⟩ := h
          exact (translate_frame hp).trans (ih _ _ _ hq)
        · cases h
      · cases h
  unfold translateSpan at h
  split at h
  · rw [M.run_bind] at h
    split at h
    · rename_i p u hp
      simp at h
      obtain ⟨_, rfl⟩ := h
      exact translate_frame hp
    · cases h
  · exact step _ _ _ _ h

/-- The places of a span: one of the whole width, or one for each byte (R125). -/
theorem translateSpan_sizes {w : Who} {va n acc pol : Nat} {s t : State} {ps} (h : (translateSpan w va n acc pol).run s = .ok ps t) :
    (∃ p, ps = [(p, n)]) ∨ (n ≠ 1 ∧ ps.length = n ∧ ∀ p ∈ ps, p.2 = 1) := by
  have step : ∀ (l : List Nat) (s t : State) (ps : List (Place × Nat)),
      (l.mapM (fun i => do return (← translate w ((va + i) % 2 ^ 64) acc pol, 1) : Nat → M (Place × Nat))).run s = .ok ps t →
      ps.length = l.length ∧ ∀ p ∈ ps, p.2 = 1 := by
    intro l
    induction l with
    | nil => intro s t ps h; simp at h; simp [h.1]
    | cons i l ih =>
      intro s t ps h
      simp only [List.mapM_cons, M.bind_assoc] at h
      rw [M.run_bind] at h
      split at h
      · rename_i p u hp
        simp only [M.bind_pure] at h
        rw [M.run_bind] at h
        split at h
        · rename_i qs v hq
          simp at h
          obtain ⟨rfl, _⟩ := h
          have h2 := ih _ _ _ hq
          exact ⟨by simp [h2.1], by simpa using h2.2⟩
        · cases h
      · cases h
  unfold translateSpan at h
  split at h
  · rw [M.run_bind] at h
    split at h
    · rename_i p u hp
      simp at h
      exact .inl ⟨p, h.1.symm⟩
    · cases h
  · rename_i hn
    have h2 := step _ _ _ _ h
    refine .inr ⟨fun h1 => hn (by rw [h1, Nat.mod_one]), by simpa using h2.1, h2.2⟩

/-- Reading the places of a span. -/
theorem loadAll_ok {bid : Nat} {s : State} : ∀ {ps : List (Place × Nat)} {bss},
    ps.mapM (fun p => s.readable bid none p.1.pa p.2) = some bss →
    (ps.mapM (fun p => loadBytes bid none p.1.pa p.2)).run s = .ok bss s := by
  intro ps
  induction ps with
  | nil => intro bss h; simp at h; subst h; simp
  | cons p ps ih =>
    intro bss h
    simp only [List.mapM_cons, Option.bind_eq_bind, Option.bind_eq_some_iff, Option.pure_def, Option.some.injEq] at h
    obtain ⟨bs, h1, bss', h2, rfl⟩ := h
    simp only [List.mapM_cons]
    rw [M.bind_ok (loadBytes_ok h1), M.bind_ok (ih h2)]
    rfl

/-! ### Instructions that complete -/

/-- A body that has changed the state, and not the pc, retires with the pc behind the instruction. -/
theorem runCc_state {body : M Unit} {s t : State} (h : body.run s = .ok () t) (hc : t.cur = s.cur)
    (hp : (t.bank s.cur.bid).core.pc = s.own.core.pc) : runCc body s = .next (t.retires id s.after) := by
  rw [runCc_ok h]
  simp only [State.retires, State.modBank, hc, State.after, id, hp]

/-- The same where the last thing it did was to change its own bank. -/
theorem runCc_modBank {body : M Unit} {f : Bank → Bank} {s t : State} (h : body.run s = .ok () (t.modBank s.cur.bid f))
    (hc : t.cur = s.cur) (hp : (f (t.bank s.cur.bid)).core.pc = s.own.core.pc) :
    runCc body s = .next (t.retires f s.after) := by
  rw [runCc_state h (by simp [hc]) (by simp [hp])]
  simp [State.retires, hc]

/-- A jump whose last effect was to change its own bank. -/
theorem runJump_modBank {body : M Word} {f : Bank → Bank} {s t : State} {pc : Word}
    (h : body.run s = .ok pc (t.modBank s.cur.bid f)) (hc : t.cur = s.cur) :
    runJump body s = .next (t.retires f pc) := by
  rw [runJump_ok h]
  simp [State.retires, hc]

/-- An engine word that has changed the registers of its engine, and goes on. -/
theorem runWord_regs {body : Engine → M Flow} {f : EngRegs → EngRegs} {s : State} {e : Engine} {go : Flow} (he : s.cur.eng = some e)
    (h : (body e).run s = .ok go (s.modBank s.cur.bid (fun b => b.modEngine e (·.modRegs f)))) :
    runWord body s = .next (s.wordEnds e f go) := by
  rw [runWord_ok he h]; rfl

/-! ### Irrevocable forms (R259) -/

theorem issueIrrevocable_ok {s : State} (hs : s.settled s.cur.bid = true) : issueIrrevocable.run s = .ok () s.issues := by
  unfold issueIrrevocable State.issues State.own
  by_cases hi : (s.bank s.cur.bid).issued
  · simp [hs, hi]
  · simp [hs, hi]

theorem irrevocableTo_ok {checks : M α} {effect : α → M Word} {s t u : State} {x : α} {pc : Word}
    (hs : s.settled s.cur.bid = true) (hc : checks.run s.issues = .ok x t) (he : (effect x).run t = .ok pc u) :
    (irrevocableTo checks effect).run s = .ok pc (u.beginPhase u.cur.bid pc) := by
  unfold irrevocableTo
  rw [M.bind_ok (issueIrrevocable_ok hs), M.bind_ok hc, M.bind_ok he]
  simp [curBid]

theorem irrevocable_ok {checks : M α} {effect : α → M Unit} {s t u : State} {x : α}
    (hs : s.settled s.cur.bid = true) (hc : checks.run s.issues = .ok x t) (he : (effect x).run t = .ok () u) :
    (irrevocable checks effect).run s
      = .ok () (u.beginPhase u.cur.bid ((u.bank u.cur.bid).core.pc + BitVec.ofNat 64 u.cur.ilen)) := by
  have h := irrevocableTo_ok (effect := fun x => do effect x; nextPc)
    (pc := (u.bank u.cur.bid).core.pc + BitVec.ofNat 64 u.cur.ilen) (u := u) hs hc (by rw [M.bind_ok he]; simp [nextPc])
  simp only [irrevocable]
  simp only [M.run_bind, h]
  simp

/-- An irrevocable form waits while a word or a phase of its bank has not completed (R259). -/
theorem irrevocable_waits {checks : M α} {effect : α → M Unit} {s : State} (hs : s.settled s.cur.bid = false) :
    (irrevocable checks effect).run s = .error .wait s := by
  simp [irrevocable, irrevocableTo, issueIrrevocable, hs]

/-! ### What a checkpoint takes of memory (R257, R310) -/

/-- Taking the spans changes nothing of a checkpoint but its spans, of a bank but its checkpoints, of a state but its banks. -/
theorem Bank.spansOf_rest (b : Bank) (g : Nat) (m : Mem) (c : Ckpt) : b.spansOf g m c = { c with spans := (b.spansOf g m c).spans } := by
  unfold Bank.spansOf; split <;> rfl
theorem Bank.takeSpans_rest (b : Bank) (g : Nat) (m : Mem) : b.takeSpans g m = { b with ckpts := (b.takeSpans g m).ckpts } := rfl
theorem State.takeSpans_rest (s : State) : s.takeSpans = { s with banks := s.takeSpans.banks } := rfl

/-- Spans that a checkpoint has taken stay as they are. -/
@[simp] theorem Bank.spansOf_some (b : Bank) (g : Nat) (m : Mem) (c : Ckpt) (l : List (Nat × Nat × Mem)) (h : c.spans = some l) :
    b.spansOf g m c = c := by
  unfold Bank.spansOf; rw [h]

@[simp] theorem Bank.takeSpans_core (b : Bank) (g : Nat) (m : Mem) : (b.takeSpans g m).core = b.core := rfl
@[simp] theorem Bank.takeSpans_engine (b : Bank) (g : Nat) (m : Mem) (e : Engine) : (b.takeSpans g m).engine e = b.engine e := rfl
@[simp] theorem Bank.takeSpans_task (b : Bank) (g : Nat) (m : Mem) : (b.takeSpans g m).task = b.task := rfl

theorem State.bank_takeSpans (s : State) (i : Nat) : s.takeSpans.bank i = (s.bank i).takeSpans (coreOf i) s.mem := by
  have h : ∀ l : PMap Bank, PMap.get Bank.init (l.map (fun e => (e.1, e.2.takeSpans (coreOf e.1) s.mem))) i
      = (PMap.get Bank.init l i).takeSpans (coreOf i) s.mem := by
    intro l
    induction l with
    | nil => rfl
    | cons e t ih =>
      obtain ⟨j, b⟩ := e
      by_cases hj : j = i
      · subst hj; simp [PMap.get]
      · simpa [PMap.get, hj] using ih
  exact h s.banks

/-- Bytes that are not undefined stay as they are where a checkpoint's spans come back. -/
theorem Ckpt.mend_defined (c : Ckpt) (m : Mem) (a : Nat) (h : m.undefinedAt a = false) : (c.mend m).get a = m.get a := by
  have key : ∀ (l : List (Nat × Nat × Mem)) (t : Mem), t.undefinedAt a = false →
      (l.foldl (fun m x => m.mend x.1 x.2.1 x.2.2) t).get a = t.get a := by
    intro l
    induction l with
    | nil => exact fun _ _ => rfl
    | cons x l ih =>
      intro t ht
      have k := Mem.mend_defined t x.1 x.2.1 x.2.2 a ht
      exact (ih _ k.2).trans k.1
  exact key _ m h

end Sys2Proof.Machine
end

