-- ==== Sys2Proof/Laws/Store.lean ====
section
/-! SUPPORT. What a store of the control core does: to memory, to the banks, and to nothing else. -/

namespace Sys2Proof.Machine

/-! ### Bytes -/

/-- The banks of a state as another leaves them, when only one of them may change, and only in what it holds apart. -/
def HeldOnly (bid : Nat) (s t : State) : Prop :=
  ∀ m, t.bank m = { s.bank m with held := (t.bank m).held } ∧ (m ≠ bid → t.bank m = s.bank m)

theorem HeldOnly.trans {bid : Nat} {s t u : State} (h : HeldOnly bid s t) (k : HeldOnly bid t u) : HeldOnly bid s u := by
  intro m
  refine ⟨?_, fun hm => ((k m).2 hm).trans ((h m).2 hm)⟩
  have h1 := (h m).1
  have k1 := (k m).1
  rw [h1] at k1
  exact k1

/-- Everything of a state but its memory and its banks. -/
def SameElse (s t : State) : Prop := t = { s with mem := t.mem, banks := t.banks }

theorem SameElse.trans {s t u : State} (h : SameElse s t) (k : SameElse t u) : SameElse s u := by
  unfold SameElse at h k ⊢
  rw [h] at k
  exact k

theorem Bank.keepsApart_none (b : Bank) (bid pa : Nat) : b.keepsApart bid none pa = false := rfl

theorem poke_none (s : State) (bid pa : Nat) (v : Byte) :
    (s.poke bid none pa v).mem = s.mem.set pa v ∧ SameElse s (s.poke bid none pa v) ∧ HeldOnly bid s (s.poke bid none pa v) := by
  unfold State.poke
  by_cases h : (s.bank bid).held.isEmpty
  · simp only [h, Bank.keepsApart_none, Bool.false_eq_true, if_false, if_true]
    exact ⟨trivial, rfl, fun m => ⟨rfl, fun _ => rfl⟩⟩
  · simp only [h, Bank.keepsApart_none, Bool.false_eq_true, if_false]
    refine ⟨rfl, rfl, fun m => ?_⟩
    rw [State.bank_setBank]
    by_cases hm : m = bid
    · subst hm
      rw [if_pos rfl]
      exact ⟨rfl, fun h => absurd rfl h⟩
    · rw [if_neg (Ne.symm hm)]
      exact ⟨rfl, fun _ => rfl⟩

theorem pokes_none (bid : Nat) : ∀ (bs : List Byte) (s : State) (pa : Nat),
    (s.pokes bid none pa bs).mem = s.mem.write pa bs ∧ SameElse s (s.pokes bid none pa bs)
      ∧ HeldOnly bid s (s.pokes bid none pa bs)
  | [], s, pa => ⟨rfl, rfl, fun m => ⟨rfl, fun _ => rfl⟩⟩
  | v :: vs, s, pa => by
    obtain ⟨h1, h2, h3⟩ := poke_none s bid pa v
    obtain ⟨k1, k2, k3⟩ := pokes_none bid vs (s.poke bid none pa v) (pa + 1)
    exact ⟨by rw [State.pokes, k1, h1]; rfl, h2.trans k2, h3.trans k3⟩

/-! ### A store -/

/-- What a store of the control core of a bank leaves of a state: everything but the memory, the durable tier, the dirty lines of
host memory, poison, and of the banks: what the bank holds apart and has issued to the domain, and reservations of others. -/
structure StoreFrame (bid : Nat) (s t : State) : Prop where
  rest : t = { s with mem := t.mem, banks := t.banks, betony := t.betony, dirtyHost := t.dirtyHost, poison := t.poison
                      host := { s.host with peerResvs := t.host.peerResvs } }
  peers : ∀ r ∈ t.host.peerResvs, r ∈ s.host.peerResvs
  own : t.bank bid = { s.bank bid with held := (t.bank bid).held, dom := (t.bank bid).dom }
  other : ∀ m, m ≠ bid → t.bank m = { s.bank m with resv := (t.bank m).resv }
  resv : ∀ m, m ≠ bid → (t.bank m).resv = (s.bank m).resv ∨ (t.bank m).resv = none

theorem StoreFrame.trans {bid : Nat} {s t u : State} (h : StoreFrame bid s t) (k : StoreFrame bid t u) : StoreFrame bid s u := by
  refine ⟨?_, fun r hr => h.peers r (k.peers r hr), ?_, fun m hm => ?_, fun m hm => ?_⟩
  · have h1 := h.rest
    have k1 := k.rest
    rw [h1] at k1
    exact k1
  · have h1 := h.own
    have k1 := k.own
    rw [h1] at k1
    exact k1
  · have h1 := h.other m hm
    have k1 := k.other m hm
    rw [h1] at k1
    exact k1
  · rcases k.resv m hm with k1 | k1
    · rcases h.resv m hm with h1 | h1
      · exact .inl (k1.trans h1)
      · exact .inr (k1.trans h1)
    · exact .inr k1

theorem StoreFrame.cur {bid : Nat} {s t : State} (h : StoreFrame bid s t) : t.cur = s.cur := by rw [h.rest]
theorem StoreFrame.cycle {bid : Nat} {s t : State} (h : StoreFrame bid s t) : t.cycle = s.cycle := by rw [h.rest]

/-- A store changes no register of a control core. -/
theorem StoreFrame.core {bid : Nat} {s t : State} (h : StoreFrame bid s t) (m : Nat) : (t.bank m).core = (s.bank m).core := by
  by_cases hm : m = bid
  · subst hm; rw [h.own]
  · rw [h.other m hm]

theorem StoreFrame.refl (bid : Nat) (s : State) : StoreFrame bid s s := ⟨rfl, fun _ h => h, rfl, fun _ _ => rfl, fun _ _ => .inl rfl⟩

theorem StoreFrame.of_held {bid : Nat} {s t : State} (he : SameElse s t) (hh : HeldOnly bid s t) : StoreFrame bid s t := by
  refine ⟨?_, fun r hr => ?_, ?_, fun m hm => ?_, fun m hm => .inl ?_⟩
  · rw [he]
  · rwa [he] at hr
  · have := (hh bid).1
    rw [this]
  · rw [(hh m).2 hm]
  · rw [(hh m).2 hm]

/-- A step that changes no bank, and of the rest only what a store may. -/
theorem StoreFrame.of_banks {bid : Nat} {s t : State} (h : t.banks = s.banks)
    (hr : t = { s with mem := t.mem, banks := t.banks, betony := t.betony, dirtyHost := t.dirtyHost, poison := t.poison }) :
    StoreFrame bid s t := by
  have hb : ∀ m, t.bank m = s.bank m := fun m => by simp only [State.bank, h]
  have hh : t.host = s.host := by rw [hr]
  refine ⟨?_, fun r h => by rwa [hh] at h, by rw [hb], fun m _ => by rw [hb], fun m _ => .inl (by rw [hb])⟩
  rw [hh]; exact hr

theorem domainWrite_frame (s : State) (bid pa n : Nat) :
    (s.domainWrite bid none pa n).mem = s.mem ∧ StoreFrame bid s (s.domainWrite bid none pa n) := by
  unfold State.domainWrite
  split
  · refine ⟨rfl, rfl, fun _ h => h, ?_, fun m hm => ?_, fun m hm => ?_⟩
    · simp only [State.modBank, State.bank_setBank, if_true]
    · simp only [State.modBank, State.bank_setBank, Ne.symm hm, if_false]
    · simp only [State.modBank, State.bank_setBank, Ne.symm hm, if_false, true_or]
  · exact ⟨rfl, StoreFrame.refl bid s⟩

theorem breakResv_frame (s : State) (bid : Nat) (pa n : Nat) :
    (s.breakResv (some bid) pa n).mem = s.mem ∧ StoreFrame bid s (s.breakResv (some bid) pa n) := by
  refine ⟨rfl, rfl, fun r hr => (List.mem_filter.mp hr).1, ?_, fun m _ => (breakResv_bank s (some bid) pa n m).1, fun m _ => ?_⟩
  · have h := breakResv_bank s (some bid) pa n bid
    rcases h.2 with h2 | ⟨_, h3⟩
    · have h1 := h.1
      rw [h2] at h1
      rw [h1]
    · exact absurd rfl h3
  · rcases (breakResv_bank s (some bid) pa n m).2 with h | h
    · exact .inl h
    · exact .inr h.1

theorem durable_frame (s : State) (bid : Nat) (agent : DAgent) (pa n pol tick : Nat) (l : List Nat) :
    (s.durable agent pa n pol tick l).mem = s.mem ∧ StoreFrame bid s (s.durable agent pa n pol tick l) := by
  rw [durable_eq]
  exact ⟨rfl, StoreFrame.of_banks rfl rfl⟩

theorem dirtyLines_frame (s : State) (bid die vf pa n pol : Nat) :
    (s.dirtyLines die vf pa n pol).mem = s.mem ∧ StoreFrame bid s (s.dirtyLines die vf pa n pol) := by
  rw [dirtyLines_eq]
  exact ⟨rfl, StoreFrame.of_banks rfl rfl⟩

/-- A store of a bank's control core writes its bytes from its place on, and leaves the rest (R153, R155). -/
theorem storeAt_none (s : State) (bid : Nat) (p : Place) (d : List Byte) :
    (s.storeAt bid none p d).mem = s.mem.write p.pa d ∧ StoreFrame bid s (s.storeAt bid none p d) := by
  unfold State.storeAt
  dsimp only
  obtain ⟨a1, a2⟩ := dirtyLines_frame s bid (dieOf bid) (s.bank bid).vfId p.pa d.length p.pol
  generalize s.dirtyLines (dieOf bid) (s.bank bid).vfId p.pa d.length p.pol = s1 at *
  obtain ⟨b1, b2, b3⟩ := pokes_none bid d s1 p.pa
  generalize s1.pokes bid none p.pa d = s2 at *
  simp only [Option.isNone_none, if_true, Bank.keepsApart_none, Bool.false_eq_true, if_false]
  obtain ⟨c1, c2⟩ := durable_frame s2 bid (dagent bid none) p.pa d.length p.pol (s2.beganAt bid none) (s.bank bid).barred
  generalize s2.durable (dagent bid none) p.pa d.length p.pol (s2.beganAt bid none) (s.bank bid).barred = s3 at *
  obtain ⟨d1, d2⟩ := domainWrite_frame s3 bid p.pa d.length
  generalize s3.domainWrite bid none p.pa d.length = s4 at *
  obtain ⟨e1, e2⟩ := breakResv_frame s4 bid p.pa d.length
  generalize s4.breakResv (some bid) p.pa d.length = s5 at *
  refine ⟨?_, a2.trans ((StoreFrame.of_held b2 b3).trans (c2.trans (d2.trans (e2.trans (StoreFrame.of_banks rfl rfl)))))⟩
  show s5.mem = _
  rw [e1, d1, c1, b1, a1]

theorem storeAt_frame (s : State) (bid : Nat) (p : Place) (d : List Byte) : StoreFrame bid s (s.storeAt bid none p d) :=
  (storeAt_none s bid p d).2

theorem Bank.readX_core {b c : Bank} (h : b.core = c.core) (r : Reg) : b.readX r = c.readX r := by
  unfold Bank.readX; rw [h]

end Sys2Proof.Machine
end

