-- ==== Sys2Proof/Laws/Phase.lean ====
section
/-! SUPPORT. What committing a phase and beginning one leave alone: the control cores' registers, and all of the state but memory,
poison and banks. -/

namespace Sys2Proof.Machine

/-- A step that touches memory, poison and banks only, and no control core's registers. -/
structure PhaseFrame (s t : State) : Prop where
  rest : t = { s with mem := t.mem, banks := t.banks, poison := t.poison }
  core : ∀ m, (t.bank m).core = (s.bank m).core

theorem PhaseFrame.refl (s : State) : PhaseFrame s s := ⟨rfl, fun _ => rfl⟩
theorem PhaseFrame.trans {s t u : State} (h : PhaseFrame s t) (k : PhaseFrame t u) : PhaseFrame s u :=
  ⟨by
    have h1 := h.rest
    have k1 := k.rest
    rw [h1] at k1
    exact k1, fun m => (k.core m).trans (h.core m)⟩
theorem PhaseFrame.cur {s t : State} (h : PhaseFrame s t) : t.cur = s.cur := by rw [h.rest]
theorem PhaseFrame.cycle {s t : State} (h : PhaseFrame s t) : t.cycle = s.cycle := by rw [h.rest]

theorem PhaseFrame.setBank {s : State} {i : Nat} {b : Bank} (h : b.core = (s.bank i).core) : PhaseFrame s (s.setBank i b) := by
  refine ⟨rfl, fun m => ?_⟩
  rw [State.bank_setBank]
  split
  · rename_i hm; subst hm; exact h
  · rfl

theorem PhaseFrame.modBank {s : State} {i : Nat} {f : Bank → Bank} (h : ∀ b, (f b).core = b.core) : PhaseFrame s (s.modBank i f) :=
  PhaseFrame.setBank (h _)

theorem PhaseFrame.foldl {α : Type} {f : State → α → State} (h : ∀ s x, PhaseFrame s (f s x)) (l : List α) (s : State) :
    PhaseFrame s (l.foldl f s) := by
  induction l generalizing s with
  | nil => exact PhaseFrame.refl s
  | cons x l ih => exact (h s x).trans (ih _)

/-- A fold over a list that never changes the control core of a bank. -/
theorem foldl_core {α : Type} {f : Bank → α → Bank} (h : ∀ b x, (f b x).core = b.core) (l : List α) (b : Bank) :
    (l.foldl f b).core = b.core := by
  induction l generalizing b with
  | nil => rfl
  | cons x l ih => exact (ih _).trans (h b x)

@[simp] theorem Bank.modCkpt_core (b : Bank) (p : Nat) (f : Ckpt → Ckpt) : (b.modCkpt p f).core = b.core := rfl
@[simp] theorem Bank.enginePart_core (b : Bank) (e : Engine) (p : Nat) : (b.enginePart e p).core = b.core := rfl

@[simp] theorem Bank.modEngines_core (b : Bank) (f : Engine → Eng → Eng) : (b.modEngines f).core = b.core := rfl

theorem Bank.fullCkpt_core (b : Bank) (p : Nat) (pc : Word) : (b.fullCkpt p pc).core = b.core := by
  unfold Bank.fullCkpt
  rw [foldl_core (fun b e => b.enginePart_core e p)]

theorem State.applyHeld_frame (s : State) (l : List Held) : PhaseFrame s (s.applyHeld l) := ⟨rfl, fun _ => rfl⟩

@[simp] theorem Bank.commit_core (b : Bank) (w : Nat) : (b.commit w).core = b.core := by
  unfold Bank.commit
  dsimp only
  rw [Bank.modEngines_core]
  rfl

@[simp] theorem Bank.openPhase_core (b : Bank) (pc : Word) : (b.openPhase pc).core = b.core := by
  rw [Bank.openPhase, Bank.fullCkpt_core, Bank.modEngines_core]

theorem State.commit_frame (s : State) (bid : Nat) : PhaseFrame s (s.commit bid) := by
  unfold State.commit
  have clear : ∀ (t : State) (l : List Nat), PhaseFrame t { t with poison := l } := fun _ _ => ⟨rfl, fun _ => rfl⟩
  exact (s.applyHeld_frame _).trans ((clear _ _).trans (PhaseFrame.setBank (Bank.commit_core (s.bank bid) _)))

theorem State.commitOpen_frame (s : State) (bid : Nat) (pc : Word) : PhaseFrame s (s.commitOpen bid pc) :=
  (s.commit_frame bid).trans (PhaseFrame.modBank (fun b => b.openPhase_core pc))

theorem State.commitOpenAll_frame (s : State) (bid : Nat) : PhaseFrame s (s.commitOpenAll bid) :=
  PhaseFrame.foldl (fun s m => s.commitOpen_frame m _) _ s

theorem State.beginPhase_frame (s : State) (bid : Nat) (pc : Word) : PhaseFrame s (s.beginPhase bid pc) :=
  PhaseFrame.foldl (fun _ _ => PhaseFrame.modBank (fun b => b.fullCkpt_core _ _)) _ s

theorem State.issues_frame (s : State) : PhaseFrame s s.issues := by
  unfold State.issues
  split
  · exact PhaseFrame.refl s
  · exact (s.commitOpenAll_frame s.cur.bid).trans (PhaseFrame.modBank (fun _ => rfl))

@[simp] theorem State.issues_cur (s : State) : s.issues.cur = s.cur := s.issues_frame.cur

/-- An irrevocable form that completes: it commits the open phase, then come its checks, its effect, and the beginning of the next
phase (R259). -/
theorem runCc_irrevocable {α : Type} {checks : M α} {effect : α → M Unit} {s t u : State} {x : α}
    (hs : s.settled s.cur.bid = true) (hc : checks.run s.issues = .ok x t)
    (he : (effect x).run t = .ok () u) (hu : u.cur = s.cur)
    (hp : (u.bank s.cur.bid).core.pc = s.own.core.pc) :
    runCc (irrevocable checks effect) s = .next ((u.beginPhase s.cur.bid s.after).retires id s.after) := by
  have h := irrevocable_ok hs hc he
  have e : (u.bank u.cur.bid).core.pc + BitVec.ofNat 64 u.cur.ilen = s.after := by rw [hu, hp]; rfl
  rw [e, hu] at h
  have hf := u.beginPhase_frame s.cur.bid s.after
  exact runCc_state h (hf.cur.trans hu) (by rw [hf.core, hp])

/-- An irrevocable form that completes, wherever its effect leaves the pc. -/
theorem runCc_behind {α : Type} {checks : M α} {effect : α → M Unit} {s t u : State} {x : α}
    (hs : s.settled s.cur.bid = true) (hc : checks.run s.issues = .ok x t)
    (he : (effect x).run t = .ok () u) (hu : u.cur = s.cur) :
    runCc (irrevocable checks effect) s = .next u.behind := by
  have h := irrevocable_ok hs hc he
  rw [runCc_ok h]
  have hf := u.beginPhase_frame s.cur.bid ((u.bank u.cur.bid).core.pc + BitVec.ofNat 64 u.cur.ilen)
  simp only [State.behind, State.retires, State.modBank, State.after, State.own, hu, id_eq] at hf ⊢
  have hq := hf.core s.cur.bid
  have hz := hf.cur
  rw [hq, hz.trans hu]

/-- The waits of a domain fence touch its bank only. -/
theorem fenceWait_frame {rl : Bool} {s t : State} (h : (fenceWait rl).run s = .ok () t) : PhaseFrame s t := by
  simp only [fenceWait, M.bind_get, M.bind_curBank] at h
  split at h
  · simp at h
  · split at h
    · simp only [M.run_modCur, EStateM.Result.ok.injEq, true_and] at h
      rw [← h]
      exact PhaseFrame.modBank (fun b => rfl)
    · simp at h

/-- The checks of an atomic touch no control core's registers. -/
theorem atomicPlace_frame {a : Reg} {dbl rl : Bool} {acc c : Nat} {s t : State} {p : Place}
    (h : (atomicPlace a dbl rl acc c).run s = .ok p t) :
    t.cur = s.cur ∧ t.cycle = s.cycle ∧ ∀ m, (t.bank m).core = (s.bank m).core := by
  simp only [atomicPlace, M.bind_get, M.bind_readX] at h
  split at h
  · simp at h
  · rw [M.run_bind] at h
    split at h
    · rename_i q u hq
      have hf := translate_frame hq
      have h1 : u.cur = s.cur ∧ u.cycle = s.cycle ∧ ∀ m, (u.bank m).core = (s.bank m).core :=
        ⟨hf.cur, by rw [hf.rest], hf.core⟩
      split at h
      · rw [M.run_bind] at h
        split at h
        · rename_i x v hv
          have hk := fenceWait_frame hv
          simp at h
          obtain ⟨_, rfl⟩ := h
          exact ⟨hk.cur.trans h1.1, hk.cycle.trans h1.2.1, fun m => (hk.core m).trans (h1.2.2 m)⟩
        · cases h
      · simp at h
        obtain ⟨_, rfl⟩ := h
        exact h1
    · cases h


end Sys2Proof.Machine
end

