-- ==== Sys2Proof/Laws/Handle.lean ====
section
/-! SUPPORT. What a use of a page handle leaves alone. -/

namespace Sys2Proof.Machine

/-- What a use of a handle leaves of a state: everything but what a translation may change, and the versions of handles. -/
structure HandleFrame (s t : State) : Prop where
  rest : t = { s with mem := t.mem, cores := t.cores, dies := t.dies, banks := t.banks, betony := t.betony, dirtyHost := t.dirtyHost
                      host := { s.host with peerResvs := t.host.peerResvs } }
  peers : ∀ r ∈ t.host.peerResvs, r ∈ s.host.peerResvs
  bank : ∀ m, t.bank m = { s.bank m with core := { (s.bank m).core with ph := (t.bank m).core.ph }, resv := (t.bank m).resv }

theorem HandleFrame.refl (s : State) : HandleFrame s s := ⟨rfl, fun _ h => h, fun _ => rfl⟩
theorem HandleFrame.trans {s t u : State} (h : HandleFrame s t) (k : HandleFrame t u) : HandleFrame s u := by
  refine ⟨?_, fun r hr => h.peers r (k.peers r hr), fun m => ?_⟩
  · have h1 := h.rest
    have k1 := k.rest
    rw [h1] at k1
    exact k1
  · have h1 := h.bank m
    have k1 := k.bank m
    rw [h1] at k1
    exact k1
theorem HandleFrame.cur {s t : State} (h : HandleFrame s t) : t.cur = s.cur := by rw [h.rest]
theorem HandleFrame.pc {s t : State} (h : HandleFrame s t) (m : Nat) : (t.bank m).core.pc = (s.bank m).core.pc := by rw [h.bank]
theorem HandleFrame.readX {s t : State} (h : HandleFrame s t) (m : Nat) (r : Reg) : (t.bank m).readX r = (s.bank m).readX r := by
  rw [h.bank]; rfl

theorem HandleFrame.of_translated {s t : State} (h : Translated s t) : HandleFrame s t := by
  refine ⟨h.rest, h.peers, fun m => ?_⟩
  rw [h.own m]

theorem HandleFrame.setHandle (s : State) (hb : Nat) (p : BitVec 4) (h : Bank → Handle) :
    HandleFrame s (s.modBank hb (fun b => b.setHandle p (h b))) := by
  refine ⟨rfl, fun _ h => h, fun m => ?_⟩
  rw [State.modBank, State.bank_setBank]
  split
  · rename_i hm; subst hm; rfl
  · rfl

theorem rewalk_frame {w : Who} {hb : Nat} {p : BitVec 4} {v v' : HVer} {va byte acc : Nat} {s t : State}
    (h : (rewalk w hb p v va byte acc).run s = .ok v' t) : HandleFrame s t := by
  simp only [rewalk, M.bind_get] at h
  split at h
  · simp at h
  · simp [setVer] at h
  · rename_i l _
    simp only [setVer, M.bind_set, M.bind_modify, M.run_pure, EStateM.Result.ok.injEq] at h
    rw [← h.2]
    exact (HandleFrame.of_translated (tlbRenew_frame s w va l)).trans (HandleFrame.setHandle _ _ _ _)

theorem versionPage_frame {bid key : Nat} {e : Option Engine} {w : Who} {hb : Nat} {p : BitVec 4} {v v' : HVer} {off len acc : Nat}
    {s t : State} (h : (versionPage bid key e w hb p v off len acc).run s = .ok v' t) : HandleFrame s t := by
  unfold versionPage at h
  dsimp only at h
  split at h
  · simp at h
  · split at h <;> simp [waitWalk] at h
  · simp at h; rw [h.2]; exact HandleFrame.refl t
  · split at h
    · simp at h
    · exact rewalk_frame h

theorem landOnPage_frame {w : Who} {p : BitVec 4} {v : HVer} {off len acc pol : Nat} {pl : Place} {s t : State}
    (h : (landOnPage w p v off len acc pol).run s = .ok pl t) : HandleFrame s t := by
  unfold landOnPage at h
  dsimp only at h
  split at h
  · simp at h
  · split at h
    · simp at h
    · simp only [M.bind_get] at h
      split at h
      · simp at h
      · simp at h
      · rename_i u hu
        simp only [M.bind_set, M.run_pure, EStateM.Result.ok.injEq] at h
        rw [← h.2]
        exact HandleFrame.of_translated (land_frame hu)

theorem handlePlace_frame {bid : Nat} {e : Option Engine} {p : BitVec 4} {id : Option Nat} {off len acc pol : Nat} {pl : Place}
    {s t : State} (h : (handlePlace bid e p id off len acc pol).run s = .ok pl t) : HandleFrame s t := by
  simp only [handlePlace, M.bind_get] at h
  rw [M.run_bind] at h
  split at h
  · rename_i v u hv
    have h1 := versionPage_frame hv
    split at h
    · simp at h
    · split at h
      · simp only [M.bind_pure] at h
        exact h1.trans (landOnPage_frame h)
      · rw [M.run_bind] at h
        split at h
        · rename_i v' u' hv'
          exact h1.trans ((rewalk_frame hv').trans (landOnPage_frame h))
        · cases h
  · cases h

end Sys2Proof.Machine
end

