-- ==== Sys2Proof/Laws/Keeps.lean ====
section
/-! SUPPORT. What every shared operation keeps: the memory of bytes and the media in canonical form, and the agent in execution. -/

namespace Sys2Proof.Machine

variable {α β : Type}

/-- A step that keeps the canonical form of memory, and the agent in execution. -/
structure Keeps (s t : State) : Prop where
  cur : t.cur = s.cur
  ok : MemOk s → MemOk t

theorem Keeps.refl (s : State) : Keeps s s := ⟨rfl, id⟩
theorem Keeps.trans {s t u : State} (h : Keeps s t) (k : Keeps t u) : Keeps s u := ⟨k.cur.trans h.cur, fun x => k.ok (h.ok x)⟩

/-- A step that leaves memory and media as they are. -/
theorem Keeps.same {s t : State} (hc : t.cur = s.cur) (hm : t.mem = s.mem) (hb : t.betony.media = s.betony.media) : Keeps s t :=
  ⟨hc, fun h => by unfold MemOk at h ⊢; rw [hm, hb]; exact h⟩

/-- A step that changes memory by operations that keep its form. -/
theorem Keeps.mem {s t : State} (hc : t.cur = s.cur) (hm : s.mem.wf = true → t.mem.wf = true)
    (hb : t.betony.media = s.betony.media) : Keeps s t :=
  ⟨hc, fun h => ⟨hm h.1, by rw [hb]; exact h.2⟩⟩

theorem Keeps.ite {c : Prop} [Decidable c] {s t u : State} (ht : Keeps s t) (hu : Keeps s u) : Keeps s (if c then t else u) := by
  split <;> assumption

theorem Keeps.foldl {f : State → α → State} (h : ∀ s x, Keeps s (f s x)) (l : List α) (s : State) : Keeps s (l.foldl f s) := by
  induction l generalizing s with
  | nil => exact Keeps.refl s
  | cons x l ih => exact (h s x).trans (ih _)

/-- A body has ended in a state that keeps. -/
def Ends (s : State) : EStateM.Result Stop State α → Prop
  | .ok _ t => Keeps s t
  | .error _ t => Keeps s t

theorem Ends.trans {s t : State} {r : EStateM.Result Stop State α} (h : Keeps s t) (k : Ends t r) : Ends s r := by
  cases r <;> exact h.trans k

/-- A body that keeps what it runs on, however it ends. -/
def KeepsM (x : M α) : Prop := ∀ s, Ends s (x.run s)

theorem KeepsM.pure (a : α) : KeepsM (pure a) := fun s => Keeps.refl s
theorem KeepsM.get : KeepsM (get : M State) := fun s => Keeps.refl s
theorem KeepsM.fail (e : Stop) : KeepsM (fail e : M α) := fun s => Keeps.refl s
theorem KeepsM.throw (e : Stop) : KeepsM (throw e : M α) := fun s => Keeps.refl s
theorem KeepsM.trap (c t : Nat) : KeepsM (trap c t : M α) := fun s => Keeps.refl s
theorem KeepsM.illegal : KeepsM (illegal : M α) := fun s => Keeps.refl s
theorem KeepsM.waitMore : KeepsM (waitMore : M α) := fun s => Keeps.refl s
theorem KeepsM.endNest (c : Nat) : KeepsM (endNest c : M α) := fun s => Keeps.refl s
theorem KeepsM.illegalWord : KeepsM (illegalWord : M α) := fun s => Keeps.refl s

theorem KeepsM.bind {x : M α} {f : α → M β} (hx : KeepsM x) (hf : ∀ a, KeepsM (f a)) : KeepsM (x >>= f) := by
  intro s
  rw [M.run_bind]
  have h := hx s
  cases hr : x.run s with
  | ok a t => rw [hr] at h; exact Ends.trans h (hf a t)
  | error e t => rw [hr] at h; exact h

theorem KeepsM.map {x : M α} (g : α → β) (hx : KeepsM x) : KeepsM (g <$> x) := by
  intro s
  rw [M.run_map]
  have h := hx s
  cases hr : x.run s <;> (rw [hr] at h; exact h)

theorem KeepsM.modify {f : State → State} (h : ∀ s, Keeps s (f s)) : KeepsM (modify f : M PUnit) := fun s => h s

/-- A body that reads the state and goes on from it. -/
theorem KeepsM.get_bind {f : State → M β} (h : ∀ s, Ends s ((f s).run s)) :
    KeepsM ((MonadState.get : M State) >>= f) := fun s => h s

theorem KeepsM.ite {c : Prop} [Decidable c] {x y : M α} (hx : KeepsM x) (hy : KeepsM y) : KeepsM (if c then x else y) := by
  split <;> assumption

theorem KeepsM.mapM {f : α → M β} (h : ∀ a, KeepsM (f a)) (l : List α) : KeepsM (l.mapM f) := by
  induction l with
  | nil => exact KeepsM.pure []
  | cons a l ih =>
    rw [List.mapM_cons]
    exact (h a).bind (fun _ => ih.bind (fun _ => KeepsM.pure _))

/-- A body that answers, keeps. -/
theorem KeepsM.ok {x : M α} (h : KeepsM x) {s t : State} {a : α} (hr : x.run s = .ok a t) : Keeps s t := by
  have k := h s; rw [hr] at k; exact k
theorem KeepsM.error {x : M α} (h : KeepsM x) {s t : State} {e : Stop} (hr : x.run s = .error e t) : Keeps s t := by
  have k := h s; rw [hr] at k; exact k

/-! ### Parts of the state -/

theorem keeps_setBank (s : State) (i : Nat) (b : Bank) : Keeps s (s.setBank i b) := ⟨rfl, id⟩
theorem keeps_modBank (s : State) (i : Nat) (f : Bank → Bank) : Keeps s (s.modBank i f) := ⟨rfl, id⟩
theorem keeps_modCore (s : State) (i : Nat) (f : CoreSt → CoreSt) : Keeps s (s.modCore i f) := ⟨rfl, id⟩
theorem keeps_modDie (s : State) (i : Nat) (f : Die → Die) : Keeps s (s.modDie i f) := ⟨rfl, id⟩
theorem keeps_setDie (s : State) (i : Nat) (d : Die) : Keeps s (s.setDie i d) := ⟨rfl, id⟩
theorem keeps_modNest (s : State) (i : Nat) (f : Nest → Nest) : Keeps s (s.modNest i f) := ⟨rfl, id⟩

theorem keepsM_modCur (f : Bank → Bank) : KeepsM (modCur f) := fun s => keeps_modBank s _ f
theorem keepsM_curBid : KeepsM curBid := fun s => Keeps.refl s
theorem keepsM_curBank : KeepsM curBank := fun s => Keeps.refl s
theorem keepsM_readX (r : Reg) : KeepsM (readX r) := fun s => Keeps.refl s
theorem keepsM_writeX (r : Reg) (v : Word) : KeepsM (writeX r v) := fun s => keeps_modBank s _ _
theorem keepsM_nextPc : KeepsM nextPc := fun s => Keeps.refl s
theorem keepsM_curEng (e : Engine) : KeepsM (curEng e) := fun s => Keeps.refl s
theorem keepsM_modEng (e : Engine) (f : Eng → Eng) : KeepsM (modEng e f) := keepsM_modCur _
theorem keepsM_modRegs (e : Engine) (f : EngRegs → EngRegs) : KeepsM (modRegs e f) := keepsM_modCur _
theorem keepsM_restack (e : Engine) (n : Nat) (l : List Word) : KeepsM (restack e n l) := keepsM_modCur _

theorem keepsM_operands (e : Engine) (n k : Nat) : KeepsM (operands e n k) := by
  unfold operands
  refine (keepsM_curEng e).bind (fun g => ?_)
  dsimp only
  split
  · exact KeepsM.illegalWord.bind (fun _ => KeepsM.pure _)
  · exact KeepsM.pure _

/-! ### Memory -/

theorem wf_set {m : Mem} (h : m.wf = true) (a : Nat) (v : Byte) : (m.set a v).wf = true :=
  (Mem.wf_iff _).2 (Mem.good_set ((Mem.wf_iff _).1 h) a v)
theorem wf_write {m : Mem} (h : m.wf = true) (a : Nat) (bs : List Byte) : (m.write a bs).wf = true :=
  (Mem.wf_iff _).2 (Mem.good_write ((Mem.wf_iff _).1 h) a bs)
theorem wf_blank {m : Mem} (h : m.wf = true) (lo hi : Nat) (t : Option Nat) : (m.blank lo hi t).wf = true :=
  (Mem.wf_iff _).2 (Mem.good_blank ((Mem.wf_iff _).1 h) lo hi t)
theorem wf_graft {m : Mem} (h : m.wf = true) (lo hi : Nat) (old : Mem) : (m.graft lo hi old).wf = true :=
  (Mem.wf_iff _).2 (Mem.good_graft ((Mem.wf_iff _).1 h) lo hi old)

theorem wf_mend {m : Mem} (h : m.wf = true) (lo hi : Nat) (old : Mem) : (m.mend lo hi old).wf = true :=
  (Mem.wf_iff _).2 (Mem.good_mend ((Mem.wf_iff _).1 h) lo hi old)

/-- A fold of operations that keep the form keeps it. -/
theorem wf_foldl {f : Mem → α → Mem} (hf : ∀ m x, m.wf = true → (f m x).wf = true) (l : List α) {m : Mem} (h : m.wf = true) :
    (l.foldl f m).wf = true := by
  induction l generalizing m with
  | nil => exact h
  | cons x l ih => exact ih (hf m x h)

theorem keeps_poke (s : State) (bid : Nat) (e : Option Engine) (pa : Nat) (v : Byte) : Keeps s (s.poke bid e pa v) := by
  unfold State.poke
  dsimp only
  split
  · exact keeps_setBank s _ _
  · have h : Keeps s { s with mem := s.mem.set pa v } := Keeps.mem rfl (fun h => wf_set h pa v) rfl
    split
    · exact h
    · exact h.trans (keeps_setBank _ _ _)

theorem keeps_pokes (bid : Nat) (e : Option Engine) : ∀ (bs : List Byte) (s : State) (pa : Nat), Keeps s (s.pokes bid e pa bs)
  | [], s, _ => Keeps.refl s
  | v :: vs, s, pa => (keeps_poke s bid e pa v).trans (keeps_pokes bid e vs _ (pa + 1))

theorem issue_media (t : Betony) (a : DAgent) (ws : List (Nat × Word)) (k : Nat) (x : Bool) (l : List Nat) :
    (t.issue a ws k x l).media = t.media := by
  rfl

theorem keeps_durable (s : State) (a : DAgent) (pa n pol tick : Nat) (l : List Nat) : Keeps s (s.durable a pa n pol tick l) := by
  unfold State.durable
  split
  · refine Keeps.same rfl rfl ?_
    dsimp only
    generalize s.betony = t
    induction linesOf pa n generalizing t with
    | nil => rfl
    | cons w ws ih => exact (ih _).trans (issue_media _ _ _ _ _ _)
  · exact Keeps.refl s

theorem keeps_dirtyLines (s : State) (die vf pa n pol : Nat) : Keeps s (s.dirtyLines die vf pa n pol) := by
  rw [dirtyLines_eq]; exact ⟨rfl, id⟩
theorem keeps_domainWrite (s : State) (bid : Nat) (e : Option Engine) (pa n : Nat) : Keeps s (s.domainWrite bid e pa n) := by
  unfold State.domainWrite
  split
  · split <;> exact keeps_modBank s _ _
  · exact Keeps.refl s
theorem keeps_breakResv (s : State) (b : Option Nat) (pa n : Nat) : Keeps s (s.breakResv b pa n) := ⟨rfl, id⟩
theorem keeps_unpoison (s : State) (pa n : Nat) : Keeps s (s.unpoison pa n) := ⟨rfl, id⟩

theorem keeps_takeSpans (s : State) : Keeps s s.takeSpans := ⟨rfl, id⟩

/-- A write of an agent of a bank. -/
theorem keeps_storeAt (s : State) (bid : Nat) (e : Option Engine) (p : Place) (d : List Byte) : Keeps s (s.storeAt bid e p d) := by
  unfold State.storeAt
  have h := ((((keeps_dirtyLines s (dieOf bid) (s.bank bid).vfId p.pa d.length p.pol).trans (keeps_pokes bid e d _ p.pa)).trans
    (keeps_durable _ (dagent bid e) p.pa d.length p.pol
      ((((s.dirtyLines (dieOf bid) (s.bank bid).vfId p.pa d.length p.pol)).pokes bid e p.pa d).beganAt bid e)
      (if e.isNone then (s.bank bid).barred else []))).trans (keeps_domainWrite _ bid e p.pa d.length)).trans
    (keeps_breakResv _ (some bid) p.pa d.length)
  exact Keeps.ite h (h.trans (keeps_unpoison _ _ _))

/-- A write from outside the package. -/
theorem keeps_storeFrom (s : State) (a : DAgent) (k : Option Nat) (pa : Nat) (d : List Byte) : Keeps s (s.storeFrom a k pa d) := by
  unfold State.storeFrom
  have h : Keeps s { s with mem := s.mem.write pa d } := Keeps.mem rfl (fun h => wf_write h pa d) rfl
  exact ((h.trans (keeps_durable _ _ _ _ _ _ _)).trans (keeps_breakResv _ _ _ _)).trans (keeps_unpoison _ _ _)

theorem keeps_storeOutside (s : State) (a : DAgent) (pa : Nat) (d : List Byte) : Keeps s (s.storeOutside a pa d) :=
  keeps_storeFrom s a none pa d

theorem keeps_storeSpan (s : State) (bid : Nat) (ps : List (Place × Nat)) (n v : Nat) : Keeps s (s.storeSpan bid ps n v) := by
  unfold State.storeSpan
  split
  · exact keeps_storeAt s _ _ _ _
  · exact Keeps.foldl (fun s x => keeps_storeAt s _ _ _ _) _ s

theorem keeps_storeLocal (bid : Nat) (e : Engine) : ∀ (bs : List Byte) (s : State) (la : Nat), Keeps s (s.storeLocal bid e la bs)
  | [], s, _ => Keeps.refl s
  | v :: vs, s, la =>
    ((keeps_poke s bid _ _ v).trans (keeps_breakResv _ _ _ _)).trans (keeps_storeLocal bid e vs _ (la + 1))

theorem keeps_storeLocalBlock (s : State) (bid : Nat) (e : Engine) (la : Nat) (d : List Byte) :
    Keeps s (s.storeLocalBlock bid e la d) := by
  unfold State.storeLocalBlock State.unpoisonLocal
  exact (Keeps.ite (Keeps.refl s) (keeps_unpoison s _ _)).trans (keeps_storeLocal bid e d _ la)

theorem keeps_storePairs (s : State) (bid didx dval w : Nat) (l : List (Nat × Nat)) : Keeps s (s.storePairs bid didx dval w l) := by
  unfold State.storePairs State.unpoisonLocal
  refine Keeps.trans ?_ (Keeps.foldl (fun s p => (keeps_storeLocal bid .sx _ s _).trans (keeps_storeLocal bid .sx _ _ _)) _ _)
  exact (Keeps.ite (Keeps.refl s) (keeps_unpoison s _ _)).trans (Keeps.ite (Keeps.refl _) (keeps_unpoison _ _ _))

/-! ### Translation and handles -/

theorem keeps_touch (s : State) (w : Who) (l : Leaf) (acc : Nat) : Keeps s (s.touch w l acc) := by
  unfold State.touch
  generalize s.marked l acc = v
  refine Keeps.ite ?_ (Keeps.refl s)
  have h : ∀ t : State, Keeps t { t with mem := t.mem.set l.pte v } := fun t => Keeps.mem rfl (fun h => wf_set h _ v) rfl
  exact (((keeps_dirtyLines s _ _ _ _ _).trans (h _)).trans (keeps_durable _ _ _ _ _ _ _)).trans (keeps_breakResv _ _ _ _)

theorem keeps_land {s t : State} {w : Who} {l : Leaf} {acc pa n : Nat} (h : s.land w l acc pa n = .ok t) : Keeps s t := by
  rw [(land_cases h).2.2.2]; exact keeps_touch s w l acc

theorem keeps_tlbFill (s : State) (w : Who) (l : Leaf) : Keeps s (s.tlbFill w l) := by
  have h := tlbFill_frame s w l
  exact ⟨h.cur, fun k => by unfold State.tlbFill; dsimp only; split <;> exact k⟩

theorem keeps_tlbDrop (s : State) (w : Who) (va : Nat) : Keeps s (s.tlbDrop w va) := by
  unfold State.tlbDrop
  dsimp only
  split
  · exact (keeps_modDie s _ _).trans (keeps_modCore _ _ _)
  · exact keeps_modDie s _ _

theorem keeps_tlbRenew (s : State) (w : Who) (va : Nat) (l : Leaf) : Keeps s (s.tlbRenew w va l) :=
  (keeps_tlbDrop s w va).trans (keeps_tlbFill _ w l)

/-- A body that sets a state that keeps, and goes on. -/
theorem KeepsM.set_bind {t : State} {f : PUnit → M β} {s : State} (h : Keeps s t) (hf : KeepsM (f ⟨⟩)) :
    Ends s (((MonadStateOf.set t : M PUnit) >>= f).run s) := Ends.trans h (hf t)

theorem keepsM_walkLeaf (w : Who) (va acc : Nat) : KeepsM (walkLeaf w va acc) := by
  unfold walkLeaf
  refine KeepsM.get_bind (fun s => ?_)
  split
  · exact Keeps.refl s
  · exact KeepsM.set_bind (keeps_tlbDrop s _ _) (KeepsM.fail _)
  · exact KeepsM.set_bind (keeps_tlbRenew s _ _ _) (KeepsM.pure _)

theorem keepsM_landOn (w : Who) (l : Leaf) (va acc pol : Nat) : KeepsM (landOn w l va acc pol) := by
  unfold landOn
  refine KeepsM.ite ?_ ?_ <;> dsimp only
  all_goals try refine (KeepsM.fail _).bind (fun _ => ?_)
  all_goals
    refine KeepsM.get_bind (fun s => ?_)
    split
    · exact Keeps.refl s
    · rename_i h
      exact KeepsM.set_bind (keeps_land h) (KeepsM.pure _)

theorem keepsM_translate (w : Who) (va acc pol : Nat) : KeepsM (translate w va acc pol) := by
  unfold translate
  refine KeepsM.ite ?_ ?_ <;> dsimp only
  all_goals try refine (KeepsM.fail _).bind (fun _ => ?_)
  all_goals
    refine KeepsM.get.bind (fun s => ?_)
    split
    · refine KeepsM.ite ?_ ?_
      · exact (KeepsM.pure _).bind (fun l => keepsM_landOn w l va acc pol)
      · exact (keepsM_walkLeaf w va acc).bind (fun l => keepsM_landOn w l va acc pol)
    · exact (keepsM_walkLeaf w va acc).bind (fun l => keepsM_landOn w l va acc pol)

theorem keepsM_translateSpan (w : Who) (va n acc pol : Nat) : KeepsM (translateSpan w va n acc pol) := by
  unfold translateSpan
  split
  · exact (keepsM_translate _ _ _ _).bind (fun _ => KeepsM.pure _)
  · exact KeepsM.mapM (fun i => (keepsM_translate _ _ _ _).bind (fun _ => KeepsM.pure _)) _

theorem keepsM_loadBytes (bid : Nat) (e : Option Engine) (pa n : Nat) : KeepsM (loadBytes bid e pa n) := by
  unfold loadBytes
  refine KeepsM.get.bind (fun s => ?_)
  split
  · exact KeepsM.waitMore
  · split
    · exact KeepsM.fail _
    · exact KeepsM.pure _

theorem keepsM_loadVa (w : Who) (va n : Nat) : KeepsM (loadVa w va n) := by
  unfold loadVa
  exact (keepsM_translateSpan w va n accR 0).bind (fun ps => keepsM_curBid.bind (fun bid =>
    (KeepsM.mapM (fun p => keepsM_loadBytes _ _ _ _) ps).bind (fun _ => KeepsM.pure _)))

theorem keepsM_storeVa (w : Who) (va n v : Nat) : KeepsM (storeVa w va n v) := by
  unfold storeVa
  exact (keepsM_translateSpan w va n accW 0).bind (fun ps => keepsM_curBid.bind (fun bid =>
    KeepsM.modify (fun s => keeps_storeSpan s _ _ _ _)))

theorem keepsM_loadBlock (w : Who) (va n : Nat) : KeepsM (loadBlock w va n) := by
  unfold loadBlock
  exact (keepsM_translate w va accR 0).bind (fun p => keepsM_curBid.bind (fun _ => keepsM_loadBytes _ _ _ _))

theorem keepsM_loadLocal (bid : Nat) (e : Engine) : ∀ (n la : Nat), KeepsM (loadLocal bid e la n)
  | 0, _ => KeepsM.pure []
  | n + 1, la => (keepsM_loadBytes _ _ _ _).bind (fun _ => (keepsM_loadLocal bid e n (la + 1)).bind (fun _ => KeepsM.pure _))

theorem keepsM_setVer (hb : Nat) (p : BitVec 4) (v : HVer) : KeepsM (setVer hb p v) := KeepsM.modify (fun s => keeps_modBank s _ _)

theorem keepsM_rewalk (w : Who) (hb : Nat) (p : BitVec 4) (v : HVer) (va byte acc : Nat) : KeepsM (rewalk w hb p v va byte acc) := by
  unfold rewalk
  refine KeepsM.get_bind (fun s => ?_)
  split
  · exact Keeps.refl s
  · exact KeepsM.set_bind (keeps_tlbDrop s _ _) ((keepsM_setVer _ _ _).bind (fun _ => KeepsM.fail _))
  · exact KeepsM.set_bind (keeps_tlbRenew s _ _ _) ((keepsM_setVer _ _ _).bind (fun _ => KeepsM.pure _))

theorem keepsM_waitWalk (bid key ver va acc : Nat) : KeepsM (waitWalk bid key ver va acc : M α) := by
  unfold waitWalk
  exact (KeepsM.modify (fun s => keeps_modBank s _ _)).bind (fun _ => KeepsM.waitMore)

theorem keepsM_versionPage (bid key : Nat) (e : Option Engine) (w : Who) (hb : Nat) (p : BitVec 4) (v : HVer) (off len acc : Nat) :
    KeepsM (versionPage bid key e w hb p v off len acc) := by
  unfold versionPage
  dsimp only
  split
  · exact KeepsM.fail _
  · exact KeepsM.ite (keepsM_waitWalk _ _ _ _ _) (KeepsM.fail _)
  · exact KeepsM.pure _
  · exact KeepsM.ite (KeepsM.fail _) (keepsM_rewalk _ _ _ _ _ _ _)

theorem keepsM_landOnPage (w : Who) (p : BitVec 4) (v : HVer) (off len acc pol : Nat) :
    KeepsM (landOnPage w p v off len acc pol) := by
  have h : KeepsM (do
      match (← (get : M State)).land w v.leaf acc (v.leaf.pa + off) len with
      | .error (.access 9 _ _ _) => fail (.access 9 p.toNat acc v.id)
      | .error x => fail (x.atVa (v.leaf.va + off) acc v.id)
      | .ok s =>
        set s
        return ({ pa := v.leaf.pa + off, pol := max v.leaf.ceil pol, io := v.leaf.io, leaf := v.leaf } : Place)) := by
    refine KeepsM.get_bind (fun s => ?_)
    split
    · exact Keeps.refl s
    · exact Keeps.refl s
    · rename_i k
      exact KeepsM.set_bind (keeps_land k) (KeepsM.pure _)
  unfold landOnPage
  refine KeepsM.ite ?_ ?_ <;> dsimp only
  · refine (KeepsM.fail _).bind (fun _ => KeepsM.ite ?_ ?_)
    · exact (KeepsM.fail _).bind (fun _ => h)
    · exact h
  · refine KeepsM.ite ?_ ?_
    · exact (KeepsM.fail _).bind (fun _ => h)
    · exact h

/-- A use of a handle. -/
theorem keepsM_handlePlace (bid : Nat) (e : Option Engine) (p : BitVec 4) (id : Option Nat) (off len acc pol : Nat) :
    KeepsM (handlePlace bid e p id off len acc pol) := by
  unfold handlePlace
  refine KeepsM.get.bind (fun s => ?_)
  dsimp only
  refine (keepsM_versionPage _ _ _ _ _ _ _ _ _ _).bind (fun v => KeepsM.ite ?_ ?_)
  · refine (KeepsM.fail _).bind (fun _ => KeepsM.ite ?_ ?_)
    · exact (KeepsM.pure _).bind (fun v => keepsM_landOnPage _ _ _ _ _ _ _)
    · exact (keepsM_rewalk _ _ _ _ _ _ _).bind (fun v => keepsM_landOnPage _ _ _ _ _ _ _)
  · refine KeepsM.ite ?_ ?_
    · exact (KeepsM.pure _).bind (fun v => keepsM_landOnPage _ _ _ _ _ _ _)
    · exact (keepsM_rewalk _ _ _ _ _ _ _).bind (fun v => keepsM_landOnPage _ _ _ _ _ _ _)

end Sys2Proof.Machine
end

