-- ==== Sys2Proof/Laws/KeepsOps.lean ====
section
/-! SUPPORT. What the operations that meanings share keep: phases, rollback, poison, the end of nests, copy words and drains, traps
and page faults, and running the body of an instruction or a word. -/

namespace Sys2Proof.Machine

variable {α β : Type}

/-- An outcome whose next state keeps. -/
def KeepsNext (s : State) : Host.Outcome State Fault Refusal → Prop
  | .next t => Keeps s t
  | _ => True

theorem KeepsNext.next {s t : State} (h : Keeps s t) : KeepsNext s (.next t) := h
theorem KeepsNext.trans {s t : State} {o : Host.Outcome State Fault Refusal} (h : Keeps s t) (k : KeepsNext t o) : KeepsNext s o := by
  cases o
  · exact h.trans k
  all_goals trivial

/-! ### Phases -/

theorem keeps_applyHeld (s : State) (l : List Held) : Keeps s (s.applyHeld l) :=
  Keeps.mem rfl (fun h => wf_foldl (fun _ _ h => wf_set h _ _) l h) rfl

theorem keeps_commit (s : State) (bid : Nat) : Keeps s (s.commit bid) := by
  unfold State.commit
  have h : ∀ (t : State) (l : List Nat), Keeps t { t with poison := l } := fun _ _ => ⟨rfl, id⟩
  exact (keeps_applyHeld s _).trans ((h _ _).trans (keeps_setBank _ _ _))
theorem keeps_commitOpen (s : State) (bid : Nat) (pc : Word) : Keeps s (s.commitOpen bid pc) :=
  (keeps_commit s bid).trans (keeps_modBank _ _ _)
theorem keeps_commitOpenAll (s : State) (bid : Nat) : Keeps s (s.commitOpenAll bid) :=
  Keeps.foldl (fun s m => keeps_commitOpen s m _) _ s
theorem keeps_beginPhase (s : State) (bid : Nat) (pc : Word) : Keeps s (s.beginPhase bid pc) :=
  Keeps.foldl (fun s m => keeps_modBank s m _) _ s
theorem keeps_retires (s : State) (f : Bank → Bank) (pc : Word) : Keeps s (s.retires f pc) := keeps_modBank s _ _
theorem keeps_behind (s : State) : Keeps s s.behind := (keeps_beginPhase s _ _).trans (keeps_retires _ _ _)
theorem keeps_gcFaults (s : State) : Keeps s s.gcFaults := ⟨rfl, id⟩

theorem keeps_rollback (s : State) (bid : Nat) : Keeps s (s.rollback bid) := by
  unfold State.rollback
  dsimp only
  split
  · exact Keeps.refl s
  · exact Keeps.mem rfl (fun h => wf_foldl (fun _ _ h => wf_mend h _ _ _) _ h) rfl

theorem keeps_rasRise (s : State) (d : Nat) : Keeps s (s.rasRise d) := by
  unfold State.rasRise; split <;> exact ⟨rfl, id⟩

/-! ### The scheduler's lists, and the end of tasks and nests -/

theorem keeps_updateLevels (s : State) (d : Nat) : Keeps s (s.updateLevels d) := ⟨rfl, id⟩
theorem keeps_updateAll (s : State) : Keeps s s.updateAll := Keeps.foldl (fun s d => keeps_updateLevels s d) _ s
theorem keeps_addDeficit (s : State) (d l v : Nat) (x : Int) : Keeps s (s.addDeficit d l v x) := keeps_modDie s _ _

theorem keeps_settle (s : State) (bid : Nat) : Keeps s (s.settle bid) := by
  unfold State.settle
  split
  · exact keeps_addDeficit s _ _ _ _
  · exact Keeps.refl s

theorem keeps_switchAway (s : State) (bid : Nat) : Keeps s (s.switchAway bid) := by
  unfold State.switchAway
  exact Keeps.ite ((keeps_modBank s _ _).trans (keeps_modCore _ _ _)) (Keeps.refl s)

theorem keeps_switchAll (s : State) (bid : Nat) : Keeps s (s.switchAll bid) := Keeps.foldl (fun s m => keeps_switchAway s m) _ s

theorem keeps_discardBank (s : State) (bid : Nat) : Keeps s (s.discardBank bid) := by
  unfold State.discardBank
  dsimp only
  exact Keeps.trans (t := { s.setBank bid (s.bank bid).emptied with
    dirWaiters := s.dirWaiters.filter (·.bid ≠ bid) }) ⟨rfl, id⟩ (keeps_switchAway _ _)

/-- An access of a unit sets A and D, and changes nothing else. -/
theorem keeps_unitPlace {s t : State} {d vf asid va n acc : Nat} {p : Place} (h : s.unitPlace d vf asid va n acc = .ok (p, t)) :
    Keeps s t := by
  unfold State.unitPlace at h
  dsimp only at h
  repeat' split at h
  all_goals first | (cases h; done) | (rename_i k; cases h; exact keeps_land k)

/-- A store of a unit. -/
theorem keeps_unitStore (s : State) (d vf : Nat) (p : Place) (data : List Byte) : Keeps s (s.unitStore d vf p data) :=
  (keeps_dirtyLines s _ _ _ _ _).trans (keeps_storeOutside _ _ _ _)

theorem keeps_unitWrite (s : State) (d vf asid va : Nat) (data : List Byte) : Keeps s (s.unitWrite d vf asid va data) := by
  unfold State.unitWrite
  split
  · exact ⟨rfl, id⟩
  · exact Keeps.refl s
  · rename_i h
    exact (keeps_unitPlace h).trans (keeps_unitStore _ _ _ _ _)

/-- The writes of the units that waited are tried again. -/
theorem keeps_retryUnits (s : State) : Keeps s s.retryUnits := by
  unfold State.retryUnits
  have h : Keeps s { s with host := { s.host with unitWrites := [] } } := ⟨rfl, id⟩
  exact h.trans (Keeps.foldl (fun s w => keeps_unitWrite s _ _ _ _ _) _ _)

theorem keeps_writeWord15 (s : State) (n : Nest) (a c : Nat) : Keeps s (s.writeWord15 n a c) := keeps_unitWrite s _ _ _ _ _

theorem keeps_endNest1 (s : State) (id cause : Nat) : Keeps s (s.endNest1 id cause) := by
  unfold State.endNest1
  split
  · exact Keeps.refl s
  · rename_i n _
    dsimp only
    have h1 : Keeps s ((s.banks.filter (fun b => b.2.runs id)).foldl (fun s b => (s.settle b.1).discardBank b.1) s) :=
      Keeps.foldl (fun s b => (keeps_settle s _).trans (keeps_discardBank _ _)) _ s
    refine h1.trans ?_
    generalize (s.banks.filter (fun b => b.2.runs id)).foldl (fun s b => (s.settle b.1).discardBank b.1) s = u
    have h2 : Keeps u { u with saved := u.saved.filter (fun c => !c.2.state.runs id) } := ⟨rfl, fun h => h⟩
    refine h2.trans ?_
    generalize ({ u with saved := u.saved.filter (fun c => !c.2.state.runs id) } : State) = v
    refine (keeps_writeWord15 v n 3 cause).trans ?_
    generalize v.writeWord15 n 3 cause = w
    have h3 : Keeps w { w with nests := w.nests.filter (·.id ≠ id) } := ⟨rfl, fun h => h⟩
    exact h3.trans ((keeps_gcFaults _).trans (keeps_updateAll _))

theorem keeps_terminateAll_go : ∀ (fuel : Nat) (l : List (Nat × Nat)) (s : State), Keeps s (State.terminateAll.go fuel l s)
  | 0, _, s => by unfold State.terminateAll.go; exact Keeps.refl s
  | _ + 1, [], s => by unfold State.terminateAll.go; exact Keeps.refl s
  | fuel + 1, (id, cause) :: rest, s => by
    unfold State.terminateAll.go
    split
    · exact keeps_terminateAll_go fuel rest s
    · exact (keeps_endNest1 s id cause).trans (keeps_terminateAll_go fuel _ _)

/-- The end of nests and of their successors. -/
theorem keeps_terminateAll (s : State) (ids : List Nat) (cause : Nat) : Keeps s (s.terminateAll ids cause) :=
  keeps_terminateAll_go _ _ s
theorem keeps_terminate (s : State) (id cause : Nat) : Keeps s (s.terminate id cause) := keeps_terminateAll s _ _

theorem keeps_terminateOf (s : State) (bid cause : Nat) : Keeps s (s.terminateOf bid cause) := by
  unfold State.terminateOf
  split
  · exact keeps_terminate s _ _
  · exact Keeps.refl s

theorem keeps_recordFault (s : State) (bid agent code va acc ver : Nat) : Keeps s (s.recordFault bid agent code va acc ver).1 := by
  unfold State.recordFault
  dsimp only
  split
  · exact keeps_setDie s _ _
  · split
    · exact keeps_setDie s _ _
    · exact Keeps.refl s

/-- What `taskEnded` writes of a nest. -/
theorem keeps_endedWrites (u : State) (m : Nest) (id : Nat) (c d : Prop) [Decidable c] [Decidable d] :
    Keeps u (if c then { u.writeWord15 m 2 0 with nests := u.nests.filter (·.id ≠ id) }
      else if d then u.writeWord15 m 1 0 else u) := by
  refine Keeps.ite ?_ (Keeps.ite (keeps_writeWord15 _ _ _ _) (Keeps.refl _))
  refine (keeps_writeWord15 u m 2 0).trans ?_
  generalize u.writeWord15 m 2 0 = v
  exact ⟨rfl, fun h => h⟩

theorem keeps_taskEnded (s : State) (t : Task) : Keeps s (s.taskEnded t) := by
  unfold State.taskEnded
  split
  · exact Keeps.refl s
  · rename_i n _
    dsimp only
    exact (keeps_modNest s n.id _).trans ((keeps_endedWrites _ _ _ _ _).trans (keeps_updateAll _))

theorem keeps_fireRv (s : State) (bid : Nat) : Keeps s (s.fireRv bid) := ⟨rfl, id⟩
theorem keeps_fireAll (s : State) (ms : List Nat) : Keeps s (s.fireAll ms) := Keeps.foldl (fun s m => keeps_fireRv s m) ms s

/-- A bank consumes a poisoned value. -/
theorem keeps_consumePoison (s : State) (bid phase : Nat) (line : Option Nat) (bad : Bool) :
    Keeps s (s.consumePoison bid phase line bad) := by
  unfold State.consumePoison
  dsimp only
  refine (Keeps.ite ((keeps_modDie s _ _).trans (keeps_rasRise _ _)) (Keeps.refl s)).trans (Keeps.ite (keeps_terminateOf _ _ _) ?_)
  exact (Keeps.foldl (fun s m => (keeps_rollback s m).trans (keeps_modBank _ _ _)) _ _).trans (keeps_fireAll _ _)
theorem keeps_agentPoison (s : State) (bid : Nat) (e : Option Engine) (line : Option Nat) : Keeps s (s.agentPoison bid e line) :=
  keeps_consumePoison s _ _ _ _

/-! ### Copy words, drains, traps -/

theorem keepsM_readOp (bid : Nat) (vers : List Nat) (pol : Nat) (k : OpKind) (a : Word) (len : Nat) :
    KeepsM (readOp bid vers pol k a len) := by
  unfold readOp
  split
  · exact (keepsM_handlePlace _ _ _ _ _ _ _ _).bind (fun p => keepsM_loadBytes _ _ _ _)
  · exact keepsM_loadBytes _ _ _ _
  · exact keepsM_loadLocal _ _ _ _

theorem keepsM_writePlace (bid : Nat) (vers : List Nat) (pol : Nat) (k : OpKind) (a : Word) (len : Nat) :
    KeepsM (writePlace bid vers pol k a len) := by
  unfold writePlace
  split
  · exact (keepsM_handlePlace _ _ _ _ _ _ _ _).bind (fun p => KeepsM.pure _)
  · exact KeepsM.pure _
  · exact KeepsM.pure _

theorem keepsM_writeTo (bid : Nat) (p : Option Place) (a : Word) (d : List Byte) : KeepsM (writeTo bid p a d) := by
  refine KeepsM.modify (fun s => ?_)
  cases p
  · exact keeps_storeLocalBlock s _ _ _ _
  · exact keeps_storeAt s _ _ _ _

/-- The blocks of a group are written. -/
theorem keepsM_writeBlocks (bid : Nat) (dk : OpKind) (p : Option Place) (pd : Word) (q : Option Place) (sd : Word)
    (l : List (List Byte × List Byte)) : KeepsM (writeBlocks bid dk p pd q sd l) := by
  unfold writeBlocks
  refine KeepsM.ite ?_ ?_
  · exact (keepsM_writeTo _ _ _ _).bind (fun _ => keepsM_writeTo _ _ _ _)
  · exact (KeepsM.mapM (fun x => (keepsM_writeTo _ _ _ _).bind (fun _ => keepsM_writeTo _ _ _ _)) _).bind (fun _ => KeepsM.pure _)

theorem KeepsM.catch {x : M α} {f : Stop → M α} (hx : KeepsM x) (hf : ∀ e, KeepsM (f e)) : KeepsM (MonadExcept.tryCatch x f) := by
  intro s
  have h := hx s
  have k : (MonadExcept.tryCatch x f : M α).run s = match x.run s with | .ok a t => .ok a t | .error e t => (f e).run t := by
    show EStateM.tryCatch x f s = _
    unfold EStateM.tryCatch EStateM.run
    cases x s <;> rfl
  rw [k]
  cases hr : x.run s with
  | ok a t => rw [hr] at h; exact h
  | error e t => rw [hr] at h; exact Ends.trans h (hf e t)

/-- One request of a copy word. -/
theorem keepsM_runReq (bid : Nat) (f : Flight) (r : Req) : KeepsM (runReq bid f r) := by
  unfold runReq
  dsimp only
  split
  all_goals
    repeat' with_reducible first
      | exact keepsM_readOp _ _ _ _ _ _ | exact keepsM_writePlace _ _ _ _ _ _ | exact keepsM_writeTo _ _ _ _
      | exact keepsM_writeBlocks _ _ _ _ _ _ _ | exact KeepsM.endNest _ | exact KeepsM.pure _ | exact KeepsM.waitMore | exact KeepsM.get | exact KeepsM.fail _
      | exact keepsM_handlePlace _ _ _ _ _ _ _ _ | exact keepsM_loadBytes _ _ _ _
      | exact KeepsM.modify (fun s => keeps_modBank s _ _) | exact KeepsM.modify (fun s => keeps_modDie s _ _)
      | apply KeepsM.ite | apply KeepsM.mapM | apply KeepsM.bind | apply KeepsM.catch | intro _ | split

theorem keepsM_runReqs (bid : Nat) (f : Flight) : ∀ rs, KeepsM (runReqs bid f rs)
  | [] => KeepsM.pure _
  | r :: rs => KeepsM.get.bind (fun _ => (keepsM_runReq bid f r).bind (fun _ =>
      (KeepsM.modify (fun s => keeps_modBank s _ _)).bind (fun _ => keepsM_runReqs bid f rs)))

/-- The first of the issued copy words is performed. -/
theorem keepsM_finishHead (bid : Nat) : KeepsM (finishHead bid) := by
  unfold finishHead
  refine KeepsM.get.bind (fun s => ?_)
  split
  · exact KeepsM.waitMore
  · rename_i f fs _
    refine (keepsM_runReqs bid f f.reqs).bind (fun _ => KeepsM.get_bind (fun u => ?_))
    dsimp only
    split
    · exact Keeps.refl u
    · split
      · exact Keeps.refl u
      · exact keeps_setBank u _ _

/-- A copy word that is performed. -/
theorem keepsM_finishFlight (bid n : Nat) : KeepsM (finishFlight bid n) := by
  unfold finishFlight
  exact (KeepsM.modify (fun s => keeps_modBank s _ _)).bind (fun _ => (keepsM_finishHead bid).catch (fun e =>
    (KeepsM.modify (fun s => keeps_modBank s _ _)).bind (fun _ => KeepsM.fail e)))

theorem keeps_flightStop (s : State) (bid n : Nat) (x : Stop) : Keeps s (s.flightStop bid n x) := by
  unfold State.flightStop
  split
  · refine Keeps.ite ?_ (Keeps.ite (keeps_modBank s _ _) (keeps_terminateOf s _ _))
    dsimp only
    exact (keeps_recordFault s _ _ _ _ _ _).trans (keeps_modBank _ _ _)
  · exact keeps_terminateOf s _ _
  · exact keeps_consumePoison s _ _ _ _
  · exact Keeps.refl s

theorem keeps_drainFlights (bid : Nat) : ∀ (n : Nat) (tried : List Nat) (s : State), Keeps s (s.drainFlights bid tried n)
  | 0, _, s => Keeps.refl s
  | n + 1, tried, s => by
    unfold State.drainFlights
    split
    · exact Keeps.refl s
    · rename_i m _
      have h := keepsM_finishFlight bid m s
      split
      · rename_i t hr
        rw [hr] at h
        exact Keeps.trans h (keeps_drainFlights bid n _ _)
      · rename_i t hr
        rw [hr] at h
        exact Keeps.trans h (keeps_drainFlights bid n _ _)
      · rename_i e t _ hr
        rw [hr] at h
        exact Keeps.trans h ((keeps_flightStop t bid m e).trans (keeps_drainFlights bid n _ _))

theorem keepsM_loadHalves (bid la n : Nat) : KeepsM (loadHalves bid la n) :=
  (keepsM_loadLocal _ _ _ _).bind (fun _ => KeepsM.pure _)
theorem keepsM_loadWords32 (bid la n : Nat) : KeepsM (loadWords32 bid la n) :=
  (keepsM_loadLocal _ _ _ _).bind (fun _ => KeepsM.pure _)
theorem keepsM_loadBytes8 (bid la n : Nat) : KeepsM (loadBytes8 bid la n) :=
  (keepsM_loadLocal _ _ _ _).bind (fun _ => KeepsM.pure _)

theorem keepsM_loadBlocks (bid payload scales n band : Nat) : KeepsM (loadBlocks bid payload scales n band) := by
  unfold loadBlocks
  repeat' with_reducible first
    | exact keepsM_loadHalves _ _ _ | exact keepsM_loadWords32 _ _ _ | exact KeepsM.pure _ | exact KeepsM.endNest _
    | apply KeepsM.ite | apply KeepsM.bind | intro _

theorem keepsM_loadA (bid c slot plane m kk : Nat) : KeepsM (loadA bid c slot plane m kk) := by
  unfold loadA
  repeat' with_reducible first
    | exact keepsM_loadHalves _ _ _ | exact keepsM_loadBytes8 _ _ _ | exact keepsM_loadBlocks _ _ _ _ _ | exact KeepsM.pure _
    | apply KeepsM.mapM | apply KeepsM.ite | apply KeepsM.bind | intro _

theorem keepsM_loadB (bid c slot plane n kk : Nat) : KeepsM (loadB bid c slot plane n kk) := by
  unfold loadB
  repeat' with_reducible first
    | exact keepsM_loadHalves _ _ _ | exact keepsM_loadBytes8 _ _ _ | exact keepsM_loadBlocks _ _ _ _ _ | exact KeepsM.pure _
    | apply KeepsM.mapM | apply KeepsM.ite | apply KeepsM.bind | intro _

theorem keepsM_readTile (bid : Nat) (bank : Bool) (m n : Nat) : KeepsM (readTile bid bank m n) := by
  unfold readTile
  exact KeepsM.get.bind (fun _ => KeepsM.ite (KeepsM.fail _) (KeepsM.pure _))

/-- A body that only reads a view of the state leaves the state as it is. -/
theorem keepsM_viewing (f : State → State) (x : M α) : KeepsM (viewing f x) := by
  unfold viewing
  exact KeepsM.get.bind (fun _ => by split <;> first | exact KeepsM.pure _ | exact KeepsM.fail _)

theorem keepsM_slotPair (bid : Nat) (j : MulJob) (m n kk : Nat) : KeepsM (slotPair bid j m n kk) := by
  unfold slotPair
  dsimp only
  repeat' with_reducible first
    | exact keepsM_readTile _ _ _ _ | exact keepsM_viewing _ _ | exact KeepsM.pure _
    | exact KeepsM.get | exact KeepsM.waitMore | exact KeepsM.modify (fun s => keeps_modBank s _ _)
    | apply KeepsM.ite | apply KeepsM.bind | intro _

/-- The next slot pair of a multiply word. -/
theorem keepsM_nextPair (bid : Nat) : KeepsM (nextPair bid) := by
  unfold nextPair
  refine KeepsM.get.bind (fun s => ?_)
  split
  · split
    · exact (keepsM_slotPair _ _ _ _ _).bind (fun _ => (KeepsM.modify (fun s => keeps_modBank s _ _)).bind (fun _ => KeepsM.pure _))
    · exact KeepsM.waitMore
  · exact KeepsM.waitMore

theorem keepsM_nextPairs : ∀ ms, KeepsM (nextPairs ms)
  | [] => KeepsM.pure _
  | [m] => keepsM_nextPair m
  | m :: k :: ms => (keepsM_nextPair m).bind (fun _ => keepsM_nextPairs (k :: ms))

/-- A multiply of a drain that ends at word 8,191. -/
theorem keeps_overrunMul (s : State) (m : Nat) : Keeps s (s.overrunMul m) :=
  (keeps_modCore s _ _).trans ((keeps_modBank _ _ _).trans (keeps_modBank _ _ _))

theorem keeps_drainMul (ms : List Nat) : ∀ (k : Nat) (s : State), Keeps s (s.drainMul ms k)
  | 0, s => Keeps.refl s
  | k + 1, s => by
    unfold State.drainMul
    split
    · have h := keepsM_nextPairs ms s
      split
      · rename_i t hr
        rw [hr] at h
        exact Keeps.trans h (keeps_drainMul ms k _)
      · rename_i t hr
        rw [hr] at h
        refine Keeps.trans h (Keeps.foldl (fun s m => ?_) _ _)
        split
        · exact keeps_setBank s _ _
        · exact keeps_overrunMul s _
      · rename_i l t hr
        rw [hr] at h
        exact Keeps.trans h (keeps_agentPoison _ _ _ _)
      · rename_i c t hr
        rw [hr] at h
        exact Keeps.trans h (keeps_terminateOf _ _ _)
      · exact Keeps.refl s
    · exact Keeps.refl s

theorem keeps_retireMarker (s : State) (bid : Nat) (e : Engine) (n : BitVec 32) : Keeps s (s.retireMarker bid e n) :=
  (keeps_modBank s _ _).trans ((keeps_fireRv _ _).trans (keeps_fireRv _ _))
theorem keeps_retirePending (s : State) (bid : Nat) (e : Engine) : Keeps s (s.retirePending bid e) := by
  unfold State.retirePending
  split
  · exact Keeps.refl s
  · exact (keeps_retireMarker s bid e _).trans (Keeps.ite (keeps_modBank _ _ _) (keeps_modBank _ _ _))
theorem keeps_retireReady (s : State) (bid : Nat) : Keeps s (s.retireReady bid) :=
  Keeps.foldl (fun s e => Keeps.ite (keeps_retirePending s bid e) (Keeps.refl s)) _ s

theorem keeps_rewalkVer (s : State) (bid ver : Nat) (w : Who) : Keeps s (s.rewalkVer bid ver w) := by
  unfold State.rewalkVer
  dsimp only
  split
  · exact Keeps.refl s
  · split
    · exact (keeps_tlbRenew s _ _ _).trans (keeps_modBank _ _ _)
    · exact keeps_modBank s _ _
    · exact (keeps_tlbDrop s _ _).trans (keeps_modBank _ _ _)

theorem keeps_reissueFlight (s : State) (bid : Nat) (f : Flight) : Keeps s (s.reissueFlight bid f) := by
  unfold State.reissueFlight
  split
  · exact Keeps.refl s
  · exact (keeps_rewalkVer s _ _ _).trans ((keeps_modBank _ _ _).trans (keeps_gcFaults _))

theorem keeps_reissueDue (s : State) (bid : Nat) : Keeps s (s.reissueDue bid) :=
  Keeps.foldl (fun s f => Keeps.ite (keeps_reissueFlight s bid f) (Keeps.refl s)) _ s

theorem keeps_drainStep (s : State) (ms : List Nat) : Keeps s (s.drainStep ms) :=
  (Keeps.foldl (fun s m => keeps_reissueDue s m) ms s).trans ((Keeps.foldl (fun s m => keeps_drainFlights m _ _ s) ms _).trans
    ((keeps_drainMul ms _ _).trans ((Keeps.foldl (fun s m => keeps_retireReady s m) ms _).trans
      (Keeps.ite (Keeps.foldl (fun s m => keeps_commit s m) ms _) (Keeps.refl _)))))
theorem keeps_drain (ms : List Nat) : ∀ (k : Nat) (s : State), Keeps s (s.drain ms k)
  | 0, s => Keeps.refl s
  | k + 1, s => by
    unfold State.drain
    dsimp only
    exact (keeps_drainStep s ms).trans (Keeps.ite (Keeps.refl _)
      ((Keeps.foldl (fun s m => keeps_modBank s m _) ms _).trans (keeps_drain ms k _)))
theorem keeps_withdraw (s : State) (bid : Nat) : Keeps s (s.withdraw bid) := ⟨rfl, id⟩
theorem keeps_ckptAfter (s : State) (bid c : Nat) : Keeps s (s.ckptAfter bid c) :=
  Keeps.ite (Keeps.foldl (fun s m => keeps_modBank s m _) _ s) (Keeps.refl s)

theorem keeps_enterDue (s : State) (bid : Nat) : Keeps s (s.enterDue bid) := by
  unfold State.enterDue
  split
  · exact Keeps.refl s
  · exact (keeps_modBank s _ _).trans (keeps_ckptAfter _ _ _)

/-- What a drain was for. -/
theorem keeps_afterDrain (s : State) (bid : Nat) : Keeps s (s.afterDrain bid) := by
  unfold State.afterDrain
  dsimp only
  have h : Keeps s (((s.members bid).foldl (fun s m => s.modBank m Bank.clearWaits) s).modBank bid
      (fun b => { b with draining := .none })) :=
    (Keeps.foldl (fun s m => keeps_modBank s m Bank.clearWaits) _ s).trans (keeps_modBank _ bid _)
  split
  · exact h.trans (keeps_modBank _ _ _)
  · exact h.trans (keeps_enterDue _ _)
  · exact (h.trans (Keeps.foldl (fun s m => keeps_modBank s m Bank.unwait) _ _)).trans (keeps_switchAll _ _)
  · exact h.trans (keeps_terminateOf _ _ _)
  · exact h.trans (Keeps.ite (keeps_modBank _ _ _) (Keeps.refl _))
  all_goals exact h

theorem keeps_settleDrain (s : State) (bid : Nat) : Keeps s (s.settleDrain bid) := by
  unfold State.settleDrain
  dsimp only
  split
  · exact Keeps.refl s
  · exact Keeps.ite (keeps_afterDrain s bid) (Keeps.refl s)
  · exact (keeps_drain _ _ s).trans (Keeps.ite (keeps_afterDrain _ bid) (Keeps.refl _))

theorem keeps_beginDrain (s : State) (bid : Nat) (d : Drain) : Keeps s (s.beginDrain bid d) :=
  (keeps_modBank s _ _).trans (keeps_settleDrain _ _)

/-- Taking an exception, with its drain. -/
theorem keeps_takeTrap (s : State) (bid c t : Nat) : Keeps s (s.takeTrap bid c t) :=
  (keeps_withdraw s bid).trans (keeps_beginDrain _ _ _)

theorem keeps_giveWay (s : State) (bid : Nat) : Keeps s (s.giveWay bid) := by
  unfold State.giveWay
  exact Keeps.ite ((keeps_modBank _ _ _).trans ((keeps_gcFaults _).trans (keeps_beginDrain _ _ _))) (Keeps.ite (keeps_beginDrain _ _ _) (Keeps.refl s))

theorem keeps_pageFaultCore (s : State) (bid c va acc ver : Nat) : Keeps s (s.pageFaultCore bid c va acc ver) := by
  unfold State.pageFaultCore
  dsimp only
  exact (keeps_recordFault s _ _ _ _ _ _).trans ((keeps_modBank _ _ _).trans ((keeps_withdraw _ _).trans (keeps_giveWay _ _)))

theorem keeps_pageFaultWord (s : State) (bid : Nat) (e : Engine) (c va acc ver : Nat) :
    Keeps s (s.pageFaultWord bid e c va acc ver) := by
  unfold State.pageFaultWord
  dsimp only
  exact (keeps_recordFault s _ _ _ _ _ _).trans ((keeps_modBank _ _ _).trans (keeps_giveWay _ _))

/-- An engine fault that ends the nest. -/
theorem keeps_faultEnd (s : State) (bid : Nat) (e : Engine) (c : Nat) : Keeps s (s.faultEnd bid e c) := by
  unfold State.faultEnd
  exact Keeps.ite ((keeps_modCore s _ _).trans (keeps_beginDrain _ _ _)) (keeps_terminateOf s _ _)

/-! ### Running a body -/

theorem keeps_coreStop (s : State) (bid : Nat) (x : Stop) : KeepsNext s (s.coreStop bid x) := by
  unfold State.coreStop
  split
  · exact keeps_takeTrap s _ _ _
  · split
    · exact keeps_pageFaultCore s _ _ _ _ _
    · exact keeps_takeTrap s _ _ _
  · exact Keeps.refl s
  · exact keeps_terminateOf s _ _
  · exact keeps_agentPoison s _ _ _

theorem keeps_wordStop (s : State) (bid : Nat) (e : Engine) (x : Stop) : KeepsNext s (s.wordStop bid e x) := by
  unfold State.wordStop
  split
  · split
    · exact keeps_pageFaultWord s _ _ _ _ _ _
    · split
      · exact (keeps_modBank s _ _).trans (keeps_giveWay _ _)
      · exact keeps_faultEnd s _ _ _
  · exact Keeps.refl s
  · exact keeps_faultEnd s _ _ _
  · exact Keeps.refl s
  · exact keeps_agentPoison s _ _ _

theorem keeps_flow (s : State) (bid : Nat) (e : Engine) (f : Flow) : Keeps s (s.flow bid e f) := by
  unfold State.flow
  split
  · exact keeps_setBank s _ _
  · exact (keeps_modBank s _ _).trans (keeps_faultEnd _ _ _ _)

/-- A control-core instruction whose body keeps, keeps. -/
theorem keeps_runCc {body : M Unit} (h : KeepsM body) (s : State) : KeepsNext s (runCc body s) := by
  have k := h s
  unfold runCc
  split
  · rename_i hr; rw [hr] at k; exact Keeps.trans k (keeps_modBank _ _ _)
  · rename_i hr; rw [hr] at k; exact KeepsNext.trans k (keeps_coreStop _ _ _)

theorem keeps_runJump {body : M Word} (h : KeepsM body) (s : State) : KeepsNext s (runJump body s) := by
  have k := h s
  unfold runJump
  split
  · rename_i hr; rw [hr] at k; exact Keeps.trans k (keeps_modBank _ _ _)
  · rename_i hr; rw [hr] at k; exact KeepsNext.trans k (keeps_coreStop _ _ _)

/-- An engine word whose body keeps, keeps. -/
theorem keeps_runWord {body : Engine → M Flow} (h : ∀ e, KeepsM (body e)) (s : State) : KeepsNext s (runWord body s) := by
  unfold runWord
  split
  · exact Keeps.refl s
  · rename_i e _
    have k := h e s
    split
    · rename_i hr; rw [hr] at k; exact Keeps.trans k (keeps_flow _ _ _ _)
    · rename_i hr; rw [hr] at k; exact KeepsNext.trans k (keeps_wordStop _ _ _ _)

/-- An irrevocable form issues. -/
theorem keepsM_issueIrrevocable : KeepsM issueIrrevocable := by
  unfold issueIrrevocable
  have h : ∀ (s : State) (bid : Nat), Keeps s ((s.commitOpenAll bid).modBank bid (fun b => { b with issued := true })) :=
    fun s bid => (keeps_commitOpenAll s bid).trans (keeps_modBank _ _ _)
  refine KeepsM.get.bind (fun s => ?_)
  dsimp only
  refine KeepsM.ite (KeepsM.waitMore.bind (fun _ => KeepsM.ite ?_ (KeepsM.pure _))) (KeepsM.ite ?_ (KeepsM.pure _)) <;>
    exact KeepsM.modify (fun s => h s _)

theorem keepsM_irrevocableTo {checks : M α} {effect : α → M Word} (hc : KeepsM checks) (he : ∀ x, KeepsM (effect x)) :
    KeepsM (irrevocableTo checks effect) := by
  unfold irrevocableTo
  exact keepsM_issueIrrevocable.bind (fun _ => hc.bind (fun x => (he x).bind (fun pc => keepsM_curBid.bind (fun _ =>
    (KeepsM.modify (fun s => keeps_beginPhase s _ _)).bind (fun _ => KeepsM.pure _)))))

theorem keepsM_irrevocable {checks : M α} {effect : α → M Unit} (hc : KeepsM checks) (he : ∀ x, KeepsM (effect x)) :
    KeepsM (irrevocable checks effect) := by
  unfold irrevocable
  exact (keepsM_irrevocableTo hc (fun x => (he x).bind (fun _ => keepsM_nextPc))).bind (fun _ => KeepsM.pure _)

end Sys2Proof.Machine
end

