-- ==== Sys2Proof/Laws/Drain.lean ====
section
/-! SUPPORT. What a drain does where nothing is left for it: it is over at once, and what it was for follows (R179). -/

namespace Sys2Proof.Machine

theorem Alike.refl (s : State) : Alike s s := ⟨fun _ => rfl, rfl⟩
theorem Alike.trans {s t u : State} (h : Alike s t) (k : Alike t u) : Alike s u :=
  ⟨fun m => (k.1 m).trans (h.1 m), by rw [k.2, h.2]⟩

theorem foldl_fixed {α β : Type} {f : β → α → β} {l : List α} {b : β} (h : ∀ x ∈ l, f b x = b) : l.foldl f b = b := by
  induction l with
  | nil => rfl
  | cons x l ih => rw [List.foldl_cons, h x (List.mem_cons_self ..), ih (fun y hy => h y (List.mem_cons_of_mem _ hy))]

/-- A change of a bank that is no change leaves a state that reads alike. -/
theorem alike_modBank {s : State} {m : Nat} {f : Bank → Bank} (h : f (s.bank m) = s.bank m) : Alike s (s.modBank m f) := by
  refine ⟨fun k => ?_, rfl⟩
  unfold State.modBank State.setBank State.bank
  rw [PMap.get_put]
  split
  · rename_i hk; subst hk; exact h
  · rfl

theorem alike_foldl_modBank {f : Bank → Bank} : ∀ (ms : List Nat) (s : State), (∀ m ∈ ms, f (s.bank m) = s.bank m) →
    Alike s (ms.foldl (fun s m => s.modBank m f) s)
  | [], s, _ => Alike.refl s
  | m :: ms, s, h => by
    have k := alike_modBank (h m (List.mem_cons_self ..))
    refine k.trans (alike_foldl_modBank ms _ (fun x hx => ?_))
    rw [k.1]; exact h x (List.mem_cons_of_mem _ hx)

theorem setEngine_self (b : Bank) (e : Engine) : b.setEngine e (b.engine e) = b := by
  unfold Bank.setEngine Bank.engine
  rw [show b.eng.set (engIx e) b.eng[engIx e] = b.eng from Vector.set_getElem_self _]

@[simp] theorem Bank.clearWaits_core (b : Bank) : b.clearWaits.core = b.core := rfl
@[simp] theorem Bank.clearWaits_task (b : Bank) : b.clearWaits.task = b.task := rfl
@[simp] theorem Bank.clearWaits_flights (b : Bank) : b.clearWaits.flights = b.flights := rfl
@[simp] theorem Bank.clearWaits_draining (b : Bank) : b.clearWaits.draining = b.draining := rfl

theorem clearWaits_self {b : Bank} (h : ∀ e, (b.engine e).waited = false) : b.clearWaits = b := by
  unfold Bank.clearWaits Bank.modEngines
  refine foldl_fixed (fun e _ => ?_)
  have hw : ({ b.engine e with waited := false } : Eng) = b.engine e := by rw [← h e]
  exact (congrArg (b.setEngine e) hw).trans (setEngine_self b e)

theorem drainStep_quiet {s : State} {ms : List Nat} {out : Option Engine} (h : s.quietAll ms out) : s.drainStep ms = s := by
  obtain ⟨hc, ⟨m, hm, hp⟩, hq⟩ := h
  have h0 : ms.foldl (fun s m => s.reissueDue m) s = s :=
    foldl_fixed (fun m hm => by unfold State.reissueDue; rw [(hq m hm).1]; rfl)
  have h1 : ms.foldl (fun s m => s.drainFlights m [] (s.bank m).flights.length) s = s :=
    foldl_fixed (fun m hm => by rw [(hq m hm).1]; rfl)
  have h2 : s.drainMul ms maxPairs = s := by
    have hall : ms.all (fun m => (s.bank m).hasPair) = false := by
      rw [List.all_eq_false]; exact ⟨m, hm, by simp [hp]⟩
    unfold maxPairs State.drainMul
    rw [hall]; rfl
  have h3 : ms.foldl (fun s m => s.retireReady m) s = s := by
    refine foldl_fixed (fun m hm => ?_)
    unfold State.retireReady
    refine foldl_fixed (fun e he => ?_)
    have hr : (s.bank m).markerReady e = false := by
      simp [Bank.markerReady, ((hq m hm).2.2 e he).1]
    rw [hr]; rfl
  unfold State.drainStep
  dsimp only
  rw [h0, h1, h2, h3, hc]
  rfl

theorem drain_quiet {s : State} {ms : List Nat} {out : Option Engine} (h : s.quietAll ms out) : s.drain ms drainRounds = s := by
  unfold drainRounds State.drain
  dsimp only
  rw [drainStep_quiet h]
  simp

theorem drained_quiet {s : State} {ms : List Nat} {out : Option Engine} (h : s.quietAll ms out) : s.drained ms out = true := by
  unfold State.drained
  rw [drainStep_quiet h, List.all_eq_true]
  intro m hm
  obtain ⟨hf, hu, he⟩ := h.2.2 m hm
  have he' : ∀ e ∈ allEngines, (out = some e || s.engineStill m e) = true := by
    intro e hm
    obtain ⟨hp, _, hd⟩ := he e hm
    unfold State.engineStill
    dsimp only
    rw [hp]
    rcases hd with hd | hd | hd <;> simp [hd]
  have hu' : (s.bank m).uses.all (·.1 = 0) = true := by
    rw [List.all_eq_true]; intro u hu1; simpa using hu u hu1
  have hall : allEngines.all (fun e => out = some e || s.engineStill m e) = true := by
    rw [List.all_eq_true]; exact he'
  simp only [State.still, hf, hu', List.all_nil, hall, Bool.and_self, decide_true]

/-- A bank at rest that begins to drain for a trap, a switch or the end of its nest has drained at once. -/
theorem beginDrain_atRest {s : State} {bid : Nat} {out : Option Engine} (h : s.atRest bid out) {d : Drain} (hd : d ≠ .none) (hf : d ≠ .fault)
    (ho : out = match d with | .ends e _ => some e | _ => none) :
    s.beginDrain bid d = (s.modBank bid (fun b => { b with draining := d })).afterDrain bid := by
  obtain ⟨hb, _, hc, ⟨k, hk, hp⟩, hq⟩ := h
  unfold State.beginDrain
  dsimp only
  rw [hb]
  generalize hu : s.modBank bid (fun b => { b with draining := d }) = u
  have hbank : ∀ m, u.bank m = { s.bank m with draining := (u.bank m).draining } := by
    intro m
    rw [← hu, State.bank_modBank]
    split
    · rename_i hm; subst hm; rfl
    · rfl
  have hms : u.members bid = s.members bid := by
    unfold State.members
    rw [hbank bid]
  have hdr : (u.bank bid).draining = d := by rw [← hu, State.bank_modBank]; simp
  have hu' : u.quietAll (u.members bid) out := by
    rw [hms]
    refine ⟨?_, ⟨k, hk, by rw [hbank k]; exact hp⟩, fun m hm => ?_⟩
    · rw [← hc]
      unfold State.canCommit
      congr 1
      funext m
      rw [hbank m]
      rfl
    · have hw : ∀ e, u.wordStuck m e = s.wordStuck m e := by
        intro e
        unfold State.wordStuck
        rw [hbank m, ← hu]
        rfl
      obtain ⟨q1, q2, q3⟩ := hq m hm
      rw [hbank m]
      exact ⟨q1, q2, fun e he => by rw [hw]; exact q3 e he⟩
  unfold State.settleDrain
  dsimp only
  rw [hdr]
  cases d with
  | none => exact absurd rfl hd
  | fault => exact absurd rfl hf
  | _ =>
    subst ho
    dsimp only
    rw [drain_quiet hu', drained_quiet hu']
    simp

end Sys2Proof.Machine
end

