-- ==== Sys2Proof/Tests/Slice0.lean ====
section
/-! SUPPORT. Tests: ill-formed instructions, the words of the spec's encodings, and small steps. Expected values come from the
spec's tables and examples, or by hand from its rules. -/

namespace Sys2Proof.Tests

open Sys2Proof Sys2Proof.Machine

/-- A 32-bit word decodes to the instruction. -/
def scalar (w : Word32) (i : Instr) : Bool := match decodeScalar (bytes32 w) with | .ok r => r == (i, 4) | .error _ => false

/-- A compressed word decodes to the instruction. -/
def scalar16 (h : Half) (i : Instr) : Bool :=
  match decodeScalar [h.extractLsb' 0 8, h.extractLsb' 8 8] with | .ok r => r == (i, 2) | .error _ => false

/-- A word decodes to the instruction in an engine. -/
def word (e : Engine) (w : Half) (i : Instr) : Bool := match decodeWord e w with | .ok j => j == i | .error _ => false

/-! ### Ill-formed instructions, one for each check of WellFormed -/

theorem test_ill_formed_scalars : [
    Instr.ldh 0#5 0#4 0#5 5#3, .sdh 0#5 0#4 0#5 7#3, .qpush 2#3 0#5, .qpush 7#3 0#5, .qpop 0#5 3#3, .qpeek 0#5 6#3, .rdvs 0#3 0#4 0#5,
    .pbar 3#3, .fenceS 6#3, .fence 8#4 3#4 3#4 0#5 0#5, .intShift .slliw 0#5 0#5 32#6, .intShift .roriw 0#5 0#5 63#6].all
    (fun i => !i.wellFormed) = true := by decide

theorem test_ill_formed_common_words : [
    (Engine.mx, Instr.rotD), (.cx, .loop 3#2), (.cx, .endl 3#2), (.cx, .lset 3#2 0#2), (.cx, .lget 0#2 3#2), (.vx, .tokw .vx), (.sx, .tokr .sx),
    (.mx, .fsel 0#4), (.vx, .fsel 8#4), (.vx, .qin 2#3), (.mx, .qin 1#3), (.cx, .qout 5#3), (.sx, .qout 4#3)].all
    (fun p => !p.2.wordOk p.1) = true := by decide

theorem test_ill_formed_copy_and_select_words : [
    Instr.cpy 0#3 3#2 0#2 0#2, .cpy 0#3 1#2 1#2 1#2, .cpy 1#3 1#2 2#2 0#2, .cpy 5#3 0#2 0#2 0#2, .cpy2 2#3 1#2 3#2 0#2, .cpyz 0#3 2#2,
    .gath 0#3 0#2 0#2 0#2, .gath 0#3 0#2 2#2 0#2, .scat 0#3 0#2 0#2, .scat 0#3 1#2 1#2, .pfch 0#3 1#2, .cpyg 0#3 2#2 0#2, .cpyg 0#3 0#2 1#2,
    .cpyd 0#3 0#2 1#2, .cpyd 0#3 3#2 0#2, .fill 0#3 3#2, .fill 1#3 1#2, .rfeed 0#3 3#2 0#2, .rfeed 1#3 1#2 0#2,
    .skey 2#4, .hist 0#2 5#4, .selk 7#4, .selp 3#4, .cmpk 15#4].all (fun i => !i.wellFormed) = true := by decide

theorem test_ill_formed_vector_and_matrix_words : [
    Instr.vadd 0#3 false 3#2, .vstub 0#3 true 3#2, .vcvt 0#3 false 3#2 0#3, .vcmp 0#3 false 0#2 7#3, .vred 0#3 false 0#2 3#3,
    .vscan 0#3 false 0#2 7#3, .vshr 0#3 false 0#2 2#3, .pgs 0#3, .acco false 7#4].all (fun i => !i.wellFormed) = true := by decide

/-- A word of one engine is no word of another, and a step of the device is no word. -/
theorem test_ill_formed_elsewhere : Instr.dln.wordOk .vx = false ∧ (Instr.vadd 0#3 false 0#2).wordOk .mx = false
    ∧ (Instr.selk 0#4).wordOk .cx = false ∧ Instr.mpb.wordOk .sx = false ∧ Instr.mediaWrite.scalarOk = false
    ∧ (Instr.kget 0#4).wordOk .mx = false ∧ Instr.quiesce.isEvent = true ∧ Instr.lix.isEvent = false := by decide

/-- Handle forms, from the tables of R221. -/
theorem test_decode_handle_forms : [
    scalar 0b00000000000010101000010010001011#32 (.xlat 21#5 9#4),
    scalar 0b00000010000001010000001100001011#32 (.xlatW 10#5 6#4),
    scalar 0b00000100000000000000011010001011#32 (.hinv 13#4),
    scalar 0b00000110000001011000100100001011#32 (.hstat 18#5 11#4),
    scalar 0b00001000110010011011001010001011#32 (.ldh 5#5 12#4 19#5 4#3),
    scalar 0b00000101101001001100000110001011#32 (.sdh 26#5 3#4 9#5 2#3)].all id = true := by decide

/-- Queue, time, engine and rendezvous forms, from the tables of R221. -/
theorem test_decode_queue_forms : [
    scalar 0b00000000000010001001001100001011#32 (.qpush 6#3 17#5),
    scalar 0b00000010000000100001101100001011#32 (.qpop 22#5 4#3),
    scalar 0b00000100000000111001000110001011#32 (.qpeek 3#5 7#3),
    scalar 0b00000110000000101001011000001011#32 (.qlvl 12#5 5#3),
    scalar 0b00001000000011110001000100001011#32 (.qwm .cx 30#5),
    scalar 0b00000000000001110010000000001011#32 (.waitt 14#5),
    scalar 0b00000010000011001010001110001011#32 (.prm 7#5 25#5),
    scalar 0b10000000000100101000000000101011#32 (.ecall .vx 6145#13),
    scalar 0b00000000000010100001010110101011#32 (.epush .sx 20#5 2#2),
    scalar 0b00000010000001011001000100101011#32 (.emark .cx 11#5),
    scalar 0b00000100100100110001001010101011#32 (.rdvs 5#3 9#4 6#5),
    scalar 0b00000110000000000001001100101011#32 (.rdvw 6#3)].all id = true := by decide

/-- Task, gang, phase and directory forms, from the tables of R221. -/
theorem test_decode_task_forms : [
    scalar 0b10100000101100000010000000101011#32 (.safept 2571#12),
    scalar 0b00000000000010010011011010101011#32 (.nsub 13#5 18#5),
    scalar 0b00000010000000000011000000101011#32 (.tdone),
    scalar 0b00000100000011011011000000101011#32 (.gang 27#5),
    scalar 0b00000110000000000011000000101011#32 (.ungang),
    scalar 0b00001001110101000011000000101011#32 (.csyncSet 8#5 29#5),
    scalar 0b00001010000001111011000000101011#32 (.csyncW 15#5),
    scalar 0b00001100000000000011000000101011#32 (.phsw),
    scalar 0b00000000000010001000001101011011#32 (.dopen 6#5 17#5),
    scalar 0b00000011110000100000100111011011#32 (.dopenW 19#5 4#5 28#5),
    scalar 0b00000100000010111000000001011011#32 (.dclose 23#5),
    scalar 0b00000110101110000000000011011011#32 (.dbind 1#5 16#5 11#5),
    scalar 0b00001000000011000000010011011011#32 (.dunbind 9#5 24#5),
    scalar 0b00001010000000101000101001011011#32 (.dbset 20#5 5#5),
    scalar 0b00001100000000010000111111011011#32 (.dqry 31#5 2#5)].all id = true := by decide

/-- Persist, fence, context, fault-queue and energy forms, from the tables of R221. -/
theorem test_decode_order_forms : [
    scalar 0b00000000001000000001000001011011#32 (.pbar 2#3),
    scalar 0b00000010000011010001000001011011#32 (.pwb 26#5),
    scalar 0b00000100010100000001000001011011#32 (.fenceS 5#3),
    scalar 0b00000000000010101000010101111011#32 (.vcfp 10#5 21#5),
    scalar 0b00000010000001100000000001111011#32 (.vcrep 12#5),
    scalar 0b00000100000000011000000001111011#32 (.vcsync 3#5),
    scalar 0b00001000000001001000011101111011#32 (.fqpop 14#5 9#5),
    scalar 0b00001010011010001000000001111011#32 (.fqrep 17#5 6#5),
    scalar 0b00010000000001101000101101111011#32 (.ergr 22#5 13#5)].all id = true := by decide

/-- Register operations of RV64I, M, Zba, Zbb and Zicond, from the RISC-V opcode tables (R225). -/
theorem test_decode_register_operations : [
    scalar 0b00000001010101010000110100110011#32 (.intRR .add 26#5 10#5 21#5),
    scalar 0b01000001010101010000110100110011#32 (.intRR .sub 26#5 10#5 21#5),
    scalar 0b00000001010101010001110100110011#32 (.intRR .sll 26#5 10#5 21#5),
    scalar 0b00000001010101010010110100110011#32 (.intRR .slt 26#5 10#5 21#5),
    scalar 0b00000001010101010011110100110011#32 (.intRR .sltu 26#5 10#5 21#5),
    scalar 0b00000001010101010100110100110011#32 (.intRR .xor 26#5 10#5 21#5),
    scalar 0b00000001010101010101110100110011#32 (.intRR .srl 26#5 10#5 21#5),
    scalar 0b01000001010101010101110100110011#32 (.intRR .sra 26#5 10#5 21#5),
    scalar 0b00000001010101010110110100110011#32 (.intRR .or 26#5 10#5 21#5),
    scalar 0b00000001010101010111110100110011#32 (.intRR .and 26#5 10#5 21#5),
    scalar 0b00000011010101010000110100110011#32 (.intRR .mul 26#5 10#5 21#5),
    scalar 0b00000011010101010001110100110011#32 (.intRR .mulh 26#5 10#5 21#5),
    scalar 0b00000011010101010010110100110011#32 (.intRR .mulhsu 26#5 10#5 21#5),
    scalar 0b00000011010101010011110100110011#32 (.intRR .mulhu 26#5 10#5 21#5),
    scalar 0b00000011010101010100110100110011#32 (.intRR .div 26#5 10#5 21#5),
    scalar 0b00000011010101010101110100110011#32 (.intRR .divu 26#5 10#5 21#5),
    scalar 0b00000011010101010110110100110011#32 (.intRR .rem 26#5 10#5 21#5),
    scalar 0b00000011010101010111110100110011#32 (.intRR .remu 26#5 10#5 21#5),
    scalar 0b00100001010101010010110100110011#32 (.intRR .sh1add 26#5 10#5 21#5),
    scalar 0b00100001010101010100110100110011#32 (.intRR .sh2add 26#5 10#5 21#5),
    scalar 0b00100001010101010110110100110011#32 (.intRR .sh3add 26#5 10#5 21#5),
    scalar 0b01000001010101010111110100110011#32 (.intRR .andn 26#5 10#5 21#5),
    scalar 0b01000001010101010110110100110011#32 (.intRR .orn 26#5 10#5 21#5),
    scalar 0b01000001010101010100110100110011#32 (.intRR .xnor 26#5 10#5 21#5),
    scalar 0b00001011010101010110110100110011#32 (.intRR .max 26#5 10#5 21#5),
    scalar 0b00001011010101010111110100110011#32 (.intRR .maxu 26#5 10#5 21#5),
    scalar 0b00001011010101010100110100110011#32 (.intRR .min 26#5 10#5 21#5),
    scalar 0b00001011010101010101110100110011#32 (.intRR .minu 26#5 10#5 21#5),
    scalar 0b01100001010101010001110100110011#32 (.intRR .rol 26#5 10#5 21#5),
    scalar 0b01100001010101010101110100110011#32 (.intRR .ror 26#5 10#5 21#5),
    scalar 0b00001111010101010101110100110011#32 (.intRR .czeroEqz 26#5 10#5 21#5),
    scalar 0b00001111010101010111110100110011#32 (.intRR .czeroNez 26#5 10#5 21#5),
    scalar 0b00000001010101010000110100111011#32 (.intRR .addw 26#5 10#5 21#5),
    scalar 0b01000001010101010000110100111011#32 (.intRR .subw 26#5 10#5 21#5),
    scalar 0b00000001010101010001110100111011#32 (.intRR .sllw 26#5 10#5 21#5),
    scalar 0b00000001010101010101110100111011#32 (.intRR .srlw 26#5 10#5 21#5),
    scalar 0b01000001010101010101110100111011#32 (.intRR .sraw 26#5 10#5 21#5),
    scalar 0b00000011010101010000110100111011#32 (.intRR .mulw 26#5 10#5 21#5),
    scalar 0b00000011010101010100110100111011#32 (.intRR .divw 26#5 10#5 21#5),
    scalar 0b00000011010101010101110100111011#32 (.intRR .divuw 26#5 10#5 21#5),
    scalar 0b00000011010101010110110100111011#32 (.intRR .remw 26#5 10#5 21#5),
    scalar 0b00000011010101010111110100111011#32 (.intRR .remuw 26#5 10#5 21#5),
    scalar 0b00001001010101010000110100111011#32 (.intRR .addUw 26#5 10#5 21#5),
    scalar 0b00100001010101010010110100111011#32 (.intRR .sh1addUw 26#5 10#5 21#5),
    scalar 0b00100001010101010100110100111011#32 (.intRR .sh2addUw 26#5 10#5 21#5),
    scalar 0b00100001010101010110110100111011#32 (.intRR .sh3addUw 26#5 10#5 21#5),
    scalar 0b01100001010101010001110100111011#32 (.intRR .rolw 26#5 10#5 21#5),
    scalar 0b01100001010101010101110100111011#32 (.intRR .rorw 26#5 10#5 21#5)].all id = true := by decide

/-- Immediate, shift and one-operand forms, from the RISC-V opcode tables (R225). -/
theorem test_decode_immediate_operations : [
    scalar 0b10100101110001001000101100010011#32 (.intRI .addi 22#5 9#5 0xA5C#12),
    scalar 0b10100101110001001010101100010011#32 (.intRI .slti 22#5 9#5 0xA5C#12),
    scalar 0b10100101110001001011101100010011#32 (.intRI .sltiu 22#5 9#5 0xA5C#12),
    scalar 0b10100101110001001100101100010011#32 (.intRI .xori 22#5 9#5 0xA5C#12),
    scalar 0b10100101110001001110101100010011#32 (.intRI .ori 22#5 9#5 0xA5C#12),
    scalar 0b10100101110001001111101100010011#32 (.intRI .andi 22#5 9#5 0xA5C#12),
    scalar 0b10100101110001001000101100011011#32 (.intRI .addiw 22#5 9#5 0xA5C#12),
    scalar 0b00000010100101001001101100010011#32 (.intShift .slli 22#5 9#5 41#6),
    scalar 0b00000010100101001101101100010011#32 (.intShift .srli 22#5 9#5 41#6),
    scalar 0b01000010100101001101101100010011#32 (.intShift .srai 22#5 9#5 41#6),
    scalar 0b01100010100101001101101100010011#32 (.intShift .rori 22#5 9#5 41#6),
    scalar 0b00001010100101001001101100011011#32 (.intShift .slliUw 22#5 9#5 41#6),
    scalar 0b00000001001101001001101100011011#32 (.intShift .slliw 22#5 9#5 19#6),
    scalar 0b00000001001101001101101100011011#32 (.intShift .srliw 22#5 9#5 19#6),
    scalar 0b01000001001101001101101100011011#32 (.intShift .sraiw 22#5 9#5 19#6),
    scalar 0b01100001001101001101101100011011#32 (.intShift .roriw 22#5 9#5 19#6),
    scalar 0b01100000000001001001101100010011#32 (.intUnary .clz 22#5 9#5),
    scalar 0b01100000000101001001101100010011#32 (.intUnary .ctz 22#5 9#5),
    scalar 0b01100000001001001001101100010011#32 (.intUnary .cpop 22#5 9#5),
    scalar 0b01100000010001001001101100010011#32 (.intUnary .sextB 22#5 9#5),
    scalar 0b01100000010101001001101100010011#32 (.intUnary .sextH 22#5 9#5),
    scalar 0b01100000000001001001101100011011#32 (.intUnary .clzw 22#5 9#5),
    scalar 0b01100000000101001001101100011011#32 (.intUnary .ctzw 22#5 9#5),
    scalar 0b01100000001001001001101100011011#32 (.intUnary .cpopw 22#5 9#5),
    scalar 0b00001000000001001100101100111011#32 (.intUnary .zextH 22#5 9#5),
    scalar 0b00101000011101001101101100010011#32 (.intUnary .orcB 22#5 9#5),
    scalar 0b01101011100001001101101100010011#32 (.intUnary .rev8 22#5 9#5)].all id = true := by decide

/-- Loads, stores and atomics, from the RISC-V opcode tables (R225). -/
theorem test_decode_memory_forms : [
    scalar 0b10000001010101001000101100000011#32 (.load .lb 22#5 9#5 0x815#12),
    scalar 0b10000001010101001001101100000011#32 (.load .lh 22#5 9#5 0x815#12),
    scalar 0b10000001010101001010101100000011#32 (.load .lw 22#5 9#5 0x815#12),
    scalar 0b10000001010101001011101100000011#32 (.load .ld 22#5 9#5 0x815#12),
    scalar 0b10000001010101001100101100000011#32 (.load .lbu 22#5 9#5 0x815#12),
    scalar 0b10000001010101001101101100000011#32 (.load .lhu 22#5 9#5 0x815#12),
    scalar 0b10000001010101001110101100000011#32 (.load .lwu 22#5 9#5 0x815#12),
    scalar 0b10000000011101001000101010100011#32 (.store .sb 7#5 9#5 0x815#12),
    scalar 0b10000000011101001001101010100011#32 (.store .sh 7#5 9#5 0x815#12),
    scalar 0b10000000011101001010101010100011#32 (.store .sw 7#5 9#5 0x815#12),
    scalar 0b10000000011101001011101010100011#32 (.store .sd 7#5 9#5 0x815#12),
    scalar 0b00001100011101001011101100101111#32 (.amo .swap true true false 22#5 9#5 7#5),
    scalar 0b00000100011101001011101100101111#32 (.amo .add true true false 22#5 9#5 7#5),
    scalar 0b00100100011101001011101100101111#32 (.amo .xor true true false 22#5 9#5 7#5),
    scalar 0b01100100011101001011101100101111#32 (.amo .and true true false 22#5 9#5 7#5),
    scalar 0b01000100011101001011101100101111#32 (.amo .or true true false 22#5 9#5 7#5),
    scalar 0b10000100011101001011101100101111#32 (.amo .min true true false 22#5 9#5 7#5),
    scalar 0b10100100011101001011101100101111#32 (.amo .max true true false 22#5 9#5 7#5),
    scalar 0b11000100011101001011101100101111#32 (.amo .minu true true false 22#5 9#5 7#5),
    scalar 0b11100100011101001011101100101111#32 (.amo .maxu true true false 22#5 9#5 7#5),
    scalar 0b00010010000001001010101100101111#32 (.lr false false true 22#5 9#5),
    scalar 0b00011110011101001011101100101111#32 (.sc true true true 22#5 9#5 7#5)].all id = true := by decide

/-- CSR, system, fence, upper-immediate, jump and branch forms, from the RISC-V opcode tables (R225, R226). -/
theorem test_decode_system_and_jumps : [
    scalar 0b01011010010101001001101101110011#32 (.csrAccess .rw false 0x5A5#12 22#5 9#5),
    scalar 0b01011010010101001010101101110011#32 (.csrAccess .rs false 0x5A5#12 22#5 9#5),
    scalar 0b01011010010101001011101101110011#32 (.csrAccess .rc false 0x5A5#12 22#5 9#5),
    scalar 0b01011010010101001101101101110011#32 (.csrAccess .rw true 0x5A5#12 22#5 9#5),
    scalar 0b01011010010101001110101101110011#32 (.csrAccess .rs true 0x5A5#12 22#5 9#5),
    scalar 0b01011010010101001111101101110011#32 (.csrAccess .rc true 0x5A5#12 22#5 9#5),
    scalar 0b00000000000000000000000001110011#32 (.standardEcall),
    scalar 0b00000000000100000000000001110011#32 (.ebreak),
    scalar 0b00010000001000000000000001110011#32 (.sret),
    scalar 0b00010000010100000000000001110011#32 (.wfi),
    scalar 0b00010010011101001000000001110011#32 (.sfenceVma 9#5 7#5),
    scalar 0b00001111001101001000101100001111#32 (.fence 0#4 15#4 3#4 9#5 22#5),
    scalar 0b10000011001100000000000000001111#32 (.fenceTso 0#5 0#5),
    scalar 0b00000000011101001001101100001111#32 (.fenceI 7#12 9#5 22#5),
    scalar 0b10100101110000111011101100110111#32 (.lui 22#5 0xA5C3B#20),
    scalar 0b10100101110000111011101100010111#32 (.auipc 22#5 0xA5C3B#20),
    scalar 0b10000000000101001000101101100111#32 (.jalr 22#5 9#5 0x801#12),
    scalar 0b00110100110110110100101101101111#32 (.jal 22#5 0x5A5A6#20),
    scalar 0b11001010011101001000001101100011#32 (.branch .beq 9#5 7#5 0xA53#12),
    scalar 0b11001010011101001001001101100011#32 (.branch .bne 9#5 7#5 0xA53#12),
    scalar 0b11001010011101001100001101100011#32 (.branch .blt 9#5 7#5 0xA53#12),
    scalar 0b11001010011101001101001101100011#32 (.branch .bge 9#5 7#5 0xA53#12),
    scalar 0b11001010011101001110001101100011#32 (.branch .bltu 9#5 7#5 0xA53#12),
    scalar 0b11001010011101001111001101100011#32 (.branch .bgeu 9#5 7#5 0xA53#12)].all id = true := by decide

/-- Compressed forms from the C extension: c.li a0, 31, c.addi a0, -1, c.add a1, a2, c.mv a1, a2, c.jr ra, c.ebreak, c.ld a1, 136(a0),
c.sd a1, 136(a0), c.beqz s1, 24, c.j 26, c.addi16sp 16, c.srai a0, 3. -/
theorem test_decode_compressed : [
    scalar16 0b0100010101111101#16 (.intRI .addi 10#5 0#5 31#12),
    scalar16 0b0001010101111101#16 (.intRI .addi 10#5 10#5 0xFFF#12),
    scalar16 0b1001010110110010#16 (.intRR .add 11#5 11#5 12#5),
    scalar16 0b1000010110110010#16 (.intRR .add 11#5 0#5 12#5),
    scalar16 0b1000000010000010#16 (.jalr 0#5 1#5 0#12),
    scalar16 0b1001000000000010#16 (.ebreak),
    scalar16 0b0110010101001100#16 (.load .ld 11#5 10#5 136#12),
    scalar16 0b1110010101001100#16 (.store .sd 11#5 10#5 136#12),
    scalar16 0b1100110010000001#16 (.branch .beq 9#5 0#5 12#12),
    scalar16 0b1010100000101001#16 (.jal 0#5 13#20),
    scalar16 0b0110000101000001#16 (.intRI .addi 2#5 2#5 16#12),
    scalar16 0b1000010100001101#16 (.intShift .srai 10#5 10#5 3#6)].all id = true := by decide

/-- Words common to the engines, from R230. -/
theorem test_decode_common_words : [
    word .mx 0b1101010101010101#16 (.literal 21845#15),
    word .sx 0b0000001000000000#16 (.lix),
    word .sx 0b0000010000000000#16 (.dup),
    word .sx 0b0000011000000000#16 (.drop),
    word .sx 0b0000100000000000#16 (.swap),
    word .sx 0b0000101000000000#16 (.rot),
    word .sx 0b0001100000000000#16 (.mark),
    word .sx 0b0001101000000000#16 (.call),
    word .sx 0b0001110000000000#16 (.ret),
    word .sx 0b0001111000000000#16 (.nop),
    word .vx 0b0000101000000001#16 (.rotD),
    word .cx 0b0000110000000010#16 (.loop 2#2),
    word .mx 0b0000111000000001#16 (.endl 1#2),
    word .vx 0b0001000000001001#16 (.lset 2#2 1#2),
    word .sx 0b0001001000000110#16 (.lget 1#2 2#2),
    word .mx 0b0001010000000011#16 (.tokw .sx),
    word .sx 0b0001011000000010#16 (.tokr .cx),
    word .cx 0b0010000000000101#16 (.fsel 5#4),
    word .vx 0b0010001000000001#16 (.qin 1#3),
    word .mx 0b0010010000000100#16 (.qout 4#3)].all id = true := by decide

/-- Copy words, from R231. -/
theorem test_decode_copy_words : [
    word .cx 0b0010100100010000#16 (.cpy 4#3 1#2 0#2 0#2),
    word .cx 0b0010101010001110#16 (.cpy2 2#3 0#2 3#2 2#2),
    word .cx 0b0010110011000100#16 (.cpyz 3#3 1#2),
    word .cx 0b0010111001001101#16 (.gath 1#3 0#2 3#2 1#2),
    word .cx 0b0011000010010000#16 (.scat 2#3 1#2 0#2),
    word .cx 0b0011001011000000#16 (.pfch 3#3 0#2),
    word .cx 0b0011010001010000#16 (.cpyg 1#3 1#2 0#2),
    word .cx 0b0011011100100000#16 (.cpyd 4#3 2#2 0#2),
    word .cx 0b0011100000001000#16 (.fill 0#3 2#2),
    word .cx 0b0011101000101111#16 (.rfeed 0#3 2#2 3#2),
    word .cx 0b0011110000000000#16 (.dln)].all id = true := by decide

/-- Select words, from R233. -/
theorem test_decode_select_words : [
    word .sx 0b0010100000000110#16 (.skey 6#4),
    word .sx 0b0010101000100001#16 (.hist 2#2 1#4),
    word .sx 0b0010110000000000#16 (.selk 0#4),
    word .sx 0b0010111000000001#16 (.selp 1#4),
    word .sx 0b0011000000000110#16 (.cmpk 6#4)].all id = true := by decide

/-- Vector words of class V, from R234 and R236. -/
theorem test_decode_vector_words : [
    word .vx 0b0010100001000000#16 (.vadd 1#3 false 0#2),
    word .vx 0b0010101100101000#16 (.vsub 4#3 true 1#2),
    word .vx 0b0010110111010000#16 (.vmul 7#3 false 2#2),
    word .vx 0b0010111010100000#16 (.vfma 2#3 true 0#2),
    word .vx 0b0011000101001000#16 (.vmax 5#3 false 1#2),
    word .vx 0b0011001000110000#16 (.vmin 0#3 true 2#2),
    word .vx 0b0011010011000000#16 (.vabs 3#3 false 0#2),
    word .vx 0b0011011110101000#16 (.vneg 6#3 true 1#2),
    word .vx 0b0011101001010000#16 (.vexp 1#3 false 2#2),
    word .vx 0b0011110100100000#16 (.vlog 4#3 true 0#2),
    word .vx 0b0011111111001000#16 (.vrcp 7#3 false 1#2),
    word .vx 0b0100000010110000#16 (.vrsq 2#3 true 2#2),
    word .vx 0b0100010101000000#16 (.vsel 5#3 false 0#2),
    word .vx 0b0100101000101000#16 (.vbsr 0#3 true 1#2),
    word .vx 0b0100110011010000#16 (.vperm 3#3 false 2#2),
    word .vx 0b0100111110100000#16 (.vand 6#3 true 0#2),
    word .vx 0b0101000001001000#16 (.vor 1#3 false 1#2),
    word .vx 0b0101001100110000#16 (.vxor 4#3 true 2#2),
    word .vx 0b0101010111000000#16 (.vshl 7#3 false 0#2),
    word .vx 0b0101100010101000#16 (.vmov 2#3 true 1#2),
    word .vx 0b0101101101010000#16 (.vbc 5#3 false 2#2),
    word .vx 0b0101110000100000#16 (.vclamp 0#3 true 0#2),
    word .vx 0b0101111011001000#16 (.vstub 3#3 false 1#2),
    word .vx 0b0110000110110000#16 (.vsoft 6#3 true 2#2),
    word .vx 0b0011100101101111#16 (.vcvt 5#3 true 1#2 7#3),
    word .vx 0b0100001101101110#16 (.vcmp 5#3 true 1#2 6#3),
    word .vx 0b0100011101101010#16 (.vred 5#3 true 1#2 2#3),
    word .vx 0b0100100101101001#16 (.vscan 5#3 true 1#2 1#3),
    word .vx 0b0101011101101001#16 (.vshr 5#3 true 1#2 1#3)].all id = true := by decide

/-- Matrix words, from R237 and R238. -/
theorem test_decode_matrix_words : [
    word .mx 0b0010110011101011#16 (.mm 2#2 1#2 true 10#4 3#2),
    word .mx 0b0011010011101011#16 (.mml 2#2 1#2 true 10#4 3#2),
    word .mx 0b0011110011101011#16 (.mmm 2#2 1#2 true 10#4 3#2),
    word .mx 0b0100000000000000#16 (.mpb),
    word .mx 0b0100001001000101#16 (.acco true 5#4),
    word .mx 0b0100010001000000#16 (.accz true),
    word .mx 0b0100011000000000#16 (.accg false),
    word .mx 0b0100100000000010#16 (.rng 2#2),
    word .mx 0b0100101000001011#16 (.fte 11#4),
    word .mx 0b0100110001000000#16 (.draw true)].all id = true := by decide

/-- Vector words of classes D, P and K, from R235. -/
theorem test_decode_mask_words : [
    word .vx 0b0110001000010101#16 (.dset 21#5),
    word .vx 0b0110010000001010#16 (.dget 10#5),
    word .vx 0b0110011000000110#16 (.pgs 6#3),
    word .vx 0b0110100010010000#16 (.kld 9#4),
    word .vx 0b0110101010010000#16 (.kst 9#4),
    word .vx 0b0111010010010000#16 (.kbitTst 9#4),
    word .vx 0b0111010010010001#16 (.kbitSet 9#4),
    word .vx 0b0111010010010010#16 (.kbitClr 9#4),
    word .vx 0b0111011010010000#16 (.kpop 9#4),
    word .vx 0b0111100010010000#16 (.kget 9#4),
    word .vx 0b0111101010010000#16 (.kset 9#4),
    word .vx 0b0110110011010110#16 (.kor 13#4 6#4),
    word .vx 0b0110111011010110#16 (.kand 13#4 6#4),
    word .vx 0b0111000011010110#16 (.kxor 13#4 6#4),
    word .vx 0b0111001011010110#16 (.knot 13#4 6#4)].all id = true := by decide
end Sys2Proof.Tests
end

