-- ==== Sys2Proof/Tests/Witness.lean ====
section
/-! SUPPORT. Witnesses: for each statement with hypotheses, small states and operands that meet them, clause by clause. -/

namespace Sys2Proof.Tests

open Sys2Proof Sys2Proof.Machine

/-! ### Small states -/

/-- Bank 0 of core 0 in the middle of a control-core instruction, as an instruction is placed for a run from reset, with the durable
tier ready and the bank changed as asked. -/
def coreS (f : Bank → Bank) : State :=
  let s := (State.reset.placeScalar []).modBank 0 f
  { s with betony := { s.betony with rdy := true, hok := true }, cur := { bid := 0, eng := none, ilen := 4, ibits := 0x13, forecast := 1, port := .mailbox } }

/-- x registers set. -/
def xs (l : List (Fin 32 × Nat)) (b : Bank) : Bank :=
  { b with core := { b.core with x := l.foldl (fun x p => x.set p.1 (BitVec.ofNat 64 p.2)) b.core.x } }

/-- The control core's privilege. -/
def inSuper (b : Bank) : Bank := { b with core := { b.core with priv := .super } }

/-- Bank 0 of core 0 in the middle of an engine's routine word, the operands on its stack. -/
def engS (e : Engine) (st : List Word) (f : EngRegs → EngRegs := id) : State :=
  let s := State.reset.placeWord e 0#16
  let s := s.modBank 0 (fun b => b.modEngine e (·.modRegs (fun r => f { r with pstack := st })))
  { s with betony := { s.betony with rdy := true, hok := true }, cur := { bid := 0, eng := some e, ilen := 2, ibits := 0, forecast := 1, port := .mailbox } }

/-- What a result of a body that does not stop satisfies. -/
def okAnd {α : Type} (r : EStateM.Result Stop State α) (p : α → State → Bool) : Bool :=
  match r with | .ok a t => p a t | .error _ _ => false

theorem okAnd_spec {α : Type} {r : EStateM.Result Stop State α} {p : α → State → Bool} (h : okAnd r p = true) :
    ∃ a t, r = .ok a t ∧ p a t = true := by
  cases r with
  | ok a t => exact ⟨a, t, rfl, h⟩
  | error e t => simp [okAnd] at h

/-- What a next state satisfies. -/
def nextAnd (o : Host.Outcome State Fault Refusal) (p : State → Bool) : Bool := match o with | .next t => p t | _ => false

theorem nextAnd_spec {o : Host.Outcome State Fault Refusal} {p : State → Bool} (h : nextAnd o p = true) :
    ∃ t, o = .next t ∧ p t = true := by
  cases o with
  | next t => exact ⟨t, rfl, h⟩
  | _ => simp [nextAnd] at h

/-! ### Integers, loads and stores -/

/-- Operands of every case: a divisor that is zero, one that is not, one whose low word alone is zero; the last bit, byte and counts. -/
theorem witness_IntegerArithmetic :
    (0x80000001#64 : Word) ≠ 0#64 ∧ (0x80000001#64 : Word).toNat % 2 ^ 32 ≠ 0 ∧ (0x100000000#64 : Word) ≠ 0#64
    ∧ (0x100000000#64 : Word).toNat % 2 ^ 32 = 0 ∧ (31#6 : BitVec 6).toNat < 32 ∧ 63 < 64 ∧ 7 < 8 := by decide

theorem witness_JumpsComplete :
    branchHolds .bltu ((coreS (xs [(1, 5)])).own.readX 0#5) ((coreS (xs [(1, 5)])).own.readX 1#5) = true
    ∧ branchHolds .bgeu ((coreS (xs [(1, 5)])).own.readX 0#5) ((coreS (xs [(1, 5)])).own.readX 1#5) = false := by decide

/-- A load of the last doubleword of the page, and a misaligned one inside it. -/
theorem witness_LoadCompletes :
    (∃ ps t, (translateSpan ((coreS (xs [(1, 0x3FFFF8)])).whoCore 0) ((coreS (xs [(1, 0x3FFFF8)])).own.effAddr 1#5 0#12) (LoadBytes .ld)
      accR 0).run (coreS (xs [(1, 0x3FFFF8)])) = .ok ps t ∧ (ps.mapM (fun p => t.readable 0 none p.1.pa p.2)).isSome = true)
    ∧ (∃ ps t, (translateSpan ((coreS (xs [(1, 0x200004)])).whoCore 0) ((coreS (xs [(1, 0x200004)])).own.effAddr 1#5 0xFFF#12) (LoadBytes .lw)
      accR 0).run (coreS (xs [(1, 0x200004)])) = .ok ps t ∧ (ps.mapM (fun p => t.readable 0 none p.1.pa p.2)).isSome = true) :=
  ⟨okAnd_spec (by decide), okAnd_spec (by decide)⟩

theorem witness_StoreCompletes :
    (∃ ps t, (translateSpan ((coreS (xs [(1, 0x3FFFF8)])).whoCore 0) ((coreS (xs [(1, 0x3FFFF8)])).own.effAddr 1#5 0#12) (storeSize .sd)
      accW 0).run (coreS (xs [(1, 0x3FFFF8)])) = .ok ps t ∧ (ps.length == 1) = true)
    ∧ (∃ ps t, (translateSpan ((coreS (xs [(1, 0x200001)])).whoCore 0) ((coreS (xs [(1, 0x200001)])).own.effAddr 1#5 0#12) (storeSize .sh)
      accW 0).run (coreS (xs [(1, 0x200001)])) = .ok ps t ∧ (ps.length == 2) = true) :=
  ⟨okAnd_spec (by decide), okAnd_spec (by decide)⟩

/-- The aligned store runs to a next state, with one place of its width. -/
theorem witness_StoreFrame :
    (∃ ps t, (translateSpan ((coreS (xs [(1, 0x3FFFF8)])).whoCore 0) ((coreS (xs [(1, 0x3FFFF8)])).own.effAddr 1#5 0#12) (storeSize .sd)
      accW 0).run (coreS (xs [(1, 0x3FFFF8)])) = .ok ps t ∧ (ps.map (·.2) == [8]) = true)
    ∧ (∃ u, exec (.store .sd 1#5 1#5 0#12) (coreS (xs [(1, 0x3FFFF8)])) = .next u ∧ (u.mem.get 0x3FFFFA == 0x3F#8) = true) :=
  ⟨okAnd_spec (by decide), nextAnd_spec (by decide)⟩

/-- A second page in the TLB behind the placed one, at another place of memory. -/
def twoS (x : Nat) : State := (coreS (xs [(1, x)])).modCore 0 (fun c =>
  { c with tlb := c.tlb ++ [⟨0, 0, { placedLeaf with va := 0x400000, pa := 0x800000 }⟩] })

/-- A store over two pages: eight places of one byte; and one whose bytes lie in one page. -/
theorem witness_StoreFrame_spans :
    (∃ ps t, (translateSpan ((twoS 0x3FFFFC).whoCore 0) ((twoS 0x3FFFFC).own.effAddr 1#5 0#12) (storeSize .sd)
      accW 0).run (twoS 0x3FFFFC) = .ok ps t ∧ (ps.map (fun p => (p.1.pa, p.2)) == [(0x3FFFFC, 1), (0x3FFFFD, 1), (0x3FFFFE, 1), (0x3FFFFF, 1),
        (0x800000, 1), (0x800001, 1), (0x800002, 1), (0x800003, 1)]) = true)
    ∧ (∃ u, exec (.store .sd 1#5 1#5 0#12) (twoS 0x3FFFFC) = .next u ∧ (u.mem.get 0x3FFFFE == 0x3F#8 && u.mem.get 0x800000 == 0#8) = true)
    ∧ (∃ u, exec (.store .sh 1#5 1#5 0#12) (twoS 0x200FFF) = .next u ∧ (u.mem.get 0x201000 == 0x0F#8) = true) :=
  ⟨okAnd_spec (by decide), nextAnd_spec (by decide), nextAnd_spec (by decide)⟩

/-! ### Translation and atomics -/

/-- A walk to be made: `satp` names a root at 0x300000, and the leaf of VA 0x40000000 maps 1 GiB of DRAM from address 0. -/
def walkS : State :=
  let s := coreS (fun b => { b with core := { b.core with csr := { b.core.csr with satp := 0xA000000000000300#64 } } })
  let s := s.modCore 0 (fun c => { c with tlb := [] })
  let put := fun (m : Mem) (p : Nat × Nat) => m.write p.1 (leBytes 8 p.2)
  { s with mem := [(0x300000, 0x301 * 1024 + 1), (0x301000, 0x302 * 1024 + 1), (0x302008, 0x1F)].foldl put s.mem }

theorem witness_TranslationCompletes :
    canonical 0x3FFFFF = true ∧ canonical 0x00FFFFFFFFFFFFFF = true ∧ canonical 0x0100000000000000 = false
    ∧ placedLeaf.denies ((coreS id).whoCore 0) accW = 0
    ∧ (coreS id).tlbLookup ((coreS id).whoCore 0) 0x3FFFFF = some placedLeaf
    ∧ ((coreS id).passes ((coreS id).whoCore 0) 0x3FFFFF 1).isOk = true
    ∧ walkS.tlbLookup (walkS.whoCore 0) 0x40000000 = none
    ∧ (match walkS.walk 0 (walkS.whoCore 0).root 0x40000000 with
      | .ok l => decide (l.denies (walkS.whoCore 0) accW = 0 ∧ walkS.linkUp 0 l.pte = true) && ((walkS.tlbRenew (walkS.whoCore 0) 0x40000000 l).passes (walkS.whoCore 0) (l.pa + (0x40000000 - l.va)) 1).isOk
      | .error _ => false) = true := by decide

/-- A leaf in the TLB that denies a write, where a walk gives one that permits it. -/
def staleS : State :=
  walkS.modCore 0 (fun c => { c with tlb := [⟨0, 0, { placedLeaf with va := 0x40000000, pa := 0, level := 2, w := false }⟩] })

theorem witness_TranslationCompletes_stale :
    (∃ l, staleS.tlbLookup (staleS.whoCore 0) 0x40000000 = some l ∧ l.denies (staleS.whoCore 0) accW ≠ 0)
    ∧ (∃ p t, (translate (staleS.whoCore 0) 0x40000000 accW 0).run staleS = .ok p t ∧ (t.mem.get 0x302008 == 0xDF#8) = true) :=
  ⟨⟨_, rfl, by decide⟩, okAnd_spec (by decide)⟩

/-- A leaf in the TLB whose entry, in the host's memory, has A and D clear; the host link up, or down. -/
def hostLeafS (up : Bool) : State :=
  let s := (coreS id).modCore 0 (fun c => { c with tlb := [⟨0, 0, { placedLeaf with pte := hostBase }⟩] })
  { s with mem := s.mem.write hostBase (leBytes 8 (0x200 * 1024 + 0x1F)), host := { s.host with link := up } }

theorem witness_TranslationCompletes_link :
    (∃ l, (hostLeafS true).tlbLookup ((hostLeafS true).whoCore 0) 0x3FFFFF = some l ∧ l.denies ((hostLeafS true).whoCore 0) accW = 0
      ∧ (hostLeafS true).marks l accW = true ∧ (hostLeafS true).linkUp 0 l.pte = true
      ∧ (hostLeafS false).marks l accR = true ∧ (hostLeafS false).linkUp 0 l.pte = false)
    ∧ (hostLeafS false).tlbLookup ((hostLeafS false).whoCore 0) 0x200000 = some { placedLeaf with pte := hostBase }
    ∧ ((hostLeafS false).passes ((hostLeafS false).whoCore 0) 0x200000 1).isOk = true
    ∧ (coreS id).marks placedLeaf accW = false :=
  ⟨⟨{ placedLeaf with pte := hostBase }, by decide⟩, by decide, by decide, by decide⟩

/-- A leaf in the TLB whose entry, in the durable tier, has A and D clear; and a root table there; the tier ready, or not. -/
def durableLeafS (rdy : Bool) : State :=
  let s := (coreS id).modCore 0 (fun c => { c with tlb := [⟨0, 0, { placedLeaf with pte := durableBase }⟩] })
  { s with mem := s.mem.write durableBase (leBytes 8 (0x200 * 1024 + 0x1F)), betony := { s.betony with rdy := rdy } }

def durableRootS : State :=
  let s := walkS.modBank 0 (fun b => { b with core := { b.core with csr := { b.core.csr with satp := 0xA000000020000000#64 } } })
  { s with betony := { s.betony with rdy := false } }

theorem witness_TranslationCompletes_durable :
    (∃ l, (durableLeafS true).tlbLookup ((durableLeafS true).whoCore 0) 0x3FFFFF = some l ∧ l.denies ((durableLeafS true).whoCore 0) accW = 0
      ∧ (durableLeafS true).marks l accW = true ∧ (durableLeafS true).linkUp 0 l.pte = true ∧ isDurable l.pte = true
      ∧ (durableLeafS true).betony.rdy = true ∧ (durableLeafS false).marks l accR = true ∧ (durableLeafS false).betony.rdy = false
      ∧ (durableLeafS false).linkUp 0 l.pte = true)
    ∧ ((durableLeafS false).passes ((durableLeafS false).whoCore 0) 0x200000 1).isOk = true
    ∧ durableRootS.tlbLookup (durableRootS.whoCore 0) 0x40000000 = none
    ∧ (match durableRootS.walk 0 (durableRootS.whoCore 0).root 0x40000000 with | .ok _ => 9 | .error k => k) = 0 :=
  ⟨⟨{ placedLeaf with pte := durableBase }, by decide⟩, by decide, by decide, by decide⟩

theorem witness_TranslationFrame :
    ∃ p t, (translate (walkS.whoCore 0) 0x40000000 accR 0).run walkS = .ok p t ∧ (t.mem.get p.leaf.pte == 0x5F#8) = true :=
  okAnd_spec (by decide)

theorem witness_MisalignedAtomicTraps :
    (coreS (xs [(1, 0x200002)])).settled 0 = true ∧ ((coreS (xs [(1, 0x200002)])).own.readX 1#5).toNat % amoSize false ≠ 0
    ∧ ((coreS (xs [(1, 0x200004)])).own.readX 1#5).toNat % amoSize true ≠ 0 := by decide

/-- A bank with a reservation on the last doubleword of its page, or none. -/
def atomS (r : Option Resv) : State := coreS (fun b => { xs [(1, 0x3FFFF8)] b with resv := r })

theorem witness_AtomicsComplete :
    (atomS none).settled 0 = true
    ∧ (∃ p t, (atomicPlace 1#5 true true (accR ||| accW) 6).run (atomS none).issues = .ok p t ∧ (t.readable 0 none p.pa 8).isSome = true)
    ∧ (∃ p t, (atomicPlace 1#5 true true accR 4).run (atomS none).issues = .ok p t ∧ (t.readable 0 none p.pa 8).isSome = true)
    ∧ (∃ p t, (atomicPlace 1#5 true false accW 6).run (atomS (some ⟨0x3FFFF8, 8, 0, 0, false⟩)).issues = .ok p t
      ∧ ((t.bank 0).reserves p.pa 8) = true)
    ∧ (∃ p t, (atomicPlace 1#5 true false accW 6).run (atomS none).issues = .ok p t ∧ (!(t.bank 0).reserves p.pa 8) = true) :=
  ⟨by decide, okAnd_spec (by decide), okAnd_spec (by decide), okAnd_spec (by decide), okAnd_spec (by decide)⟩

/-! ### CSRs, traps and returns -/

theorem witness_CsrCompletes :
    ((coreS inSuper).readCsr 0 0x140).isSome = true ∧ (coreS inSuper).own.csrAllowed 0x140 = true
    ∧ csrWrites .rs 1#5 ∧ ¬ csrReadOnly 0x140#12 ∧ ¬ csrWrites .rc 0#5
    ∧ ((coreS id).readCsr 0 0xCC0).isSome = true ∧ (coreS id).own.csrAllowed 0xCC0 = true := by
  simp only [csrWrites, csrReadOnly]; decide

theorem witness_CsrReach : ((coreS inSuper).bank 0).core.priv = .super ∧ ((coreS id).bank 0).core.priv = .user
    ∧ 0xCC5 ∈ [0xCC0, 0xCC1, 0xCC2, 0xCC3, 0xCC4, 0xCC5] ∧ 0x180 ∈ [0x100, 0x104, 0x105, 0x106, 0x140, 0x141, 0x142, 0x143, 0x144, 0x180]
    ∧ 2 < 3 := by decide

theorem witness_CsrTraps :
    (0x7FF#12).toNat ∉ [0xC00, 0xC01, 0xC02, 0xCC0, 0xCC1, 0xCC2, 0xCC3, 0xCC4, 0xCC5, 0x100, 0x104, 0x105, 0x106, 0x140, 0x141,
        0x142, 0x143, 0x144, 0x180]
    ∧ csrWrites .rw 0#5 ∧ csrReadOnly 0xCC5#12 ∧ csrReadOnly 0x180#12
    ∧ (coreS id).own.core.priv = .user ∧ (0x180#12).extractLsb' 8 2 = 1#2
    ∧ (coreS id).own.core.csr.scounteren.getLsbD 2 = false ∧ (0xC02#12).toNat = 0xC00 + 2
    ∧ ¬ csrWrites .rs 0#5 ∧ 0xCC0 ≤ (0xCC0#12).toNat ∧ (0xCC5#12).toNat ≤ 0xCC5 := by
  simp only [csrWrites, csrReadOnly]; decide

theorem witness_TrapEntry :
    (Bank.init.core.csr.stvec.getLsbD 0 = false)
    ∧ (Bank.init.setCsr { Csrs.init with stvec := 0x1001#64 }).core.csr.stvec.getLsbD 0 = true
    ∧ (2 < 2 ^ 63) := by decide

/-- A bank whose queue-low interrupt is pending and enabled. -/
def lowS : State :=
  coreS (fun b => { inSuper b with lowDue := some .cx, core := { (inSuper b).core with csr :=
    { b.core.csr with sie := 0x10000, sip := 0x10000, sstatus := b.core.csr.sstatus ||| 2#64 } } })

/-- Bank 0 with an entry of the copy engine that is issued and not yet run, and a drain. -/
def busyS (d : Drain) : State :=
  coreS (fun b => { b.modEngine .cx (fun g => { g with entry := some ⟨.call 0, [], false⟩ }) with draining := d })

/-- A bank with nothing to drain; one whose issued entry keeps the drain open, and one that drains at once; and a drain that is over. -/
theorem witness_TrapTaken :
    (coreS id).atRest 0 none ∧ ((coreS id).bank 0).task.isSome = true ∧ (busyS .none).handleBank 0 = 0
    ∧ ((busyS (.trap 2 0)).drain ((busyS .none).members 0) drainRounds).drained ((busyS .none).members 0) none = false
    ∧ ((coreS (fun b => { b with draining := .trap 2 0 })).drain ((coreS id).members 0) drainRounds).drained ((coreS id).members 0) none = true
    ∧ ((busyS (.trap 2 0)).bank 0).gang = none ∧ ((busyS (.trap 2 0)).bank 0).draining = .trap 2 0 := by
  simp only [State.atRest, State.quietAll, Eng.atRest]; decide +kernel

/-- A context fault due, two missed promises due, queue-low due, and nothing due. -/
theorem witness_DueTraps :
    (coreS (fun b => { b with ctxDue := some 3 })).own.ctxDue = some 3
    ∧ (coreS (fun b => { b with missDue := [5, 6] })).own.ctxDue = none ∧ (coreS (fun b => { b with missDue := [5, 6] })).own.missDue = 5 :: [6]
    ∧ lowS.own.ctxDue = none ∧ lowS.own.missDue = [] ∧ lowS.own.lowDue = some .cx
    ∧ (decide (lowS.own.core.priv = .super) && lowS.own.core.csr.sstatus.getLsbD 1 && lowS.own.core.csr.sie.getLsbD 16) = true
    ∧ (coreS id).own.core.priv = .user ∧ (coreS id).own.missDue = []
    ∧ ((coreS (fun b => { b with missDue := [5, 6] })).modBank 0 Bank.endWfi).atRest 0 none
    ∧ ((coreS (fun b => { b with missDue := [5, 6] })).bank 0).endWfi.due = some (61, 5)
    ∧ ((coreS (fun b => { b with ctxDue := some 3 })).modBank 0 Bank.endWfi).atRest 0 none
    ∧ ((coreS (fun b => { b with ctxDue := some 3 })).bank 0).endWfi.due = some (62, 3)
    ∧ ((coreS (fun b => { b with ctxDue := some 3 })).bank 0).endWfi.gang = none
    ∧ (busyS .due).own.gang = none ∧ (busyS .due).own.draining = .due
    ∧ ((busyS .due).modBank 0 (fun b => { b with missDue := [5] })).own.due = some (61, 5) ∧ 61 ≠ 62 := by
  simp only [State.atRest, State.quietAll, Eng.atRest]; decide

/-- Die 0 with the records given. -/
def recS (l : List (Nat × FaultRec)) : State := (coreS id).modDie 0 (fun d => { d with faults := l })

/-- A record of the placed page, not present, as bank 0's core would make it. -/
def recV (state : Nat) : FaultRec :=
  { va := 0x200010, vf := 0, asid := 0, code := 1, access := 1, dups := 255, state := state, core := 0, bank := 0, agent := 0, stamp := 0 }

/-- A record that takes a merge; one that is answered, below a free slot; and a full queue. -/
theorem witness_FaultRecords :
    (∃ x ∈ (recS [(7, recV 2)]).die 0 |>.faults, (x.2.state = 1 ∨ x.2.state = 2) ∧ x.2.vf = ((recS [(7, recV 2)]).bank 0).vfId
      ∧ x.2.asid = ((recS [(7, recV 2)]).bank 0).asidOf ∧ x.2.code = 1 ∧ bits x.2.va 12 45 = bits 0x200FFF 12 45)
    ∧ (∀ x ∈ ((recS [(0, recV 3)]).die 0).faults, ¬ (x.2.state = 1 ∨ x.2.state = 2))
    ∧ PMap.find ((recS [(0, recV 3)]).die 0).faults 1 = none
    ∧ (∀ j, j < 1 → (PMap.find ((recS [(0, recV 3)]).die 0).faults j).isSome = true) := by decide

theorem full_find {α : Type} (r : α) : ∀ l : List Nat, ∀ j ∈ l, (PMap.find (l.map (fun i => (i, r))) j).isSome = true
  | [], _, h => absurd h List.not_mem_nil
  | i :: l, j, h => by
    simp only [List.map_cons, PMap.find]
    split
    · rfl
    · rename_i hne
      have : j ∈ l := by
        rcases List.mem_cons.1 h with h | h
        · exact absurd h.symm (by simpa using hne)
        · exact h
      exact full_find r l j this

theorem recS_faults (l : List (Nat × FaultRec)) : ((recS l).die 0).faults = l := rfl

theorem witness_FaultRecords_full : ∃ s : State,
    (∀ x ∈ (s.die 0).faults, ¬ (x.2.state = 1 ∨ x.2.state = 2)) ∧ ∀ j, j < 4096 → (PMap.find (s.die 0).faults j).isSome = true := by
  refine ⟨recS ((List.range 4096).map (fun i => (i, recV 3))), ?_, ?_⟩ <;> rw [recS_faults]
  · intro x hx
    obtain ⟨i, _, rfl⟩ := List.mem_map.1 hx
    simp [recV]
  · exact fun j h => full_find (recV 3) (List.range 4096) j (List.mem_range.2 h)

/-- What a result of a body that stops satisfies. -/
def errAnd {α : Type} (r : EStateM.Result Stop State α) (p : Stop → State → Bool) : Bool :=
  match r with | .ok _ _ => false | .error e t => p e t

/-- An address that no entry maps: cause 1, which makes a record where nothing is to drain; and one that is not canonical: cause 0x0B. -/
theorem witness_AccessFaults :
    errAnd ((translateSpan (walkS.whoCore 0) 0x80000000 8 accR 0).run walkS) (fun e _ => e == .access 1 0x80000000 accR 0) = true
    ∧ (walkS.recordFault 0 0 1 0x80000000 accR 0).1.atRest 0 none ∧ ((walkS.recordFault 0 0 1 0x80000000 accR 0).1.bank 0).ctxDue = none
    ∧ (let s := walkS.modBank 0 (fun b => { b with ctxDue := some 0x200000 })
       (s.recordFault 0 0 1 0x80000000 accR 0).1.atRest 0 none ∧ ((s.recordFault 0 0 1 0x80000000 accR 0).1.bank 0).ctxDue.isSome = true)
    ∧ errAnd ((translateSpan (walkS.whoCore 0) 0x80000000 8 accW 0).run walkS) (fun e _ => e == .access 1 0x80000000 accW 0) = true
    ∧ errAnd ((translateSpan (walkS.whoCore 0) (2 ^ 56) 8 accR 0).run walkS) (fun e _ => e == .access 11 (2 ^ 56) accR 0) = true := by
  simp only [State.atRest, State.quietAll, Eng.atRest]; decide

/-- A bank two phases past its checkpoint, `cx` in the checkpoint's phase and `vx` not yet at its boundary. -/
def rollS : State :=
  coreS (fun b =>
    let b := (b.fullCkpt 1 0x200000#64).modEngines (fun e g => { g with phase := if e = .vx then 0 else 2 })
    { b with committed := 1, phase := 2, ckpts := b.ckpts.filter (fun c => c.phase = 1), held := [⟨2, coreBase, 5⟩] })

theorem witness_RollbackRestores :
    (∃ c, (rollS.bank 0).ckpts.find? (·.phase = (rollS.bank 0).committed) = some c ∧ c.phase = 1)
    ∧ 1 ≤ ((rollS.bank 0).engine .cx).phase ∧ ((rollS.bank 0).engine .vx).phase < 1 := ⟨⟨_, rfl, by decide⟩, by decide⟩

theorem witness_XRegisters : (31#5 : Reg) ≠ 0#5 ∧ (1#5 : Reg) ≠ 31#5 := by decide

theorem witness_EnvironmentCalls :
    (coreS id).atRest 0 none ∧ (coreS id).own.task.isSome = true ∧ (coreS id).own.core.priv = .user
    ∧ (coreS inSuper).atRest 0 none ∧ (coreS inSuper).own.core.priv = .super := by simp only [State.atRest, State.quietAll, Eng.atRest]; decide

theorem witness_SretCompletes :
    (coreS inSuper).own.core.priv = .super ∧ (coreS inSuper).own.core.csr.sstatus.getLsbD 8 = false := by decide

theorem witness_WfiSfenceComplete : (coreS inSuper).own.core.priv = .super ∧ (coreS inSuper).own.wakes = false
    ∧ lowS.own.core.priv = .super ∧ lowS.own.wakes = true := by decide

theorem witness_SuperOnlyForms : (coreS id).own.core.priv = .user
    ∧ Instr.fqrep 1#5 2#5 ∈ [Instr.sret, .wfi, .sfenceVma 1#5 2#5, .vcfp 3#5 1#5, .vcrep 1#5, .fqpop 3#5 1#5, .fqrep 1#5 2#5] := by decide

/-! ### Fences and barriers -/

/-- A bank with one domain write in window 0, at a time inside a window. -/
def domS (ftime : Nat) : State := { coreS (fun b => { b with dom := [(hostBase / 64, 0)] }) with ftime := ftime }

/-- The same, its line held by a loss of the link. -/
def heldS : State :=
  (domS 0).modDie 0 (fun d => { d with linkDown := true, heldLines := [⟨hostBase / 64, [], 0⟩] })

theorem witness_FencesComplete :
    (3#3).toNat < 4 ∧ heldS.fenceHeld heldS.own = true
    ∧ (domS 512).fenceHeld (domS 512).own = false ∧ (domS 512).fenceOver (domS 512).own = true ∧ (domS 511).fenceOver (domS 511).own = false := by
  decide

theorem witness_FenceWindows : (domS 0).own.wait = .none ∧ (domS 0).own.dom = [(hostBase / 64, 0)]
    ∧ (coreS id).own.wait = .none ∧ (coreS id).own.dom = [] := by decide

theorem witness_PersistBarriersComplete :
    (coreS id).unpersisted (dagent 0 none) = []
    ∧ (∀ m ∈ (coreS id).members 0, ((coreS id).bank m).quiet = true ∧ (coreS id).bankUnpersisted m = [] ∧ (coreS id).pushedUnpersisted m = [])
    ∧ (let s := coreS (fun b => { b with pushed := [1] })
       ∃ m ∈ s.members 0, ({ s with betony := { s.betony with pending := [{ (default : DStore) with id := 1 }] } } : State).pushedUnpersisted m ≠ [])
    ∧ (∃ p t, (translate ((coreS (xs [(1, 0x3FFFFF)])).whoCore 0) ((coreS (xs [(1, 0x3FFFFF)])).own.readX 1#5).toNat accR 0).run
      (coreS (xs [(1, 0x3FFFFF)])) = .ok p t ∧ (p.pa == 0x3FFFFF) = true) :=
  ⟨by decide, by decide, ⟨0, by decide⟩, okAnd_spec (by decide)⟩

/-! ### Handles, queues and commands -/

/-- A version of the placed page in a state. -/
def verOf (st : HState) (cause : Nat) : HVer := { HVer.empty 1 with state := st, cause := cause, vpage := 0x200, leaf := placedLeaf }

/-- Bank 0 with a handle 15 of one version. -/
def handS (v : HVer) (off : Nat) : State := coreS (fun b => (xs [(1, off)] b).setHandle 15#4 ⟨v, []⟩)

theorem witness_HandleFormsComplete :
    (∃ v t, (coreS (xs [(1, 0x3FFFFF)])).xlatVer 0 0x3FFFFF true = (v, t) ∧ ((t.bank 0).newVersion 15#4 (t.usedVers 0) (fun i => { v with id := i })).isSome = true)
    ∧ ((coreS id).own.newVersion 0#4 ((coreS id).usedVers 0) HVer.empty).isSome = true := ⟨⟨_, _, rfl, by decide⟩, by decide⟩

/-- Handle 0 with three earlier versions; a command uses the oldest of the four, so none has ended, or the one after it. -/
def usedB : Bank := Bank.init.setHandle 0#4 ⟨HVer.empty 4, [HVer.empty 3, HVer.empty 2, HVer.empty 1]⟩

theorem witness_NewVersions : (usedB.newVersion 0#4 [2] HVer.empty).isSome = true ∧ usedB.newVersion 0#4 [1] HVer.empty = none
    ∧ (usedB.newVersion 0#4 [] HVer.empty).isSome = true := by decide

theorem witness_HandleStatus : (verOf .pending 15).cause < 16 ∧ placedLeaf.level < 4 ∧ placedLeaf.ceil < 8
    ∧ (HVer.empty 1).state = .empty ∧ (verOf .valid 0).state = .valid ∧ (verOf .revoked 0).state = .revoked := by decide

theorem witness_HandleAccessCompletes :
    ((handS (verOf .valid 0) 0x1FFFF8).own.readX 1#5).toNat % 8 = 0
    ∧ (∃ pl t, (handlePlace 0 none 15#4 none 0x1FFFF8 8 accR 0).run (handS (verOf .valid 0) 0x1FFFF8) = .ok pl t
      ∧ (t.readable 0 none pl.pa 8).isSome = true)
    ∧ (∃ pl t, (handlePlace 0 none 15#4 none 0x1FFFF8 8 accW 4).run (handS (verOf .valid 0) 0x1FFFF8) = .ok pl t ∧ (pl.pa == 0x3FFFF8) = true) :=
  ⟨by decide, okAnd_spec (by decide), okAnd_spec (by decide)⟩

theorem witness_HandleUseTraps :
    (handS (verOf .valid 0) 0).handleBank 0 = 0 ∧ ((handS (verOf .valid 0) 4).own.readX 1#5).toNat % 8 ≠ 0
    ∧ ((handS (HVer.empty 0) 8).own.handle 15#4).cur.state = .empty
    ∧ pageSize ((handS (verOf .valid 0) 0x200000).own.handle 15#4).cur.leaf.level < ((handS (verOf .valid 0) 0x200000).own.readX 1#5).toNat + 8
    ∧ ((handS (verOf .revoked 0) 0x1FFFF8).own.handle 15#4).cur.state = .revoked
    ∧ ((handS (verOf .revoked 0) 0x1FFFF8).own.readX 1#5).toNat + 8 ≤ pageSize ((handS (verOf .revoked 0) 0x1FFFF8).own.handle 15#4).cur.leaf.level
    ∧ ((handS (verOf .pending 0) 0).own.handle 15#4).cur.cause = 0 := by decide

/-- A valid handle 15 on a page that may not be written, at a page that the walk maps so too; and at one that no entry maps. -/
def deniedS (va : Nat) : State :=
  let s := walkS.modBank 0 (fun b => (xs [(1, 8)] b).setHandle 15#4
    ⟨{ HVer.empty 1 with state := .valid, leaf := { placedLeaf with va := va, pa := 0, level := 2, w := false } }, []⟩)
  { s with mem := s.mem.write 0x302008 (leBytes 8 0x1B) }

theorem witness_HandleRightsDenied :
    (deniedS 0x40000000).handleBank 0 = 0 ∧ ((deniedS 0x40000000).own.readX 1#5).toNat % 8 = 0
    ∧ ((deniedS 0x40000000).own.handle 15#4).cur.state = .valid
    ∧ ((deniedS 0x40000000).own.readX 1#5).toNat + 8 ≤ pageSize ((deniedS 0x40000000).own.handle 15#4).cur.leaf.level
    ∧ ((deniedS 0x40000000).own.handle 15#4).cur.leaf.denies ((deniedS 0x40000000).whoCore 0) accW ≠ 0
    ∧ (match (deniedS 0x40000000).walk 0 ((deniedS 0x40000000).whoCore 0).root 0x40000008 with
      | .ok l => l.denies ((deniedS 0x40000000).whoCore 0) accW != 0 | .error _ => false) = true
    ∧ (match (deniedS 0x80000000).walk 0 ((deniedS 0x80000000).whoCore 0).root 0x80000008 with | .ok _ => 0 | .error k => k) = 1
    ∧ (match durableRootS.walk 0 (durableRootS.whoCore 0).root 0x40000008 with | .ok _ => 9 | .error k => k) = 0
    ∧ (durableRootS.whoCore 0).die = 0 := by
  decide +kernel

theorem witness_DataQueuesComplete :
    (6#3 ∈ [0#3, 1#3, 3#3, 5#3, 6#3]) ∧ (∀ m ∈ (coreS id).members 0, (((coreS id).bank m).queueOf 6#3).length < 32)
    ∧ (7#3 ∈ [2#3, 4#3, 7#3]) ∧ (coreS (·.setQueue 7#3 [⟨5, false, 0, false⟩])).own.queueOf 7#3 = ⟨5, false, 0, false⟩ :: [] := by decide

theorem witness_WatermarkSet : ((coreS (xs [(1, 63)])).own.readX 1#5).toNat ≤ 63 ∧ 63 < ((coreS (xs [(1, 64)])).own.readX 1#5).toNat := by decide

/-- Command queues with 60 entries: room for the four of an `epush`. -/
def cmdS : State := coreS (fun b => b.modEngine .sx (fun g => { g with queue := List.replicate 60 ⟨.word 0, [], false⟩ }))

theorem witness_CommandsComplete : (∀ m ∈ cmdS.members 0, ((cmdS.bank m).engine .sx).level + 1 ≤ 64)
    ∧ (∀ m ∈ cmdS.members 0, ((cmdS.bank m).engine .sx).level + ((3#2).toNat + 1) ≤ 64) := by decide

/-- A bank whose copy engine has retired marker 1, with rendezvous 1 fired (the example of R253). -/
def rvS : State :=
  coreS (fun b =>
    let b := (xs [(1, 0xFFFFFFFE)] b).modEngine .cx (·.modRegs (fun r => { r with marker := some 1#32 }))
    { b with core := { b.core with rv := b.core.rv.set 1 ⟨.fired, 4#4, 0xFFFFFFFE#32⟩ } })

theorem witness_RendezvousComplete : rvS.own.core.rv[(1#3).toFin].state = .fired := by decide

theorem witness_RendezvousFires :
    (∃ t, exec (.rdvs 1#3 4#4 1#5) rvS = .next t ∧ (t.own.core.rv[(1#3).toFin].state == .fired) = true)
    ∧ (∃ t, exec (.rdvs 1#3 8#4 1#5) rvS = .next t ∧ (t.own.core.rv[(1#3).toFin].state == .armed) = true) :=
  ⟨nextAnd_spec (by decide +kernel), nextAnd_spec (by decide +kernel)⟩

theorem witness_TimeFormsComplete : ((coreS id).own.readX 1#5).toNat ≤ (coreS id).cycle := by decide

/-- The promise of word 63, of 64 issued. -/
def promB : Bank := { Bank.init with nextWord := 64, proms := [(63, ⟨63, .fallback, 9, false, false⟩)] }

theorem witness_PromiseValues : promB.nextWord ≤ 64 ∧ 0 < promB.nextWord ∧ promB.prom 0 = none ∧ 63 < promB.nextWord
    ∧ promB.prom 63 = some ⟨63, .fallback, 9, false, false⟩ := by decide

/-! ### Phases, tasks, gangs -/

/-- A bank with phase 0 closed and complete, two held bytes of it and one of phase 1. -/
def phaseS : State :=
  coreS (fun b => { b.modEngines (fun _ g => { g with phase := 1 }) with
    phase := 1, held := [⟨1, coreBase + 1, 7⟩, ⟨0, coreBase, 6⟩, ⟨0, coreBase, 5⟩] })

theorem witness_PhasesComplete : (∀ m ∈ (coreS id).members 0, ((coreS id).bank m).phase ≤ ((coreS id).bank m).committed)
    ∧ phaseS.handleBank 0 = 0 ∧ (∀ m ∈ phaseS.members 0, (phaseS.bank m).task.isSome = true
      ∧ (phaseS.bank m).committed < (phaseS.bank m).phase ∧ (phaseS.bank m).phaseDone (phaseS.bank m).committed = true) := by decide

theorem witness_CommitEffect : (phaseS.bank 0).held.find? (fun h => h.phase = (phaseS.bank 0).committed && h.addr = coreBase) = some ⟨0, coreBase, 6⟩
    ∧ (∀ h ∈ (phaseS.bank 0).held, h.phase = (phaseS.bank 0).committed → h.addr ≠ coreBase + 1)
    ∧ ⟨1, coreBase + 1, 7⟩ ∈ (phaseS.bank 0).held := by decide

/-- A core whose image has one live map, with a pre-emption request or none. -/
def safeptS (p : Option Nat) : State := (coreS (fun b => { b with preempt := p })).modCore 0 (fun c => { c with maps := [(0, 0)] })

theorem witness_TaskFormsComplete :
    (0#12).toNat < ((safeptS none).coreSt (coreOf 0)).maps.length ∧ (∀ m ∈ (safeptS none).saveSet 0, ((safeptS none).bank m).preempt = none)
    ∧ (∃ m ∈ (safeptS (some 3)).saveSet 0, ((safeptS (some 3)).bank m).preempt ≠ none)
    ∧ ((safeptS none).coreSt (coreOf 0)).maps.length ≤ (1#12).toNat
    ∧ (coreS id).own.gang = none ∧ (coreS id).settled 0 = true := by decide

theorem witness_WordFaults : (engS .cx []).atRest 0 (some .cx) ∧ (0x11 : Nat) ≠ 0x10 := by simp only [State.atRest, State.quietAll, Eng.atRest]; decide

theorem witness_TaskEnds : (coreS id).own.task = some placedTask ∧ placedTask.gsize = 1 ∧ placedTask.group0 = coreOf 0
    ∧ (∃ t, exec .tdone (coreS id) = .next t ∧ ((t.bank 0).task.isNone) = true) := ⟨by decide, by decide, by decide, nextAnd_spec (by decide)⟩

/-- A group of two cores, 0 and 1, whose banks 0 and 2 run a task; what each holds of a gang, and x1 of bank 0. -/
def gangS (x : Nat) (g0 g2 : Option Gang) : State :=
  let t : Task := { placedTask with gsize := 2 }
  (coreS (fun b => { xs [(1, x)] b with task := some t, gang := g0 })).modBank 2 (fun b => { b with task := some t, gang := g2 })

/-- A gang of the mask that has not formed, and one that has. -/
def waitG (m : BitVec 8) : Gang := ⟨m, [], false⟩
def formG : Gang := ⟨3#8, [0, 2], true⟩

/-- The gang of banks 0 and 2, formed. -/
def gang2 : State := gangS 3 (some formG) (some formG)

/-- The leader of a gang uses its handles; a marker that one member has retired, or both, where the leader arms a register. -/
def rvG (k : List Nat) : State :=
  k.foldl (fun s m => s.modBank m (fun b => b.modEngine .cx (·.modRegs (fun r => { r with marker := some 3#32 })))) gang2

theorem witness_GangLeader :
    gang2.handleBank 0 = 0 ∧ gang2.members 0 = [0, 2] ∧ gang2.atRest 0 none
    ∧ (∃ t, exec (.rdvs 1#3 4#4 1#5) (rvG [0, 2]) = .next t ∧ (t.own.core.rv[(1#3).toFin].state == .fired) = true)
    ∧ (∃ t, exec (.rdvs 1#3 4#4 1#5) (rvG [0]) = .next t ∧ (t.own.core.rv[(1#3).toFin].state == .armed) = true) :=
  ⟨by decide, by decide, by simp only [State.atRest, State.quietAll, Eng.atRest]; decide, nextAnd_spec (by decide +kernel),
    nextAnd_spec (by decide +kernel)⟩

/-- `tdone` in a formed gang, and in one that has not formed. -/
theorem witness_TaskFormsComplete_gang :
    (∃ g, gang2.own.gang = some g ∧ g.formed = true)
    ∧ (∀ g, (gangS 3 (some (waitG 3#8)) none).own.gang = some g → g.formed = false) ∧ (gangS 3 (some (waitG 3#8)) none).settled 0 = true :=
  ⟨⟨formG, by decide⟩, by decide, by decide⟩

theorem witness_GangForms_forms :
    let s := gangS 3 none (some (waitG 3#8))
    s.settled 0 = true ∧ (∀ g, s.own.gang = some g → g.formed = false) ∧ gangMaskOk s 1#5 ∧ ¬ gangDiffers s 1#5
    ∧ (∀ m ∈ gangOf s 1#5, m ≠ 0 → (s.bank m).gang = some ⟨3#8, [], false⟩ ∧ (s.bank m).quiet = true)
    ∧ (gangOf s 1#5).head? = some 0 :=
  ⟨by decide, by decide, ⟨by decide, by decide, by decide, _, rfl, by decide⟩, same_mask, by decide, by decide⟩
where
  same_mask : ¬ gangDiffers (gangS 3 none (some (waitG 3#8))) 1#5 := by
    have h : ∀ m ∈ maskBanks 0 255, ∀ g ∈ ((gangS 3 none (some (waitG 3#8))).bank m).gang, g.mask = 3#8 := by decide
    rintro ⟨m, hm, _, g, hg, _, hne⟩
    exact hne (h m hm g hg)

/-- The last member's `gang`, where the leader waits. -/
theorem witness_GangForms_last :
    let s : State := { gangS 3 (some (waitG 3#8)) none with cur := { (coreS id).cur with bid := 2 } }
    let s := s.modBank 2 (xs [(1, 3)])
    s.settled 2 = true ∧ (∀ g, s.own.gang = some g → g.formed = false)
    ∧ (∀ m ∈ gangOf s 1#5, m ≠ 2 → (s.bank m).gang = some ⟨3#8, [], false⟩ ∧ (s.bank m).quiet = true)
    ∧ (gangOf s 1#5).head? = some 0 ∧ (s.own.readX 1#5).toNat = 3 ∧ (∀ m ∈ maskBanks 2 255, ∀ g ∈ (s.bank m).gang, g.mask = 3#8) := by
  decide

theorem witness_GangForms_waits :
    let s := gangS 3 none none
    s.settled 0 = true ∧ gangMaskOk s 1#5 ∧ (∃ m ∈ gangOf s 1#5, m ≠ 0 ∧ (s.bank m).gang = none) ∧ ¬ gangDiffers s 1#5 :=
  ⟨by decide, ⟨by decide, by decide, by decide, _, rfl, by decide⟩, by decide, no_gang⟩
where
  no_gang : ¬ gangDiffers (gangS 3 none none) 1#5 := by
    have h : ∀ m ∈ maskBanks 0 255, ((gangS 3 none none).bank m).gang = none := by decide
    rintro ⟨m, hm, _, g, hg, _, _⟩
    rw [h m (by exact hm)] at hg
    exact absurd hg (by simp)

/-- A member that waits with another mask; and a core outside the mask whose waiting `gang` names this core. -/
theorem witness_GangForms_differs :
    let s := gangS 3 none (some (waitG 6#8))
    s.settled 0 = true ∧ gangMaskOk s 1#5 ∧ gangDiffers s 1#5 :=
  ⟨by decide, ⟨by decide, by decide, by decide, _, rfl, by decide⟩, 2, by decide, by decide, waitG 6#8, rfl, by decide, by decide⟩

/-- Masks against the rules: one core, a core outside the group, without the issuing core, a higher bit. -/
theorem witness_GangForms_bad : ∀ x ∈ [1, 5, 6, 0x103], (gangS x none none).settled 0 = true ∧ ¬ gangMaskOk (gangS x none none) 1#5 := by
  intro x hx
  refine ⟨?_, ?_⟩
  · simp only [List.mem_cons, List.not_mem_nil, or_false] at hx; rcases hx with rfl | rfl | rfl | rfl <;> decide
  · rintro ⟨h1, h2, h3, k, hk, h4⟩
    have hk' : (gangS x none none).own.task = some { placedTask with gsize := 2 } := by
      simp only [List.mem_cons, List.not_mem_nil, or_false] at hx; rcases hx with rfl | rfl | rfl | rfl <;> decide
    rw [hk'] at hk
    cases hk
    revert h1 h2 h3 h4
    simp only [List.mem_cons, List.not_mem_nil, or_false] at hx; rcases hx with rfl | rfl | rfl | rfl <;> decide

/-- `gang` again in a formed gang. -/
theorem witness_GangForms_again : gang2.settled 0 = true ∧ ∃ g, gang2.own.gang = some g ∧ g.formed = true := ⟨by decide, formG, by decide⟩

/-- `ungang` with no gang, with one that has not formed, and in a follower. -/
theorem witness_GangEnds_traps :
    (coreS id).settled 0 = true ∧ (∀ h, (coreS id).own.gang = some h → h.formed = false)
    ∧ (gangS 3 (some (waitG 3#8)) none).settled 0 = true ∧ (∀ h, (gangS 3 (some (waitG 3#8)) none).own.gang = some h → h.formed = false)
    ∧ (let s : State := { gang2 with cur := { (coreS id).cur with bid := 2 } }
       s.settled 2 = true ∧ ∀ h ∈ s.own.gang, h.members.head? = some 0) := by decide

theorem witness_GangEnds :
    (gangS 3 (some formG) (some formG)).own.gang = some formG ∧ formG.formed = true ∧ formG.members.head? = some 0
    ∧ (gangS 3 (some formG) (some formG)).settled 0 = true ∧ (coreS id).own.gang = none
    ∧ ({ gangS 3 (some formG) (some formG) with cur := { (coreS id).cur with bid := 2 } } : State).own.gang = some formG
    ∧ (∃ m, formG.members.head? = some m ∧ m ≠ 2) := ⟨by decide, by decide, by decide, by decide, by decide, by decide, 0, by decide, by decide⟩

/-- Condition bits of die 0's cluster 0 all clear, or all set; x1 is a mask of a group of one core, whose bits are 0 and 1. -/
def condS (x : Nat) (c : BitVec 16) : State := (coreS (xs [(1, x), (2, 1)])).modDie 0 (fun d => { d with cond := Vector.replicate 3 c })

theorem witness_ConditionBits :
    2 ^ ((condS 4 0).own.condAt 0).2.2 ≤ ((condS 4 0).own.readX 1#5).toNat ∧ (condS 4 0).settled 0 = true
    ∧ ((condS 3 0xFFFF#16).own.readX 1#5).toNat < 2 ^ ((condS 3 0xFFFF#16).own.condAt 0).2.2
    ∧ (∀ i, i < 2 → (3 : Nat).testBit i = true → (condBits (condS 3 0xFFFF#16) (condS 3 0xFFFF#16).own).getLsbD (0 + i) = true)
    ∧ (3 : Nat).testBit 1 = true ∧ (condBits (condS 3 0#16) (condS 3 0#16).own).getLsbD 1 = false
    ∧ ((condS 3 0).own.condAt 0).2 = (0, 2) ∧ (condS 3 0).own.task = some placedTask := by decide

/-- x1 is a record's address. -/
def nsubS (x n : Nat) : State := { coreS (xs [(1, x)]) with
  nests := List.replicate n { parseNest [] 1 0 0 0 0 with die := 0 } }

theorem witness_NestSubmission :
    (nsubS 0x200040 0).settled 0 = true ∧ ((nsubS 0x200040 0).own.readX 1#5).toNat % 128 ≠ 0
    ∧ ((nsubS 0x200080 0).own.readX 1#5).toNat % 128 = 0 ∧ 256 ≤ (nsubS 0x200080 256).nestCount 0 ∧ (nsubS 0x200080 255).nestCount 0 < 256
    ∧ (∃ bs t, (loadBlock ((nsubS 0x3FFF80 255).issues.whoCore 0) 0x3FFF80 128).run (nsubS 0x3FFF80 255).issues = .ok bs t ∧ (bs.length == 128) = true) :=
  ⟨by decide, by decide, by decide, by decide +kernel, by decide +kernel, okAnd_spec (by decide +kernel)⟩

/-! ### The tensor directory, fault records, energy counters -/

/-- A name bound in slot 5 of die 0 to an object with a number of opens; x1 is an open block or a handle, x2 a deadline. -/
def dirS (opens x1 x2 : Nat) : State := { coreS (xs [(1, x1), (2, x2)]) with
  slots := [(5, { Slot.init with used := true, name := 0#64, bound := true, opens := opens, desc := List.replicate 64 0, gen := 1 })], cycle := 9 }

/-- The same directory, with a name that is not bound in the open block. -/
def unboundS (x2 : Nat) : State := { dirS 0 0x3FFF80 x2 with mem := (dirS 0 0 0).mem.write 0x3FFF80 [1] }

/-- The same, where bank 0 waits for the name until a deadline. -/
def waitingD (x : Nat) : State := { unboundS x with dirWaiters := [⟨0, 0, 1#64, 0x3FFF80, 3#5, x⟩] }

theorem witness_DirectoryOpens :
    (dirS 0 0x3FFF80 0).settled 0 = true
    ∧ (∃ q t, (openBlock 1#5).run (dirS 0 0x3FFF80 0).issues = .ok q t ∧ (decide ((dirS 0 0x3FFF80 0).boundObject 0 q.2 = some 5)) = true)
    ∧ (∃ q t, (openBlock 1#5).run (unboundS 9).issues = .ok q t ∧ ((unboundS 9).boundObject 0 q.2).isNone = true)
    ∧ ((dirS (2 ^ 32 - 1) 0x3FFF80 0).slot 5).opens = 2 ^ 32 - 1 ∧ ((dirS (2 ^ 32 - 2) 0x3FFF80 0).slot 5).opens ≠ 2 ^ 32 - 1
    ∧ (unboundS 9).own.readX 2#5 ≠ 0#64 ∧ ((unboundS 9).own.readX 2#5).toNat ≤ (unboundS 9).cycle
    ∧ (unboundS 10).cycle < ((unboundS 10).own.readX 2#5).toNat ∧ (unboundS 0).own.readX 2#5 = 0#64
    ∧ (∀ k ∈ (unboundS 9).dirWaiters, k.bid ≠ 0) ∧ (waitingD 10).dirWaiters.find? (·.bid = 0) = some ⟨0, 0, 1#64, 0x3FFF80, 3#5, 10⟩
    ∧ (waitingD 10).cycle < 10 ∧ (waitingD 9).dirWaiters.find? (·.bid = 0) = some ⟨0, 0, 1#64, 0x3FFF80, 3#5, 9⟩ ∧ 9 ≤ (waitingD 9).cycle :=
  ⟨by decide, okAnd_spec (by decide), okAnd_spec (by decide), by decide, by decide, by decide, by decide, by decide, by decide,
    by decide, by decide, by decide, by decide, by decide⟩

/-- A descriptor with a bad field, and a good one. -/
def badD : List Byte := List.replicate 63 0 ++ [1]
def goodD : List Byte := List.replicate 64 0

theorem witness_BindStep :
    (∃ e ∈ [((1#64, none) : BindEntry)], e.2 = none ∧ (dirS 0 0 0).boundObject 0 e.1 = none)
    ∧ (∀ e ∈ [((1#64, some badD) : BindEntry)], e.2 = none → (dirS 0 0 0).boundObject 0 e.1 ≠ none)
    ∧ (∃ e ∈ [((1#64, some badD) : BindEntry)], ∃ d, e.2 = some d ∧ badDesc d = true)
    ∧ ((dirS 0 0 0).bindStep 0 [(1#64, some goodD), (0#64, none)]).1 < 2 ^ 63 :=
  ⟨⟨_, List.mem_singleton.2 rfl, rfl, by decide⟩, by decide, ⟨_, List.mem_singleton.2 rfl, _, rfl, by decide⟩, by decide +kernel⟩

/-- A VF whose quota is used up, and whose counter is at its last value. -/
theorem witness_BindStep_full :
    let s := (dirS 0 0 0).setVf 0 { (dirS 0 0 0).vf 0 with quota := 1, gen := 2 ^ 63 - 1 }
    let es : List BindEntry := [(1#64, some goodD)]
    (¬ ∃ e ∈ es, e.2 = none ∧ s.boundObject 0 e.1 = none) ∧ (¬ ∃ e ∈ es, ∃ d, e.2 = some d ∧ badDesc d = true)
    ∧ es.filter (·.2.isSome) ≠ [] ∧ (s.vf 0).quota < s.vfSlots 0 + (es.filter (·.2.isSome)).length
    ∧ (s.bindStep 0 [(0#64, some goodD)]).1 = 2 ^ 63 + 2 ∧ (s.bindStep 0 [(0#64, none)]).1 = 0 := by
  refine ⟨?_, ?_, by decide, by decide, by decide +kernel, by decide +kernel⟩
  · rintro ⟨e, he, h, _⟩
    cases List.mem_singleton.1 he
    exact absurd h (by simp)
  · rintro ⟨e, he, d, h, hd⟩
    cases List.mem_singleton.1 he
    cases h
    exact absurd hd (by decide)

/-- A bind list at the end of the page: one entry that unbinds the bound name; x2 is a descriptor. -/
def listS (n : Byte) : State := { dirS 0 0x3FFFE0 0x3FFFC0 with mem := (dirS 0 0 0).mem.write 0x3FFFE0 [n] }

theorem witness_DirectoryBinds :
    (listS 1).settled 0 = true ∧ (listS 1).own.readX 2#5 ≠ 0#64 ∧ (dirS 0 0 0).own.readX 2#5 = 0#64
    ∧ (∃ desc t, (loadDesc ((listS 1).own.readX 2#5).toNat).run (listS 1).issues = .ok desc t ∧ (desc.length == 64) = true)
    ∧ (∃ l t, (loadBindList ((listS 1).own.readX 1#5).toNat).run (listS 1).issues = .ok l t ∧ l.isSome = true)
    ∧ (∃ l t, (loadBindList ((listS 33).own.readX 1#5).toNat).run (listS 33).issues = .ok l t ∧ l.isNone = true) :=
  ⟨by decide, by decide, by decide, okAnd_spec (by decide), okAnd_spec (by decide), okAnd_spec (by decide)⟩

/-- Handles in x1: null, of slot 5 (incarnation 1), and of an incarnation it does not have. -/
theorem witness_DirectoryCloses :
    (dirS 1 0 0).settled 0 = true ∧ bits ((dirS 1 0 0).own.readX 1#5).toNat 0 32 = 0
    ∧ (let s := dirS 1 0x50001 0
       let h := bits (s.own.readX 1#5).toNat 0 32
       let i := bits h 30 2 * 16384 + bits h 16 14
       h ≠ 0 ∧ (s.slot i).inc = bits h 0 16 ∧ (s.slot i).vf = s.own.vfId ∧ (s.slot i).opens ≠ 0)
    ∧ ((dirS 1 0x50002 0).slot 5).inc ≠ bits (bits ((dirS 1 0x50002 0).own.readX 1#5).toNat 0 32) 0 16 := by decide

theorem witness_EnergyCounters :
    (let n := ((coreS (xs [(1, 3 * 512)])).own.readX 1#5).toNat
     bits n 13 51 = 0 ∧ bit n 12 = false ∧ bits n 0 9 = (coreS id).own.vfId ∧ bit n 11 = false)
    ∧ bit ((coreS (xs [(1, 2048)])).own.readX 1#5).toNat 11 = true
    ∧ (let n := ((coreS (fun b => inSuper (xs [(1, 4096 + 1536 + 23)] b))).own.readX 1#5).toNat
       bits n 13 51 = 0 ∧ bit n 12 = true ∧ bit n 11 = false ∧ bits n 0 9 ≤ 23)
    ∧ bits ((coreS (xs [(1, 8192)])).own.readX 1#5).toNat 13 51 ≠ 0
    ∧ bits ((coreS (xs [(1, 1)])).own.readX 1#5).toNat 0 9 ≠ (coreS id).own.vfId
    ∧ 23 < bits ((coreS (xs [(1, 4096 + 24)])).own.readX 1#5).toNat 0 9 ∧ (coreS id).own.core.priv = .user := by decide

/-- A supervisor whose page it may reach, x1 an address in it, and doublewords of memory. -/
def ctxS (x1 : Nat) (l : List (Nat × Nat)) : State :=
  let s := (coreS (fun b => inSuper (xs [(1, x1)] b))).modCore 0 (fun c => { c with tlb := [⟨0, 0, { placedLeaf with u := false }⟩] })
  { s with mem := l.foldl (fun m p => m.write p.1 (leBytes 8 p.2)) s.mem }

/-- A supervisor of VF 0 with one fault record in a state, in die 3 at index 4,095. -/
def faultS (st x1 x2 : Nat) : State :=
  ((ctxS x1 []).modBank 0 (xs [(2, x2)])).setFault 3 4095
    { va := 0, vf := 0, asid := 0, code := 1, access := 1, dups := 0, state := st, core := 0, bank := 0, agent := 0, stamp := 0 }

theorem witness_FaultQueueForms :
    (faultS 1 0x3FFFE0 0).settled 0 = true ∧ (faultS 1 0x3FFFE0 0).own.core.priv = .super ∧ ((faultS 1 0x3FFFE0 0).own.readX 1#5).toNat % 32 = 0
    ∧ (∃ p t, (translate ((ctxS 0x3FFFE0 []).issues.whoCore 0) 0x3FFFE0 accW 0).run (ctxS 0x3FFFE0 []).issues = .ok p t
      ∧ (t.oldestNew 0).isNone = true)
    ∧ (∃ p t, (translate ((faultS 1 0x3FFFE0 0).issues.whoCore 0) 0x3FFFE0 accW 0).run (faultS 1 0x3FFFE0 0).issues = .ok p t
      ∧ (t.oldestNew 0).isSome = true)
    ∧ (let n := ((faultS 2 (2 ^ 63 + 3 * 4096 + 4095) 1).own.readX 1#5).toNat
       bit n 63 = true ∧ bits n 14 49 = 0 ∧ bits n 12 2 = 3 ∧ bits n 0 12 = 4095)
    ∧ ((PMap.find ((faultS 2 0 0).die 3).faults 4095).map (fun r => (r.state, r.vf))) = some (2, 0)
    ∧ (faultS 2 0 0).own.readX 2#5 = 0#64 ∧ (faultS 2 0 1).own.readX 2#5 = 1#64
    ∧ ((PMap.find ((faultS 1 0 0).die 3).faults 4095).map (·.state)) = some 1 :=
  ⟨by decide, by decide, by decide, okAnd_spec (by decide), okAnd_spec (by decide), by decide, by decide, by decide, by decide, by decide⟩

/-! ### Virtual contexts -/

/-- A context at 0x200000, whose fault queue at 0x201000 has capacity 16 and head and tail as given. -/
def queueS (hd tl : Nat) : State := ctxS 0x200000 [(0x200018, 0x201000), (0x201000, 4), (0x201008, hd), (0x201010, tl)]

theorem witness_ContextForms_vcfp :
    (queueS 0 0).settled 0 = true ∧ (queueS 0 0).own.core.priv = .super
    ∧ (∃ q t, (ctxQueue ((queueS 0 0).issues.whoCore 0) 0x200000).run (queueS 0 0).issues = .ok q t ∧ (q.2.1 == q.2.2.1) = true)
    ∧ (∃ q t, (show M _ from do
        let q ← ctxQueue ((queueS 1 0).whoCore 0) 0x200000
        let _ ← translateSpan ((queueS 1 0).whoCore 0) (q.1 + 16) 8 accW 0
        storeVa ((queueS 1 0).whoCore 0) (q.1 + 16) 8 ((q.2.2.1 + 1) % 2 ^ 64)
        return q).run (queueS 1 0).issues = .ok q t ∧ (q.2.1 != q.2.2.1) = true) :=
  ⟨by decide, by decide, okAnd_spec (by decide +kernel), okAnd_spec (by decide +kernel)⟩

/-- A record at 0x202000 of the context at 0x200000, at depth 1 of resident capacity 1; its resolution is slot 0, or the value given. -/
def recordS (w3 : Nat) : State :=
  ctxS 0x202000 [(0x202000, 0x200000), (0x202008, 2 ^ 32), (0x202018, w3), (0x200048, 1), (0x200030, 2 ^ 48), (0x200028, 0x203000)]

theorem witness_ContextForms_vcrep :
    (recordS (2 ^ 62)).settled 0 = true ∧ 0x202000 % 32 = 0
    ∧ (∃ q t, (show M _ from do
        let r ← loadBlock ((recordS (2 ^ 62)).whoCore 0) 0x202000 32
        let q ← ctxReplay ((recordS (2 ^ 62)).whoCore 0) (blockWord r 0)
        let _ ← translateSpan ((recordS (2 ^ 62)).whoCore 0) (blockWord r 0 + 64) 2 accW 0
        storeVa ((recordS (2 ^ 62)).whoCore 0) (blockWord r 0 + 64) 2 0
        return (r, q)).run (recordS (2 ^ 62)).issues = .ok q t
        ∧ (bits (blockWord q.1 3) 62 2 == 1 && decide (bits (blockWord q.1 3) 0 16 < q.2.2.1) && q.2.1 == 1 && bits (blockWord q.1 1) 32 8 == q.2.1) = true)
    ∧ (∃ q t, (show M _ from do
        let r ← loadBlock ((recordS 0).whoCore 0) 0x202000 32
        let q ← ctxReplay ((recordS 0).whoCore 0) (blockWord r 0)
        return (r, q)).run (recordS 0).issues = .ok q t ∧ (bits (blockWord q.1 3) 62 2 == 0) = true) :=
  ⟨by decide, by decide, okAnd_spec (by decide +kernel), okAnd_spec (by decide +kernel)⟩

theorem witness_ContextForms_vcsync :
    (phaseS.own.committed < phaseS.own.phase) ∧ (queueS 0 0).own.phase ≤ (queueS 0 0).own.committed
    ∧ (∃ q t, (show M _ from do
        let _ ← translateSpan ((queueS 0 0).whoCore 0) (0x200000 + 64) 8 accW 0
        let p ← translate ((queueS 0 0).whoCore 0) (0x200000 + 72) accW 0
        storeVa ((queueS 0 0).whoCore 0) (0x200000 + 64) 8 (2 ^ 64 - 1)
        storeVa ((queueS 0 0).whoCore 0) (0x200000 + 72) 1 0
        return p).run (queueS 0 0) = .ok q t ∧ (q.pa == 0x200048) = true) :=
  ⟨by decide, by decide, okAnd_spec (by decide +kernel)⟩

/-! ### Engine words: control -/

theorem witness_EngineFlow :
    (((engS .cx [] (fun r => { r with upc := some 8190 })).bank 0).engine .cx).regs.upc = some 8190 := by decide

theorem witness_EngineFlow_last :
    (((engS .cx [] (fun r => { r with upc := some 8191 })).bank 0).engine .cx).regs.upc = some 8191
    ∧ (((engS .cx [] (fun r => { r with upc := none })).bank 0).engine .cx).regs.upc = none ∧ Engine.mx ≠ .cx := by decide

/-- Stacks of every depth the clauses name, with room and without. -/
theorem witness_StackWords :
    (engS .mx []).cur.eng = some .mx ∧ ((engS .mx (List.replicate 7 1)).ownRegs .mx).pstack.length < 8
    ∧ 8 ≤ ((engS .mx (List.replicate 8 1)).ownRegs .mx).pstack.length
    ∧ ((engS .mx [3, 2, 1, 0, 0, 0, 0, 0]).ownRegs .mx).pstack = 3 :: 2 :: 1 :: [0, 0, 0, 0, 0]
    ∧ ((engS .mx [1, 0, 0, 0, 0, 0, 0]).ownRegs .mx).pstack = 1 :: [0, 0, 0, 0, 0, 0]
    ∧ ((engS .mx []).ownRegs .mx).pstack = [] ∧ ((engS .mx [5]).ownRegs .mx).pstack.length < 2
    ∧ ((engS .mx [5, 6]).ownRegs .mx).pstack.length < 3 ∧ Engine.sx ≠ .vx := by decide

theorem witness_CallWords :
    ((engS .sx [8191, 7]).ownRegs .sx).pstack = 8191#64 :: [7] ∧ (8191#64).toNat ≤ 8191 ∧ 8191 < (8192#64).toNat
    ∧ ((engS .sx [8191] (fun r => { r with rstack := [1, 2, 3] })).ownRegs .sx).rstack.length < 4
    ∧ 4 ≤ ((engS .sx [8191] (fun r => { r with rstack := [1, 2, 3, 4] })).ownRegs .sx).rstack.length
    ∧ ((engS .sx [8191]).ownRegs .sx).upc = some 0 ∧ ((engS .sx [8191] (fun r => { r with upc := none })).ownRegs .sx).upc = none
    ∧ ((engS .sx []).ownRegs .sx).pstack = [] ∧ ((engS .sx []).ownRegs .sx).rstack = []
    ∧ ((engS .sx [] (fun r => { r with rstack := [9] })).ownRegs .sx).rstack = 9 :: [] := by decide

/-- A loop of level 2 at word 0: its end in the shadow, in the store behind the word, or nowhere; a count on the stack. -/
def loopS (v : Word) (f : LoopReg → LoopReg) (store : List Half) : State :=
  (engS .cx [v] (fun r => r.modLoop 2#2 f)).modCore 0 (fun c => { c with store := c.store.set (engIx .cx) store })

theorem witness_LoopWords :
    let shadow := loopS 1 (fun g => { g with sle := some 40 }) [0x0C02]
    let found := loopS 0 id [0x0C02, 0, 0x0E02]
    let nowhere := loopS 1 id [0x0C02, 0x0E01]
    (shadow.ownRegs .cx).upc = some 0 ∧ (shadow.ownRegs .cx).loops[loopIx 2#2].sle = some 40 ∧ (shadow.ownRegs .cx).loops[loopIx 2#2].active = false
    ∧ (found.ownRegs .cx).loops[loopIx 2#2].sle = none ∧ firstEndl ((found.coreSt 0).store[engIx .cx]) 2#2 0 = some 2
    ∧ (found.ownRegs .cx).pstack = 0#64 :: [] ∧ (0#64).setWidth 32 = 0#32 ∧ (1#64).setWidth 32 ≠ 0#32
    ∧ firstEndl ((nowhere.coreSt 0).store[engIx .cx]) 2#2 0 = none ∧ (nowhere.ownRegs .cx).loops[loopIx 2#2].sle = none
    ∧ (let last := loopS 0 (fun g => { g with le := 0, lc := 1, active := true }) []
       (last.ownRegs .cx).upc = some (last.ownRegs .cx).loops[loopIx 2#2].le ∧ (last.ownRegs .cx).loops[loopIx 2#2].lc.toNat ≤ 1)
    ∧ 1 < ((loopS 0 (fun g => { g with lc := 2, active := true }) []).ownRegs .cx).loops[loopIx 2#2].lc.toNat
    ∧ (shadow.ownRegs .cx).loops[loopIx 2#2].active = false := by decide

theorem witness_FirstEndl : firstEndl [0x0C02, 0x0E02, 0x0E02] 2#2 0 = some 1 ∧ firstEndl [0x0E02] 2#2 0 = none := by decide

theorem witness_LoopRegisters :
    (engS .vx [8191]).cur.eng = some .vx ∧ ((engS .vx [8191]).ownRegs .vx).pstack = 8191#64 :: [] ∧ (8191#64).toNat ≤ 8191
    ∧ 8191 < (8192#64).toNat ∧ ((engS .vx (List.replicate 7 1)).ownRegs .vx).pstack.length < 8 := by decide

/-- Tokens of the vector engine towards sx, and q0 with an element, compared or not. -/
def tokS (n : Nat) : State := (engS .vx [5]).modBank 0 (fun b => b.setTokens .vx .sx (List.replicate n 0))

def qinS (checked : Nat) : State :=
  (engS .vx (List.replicate 7 0)).modBank 0 (fun b => (b.setQueue 0#3 [⟨9, true, 0, false⟩]).modEngine .vx (fun g => { g with checked := [(0, checked)] }))

/-- q2 with a number of elements, in a bank alone or in a follower of a gang. -/
def qoutS (n : Nat) (g : Option Gang) : State :=
  (engS .vx [5]).modBank 0 (fun b => { b.setQueue 2#3 (List.replicate n ⟨1, true, 0, false⟩) with gang := g })

theorem witness_QueueWords :
    ((tokS 15).own.tokens .vx .sx).length < 16 ∧ 16 ≤ ((tokS 16).own.tokens .vx .sx).length
    ∧ (tokS 2).own.tokens .vx .sx = 0 :: [0] ∧ (tokS 0).own.tokens .vx .sx = []
    ∧ (qinS 1).own.queueOf 0#3 = ⟨9, true, 0, false⟩ :: [] ∧ ((qinS 1).ownRegs .vx).pstack.length < 8
    ∧ PMap.get 0 ((qinS 1).own.engine .vx).checked (0#3).toNat ≠ 0 ∧ PMap.get 0 ((qinS 0).own.engine .vx).checked (0#3).toNat = 0 ∧ (tokS 0).own.queueOf 0#3 = []
    ∧ ((qoutS 31 none).ownRegs .vx).pstack = 5#64 :: [] ∧ (qoutS 31 none).handleBank 0 = 0 ∧ ((qoutS 31 none).own.queueOf 2#3).length < 32
    ∧ 32 ≤ ((qoutS 32 none).own.queueOf 2#3).length ∧ (qoutS 0 (some ⟨3#8, [2, 0], true⟩)).handleBank 0 ≠ 0 := by decide

/-! ### Copy words -/

/-- The operands of a copy word in the copy engine of bank 0, its matrix ring 0 as given. -/
def cpS (st : List Word) (g : Ring) : State :=
  (engS .cx st).modBank 0 (fun b => b.modEngine .mx (·.modRegs (fun r => { r with rings := r.rings.set 0 g })))

/-- A ring of two slots of 512 bytes, with filled slots. -/
def ring2 (full : List Nat) : Ring := { Ring.init with size := 2, slots := 2, full := full }

/-- What the hypotheses of a copy word's issue ask for. -/
def issuable (i : Instr) (s : State) : Bool :=
  match copyForm i with
  | none => false
  | some c =>
    let st := (s.ownRegs .cx).pstack
    decide (c.pops ≤ st.length ∧ st.length ≤ 8) && okAnd ((c.plan (st.take c.pops)).run s) (fun pl t =>
      pl.extents.all (fun x => x.ok
        && (decide (x.kind ≠ .slice) || decide (bits x.addr.toNat 0 22 < t.stagingSize 0 ∧ (x.len = 0 ∨ bits x.addr.toNat 0 22 + x.first + x.len ≤ t.stagingSize 0))))
      && (decide (c.dst ≠ .ring) || decide (((t.ownRegs .mx).rings[Fin.ofNat 4 c.ring]).slots ≠ 0
        ∧ pl.slot ≤ 256 * ((t.ownRegs .mx).rings[Fin.ofNat 4 c.ring]).size ∧ (pl.empty = false → t.own.ringFull c.ring = false)))
      && (match PMap.find t.own.proms (t.own.nextWord % 64) with
        | some p => decide (p.state ≠ .promised ∧ p.state ≠ .waiting) | none => true))

/-- Each copy word: local extents at the end of the scratchpad, a slice at the end of its staging area, the last slot of a ring. -/
theorem witness_CopyWordsIssue :
    issuable (.cpy 0#3 1#2 1#2 0#2) (cpS [64, 0x2FFFC0, 0] Ring.init) = true
    ∧ issuable (.cpy 0#3 2#2 3#2 0#2) (cpS [512, 0x1FFE00] (ring2 [0])) = true
    ∧ issuable (.cpy2 0#3 1#2 3#2 0#2) (cpS [2, 256, 256, 0] (ring2 [])) = true
    ∧ issuable (.cpyz 0#3 1#2) (cpS [1, 0, 0, 0x2FFF00, 0] Ring.init) = true
    ∧ issuable (.gath 0#3 1#2 1#2 0#2) (cpS [1, 64, 0x2FFFFC, 0, 0, 0x2FFFC0] Ring.init) = true
    ∧ issuable (.scat 0#3 1#2 0#2) (cpS [1, 64, 0x2FFFFC, 0, 0, 0] Ring.init) = true
    ∧ issuable (.pfch 0#3 0#2) (cpS [64, 0] Ring.init) = true
    ∧ issuable (.cpyd 0#3 1#2 0#2) (cpS [0, 0, 0] Ring.init) = true
    ∧ issuable (.fill 0#3 1#2) (cpS [16, 1, 0x2FFFC0] Ring.init) = true
    ∧ issuable (.rfeed 0#3 1#2 0#2) (cpS [2, 512, 1, 512, 0, 0] (ring2 [0])) = true
    ∧ issuable (.cpyg 0#3 1#2 0#2) ((cpS [64, 7, 0xF0000000001FFFF8#64, 0, 0xF000000000000000#64] Ring.init).modBank 0
      (fun b => (b.setHandle 15#4 ⟨verOf .valid 0, []⟩).modEngine .cx (fun g => { g with entry := some ⟨.call 0, List.replicate 16 1, false⟩ }))) = true := by
  decide +kernel

theorem witness_DeadlineWord : (engS .cx [9]).cur.eng = some .cx ∧ ((engS .cx [9]).ownRegs .cx).pstack = 9#64 :: [] := by decide

/-- A word in flight that moves a line inside the scratchpad. -/
def flightOf (reqs : List Req) : Flight :=
  { n := 0, srcKind := .loc, dstKind := .loc, pol := 0, reqs := reqs, done := 0, persist := false, stores := [], lines := [], vers := [],
    phase := 0, tick := 0, waiter := none }

def flightS : State :=
  coreS (fun b => { b with nextWord := 1, flights := [flightOf [.move 0 0x2FFFC0 64]], proms := [(0, ⟨0, .promised, 1, false, false⟩)] })

theorem witness_CopyRequests : (pieces 60 8)[1]? = some (4, 4) := by decide

theorem witness_CopyCompletes : ∃ c, flightS.claimAll 0 = some c ∧ (∀ x ∈ (c.bank 0).flights, x.waiter = none)
    ∧ c.nextFlight 0 [] = some 0 ∧ ((c.bank 0).headFirst 0).flights = [flightOf [.move 0 0x2FFFC0 64]]
    ∧ ∃ q t, (runReqs 0 (flightOf [.move 0 0x2FFFC0 64]) [.move 0 0x2FFFC0 64]).run (c.modBank 0 (·.headFirst 0)) = .ok q t
      ∧ ((t.bank 0).flights.length == 1 && ((t.bank 0).prom 0).isSome) = true :=
  ⟨_, rfl, by decide, by decide, by decide, okAnd_spec (by decide +kernel)⟩

/-! ### Select words -/

/-- Campion with operands, and 16 bytes of keys at the start of the scratchpad. -/
def selS (st : List Word) : State :=
  let s := engS .sx st
  { s with mem := s.mem.write coreBase [1, 0, 0, 0x80, 3, 0, 0, 0x80, 1, 0, 0, 0x80, 2, 0, 0, 0x80] }

theorem witness_SelectWords :
    (selS [4, 0, 0x2FFFF0]).cur.eng = some .sx ∧ ((selS [4, 0, 0x2FFFF0]).ownRegs .sx).pstack = [4, 0, 0x2FFFF0] ++ [] ∧ 1 ≤ (4#64).toNat ∧ (4#64).toNat ≤ 2 ^ 20
    ∧ arrayOk 0 ((4#64).toNat * selectWidth 0#4) (selectWidth 0#4) = true ∧ arrayOk 0x2FFFF0 ((4#64).toNat * 4) 4 = true
    ∧ ((selS [4, 0, 0x2FFFF0]).localBytes 0 .sx 0 16).isSome = true
    ∧ (0#64).toNat + (4#64).toNat * selectWidth 0#4 ≤ (0x2FFFF0#64).toNat ∧ arrayOk 4 ((4#64).toNat * 4) 4 = true
    ∧ ((selS [0, 4, 0, 0x2FFC00]).ownRegs .sx).pstack = [0, 4, 0, 0x2FFC00] ++ [] ∧ arrayOk 0x2FFC00 1024 4 = true
    ∧ ((selS [4, 4, 0]).ownRegs .sx).pstack = [4, 4, 0] ++ [] ∧ ((selS [0, 4, 0, 0]).ownRegs .sx).pstack = [0, 4, 0, 0] ++ []
    ∧ ((selS [0x8000000100000001, 4, 0, 0, 16, 0x2FFFF4]).ownRegs .sx).pstack = [0x8000000100000001, 4, 0, 0, 16, 0x2FFFF4] ++ []
    ∧ selected 0x80000001 1 [0x80000001, 0x80000003, 0x80000001, 0x80000002] = [0, 1, 3] ∧ arrayOk 0x2FFFF4 (3 * 4) 4 = true := by decide

theorem witness_SelectMeaning : 1 ≤ 4 ∧ 4 ≤ [7, 9, 7, 8].length ∧ (∃ t ∈ [7, 9, 7, 8], above [7, 9, 7, 8] t < 4) := by decide

/-! ### Vector words -/

/-- The vector engine in a format, with regions d0 to d3 of 16 elements side by side in the scratchpad and d4, d5 of one stream, mask
and predicates as at the start of a task; q0 holds one compared element. -/
def vecS (fmt : Nat) (st : List Word) : State :=
  let rg := fun (base n : Nat) => (⟨BitVec.ofNat 64 base, BitVec.ofNat 64 (0x10000 + n)⟩ : Region)
  let rs := [rg 0 16, rg 0x100 16, rg 0x200 16, rg 0x2FFF00 16, rg 0x400 64, rg 0x800 64]
  let s := engS .vx st (fun r => { r with fmt := fmt, regions := rs.zipIdx.foldl (fun v p => v.set! p.2 p.1) r.regions })
  let s := { s with mem := s.mem.write (coreBase + 0x100) ((List.range 64).map (fun i => BitVec.ofNat 8 (3 * i + 1))) }
  let s := { s with mem := s.mem.write (coreBase + 0x200) ((List.range 64).map (fun i => BitVec.ofNat 8 (i % 4))) }
  s.modBank 0 (fun b => (b.setQueue 0#3 [⟨0x0000000240400000#64, true, 0, false⟩]).modEngine .vx (fun g => { g with checked := [(0, 1)] }))

/-- The hypotheses of a vector word's completion: its operands, its queue operand, its reads, and the writes behind them. -/
def vecRuns (i : Instr) (s : State) (vs : Word) : Bool :=
  match vectorForm i with
  | none => false
  | some c =>
    let r := s.ownRegs .vx
    let ops := r.pstack.take c.pops
    match (c.plan r ops 0).run s, (c.plan r ops vs).run s with
    | .ok _ _, .ok job _ =>
      (do
        let (v1, u1) ← elemsRead (job.reads []) (vectorPopped c s)
        let (v2, u2) ← elemsRead ((job.reads v1).drop v1.length) u1
        elemsPut job.dst job.nib (job.writes (v1 ++ v2)) (u2.modBank s.cur.bid (fun b => b.modEngine .vx (·.modRegs (job.regs (v1 ++ v2)))))).isSome
      && decide (c.pops ≤ r.pstack.length ∧ r.pstack.length ≤ 8 + c.pops ∧ (s.own.engine .vx).stopped = none
        ∧ (c.src ≠ 0#2 → (s.own.queueOf (sourceQueue c.src)).map (fun x => (x.value, x.bad)) = [(vs, false)]
          ∧ PMap.get 0 (s.own.engine .vx).checked (sourceQueue c.src).toNat ≠ 0)
        ∧ (c.queue = true → (s.own.queueOf 2#3).length < 32))
    | _, _ => false

theorem witness_VectorWordsComplete :
    vecRuns (.vfma 0#3 false 0#2) (vecS 0 [3, 1, 2, 1]) 0 = true
    ∧ vecRuns (.vadd 0#3 true 0#2) (vecS 5 [1, 2]) 0 = true
    ∧ vecRuns (.vmul 0#3 false 1#2) (vecS 0 [3, 1]) 0x0000000240400000#64 = true
    ∧ vecRuns (.vred 1#3 true 0#2 0#3) (vecS 6 [1]) 0 = true
    ∧ vecRuns (.vperm 0#3 false 0#2) (vecS 4 [3, 1, 2]) 0 = true
    ∧ vecRuns (.vsoft 0#3 false 1#2) (vecS 0 [3, 1]) 0x0000000240400000#64 = true
    ∧ vecRuns (.vbsr 0#3 false 0#2) (vecS 6 [3, 4, 5]) 0 = true
    ∧ vecRuns (.vbc 0#3 false 0#2) (vecS 7 [3, 9]) 0 = true := by decide +kernel

/-- Handle 15 on the placed page, and d6 of 16 elements at its end, as a handle region. -/
def vecH (st : List Word) : State :=
  let s := (vecS 0 st).modBank 0 (fun b => (b.setHandle 15#4 ⟨verOf .valid 0, []⟩).modEngine .vx (fun g =>
    { g.modRegs (fun r => { r with regions := r.regions.set! 6 ⟨0xF0000000001FFFC0#64, 0x8000000000010010#64⟩ }) with
      entry := some ⟨.call 0, List.replicate 16 1, false⟩ }))
  s

/-- A handle region read into a local one, a local one written to it, and its own elements written back. -/
theorem witness_VectorWordsComplete_handle :
    vecRuns (.vneg 0#3 false 0#2) (vecH [3, 6]) 0 = true ∧ vecRuns (.vneg 0#3 false 0#2) (vecH [6, 3]) 0 = true
    ∧ vecRuns (.vadd 0#3 false 0#2) (vecH [6, 6, 1]) 0 = true ∧ (((vecH []).ownRegs .vx).region 6).handle = true
    ∧ (∃ t, exec (.vmov 0#3 false 0#2) (vecH [6, 1]) = .next t ∧ (t.mem.get 0x3FFFC1 == 4#8) = true) :=
  ⟨by decide +kernel, by decide +kernel, by decide +kernel, by decide, nextAnd_spec (by decide +kernel)⟩

theorem witness_ElementsWritten :
    (∃ j t, (elementPlan formsArith 1#3 false 0#2 2 same (fun f x _ => elemAdd f (arg x 0) (arg x 1)) ((vecS 0 []).ownRegs .vx) [3, 1, 2] 0).run
      (vecS 0 []) = .ok j t ∧ (j.dst.count == 16) = true)
    ∧ (∃ j t, (elementPlan formsArith 0#3 true 0#2 2 same (fun f x _ => elemAdd f (arg x 0) (arg x 1)) ((vecS 0 []).ownRegs .vx) [1, 2] 0).run
      (vecS 0 []) = .ok j t ∧ (j.push [1, 2]).isSome = true) := ⟨okAnd_spec (by decide +kernel), okAnd_spec (by decide +kernel)⟩

theorem witness_StagePredicates : (7#3 ≠ 0#3) ∧ ((vecS 0 []).ownRegs .vx).on 7#3 65534 = true ∧ ((vecS 0 []).ownRegs .vx).on 7#3 65535 = false := by
  decide

theorem witness_IntegerElements : (127 < 2 ^ 8) ∧ (128 < 2 ^ 8) ∧ (2 ^ 31 < 2 ^ 32) ∧ elemAdd 5 127 1 = (127, flagOF) ∧ elemAdd 5 127 0 = (127, 0)
    ∧ elemNeg 6 (2 ^ 31) = (2 ^ 31 - 1, flagOF) := by decide

theorem witness_RegionWords :
    ((vecS 0 [0x1FFFF, 0x100]).ownRegs .vx).pstack = 0x1FFFF#64 :: 0x100#64 :: []
    ∧ (bits (0x1FFFF#64).toNat 48 15 = 0 ∧ bits (0x1FFFF#64).toNat 0 16 ≠ 0 ∧ bits (0x100#64).toNat 0 8 = 0
      ∧ (bit (0x1FFFF#64).toNat 63 = false → bits (0x100#64).toNat 26 38 = 0))
    ∧ bits (0x10000#64).toNat 0 16 = 0 ∧ ((vecS 0 (List.replicate 6 0)).ownRegs .vx).pstack.length ≤ 6
    ∧ (65535#64).toNat ≤ 65535 ∧ 65535 < (65536#64).toNat ∧ (vecS 0 []).cur.eng = some .vx := by decide

theorem witness_MaskWords :
    ((vecS 0 [15]).ownRegs .vx).pstack = 15#64 :: [] ∧ (15#64).toNat ≤ 15 ∧ 15 < (16#64).toNat
    ∧ localOk true 0x33FFFE 2 = true ∧ localOk true 0x340000 2 = false ∧ ((vecS 0 []).localBytes 0 .vx 0x2FFFFE 2).isSome = true := by decide +kernel

/-! ### `vstub` and the context fault -/

/-- The vector engine at a `vstub` with its element on: query d4 (64 zeros), score d1 (one zero), context at 0x200000 with threshold as given,
one resident entry and one valid stub of one token, whose page is a context segment. -/
def stubS (theta : Nat) (st : List Word) : State :=
  let z := fun (base n : Nat) => (⟨BitVec.ofNat 64 base, BitVec.ofNat 64 (0x10000 + n)⟩ : Region)
  let s := engS .vx st (fun r => { r with regions := ((r.regions.set! 4 (z 0x400 64)).set! 1 (z 0x100 1)).set! 2 (z 0x200 2) })
  let s := s.modCore 0 (fun c => { c with tlb := [⟨0, 0, { placedLeaf with ctxseg := true }⟩] })
  let ws := [(0x200000, 0x201000), (0x200008, 0x202000), (0x200010, 0x203000), (0x200018, 0x204000), (0x200020, 0x205000), (0x200028, 0x206000),
    (0x200030, 2 ^ 48 + 2 ^ 32 + theta * 2 ^ 16 + 256), (0x200038, 2 ^ 48 + 64 * 2 ^ 32), (0x200040, 2 ^ 64 - 1), (0x202008, 2 ^ 40 + 1),
    (0x204000, 4)]
  { s with mem := ws.foldl (fun m p => m.write p.1 (leBytes 8 p.2)) s.mem }

/-- The operands: dst d2, query d4, scores d1, tag of layer 0, token slot 0, head 0, the context. -/
def stubOps : List Word := [2, 4, 1, 0, 0x200000]

def stubQr : Region := ((stubS 0 stubOps).ownRegs .vx).region 4
def stubSr : Region := ((stubS 0 stubOps).ownRegs .vx).region 1

theorem witness_VstubCompletes_regions :
    popsOf false 2 2 ≤ ((stubS 1 stubOps).ownRegs .vx).pstack.length
    ∧ (∃ x t, (stubRegions ((stubS 1 stubOps).ownRegs .vx) false 0#2 stubOps).run (stubS 1 stubOps) = .ok x t
      ∧ (x == (some (((stubS 0 []).ownRegs .vx).region 2), stubQr, stubSr)) && t == stubS 1 stubOps)
    ∧ ((stubS 1 stubOps).ownRegs .vx).on 0#3 0 = true ∧ ((stubS 1 stubOps).ownRegs .vx).on 7#3 0 = true
    ∧ ((engS .vx [] (fun r => { r with pg := r.pg.set 1 ⟨0, 0⟩ })).ownRegs .vx).on 1#3 0 = false
    ∧ (stubS 1 stubOps).handleBank 0 = 0 ∧ ((stubS 1 stubOps).own.queueOf 2#3).length < 32 :=
  ⟨by decide, okAnd_spec (by decide +kernel), by decide, by decide, by decide, by decide, by decide⟩

/-- The same behind its first execution: the operands are popped and kept. -/
def stubKept (theta : Nat) : State := (stubS theta []).modBank 0 (fun b => b.modEngine .vx (fun g =>
  { g with stopped := some { ops := stubOps, done := 0, vals := [], mul := none, began := 0, waiter := none } }))

theorem witness_VstubCompletes_kept :
    ((stubKept 1).own.engine .vx).stopped = some { ops := stubOps, done := 0, vals := [], mul := none, began := (stubS 1 stubOps).ticks, waiter := none }
    ∧ (((stubS 1 stubOps).modBank 0 (fun b => b.modEngine .vx (·.modRegs (fun r => { r with pstack := r.pstack.drop 5 })))).own.engine .vx).regs.pstack
      = ((stubKept 1).own.engine .vx).regs.pstack
    ∧ errAnd ((stubJudge 0 0x200000 stubQr stubSr).run
      { stubKept 1 with host := { (stubKept 1).host with flips := [(0x200000, 0x201000)] } }) (fun e _ => e == .wait) = true := by decide +kernel

theorem witness_VstubCompletes_result :
    ∃ j1 t, (stubJudge 0 0x200000 stubQr stubSr).run (stubKept 0) = .ok j1 t
      ∧ (j1.fault.isNone && t.cur == (stubS 0 stubOps).cur && okAnd ((stubPlaces j1 (some (((stubS 0 []).ownRegs .vx).region 2))).run t) (fun ws u =>
        u.cur == t.cur && okAnd ((stubResult j1 (some (((stubS 0 []).ownRegs .vx).region 2)) ws).run u) (fun _ v => v.mem.get (coreBase + 0x207) == 0x40#8))) = true :=
  okAnd_spec (by decide +kernel)

theorem witness_VstubCompletes_fault :
    ∃ j1 t, (stubJudge 0 0x200000 stubQr stubSr).run (stubKept 1) = .ok j1 t
      ∧ (j1.fault == some (0, 0x3F800000) && t.cur == (stubS 1 stubOps).cur
        && okAnd ((contextFault j1.c j1.t 0 0x3F800000 j1.total).run t) (fun f u => f == .more && u.own.ctxDue == some 0x200000)) = true :=
  okAnd_spec (by decide +kernel)

/-- The fault of the same `vstub`: its record can be placed and its bank settles. -/
theorem witness_ContextFaultTaken :
    (∃ j1 t, (stubJudge 0 0x200000 stubQr stubSr).run (stubS 1 stubOps) = .ok j1 t
      ∧ (decide (j1.c.depth ≤ 3 ∧ j1.t.layer < 2 ^ 16 ∧ j1.t.tok < 2 ^ 8 ∧ j1.t.head < 2 ^ 16)
        && okAnd ((placeWords (faultWords j1.c j1.t 0 (div32 0x3F800000 j1.total))).run t) (fun ws u =>
          ws.length == 7 && okAnd (settleForFault.run u) (fun _ v => v.cur == u.cur))) = true)
    ∧ (3 ≤ 3 ∧ 3 ≠ 0 ∧ (0 : Nat) < 4) :=
  ⟨okAnd_spec (by decide +kernel), by decide⟩

theorem witness_ContextFaultTaken_settles :
    (stubS 1 stubOps).atRest 0 (some .vx) ∧ (stubS 1 stubOps).ready 0 = true
    ∧ (∀ m ∈ (stubS 1 stubOps).members 0, ((stubS 1 stubOps).bank m).committed = (((stubS 1 stubOps).bank m).engine .vx).phase) := by
  simp only [State.atRest, State.quietAll, Eng.atRest]; decide +kernel

/-- A bank with an armed rendezvous, one that has fired, and a word in flight whose promise stands. -/
def discardB : Bank :=
  let b : Bank := { Bank.init with flights := [flightOf []], proms := [(0, ⟨0, .promised, 1, false, false⟩)] }
  { b with core := { b.core with rv := (b.core.rv.set 0 { Rv.init with state := .armed }).set 1 { Rv.init with state := .fired } } }

theorem witness_ContextDiscard :
    discardB.core.rv[(0 : Fin 8)].state = .armed ∧ discardB.core.rv[(1 : Fin 8)].state ≠ .armed
    ∧ (∃ f ∈ discardB.flights, discardB.prom f.n = some ⟨0, .promised, 1, false, false⟩) := by decide
/-! ### Matrix words -/

/-- The matrix engine with rings 0 and 1 of two slots each, in which a number of slots is filled; format entry 0 is zero (both BF16),
entry 1 is blocks against blocks, entry 2 BF16 against signs; the first slots hold ones in row 0 of A and column 0 of B. -/
def mxS (st : List Word) (na nb : Nat) : State :=
  let ring := fun (base n : Nat) => { Ring.init with base := base, size := 72, slots := 2, full := List.replicate n 0 }
  let s := engS .mx st (fun r => { r with
    rings := (r.rings.set 0 (ring 0 na)).set 1 (ring 144 nb), mask := some (leBytes 8 (96 * 65536 + 96) ++ leBytes 8 96 ++ List.replicate 112 0),
    ftab := (r.ftab.set 1 0x4400200000002100#64).set 2 0x0500000000000000#64 })
  let ones := (List.range 8).map (fun i => (coreBase + 2 * i, 0x3F80)) ++ (List.range 8).map (fun i => (coreBase + 144 * 256 + 192 * i, 0x3F80))
  { s with mem := ones.foldl (fun m p => m.write p.1 (leBytes 2 p.2)) s.mem }

/-- The same under way, with a number of slot pairs done. -/
def mxOn (ops : List Word) (done na nb : Nat) : State :=
  (mxS [] na nb).modBank 0 (fun b => b.modEngine .mx (fun g => { g with stopped := some ⟨ops, done, [], some ⟨.mm, 0#2, 1#2, false, 0#64⟩, 0, none⟩ }))

/-- A bank with a poisoned element at row 1, column 2 of an accumulator bank. -/
def markedS : State := (mxS [] 1 1).modBank 0 (fun b => { b with marks := [.acc false (accIx 1 2)] })

/-- The checks of R318 for each kind: m, n and kk at their limits; a tile beside a poisoned element, and one that holds it. -/
theorem witness_MultiplyBegins :
    let s := mxS [8, 3, 2] 1 1
    let r := s.ownRegs .mx
    let a := r.rings[ringA 0#2]
    let b := r.rings[ringB 0#2]
    r.pstack = 8 :: 3 :: 2 :: [] ∧ (s.own.engine .mx).stopped = none
    ∧ multiplyOk .mm r (fmtEntry (r.selectFmt 0#4 0#2)) a b 65535 96 1 ∧ multiplyOk .mmm r (fmtEntry (r.selectFmt 1#4 0#2)) a b 65528 1 96
    ∧ multiplyOk .mml r (fmtEntry (r.selectFmt 2#4 0#2)) a b 65532 96 96
    ∧ tileClean s 0 false 96 96 ∧ tileClean markedS 0 false 1 96 ∧ ¬ tileClean markedS 0 false 2 3 := by
  refine ⟨by decide, by decide, ?_, ?_, ?_, ?_, ?_, ?_⟩ <;> first | (unfold multiplyOk; decide +kernel) | (unfold tileClean; decide +kernel)

/-- An empty ring; a last pair; a pair with more to come. -/
theorem witness_MultiplyPairs :
    let last := mxOn [8, 3, 2] 0 1 1
    let first := mxOn [97, 3, 2] 0 1 1
    ((mxOn [8, 3, 2] 0 0 1).ownRegs .mx).rings[ringA 0#2].filled = 0
    ∧ (last.own.engine .mx).stopped = some ⟨[8, 3, 2], 0, [], some ⟨.mm, 0#2, 1#2, false, 0#64⟩, 0, none⟩
    ∧ (last.ownRegs .mx).rings[ringA 0#2].filled ≠ 0 ∧ (last.ownRegs .mx).rings[ringB 0#2].filled ≠ 0
    ∧ tileClean last 0 false 2 3
    ∧ (∃ rows t, (loadA 0 0 0 0 2 8).run (last.slotView 0 ((last.ownRegs .mx).rings[ringA 0#2])) = .ok rows t ∧ (rows.length == 2) = true)
    ∧ (∃ cols t, (loadB 0 0 (144 * 256) 0 3 8).run (last.slotView 0 ((last.ownRegs .mx).rings[ringB 0#2])) = .ok cols t ∧ (cols.length == 8) = true)
    ∧ (8#64).toNat ≤ 96 * (0 + 1) ∧ 96 * (0 + 1) < (97#64).toNat
    ∧ (first.own.engine .mx).stopped = some ⟨[97, 3, 2], 0, [], some ⟨.mm, 0#2, 1#2, false, 0#64⟩, 0, none⟩ :=
  ⟨by decide, by decide, by decide, by decide, by unfold tileClean; decide, okAnd_spec (by decide +kernel), okAnd_spec (by decide +kernel), by decide, by decide,
    by decide⟩

theorem witness_TileFrame : 96 ≤ 96 ∧ 0 ≤ 96 ∧ 95 < 96 := by decide

theorem witness_MatrixRegisters :
    let s := mxS [1, 255, 12033, 9] 0 0
    (s.ownRegs .mx).pstack = 1 :: 255 :: 12033 :: [9] ∧ 12033 + 255 * 1 ≤ 12288 ∧ s.own.ringBusy 1 = false
    ∧ ((engS .mx [1, 255, 12033] (fun r => { r with rings := r.rings.set 1 { Ring.init with reserved := 1 } })).own.ringBusy 1 = true)
    ∧ ¬ 12034 + 255 * 1 ≤ 12288 ∧ bits (0x44000020#64 : Word).toNat 46 10 = 0 ∧ bits (0x4000#64 : Word).toNat 14 18 ≠ 0
    ∧ bits (0x3FFF#64 : Word).toNat 14 18 = 0 := by decide

/-- A handle of the placed page for `mpb` and `acco`, the operands on the stack; the page holds the mask block given, at 128. -/
def mpS (st : List Word) (blk : List Byte) : State :=
  let s := (engS .mx st).modBank 0 (fun b =>
    (b.setHandle 15#4 ⟨verOf .valid 0, []⟩).modEngine .mx (fun g => { g with entry := some ⟨.call 0, List.replicate 16 1, false⟩ }))
  { s with mem := s.mem.write 0x200080 blk }

def goodMask : List Byte := leBytes 8 (96 * 65536 + 96) ++ leBytes 8 96

theorem witness_MatrixMemory_mpb :
    ((mpS [0xF000000000000080] goodMask).ownRegs .mx).pstack = 0xF000000000000080#64 :: [] ∧ haddrOff 0xF000000000000080#64 % 128 = 0
    ∧ (∃ p1 t, (handlePlace 0 (some .mx) 15#4 (some 1) 128 64 accR 0).run ((mpS [] goodMask)) = .ok p1 t
      ∧ ((t.readable 0 (some .mx) p1.pa 64).isSome && t.cur == (mpS [] goodMask).cur
        && okAnd ((handlePlace 0 (some .mx) 15#4 (some 1) 192 64 accR 0).run t) (fun p2 u => u.cur == t.cur
          && (match t.readable 0 (some .mx) p1.pa 64, u.readable 0 (some .mx) p2.pa 64 with
            | some lo, some hi => !maskBad (lo ++ hi) | _, _ => false))) = true) :=
  ⟨by decide, by decide, okAnd_spec (by decide +kernel)⟩

/-- The stores of an `acco` of FP8 elements, rows 64 bytes apart. -/
def accoOk : Bool :=
  let s := mpS [] []
  okAnd ((accoWrites 0xF000000000000000#64 (List.replicate 16 1) [64, 0xF000000000000000] 0
    (accoRequests ((s.ownRegs .mx).acc false) 0 0 3 64 0 0)).run s) (fun _ w => w.cur == s.cur)

theorem accoOk_true : accoOk = true := by decide +kernel

theorem witness_MatrixMemory_acco :
    ((mpS [64, 0xF000000000000000] []).ownRegs .mx).pstack = 64#64 :: 0xF000000000000000#64 :: [] ∧ (64#64).toNat < 2 ^ 32
    ∧ tileClean (mpS [] []) 0 false 96 96
    ∧ ∃ q w, (accoWrites 0xF000000000000000#64 (List.replicate 16 1) [64, 0xF000000000000000] 0
        (accoRequests (((mpS [] []).ownRegs .mx).acc false) 0 0 3 64 0 0)).run (mpS [] []) = .ok q w ∧ (w.cur == (mpS [] []).cur) = true :=
  ⟨by decide, by decide, by unfold tileClean; decide, okAnd_spec accoOk_true⟩

/-- Two candidates of bank 0; a rebase of ring 1 (slots of one unit) that fits, and one that does not. -/
def drawS (n ctl rb : Nat) (busy : Nat) : State :=
  engS .mx [BitVec.ofNat 64 n, BitVec.ofNat 64 ctl, 5, 6, BitVec.ofNat 64 rb] (fun r => { r with
    rings := r.rings.set 1 { Ring.init with size := 1, slots := 2, reserved := busy }, acc0 := Acc.init.put 1 0x3F800000#32 })

theorem witness_DrawCompletes :
    let o : Nat → Nat → Nat → DrawOps := fun n ctl rb => ⟨n, ctl, 5, 6, rb⟩
    (o 0 0 0).ok = false ∧ (o 9217 0 0).ok = false ∧ (o 9216 (2 ^ 33 - 1) 0).ok = true ∧ (o 2 (2 ^ 32) (2 ^ 63)).ok = true
    ∧ bit (2 ^ 63) 63 = true ∧ winner ((drawS 2 (2 ^ 32) (2 ^ 63) 0).allCandidates 0 false (o 2 (2 ^ 32) (2 ^ 63))) = (1, 0x3F800000)
    ∧ (drawS 2 (2 ^ 32) (2 ^ 63) 0).handleBank 0 = 0 ∧ (drawS 2 (2 ^ 32) (2 ^ 63) 0).drawPoison 0 false 2 = false
    ∧ ((drawS 2 (2 ^ 32) (2 ^ 63) 0).own.queueOf 4#3).length < 32
    ∧ 12286 + 2 * 1 ≤ 12288 ∧ ¬ 12286 + 1 + 2 * 1 ≤ 12288
    ∧ (drawS 2 (2 ^ 32) (2 ^ 63) 1).own.ringBusy 1 = true ∧ (drawS 2 (2 ^ 32) (2 ^ 63) 0).own.ringBusy 1 = false := by decide +kernel

theorem witness_DrawWinner : List.Pairwise (fun a b => a.1 < b.1) [((0, 5) : Nat × Nat), (1, 5)] ∧ isNan32 5 = false ∧ isNan32 0x7FC00000 = true := by
  decide +kernel

/-! ### Events: submission rings, the scheduler, pre-emption -/

/-- Die 0 with ring 7, whose header stands at a VA of the mapped 1 GiB in an address space of VF 0, and a number of active slots before it;
the header has c, head, tail and status as given. -/
def ringAt (va : Nat) (active pending : Bool) (n c head tail status : Nat) : State :=
  let d := (walkS.die 0).setRing 7 ⟨BitVec.ofNat 64 va, 1#64, active, pending, 0⟩
  let s := walkS.setDie 0 { d with slots := List.replicate n 7 }
  let s := s.setVf 0 { s.vf 0 with astbase := 0x304000#64, astsize := 1 }
  let pa := va - 0x40000000
  let ws := [(0x304000, 0xA000000000000300), (pa, c), (pa + 8, head), (pa + 16, tail), (pa + 24, status)]
  { s with cycle := 12000, mem := ws.foldl (fun m p => m.write p.1 (leBytes 8 p.2)) s.mem }

def ringS (active pending : Bool) (n head tail : Nat) : State := ringAt 0x40305000 active pending n 1 head tail 0

def ring7 (s : State) : SubRing := (s.die 0).ring 7

/-- The header of ring 7 reads as given, and what then holds of the state. -/
def headerIs (s : State) (c h t : Nat) (p : State → Bool) : Bool :=
  match s.ringHeader 0 (ring7 s) with | .ok x => x.1 == c && x.2.1 == h && x.2.2.1 == t && p x.2.2.2 | .error _ => false

theorem headerIs_spec {s : State} {c h t : Nat} {p : State → Bool} (hh : headerIs s c h t p = true) :
    ∃ u, s.ringHeader 0 (ring7 s) = .ok (c, h, t, u) ∧ p u = true := by
  unfold headerIs at hh
  split at hh
  · rename_i x e
    obtain ⟨a, b, d, u⟩ := x
    simp only [Bool.and_eq_true, beq_iff_eq] at hh
    obtain ⟨⟨⟨rfl, rfl⟩, rfl⟩, hp⟩ := hh
    exact ⟨u, e, hp⟩
  · cases hh

/-- A VF in RUN, whose traffic is protected or not; rings that are active, pending, idle; a ring of another VF and one not enabled; the last
ring and the last die. -/
theorem witness_NotifyCompletes :
    (ringS false false 31 0 0).operates = true ∧ (((ringS false false 31 0 0).setTdi 0 .run).vf 0).tdi = .run
    ∧ ((ringS false false 31 0 0).vf 511).tdi ≠ .run ∧ (ring7 (ringS false false 31 0 0)).en = true
    ∧ (ring7 (ringS false false 31 0 0)).vf = 0 ∧ (((ringS false false 31 0 0).die 3).ring 1023).en = false
    ∧ (ring7 (ringS false false 31 0 0)).vf ≠ 511
    ∧ ((ringS false false 31 0 0).die 0).slots.length < 32 ∧ 32 ≤ ((ringS false false 32 0 0).die 0).slots.length
    ∧ (ring7 (ringS true false 1 0 0)).active = true ∧ (ring7 (ringS false true 32 0 0)).pending = true
    ∧ (ring7 (ringS false false 31 0 0)).active = false ∧ (ring7 (ringS false false 31 0 0)).pending = false
    ∧ 3 < 4 ∧ 1023 < 1024 ∧ 511 < 512 := by decide

/-- A ring with a record, where the die's table of nests is full. -/
def ringFullS : State := { ringS true false 1 1 0 with nests := (nsubS 0 256).nests }

/-- A ring with a record, one whose table of nests is full, one whose record cannot be read, an empty one. -/
theorem witness_RingsComplete_headers :
    (∃ u, (ringS true false 1 1 0).ringHeader 0 (ring7 (ringS true false 1 1 0)) = .ok (1, 1, 0, u)
      ∧ (decide (u.nestCount 0 < 256) && (u.ringRead 0 (ring7 (ringS true false 1 1 0)) 0x40305080 128).isOk) = true)
    ∧ (∃ u, ringFullS.ringHeader 0 (ring7 ringFullS) = .ok (1, 1, 0, u)
      ∧ decide (256 ≤ u.nestCount 0) = true)
    ∧ (∃ u, (ringAt 0x7FFFFF80 true false 1 0 1 0 0).ringHeader 0 (ring7 (ringAt 0x7FFFFF80 true false 1 0 1 0 0)) = .ok (0, 1, 0, u)
      ∧ (decide (u.nestCount 0 < 256) && (u.ringRead 0 (ring7 (ringAt 0x7FFFFF80 true false 1 0 1 0 0)) 0x80000000 128).isOk.not) = true)
    ∧ (∃ u, (ringS true false 1 1 1).ringHeader 0 (ring7 (ringS true false 1 1 1)) = .ok (1, 1, 1, u) ∧ ((u.die 0).slots == [7]) = true)
    ∧ ((ringS true false 1 3 0).ringHeader 0 (ring7 (ringS true false 1 3 0))).isOk = false :=
  ⟨headerIs_spec (by decide +kernel), headerIs_spec (by decide +kernel), headerIs_spec (by decide +kernel), headerIs_spec (by decide +kernel),
    by decide +kernel⟩

theorem witness_RingsComplete :
    (ringS true false 1 1 0).operates = true ∧ ((ringS true false 1 1 0).die 0).slots = 7 :: [] ∧ (ring7 (ringS true false 1 1 1)).active = true
    ∧ 12000 ≤ (ringS true false 1 1 1).since (ring7 (ringS true false 1 1 1)).timer := by decide +kernel

/-- What a header that can be read says, and what then holds of the state. -/
def readsHeader (s : State) (p : List Byte → State → Bool) : Bool :=
  match s.ringRead 0 (ring7 s) (ring7 s).w0.toNat 128 with | .ok x => p x.1 x.2 | .error _ => false

theorem readsHeader_spec {s : State} {p : List Byte → State → Bool} (h : readsHeader s p = true) :
    ∃ bs u, s.ringRead 0 (ring7 s) (ring7 s).w0.toNat 128 = .ok (bs, u) ∧ p bs u = true := by
  unfold readsHeader at h
  split at h
  · rename_i x e
    exact ⟨x.1, x.2, e, h⟩
  · cases h

/-- The header is clean: what the statement asks of its words. -/
def cleanHeader (h : List Byte) : Bool :=
  decide (blockWord h 0 ≤ 12 ∧ bits (blockWord h 3) 8 56 = 0) && (h.drop 32).all (· = 0#8)

/-- A ring whose header lies in a page under a flip. -/
def flippedRingS : State :=
  let s := ringS true false 1 1 0
  { s with host := { s.host with flips := [(0, 0x40000000)] } }

/-- Why an access of a unit stops. -/
def stopsAt (s : State) (va : Nat) (p : Stop → Bool) : Bool :=
  match s.unitPlace 0 0 0 va 128 accR with | .ok _ => false | .error x => p x

theorem stopsAt_spec {s : State} {va : Nat} {p : Stop → Bool} (h : stopsAt s va p = true) :
    ∃ x, s.unitPlace 0 0 0 va 128 accR = .error x ∧ p x = true := by
  unfold stopsAt at h
  split at h
  · cases h
  · exact ⟨_, ‹_›, h⟩

/-- Headers that are not aligned, not mapped, under a flip, not clean, ahead by too much, ahead by 2^c, and with an earlier error. -/
theorem witness_RingHeader :
    (ringS true false 1 0 0).coreInService 23 = true ∧ (ring7 (ringAt 0x40305040 true false 1 1 0 0 0)).w0.toNat % 128 ≠ 0
    ∧ (∃ x, (ringAt 0x80000000 true false 1 1 0 0 0).unitPlace 0 0 0 0x80000000 128 accR = .error x ∧ decide (x ≠ .wait) = true)
    ∧ (∃ x, flippedRingS.unitPlace 0 0 0 0x40305000 128 accR = .error x ∧ decide (x = .wait) = true)
    ∧ (∃ bs u, (ringAt 0x40305000 true false 1 13 0 0 0).ringRead 0 (ring7 (ringAt 0x40305000 true false 1 13 0 0 0)) 0x40305000 128 = .ok (bs, u)
      ∧ (!cleanHeader bs) = true)
    ∧ (∃ bs u, (ringS true false 1 3 0).ringRead 0 (ring7 (ringS true false 1 3 0)) 0x40305000 128 = .ok (bs, u)
      ∧ (cleanHeader bs && decide (2 ^ 1 < (blockWord bs 1 + 2 ^ 64 - blockWord bs 2) % 2 ^ 64)) = true)
    ∧ (∃ bs u, (ringAt 0x40305000 true false 1 12 4096 0 2).ringRead 0 (ring7 (ringAt 0x40305000 true false 1 12 4096 0 2)) 0x40305000 128 = .ok (bs, u)
      ∧ (cleanHeader bs && decide ((blockWord bs 1 + 2 ^ 64 - blockWord bs 2) % 2 ^ 64 ≤ 2 ^ 12 ∧ blockWord bs 3 ≠ 0)) = true) :=
  ⟨by decide +kernel, by decide, stopsAt_spec (by decide +kernel), stopsAt_spec (by decide +kernel), readsHeader_spec (by decide +kernel),
    readsHeader_spec (by decide +kernel), readsHeader_spec (by decide +kernel)⟩

/-- A nest of one tile on a level of die 0, that has waited from cycle 0, of VF 0; the list of its level; the cycle 30,000,000. -/
def nestS (level : Nat) : State :=
  let n : Nest := { parseNest [] 1 0 0 0 0 with level := level, stages := 1, waiting := some 0, id := 2 }
  ({ State.reset with nests := [n], cycle := 30000000 }).updateLevels 0

theorem witness_SchedulerCompletes_visit :
    let u := (nestS 2).updateLevels 0
    (nestS 2).operates = true ∧ (u.die 0).levels.toList.getD 2 [] = 0 :: [] ∧ u.topLevel 0 2 = true
    ∧ (u.offers 0 2).any (fun o => u.admitted 0 o.1.est) = true := by decide +kernel

theorem witness_SchedulerCompletes_aging :
    (∃ n, (nestS 2).nests.find? (fun n => n.id = 2 && n.die = 0) = some n ∧ n.waiting = some 0 ∧ n.level < 3 ∧ 0 + 30000000 ≤ (nestS 2).cycle)
    ∧ (∃ n, (nestS 3).nests.find? (fun n => n.id = 2 && n.die = 0) = some n ∧ n.waiting = some 0 ∧ 3 ≤ n.level)
    ∧ ((nestS 0).die 0).windowStart < (nestS 0).cycle / 3000000 * 3000000 :=
  ⟨⟨_, rfl, by decide +kernel⟩, ⟨_, rfl, by decide +kernel⟩, by decide +kernel⟩

/-- The nest has one context saved, of bank 0 of core 0. -/
def savedS : State :=
  let c : Saved := ⟨0, 0, { Bank.init with task := some { placedTask with nest := 2 } }, [], true, 5⟩
  { nestS 0 with saved := [(5, c)] }

theorem witness_SchedulerCompletes_resume :
    (match PMap.find savedS.saved 5 with
      | some c => (match savedS.nests.find? (fun n => c.state.runs n.id) with
        | some n => n.die == 0 && n.level == 0 && (savedS.die 0).levels.toList.getD 0 [] == [0] && savedS.topLevel 0 0
          && (savedS.offers 0 0).any (fun o => savedS.admitted 0 o.1.est) && savedS.resumesFirst 0 0 0 c.group
        | none => false)
      | none => false) = true := by decide +kernel

/-- Every bank of die 0 runs a task of a nest of level 0, and a nest of level 3 has a task; bank 0 as asked. -/
def fullS (f : Bank → Bank) : State :=
  let low : Nest := { parseNest [] 1 0 0 0 0 with id := 1, gsize := 1 }
  let high : Nest := { parseNest [] 2 0 0 0 0 with id := 2, level := 3, stages := 1, gsize := 1 }
  let b : Bank := { Bank.init with task := some { placedTask with started := 4 } }
  let s : State := { State.reset with nests := [low, high], cycle := 200000, banks := (List.range 48).map (fun i => (i, b)) }
  s.modBank 0 (fun b => f { b with task := some { placedTask with started := 5 } })

theorem witness_PreemptionCompletes :
    (fullS id).operates = true
    ∧ (fullS id).nests.any (fun x => x.die = dieOf 0 && (fullS id).calls x 0) = true
    ∧ ((fullS id).modBank 0 (fun b => { b with preempt := some (fullS id).cycle })).saveDue 0 = false
    ∧ ((fullS (fun b => { b with wait := .dopenW 9 })).modBank 0 (fun b => { b with preempt := some 200000 })).saveDue 0 = true
    ∧ (fullS (fun b => { b with wait := .dopenW 9 })).nests.any (fun x => x.die = dieOf 0 && (fullS (fun b => { b with wait := .dopenW 9 })).calls x 0) = true
    ∧ (fullS id).running 0 = true ∧ ((fullS id).bank 0).saving = none ∧ (fullS (fun b => { b with preempt := some 50000 })).saveDue 0 = true
    ∧ ((fullS (fun b => { b with saving := some none })).bank 0).saving.isSome = true
    ∧ ((fullS id).bank 95).task.isSome = false ∧ ((fullS id).bank 1).task.isSome = true := by decide +kernel

theorem witness_NestEnds : (fullS id).nests.any (·.id = 1) = true ∧ ((fullS id).bank 0).runs 1 = true := by decide +kernel

/-! ### Events: the invalidation queue, records, waits -/

/-- The host's invalidation queue at host address 0 with one entry that flips VA 0x40000000 of VF 0, or invalidates, or has a bad op. -/
def iqS (ctl : Nat) (inv : Option InvEntry) : State :=
  let s := walkS.setVf 0 { walkS.vf 0 with astbase := 0x304000#64, astsize := 1 }
  let ws := [(0x304000, 0xA000000000000300), (hostBase, 0x40000000), (hostBase + 8, 4096), (hostBase + 16, ctl), (hostBase + 24, 64)]
  { s with
    mem := ws.foldl (fun m p => m.write p.1 (leBytes 8 p.2)) s.mem, host := { s.host with iqlog := 4, iqtail := 1, inv := inv } }

def invE (flip bad acked : Bool) : InvEntry := { k := 0, vf := 0, va := 0x40000000, flip := flip, bad := bad, acked := acked, done := 64 }

/-- A flip of the durable page at 0 of the tier under way, with a durable store into it that is not accepted. -/
def flipS : State :=
  let s := iqS 1 (some (invE true false false))
  { s with host := { s.host with flips := [(durableBase, durableBase + 4096)] }
           betony := { s.betony with pending := [{ (default : DStore) with id := 1, words := [(durableBase / 8, 5)] }] } }

theorem witness_InvalidationQueue :
    (iqS 0 none).operates = true ∧ (iqS 0 none).host.link = true
    ∧ (match (iqS 0 none).iqNext with | some (_, w) => !w.bad && w.op == 0 | none => false) = true
    ∧ (match (iqS 1 none).iqNext with
      | some (_, w) => !w.bad && w.op == 1 && !(iqS 1 none).pageWaits w.vf w.asid w.va && ((iqS 1 none).pageAt w.vf w.asid w.va).isSome
      | none => false) = true
    ∧ (let s := (iqS 1 none).setVf 0 { (iqS 1 none).vf 0 with astbase := BitVec.ofNat 64 durableBase }
       let t : State := { s with betony := { s.betony with rdy := false } }
       match t.iqNext with | some (_, w) => !w.bad && w.op == 1 && t.pageWaits w.vf w.asid w.va | none => false) = true
    ∧ (match (iqS 3 none).iqNext with | some (_, w) => w.bad | none => false) = true
    ∧ (iqS 1 (some (invE true false false))).host.inv = some (invE true false false) ∧ (iqS 1 (some (invE true false false))).flipDirty = false
    ∧ flipS.host.inv = some (invE true false false) ∧ flipS.flipDirty = true ∧ (invE true false true).acked = true
    ∧ (invE true true false).bad = true ∧ (invE false false false).flip = false := by decide +kernel

/-- A bank whose handle 15 has a valid version, live and in its checkpoint, of which one is revoked and the other not. -/
def revokedB : Bank := ((handS (verOf .valid 0) 0).bank 0).fullCkpt 0 0

theorem witness_InvalidationQueue_revokes :
    ((revokedB.revoke (fun v => v.id = 9)).core.ph[(15 : Fin 16)]).cur.state = .valid
    ∧ (∃ c ∈ (revokedB.revoke (fun v => v.id = 9)).ckpts.map (·.core), (c.ph[(15 : Fin 16)]).cur.state = .valid)
    ∧ (∀ c ∈ (revokedB.revoke (fun v => v.id = 1)).ckpts.map (·.core), (c.ph[(15 : Fin 16)]).cur.state = .revoked) := by decide +kernel

/-- A control core and a copy engine that wait for a free record, a pending version of handle 15, a held reclaim record in slot 0, a
reservation on the domain from cycle 0. -/
def retryS : State :=
  let w : Waiter := .alloc 0x40000000 1 2 3
  let s := (handS (verOf .pending 0) 0).modBank 0 (fun b => ({ b with waiter := some w, resv := some ⟨0, 8, 0, 0, true⟩ }).modEngine .cx
    (fun g => { g with stopped := some ⟨[], 0, [], none, 0, some w⟩ }))
  { s with slots := [(0, { Slot.init with used := true, held := true })], cycle := 256 }

theorem witness_RetriesComplete :
    retryS.operates = true
    ∧ ((retryS.bank 0).handle (BitVec.ofNat 4 15)).find 1 = some (verOf .pending 0) ∧ (retryS.bank 0).task.isSome = true
    ∧ (retryS.bank 0).waiter = some (.alloc 0x40000000 1 2 3)
    ∧ ((retryS.bank 0).engine .cx).stopped = some ⟨[], 0, [], none, 0, some (.alloc 0x40000000 1 2 3)⟩ ∧ (retryS.bank 0).flights = []
    ∧ (retryS.slot 0).used = true ∧ (retryS.slot 0).held = true
    ∧ (retryS.bank 0).resv = some ⟨0, 8, 0, 0, true⟩ ∧ 256 ≤ retryS.since 0 := by decide

/-- A pending version of handle 15, for which the control core waits, or nothing does. -/
def walkEndS (uses : List (Nat × WalkUse)) : State := walkS.modBank 0 (fun b => { b.setHandle 15#4 ⟨verOf .pending 0, []⟩ with uses := uses })

/-- What PAGE_WALK_END makes of the waiting uses. -/
def usesServed (s : State) : State :=
  let u := s.walkEnds 0 15#4 (verOf .pending 0)
  (s.members 0).foldl (fun t m => t.usesEnd m 1 (((u.bank 0).handle 15#4).find 1 |>.elim 0 (·.cause))) u

theorem witness_RetriesComplete_walk :
    (walkEndS []).walkGoesOn 0 (verOf .pending 0) = false ∧ durableRootS.walkGoesOn 0 (verOf .pending 0) = true ∧
    ((usesServed (walkEndS [])).bank 0).waiters = (((walkEndS []).walkEnds 0 15#4 (verOf .pending 0)).bank 0).waiters
    ∧ (walkEndS []).members 0 = [0]
    ∧ ((usesServed (walkEndS [(0, ⟨1, 0x200000, 0⟩)])).bank 0).waiters
      ≠ (((walkEndS [(0, ⟨1, 0x200000, 0⟩)]).walkEnds 0 15#4 (verOf .pending 0)).bank 0).waiters := by decide +kernel

/-- Bank 0 in a wait, in window 9 with a write on the domain in window 1, or none; it waits in `dopen.w` for its own name. -/
def waitS (w : Wait) (dom : List (Nat × Nat)) : State :=
  let s := coreS (fun b => { b with wait := w, dom := dom })
  { s with cycle := 9, ftime := 36000, dirWaiters := [⟨0, 0, 7#64, 0, 5#5, 9⟩] }

/-- A bank with copy word 3 in flight and its promise of cycle 5, read, or with its trap taken. -/
def lateS (trapped : Bool) : State :=
  { coreS (fun b => { b with flights := [{ flightOf [] with n := 3 }], proms := [(3, ⟨3, .promised, 5, true, trapped⟩)], nextWord := 4 }) with cycle := 6 }

theorem witness_WaitsEnd :
    ((waitS (.waitt 9) []).bank 0).wait = .waitt 9 ∧ 9 ≤ (waitS (.waitt 9) []).cycle ∧ (waitS (.waitt 9) []).ready 0 = true
    ∧ (waitS (.waitt 9) []).isActive 0 = true ∧ (waitS (.waitt 9) []).drains 0 = false
    ∧ (waitS (.dopenW 9) []).dirWaiters.find? (·.bid = 0) = some ⟨0, 0, 7#64, 0, 5#5, 9⟩ ∧ 9 ≤ (waitS (.dopenW 9) []).cycle
    ∧ (waitS (.fenceS 1) [(3, 1)]).executes 0 = true
    ∧ ((waitS (.fenceS 1) [(3, 1)]).bank 0).wait = .fenceS 1
    ∧ (∀ w ∈ ((waitS (.fenceS 1) [(3, 1)]).bank 0).dom, (waitS (.fenceS 1) [(3, 1)]).heldLine w.1 = false)
    ∧ lastWindow ((waitS (.fenceS 1) [(3, 1)]).bank 0).dom + 1 ≤ (waitS (.fenceS 1) [(3, 1)]).window
    ∧ ((waitS (.fenceS 2) []).bank 0).dom = []
    ∧ ((lateS false).bank 0).prom 3 = some ⟨3, .promised, 5, true, false⟩ ∧ 5 < (lateS false).cycle
    ∧ (∃ f ∈ ((lateS false).bank 0).flights, f.n = 3)
    ∧ ((lateS true).bank 0).prom 3 = some ⟨3, .promised, 5, true, true⟩
    ∧ (({ coreS id with banks := [(0, { Bank.init with proms := [(3, ⟨3, .complete, 5, true, false⟩)] })] } : State).bank 0).prom 3
      = some ⟨3, .complete, 5, true, false⟩ := by
  decide

/-! ### Events: checked entries, the durable tier -/

/-- Bank 0 with the copy engine idle and a call in its queue, good or poisoned. -/
def calledS (bad : Bool) : State := coreS (fun b => b.modEngine .cx (fun g => { g with queue := [⟨.call 9, [], bad⟩] }))

/-- Bank 0 with an element of queue 0 that has not been compared. -/
def elemS : State := coreS (fun b => b.setQueue 0#3 [⟨1, true, 0, false⟩])

theorem witness_CheckedEntries :
    (coreS id).executes 0 = true ∧ (coreS id).present 0 = true
    ∧ (let s := (coreS id).modCore 0 (fun c => { c with active := 1 })
       s.present 0 = true ∧ s.isActive 0 = false)
    ∧ (let g := (((calledS false).bank 0).passBoundary .cx 3).engine .cx
       g.entry = none ∧ g.stopped = none ∧ g.mark = none ∧ g.queue = ⟨.call 9, [], false⟩ :: [])
    ∧ ((((calledS true).bank 0).passBoundary .cx 3).engine .cx).queue = ⟨.call 9, [], true⟩ :: []
    ∧ ((elemS.bank 0).passBoundary .vx 3).uncompared .vx = some 0#3
    ∧ (((coreS id).bank 0).passBoundary .vx 3).uncompared .vx = none ∧ ((((coreS id).bank 0).passBoundary .vx 3).engine .vx).queue = []
    ∧ ((coreS (fun b => b.modEngine .cx (fun g => { g with mark := some 1#32 }))).bank 0).markerReady .cx = true := by decide

/-- Bank 0 in a drain, with an element that has not been compared, or none. -/
theorem witness_CheckedEntries_drains :
    (busyS (.trap 2 0)).engaged 0 = true ∧ (busyS (.trap 2 0)).drains 0 = true ∧ ((busyS (.trap 2 0)).bank 0).uncompared .vx = none
    ∧ (((busyS (.trap 2 0)).modBank 0 (fun b => b.setQueue 0#3 [⟨1, true, 0, false⟩])).bank 0).uncompared .vx = some 0#3
    ∧ ((busyS (.trap 2 0)).modBank 0 (fun b => b.setQueue 0#3 [⟨1, true, 0, false⟩])).drains 0 = true
    ∧ ((busyS (.trap 2 0)).modBank 0 (fun b => b.setQueue 0#3 [⟨1, true, 0, false⟩])).engaged 0 = true := by decide

/-- Two mismatches of phase 0 so far. -/
theorem witness_CheckedEntries_mismatch :
    ((calledS false).bank 0).comparing = true ∧ ((calledS false).bank 0).misOpen = false
    ∧ ((coreS (fun b => { b with misOpen := true })).bank 0).misOpen = true
    ∧ ((coreS id).bank 0).comparing = false ∧ ((coreS id).bank 0).misOpen = false
    ∧ (let t := (calledS false).modBank 0 (fun b => Bank.countMismatch { b with mismatches := [(0, 2)] })
       0 ≤ 0 ∧ 0 ≤ ((calledS false).bank 0).phase ∧ 3 ≤ PMap.get 0 (t.bank 0).mismatches 0)
    ∧ PMap.get 0 (((calledS false).modBank 0 Bank.countMismatch).bank 0).mismatches 0 = 1
    ∧ ((calledS false).die 0).ymis < 0xFFFF ∧ ¬ (({ (calledS false).die 0 with ymis := 0xFFFF } : Die).ymis < 0xFFFF) := by decide

/-- The durable tier with stores not accepted, the second behind the first, the third to another module, and accepted stores. -/
def tierS (hok : Bool) (buf : List Accepted) : State :=
  let d := fun (i : Nat) (after : List Nat) =>
    ({ (default : DStore) with id := i, agent := if i = 3 then 1001 else 0, words := [(durableBase / 8 + i, 5)], after := after } : DStore)
  { coreS id with betony := { Betony.init with rdy := true, hok := hok, pending := [d 1 [], d 2 [1], d 3 []], buffer := buf, seq := 4 } }

/-- A buffer that is full. -/
def fullBuffer : List Accepted := [⟨3, List.replicate 0x200000 (0, 0)⟩]

theorem buffer_holds (hok : Bool) (ws : List (Nat × Word)) : bufferHolds (tierS hok [⟨3, ws⟩]).betony = 8 * ws.length := by
  simp [bufferHolds, tierS]

theorem fullBuffer_full : 0x1000000 < bufferHolds (tierS true fullBuffer).betony + 8 * 1 := by
  rw [fullBuffer, buffer_holds, List.length_replicate]
  decide

theorem witness_DurableTier :
    (tierS true []).betony.rdy = true ∧ (tierS true []).operates = true
    ∧ (∃ d, (tierS true []).betony.pending.find? (·.id = 2) = some d ∧ ∃ x ∈ d.after, ∃ y ∈ (tierS true []).betony.pending, y.id = x)
    ∧ (∃ d, (tierS true []).betony.pending.find? (·.id = 1) = some d ∧ (∀ x ∈ d.after, ∀ y ∈ (tierS true []).betony.pending, y.id ≠ x))
    ∧ (tierS true []).betony.hok = true ∧ bufferHolds (tierS true []).betony + 8 * 1 ≤ 0x1000000
    ∧ 0x1000000 < bufferHolds (tierS true fullBuffer).betony + 8 * 1
    ∧ (tierS false []).betony.hok = false ∧ (tierS false []).betony.buffer = []
    ∧ (tierS true [⟨3, [(8, 1)]⟩]).betony.buffer = ⟨3, [(8, 1)]⟩ :: [] :=
  ⟨rfl, rfl, ⟨_, rfl, by decide⟩, ⟨_, rfl, by decide⟩, rfl, by decide, fullBuffer_full, rfl, rfl, rfl⟩

/-- A store of the module's own, and one to another module. -/
theorem witness_DurableTier_own :
    (∃ d, (tierS true []).betony.pending.find? (·.id = 1) = some d ∧ d.own = true)
    ∧ (∃ d : DStore, d.own = false) := by
  refine ⟨⟨_, rfl, by decide⟩, ?_⟩
  exact ⟨{ (default : DStore) with words := [(0, 0)] }, by decide⟩

/-- A start from reset, and with a die that has no core left. -/
theorem witness_PowerCycles :
    (tierS true []).host.stopped = false ∧ State.reset.canStart = true ∧ (tierS true []).canStart = false
    ∧ (∃ d, d < 4 ∧ [0xFFFFFF, 0xFFFFFF, 0, 0xFFFFFF].getD d 0 = 0) :=
  ⟨rfl, rfl, rfl, ⟨2, by decide, rfl⟩⟩

/-- What self-test and repair report of a module with nothing out of service. -/
def goodStart : StartReport := ⟨List.replicate 4 0xFFFFFF, List.replicate 4 0xFFFF, 16, true, 0, true, 0⟩

/-- A start from reset leads out of the safe state where the image of manufacture verifies (which is uninterpreted: log 11). -/
theorem witness_PowerCycles_serves (h : (fwForm Config.factoryImage && fwSigned Config.factoryImage) = true) :
    ∃ t, exec (.startSequence goodStart) State.reset = .next t ∧ t.host.safe = false := by
  let g : HostSt := (State.reset.powerless State.reset.mem).scramble.repair.host.activate
  have hf : g.checkFw = (true, g) := by
    unfold HostSt.checkFw
    rw [if_pos]
    unfold HostSt.fwGood
    rw [show g.fwImage = Config.factoryImage from rfl]
    exact h
  have hu : (State.reset.powerless State.reset.mem).scramble.repair.unsafeStart goodStart true = none :=
    Option.isNone_iff_eq_none.1 (by decide +kernel)
  refine ⟨_, rfl, ?_⟩
  rw [if_neg (by decide)]
  simp only [show (State.reset.powerless State.reset.mem).scramble.repair.host.activate.checkFw = (true, g) from hf, hu]
  rfl

/-! ### Events: links, accesses from outside, management -/

/-- Die 1 in the link-down state with a held line, the host link up or down; a reservation of bank 0 on the domain. -/
def linkS (link : Bool) (r : Option Resv) : State :=
  let s := (coreS (fun b => { b with resv := r })).modDie 1 (fun d => { d with linkDown := true, heldLines := [⟨hostBase / 64, [1], 0⟩] })
  { s with host := { s.host with link := link }, cycle := 300 }

theorem witness_LinksComplete :
    (linkS true none).operates = true ∧ (linkS true none).host.link = true ∧ ((linkS true none).die 1).linkDown = true
    ∧ (linkS true (some ⟨64, 8, 0, 100, true⟩)).owned 1 = true ∧ (linkS true (some ⟨64, 8, 0, 0, true⟩)).owned 1 = false := by decide

/-- The host's atomics on a line of its own memory and on one of DRAM: aligned at the end of the line, misaligned, past its end, and on a
line that is poisoned. -/
theorem witness_LinksComplete_atomic :
    (linkS true none).snoopable (hostBase / 64) = true ∧ (linkS true none).snoopable 1 = true
    ∧ (linkS true none).owned (hostBase / 64) = false ∧ (56 % 8 = 0 ∧ 56 < 64) ∧ 57 % 8 ≠ 0 ∧ 64 ≤ 64
    ∧ hostBase / 64 ∉ (linkS true none).poison ∧ 1 ∈ ({ linkS true none with poison := [1] } : State).poison
    ∧ (∃ t, exec (.hostSnoop ⟨hostBase / 64, some ⟨60, false, .add, 5#64⟩⟩) (linkS true none) = .next t
      ∧ (t.mem.get (hostBase + 60) == 5#8 && t.host.answer == [0]) = true) :=
  ⟨by decide, by decide, by decide, by decide, by decide, by decide, by decide, by decide, nextAnd_spec (by decide +kernel)⟩

theorem witness_CommandStatus :
    (linkS true none).host.stopped = false ∧ (linkS true none).cur.port = .mailbox
    ∧ ({ linkS true none with cur := { (linkS true none).cur with port := .i3c } } : State).cur.port = .i3c
    ∧ (let s := { linkS true none with host := { (linkS true none).host with safe := true } }
       s.host.stopped = false ∧ s.host.safe = true ∧ ({ s with cur := { s.cur with port := .i3c } } : State).host.safe = true)
    ∧ State.reset.host.stopped = false ∧ ({ State.reset.host with stopped := true } : HostSt).stopped = true := by decide

/-- A module whose lines 0 and of host address 0 are poisoned. -/
def poisonedS : State := { linkS true none with poison := [0, lineOf (hdmPa 0)] }

theorem witness_OutsideAccesses :
    (linkS true none).operates = true ∧ (linkS true none).betony.rdy = true ∧ ([1, 2] : List Byte).length = 2 ∧ 0 < 2
    ∧ (linkS true none).hdmMissing 0 2 = false ∧ (linkS true none).hdmMissing (2 ^ 60) 2 = true
    ∧ (linesOf (hdmPa 0) 2).any (linkS true none).poison.contains = false ∧ (linesOf (hdmPa 0) 2).any poisonedS.poison.contains = true
    ∧ (∀ i, i < 2 → match regionOf (0 + i) with | .dram d => (0 + i) % dramSpan < (linkS true none).dramBytes d | _ => False)
    ∧ 0 + 2 ≤ flashSize ∧ 0 + 2 ≤ durableEnd - reservedBase ∧ isHeld 0 = true := by
  refine ⟨by decide, by decide, rfl, by decide, by decide, by decide, by decide, by decide, fun i hi => ?_, by decide, by decide, by decide⟩
  have h0 : regionOf (0 + 0) = .dram 0 := by decide
  have h1 : regionOf (0 + (0 + 1)) = .dram 0 := by decide
  rcases i with _ | _ | i
  · simp only [h0]; decide
  · simp only [h1]; decide
  · omega

/-- A host write of the last eight bytes of a line of the durable tier. -/
theorem witness_OutsideAccesses_durable :
    regionOf (hdmPa (4 * dramSpan)) = .durable ∧ (4 * dramSpan + 56) % 64 + 8 ≤ 64 ∧ (linkS true none).hdmMissing (4 * dramSpan + 56) 8 = false
    ∧ (∃ t, exec (.hostMemAccess (4 * dramSpan + 56) 8 (some [1, 2, 3, 4, 5, 6, 7, 8])) (linkS true none) = .next t
      ∧ (t.betony.pending.length == 1 && t.mem.get (durableBase + 63) == 8#8) = true) :=
  ⟨by decide, by decide, by decide, nextAnd_spec (by decide +kernel)⟩

/-- A peer's access outside the module's DRAM and durable tier. -/
theorem witness_OutsideAccesses_peer :
    regionOf (coreBase + 0) ≠ .durable ∧ ¬ (match regionOf (coreBase + 0) with | .dram d => (coreBase + 0) % dramSpan < (linkS true none).dramBytes d | _ => False) := by
  constructor
  · decide
  · rw [show regionOf (coreBase + 0) = .scratch 0 from by decide]
    exact id

/-- Agent 5 of another module has reserved the doubleword at 64, or nothing. -/
def reservedS (r : Option Resv) : State :=
  let s := linkS true none
  { s with host := { s.host with peerResvs := (r.map (fun r => (5, r))).toList } }

/-- Atomics on aligned words and doublewords of DRAM, in the last one of a line, misaligned ones, and on a poisoned line; a reservation of the
agent that an SC finds, and none; writes that meet its bytes at either end. -/
theorem witness_PeerAtomics :
    (linkS true none).operates = true ∧ (linkS true none).host.snoops = []
    ∧ (∀ i, i < 8 → match regionOf (56 + i) with | .dram d => (56 + i) % dramSpan < (linkS true none).dramBytes d | _ => False)
    ∧ 56 % 8 = 0 ∧ 60 % 4 = 0 ∧ 60 % 8 ≠ 0 ∧ (linesOf 56 8).any (linkS true none).poison.contains = false
    ∧ (linesOf 56 8).any poisonedS.poison.contains = true
    ∧ PMap.find (reservedS (some ⟨56, 8, 0, 0, true⟩)).host.peerResvs 5 = some ⟨56, 8, 0, 0, true⟩
    ∧ PMap.find (reservedS none).host.peerResvs 5 = none ∧ 49 < 56 + 8 ∧ 56 < 49 + [1#8, 2, 3, 4, 5, 6, 7, 8].length ∧ 63 < 56 + 8
    ∧ (∃ t, exec (.peerAccess 56 0 ⟨5, .amo .add true 7#64⟩) (linkS true none) = .next t ∧ (t.mem.get 56 == 7#8 && t.host.answer == [0]) = true)
    ∧ (∃ t, exec (.peerAccess 56 0 ⟨5, .sc true 7#64⟩) (reservedS (some ⟨56, 8, 0, 0, true⟩)) = .next t
      ∧ (t.mem.get 56 == 7#8 && t.host.answer == [0] && t.host.peerResvs.isEmpty) = true)
    ∧ (∃ t, exec (.peerAccess 56 0 ⟨5, .sc true 7#64⟩) (reservedS none) = .next t ∧ (t.mem.get 56 == 0#8 && t.host.answer == [1]) = true) := by
  refine ⟨by decide, by decide, fun i hi => ?_, by decide, by decide, by decide, by decide, by decide, by decide, by decide, by decide, by decide,
    by decide, nextAnd_spec (by decide +kernel), nextAnd_spec (by decide +kernel), nextAnd_spec (by decide +kernel)⟩
  have h : regionOf (56 + i) = .dram 0 := by
    unfold regionOf
    rw [if_pos (by unfold dramSpan; omega), if_neg (by unfold holdingOff dramSpan; omega), Nat.div_eq_of_lt (by unfold dramSpan; omega)]
  simp only [h]
  have : (56 + i) % dramSpan = 56 + i := by unfold dramSpan; omega
  rw [this]
  exact Nat.lt_of_lt_of_le (by omega) (by decide : 64 ≤ (linkS true none).dramBytes 0)

theorem witness_ErrorsDetected :
    (coreS id).operates = true ∧ (3 < 4) ∧ isHeld 0 = true ∧ 191 < 192
    ∧ (let rows := fun (n : Nat) => ((5, (coreS id).ftime) :: (List.replicate n (5, (coreS id).ftime)).filter (fun e =>
         ((coreS id).ftime + (2 ^ 64 - e.2)) % 2 ^ 64 < 1000000000)).filter (·.1 = 5)
       (rows 14).length < 16 ∧ 16 ≤ (rows 15).length) := by decide

theorem witness_ManagementRegisters :
    ((coreS id).regValue (.rasstat 3)).isSome = true ∧ ((coreS id).regValue .domcfg).isSome = true ∧ (coreS id).regValue (.caps 4) = none
    ∧ (coreS id).host.stopped = false ∧ (coreS id).operates = true := by decide

theorem witness_VirtualFunctions :
    (coreS id).frozen 511 = false ∧ ((coreS id).vf 511).en = false
    ∧ ((coreS id).setVf 511 { (coreS id).vf 511 with tdi := .locked }).frozen 511 = true ∧ ((coreS id).vf 511).tdi = .unlocked
    ∧ ({ coreS id with host := { (coreS id).host with session := some 1 } } : State).host.session.isSome = true := by decide

/-- An image of good form, of version 0. -/
def imageF : List Byte := leBytes 4 0x4B425846 ++ List.replicate 444 0

/-- The clause of a good signature, under the key that is uninterpreted (log 11), is met by any image that the key's owner signs. -/
theorem witness_FirmwareAndKeys :
    State.reset.host.stopped = false ∧ State.reset.host.safe = false ∧ fwForm imageF = true ∧ fwForm [] = false ∧ State.reset.host.fwMin ≤ leNat ((imageF.drop 8).take 4)
    ∧ State.reset.host.fwActive = 0 ∧ ({ State.reset.host with fwStaged := true, fwActive := 1 } : HostSt).fwStaged = true
    ∧ State.reset.host.fwStaged = false
    ∧ ({ State.reset.host with session := some 1 } : HostSt).session.isSome = true ∧ 4 < 5 := by decide +kernel

/-! ### The step -/

theorem witness_RoundTrip : (Instr.load .lwu 31#5 31#5 0xFFF#12).scalarOk = true ∧ (Instr.vsoft 7#3 false 1#2).wordOk .vx = true := by decide

theorem witness_StepKeepsMemOk : MemOk State.reset ∧ ∃ t, step (State.reset.withFetchWord 32 0x13) = .next t ∧ (t.mem.get placedPage == 0x13) = true :=
  ⟨⟨by decide, by decide⟩, nextAnd_spec (by decide)⟩

/-- A turn of a control core, and a read of a register that the dies do not have. -/
theorem witness_OnlyOutsideFaults :
    (∀ i, (State.reset.withFetchWord 32 0x13).nextTurn.who ≠ .event i)
    ∧ step { State.reset with schedule := [turnOf (.event (.regRead (.caps 4)))] } = .fault .noAddress :=
  ⟨fun i h => by rw [show (State.reset.withFetchWord 32 0x13).nextTurn.who = .core 0 from by decide] at h; exact Agent.noConfusion h, rfl⟩

/-- A control core at an instruction's place. -/
def atCore (w : Nat) : State := State.reset.withFetchWord 32 w

/-- The turn of control core 0, up to the bytes it fetches, and the state in which they are decoded. -/
def fetched (s : State) (p : List Byte → State → Bool) : Bool :=
  let q := s.pass s.nextTurn
  match q.claimAll 0 with
  | some c => s.nextTurn.who == .core 0 && (q.bank 0).saving.isNone && (q.bank 0).draining == .none && !(c.bank 0).loading
      && c.handleBank 0 == 0 && ((c.reissueCore 0).bank 0).due.isNone && okAnd ((fetchBytes 0).run (c.reissueCore 0)) (fun bs t =>
        p bs { t with cur := { t.cur with bid := 0, eng := none, ilen := bs.length, ibits := leNat bs } })
  | none => false

/-- The same with a trap due. -/
def trapped (s : State) : Bool :=
  let q := s.pass s.nextTurn
  match q.claimAll 0 with
  | some c => s.nextTurn.who == .core 0 && (q.bank 0).saving.isNone && (q.bank 0).draining == .none && !(c.bank 0).loading
      && c.handleBank 0 == 0 && ((c.reissueCore 0).bank 0).due.isSome
  | none => false

def atEngine (w : Half) : State := State.reset.placeWord .cx w

/-- The turn of the copy engine of bank 0, up to the word it stands at. -/
def engineAt (s : State) (p : Half → Bool) : Bool :=
  let q := s.pass s.nextTurn
  match q.engineTurn 0 with
  | some (c, [m]) => s.nextTurn.who == .engine 0 .cx && (c.bank m).task.isSome && !(c.bank m).loading && (if c.drains m then !c.stays m .cx else c.isActive m && c.ready m)
      && !(c.reissueWord m .cx).wordPoison m .cx
      && (match (c.reissueWord m .cx).engineWord m .cx with | some w => p w | none => false)
  | _ => false

/-- What the bytes decode to reads no poisoned register, or one. -/
def decodesTo (p : Instr → Bool) (bs : List Byte) : Bool := match decodeScalar bs with | .ok x => p x.1 | .error _ => false

/-- A control core at `addi x0, x0, 0`, at `addi x0, x1, 0` with x1 poisoned, in U-mode at `vcrep x1` with x1 poisoned, at a word that is no instruction, with a trap due; an engine at
`mark 0`'s word and at an illegal one; a step of the host. -/
theorem witness_StepRunsDecoded :
    fetched (atCore 0x13) (fun bs t => decodesTo (fun i => !t.readsPoison 0 i) bs) = true
    ∧ fetched ((atCore 0x8013).modBank 0 (fun b => { b with marks := [.x 1#5] })) (fun bs t => decodesTo (fun i => t.readsPoison 0 i) bs) = true
    ∧ fetched ((atCore 0x0200807B).modBank 0 (fun b => { b with marks := [.x 1#5] })) (fun bs t => decodesTo (fun i => !t.readsPoison 0 i) bs) = true
    ∧ fetched (atCore 0xFFFFFFFF) (fun bs _ => !(decodeScalar bs).isOk) = true
    ∧ trapped ((atCore 0x13).modBank 0 (fun b => { b with ctxDue := some 0x200000 })) = true
    ∧ engineAt (atEngine 0x0200#16) (fun w => (decodeWord .cx w).isOk) = true
    ∧ engineAt (atEngine 0x0000#16) (fun w => !(decodeWord .cx w).isOk) = true
    ∧ ({ State.reset with schedule := [turnOf (.event .hostLinkDown)] } : State).nextTurn.who = .event .hostLinkDown
    ∧ Instr.hostLinkDown.isEvent = true := by decide

/-- A control core in the middle of a drain, and of a save; an engine's word in a drain; and the turn of an engine whose word is a `tokr` that
waits for a token. -/
theorem witness_StepRunsDecoded_drains :
    (let s := (atCore 0x13).modBank 0 (fun b => { b with draining := .trap 2 0 })
     let q := s.pass s.nextTurn
     s.nextTurn.who = .core 0 ∧ q.host.stopped = false ∧ q.host.safe = false ∧ (q.bank 0).saving = none ∧ (q.bank 0).draining ≠ .none)
    ∧ (let s := (atCore 0x13).modBank 0 (fun b => { b with saving := some none })
       (((s.pass s.nextTurn).bank 0).saving ≠ none))
    ∧ engineAt ((atEngine 0x0200#16).modBank 0 (fun b => { b with draining := .trap 2 0 })) (fun w => (decodeWord .cx w).isOk) = true
    ∧ engineAt ((atEngine 0x1600#16).modBank 0 (fun b => { b with draining := .trap 2 0 })) (fun w => (decodeWord .cx w).isOk) = true
    ∧ ((atEngine 0x0200#16).modBank 0 (fun b => { b with draining := .trap 2 0 })).drains 0 = true
    ∧ (atEngine 0x0200#16).drains 0 = false := by decide

end Sys2Proof.Tests
end

