-- ==== Sys2Proof/Tests/Steps.lean ====
section
/-! SUPPORT. Tests of single steps on small states. Expected values come from the spec's worked examples and tables, or by hand from its
rules and from the RISC-V specifications. -/

namespace Sys2Proof.Tests

open Sys2Proof Sys2Proof.Machine

/-! ### Control core -/

/-- R222, R225: `addi x5, x0, -1` written out; a step runs it. -/
theorem test_step_addi :
    nextAnd (step (State.reset.withFetchWord 32 0b11111111111100000000001010010011))
      (fun t => (t.bank 0).readX 5#5 == 0xFFFFFFFFFFFFFFFF#64 && (t.bank 0).core.pc == BitVec.ofNat 64 placedPage + 4#64 && (t.bank 0).instret == 1)
      = true := by decide

/-- x3 after an integer instruction with x1 and x2 as given. -/
def x3 (i : Instr) (a b : Nat) : Option Word :=
  match exec i (coreS (xs [(1, a), (2, b)])) with | .next t => some (t.own.readX 3#5) | _ => none

/-- The corners of the M extension: division by zero, the one overflow, and a sum of words that wraps. -/
theorem test_integer_corners :
    x3 (.intRR .div 3#5 1#5 2#5) 7 0 = some 0xFFFFFFFFFFFFFFFF#64 ∧ x3 (.intRR .rem 3#5 1#5 2#5) 7 0 = some 7#64
    ∧ x3 (.intRR .div 3#5 1#5 2#5) (2 ^ 63) (2 ^ 64 - 1) = some 0x8000000000000000#64
    ∧ x3 (.intRR .rem 3#5 1#5 2#5) (2 ^ 63) (2 ^ 64 - 1) = some 0#64
    ∧ x3 (.intRR .addw 3#5 1#5 2#5) 0x7FFFFFFF 1 = some 0xFFFFFFFF80000000#64
    ∧ x3 (.intRR .mulhu 3#5 1#5 2#5) (2 ^ 64 - 1) (2 ^ 64 - 1) = some 0xFFFFFFFFFFFFFFFE#64 := by decide

/-- A misaligned `lw` of four bytes, little endian, sign-extended (R125). -/
theorem test_misaligned_load :
    (match exec (.load .lw 3#5 1#5 0xFFF#12)
        { coreS (xs [(1, 0x200006)]) with mem := (coreS id).mem.write 0x200005 [0x01, 0x02, 0x03, 0x84] } with
      | .next t => some (t.own.readX 3#5) | _ => none) = some 0xFFFFFFFF84030201#64 := by decide

/-- A standard ECALL in U-mode: scause 8, `sepc` its own address, S-mode at `stvec`, SPP 0, SIE to SPIE (R175, R225). -/
theorem test_ecall :
    nextAnd (exec .standardEcall (coreS (fun b => { b with core := { b.core with
        csr := { b.core.csr with stvec := 0x4000#64, sstatus := b.core.csr.sstatus ||| 2#64 } } })))
      (fun t => (t.bank 0).core.csr.scause == 8#64 && (t.bank 0).core.csr.sepc == (coreS id).own.core.pc && (t.bank 0).core.pc == 0x4000#64
        && decide ((t.bank 0).core.priv = .super) && (t.bank 0).core.csr.sstatus.getLsbD 5 && !(t.bank 0).core.csr.sstatus.getLsbD 1
        && !(t.bank 0).core.csr.sstatus.getLsbD 8) = true := by decide +kernel

/-- R253's example: marker 1 retired and number 0xFFFF_FFFE: the difference is 3, so the rendezvous fires. -/
theorem test_rdvs_wraps : nextAnd (exec (.rdvs 1#3 4#4 1#5) rvS) (fun t => t.own.core.rv[(1#3).toFin].state == .fired) = true := by
  decide +kernel

/-- A group of four at cores 4 to 7 of cluster 1, in core 6 (R174's example). -/
def core6 : State :=
  let t : Task := { placedTask with gsize := 4, group0 := 12 }
  let s := (coreS id).modBank 28 (fun b => { xs [(1, 4), (2, 4)] b with task := some t })
  { s with cur := { s.cur with bid := 28 } }

/-- Core 6 sets local bit 2, which is cluster bit 10 (R174's example). -/
theorem test_csync_example :
    nextAnd (exec (.csyncSet 1#5 2#5) core6) (fun t => (t.die 0).cond[(1 : Fin 3)] == 0x0400#16 && (t.die 0).cond[(0 : Fin 3)] == 0#16) = true := by
  decide

/-! ### Engine words -/

/-- Top of the parameter stack after a word. -/
def topOf (e : Engine) (i : Instr) (s : State) : Option (List Word) :=
  match exec i s with | .next t => some (t.ownRegs e).pstack | _ => none

/-- `lix` carries a lo above 32,767 into hi; `rot` brings the third entry to the top (R263). -/
theorem test_stack_words :
    topOf .cx .lix (engS .cx [0x8001, 2]) = some [0x18001#64] ∧ topOf .cx .rot (engS .cx [1, 2, 3, 4]) = some [3, 1, 2, 4] := by decide

/-- R265's example: `lget ls1` gives the shadow 40, and the test with a count of 0 leaves the loop. -/
theorem test_loop_example :
    let s := engS .cx [] (fun r => r.modLoop 1#2 (fun g => { g with ls := 31, le := 0, lc := 0, sls := some 40, active := true }))
    topOf .cx (.lget 1#2 1#2) s = some [40#64]
    ∧ nextAnd (exec (.endl 1#2) s) (fun t => (t.ownRegs .cx).upc == some 1 && !(t.ownRegs .cx).loops[loopIx 1#2].active) = true := by decide

/-- `kor k3, k1` is 0x6C31 (R308), and takes the bits of both. -/
theorem test_kor_example :
    nextAnd (step (let s := State.reset.placeWord .vx 0x6C31#16
        s.modBank 0 (fun b => b.modEngine .vx (·.modRegs (fun r => { r with k := (r.k.set 3 0x0005#16).set 1 0x0003#16 })))))
      (fun t => ((t.bank 0).engine .vx).regs.k[(3 : Fin 16)] == 0x0007#16) = true := by decide

/-- The keys of R218's table and of R286's example. -/
theorem test_keys :
    [0xC0000000, 0x80000000, 0x00000000, 0x3FC00000, 0x7F800000, 0xFFC00001, 0x3F000000, 0xBF800000, 0x3E800000].map keyFp32
      = [0x3FFFFFFF, 0x7FFFFFFF, 0x80000000, 0xBFC00000, 0xFF800000, 0xFFC00000, 0xBF000000, 0x407FFFFF, 0xBE800000] := by decide

/-- Eight values at 0x1000 as keys and values (R286's example). -/
def selEx (st : List Word) : State :=
  let keys := [0xBF000000, 0xC0000000, 0x407FFFFF, 0xC0000000, 0xFFC00000, 0xBE800000, 0xC0000000, 0x7FFFFFFF]
  let s := engS .sx st
  { s with mem := s.mem.write (coreBase + 0x2000) (keys.flatMap (leBytes 4)) }

/-- `selk` with k = 3 pushes Sel(3) = 0xC000_0000_0000_0002 (R286's example). -/
theorem test_selk_example : topOf .sx (.selk 8#4) (selEx [3, 8, 0x2000, 0x1000]) = some [0xC000000000000002#64, 0x1000#64] := by decide +kernel

/-- `cmpk` writes the indices 1, 3 and 4 and pushes 3 (R286's example). -/
theorem test_cmpk_example :
    nextAnd (exec (.cmpk 8#4) (selEx [0xC000000000000002, 8, 0x2000, 0x1000, 0x3000, 0x3100]))
      (fun t => (t.ownRegs .sx).pstack == [3#64] && t.mem.read (coreBase + 0x3000) 12 == leBytes 4 1 ++ leBytes 4 3 ++ leBytes 4 4) = true := by
  decide +kernel

/-- int8 sums saturate with OF (R298). -/
theorem test_int8_saturates : elemAdd 5 127 1 = (127, flagOF) ∧ elemSub 5 128 1 = (128, flagOF) := by decide

/-- exp and ln at the points where they are exact, and a reciprocal (R210, R298). -/
theorem test_functions : exp32 0 = 0x3F800000 ∧ ln32 0x3F800000 = 0 := by decide +kernel

/-- A row of eight ones by a column of eight ones is 8.0; the other elements of the tile are +0 (R319). -/
theorem test_mm_ones :
    nextAnd (exec (.mm 0#2 0#2 false 0#4 0#2) (mxOn [8, 3, 2] 0 1 1))
      (fun t => (t.ownRegs .mx).acc0.get 0 0 (accIx 0 0) == 0x41000000#32 && (t.ownRegs .mx).acc0.get 0 0 (accIx 1 2) == 0#32) = true := by
  decide +kernel

/-- An engine word that is illegal ends the nest of its task, which leaves the bank (R177, R229). -/
theorem test_illegal_word :
    nextAnd (step { State.reset.placeWord .cx 0#16 with nests := [parseNest [] 1 0 0 0 0] })
      (fun t => t.nests == [] && (t.bank 0).task.isNone) = true := by decide +kernel

/-- A `vscan` into q2 pushes its last sum; an earlier prefix that is not written raises no flag (R296, R304). -/
theorem test_vscan_last : scanLast 0 5 [(0, 100), (1, 100), (2, 128)] = some (72, 0) := by decide

/-- SHA-256 of "abc", the example of FIPS 180-4. -/
theorem test_sha256 :
    beNat (sha256 [0x61#8, 0x62#8, 0x63#8]) = 0xba7816bf8f01cfea414140de5dae2223b00361a396177a9cb410ff61f20015ad := by decide +kernel

/-- A padded digest verifies under a key of exponent 1; 65 to the 17 modulo 3,233 is 2,790, as by hand (RFC 8017). -/
theorem test_rsa :
    rsaVerifies (2 ^ 3072 - 1, 1) [0x61#8, 0x62#8, 0x63#8] (pkcsEncode (sha256 [0x61#8, 0x62#8, 0x63#8])) = true
    ∧ powMod 3233 8 65 17 = 2790 := by decide +kernel

end Sys2Proof.Tests
end

section
/-! SUPPORT. `ergr` (R204): what it reads in each kind of selector, and which selectors it refuses. -/

namespace Sys2Proof.Machine

theorem exec_ergr (d a : Reg) (s : State) : exec (.ergr d a) s = execErgr d a s := rfl

section ErgrSelector

variable {s : State} {a : Reg} {n : Nat} (d : Reg) (hn : (s.own.readX a).toNat = n)
include hn

/-- A VF selector without the sum bit reads the counter of the current VF on the die it names. -/
theorem execErgr_vfOnDie (hz : bits n 13 51 = 0) (hkind : bit n 12 = false) (hvf : bits n 0 9 = s.own.vfId)
    (hsum : bit n 11 = false) :
    execErgr d a s
      = .next (s.retires (·.writeX d (BitVec.ofNat 64 (s.vfEnergyOf (bits n 9 2) s.own.vfId))) s.after) := by
  refine runCc_modBank (t := s) ?_ rfl (Bank.writeX_pc ..)
  simp [hn, hz, hkind, hvf, hsum]

/-- A VF selector with the sum bit adds the counters of the current VF over the four dies, whatever die it names. -/
theorem execErgr_vfSum (hz : bits n 13 51 = 0) (hkind : bit n 12 = false) (hvf : bits n 0 9 = s.own.vfId)
    (hsum : bit n 11 = true) :
    execErgr d a s
      = .next (s.retires (·.writeX d (BitVec.ofNat 64 (s.vfEnergyOf 0 s.own.vfId + s.vfEnergyOf 1 s.own.vfId
          + s.vfEnergyOf 2 s.own.vfId + s.vfEnergyOf 3 s.own.vfId))) s.after) := by
  refine runCc_modBank (t := s) ?_ rfl (Bank.writeX_pc ..)
  simp [hn, hz, hkind, hvf, hsum, List.sum_range_succ]

/-- A core selector reads, in S-mode, the counter of the core it names by die and index. -/
theorem execErgr_core (hz : bits n 13 51 = 0) (hkind : bit n 12 = true) (hsum : bit n 11 = false)
    (hpriv : s.own.core.priv = .super) (hix : bits n 0 9 ≤ 23) :
    execErgr d a s
      = .next (s.retires (·.writeX d (BitVec.ofNat 64 (s.coreSt (24 * bits n 9 2 + bits n 0 9)).energy)) s.after) := by
  refine runCc_modBank (t := s) ?_ rfl (Bank.writeX_pc ..)
  simp [hn, hz, hkind, hsum, hpriv, hix.not_gt, Nat.mul_comm 24]

/-- R204's first case of illegal-instruction, whatever the kind. -/
theorem execErgr_reservedBits (hz : bits n 13 51 ≠ 0) :
    execErgr d a s = .next (s.takeTrap s.cur.bid 2 s.cur.ibits) := by
  refine runCc_error (t := s) (e := .trap 2 s.cur.ibits) ?_
  simp [hn, hz]

/-- R204 keeps the counters of other VFs from a program, in either mode. -/
theorem execErgr_otherVf (hkind : bit n 12 = false) (hvf : bits n 0 9 ≠ s.own.vfId) :
    execErgr d a s = .next (s.takeTrap s.cur.bid 2 s.cur.ibits) := by
  by_cases hz : bits n 13 51 = 0
  · refine runCc_error (t := s) (e := .trap 2 s.cur.ibits) ?_
    simp [hn, hz, hkind, hvf]
  · exact execErgr_reservedBits d hn hz

/-- R204's cases for the core kind: U-mode, the sum bit, an index past the die's 24 cores. -/
theorem execErgr_coreRefused (hkind : bit n 12 = true)
    (hbad : s.own.core.priv = .user ∨ bit n 11 = true ∨ 23 < bits n 0 9) :
    execErgr d a s = .next (s.takeTrap s.cur.bid 2 s.cur.ibits) := by
  by_cases hz : bits n 13 51 = 0
  · refine runCc_error (t := s) (e := .trap 2 s.cur.ibits) ?_
    simp [hn, hz, hkind, or_assoc, hbad]
  · exact execErgr_reservedBits d hn hz

end ErgrSelector

end Sys2Proof.Machine

namespace Sys2Proof.Proofs

open Sys2Proof Sys2Proof.Machine

/-- Settles O29, by the kinds of selector that R204's table gives and the cases in which it raises illegal-instruction. -/
theorem energyCounters : Obligations.EnergyCounters := by
  unfold Obligations.EnergyCounters
  simp only [exec_ergr]
  intro s d a
  refine ⟨fun hz hkind hvf => ⟨execErgr_vfOnDie d rfl hz hkind hvf, execErgr_vfSum d rfl hz hkind hvf⟩,
    execErgr_core d rfl, ?_⟩
  rintro (hz | ⟨hkind, hvf⟩ | ⟨hkind, hbad⟩)
  · exact execErgr_reservedBits d rfl hz
  · exact execErgr_otherVf d rfl hkind hvf
  · exact execErgr_coreRefused d rfl hkind hbad

end Sys2Proof.Proofs
end

section
/-! SUPPORT. The stack words (R263): what each comes to, where it is illegal, and its encoding. -/

namespace Sys2Proof.Machine

/-! ### What an engine word comes to -/

theorem State.regs_eq_ownRegs (s : State) (e : Engine) : ((s.bank s.cur.bid).engine e).regs = s.ownRegs e := rfl

theorem Eng.modRegs_modRegs (g : Eng) (f h : EngRegs → EngRegs) : (g.modRegs f).modRegs h = g.modRegs (fun r => h (f r)) := rfl

section WordBody

variable {body : Engine → M Flow} {s : State} {e : Engine} (he : s.cur.eng = some e)
include he

/-- A word that only writes registers of its engine. -/
theorem runWord_modRegs {f : EngRegs → EngRegs} {go : Flow}
    (h : (body e).run s = .ok go (s.modBank s.cur.bid (fun b => b.modEngine e (·.modRegs f)))) :
    runWord body s = .next (s.wordEnds e f go) := runWord_ok he h

/-- A word that is illegal before it changes anything (R229). -/
theorem runWord_illegal (h : (body e).run s = .error (.ends 0x10) s) :
    runWord body s = .next (s.faultEnd s.cur.bid e 0x10) := runWord_error he h

end WordBody

/-! ### Operands -/

/-- A word takes its operands off the top where they are there and its results have room, and leaves the stack as it is. -/
theorem run_operands {s : State} {e : Engine} {n k : Nat} {ops rest : List Word} (hst : (s.ownRegs e).pstack = ops ++ rest)
    (hops : ops.length = n) (hroom : rest.length + k ≤ 8) : (operands e n k).run s = .ok ops s := by
  have hlen : (s.ownRegs e).pstack.length = n + rest.length := by rw [hst, List.length_append, hops]
  have h := M.bind_operands e n k pure s (by rw [State.regs_eq_ownRegs]; omega)
    (by rw [State.regs_eq_ownRegs]; simp only [paramDepth]; omega)
  rw [bind_pure, State.regs_eq_ownRegs, hst, List.take_left' hops] at h
  exact h

/-- A word that pops one entry takes the top. -/
theorem run_operands_one {s : State} {e : Engine} {v : Word} {rest : List Word} (hst : (s.ownRegs e).pstack = v :: rest)
    (hroom : rest.length ≤ 8) : (operands e 1 0).run s = .ok [v] s := run_operands (ops := [v]) hst rfl hroom

/-- A word that pops one entry is illegal on an empty stack. -/
theorem run_operands_empty {s : State} {e : Engine} (hst : (s.ownRegs e).pstack = []) :
    (operands e 1 0).run s = .error (.ends 0x10) s :=
  M.run_operands_bad e 1 0 s (.inl (by rw [State.regs_eq_ownRegs, hst]; exact Nat.one_pos))

/-! ### Stack words -/

theorem exec_literal (v : BitVec 15) (s : State) : exec (.literal v) s = stackWord 0 1 (fun _ => [v.setWidth 64]) s := rfl
theorem exec_lix (s : State) : exec .lix s = execLix s := rfl
theorem exec_dup (s : State) : exec .dup s = execDup s := rfl
theorem exec_drop (s : State) : exec .drop s = execDrop s := rfl
theorem exec_swap (s : State) : exec .swap s = execSwap s := rfl
theorem exec_rot (s : State) : exec .rot s = execRot s := rfl
theorem exec_nop (s : State) : exec .nop s = execNop s := rfl

section StackWord

variable {s : State} {e : Engine} {pops pushes : Nat} {f : List Word → List Word} (he : s.cur.eng = some e)
include he

/-- A stack word replaces the operands that it pops. -/
theorem stackWord_ends {ops rest : List Word} (hst : (s.ownRegs e).pstack = ops ++ rest) (hops : ops.length = pops)
    (hroom : rest.length + pushes ≤ 8) :
    stackWord pops pushes f s = .next (s.wordEnds e (fun r => { r with pstack := f ops ++ r.pstack.drop pops }) .next) := by
  refine runWord_modRegs he ?_
  rw [M.bind_ok (run_operands hst hops hroom)]
  rfl

/-- A stack word with too few operands, or with no room for its results, ends the nest and pops nothing. -/
theorem stackWord_bad (h : (s.ownRegs e).pstack.length < pops ∨ 8 < (s.ownRegs e).pstack.length - pops + pushes) :
    stackWord pops pushes f s = .next (s.faultEnd s.cur.bid e 0x10) := runWord_operands_bad he h

end StackWord

/-! ### Encodings (R227, R230) -/

theorem toNat_opWord (op : BitVec 6) (m : BitVec 9) : (opWord op m).toNat = 512 * op.toNat + m.toNat := by
  have hop : (0#1 ++ op).toNat = op.toNat := by rw [BitVec.toNat_append]; simp
  rw [BitVec.toNat_append, ← Nat.shiftLeft_add_eq_or_of_lt m.isLt, Nat.shiftLeft_eq, hop, Nat.mul_comm]

theorem toNat_encodeWord_literal (v : BitVec 15) : (encodeWord (.literal v)).toNat = 0x8000 + v.toNat := by
  change (1#1 ++ v).toNat = _
  rw [BitVec.toNat_append, ← Nat.shiftLeft_add_eq_or_of_lt v.isLt, Nat.shiftLeft_eq]
  norm_num

/-- Bit 0 of `rot` is a word of the vector engine alone (R230). -/
theorem decodeWord_rotD {o : Engine} (ho : o ≠ .vx) : decodeWord o 0x0A01#16 = .error .badModifier := by
  cases o with
  | vx => exact absurd rfl ho
  | mx | cx | sx => rfl

end Sys2Proof.Machine

namespace Sys2Proof.Proofs

open Sys2Proof Sys2Proof.Machine

/-- Settles O32: each word is a `stackWord`, which has one way to complete and one to be illegal; the depths decide between them. -/
theorem stackWords : Obligations.StackWords := by
  unfold Obligations.StackWords
  simp only [exec_literal, exec_lix, exec_dup, exec_drop, exec_swap, exec_rot, exec_nop]
  intro s e he
  refine ⟨fun v => ⟨fun hroom => stackWord_ends he (ops := []) rfl rfl hroom,
      fun hfull => stackWord_bad he (.inr (Nat.lt_succ_of_le hfull))⟩,
    fun lo hi rest hst hroom => stackWord_ends he (ops := [lo, hi]) hst rfl hroom,
    fun a rest hst hroom => stackWord_ends he (ops := [a]) hst rfl (Nat.succ_le_succ hroom),
    fun a rest hst hfull => stackWord_bad he (.inr (by rw [hst, List.length_cons]; omega)),
    fun a rest hst hroom => stackWord_ends he (ops := [a]) hst rfl hroom,
    fun a b rest hst hroom => stackWord_ends he (ops := [a, b]) hst rfl (Nat.add_le_add_right hroom 2),
    fun a b c rest hst hroom => stackWord_ends he (ops := [a, b, c]) hst rfl (Nat.add_le_add_right hroom 3),
    fun hst => ⟨stackWord_bad he (.inl (by simp [hst])), stackWord_bad he (.inl (by simp [hst]))⟩,
    fun hfew => ⟨stackWord_bad he (.inl hfew), stackWord_bad he (.inl hfew)⟩,
    fun hfew => stackWord_bad he (.inl hfew),
    runWord_ok he rfl, toNat_encodeWord_literal, by decide, fun o ho => ⟨_, decodeWord_rotD ho⟩⟩

end Sys2Proof.Proofs
end

section
/-! SUPPORT. The hardware loops (R158, R264) and their registers (R265): what each word comes to, where it is illegal, and the word that
`loop` finds. -/

namespace Sys2Proof.Machine

theorem exec_loop (l : BitVec 2) (s : State) : exec (.loop l) s = execLoop l s := rfl
theorem exec_endl (l : BitVec 2) (s : State) : exec (.endl l) s = execEndl l s := rfl
theorem exec_lset (k l : BitVec 2) (s : State) : exec (.lset k l) s = execLset k l s := rfl
theorem exec_lget (k l : BitVec 2) (s : State) : exec (.lget k l) s = execLget k l s := rfl

/-! ### The end of a loop's body (R264) -/

/-- What `firstEndl` finds lies behind the word, is the `endl` of its level, and is the first one. -/
theorem firstEndl_some {store : List Half} {l : BitVec 2} {a x : Nat} (h : firstEndl store l a = some x) :
    a < x ∧ store[x]? = some (endlWord l) ∧ ∀ y, a < y → y < x → store[y]? ≠ some (endlWord l) := by
  obtain ⟨i, hi, rfl⟩ := Option.map_eq_some_iff.mp h
  obtain ⟨_, hword, hfirst⟩ := List.findIdx?_eq_some_iff_getElem.mp hi
  rw [List.getElem_drop, decide_eq_true_eq] at hword
  refine ⟨by omega, ?_, fun y hay hyx hy => ?_⟩
  · rw [Nat.add_comm i, ← hword]; exact List.getElem?_eq_getElem _
  · obtain ⟨k, rfl⟩ := Nat.exists_eq_add_of_le (Nat.succ_le_of_lt hay)
    obtain ⟨_, hk⟩ := List.getElem?_eq_some_iff.mp hy
    refine hfirst k (by omega) ?_
    rw [List.getElem_drop, decide_eq_true_eq]
    exact hk

/-- Where `firstEndl` finds nothing, no `endl` of the level lies behind the word. -/
theorem firstEndl_none {store : List Half} {l : BitVec 2} {a y : Nat} (h : firstEndl store l a = none) (hay : a < y) :
    store[y]? ≠ some (endlWord l) := by
  intro hy
  obtain ⟨k, rfl⟩ := Nat.exists_eq_add_of_le (Nat.succ_le_of_lt hay)
  have hmem : endlWord l ∈ store.drop (a + 1) :=
    List.mem_of_getElem? (i := k) (by rw [List.getElem?_drop]; exact hy)
  simpa using List.findIdx?_eq_none_iff.mp (Option.map_eq_none_iff.mp h) _ hmem

/-! ### `loop` and `endl` (R264) -/

/-- The level's registers as `loop` enters with a count, or skips on 0, at word `a` with the body's end given. -/
def LoopReg.entered (g : LoopReg) (c : BitVec 32) (a stop : Nat) : LoopReg :=
  { lc := if c = 0 then g.lc else c, ls := g.sls.getD (a + 1), le := stop, sls := none, sle := none, active := c ≠ 0 }

section Loops

variable {s : State} {e : Engine} {l : BitVec 2} {a stop : Nat} (he : s.cur.eng = some e)
include he

/-- A `loop` against no rule enters or skips by its count. -/
theorem execLoop_ends {v : Word} {rest : List Word} (hpc : (s.ownRegs e).upc = some a) (hst : (s.ownRegs e).pstack = v :: rest)
    (hroom : rest.length ≤ 8) (hoff : (s.ownRegs e).loops[loopIx l].active = false)
    (hstop : (s.ownRegs e).loops[loopIx l].sle = some stop ∨ (s.ownRegs e).loops[loopIx l].sle = none
      ∧ firstEndl ((s.coreSt (coreOf s.cur.bid)).store[engIx e]) l a = some stop) :
    execLoop l s = .next (s.wordEnds e
      (fun r => EngRegs.modLoop { r with pstack := r.pstack.drop 1 } l (·.entered (v.setWidth 32) a stop))
      (if v.setWidth 32 = 0#32 then .goto (stop + 1) else .next)) := by
  refine runWord_modRegs he ?_
  have hops := run_operands_one hst hroom
  obtain hsle | ⟨hsle, hfind⟩ := hstop
  · simp [State.regs_eq_ownRegs, -Fin.getElem_fin, hpc, hoff, hsle, hops, Eng.modRegs_modRegs, LoopReg.entered]
  · simp [State.regs_eq_ownRegs, -Fin.getElem_fin, hpc, hoff, hsle, hfind, hops, Eng.modRegs_modRegs, LoopReg.entered]

/-- A `loop` that is no routine word. -/
theorem execLoop_bad_of_raw (hpc : (s.ownRegs e).upc = none) : execLoop l s = .next (s.faultEnd s.cur.bid e 0x10) := by
  refine runWord_illegal he ?_
  simp [State.regs_eq_ownRegs, hpc]

/-- A `loop` of a level that is active. -/
theorem execLoop_bad_of_active (hon : (s.ownRegs e).loops[loopIx l].active = true) :
    execLoop l s = .next (s.faultEnd s.cur.bid e 0x10) := by
  cases hpc : (s.ownRegs e).upc with
  | none => exact execLoop_bad_of_raw he hpc
  | some a =>
    refine runWord_illegal he ?_
    simp [State.regs_eq_ownRegs, -Fin.getElem_fin, hpc, hon]

/-- A `loop` whose body has no end, in the shadow or in the store behind the word. -/
theorem execLoop_bad_of_endless (hpc : (s.ownRegs e).upc = some a) (hsle : (s.ownRegs e).loops[loopIx l].sle = none)
    (hfind : firstEndl ((s.coreSt (coreOf s.cur.bid)).store[engIx e]) l a = none) :
    execLoop l s = .next (s.faultEnd s.cur.bid e 0x10) := by
  cases hact : (s.ownRegs e).loops[loopIx l].active with
  | true => exact execLoop_bad_of_active he hact
  | false =>
    refine runWord_illegal he ?_
    simp [State.regs_eq_ownRegs, -Fin.getElem_fin, hpc, hact, hsle, hfind]

/-- A `loop` without a count on the stack. -/
theorem execLoop_bad_of_uncounted (hst : (s.ownRegs e).pstack = []) : execLoop l s = .next (s.faultEnd s.cur.bid e 0x10) := by
  have hops := run_operands_empty hst
  cases hpc : (s.ownRegs e).upc with
  | none => exact execLoop_bad_of_raw he hpc
  | some a =>
    cases hact : (s.ownRegs e).loops[loopIx l].active with
    | true => exact execLoop_bad_of_active he hact
    | false =>
      cases hsle : (s.ownRegs e).loops[loopIx l].sle with
      | some stop =>
        refine runWord_illegal he ?_
        simp [State.regs_eq_ownRegs, -Fin.getElem_fin, hpc, hact, hsle, hops]
      | none =>
        cases hfind : firstEndl ((s.coreSt (coreOf s.cur.bid)).store[engIx e]) l a with
        | none => exact execLoop_bad_of_endless he hpc hsle hfind
        | some stop =>
          refine runWord_illegal he ?_
          simp [State.regs_eq_ownRegs, -Fin.getElem_fin, hpc, hact, hsle, hfind, hops]

/-- `endl` at the end of an active level's body leaves the loop on a count of 0 or 1. -/
theorem execEndl_leaves (hpc : (s.ownRegs e).upc = some (s.ownRegs e).loops[loopIx l].le)
    (hon : (s.ownRegs e).loops[loopIx l].active = true) (hlast : (s.ownRegs e).loops[loopIx l].lc.toNat ≤ 1) :
    execEndl l s = .next (s.wordEnds e (·.modLoop l (fun g => { g with lc := 0, active := false })) .next) := by
  refine runWord_modRegs he ?_
  simp [State.regs_eq_ownRegs, -Fin.getElem_fin, hpc, hon, hlast]

/-- `endl` at the end of an active level's body counts down and goes back on a count above 1. -/
theorem execEndl_repeats (hpc : (s.ownRegs e).upc = some (s.ownRegs e).loops[loopIx l].le)
    (hon : (s.ownRegs e).loops[loopIx l].active = true) (hmore : 1 < (s.ownRegs e).loops[loopIx l].lc.toNat) :
    execEndl l s = .next (s.wordEnds e (·.modLoop l (fun g => { g with lc := g.lc - 1 }))
      (.goto (s.ownRegs e).loops[loopIx l].ls)) := by
  refine runWord_modRegs he ?_
  simp [State.regs_eq_ownRegs, -Fin.getElem_fin, hpc, hon, hmore.not_ge]

/-- `endl` elsewhere than at the end of an active level's body. -/
theorem execEndl_bad (h : (s.ownRegs e).upc ≠ some (s.ownRegs e).loops[loopIx l].le ∨ (s.ownRegs e).loops[loopIx l].active = false) :
    execEndl l s = .next (s.faultEnd s.cur.bid e 0x10) := by
  refine runWord_illegal he ?_
  obtain hpc | hoff := h
  · simp [State.regs_eq_ownRegs, -Fin.getElem_fin, hpc]
  · simp [State.regs_eq_ownRegs, -Fin.getElem_fin, hoff]

end Loops

/-! ### `lset` and `lget` (R265) -/

/-- What `lset` makes of the level's registers: a count at once, a start or an end in the shadow. -/
def LoopReg.written (g : LoopReg) (k : BitVec 2) (v : Word) : LoopReg :=
  if k = 0 then { g with lc := v.setWidth 32 } else if k = 1 then { g with sls := some v.toNat } else { g with sle := some v.toNat }

section LoopRegisters

variable {s : State} {e : Engine} {k l : BitVec 2} {v : Word} {rest : List Word} (he : s.cur.eng = some e)
include he

/-- `lset` writes a count of any value, and a start or an end that lies in the store. -/
theorem execLset_ends (hst : (s.ownRegs e).pstack = v :: rest) (hroom : rest.length ≤ 8) (hv : k = 0#2 ∨ v.toNat ≤ 8191) :
    execLset k l s
      = .next (s.wordEnds e (fun r => EngRegs.modLoop { r with pstack := r.pstack.drop 1 } l (·.written k v)) .next) := by
  refine runWord_modRegs he ?_
  have hops := run_operands_one hst hroom
  obtain rfl | hv := hv
  · simp [hops, Eng.modRegs_modRegs, LoopReg.written]
  · simp [hops, Eng.modRegs_modRegs, LoopReg.written, lastWord, hv.not_gt]

/-- `lset` of a start or an end past the last word of the store pops nothing. -/
theorem execLset_bad (hst : (s.ownRegs e).pstack = v :: rest) (hroom : rest.length ≤ 8) (hk : k ≠ 0#2) (hv : 8191 < v.toNat) :
    execLset k l s = .next (s.faultEnd s.cur.bid e 0x10) := by
  refine runWord_illegal he ?_
  simp [run_operands_one hst hroom, hk, lastWord, hv]

theorem execLget_ends (hroom : (s.ownRegs e).pstack.length < 8) :
    execLget k l s = .next (s.wordEnds e
      (fun r => { r with pstack := (s.ownRegs e).loops[loopIx l].reads k :: r.pstack }) .next) :=
  runWord_modRegs he (M.bind_ok (run_operands (ops := []) rfl rfl hroom))

end LoopRegisters

/-! ### Encodings (R230, R265) -/

/-- The word of a form whose modifier is a loop level (R230). -/
theorem toNat_levelWord (op : BitVec 6) (l : BitVec 2) : (opWord op (0#7 ++ l)).toNat = 512 * op.toNat + l.toNat := by
  rw [toNat_opWord, BitVec.toNat_append]
  simp

/-- The word of a form whose modifier is a kind and a loop level (R230, R265). -/
theorem toNat_kindLevelWord (op : BitVec 6) (k l : BitVec 2) :
    (opWord op (0#5 ++ k ++ l)).toNat = 512 * op.toNat + 4 * k.toNat + l.toNat := by
  have hm : (0#5 ++ k ++ l).toNat = 4 * k.toNat + l.toNat := by
    rw [BitVec.toNat_append, ← Nat.shiftLeft_add_eq_or_of_lt l.isLt, Nat.shiftLeft_eq, BitVec.toNat_append]
    simp [Nat.mul_comm]
  rw [toNat_opWord, hm, Nat.add_assoc]

end Sys2Proof.Machine

namespace Sys2Proof.Proofs

open Sys2Proof Sys2Proof.Machine

theorem loopWords : Claim.LoopWords := by
  unfold Claim.LoopWords
  simp only [exec_loop, exec_endl]
  intro s e l he
  refine ⟨fun a v rest stop hpc hst hroom hoff hstop => ?_, ?_,
    fun hpc hon => ⟨execEndl_leaves he hpc hon, execEndl_repeats he hpc hon⟩, execEndl_bad he,
    toNat_levelWord 6#6 l, toNat_levelWord 7#6 l⟩
  · have hloop := execLoop_ends he hpc hst hroom hoff hstop
    refine ⟨fun hzero => ?_, fun hcount => ?_⟩
    · simpa [hzero, LoopReg.entered] using hloop
    · simpa [hcount, LoopReg.entered] using hloop
  · rintro (hpc | hon | hst | ⟨a, hpc, hsle, hfind⟩)
    · exact execLoop_bad_of_raw he hpc
    · exact execLoop_bad_of_active he hon
    · exact execLoop_bad_of_uncounted he hst
    · exact execLoop_bad_of_endless he hpc hsle hfind

theorem loopRegisters : Claim.LoopRegisters := by
  unfold Claim.LoopRegisters
  simp only [exec_lset, exec_lget]
  intro s e l he
  refine ⟨fun v rest hst hroom => ⟨execLset_ends he hst hroom (.inl rfl),
      fun hv => ⟨execLset_ends he hst hroom (.inr hv), execLset_ends he hst hroom (.inr hv)⟩,
      fun hv => ⟨execLset_bad he hst hroom (by decide) hv, execLset_bad he hst hroom (by decide) hv⟩⟩,
    fun hroom => ⟨execLget_ends he hroom, execLget_ends he hroom, execLget_ends he hroom⟩,
    fun k => ⟨toNat_kindLevelWord 8#6 k l, toNat_kindLevelWord 9#6 k l⟩⟩

/-- Settles O34, from its three parts. -/
theorem loops : Obligations.Loops :=
  ⟨loopWords, fun _ _ _ => ⟨fun _ => firstEndl_some, fun hnone _ => firstEndl_none hnone⟩, loopRegisters⟩

end Sys2Proof.Proofs
end

section
/-! SUPPORT. The K words (R308): what each comes to, where its limits are broken, and its encoding. -/

namespace Sys2Proof.Machine

theorem exec_kld (d : BitVec 4) (s : State) : exec (.kld d) s = execKld d s := rfl
theorem exec_kst (d : BitVec 4) (s : State) : exec (.kst d) s = execKst d s := rfl
theorem exec_kor (d a : BitVec 4) (s : State) : exec (.kor d a) s = maskWord d a (· ||| ·) s := rfl
theorem exec_kand (d a : BitVec 4) (s : State) : exec (.kand d a) s = maskWord d a (· &&& ·) s := rfl
theorem exec_kxor (d a : BitVec 4) (s : State) : exec (.kxor d a) s = maskWord d a (· ^^^ ·) s := rfl
theorem exec_knot (d a : BitVec 4) (s : State) : exec (.knot d a) s = maskWord d a (fun _ y => ~~~y) s := rfl
theorem exec_kbitTst (d : BitVec 4) (s : State) : exec (.kbitTst d) s = maskBit d true (fun x _ => x) s := rfl
theorem exec_kbitSet (d : BitVec 4) (s : State) :
    exec (.kbitSet d) s = maskBit d false (fun x b => x ||| BitVec.twoPow 16 b) s := rfl
theorem exec_kbitClr (d : BitVec 4) (s : State) :
    exec (.kbitClr d) s = maskBit d false (fun x b => x &&& ~~~BitVec.twoPow 16 b) s := rfl
theorem exec_kpop (d : BitVec 4) (s : State) : exec (.kpop d) s = execKpop d s := rfl
theorem exec_kget (d : BitVec 4) (s : State) : exec (.kget d) s = execKget d s := rfl
theorem exec_kset (d : BitVec 4) (s : State) : exec (.kset d) s = execKset d s := rfl

/-! ### Bytes at local addresses -/

/-- A read of one byte gives one byte. -/
theorem State.readable_one {s : State} {bid pa : Nat} {e : Option Engine} {bs : List Byte} (h : s.readable bid e pa 1 = some bs) :
    ∃ b, bs = [b] := by
  unfold State.readable at h
  split at h
  · cases h
  · simp only [List.range_one, List.mapM_cons, List.mapM_nil, Option.bind_eq_bind, Option.bind_eq_some_iff, Option.pure_def,
      Option.some.injEq] at h
    obtain ⟨b, _, _, rfl, rfl⟩ := h
    exact ⟨b, rfl⟩

/-- The first of the bytes at local addresses is the one that a read of its place gives; the others lie behind it. -/
theorem State.localBytes_succ {s : State} {bid : Nat} {e : Engine} {la n : Nat} {bs : List Byte}
    (h : s.localBytes bid e la (n + 1) = some bs) :
    ∃ b rest, bs = b :: rest ∧ s.readable bid (some e) (localPa (coreOf bid) la) 1 = some [b]
      ∧ s.localBytes bid e (la + 1) n = some rest := by
  unfold State.localBytes at h
  simp only [List.range_succ_eq_map, List.mapM_cons, List.mapM_map, Option.bind_eq_bind, Option.bind_eq_some_iff,
    Option.pure_def, Option.some.injEq] at h
  obtain ⟨b, ⟨xs, hxs, hhead⟩, rest, hrest, rfl⟩ := h
  obtain ⟨b', rfl⟩ := State.readable_one hxs
  cases hhead
  refine ⟨b, rest, rfl, hxs, ?_⟩
  unfold State.localBytes
  simpa only [Nat.succ_eq_add_one, Function.comp_def, Nat.add_comm _ 1, ← Nat.add_assoc] using hrest

/-- Bytes at local addresses that can be read are what a word of an engine loads, and the load changes nothing. -/
theorem loadLocal_ok {bid : Nat} {e : Engine} {s : State} {n la : Nat} {bs : List Byte}
    (h : s.localBytes bid e la n = some bs) : (loadLocal bid e la n).run s = .ok bs s := by
  induction n generalizing la bs with
  | zero => cases h; rfl
  | succ n ih =>
    obtain ⟨b, rest, rfl, hfirst, hrest⟩ := State.localBytes_succ h
    unfold loadLocal
    rw [M.bind_ok (loadBytes_ok hfirst), M.bind_ok (ih hrest)]
    rfl

/-! ### The mask registers in a word -/

section MaskAccess

variable (d : BitVec 4) (s : State)

@[simp high] theorem M.run_getK : (getK d).run s = .ok (s.ownRegs .vx).k[d.toFin] s := rfl

@[simp high] theorem M.run_setK (v : Half) :
    (setK d v).run s
      = .ok () (s.modBank s.cur.bid (fun b => b.modEngine .vx (·.modRegs (fun r => { r with k := r.k.set d.toFin v })))) :=
  rfl

end MaskAccess

/-- An address within the limits of `kld` and `kst` is taken as it is. -/
theorem run_maskAddress {v : Word} (s : State) (hv : v.toNat < 2 ^ 26) (heven : v.toNat % 2 = 0)
    (hok : localOk true v.toNat 2 = true) : (maskAddress v).run s = .ok v.toNat s := by
  have h : (decide (2 ^ 26 ≤ v.toNat) || decide (v.toNat % 2 ≠ 0) || !localOk true v.toNat 2) = false := by
    simpa [heven, hok] using hv
  simp only [maskAddress, h]
  rfl

/-- An address that breaks a limit of `kld` and `kst` makes the word illegal. -/
theorem run_maskAddress_bad {v : Word} (s : State)
    (h : 2 ^ 26 ≤ v.toNat ∨ v.toNat % 2 ≠ 0 ∨ localOk true v.toNat 2 = false) :
    (maskAddress v).run s = .error (.ends 0x10) s := by
  have h : (decide (2 ^ 26 ≤ v.toNat) || decide (v.toNat % 2 ≠ 0) || !localOk true v.toNat 2) = true := by
    simpa [or_assoc] using h
  simp only [maskAddress, h]
  rfl

/-- What a word makes of the registers counts at the registers it finds alone. -/
theorem State.wordEnds_congr {s : State} {e : Engine} {f g : EngRegs → EngRegs} (h : f (s.ownRegs e) = g (s.ownRegs e)) (go : Flow) :
    s.wordEnds e f go = s.wordEnds e g go := by
  have hm : ((s.bank s.cur.bid).engine e).modRegs f = ((s.bank s.cur.bid).engine e).modRegs g := by
    simp only [Eng.modRegs, State.regs_eq_ownRegs, h]
  simp only [State.wordEnds, State.modBank_eq, Bank.modEngine, hm]

/-! ### Words -/

/-- The registers as a K word leaves them that takes `n` operands and writes a mask register. -/
def EngRegs.maskSet (r : EngRegs) (n : Nat) (d : BitVec 4) (v : Half) : EngRegs :=
  { r with pstack := r.pstack.drop n, k := r.k.set d.toFin v }

section MaskWords

variable {s : State} {d a : BitVec 4} {v : Word} {rest : List Word} (he : s.cur.eng = some .vx)
include he

theorem maskWord_ends (f : Half → Half → Half) :
    maskWord d a f s = .next (s.wordEnds .vx
      (·.maskSet 0 d (f (s.ownRegs .vx).k[d.toFin] (s.ownRegs .vx).k[a.toFin])) .next) :=
  runWord_modRegs he rfl

theorem execKpop_ends (hroom : (s.ownRegs .vx).pstack.length < 8) :
    execKpop d s = .next (s.wordEnds .vx
      (fun r => { r with pstack := BitVec.ofNat 64 (popCount (s.ownRegs .vx).k[d.toFin].toNat) :: r.pstack }) .next) :=
  runWord_modRegs he (M.bind_ok (run_operands (ops := []) rfl rfl hroom))

theorem execKget_ends (hroom : (s.ownRegs .vx).pstack.length < 8) :
    execKget d s = .next (s.wordEnds .vx
      (fun r => { r with pstack := (s.ownRegs .vx).k[d.toFin].setWidth 64 :: r.pstack }) .next) :=
  runWord_modRegs he (M.bind_ok (run_operands (ops := []) rfl rfl hroom))

theorem execKset_ends (hst : (s.ownRegs .vx).pstack = v :: rest) (hroom : rest.length ≤ 8) :
    execKset d s = .next (s.wordEnds .vx (·.maskSet 1 d (v.setWidth 16)) .next) := by
  refine runWord_modRegs he ?_
  rw [M.bind_ok (run_operands_one hst hroom)]
  simp [Eng.modRegs_modRegs, EngRegs.maskSet]

section Bits

variable {pushes : Bool} {f : Half → Nat → Half} (hst : (s.ownRegs .vx).pstack = v :: rest) (hroom : rest.length < 8)
include hst hroom

omit he in
theorem run_operands_bit : (operands .vx 1 (if pushes then 1 else 0)).run s = .ok [v] s := by
  refine run_operands (ops := [v]) hst rfl ?_
  cases pushes
  · exact hroom.le
  · exact hroom

/-- A word on a bit of a mask register pushes that bit where it tests it, and writes the register. -/
theorem maskBit_ends (hv : v.toNat ≤ 15) :
    maskBit d pushes f s = .next (s.wordEnds .vx (fun r =>
      { r with
        pstack := (if pushes then [if (s.ownRegs .vx).k[d.toFin].getLsbD v.toNat then 1 else 0] else []) ++ r.pstack.drop 1
        k := r.k.set d.toFin (f (s.ownRegs .vx).k[d.toFin] v.toNat) }) .next) := by
  refine runWord_modRegs he ?_
  rw [M.bind_ok (run_operands_bit hst hroom)]
  simp [hv.not_gt, Eng.modRegs_modRegs, -Fin.getElem_fin]

/-- A bit past the last of a mask register. -/
theorem maskBit_bad (hv : 15 < v.toNat) : maskBit d pushes f s = .next (s.faultEnd s.cur.bid .vx 0x10) := by
  refine runWord_illegal he ?_
  rw [M.bind_ok (run_operands_bit hst hroom)]
  simp [hv]

/-- A test of a bit leaves the register as it is. -/
theorem maskBit_test_ends (hv : v.toNat ≤ 15) :
    maskBit d true (fun x _ => x) s = .next (s.wordEnds .vx (fun r =>
      { r with pstack := (if (s.ownRegs .vx).k[d.toFin].getLsbD v.toNat then 1 else 0) :: r.pstack.drop 1 }) .next) := by
  rw [maskBit_ends he hst hroom hv]
  refine congrArg _ (State.wordEnds_congr ?_ _)
  simp

end Bits

section MaskMemory

variable (hst : (s.ownRegs .vx).pstack = v :: rest) (hroom : rest.length ≤ 8)
include hst hroom

theorem execKld_ends {bs : List Byte} (hv : v.toNat < 2 ^ 26) (heven : v.toNat % 2 = 0) (hok : localOk true v.toNat 2 = true)
    (hbs : s.localBytes s.cur.bid .vx v.toNat 2 = some bs) :
    execKld d s = .next (s.wordEnds .vx (·.maskSet 1 d (BitVec.ofNat 16 (leNat bs))) .next) := by
  refine runWord_modRegs he ?_
  rw [M.bind_ok (run_operands_one hst hroom), M.bind_ok (run_maskAddress s hv heven hok), M.bind_curBid,
    M.bind_ok (loadLocal_ok hbs)]
  simp [Eng.modRegs_modRegs, EngRegs.maskSet]

theorem execKst_ends (hv : v.toNat < 2 ^ 26) (heven : v.toNat % 2 = 0) (hok : localOk true v.toNat 2 = true) :
    execKst d s = .next (((s.modBank s.cur.bid (fun b => b.modEngine .vx (·.modRegs (fun r =>
      { r with pstack := r.pstack.drop 1 })))).storeLocalBlock s.cur.bid .vx v.toNat
        (leBytes 2 (s.ownRegs .vx).k[d.toFin].toNat)).flow s.cur.bid .vx .next) := by
  refine runWord_ok he ?_
  rw [M.bind_ok (run_operands_one hst hroom), M.bind_ok (run_maskAddress s hv heven hok)]
  rfl

variable (hbad : 2 ^ 26 ≤ v.toNat ∨ v.toNat % 2 ≠ 0 ∨ localOk true v.toNat 2 = false)
include hbad

theorem execKld_bad : execKld d s = .next (s.faultEnd s.cur.bid .vx 0x10) := by
  refine runWord_illegal he ?_
  rw [M.bind_ok (run_operands_one hst hroom)]
  exact M.bind_error (run_maskAddress_bad s hbad)

theorem execKst_bad : execKst d s = .next (s.faultEnd s.cur.bid .vx 0x10) := by
  refine runWord_illegal he ?_
  rw [M.bind_ok (run_operands_one hst hroom)]
  exact M.bind_error (run_maskAddress_bad s hbad)

end MaskMemory

end MaskWords

/-! ### Encodings (R308) -/

/-- The word of a form whose modifier names two mask registers, or one and an operation. -/
theorem toNat_maskWord (op : BitVec 6) (d a : BitVec 4) :
    (opWord op (kMod d a)).toNat = 512 * op.toNat + 16 * d.toNat + a.toNat := by
  have hm : (kMod d a).toNat = 16 * d.toNat + a.toNat := by
    rw [BitVec.toNat_append, ← Nat.shiftLeft_add_eq_or_of_lt a.isLt, Nat.shiftLeft_eq, BitVec.toNat_append]
    simp [Nat.mul_comm]
  rw [toNat_opWord, hm, Nat.add_assoc]

theorem toNat_encodeWord_maskOne (d : BitVec 4) :
    [Instr.kld d, .kst d, .kbitTst d, .kbitSet d, .kbitClr d, .kpop d, .kget d, .kset d].map (fun i => (encodeWord i).toNat)
      = [0x6800, 0x6A00, 0x7400, 0x7401, 0x7402, 0x7600, 0x7800, 0x7A00].map (· + 16 * d.toNat) := by
  change [(opWord 52#6 (kMod d 0#4)).toNat, (opWord 53#6 (kMod d 0#4)).toNat, (opWord 58#6 (kMod d 0#4)).toNat,
    (opWord 58#6 (kMod d 1#4)).toNat, (opWord 58#6 (kMod d 2#4)).toNat, (opWord 59#6 (kMod d 0#4)).toNat,
    (opWord 60#6 (kMod d 0#4)).toNat, (opWord 61#6 (kMod d 0#4)).toNat] = _
  simp only [toNat_maskWord]
  simp [Nat.add_right_comm]

theorem toNat_encodeWord_maskTwo (d a : BitVec 4) :
    [Instr.kor d a, .kand d a, .kxor d a, .knot d a].map (fun i => (encodeWord i).toNat)
      = [0x6C00, 0x6E00, 0x7000, 0x7200].map (· + 16 * d.toNat + a.toNat) := by
  change [(opWord 54#6 (kMod d a)).toNat, (opWord 55#6 (kMod d a)).toNat, (opWord 56#6 (kMod d a)).toNat,
    (opWord 57#6 (kMod d a)).toNat] = _
  simp only [toNat_maskWord]
  simp

end Sys2Proof.Machine

namespace Sys2Proof.Proofs

open Sys2Proof Sys2Proof.Machine

/-- Settles O44, by the word's kind: two registers, a count or a value pushed, a value taken, one bit, and a load or a store. -/
theorem maskWords : Obligations.MaskWords := by
  unfold Obligations.MaskWords
  simp only [exec_kld, exec_kst, exec_kor, exec_kand, exec_kxor, exec_knot, exec_kbitTst, exec_kbitSet, exec_kbitClr, exec_kpop,
    exec_kget, exec_kset]
  intro s d a he
  refine ⟨maskWord_ends he _, maskWord_ends he _, maskWord_ends he _, maskWord_ends he _,
    fun hroom => ⟨execKpop_ends he hroom, execKget_ends he hroom⟩,
    fun v rest hst hroom => ⟨execKset_ends he hst hroom.le, fun hv => ?_, fun hv => ?_, fun hv heven hok => ?_, fun hbad => ?_⟩,
    toNat_encodeWord_maskOne d, toNat_encodeWord_maskTwo d a⟩
  · exact ⟨maskBit_test_ends he hst hroom hv, maskBit_ends he hst hroom hv, maskBit_ends he hst hroom hv⟩
  · exact ⟨maskBit_bad he hst hroom hv, maskBit_bad he hst hroom hv, maskBit_bad he hst hroom hv⟩
  · exact ⟨fun bs hbs => execKld_ends he hst hroom.le hv heven hok hbs, execKst_ends he hst hroom.le hv heven hok⟩
  · exact ⟨execKld_bad he hst hroom.le hbad, execKst_bad he hst hroom.le hbad⟩

end Sys2Proof.Proofs
end

-- ==== Every step keeps memory and media (O58) ====
section
/-! SUPPORT. What the rest of the model's operations keep, in the order of the model: memory and the media of the durable tier stay in
canonical form, because they change only by the writes that Laws/Memory and Laws/Maps speak of. A body is taken apart along its binds, its
tests and its matches, down to the operations whose lemmas stand before it. -/

namespace Sys2Proof.Machine

-- One proof at a time: the whole text compiles in one process of bounded memory.
set_option Elab.async false

variable {α β : Type}

theorem keepsM_illegal_bind (f : α → M β) : KeepsM ((illegal : M α) >>= f) := fun s => Keeps.refl s

theorem keepsM_waitMore_bind (f : α → M β) : KeepsM ((waitMore : M α) >>= f) := fun s => Keeps.refl s

theorem keepsM_illegalWord_bind (f : α → M β) : KeepsM ((illegalWord : M α) >>= f) := fun s => Keeps.refl s

theorem keepsM_fail_bind (e : Stop) (f : α → M β) : KeepsM ((fail e : M α) >>= f) := fun s => Keeps.refl s
theorem keepsM_trap_bind (c t : Nat) (f : α → M β) : KeepsM ((trap c t : M α) >>= f) := fun s => Keeps.refl s
theorem keepsM_endNest_bind (c : Nat) (f : α → M β) : KeepsM ((endNest c : M α) >>= f) := fun s => Keeps.refl s

theorem KeepsNext.fault (s : State) (f : Fault) : KeepsNext s (.fault f) := trivial

theorem keeps_setVf (s : State) (v : Nat) (f : Vf) : Keeps s (s.setVf v f) := ⟨rfl, id⟩

/-- The last step first: what follows says what state it follows. -/
theorem Keeps.after {s t u : State} (k : Keeps t u) (h : Keeps s t) : Keeps s u := h.trans k

theorem Keeps.next {s t : State} {o : Host.Outcome State Fault Refusal} (h : Keeps s t) (k : KeepsNext t o) : KeepsNext s o := KeepsNext.trans h k
theorem keepsM_freshWord : KeepsM freshWord := by
  unfold freshWord
  exact KeepsM.get_bind (fun s => KeepsM.set_bind ⟨rfl, id⟩ (KeepsM.pure _))

theorem keeps_invalidate (s : State) (i : Inval) : Keeps s (s.invalidate i) := ⟨rfl, id⟩

theorem keepsM_keepAs (e : Engine) (ops : List Word) (done : Nat) (vals : List Nat) (mul : Option MulJob) : KeepsM (keepAs e ops done vals mul) := by
  unfold keepAs
  repeat' with_reducible first
    | exact KeepsM.get | exact keepsM_curBid .. | exact keepsM_modEng .. | apply KeepsM.ite | apply KeepsM.bind
    | intro _

theorem keepsM_keep (e : Engine) (ops : List Word) (done : Nat) (vals : List Nat) : KeepsM (keep e ops done vals) := by
  unfold keep
  apply keepsM_keepAs

theorem keeps_activate (s : State) (bid : Nat) : Keeps s (State.activate s bid) := by
  unfold State.activate
  exact Keeps.trans (Keeps.refl _) (keeps_modCore ..)

theorem keeps_reissueWord (s : State) (bid : Nat) (e : Engine) : Keeps s (s.reissueWord bid e) := by
  unfold State.reissueWord
  split
  · split
    · exact (keeps_modBank s _ _).trans ((keeps_rewalkVer _ _ _ _).trans (keeps_gcFaults _))
    · exact Keeps.refl s
  · exact Keeps.refl s

theorem keepsM_queueFront (e : Engine) (q : BitVec 3) : KeepsM (queueFront e q) := by
  unfold queueFront
  repeat' with_reducible first
    | exact keepsM_fail_bind .. | exact keepsM_waitMore_bind .. | exact KeepsM.pure _ | exact KeepsM.get
    | exact KeepsM.fail _ | exact KeepsM.waitMore | exact keepsM_curBank .. | apply KeepsM.ite | apply KeepsM.bind
    | intro _ | split

theorem keepsM_delivers  : KeepsM (delivers) := by
  unfold delivers
  repeat' with_reducible first
    | exact KeepsM.pure _ | exact KeepsM.get | apply KeepsM.ite | apply KeepsM.bind | intro _

theorem keepsM_deliver (e : Engine) (q : BitVec 3) (v : Word) (valid : Bool) : KeepsM (deliver e q v valid) := by
  unfold deliver
  repeat' with_reducible first
    | exact keepsM_waitMore_bind .. | exact KeepsM.waitMore | exact KeepsM.pure _ | exact keepsM_curBank ..
    | exact keepsM_delivers .. | exact keepsM_modCur .. | apply KeepsM.ite | apply KeepsM.bind | intro _

theorem keeps_execLiteral (v : BitVec 15) (s : State) : KeepsNext s (execLiteral v s) := by
  unfold execLiteral
  refine keeps_runWord (fun e => ?_) s
  repeat' with_reducible first
    | exact KeepsM.pure _ | exact keepsM_operands .. | exact keepsM_restack .. | apply KeepsM.ite | apply KeepsM.bind
    | intro _

theorem keeps_stackWord (pops pushes : Nat) (f : List Word → List Word) (s : State) : KeepsNext s (stackWord pops pushes f s) := by
  unfold stackWord
  refine keeps_runWord (fun e => ?_) s
  repeat' with_reducible first
    | exact KeepsM.pure _ | exact keepsM_operands .. | exact keepsM_restack .. | apply KeepsM.ite | apply KeepsM.bind
    | intro _

theorem keeps_execLix (s : State) : KeepsNext s (execLix s) := by
  unfold execLix
  exact keeps_stackWord ..

theorem keeps_execDup (s : State) : KeepsNext s (execDup s) := by
  unfold execDup
  exact keeps_stackWord ..

theorem keeps_execDrop (s : State) : KeepsNext s (execDrop s) := by
  unfold execDrop
  exact keeps_stackWord ..

theorem keeps_execSwap (s : State) : KeepsNext s (execSwap s) := by
  unfold execSwap
  exact keeps_stackWord ..

theorem keeps_execRot (s : State) : KeepsNext s (execRot s) := by
  unfold execRot
  exact keeps_stackWord ..

theorem keeps_execNop (s : State) : KeepsNext s (execNop s) := by
  unfold execNop
  refine keeps_runWord (fun e => ?_) s
  exact KeepsM.pure _

theorem keeps_execLoop (l : BitVec 2) (s : State) : KeepsNext s (execLoop l s) := by
  unfold execLoop
  refine keeps_runWord (fun e => ?_) s
  repeat' with_reducible first
    | exact keepsM_illegalWord_bind .. | exact KeepsM.pure _ | exact KeepsM.get | exact KeepsM.illegalWord
    | exact keepsM_curEng .. | exact keepsM_modRegs .. | exact keepsM_operands .. | exact keepsM_restack ..
    | apply KeepsM.ite | apply KeepsM.bind | intro _ | split

theorem keeps_execEndl (l : BitVec 2) (s : State) : KeepsNext s (execEndl l s) := by
  unfold execEndl
  refine keeps_runWord (fun e => ?_) s
  repeat' with_reducible first
    | exact keepsM_illegalWord_bind .. | exact KeepsM.pure _ | exact KeepsM.illegalWord | exact keepsM_curEng ..
    | exact keepsM_modRegs .. | apply KeepsM.ite | apply KeepsM.bind | intro _

theorem keeps_execLset (k l : BitVec 2) (s : State) : KeepsNext s (execLset k l s) := by
  unfold execLset
  refine keeps_runWord (fun e => ?_) s
  repeat' with_reducible first
    | exact keepsM_illegalWord_bind .. | exact KeepsM.pure _ | exact KeepsM.illegalWord | exact keepsM_modRegs ..
    | exact keepsM_operands .. | exact keepsM_restack .. | apply KeepsM.ite | apply KeepsM.bind | intro _ | split

theorem keeps_execLget (k l : BitVec 2) (s : State) : KeepsNext s (execLget k l s) := by
  unfold execLget
  refine keeps_runWord (fun e => ?_) s
  repeat' with_reducible first
    | exact KeepsM.pure _ | exact keepsM_curEng .. | exact keepsM_operands .. | exact keepsM_restack ..
    | apply KeepsM.ite | apply KeepsM.bind | intro _

theorem keeps_execTokw (peer : Engine) (s : State) : KeepsNext s (execTokw peer s) := by
  unfold execTokw
  refine keeps_runWord (fun e => ?_) s
  repeat' with_reducible first
    | exact keepsM_waitMore_bind .. | exact KeepsM.pure _ | exact KeepsM.waitMore | exact keepsM_curBank ..
    | exact keepsM_modCur .. | apply KeepsM.ite | apply KeepsM.bind | intro _

theorem keeps_execTokr (peer : Engine) (s : State) : KeepsNext s (execTokr peer s) := by
  unfold execTokr
  refine keeps_runWord (fun e => ?_) s
  repeat' with_reducible first
    | exact keepsM_waitMore_bind .. | exact KeepsM.pure _ | exact KeepsM.waitMore | exact keepsM_curBank ..
    | exact keepsM_modCur .. | apply KeepsM.ite | apply KeepsM.bind | intro _ | split

theorem keeps_execMark (s : State) : KeepsNext s (execMark s) := by
  unfold execMark
  refine keeps_runWord (fun e => ?_) s
  repeat' with_reducible first
    | exact keepsM_illegalWord_bind .. | exact KeepsM.pure _ | exact KeepsM.illegalWord | exact keepsM_modEng ..
    | exact keepsM_operands .. | exact keepsM_restack .. | apply KeepsM.ite | apply KeepsM.bind | intro _ | split

theorem keeps_execCall (s : State) : KeepsNext s (execCall s) := by
  unfold execCall
  refine keeps_runWord (fun e => ?_) s
  repeat' with_reducible first
    | exact keepsM_illegalWord_bind .. | exact KeepsM.pure _ | exact KeepsM.illegalWord | exact keepsM_curEng ..
    | exact keepsM_modRegs .. | exact keepsM_operands .. | exact keepsM_restack .. | apply KeepsM.ite
    | apply KeepsM.bind | intro _ | split

theorem keeps_execRet (s : State) : KeepsNext s (execRet s) := by
  unfold execRet
  refine keeps_runWord (fun e => ?_) s
  repeat' with_reducible first
    | exact KeepsM.pure _ | exact keepsM_curEng .. | exact keepsM_modRegs .. | apply KeepsM.ite | apply KeepsM.bind
    | intro _ | split

theorem keeps_execFsel (f : BitVec 4) (s : State) : KeepsNext s (execFsel f s) := by
  unfold execFsel
  refine keeps_runWord (fun e => ?_) s
  repeat' with_reducible first
    | exact KeepsM.pure _ | exact keepsM_modRegs .. | apply KeepsM.ite | apply KeepsM.bind | intro _

theorem keeps_execQin (q : BitVec 3) (s : State) : KeepsNext s (execQin q s) := by
  unfold execQin
  refine keeps_runWord (fun e => ?_) s
  repeat' with_reducible first
    | exact KeepsM.pure _ | exact keepsM_modCur .. | exact keepsM_operands .. | exact keepsM_queueFront ..
    | exact keepsM_restack .. | apply KeepsM.ite | apply KeepsM.bind | intro _

theorem keeps_execQout (q : BitVec 3) (s : State) : KeepsNext s (execQout q s) := by
  unfold execQout
  refine keeps_runWord (fun e => ?_) s
  repeat' with_reducible first
    | exact keepsM_illegalWord_bind .. | exact KeepsM.pure _ | exact KeepsM.illegalWord | exact keepsM_deliver ..
    | exact keepsM_operands .. | exact keepsM_restack .. | apply KeepsM.ite | apply KeepsM.bind | intro _ | split

theorem keepsM_ctxWord (w : Who) (ctx i : Nat) : KeepsM (ctxWord w ctx i) := by
  unfold ctxWord
  apply keepsM_loadVa

theorem keeps_execVcfp (d a : Reg) (s : State) : KeepsNext s (execVcfp d a s) := by
  unfold execVcfp
  refine keeps_runCc ?_ s
  repeat' with_reducible first
    | exact keepsM_illegal_bind .. | exact KeepsM.pure _ | exact KeepsM.get | exact KeepsM.illegal
    | exact keepsM_ctxWord .. | exact keepsM_curBank .. | exact keepsM_loadVa .. | exact keepsM_readX ..
    | exact keepsM_storeVa .. | exact keepsM_translateSpan .. | exact keepsM_writeX ..
    | refine keepsM_irrevocable ?_ (fun _ => ?_) | apply KeepsM.ite | apply KeepsM.bind | intro _

theorem keeps_execVcrep (a : Reg) (s : State) : KeepsNext s (execVcrep a s) := by
  unfold execVcrep
  refine keeps_runJump ?_ s
  repeat' with_reducible first
    | exact keepsM_trap_bind .. | exact keepsM_illegal_bind .. | exact KeepsM.pure _ | exact KeepsM.get
    | exact KeepsM.trap _ _ | exact KeepsM.illegal | exact keepsM_ctxWord .. | exact keepsM_curBank ..
    | exact keepsM_loadBlock .. | exact keepsM_modCur .. | exact keepsM_readX .. | exact keepsM_storeVa ..
    | exact keepsM_translateSpan .. | exact keepsM_writeX .. | refine keepsM_irrevocableTo ?_ (fun _ => ?_)
    | apply KeepsM.ite | apply KeepsM.bind | intro _

theorem keeps_execVcsync (a : Reg) (s : State) : KeepsNext s (execVcsync a s) := by
  unfold execVcsync
  refine keeps_runCc ?_ s
  repeat' with_reducible first
    | exact keepsM_waitMore_bind .. | exact KeepsM.get | exact KeepsM.waitMore | exact KeepsM.pure _
    | exact keepsM_curBank .. | exact keepsM_modCur .. | exact keepsM_readX .. | exact keepsM_storeVa ..
    | exact keepsM_translate .. | exact keepsM_translateSpan .. | apply KeepsM.ite | apply KeepsM.bind | intro _

theorem keeps_execLoad (w : LoadKind) (d a : Reg) (imm : BitVec 12) (s : State) : KeepsNext s (execLoad w d a imm s) := by
  unfold execLoad
  refine keeps_runCc ?_ s
  repeat' with_reducible first
    | exact KeepsM.get | exact keepsM_curBank .. | exact keepsM_loadVa .. | exact keepsM_writeX .. | apply KeepsM.ite
    | apply KeepsM.bind | intro _

theorem keeps_execStore (w : StoreKind) (b a : Reg) (imm : BitVec 12) (s : State) : KeepsNext s (execStore w b a imm s) := by
  unfold execStore
  refine keeps_runCc ?_ s
  repeat' with_reducible first
    | exact KeepsM.get | exact keepsM_curBank .. | exact keepsM_readX .. | exact keepsM_storeVa .. | apply KeepsM.ite
    | apply KeepsM.bind | intro _

theorem keepsM_fenceWait (rl : Bool) : KeepsM (fenceWait rl) := by
  unfold fenceWait
  repeat' with_reducible first
    | exact keepsM_trap_bind .. | exact keepsM_waitMore_bind .. | exact KeepsM.get | exact KeepsM.trap _ _
    | exact KeepsM.waitMore | exact KeepsM.pure _ | exact keepsM_curBank .. | exact keepsM_modCur ..
    | apply KeepsM.ite | apply KeepsM.bind | intro _

theorem keepsM_atomicPlace (a : Reg) (dbl rl : Bool) (acc cause : Nat) : KeepsM (atomicPlace a dbl rl acc cause) := by
  unfold atomicPlace
  repeat' with_reducible first
    | exact keepsM_trap_bind .. | exact KeepsM.pure _ | exact KeepsM.get | exact KeepsM.trap _ _
    | exact keepsM_fenceWait .. | exact keepsM_readX .. | exact keepsM_translate .. | apply KeepsM.ite
    | apply KeepsM.bind | intro _

theorem keeps_storeAtomic (s : State) (bid : Nat) (p : Place) (data : List Byte) : Keeps s (State.storeAtomic s bid p data) := by
  unfold State.storeAtomic
  repeat' with_reducible first
    | exact Keeps.refl _ | refine Keeps.trans ?_ (keeps_dirtyLines ..) | refine Keeps.trans ?_ (keeps_storeAt ..)

theorem keeps_hostAtomic (s : State) (line : Nat) (a : HostAtomic) : Keeps s (s.hostAtomic line a) := by
  have answered : ∀ (t : State) (l : List Word), Keeps t { t with host := { t.host with answer := l } } := fun _ _ => ⟨rfl, id⟩
  unfold State.hostAtomic
  exact Keeps.ite (answered s _) ((keeps_storeOutside s _ _ _).trans (answered _ _))

theorem keeps_hostActs (s : State) (n : Snoop) : Keeps s (s.hostActs n) := by
  unfold State.hostActs
  split
  · exact keeps_hostAtomic s _ _
  · exact Keeps.refl s

theorem keeps_takeLine (s : State) (n : Snoop) : Keeps s (s.takeLine n) := by
  have h : Keeps s { s.breakResv none (n.line * 64) 64 with dirtyHost := s.dirtyHost.filter (fun l => l.1.line ≠ n.line) } :=
    ⟨rfl, id⟩
  exact h.trans (keeps_hostActs _ n)

theorem keeps_answerSnoops (s : State) : Keeps s s.answerSnoops := by
  have h : Keeps s { s with host := { s.host with snoops := s.host.snoops.filter s.keepsSnoop } } := ⟨rfl, id⟩
  exact h.trans (Keeps.foldl keeps_takeLine _ _)

theorem keeps_execAmo (op : AmoOp) (dbl _aq rl : Bool) (d a b : Reg) (s : State) : KeepsNext s (execAmo op dbl _aq rl d a b s) := by
  unfold execAmo
  refine keeps_runCc ?_ s
  repeat' with_reducible first
    | exact KeepsM.pure _ | exact keepsM_atomicPlace .. | exact keepsM_curBid .. | exact keepsM_loadBytes ..
    | exact keepsM_readX .. | exact keepsM_writeX .. | refine keepsM_irrevocable ?_ (fun _ => ?_)
    | refine KeepsM.modify (fun s => ?_) | apply KeepsM.ite | apply KeepsM.bind | exact Keeps.refl _
    | refine Keeps.trans ?_ (keeps_runCc ..) | refine Keeps.trans ?_ (keeps_storeAtomic ..) | intro _

theorem keeps_execLr (dbl _aq rl : Bool) (d a : Reg) (s : State) : KeepsNext s (execLr dbl _aq rl d a s) := by
  unfold execLr
  refine keeps_runCc ?_ s
  repeat' with_reducible first
    | exact KeepsM.pure _ | exact KeepsM.get | exact keepsM_atomicPlace .. | exact keepsM_curBid ..
    | exact keepsM_loadBytes .. | exact keepsM_modCur .. | exact keepsM_writeX ..
    | refine keepsM_irrevocable ?_ (fun _ => ?_) | refine KeepsM.modify (fun s => ?_) | apply KeepsM.ite
    | apply KeepsM.bind | exact Keeps.refl _ | refine Keeps.trans ?_ (keeps_answerSnoops ..)
    | refine Keeps.trans ?_ (keeps_runCc ..) | exact ⟨rfl, id⟩ | intro _

theorem keeps_execSc (dbl _aq rl : Bool) (d a b : Reg) (s : State) : KeepsNext s (execSc dbl _aq rl d a b s) := by
  unfold execSc
  refine keeps_runCc ?_ s
  repeat' with_reducible first
    | exact KeepsM.pure _ | exact keepsM_atomicPlace .. | exact keepsM_curBank .. | exact keepsM_curBid ..
    | exact keepsM_modCur .. | exact keepsM_readX .. | exact keepsM_writeX ..
    | refine keepsM_irrevocable ?_ (fun _ => ?_) | refine KeepsM.modify (fun s => ?_) | apply KeepsM.ite
    | apply KeepsM.bind | exact Keeps.refl _ | refine Keeps.trans ?_ (keeps_answerSnoops ..)
    | refine Keeps.trans ?_ (keeps_runCc ..) | refine Keeps.trans ?_ (keeps_storeAtomic ..) | apply Keeps.ite
    | exact ⟨rfl, id⟩ | intro _

theorem keeps_execFence (_fm _pre _suc : BitVec 4) (_a _d : Reg) (s : State) : KeepsNext s (execFence _fm _pre _suc _a _d s) := by
  unfold execFence
  refine keeps_runCc ?_ s
  exact KeepsM.pure _

theorem keeps_execFenceTso (_a _d : Reg) (s : State) : KeepsNext s (execFenceTso _a _d s) := by
  unfold execFenceTso
  refine keeps_runCc ?_ s
  exact KeepsM.pure _

theorem keeps_execFenceI (_imm : BitVec 12) (_a _d : Reg) (s : State) : KeepsNext s (execFenceI _imm _a _d s) := by
  unfold execFenceI
  refine keeps_runCc ?_ s
  exact KeepsM.pure _

theorem keeps_execFenceS (c : BitVec 3) (s : State) : KeepsNext s (execFenceS c s) := by
  unfold execFenceS
  refine keeps_runCc ?_ s
  repeat' with_reducible first
    | exact keepsM_illegal_bind .. | exact KeepsM.pure _ | exact KeepsM.illegal | exact keepsM_fenceWait ..
    | apply KeepsM.ite

theorem keeps_execPbar (c : BitVec 3) (s : State) : KeepsNext s (execPbar c s) := by
  unfold execPbar
  refine keeps_runCc ?_ s
  repeat' with_reducible first
    | exact keepsM_illegal_bind .. | exact keepsM_waitMore_bind .. | exact KeepsM.get | exact KeepsM.illegal
    | exact KeepsM.waitMore | exact KeepsM.pure _ | exact keepsM_modCur .. | apply KeepsM.ite | apply KeepsM.bind
    | intro _ | split

theorem keeps_execPwb (a : Reg) (s : State) : KeepsNext s (execPwb a s) :=
  keeps_runCc (KeepsM.get.bind (fun _ => (keepsM_readX a).bind (fun _ => (keepsM_translate _ _ _ _).bind (fun _ => KeepsM.pure _)))) s

theorem keeps_execLrReservationExpiry (bank : Nat) (s : State) : KeepsNext s (execLrReservationExpiry bank s) := by
  refine KeepsNext.next ?_
  split
  · exact Keeps.ite ((keeps_modBank s _ _).trans (keeps_answerSnoops _)) (Keeps.refl s)
  · exact keeps_answerSnoops s

theorem keepsM_loadChunks (w : Who) (bid : Nat) : ∀ (n va : Nat), KeepsM (loadChunks w bid va n)
  | 0, _ => KeepsM.pure []
  | n + 1, va => (keepsM_translate _ _ _ _).bind (fun _ => (keepsM_loadBytes _ _ _ _).bind (fun _ =>
      (keepsM_loadChunks w bid n (va + 64)).bind (fun _ => KeepsM.pure _)))

theorem keepsM_loadImage (bid image : Nat) : KeepsM (loadImage bid image) := by
  unfold loadImage
  repeat' with_reducible first
    | exact keepsM_endNest_bind .. | exact KeepsM.pure _ | exact keepsM_loadChunks .. | exact KeepsM.get
    | exact KeepsM.modify (fun s => keeps_modCore s _ _) | apply KeepsM.ite | apply KeepsM.bind | intro _

theorem keeps_clearCore (s : State) (g : Nat) : Keeps s (s.clearCore g) := by
  unfold State.clearCore
  refine (keeps_unpoison _ _ _).after ((keeps_unpoison _ _ _).after (Keeps.mem rfl (fun h => ?_) rfl))
  exact wf_blank (wf_blank h _ _ _) _ _ _

theorem keeps_clearFor (s : State) (vf g : Nat) : Keeps s (s.clearFor vf g) := by
  unfold State.clearFor
  refine Keeps.trans ?_ (keeps_modCore _ _ _)
  split
  · exact Keeps.ite (Keeps.refl s) (keeps_clearCore s g)
  · exact Keeps.refl s

theorem keeps_clearCond (s : State) (g0 size : Nat) : Keeps s (State.clearCond s g0 size) := by
  unfold State.clearCond
  exact Keeps.trans (Keeps.refl _) (keeps_modDie ..)

theorem keeps_startTask (s : State) (bid : Nat) : Keeps s (s.startTask bid) := by
  unfold State.startTask
  dsimp only
  split
  · exact Keeps.refl s
  · split
    · exact Keeps.refl s
    · exact keeps_setBank s _ _

theorem keepsM_loadAndStart (bid : Nat) : KeepsM (loadAndStart bid) := by
  unfold loadAndStart
  repeat' with_reducible first
    | exact KeepsM.pure _ | exact KeepsM.get | exact keepsM_loadImage .. | refine KeepsM.modify (fun s => ?_)
    | apply KeepsM.ite | apply KeepsM.bind | exact Keeps.refl _ | refine Keeps.trans ?_ (keeps_modBank ..)
    | refine Keeps.trans ?_ (keeps_startTask ..) | apply Keeps.ite | exact ⟨rfl, id⟩ | intro _ | split

theorem keeps_loadStop (s : State) (bid : Nat) (x : Stop) : Keeps s (s.loadStop bid x) := by
  unfold State.loadStop
  split
  · exact Keeps.ite (keeps_pageFaultCore s _ _ _ _ _)
      (Keeps.ite ((keeps_modBank s _ _).trans (keeps_switchAll _ _)) (keeps_terminateOf s _ _))
  · exact keeps_terminateOf s _ _
  · exact keeps_agentPoison s _ _ _
  · exact Keeps.refl s

theorem keeps_beginTask (s : State) (bid : Nat) : Keeps s (s.beginTask bid) := by
  have h := keepsM_loadAndStart bid s
  unfold State.beginTask
  split
  · rename_i hr; rw [hr] at h; exact h
  · rename_i hr; rw [hr] at h; exact Keeps.trans h (keeps_loadStop _ _ _)

theorem keeps_accept (s : State) (bs : List Byte) (die recAddr recAsid vf cap : Nat) :
    Keeps s (s.accept bs die recAddr recAsid vf cap) := by
  have listed : ∀ (t : State) (n : Nest),
      Keeps t (if ({ t with nests := t.nests ++ [n] } : State).groups die n.gsize |>.isEmpty
        then State.terminate { t with nests := t.nests ++ [n] } n.id 0xF2
        else State.updateLevels { t with nests := t.nests ++ [n] } die) := fun t n =>
    Keeps.trans (t := { t with nests := t.nests ++ [n] }) ⟨rfl, id⟩ (Keeps.ite (keeps_terminate _ _ _) (keeps_updateLevels _ _))
  have counted : ∀ (t : State) (k : Nat), Keeps t { t with nextNest := k } := fun _ _ => ⟨rfl, id⟩
  unfold State.accept
  exact (keeps_writeWord15 s _ 1 0).trans ((counted _ _).trans (Keeps.ite (keeps_writeWord15 _ _ _ _) (listed _ _)))

theorem keeps_execNsub (d a : Reg) (s : State) : KeepsNext s (execNsub d a s) := by
  unfold execNsub
  refine keeps_runCc ?_ s
  repeat' with_reducible first
    | exact keepsM_trap_bind .. | exact KeepsM.pure _ | exact KeepsM.get | exact KeepsM.trap _ _
    | exact keepsM_curBank .. | exact keepsM_curBid .. | exact keepsM_loadBlock .. | exact keepsM_readX ..
    | exact keepsM_writeX .. | refine keepsM_irrevocable ?_ (fun _ => ?_) | refine KeepsM.modify (fun s => ?_)
    | apply KeepsM.ite | apply KeepsM.bind | exact Keeps.refl _ | refine Keeps.trans ?_ (keeps_accept ..)
    | refine Keeps.trans ?_ (keeps_runCc ..) | apply Keeps.ite | exact ⟨rfl, id⟩ | intro _ | split

theorem keeps_finishTask (s : State) (bid : Nat) : Keeps s (s.finishTask bid) := by
  have away : ∀ (ms : List Nat) (s : State), Keeps s (ms.foldl (fun s m => if s.isActive m then s.switchAway m else s) s) :=
    Keeps.foldl (fun s m => Keeps.ite (keeps_switchAway s m) (Keeps.refl s))
  have freed : ∀ (ms : List Nat) (s : State), Keeps s (ms.foldl (fun s m => (s.settle m).modBank m Bank.free) s) :=
    Keeps.foldl (fun s m => (keeps_settle s m).trans (keeps_modBank _ _ _))
  unfold State.finishTask
  split
  · exact Keeps.refl s
  · refine (keeps_modBank s bid _).trans (Keeps.ite ?_ (keeps_switchAway _ _))
    exact (freed _ _).trans ((keeps_taskEnded _ _).trans (away _ _))

theorem keeps_execTdone (s : State) : KeepsNext s (execTdone s) := by
  unfold execTdone
  refine keeps_runCc ?_ s
  repeat' with_reducible first
    | exact keepsM_illegal_bind .. | exact keepsM_waitMore_bind .. | exact KeepsM.get | exact KeepsM.illegal
    | exact KeepsM.waitMore | exact KeepsM.pure _ | refine KeepsM.modify (fun s => ?_) | apply KeepsM.ite
    | apply KeepsM.bind | exact Keeps.refl _ | refine Keeps.trans ?_ (keeps_commit ..)
    | refine Keeps.trans ?_ (keeps_finishTask ..) | refine Keeps.trans ?_ (keeps_runCc ..) | apply Keeps.ite
    | intro _

theorem keeps_formGang (s : State) (ms : List Nat) (mask : BitVec 8) : Keeps s (State.formGang s ms mask) := by
  unfold State.formGang
  repeat' with_reducible first
    | exact Keeps.refl _ | refine Keeps.trans ?_ (keeps_modBank ..)
    | refine Keeps.trans ?_ (Keeps.foldl (fun _ _ => ?_) _ _)

theorem keeps_execGang (a : Reg) (s : State) : KeepsNext s (execGang a s) := by
  unfold execGang
  refine keeps_runCc ?_ s
  repeat' with_reducible first
    | exact keepsM_illegal_bind .. | exact keepsM_waitMore_bind .. | exact KeepsM.pure _ | exact KeepsM.get
    | exact KeepsM.illegal | exact KeepsM.waitMore | exact keepsM_modCur .. | exact keepsM_readX ..
    | refine keepsM_irrevocable ?_ (fun _ => ?_) | refine KeepsM.modify (fun s => ?_) | apply KeepsM.ite
    | apply KeepsM.bind | exact Keeps.refl _ | refine Keeps.trans ?_ (keeps_formGang ..)
    | refine Keeps.trans ?_ (keeps_modBank ..) | refine Keeps.trans ?_ (keeps_runCc ..) | apply Keeps.ite
    | exact ⟨rfl, id⟩ | intro _

theorem keeps_keepPushed (s : State) (bid : Nat) (others : List Nat) : Keeps s (State.keepPushed s bid others) := by
  unfold State.keepPushed
  exact Keeps.trans (Keeps.refl _) (keeps_modBank ..)

theorem keeps_execUngang (s : State) : KeepsNext s (execUngang s) := by
  refine keeps_runCc (keepsM_irrevocable ?_ (fun g => ?_)) s
  · refine keepsM_curBid.bind (fun bid => keepsM_curBank.bind (fun b => ?_))
    split
    · exact KeepsM.ite (KeepsM.pure _) KeepsM.illegal
    · exact KeepsM.illegal
  · exact keepsM_curBid.bind (fun bid => (KeepsM.modify (fun s => (keeps_keepPushed s bid _).trans
      (Keeps.foldl (fun s m => keeps_modBank s m _) _ _))).bind (fun _ => keepsM_modCur _))

theorem keeps_execCsyncSet (a b : Reg) (s : State) : KeepsNext s (execCsyncSet a b s) := by
  unfold execCsyncSet
  refine keeps_runCc ?_ s
  repeat' with_reducible first
    | exact keepsM_illegal_bind .. | exact KeepsM.pure _ | exact KeepsM.illegal | exact keepsM_curBank ..
    | exact keepsM_curBid .. | exact keepsM_readX .. | refine keepsM_irrevocable ?_ (fun _ => ?_)
    | refine KeepsM.modify (fun s => ?_) | apply KeepsM.ite | apply KeepsM.bind | exact Keeps.refl _
    | refine Keeps.trans ?_ (keeps_modDie ..) | refine Keeps.trans ?_ (keeps_runCc ..) | apply Keeps.ite
    | exact ⟨rfl, id⟩ | intro _

theorem keeps_execCsyncW (a : Reg) (s : State) : KeepsNext s (execCsyncW a s) := by
  unfold execCsyncW
  refine keeps_runCc ?_ s
  repeat' with_reducible first
    | exact keepsM_illegal_bind .. | exact keepsM_waitMore_bind .. | exact KeepsM.get | exact KeepsM.illegal
    | exact KeepsM.waitMore | exact KeepsM.pure _ | exact keepsM_readX .. | apply KeepsM.ite | apply KeepsM.bind
    | intro _

theorem keeps_saveBank (s : State) (group : Nat) (kind : Option Nat) (bid : Nat) : Keeps s (s.saveBank group kind bid) := by
  unfold State.saveBank
  exact (keeps_setBank _ _ _).after ((keeps_settle _ _).after ⟨rfl, id⟩)

theorem keeps_saveStep (s : State) (bid : Nat) : Keeps s (State.saveStep s bid) := by
  unfold State.saveStep
  repeat' with_reducible first
    | exact Keeps.refl _ | refine Keeps.trans ?_ (keeps_saveBank ..) | refine Keeps.trans ?_ (keeps_settleDrain ..)
    | refine Keeps.trans ?_ (keeps_switchAway ..) | refine Keeps.trans ?_ (keeps_updateLevels ..)
    | refine Keeps.trans ?_ (Keeps.foldl (fun _ _ => ?_) _ _) | apply Keeps.ite

theorem keeps_beginSave (s : State) (bid : Nat) (kind : Option Nat) : Keeps s (State.beginSave s bid kind) := by
  unfold State.beginSave
  repeat' with_reducible first
    | exact Keeps.refl _ | refine Keeps.trans ?_ (keeps_modBank ..) | refine Keeps.trans ?_ (keeps_saveStep ..)
    | refine Keeps.trans ?_ (keeps_withdraw ..) | refine Keeps.trans ?_ (Keeps.foldl (fun _ _ => ?_) _ _)

theorem keeps_execSafept (i : BitVec 12) (s : State) : KeepsNext s (execSafept i s) := by
  unfold execSafept
  dsimp only
  split
  · exact keeps_takeTrap s _ _ _
  · split
    · exact (keeps_modBank s _ _).trans (keeps_beginSave _ _ _)
    · exact (keeps_modBank s _ _).trans (keeps_switchAll _ _)

theorem keeps_execForcedSave (bank : Nat) (s : State) : KeepsNext s (execForcedSave bank s) := by
  unfold execForcedSave
  repeat' with_reducible first
    | apply KeepsNext.next | exact Keeps.refl _ | refine Keeps.trans ?_ (keeps_beginSave ..)
    | refine Keeps.trans ?_ (keeps_saveStep ..) | apply Keeps.ite

theorem keeps_execPreemptionRequest (bank : Nat) (s : State) : KeepsNext s (execPreemptionRequest bank s) := by
  unfold execPreemptionRequest
  repeat' with_reducible first
    | apply KeepsNext.next | exact Keeps.refl _ | refine Keeps.trans ?_ (keeps_beginSave ..)
    | refine Keeps.trans ?_ (keeps_modBank ..) | apply Keeps.ite

theorem keeps_execCsrAccess (op : CsrOp) (useImm : Bool) (csr : BitVec 12) (d a : Reg) (s : State) : KeepsNext s (execCsrAccess op useImm csr d a s) := by
  unfold execCsrAccess
  refine keeps_runCc ?_ s
  repeat' with_reducible first
    | exact keepsM_illegal_bind .. | exact KeepsM.get | exact KeepsM.illegal | exact KeepsM.pure _
    | exact keepsM_curBank .. | exact keepsM_modCur .. | exact keepsM_readX .. | exact keepsM_writeX ..
    | apply KeepsM.ite | apply KeepsM.bind | intro _ | split | dsimp only

theorem keeps_execStandardEcall (s : State) : KeepsNext s (execStandardEcall s) := by
  unfold execStandardEcall
  refine keeps_runCc ?_ s
  repeat' with_reducible first
    | exact keepsM_trap_bind .. | exact keepsM_illegal_bind .. | exact KeepsM.trap _ _ | exact KeepsM.illegal
    | exact KeepsM.pure _ | exact keepsM_curBank .. | apply KeepsM.ite | apply KeepsM.bind | intro _

theorem keeps_execEbreak (s : State) : KeepsNext s (execEbreak s) := by
  unfold execEbreak
  refine keeps_runCc ?_ s
  repeat' with_reducible first
    | exact keepsM_trap_bind .. | exact KeepsM.trap _ _ | exact keepsM_curBank .. | apply KeepsM.ite
    | apply KeepsM.bind | intro _

theorem keepsM_needSuper  : KeepsM (needSuper) := by
  unfold needSuper
  repeat' with_reducible first
    | exact keepsM_illegal_bind .. | exact KeepsM.illegal | exact KeepsM.pure _ | exact keepsM_curBank ..
    | apply KeepsM.ite | apply KeepsM.bind | intro _

theorem keeps_execSret (s : State) : KeepsNext s (execSret s) := by
  unfold execSret
  refine keeps_runJump ?_ s
  repeat' with_reducible first
    | exact KeepsM.pure _ | exact keepsM_curBank .. | exact keepsM_modCur .. | exact keepsM_needSuper ..
    | apply KeepsM.ite | apply KeepsM.bind | intro _

theorem keeps_execWfi (s : State) : KeepsNext s (execWfi s) := by
  unfold execWfi
  refine keeps_runCc ?_ s
  repeat' with_reducible first
    | exact keepsM_waitMore_bind .. | exact KeepsM.waitMore | exact KeepsM.pure _ | exact keepsM_curBank ..
    | exact keepsM_modCur .. | exact keepsM_needSuper .. | apply KeepsM.ite | apply KeepsM.bind | intro _

theorem keeps_execSfenceVma (a b : Reg) (s : State) : KeepsNext s (execSfenceVma a b s) := by
  unfold execSfenceVma
  refine keeps_runCc ?_ s
  repeat' with_reducible first
    | exact KeepsM.pure _ | exact keepsM_curBank .. | exact keepsM_needSuper .. | exact keepsM_readX ..
    | refine KeepsM.modify (fun s => ?_) | apply KeepsM.ite | apply KeepsM.bind | exact Keeps.refl _
    | refine Keeps.trans ?_ (keeps_invalidate ..) | refine Keeps.trans ?_ (keeps_runCc ..) | apply Keeps.ite
    | intro _

theorem keeps_setFault (s : State) (d i : Nat) (r : FaultRec) : Keeps s (State.setFault s d i r) := by
  unfold State.setFault
  exact Keeps.trans (Keeps.refl _) (keeps_modDie ..)

theorem keeps_execFqpop (d a : Reg) (s : State) : KeepsNext s (execFqpop d a s) := by
  unfold execFqpop
  refine keeps_runCc ?_ s
  repeat' with_reducible first
    | exact keepsM_trap_bind .. | exact KeepsM.get | exact KeepsM.trap _ _ | exact KeepsM.pure _
    | exact keepsM_curBank .. | exact keepsM_curBid .. | exact keepsM_needSuper .. | exact keepsM_readX ..
    | exact keepsM_translate .. | exact keepsM_writeX .. | refine keepsM_irrevocable ?_ (fun _ => ?_)
    | refine KeepsM.modify (fun s => ?_) | apply KeepsM.ite | apply KeepsM.bind | exact Keeps.refl _
    | refine Keeps.trans ?_ (keeps_runCc ..) | refine Keeps.trans ?_ (keeps_setFault ..)
    | refine Keeps.trans ?_ (keeps_storeAt ..) | apply Keeps.ite | exact ⟨rfl, id⟩ | intro _ | split

theorem keeps_execFqrep (a b : Reg) (s : State) : KeepsNext s (execFqrep a b s) := by
  unfold execFqrep
  refine keeps_runCc ?_ s
  repeat' with_reducible first
    | exact keepsM_illegal_bind .. | exact KeepsM.pure _ | exact KeepsM.get | exact KeepsM.illegal
    | exact keepsM_curBank .. | exact keepsM_needSuper .. | exact keepsM_readX ..
    | refine keepsM_irrevocable ?_ (fun _ => ?_) | refine KeepsM.modify (fun s => ?_) | apply KeepsM.ite
    | apply KeepsM.bind | exact Keeps.refl _ | refine Keeps.trans ?_ (keeps_gcFaults ..)
    | refine Keeps.trans ?_ (keeps_runCc ..) | refine Keeps.trans ?_ (keeps_setFault ..)
    | refine Keeps.trans ?_ (keeps_terminate ..) | refine Keeps.trans ?_ (Keeps.foldl (fun _ _ => ?_) _ _)
    | apply Keeps.ite | exact ⟨rfl, id⟩ | intro _ | split | dsimp only

theorem keeps_execErgr (d a : Reg) (s : State) : KeepsNext s (execErgr d a s) := by
  unfold execErgr
  refine keeps_runCc ?_ s
  repeat' with_reducible first
    | exact keepsM_illegal_bind .. | exact KeepsM.get | exact KeepsM.illegal | exact KeepsM.pure _
    | exact keepsM_curBank .. | exact keepsM_readX .. | exact keepsM_writeX .. | apply KeepsM.ite | apply KeepsM.bind
    | intro _

theorem keeps_charge (s : State) (bid energy : Nat) : Keeps s (s.charge bid energy) := by
  unfold State.charge
  refine Keeps.ite (Keeps.refl s) ?_
  dsimp only
  split
  · exact keeps_modCore s _ _
  · exact keeps_modCore s _ _
  · exact (keeps_modCore s _ _).trans ((keeps_modDie _ _ _).trans (keeps_modBank _ _ _))

/-- What passes before a turn keeps memory; only the turn's own part of `cur` is new. -/
theorem memOk_pass {s : State} (h : MemOk s) (t : Turn) : MemOk (s.pass t) := by
  unfold State.pass
  dsimp only
  have start : MemOk (State.answerSnoops { s.takeSpans with
      schedule := s.schedule.tail, cycle := (s.cycle + t.cycles) % 2 ^ 64, ftime := (s.ftime + t.ns) % 2 ^ 64
      ticks := s.ticks + 1, uses := 0, cur := { s.cur with forecast := t.forecast, port := t.port } }) :=
    (keeps_answerSnoops _).ok h
  generalize State.answerSnoops _ = u at start ⊢
  split
  · exact start
  · exact (Keeps.ite (keeps_charge u _ _) ((keeps_charge u _ _).trans (keeps_modBank _ _ _))).ok start

theorem keeps_claim {s t : State} {bid : Nat} (h : s.claim bid = some t) : Keeps s t := by
  unfold State.claim at h
  split at h
  · cases h
  · split at h
    · cases h; exact Keeps.refl s
    · split at h
      · cases h
      · cases h; exact (keeps_modBank s _ _).trans (keeps_activate _ _)

theorem keeps_claims {ms : List Nat} : ∀ {s t : State}, ms.foldlM (fun s m => s.claim m) s = some t → Keeps s t := by
  induction ms with
  | nil => intro s t h; cases h; exact Keeps.refl s
  | cons m ms ih =>
    intro s t h
    rw [List.foldlM_cons, Option.bind_eq_bind, Option.bind_eq_some_iff] at h
    obtain ⟨u, hu, ht⟩ := h
    exact (keeps_claim hu).trans (ih ht)

theorem keeps_claimAll {s t : State} {bid : Nat} (h : s.claimAll bid = some t) : Keeps s t := keeps_claims h

theorem keeps_reissueCore (s : State) (bid : Nat) : Keeps s (s.reissueCore bid) := by
  unfold State.reissueCore
  split
  · exact Keeps.refl s
  · exact (keeps_modBank s _ _).trans ((keeps_rewalkVer _ _ _ _).trans (keeps_gcFaults _))

theorem keepsM_fetchBytes (bid : Nat) : KeepsM (fetchBytes bid) := by
  unfold fetchBytes
  repeat' with_reducible first
    | exact KeepsM.pure _ | exact KeepsM.get | exact keepsM_loadBytes .. | exact keepsM_translate ..
    | apply KeepsM.ite | apply KeepsM.bind | intro _

theorem keeps_takeDue (s : State) (bid : Nat) : Keeps s (State.takeDue s bid) := by
  unfold State.takeDue
  repeat' with_reducible first
    | exact Keeps.refl _ | refine Keeps.trans ?_ (keeps_beginDrain ..) | refine Keeps.trans ?_ (keeps_modBank ..)
    | refine Keeps.trans ?_ (keeps_withdraw ..)

theorem keeps_noteTurn (s : State) (bid : Nat) (e : Engine) (moved : Bool) : Keeps s (State.noteTurn s bid e moved) := by
  unfold State.noteTurn
  repeat' with_reducible first
    | exact Keeps.refl _ | refine Keeps.trans ?_ (keeps_modBank ..)
    | refine Keeps.trans ?_ (Keeps.foldl (fun _ _ => ?_) _ _) | apply Keeps.ite

theorem keepsM_issueCopy {src dst : OpKind} {ring pol pops : Nat} {persist : Bool} {plan : List Word → M CopyPlan}
    {dstOf : List Word → Word} (h : ∀ l, KeepsM (plan l)) : KeepsM (issueCopy src dst ring pol pops persist plan dstOf) := by
  unfold issueCopy
  repeat' with_reducible first
    | exact h _ | exact keepsM_operands .. | exact keepsM_restack .. | exact keepsM_modRegs ..
    | exact keepsM_modCur .. | exact keepsM_illegalWord_bind .. | exact keepsM_waitMore_bind ..
    | exact keepsM_fail_bind .. | exact KeepsM.pure _ | exact KeepsM.get | apply KeepsM.ite | apply KeepsM.bind
    | intro _ | split | dsimp only

theorem keepsM_planCpy (sk dk : OpKind) (ops : List Word) : KeepsM (planCpy sk dk ops) := by
  unfold planCpy
  repeat' with_reducible first
    | exact keepsM_illegalWord_bind .. | exact KeepsM.pure _ | exact KeepsM.illegalWord | apply KeepsM.ite

theorem keeps_execCpy (p : BitVec 3) (src d g : BitVec 2) (s : State) : KeepsNext s (execCpy p src d g s) := by
  unfold execCpy
  refine keeps_runWord (fun e => ?_) s
  repeat' with_reducible first
    | exact KeepsM.pure _ | apply keepsM_issueCopy | exact keepsM_planCpy .. | apply KeepsM.ite | apply KeepsM.bind
    | intro _

theorem keeps_execCpyd (p : BitVec 3) (src d : BitVec 2) (s : State) : KeepsNext s (execCpyd p src d s) := by
  unfold execCpyd
  refine keeps_runWord (fun e => ?_) s
  repeat' with_reducible first
    | apply keepsM_issueCopy | exact keepsM_planCpy .. | apply KeepsM.ite | apply KeepsM.bind | intro _

theorem keepsM_planCpy2 (sk dk : OpKind) (ops : List Word) : KeepsM (planCpy2 sk dk ops) := by
  unfold planCpy2
  repeat' with_reducible first
    | exact keepsM_illegalWord_bind .. | exact KeepsM.pure _ | exact KeepsM.illegalWord | apply KeepsM.ite

theorem keeps_execCpy2 (p : BitVec 3) (src d g : BitVec 2) (s : State) : KeepsNext s (execCpy2 p src d g s) := by
  unfold execCpy2
  refine keeps_runWord (fun e => ?_) s
  repeat' with_reducible first
    | exact KeepsM.pure _ | apply keepsM_issueCopy | exact keepsM_planCpy2 .. | apply KeepsM.ite | apply KeepsM.bind
    | intro _

theorem keepsM_indexList (rows rowb : Nat) (idx : Word) : KeepsM (indexList rows rowb idx) := by
  unfold indexList
  repeat' with_reducible first
    | exact keepsM_waitMore_bind .. | exact keepsM_illegalWord_bind .. | exact KeepsM.pure _ | exact KeepsM.get
    | exact KeepsM.waitMore | exact KeepsM.illegalWord | exact keepsM_curEng .. | exact keepsM_loadLocal ..
    | apply KeepsM.ite | apply KeepsM.bind | intro _

theorem keepsM_planGath (sk dk : OpKind) (ops : List Word) : KeepsM (planGath sk dk ops) := by
  unfold planGath
  repeat' with_reducible first
    | exact keepsM_illegalWord_bind .. | exact KeepsM.pure _ | exact KeepsM.illegalWord | exact keepsM_indexList ..
    | apply KeepsM.ite | apply KeepsM.bind | intro _

theorem keeps_execGath (p : BitVec 3) (src d g : BitVec 2) (s : State) : KeepsNext s (execGath p src d g s) := by
  unfold execGath
  refine keeps_runWord (fun e => ?_) s
  repeat' with_reducible first
    | exact KeepsM.pure _ | apply keepsM_issueCopy | exact keepsM_planGath .. | apply KeepsM.ite | apply KeepsM.bind
    | intro _

theorem keepsM_planScat (sk dk : OpKind) (ops : List Word) : KeepsM (planScat sk dk ops) := by
  unfold planScat
  repeat' with_reducible first
    | exact keepsM_illegalWord_bind .. | exact KeepsM.pure _ | exact KeepsM.illegalWord | exact keepsM_indexList ..
    | apply KeepsM.ite | apply KeepsM.bind | intro _

theorem keeps_execScat (p : BitVec 3) (src d : BitVec 2) (s : State) : KeepsNext s (execScat p src d s) := by
  unfold execScat
  refine keeps_runWord (fun e => ?_) s
  repeat' with_reducible first
    | apply keepsM_issueCopy | exact keepsM_planScat .. | apply KeepsM.ite | apply KeepsM.bind | intro _

theorem keepsM_planRfeed (sk : OpKind) (g : Nat) (ops : List Word) : KeepsM (planRfeed sk g ops) := by
  unfold planRfeed
  repeat' with_reducible first
    | exact keepsM_illegalWord_bind .. | exact KeepsM.pure _ | exact KeepsM.illegalWord | apply KeepsM.ite

theorem keeps_execRfeed (p : BitVec 3) (src g : BitVec 2) (s : State) : KeepsNext s (execRfeed p src g s) := by
  unfold execRfeed
  refine keeps_runWord (fun e => ?_) s
  repeat' with_reducible first
    | apply keepsM_issueCopy | exact keepsM_planRfeed .. | apply KeepsM.ite | apply KeepsM.bind | intro _

theorem keepsM_planCpyz (dk : OpKind) (ops : List Word) : KeepsM (planCpyz dk ops) := by
  unfold planCpyz
  repeat' with_reducible first
    | exact keepsM_illegalWord_bind .. | exact KeepsM.pure _ | exact KeepsM.illegalWord | apply KeepsM.ite

theorem keeps_execCpyz (p : BitVec 3) (d : BitVec 2) (s : State) : KeepsNext s (execCpyz p d s) := by
  unfold execCpyz
  refine keeps_runWord (fun e => ?_) s
  repeat' with_reducible first
    | apply keepsM_issueCopy | exact keepsM_planCpyz .. | apply KeepsM.ite | apply KeepsM.bind | intro _

theorem keepsM_planPfch (ops : List Word) : KeepsM (planPfch ops) := by
  unfold planPfch
  repeat' with_reducible first
    | exact keepsM_illegalWord_bind .. | exact KeepsM.pure _ | exact KeepsM.illegalWord | apply KeepsM.ite

theorem keeps_execPfch (p : BitVec 3) (src : BitVec 2) (s : State) : KeepsNext s (execPfch p src s) := by
  unfold execPfch
  refine keeps_runWord (fun e => ?_) s
  repeat' with_reducible first
    | apply keepsM_issueCopy | exact keepsM_planPfch .. | apply KeepsM.ite | apply KeepsM.bind | intro _

theorem keepsM_validVersion (bid : Nat) (p : BitVec 4) (id : Option Nat) (off acc : Nat) : KeepsM (validVersion bid p id off acc) := by
  unfold validVersion
  repeat' with_reducible first
    | exact KeepsM.get | exact keepsM_versionPage .. | apply KeepsM.ite | apply KeepsM.bind | intro _

theorem keepsM_planCpyg (sk : OpKind) (ops : List Word) : KeepsM (planCpyg sk ops) := by
  unfold planCpyg
  repeat' with_reducible first
    | exact keepsM_illegalWord_bind .. | exact KeepsM.pure _ | exact KeepsM.illegalWord | exact keepsM_curBid ..
    | exact keepsM_curEng .. | exact keepsM_validVersion .. | apply KeepsM.ite | apply KeepsM.bind | intro _

theorem keeps_execCpyg (p : BitVec 3) (src d : BitVec 2) (s : State) : KeepsNext s (execCpyg p src d s) := by
  unfold execCpyg
  refine keeps_runWord (fun e => ?_) s
  repeat' with_reducible first
    | apply keepsM_issueCopy | exact keepsM_planCpyg .. | apply KeepsM.ite | apply KeepsM.bind | intro _

theorem keepsM_planFill (dk : OpKind) (ops : List Word) : KeepsM (planFill dk ops) := by
  unfold planFill
  repeat' with_reducible first
    | exact keepsM_illegalWord_bind .. | exact KeepsM.pure _ | exact KeepsM.illegalWord | exact keepsM_curEng ..
    | apply KeepsM.ite | apply KeepsM.bind | intro _

theorem keeps_execFill (p : BitVec 3) (d : BitVec 2) (s : State) : KeepsNext s (execFill p d s) := by
  unfold execFill
  refine keeps_runWord (fun e => ?_) s
  repeat' with_reducible first
    | apply keepsM_issueCopy | exact keepsM_planFill .. | apply KeepsM.ite | apply KeepsM.bind | intro _

theorem keeps_execDln (s : State) : KeepsNext s (execDln s) := by
  unfold execDln
  refine keeps_runWord (fun e => ?_) s
  repeat' with_reducible first
    | exact keepsM_illegalWord_bind .. | exact KeepsM.pure _ | exact KeepsM.illegalWord | exact keepsM_modRegs ..
    | exact keepsM_operands .. | exact keepsM_restack .. | apply KeepsM.ite | apply KeepsM.bind | intro _ | split

theorem keeps_copyStop (s : State) (bid n : Nat) (x : Stop) : Keeps s (s.copyStop bid n x) := by
  unfold State.copyStop
  split
  · exact Keeps.ite ((keeps_flightStop s _ _ _).trans (keeps_giveWay _ _)) (keeps_flightStop s _ _ _)
  · exact keeps_flightStop s _ _ _

theorem keeps_finishNext (s : State) (bank : Nat) : Keeps s (match s.nextFlight bank [] with
    | none => s
    | some n =>
      match (finishFlight bank n).run s with
      | .ok _ s' => s'
      | .error x s' => s'.copyStop bank n x) := by
  split
  · exact Keeps.refl s
  · rename_i n _
    have h := keepsM_finishFlight bank n s
    split
    · rename_i hr; rw [hr] at h; exact h
    · rename_i hr; rw [hr] at h; exact Keeps.trans h (keeps_copyStop _ _ _ _)

theorem keeps_execCopyComplete (bank : Nat) (s : State) : KeepsNext s (execCopyComplete bank s) := by
  have reissued : ∀ (fs : List Flight) (s : State), Keeps s (fs.foldl (fun s f => s.reissueFlight bank f) s) :=
    Keeps.foldl (fun s f => keeps_reissueFlight s bank f)
  unfold execCopyComplete
  refine KeepsNext.next ?_
  split
  · exact Keeps.refl s
  · rename_i t ht
    exact (keeps_claimAll ht).trans ((reissued _ t).trans (keeps_finishNext _ bank))

theorem keeps_setSlot (s : State) (i : Nat) (v : Slot) : Keeps s (s.setSlot i v) := ⟨rfl, id⟩

theorem keeps_setGen (s : State) (vf : Nat) (name : Word) (g : Nat) : Keeps s (s.setGen vf name g) := ⟨rfl, id⟩

theorem keeps_freeSlot (s : State) (i : Nat) : Keeps s (s.freeSlot i) := keeps_setSlot s _ _

theorem keeps_postRecord (s : State) (i : Nat) : Keeps s (s.postRecord i) := by
  unfold State.postRecord
  dsimp only
  refine Keeps.ite (keeps_freeSlot s i) ?_
  split
  · exact keeps_setSlot s _ _
  · rename_i t ht
    refine (keeps_unitPlace ht).trans (Keeps.ite (keeps_setSlot t _ _) ?_)
    split
    · exact keeps_setSlot t _ _
    · rename_i u hu
      refine (keeps_unitPlace hu).trans ?_
      split
      · exact keeps_setSlot u _ _
      · rename_i v hv
        exact (keeps_unitPlace hv).trans ((keeps_unitStore v _ _ _ _).trans ((keeps_unitStore _ _ _ _ _).trans (keeps_freeSlot _ i)))

theorem keeps_reclaimIfDone (s : State) (i : Nat) : Keeps s (State.reclaimIfDone s i) := by
  unfold State.reclaimIfDone
  repeat' with_reducible first
    | exact Keeps.refl _ | refine Keeps.trans ?_ (keeps_postRecord ..) | apply Keeps.ite

theorem keeps_execReclaimRetry (slot : Nat) (s : State) : KeepsNext s (execReclaimRetry slot s) := by
  unfold execReclaimRetry
  repeat' with_reducible first
    | apply KeepsNext.next | exact Keeps.refl _ | refine Keeps.trans ?_ (keeps_postRecord ..) | apply Keeps.ite

theorem keeps_openSlot (s : State) (i : Nat) : Keeps s (s.openSlot i) := keeps_setSlot s _ _

theorem keeps_endDopenW (s : State) (w : DirWaiter) (v : Nat) : Keeps s (State.endDopenW s w v) := by
  unfold State.endDopenW
  repeat' with_reducible first
    | exact Keeps.refl _ | refine Keeps.trans ?_ (keeps_beginPhase ..) | refine Keeps.trans ?_ (keeps_modBank ..)

theorem keeps_wake (s : State) (i : Nat) (w : DirWaiter) : Keeps s (s.wake i w) := by
  unfold State.wake
  refine Keeps.trans (t := { s with dirWaiters := s.dirWaiters.filter (·.bid ≠ w.bid) }) ⟨rfl, id⟩ ?_
  dsimp only
  generalize ({ s with dirWaiters := s.dirWaiters.filter (·.bid ≠ w.bid) } : State) = t
  have h := keepsM_translate (t.whoCore w.bid) w.va accW 0 t
  split
  · rename_i hr; rw [hr] at h; exact Keeps.trans h (keeps_modBank _ _ _)
  · rename_i hr; rw [hr] at h
    exact Keeps.trans h ((keeps_openSlot _ i).trans ((keeps_storeAt _ _ _ _ _).trans (keeps_endDopenW _ _ _)))

theorem keeps_unbindOld (s : State) (vf : Nat) (name : Word) : Keeps s (match s.boundObject vf name with
    | some i => (s.setSlot i { s.slot i with bound := false }).reclaimIfDone i
    | none => s) := by
  split
  · exact (keeps_setSlot s _ _).trans (keeps_reclaimIfDone _ _)
  · exact Keeps.refl s

theorem keeps_bindNew (s : State) (vf g : Nat) (e : BindEntry) : Keeps s (match e.2 with
    | none => s
    | some d =>
      match s.lowestFree (homeDie vf e.1) with
      | none => s
      | some i =>
        s.setSlot i
          { s.slot i with used := true, name := e.1, vf := vf, desc := d, bound := true, opens := 0, gen := g, held := false }) := by
  split
  · exact Keeps.refl s
  · split
    · exact Keeps.refl s
    · exact keeps_setSlot s _ _

theorem keeps_bindEntry (s : State) (vf g : Nat) (e : BindEntry) : Keeps s (s.bindEntry vf g e) := by
  unfold State.bindEntry
  exact (keeps_setGen _ vf e.1 g).after ((keeps_bindNew _ vf g e).after (keeps_unbindOld s vf e.1))

theorem keeps_serveWaiters (s : State) (vf : Nat) (name : Word) : Keeps s (s.serveWaiters vf name) := by
  unfold State.serveWaiters
  split
  · exact Keeps.refl s
  · exact Keeps.foldl (fun s w => keeps_wake s _ w) _ s

theorem keeps_bindStep (s : State) (vf : Nat) (es : List BindEntry) : Keeps s (s.bindStep vf es).2 := by
  unfold State.bindStep
  dsimp only
  split
  · exact Keeps.refl s
  · split
    · exact Keeps.refl s
    · split
      · exact Keeps.refl s
      · exact (keeps_setVf s _ _).trans ((Keeps.foldl (fun s e => keeps_bindEntry s vf _ e) es _).trans
          (Keeps.foldl (fun s e => keeps_serveWaiters s vf e.1) es _))

theorem keepsM_bindForm (d : Reg) {checks : M (Option (List BindEntry))} (h : KeepsM checks) : KeepsM (bindForm d checks) := by
  unfold bindForm
  refine keepsM_irrevocable h (fun es => KeepsM.get_bind (fun s => ?_))
  split
  · exact keepsM_writeX d _ s
  · rw [M.bind_curBank]
    exact KeepsM.set_bind (keeps_bindStep s _ _) (keepsM_writeX d _)

theorem keepsM_loadDesc (va : Nat) : KeepsM (loadDesc va) := by
  unfold loadDesc
  repeat' with_reducible first
    | exact keepsM_trap_bind .. | exact KeepsM.get | exact KeepsM.trap _ _ | exact KeepsM.pure _
    | exact keepsM_loadBlock .. | apply KeepsM.ite | apply KeepsM.bind | intro _

theorem keeps_execDbind (d a b : Reg) (s : State) : KeepsNext s (execDbind d a b s) := by
  refine keeps_runCc (keepsM_bindForm d ?_) s
  exact (keepsM_readX a).bind (fun _ => (keepsM_readX b).bind (fun _ => KeepsM.ite (KeepsM.pure _)
    ((keepsM_loadDesc _).bind (fun _ => KeepsM.pure _))))

theorem keeps_execDunbind (d a : Reg) (s : State) : KeepsNext s (execDunbind d a s) :=
  keeps_runCc (keepsM_bindForm d ((keepsM_readX a).bind (fun _ => KeepsM.pure _))) s

theorem keepsM_loadBindList (list : Nat) : KeepsM (loadBindList list) := by
  unfold loadBindList
  repeat' with_reducible first
    | exact keepsM_trap_bind .. | exact KeepsM.pure _ | exact KeepsM.get | exact KeepsM.trap _ _
    | exact keepsM_loadBlock .. | exact keepsM_loadDesc .. | apply KeepsM.mapM | apply KeepsM.ite | apply KeepsM.bind
    | intro _

theorem keeps_execDbset (d a : Reg) (s : State) : KeepsNext s (execDbset d a s) :=
  keeps_runCc (keepsM_bindForm d ((keepsM_readX a).bind (fun _ => keepsM_loadBindList _))) s

theorem keepsM_openBlock (a : Reg) : KeepsM (openBlock a) := by
  unfold openBlock
  repeat' with_reducible first
    | exact keepsM_trap_bind .. | exact KeepsM.pure _ | exact KeepsM.get | exact KeepsM.trap _ _
    | exact keepsM_loadBytes .. | exact keepsM_readX .. | exact keepsM_translate .. | apply KeepsM.ite
    | apply KeepsM.bind | intro _

theorem keepsM_openEffect (d : Reg) (p : Place) (name : Word) (unbound : Nat) : KeepsM (openEffect d p name unbound) := by
  unfold openEffect
  repeat' with_reducible first
    | exact KeepsM.get | exact KeepsM.pure _ | exact keepsM_writeX .. | refine KeepsM.modify (fun s => ?_)
    | apply KeepsM.ite | apply KeepsM.bind | exact Keeps.refl _ | refine Keeps.trans ?_ (keeps_openSlot ..)
    | refine Keeps.trans ?_ (keeps_storeAt ..) | apply Keeps.ite | exact ⟨rfl, id⟩ | intro _ | split | dsimp only

theorem keeps_execDopen (d a : Reg) (s : State) : KeepsNext s (execDopen d a s) := by
  unfold execDopen
  refine keeps_runCc ?_ s
  repeat' with_reducible first
    | exact keepsM_openBlock .. | exact keepsM_openEffect .. | refine keepsM_irrevocable ?_ (fun _ => ?_)

theorem keeps_execDopenW (d a b : Reg) (s : State) : KeepsNext s (execDopenW d a b s) := by
  unfold execDopenW
  split
  · exact Keeps.ite ((keeps_withdraw s _).trans (keeps_endDopenW _ _ _)) (Keeps.refl s)
  · refine keeps_runCc (keepsM_irrevocable ?_ (fun _ => keepsM_openEffect _ _ _ _)) s
    repeat' with_reducible first
      | exact keepsM_openBlock _ | exact keepsM_readX _ | exact keepsM_modCur _ | exact KeepsM.get
      | exact KeepsM.pure _ | exact keepsM_waitMore_bind .. | exact KeepsM.modify (fun _ => ⟨rfl, id⟩)
      | apply KeepsM.ite | apply KeepsM.bind | intro _

theorem keeps_execDopenWTimeout (bank : Nat) (s : State) : KeepsNext s (execDopenWTimeout bank s) := by
  refine KeepsNext.next ?_
  split
  · exact Keeps.ite ((keeps_withdraw s _).trans (keeps_endDopenW _ _ _)) (Keeps.refl s)
  · exact Keeps.refl s

theorem keeps_execDclose (a : Reg) (s : State) : KeepsNext s (execDclose a s) := by
  unfold execDclose
  refine keeps_runCc ?_ s
  repeat' with_reducible first
    | exact keepsM_trap_bind .. | exact KeepsM.pure _ | exact KeepsM.get | exact KeepsM.trap _ _
    | exact keepsM_curBank .. | exact keepsM_readX .. | refine keepsM_irrevocable ?_ (fun _ => ?_)
    | refine KeepsM.modify (fun s => ?_) | apply KeepsM.ite | apply KeepsM.bind | exact Keeps.refl _
    | refine Keeps.trans ?_ (keeps_reclaimIfDone ..) | refine Keeps.trans ?_ (keeps_runCc ..)
    | refine Keeps.trans ?_ (keeps_setSlot ..) | apply Keeps.ite | exact ⟨rfl, id⟩ | intro _

theorem keeps_execDqry (d a : Reg) (s : State) : KeepsNext s (execDqry d a s) := by
  unfold execDqry
  refine keeps_runCc ?_ s
  repeat' with_reducible first
    | exact KeepsM.get | exact keepsM_curBank .. | exact keepsM_readX .. | exact keepsM_writeX .. | apply KeepsM.ite
    | apply KeepsM.bind | intro _

theorem keepsM_checkMul (k : MulKind) (r : EngRegs) (x : FmtEntry) (a b : Ring) (kk n m : Nat) : KeepsM (checkMul k r x a b kk n m) := by
  unfold checkMul
  repeat' with_reducible first
    | exact keepsM_endNest_bind .. | exact keepsM_illegalWord_bind .. | exact KeepsM.endNest _
    | exact KeepsM.illegalWord | exact KeepsM.pure _ | apply KeepsM.ite

theorem keepsM_multiply (k : MulKind) (r c : BitVec 2) (b : Bool) (f : BitVec 4) (l : BitVec 2) : KeepsM (multiply k r c b f l) := by
  unfold multiply
  repeat' with_reducible first
    | exact keepsM_illegalWord_bind .. | exact KeepsM.pure _ | exact KeepsM.illegalWord | exact keepsM_checkMul ..
    | exact keepsM_curBid .. | exact keepsM_curEng .. | exact keepsM_keepAs .. | exact keepsM_modCur ..
    | exact keepsM_modRegs .. | exact keepsM_nextPair .. | exact keepsM_operands .. | exact keepsM_readTile ..
    | exact keepsM_restack .. | apply KeepsM.ite | apply KeepsM.bind | intro _ | split

theorem keeps_execMm (r c : BitVec 2) (b : Bool) (f : BitVec 4) (l : BitVec 2) (s : State) : KeepsNext s (execMm r c b f l s) := by
  unfold execMm
  refine keeps_runWord (fun e => ?_) s
  apply keepsM_multiply

theorem keeps_execMml (r c : BitVec 2) (b : Bool) (f : BitVec 4) (l : BitVec 2) (s : State) : KeepsNext s (execMml r c b f l s) := by
  unfold execMml
  refine keeps_runWord (fun e => ?_) s
  apply keepsM_multiply

theorem keeps_execMmm (r c : BitVec 2) (b : Bool) (f : BitVec 4) (l : BitVec 2) (s : State) : KeepsNext s (execMmm r c b f l s) := by
  unfold execMmm
  refine keeps_runWord (fun e => ?_) s
  apply keepsM_multiply

theorem keepsM_readMask (a : Word) (vers : List Nat) (have0 : List Byte) (i : Nat) : KeepsM (readMask a vers have0 i) := by
  unfold readMask
  repeat' with_reducible first
    | exact keepsM_fail_bind .. | exact KeepsM.pure _ | exact KeepsM.fail _ | exact keepsM_curBid ..
    | exact keepsM_handlePlace .. | exact keepsM_keep .. | exact keepsM_loadBytes .. | apply KeepsM.catch
    | apply KeepsM.ite | apply KeepsM.bind | intro _

theorem keeps_execMpb (s : State) : KeepsNext s (execMpb s) := by
  unfold execMpb
  refine keeps_runWord (fun e => ?_) s
  repeat' with_reducible first
    | exact keepsM_endNest_bind .. | exact keepsM_illegalWord_bind .. | exact KeepsM.pure _ | exact KeepsM.endNest _
    | exact KeepsM.illegalWord | exact keepsM_curEng .. | exact keepsM_modRegs .. | exact keepsM_operands ..
    | exact keepsM_readMask .. | exact keepsM_restack .. | apply KeepsM.ite | apply KeepsM.bind | intro _ | split

theorem keeps_execAccz (b : Bool) (s : State) : KeepsNext s (execAccz b s) := by
  unfold execAccz
  refine keeps_runWord (fun e => ?_) s
  repeat' with_reducible first
    | exact KeepsM.pure _ | exact keepsM_modCur .. | exact keepsM_modRegs .. | apply KeepsM.ite | apply KeepsM.bind
    | intro _

theorem keeps_execAccg (b : Bool) (s : State) : KeepsNext s (execAccg b s) := by
  unfold execAccg
  refine keeps_runWord (fun e => ?_) s
  repeat' with_reducible first
    | exact keepsM_illegalWord_bind .. | exact KeepsM.pure _ | exact KeepsM.illegalWord | exact keepsM_modRegs ..
    | exact keepsM_operands .. | exact keepsM_restack .. | apply KeepsM.ite | apply KeepsM.bind | intro _ | split

theorem keeps_execFte (n : BitVec 4) (s : State) : KeepsNext s (execFte n s) := by
  unfold execFte
  refine keeps_runWord (fun e => ?_) s
  repeat' with_reducible first
    | exact keepsM_illegalWord_bind .. | exact KeepsM.pure _ | exact KeepsM.illegalWord | exact keepsM_modRegs ..
    | exact keepsM_operands .. | exact keepsM_restack .. | apply KeepsM.ite | apply KeepsM.bind | intro _ | split

theorem keeps_execRng (g : BitVec 2) (s : State) : KeepsNext s (execRng g s) := by
  unfold execRng
  refine keeps_runWord (fun e => ?_) s
  repeat' with_reducible first
    | exact keepsM_waitMore_bind .. | exact keepsM_illegalWord_bind .. | exact KeepsM.pure _ | exact KeepsM.waitMore
    | exact KeepsM.illegalWord | exact keepsM_curBank .. | exact keepsM_modRegs .. | exact keepsM_operands ..
    | exact keepsM_restack .. | apply KeepsM.ite | apply KeepsM.bind | intro _ | split

theorem keepsM_accoWrites (h : Word) (vers : List Nat) (ops : List Word) :
    ∀ (rs : List (Nat × List Byte)) (done : Nat), KeepsM (accoWrites h vers ops done rs)
  | [], _ => KeepsM.pure _
  | (off, d) :: rs, done => by
    unfold accoWrites
    refine keepsM_curBid.bind (fun bid => KeepsM.bind (KeepsM.catch ?_ (fun st => ?_)) (fun _ => keepsM_accoWrites h vers ops rs _))
    · exact (keepsM_handlePlace _ _ _ _ _ _ _ _).bind (fun _ => KeepsM.modify (fun s => keeps_storeAt s _ _ _ _))
    · exact (keepsM_keep _ _ _ _).bind (fun _ => KeepsM.fail st)

theorem keeps_execAcco (b : Bool) (f : BitVec 4) (s : State) : KeepsNext s (execAcco b f s) := by
  unfold execAcco
  refine keeps_runWord (fun e => ?_) s
  repeat' with_reducible first
    | exact keepsM_illegalWord_bind .. | exact KeepsM.pure _ | exact KeepsM.get | exact KeepsM.illegalWord
    | exact keepsM_accoWrites .. | exact keepsM_curEng .. | exact keepsM_operands .. | exact keepsM_readTile ..
    | exact keepsM_restack .. | apply KeepsM.ite | apply KeepsM.bind | intro _ | split

theorem keeps_execDraw (b : Bool) (s : State) : KeepsNext s (execDraw b s) := by
  unfold execDraw
  refine keeps_runWord (fun e => ?_) s
  repeat' with_reducible first
    | exact keepsM_fail_bind .. | exact keepsM_waitMore_bind .. | exact keepsM_illegalWord_bind ..
    | exact KeepsM.pure _ | exact KeepsM.get | exact KeepsM.fail _ | exact KeepsM.waitMore | exact KeepsM.illegalWord
    | exact keepsM_curEng .. | exact keepsM_deliver .. | exact keepsM_modRegs .. | exact keepsM_operands ..
    | exact keepsM_restack .. | apply KeepsM.ite | apply KeepsM.bind | intro _ | split

theorem keeps_command (s : State) (overI3c inSafe : Bool) {f : State → Host.Outcome State Fault Refusal}
    (h : ∀ t, KeepsNext t (f t)) : KeepsNext s (s.command overI3c inSafe f) := by
  have noted : ∀ st : CmdStatus, Keeps s { s with host := { s.host with status := st } } := fun _ => ⟨rfl, id⟩
  unfold State.command
  split
  · exact Keeps.refl s
  · split
    · exact noted _
    · exact (noted _).next (h _)

theorem keeps_notified (s : State) (vf die ring : Nat) : Keeps s (State.notified s vf die ring) := by
  unfold State.notified
  repeat' with_reducible first
    | exact Keeps.refl _ | refine Keeps.trans ?_ (keeps_setDie ..) | apply Keeps.ite

theorem keeps_ringRead {s t : State} {die va n : Nat} {g : SubRing} {bs : List Byte} (h : s.ringRead die g va n = .ok (bs, t)) :
    Keeps s t := by
  unfold State.ringRead at h
  split at h
  · rename_i hp; cases h; exact keeps_unitPlace hp
  · cases h
  · cases h

theorem keeps_ringWrite (g : SubRing) (die word v : Nat) (s : State) : Keeps s (g.write die word v s) := keeps_unitWrite s _ _ _ _ _

theorem keeps_ringError (s : State) (die r : Nat) (e : RingStop) : Keeps s (s.ringError die r e) := by
  unfold State.ringError
  split
  · exact Keeps.refl s
  · exact (keeps_ringWrite _ _ _ _ s).trans (keeps_modDie _ _ _)

theorem keeps_ringHeader {s t : State} {die c head tail : Nat} {g : SubRing} (h : s.ringHeader die g = .ok (c, head, tail, t)) :
    Keeps s t := by
  unfold State.ringHeader at h
  dsimp only at h
  split at h
  · cases h
  · split at h
    · cases h
    · split at h
      · cases h
      · rename_i u hr
        split at h
        · cases h
        · split at h
          · cases h
          · cases h
            exact (keeps_ringRead hr).trans (Keeps.ite (Keeps.refl u) (keeps_ringWrite _ _ _ _ u))

theorem keeps_execCowslipAccept (die : Nat) (s : State) : KeepsNext s (execCowslipAccept die s) := by
  unfold execCowslipAccept
  refine KeepsNext.next ?_
  split
  · exact Keeps.refl s
  · dsimp only
    refine Keeps.ite (Keeps.refl s) ?_
    split
    · exact keeps_ringError s _ _ _
    · rename_i t ht
      refine (keeps_ringHeader ht).trans (Keeps.ite (keeps_modDie t _ _) (Keeps.ite (Keeps.refl t) ?_))
      split
      · exact keeps_ringError t _ _ _
      · rename_i u hu
        exact (keeps_ringRead hu).trans ((keeps_accept u _ _ _ _ _ _).trans ((keeps_ringWrite _ _ _ _ _).trans
          ((keeps_modDie _ _ _).trans (keeps_modDie _ _ _))))

theorem keeps_execRingIdleTimeout (die ring : Nat) (s : State) : KeepsNext s (execRingIdleTimeout die ring s) := by
  unfold execRingIdleTimeout
  refine KeepsNext.next (Keeps.ite (Keeps.refl s) ?_)
  split
  · exact keeps_ringError s _ _ _
  · rename_i ht
    exact (keeps_ringHeader ht).trans (Keeps.ite (keeps_modDie _ _ _) (keeps_modDie _ _ _))

theorem wf_writeMedia {m : Mem} (h : m.wf = true) (ws : List (Nat × Word)) : (writeMedia m ws).wf = true :=
  wf_foldl (fun _ _ h => wf_write h _ _) ws h

theorem wf_tierMem {m : Mem} (h : m.wf = true) (media : Mem) : (tierMem m media).wf = true := wf_graft h _ _ _

/-- A step of the durable tier that keeps the form of its media. -/
theorem keeps_betony {s : State} {t : Betony} (h : s.betony.media.wf = true → t.media.wf = true) : Keeps s { s with betony := t } :=
  ⟨rfl, fun k => ⟨k.1, h k.2⟩⟩

theorem wf_betonyAccept {t : Betony} (h : t.media.wf = true) (d : DStore) : (t.accept d).media.wf = true := by
  unfold Betony.accept
  dsimp only
  split
  · exact h
  · split
    · exact h
    · exact wf_writeMedia h _

theorem wf_drain1 {t : Betony} (h : t.media.wf = true) : t.drain1.media.wf = true := by
  unfold Betony.drain1
  split
  · exact h
  · exact wf_writeMedia h _

theorem wf_betonyDrain : ∀ (n : Nat) {t : Betony}, t.media.wf = true → (t.drain n).media.wf = true
  | 0, _, h => h
  | n + 1, _, h => wf_betonyDrain n (wf_drain1 h)

theorem keeps_execDurableAccept (i : Nat) (s : State) : KeepsNext s (execDurableAccept i s) := by
  unfold execDurableAccept
  refine KeepsNext.next ?_
  split
  · exact Keeps.refl s
  · exact Keeps.ite (keeps_betony (fun h => wf_betonyAccept h _)) (Keeps.refl s)

theorem keeps_execMediaWrite (s : State) : KeepsNext s (execMediaWrite s) := by
  unfold execMediaWrite
  exact KeepsNext.next (Keeps.ite (keeps_betony wf_drain1) (Keeps.refl s))

theorem keeps_execHoldUpEnergyArming (armed : Bool) (s : State) : KeepsNext s (execHoldUpEnergyArming armed s) := by
  unfold execHoldUpEnergyArming
  exact KeepsNext.next (Keeps.ite (keeps_betony id) (Keeps.refl s))

theorem keeps_execQuiesce (s : State) : KeepsNext s (execQuiesce s) := by
  unfold execQuiesce
  refine keeps_command s _ _ (fun t => KeepsNext.next ⟨rfl, fun h => ⟨wf_tierMem h.1 _, wf_betonyDrain _ h.2⟩⟩)

theorem keeps_powerless {s : State} {m : Mem} (h : s.mem.wf = true → m.wf = true) : Keeps s (s.powerless m) :=
  ⟨rfl, fun k => ⟨h k.1, k.2⟩⟩

theorem keeps_execPowerLoss (drained : Nat) (s : State) : KeepsNext s (execPowerLoss drained s) := by
  unfold execPowerLoss
  refine KeepsNext.next (Keeps.ite (Keeps.refl s) ?_)
  refine (keeps_powerless (fun h => ?_)).after (keeps_betony (wf_betonyDrain _))
  exact wf_tierMem (wf_foldl (fun _ _ h => wf_write h _ _) _ h) _

theorem keeps_xlatVer (s : State) (bid va : Nat) (wint : Bool) : Keeps s (s.xlatVer bid va wint).2 := by
  unfold State.xlatVer
  dsimp only
  repeat' with_reducible first
    | exact Keeps.refl s | exact (keeps_tlbRenew s _ _ _).trans (keeps_touch _ _ _ _) | exact keeps_tlbDrop s _ _
    | split

theorem keepsM_xlatForm (a : Reg) (p : BitVec 4) (wint : Bool) : KeepsM (xlatForm a p wint) := by
  unfold xlatForm
  refine KeepsM.get_bind (fun s => ?_)
  have h := keeps_xlatVer s s.cur.bid ((s.bank s.cur.bid).readX a).toNat wint
  rw [M.bind_readX]
  dsimp only
  split
  · exact Keeps.refl s
  · exact h.trans (keeps_setBank _ _ _)

theorem keeps_execXlat (a : Reg) (p : BitVec 4) (s : State) : KeepsNext s (execXlat a p s) := by
  unfold execXlat
  refine keeps_runCc ?_ s
  apply keepsM_xlatForm

theorem keeps_execXlatW (a : Reg) (p : BitVec 4) (s : State) : KeepsNext s (execXlatW a p s) := by
  unfold execXlatW
  refine keeps_runCc ?_ s
  apply keepsM_xlatForm

theorem keeps_execHinv (p : BitVec 4) (s : State) : KeepsNext s (execHinv p s) := by
  unfold execHinv
  refine keeps_runCc ?_ s
  repeat' with_reducible first
    | exact keepsM_waitMore_bind .. | exact KeepsM.get | exact KeepsM.waitMore | exact keepsM_curBank ..
    | exact keepsM_curBid .. | exact keepsM_modCur .. | apply KeepsM.ite | apply KeepsM.bind | intro _ | split

theorem keeps_execHstat (d : Reg) (p : BitVec 4) (s : State) : KeepsNext s (execHstat d p s) := by
  unfold execHstat
  refine keeps_runCc ?_ s
  repeat' with_reducible first
    | exact keepsM_curBank .. | exact keepsM_writeX .. | apply KeepsM.ite | apply KeepsM.bind | intro _

theorem keeps_execLdh (d : Reg) (p : BitVec 4) (a : Reg) (c : BitVec 3) (s : State) : KeepsNext s (execLdh d p a c s) := by
  unfold execLdh
  refine keeps_runCc ?_ s
  repeat' with_reducible first
    | exact keepsM_trap_bind .. | exact KeepsM.trap _ _ | exact KeepsM.pure _ | exact keepsM_curBid ..
    | exact keepsM_handlePlace .. | exact keepsM_loadBytes .. | exact keepsM_readX .. | exact keepsM_writeX ..
    | apply KeepsM.ite | apply KeepsM.bind | intro _

theorem keeps_execSdh (b : Reg) (p : BitVec 4) (a : Reg) (c : BitVec 3) (s : State) : KeepsNext s (execSdh b p a c s) := by
  unfold execSdh
  refine keeps_runCc ?_ s
  repeat' with_reducible first
    | exact keepsM_trap_bind .. | exact KeepsM.trap _ _ | exact KeepsM.pure _ | exact keepsM_curBid ..
    | exact keepsM_handlePlace .. | exact keepsM_readX .. | refine KeepsM.modify (fun s => ?_) | apply KeepsM.ite
    | apply KeepsM.bind | exact Keeps.refl _ | refine Keeps.trans ?_ (keeps_runCc ..)
    | refine Keeps.trans ?_ (keeps_storeAt ..) | apply Keeps.ite | intro _

theorem keeps_walkEnds (s : State) (bid : Nat) (p : BitVec 4) (v : HVer) : Keeps s (State.walkEnds s bid p v) := by
  unfold State.walkEnds
  repeat' with_reducible first
    | exact Keeps.refl _ | refine Keeps.trans ?_ (keeps_modBank ..) | refine Keeps.trans ?_ (keeps_tlbDrop ..)
    | refine Keeps.trans ?_ (keeps_tlbRenew ..) | refine Keeps.trans ?_ (keeps_touch ..) | exact ⟨rfl, id⟩ | split
    | dsimp only

theorem keeps_useFaults (s : State) (bid cause key : Nat) (u : WalkUse) : Keeps s (State.useFaults s bid cause key u) := by
  unfold State.useFaults
  repeat' with_reducible first
    | exact Keeps.refl _ | refine Keeps.trans ?_ (keeps_modBank ..) | refine Keeps.trans ?_ (keeps_recordFault ..)

theorem keeps_usesEnd (s : State) (bid ver cause : Nat) : Keeps s (State.usesEnd s bid ver cause) := by
  unfold State.usesEnd
  repeat' with_reducible first
    | exact Keeps.refl _ | refine Keeps.trans ?_ (keeps_setBank ..) | refine Keeps.trans ?_ (keeps_useFaults ..)
    | refine Keeps.trans ?_ (Keeps.foldl (fun _ _ => ?_) _ _) | apply Keeps.ite | exact ⟨rfl, id⟩ | split

theorem keeps_execPageWalkEnd (bank ph ver : Nat) (s : State) : KeepsNext s (execPageWalkEnd bank ph ver s) := by
  unfold execPageWalkEnd
  repeat' with_reducible first
    | apply KeepsNext.next | exact Keeps.refl _ | refine Keeps.trans ?_ (keeps_giveWay ..)
    | refine Keeps.trans ?_ (keeps_usesEnd ..) | refine Keeps.trans ?_ (keeps_walkEnds ..)
    | refine Keeps.trans ?_ (keeps_withdraw ..) | refine Keeps.trans ?_ (Keeps.foldl (fun _ _ => ?_) _ _)
    | apply Keeps.ite | exact ⟨rfl, id⟩ | split

theorem keeps_execIntRR (op : IntRR) (d a b : Reg) (s : State) : KeepsNext s (execIntRR op d a b s) := by
  unfold execIntRR
  refine keeps_runCc ?_ s
  repeat' with_reducible first
    | exact keepsM_readX .. | exact keepsM_writeX .. | apply KeepsM.ite | apply KeepsM.bind | intro _

theorem keeps_execIntRI (op : IntRI) (d a : Reg) (imm : BitVec 12) (s : State) : KeepsNext s (execIntRI op d a imm s) := by
  unfold execIntRI
  refine keeps_runCc ?_ s
  repeat' with_reducible first
    | exact keepsM_readX .. | exact keepsM_writeX .. | apply KeepsM.ite | apply KeepsM.bind | intro _

theorem keeps_execIntShift (op : IntShift) (d a : Reg) (sh : BitVec 6) (s : State) : KeepsNext s (execIntShift op d a sh s) := by
  unfold execIntShift
  refine keeps_runCc ?_ s
  repeat' with_reducible first
    | exact keepsM_readX .. | exact keepsM_writeX .. | apply KeepsM.ite | apply KeepsM.bind | intro _

theorem keeps_execIntUnary (op : IntUnary) (d a : Reg) (s : State) : KeepsNext s (execIntUnary op d a s) := by
  unfold execIntUnary
  refine keeps_runCc ?_ s
  repeat' with_reducible first
    | exact keepsM_readX .. | exact keepsM_writeX .. | apply KeepsM.ite | apply KeepsM.bind | intro _

theorem keeps_execLui (d : Reg) (imm : BitVec 20) (s : State) : KeepsNext s (execLui d imm s) := by
  unfold execLui
  refine keeps_runCc ?_ s
  apply keepsM_writeX

theorem keeps_execAuipc (d : Reg) (imm : BitVec 20) (s : State) : KeepsNext s (execAuipc d imm s) := by
  unfold execAuipc
  refine keeps_runCc ?_ s
  repeat' with_reducible first
    | exact keepsM_curBank .. | exact keepsM_writeX .. | apply KeepsM.ite | apply KeepsM.bind | intro _

theorem keeps_execJal (d : Reg) (off : BitVec 20) (s : State) : KeepsNext s (execJal d off s) := by
  unfold execJal
  refine keeps_runJump ?_ s
  repeat' with_reducible first
    | exact KeepsM.pure _ | exact keepsM_curBank .. | exact keepsM_nextPc .. | exact keepsM_writeX ..
    | apply KeepsM.ite | apply KeepsM.bind | intro _

theorem keeps_execJalr (d a : Reg) (imm : BitVec 12) (s : State) : KeepsNext s (execJalr d a imm s) := by
  unfold execJalr
  refine keeps_runJump ?_ s
  repeat' with_reducible first
    | exact KeepsM.pure _ | exact keepsM_nextPc .. | exact keepsM_readX .. | exact keepsM_writeX ..
    | apply KeepsM.ite | apply KeepsM.bind | intro _

theorem keeps_execBranch (k : BranchCond) (a b : Reg) (off : BitVec 12) (s : State) : KeepsNext s (execBranch k a b off s) := by
  unfold execBranch
  refine keeps_runJump ?_ s
  repeat' with_reducible first
    | exact KeepsM.pure _ | exact keepsM_curBank .. | exact keepsM_nextPc .. | exact keepsM_readX ..
    | apply KeepsM.ite | apply KeepsM.bind | intro _

theorem keeps_iqTake (s : State) (k : Nat) (w : IqWords) : Keeps s (State.iqTake s k w) := by
  unfold State.iqTake
  repeat' with_reducible first
    | exact Keeps.refl _ | exact ⟨rfl, id⟩

theorem keeps_execIqInvalidate (s : State) : KeepsNext s (execIqInvalidate s) := by
  unfold execIqInvalidate
  repeat' with_reducible first
    | apply KeepsNext.next | exact Keeps.refl _ | refine Keeps.trans ?_ (keeps_invalidate ..)
    | refine Keeps.trans ?_ (keeps_iqTake ..) | apply Keeps.ite | exact ⟨rfl, id⟩ | split

theorem keeps_execFlipRequest (s : State) : KeepsNext s (execFlipRequest s) := by
  unfold execFlipRequest
  repeat' with_reducible first
    | apply KeepsNext.next | exact Keeps.refl _ | refine Keeps.trans ?_ (keeps_iqTake ..) | apply Keeps.ite
    | exact ⟨rfl, id⟩ | split

theorem keeps_revokePages (s : State) (rs : List (Nat × Nat)) : Keeps s (State.revokePages s rs) := by
  unfold State.revokePages
  repeat' with_reducible first
    | exact Keeps.refl _ | exact ⟨rfl, id⟩

theorem keeps_execFlipAck (s : State) : KeepsNext s (execFlipAck s) := by
  unfold execFlipAck
  repeat' with_reducible first
    | apply KeepsNext.next | exact Keeps.refl _ | refine Keeps.trans ?_ (keeps_retryUnits ..)
    | refine Keeps.trans ?_ (keeps_revokePages ..) | apply Keeps.ite | exact ⟨rfl, id⟩ | split

theorem keeps_execInvalidationComplete (s : State) : KeepsNext s (execInvalidationComplete s) := by
  unfold execInvalidationComplete
  refine KeepsNext.next ?_
  split
  · exact Keeps.ite ((keeps_storeOutside s _ _ _).trans ⟨rfl, id⟩) (Keeps.refl s)
  · exact Keeps.refl s

theorem keeps_retryAlloc (s : State) (bid agent : Nat) (w : Waiter) : Keeps s (s.retryAlloc bid agent w).1 := by
  unfold State.retryAlloc
  split
  · exact keeps_recordFault s _ _ _ _ _ _
  · exact Keeps.refl s

theorem keeps_retryWord (s : State) (bid agent : Nat) (e : Engine) : Keeps s (match ((s.bank bid).engine e).stopped with
    | some st => match st.waiter with
      | some w =>
        let (s, w) := s.retryAlloc bid agent w
        s.modBank bid (fun b => b.modEngine e (fun g => { g with stopped := some { st with waiter := some w } }))
      | none => s
    | none => s) := by
  split
  · split
    · exact (keeps_retryAlloc s bid agent _).trans (keeps_modBank _ _ _)
    · exact Keeps.refl s
  · exact Keeps.refl s

theorem keeps_retryWords (s : State) (bid agent : Nat) (e : Engine) : Keeps s (s.retryWords bid agent e) := by
  have flights : ∀ (fs : List Flight) (s : State), Keeps s (fs.foldl (fun s f => match f.waiter with
      | some w =>
        let (s, w) := s.retryAlloc bid agent w
        s.modBank bid (fun b => b.modFlight f.n (fun f => { f with waiter := some w }))
      | none => s) s) := by
    refine Keeps.foldl (fun s f => ?_)
    split
    · exact (keeps_retryAlloc s bid agent _).trans (keeps_modBank _ _ _)
    · exact Keeps.refl s
  unfold State.retryWords
  exact (keeps_retryWord s bid agent e).trans (Keeps.ite (flights _ _) (Keeps.refl _))

theorem keeps_execFaultRecordAlloc (bank agent : Nat) (s : State) : KeepsNext s (execFaultRecordAlloc bank agent s) := by
  unfold execFaultRecordAlloc
  refine KeepsNext.next (Keeps.ite (Keeps.refl s) ?_)
  split
  · split
    · exact (keeps_retryAlloc s _ _ _).trans (keeps_modBank _ _ _)
    · exact Keeps.refl s
  · split
    · exact Keeps.refl s
    · exact keeps_retryWords s _ _ _

theorem keeps_execQpush (q : BitVec 3) (a : Reg) (s : State) : KeepsNext s (execQpush q a s) := by
  unfold execQpush
  refine keeps_runCc ?_ s
  repeat' with_reducible first
    | exact keepsM_illegal_bind .. | exact keepsM_waitMore_bind .. | exact KeepsM.get | exact KeepsM.illegal
    | exact KeepsM.waitMore | exact KeepsM.pure _ | exact keepsM_readX .. | refine KeepsM.modify (fun s => ?_)
    | apply KeepsM.ite | apply KeepsM.bind | exact Keeps.refl _ | refine Keeps.trans ?_ (keeps_modBank ..)
    | refine Keeps.trans ?_ (keeps_runCc ..) | refine Keeps.trans ?_ (Keeps.foldl (fun _ _ => ?_) _ _)
    | apply Keeps.ite | exact ⟨rfl, id⟩ | intro _

theorem keepsM_queueHead (d : Reg) (q : BitVec 3) (pop : Bool) : KeepsM (queueHead d q pop) := by
  unfold queueHead
  repeat' with_reducible first
    | exact keepsM_fail_bind .. | exact keepsM_illegal_bind .. | exact keepsM_waitMore_bind .. | exact KeepsM.fail _
    | exact KeepsM.illegal | exact KeepsM.waitMore | exact KeepsM.pure _ | exact keepsM_curBank ..
    | exact keepsM_modCur .. | exact keepsM_writeX .. | apply KeepsM.ite | apply KeepsM.bind | intro _ | split

theorem keeps_execQpop (d : Reg) (q : BitVec 3) (s : State) : KeepsNext s (execQpop d q s) := by
  unfold execQpop
  refine keeps_runCc ?_ s
  apply keepsM_queueHead

theorem keeps_execQpeek (d : Reg) (q : BitVec 3) (s : State) : KeepsNext s (execQpeek d q s) := by
  unfold execQpeek
  refine keeps_runCc ?_ s
  apply keepsM_queueHead

theorem keeps_execQlvl (d : Reg) (q : BitVec 3) (s : State) : KeepsNext s (execQlvl d q s) := by
  unfold execQlvl
  refine keeps_runCc ?_ s
  repeat' with_reducible first
    | exact keepsM_curBank .. | exact keepsM_writeX .. | apply KeepsM.ite | apply KeepsM.bind | intro _

theorem keeps_execQwm (e : Engine) (a : Reg) (s : State) : KeepsNext s (execQwm e a s) := by
  unfold execQwm
  refine keeps_runCc ?_ s
  repeat' with_reducible first
    | exact keepsM_illegal_bind .. | exact KeepsM.illegal | exact KeepsM.pure _ | exact keepsM_modCur ..
    | exact keepsM_readX .. | apply KeepsM.ite | apply KeepsM.bind | intro _

theorem keepsM_pushCommands (e : Engine) (ks : List CmdKind) : KeepsM (pushCommands e ks) := by
  unfold pushCommands
  repeat' with_reducible first
    | exact keepsM_waitMore_bind .. | exact KeepsM.get | exact KeepsM.waitMore | exact KeepsM.pure _
    | refine KeepsM.modify (fun s => ?_) | apply KeepsM.ite | apply KeepsM.bind | exact Keeps.refl _
    | refine Keeps.trans ?_ (keeps_modBank ..) | refine Keeps.trans ?_ (Keeps.foldl (fun _ _ => ?_) _ _)
    | apply Keeps.ite | exact ⟨rfl, id⟩ | intro _

theorem keeps_execEcall (e : Engine) (r : BitVec 13) (s : State) : KeepsNext s (execEcall e r s) := by
  unfold execEcall
  refine keeps_runCc ?_ s
  apply keepsM_pushCommands

theorem keeps_execEpush (e : Engine) (a : Reg) (n : BitVec 2) (s : State) : KeepsNext s (execEpush e a n s) := by
  unfold execEpush
  refine keeps_runCc ?_ s
  repeat' with_reducible first
    | exact keepsM_pushCommands .. | exact keepsM_readX .. | apply KeepsM.ite | apply KeepsM.bind | intro _

theorem keeps_execEmark (e : Engine) (a : Reg) (s : State) : KeepsNext s (execEmark e a s) := by
  unfold execEmark
  refine keeps_runCc ?_ s
  repeat' with_reducible first
    | exact keepsM_pushCommands .. | exact keepsM_readX .. | apply KeepsM.ite | apply KeepsM.bind | intro _

theorem keeps_execRdvs (v : BitVec 3) (m : BitVec 4) (a : Reg) (s : State) : KeepsNext s (execRdvs v m a s) := by
  unfold execRdvs
  refine keeps_runCc ?_ s
  repeat' with_reducible first
    | exact keepsM_curBid .. | exact keepsM_modCur .. | exact keepsM_readX .. | refine KeepsM.modify (fun s => ?_)
    | apply KeepsM.ite | apply KeepsM.bind | exact Keeps.refl _ | refine Keeps.trans ?_ (keeps_fireRv ..)
    | refine Keeps.trans ?_ (keeps_runCc ..) | exact ⟨rfl, id⟩ | intro _

theorem keeps_execRdvw (v : BitVec 3) (s : State) : KeepsNext s (execRdvw v s) := by
  unfold execRdvw
  refine keeps_runCc ?_ s
  repeat' with_reducible first
    | exact keepsM_illegal_bind .. | exact keepsM_waitMore_bind .. | exact KeepsM.get | exact KeepsM.illegal
    | exact KeepsM.waitMore | exact keepsM_modCur .. | apply KeepsM.ite | apply KeepsM.bind | intro _ | split
    | dsimp only

theorem keeps_execWaitt (a : Reg) (s : State) : KeepsNext s (execWaitt a s) := by
  unfold execWaitt
  refine keeps_runCc ?_ s
  repeat' with_reducible first
    | exact keepsM_waitMore_bind .. | exact KeepsM.get | exact KeepsM.waitMore | exact KeepsM.pure _
    | exact keepsM_modCur .. | exact keepsM_readX .. | apply KeepsM.ite | apply KeepsM.bind | intro _

theorem keeps_execPrm (d a : Reg) (s : State) : KeepsNext s (execPrm d a s) := by
  unfold execPrm
  refine keeps_runCc ?_ s
  repeat' with_reducible first
    | exact KeepsM.pure _ | exact keepsM_curBank .. | exact keepsM_modCur .. | exact keepsM_readX ..
    | exact keepsM_writeX .. | apply KeepsM.ite | apply KeepsM.bind | intro _

theorem keeps_execPhsw (s : State) : KeepsNext s (execPhsw s) := by
  unfold execPhsw
  refine keeps_runCc ?_ s
  repeat' with_reducible first
    | exact keepsM_waitMore_bind .. | exact KeepsM.get | exact KeepsM.waitMore | exact KeepsM.pure _
    | refine KeepsM.modify (fun s => ?_) | apply KeepsM.ite | apply KeepsM.bind | exact Keeps.refl _
    | refine Keeps.trans ?_ (keeps_modBank ..) | refine Keeps.trans ?_ (keeps_runCc ..)
    | refine Keeps.trans ?_ (Keeps.foldl (fun _ _ => ?_) _ _) | apply Keeps.ite | intro _

theorem keeps_execPhaseCommit (bank : Nat) (s : State) : KeepsNext s (execPhaseCommit bank s) := by
  unfold execPhaseCommit
  repeat' with_reducible first
    | apply KeepsNext.next | exact Keeps.refl _ | refine Keeps.trans ?_ (keeps_commit ..)
    | refine Keeps.trans ?_ (Keeps.foldl (fun _ _ => ?_) _ _) | apply Keeps.ite

theorem keeps_execWaittWake (bank : Nat) (s : State) : KeepsNext s (execWaittWake bank s) := by
  unfold execWaittWake
  repeat' with_reducible first
    | apply KeepsNext.next | exact Keeps.refl _ | refine Keeps.trans ?_ (keeps_modBank ..) | apply Keeps.ite
    | exact ⟨rfl, id⟩ | split

theorem keeps_execPromiseMissed (bank n promise : Nat) (s : State) : KeepsNext s (execPromiseMissed bank n promise s) := by
  unfold execPromiseMissed
  repeat' with_reducible first
    | apply KeepsNext.next | exact Keeps.refl _ | refine Keeps.trans ?_ (keeps_setBank ..) | apply Keeps.ite
    | exact ⟨rfl, id⟩ | split

theorem keeps_compareNext (s : State) (bid : Nat) (e : Engine) (b : Bank) : Keeps s (State.compareNext s bid e b) := by
  unfold State.compareNext
  repeat' with_reducible first
    | exact Keeps.refl _ | refine Keeps.trans ?_ (keeps_setBank ..) | exact ⟨rfl, id⟩ | split

theorem keeps_execCheckedEntryIssue (bank : Nat) (e : Engine) (s : State) : KeepsNext s (execCheckedEntryIssue bank e s) := by
  unfold execCheckedEntryIssue
  repeat' with_reducible first
    | apply KeepsNext.next | exact Keeps.refl _ | refine Keeps.trans ?_ (keeps_agentPoison ..)
    | refine Keeps.trans ?_ (keeps_compareNext ..) | refine Keeps.trans ?_ (keeps_setBank ..) | apply Keeps.ite
    | exact ⟨rfl, id⟩ | split | dsimp only

theorem keeps_execMarkerRetire (bank : Nat) (e : Engine) (s : State) : KeepsNext s (execMarkerRetire bank e s) := by
  unfold execMarkerRetire
  repeat' with_reducible first
    | apply KeepsNext.next | exact Keeps.refl _ | refine Keeps.trans ?_ (keeps_retirePending ..) | apply Keeps.ite

theorem keeps_execYarrowMismatch (bank : Nat) (s : State) : KeepsNext s (execYarrowMismatch bank s) := by
  unfold execYarrowMismatch
  repeat' with_reducible first
    | apply KeepsNext.next | exact Keeps.refl _ | refine Keeps.trans ?_ (keeps_fireAll ..)
    | refine Keeps.trans ?_ (keeps_modBank ..) | refine Keeps.trans ?_ (keeps_modCore ..)
    | refine Keeps.trans ?_ (keeps_modDie ..) | refine Keeps.trans ?_ (keeps_rasRise ..)
    | refine Keeps.trans ?_ (keeps_rollback ..) | refine Keeps.trans ?_ (keeps_terminateOf ..)
    | refine Keeps.trans ?_ (Keeps.foldl (fun _ _ => ?_) _ _) | apply Keeps.ite

theorem keeps_execPoisonConsume (bank : Nat) (p : PoisonRead) (s : State) : KeepsNext s (execPoisonConsume bank p s) := by
  unfold execPoisonConsume
  repeat' with_reducible first
    | apply KeepsNext.next | exact Keeps.refl _ | refine Keeps.trans ?_ (keeps_consumePoison ..) | apply Keeps.ite

theorem keeps_execFenceSWaitEnd (bank : Nat) (s : State) : KeepsNext s (execFenceSWaitEnd bank s) := by
  unfold execFenceSWaitEnd
  repeat' with_reducible first
    | apply KeepsNext.next | exact Keeps.refl _ | refine Keeps.trans ?_ (keeps_setBank ..) | apply Keeps.ite
    | exact ⟨rfl, id⟩ | split

theorem keeps_hostWrite (s : State) (off : Nat) (d : List Byte) : Keeps s ((pieces off d.length).foldl (fun s q =>
    let at' := hdmPa (off + q.1)
    if shut at' then s else s.storeOutside hostAgent at' ((d.drop q.1).take q.2)) s) :=
  Keeps.foldl (fun s _ => Keeps.ite (Keeps.refl s) (keeps_storeOutside s _ _ _)) _ s

theorem keeps_execHostMemAccess (off len : Nat) (data : Option (List Byte)) (s : State) :
    KeepsNext s (execHostMemAccess off len data s) := by
  unfold execHostMemAccess
  dsimp only
  split
  · exact Keeps.refl s
  · split
    · trivial
    · split
      · exact ⟨rfl, id⟩
      · exact keeps_hostWrite s off _

theorem keeps_storePeer (s : State) (agent pa : Nat) (data : List Byte) : Keeps s (State.storePeer s agent pa data) := by
  unfold State.storePeer
  exact Keeps.trans (Keeps.refl _) (keeps_storeFrom ..)

theorem keeps_answers (s : State) (l : List Word) : Keeps s (s.answers l) := ⟨rfl, id⟩

theorem keeps_peerActs (s : State) (pa len : Nat) (a : PeerOp) : Keeps s (s.peerActs pa len a) := by
  have held : ∀ (t : State) (h : HostSt) (l : List Word), Keeps t (({ t with host := h } : State).answerSnoops.answers l) :=
    fun t h l => (keeps_answers _ l).after ((keeps_answerSnoops _).after ⟨rfl, id⟩)
  unfold State.peerActs
  dsimp only
  split
  · exact keeps_answers s _
  · exact keeps_storePeer s _ _ _
  · exact (keeps_storePeer s _ _ _).trans (keeps_answers _ _)
  · exact held s _ _
  · exact (Keeps.ite (keeps_storePeer s _ _ _) (Keeps.refl s)).trans (held _ _ _)

theorem keeps_execPeerAccess (pa len : Nat) (a : PeerOp) (s : State) : KeepsNext s (execPeerAccess pa len a s) := by
  have performed : ∀ (c : Prop) [Decidable c], KeepsNext s (if c then .next (s.answers []) else .next (s.peerActs pa len a)) := by
    intro c _
    split
    · exact keeps_answers s _
    · exact keeps_peerActs s _ _ _
  unfold execPeerAccess
  dsimp only
  split
  · exact Keeps.refl s
  · exact performed _

theorem keeps_mapDom (s : State) (f : Nat → Nat → Option Nat) : Keeps s (s.mapDom f) := ⟨rfl, id⟩

theorem keeps_execHostLinkDown (s : State) : KeepsNext s (execHostLinkDown s) := by
  have down : ∀ (t : State), Keeps t ([0, 1, 2, 3].foldl (fun (s : State) d => s.modDie d (fun x => { x with linkDown := true })) t) :=
    Keeps.foldl (fun s d => keeps_modDie s d _) _
  have acts : ∀ (l : List Snoop) (t : State), Keeps t (l.foldl (fun s n => s.hostActs n) t) := Keeps.foldl keeps_hostActs
  unfold execHostLinkDown
  refine KeepsNext.next (Keeps.ite (Keeps.refl s) ?_)
  refine (acts _ _).after (Keeps.trans ((down _).after (Keeps.foldl (fun t l => ?_) s.dirtyHost s)) ⟨rfl, id⟩)
  exact (keeps_modDie t l.2 _).trans (Keeps.mem rfl (fun h => wf_write h _ _) rfl)

theorem keeps_execHostLinkUp (s : State) : KeepsNext s (execHostLinkUp s) := by
  unfold execHostLinkUp
  repeat' with_reducible first
    | apply KeepsNext.next | exact Keeps.refl _ | apply Keeps.ite | exact ⟨rfl, id⟩

theorem keeps_settleDie (s : State) (d : Nat) (record : List (Nat × Nat)) : Keeps s (State.settleDie s d record) := by
  unfold State.settleDie
  exact Keeps.trans (Keeps.refl _) (keeps_modDie ..)

theorem keeps_dropLines (s : State) (ls : List HeldLine) : Keeps s (s.dropLines ls) := keeps_mapDom s _

theorem keeps_execLinkrecAccept (die : Nat) (s : State) : KeepsNext s (execLinkrecAccept die s) := by
  unfold execLinkrecAccept
  refine keeps_command s _ _ (fun t => KeepsNext.next (Keeps.ite (Keeps.refl t) ?_))
  exact Keeps.trans (Keeps.foldl (fun s l => keeps_storeOutside s _ _ _) _ t) ((keeps_mapDom _ _).trans (keeps_settleDie _ _ _))

theorem keeps_execLinkrecDiscard (die : Nat) (s : State) : KeepsNext s (execLinkrecDiscard die s) := by
  unfold execLinkrecDiscard
  exact keeps_command s _ _ (fun t => KeepsNext.next (Keeps.ite (Keeps.refl t) ((keeps_dropLines t _).trans (keeps_settleDie _ _ _))))

theorem keeps_execLinklog (die : Nat) (s : State) : KeepsNext s (execLinklog die s) := by
  unfold execLinklog
  refine keeps_command s _ _ (fun t => KeepsNext.next ?_)
  split
  · exact Keeps.refl t
  · exact ⟨rfl, id⟩

theorem keeps_execPeerLinkDown (m : Nat) (s : State) : KeepsNext s (execPeerLinkDown m s) := by
  unfold execPeerLinkDown
  repeat' with_reducible first
    | apply KeepsNext.next | exact Keeps.refl _ | apply Keeps.ite | exact ⟨rfl, id⟩

theorem keeps_execPeerLinkUp (m : Nat) (s : State) : KeepsNext s (execPeerLinkUp m s) := ⟨rfl, id⟩

theorem keeps_execHostSnoop (n : Snoop) (s : State) : KeepsNext s (execHostSnoop n s) := by
  unfold execHostSnoop
  repeat' with_reducible first
    | apply KeepsNext.next | exact Keeps.refl _ | refine Keeps.trans ?_ (keeps_hostActs ..)
    | refine Keeps.trans ?_ (keeps_takeLine ..) | apply Keeps.ite | exact ⟨rfl, id⟩

theorem keeps_execRegRead (r : MgmtReg) (s : State) : KeepsNext s (execRegRead r s) := by
  unfold execRegRead
  refine keeps_command s _ _ (fun _ => ?_)
  repeat' with_reducible first
    | apply KeepsNext.next | exact KeepsNext.fault .. | exact Keeps.refl s | exact Keeps.refl _
    | refine Keeps.trans ?_ (keeps_command ..) | refine Keeps.trans ?_ (keeps_modDie ..) | exact ⟨rfl, id⟩ | split

theorem keeps_execRsvdRead (off len : Nat) (s : State) : KeepsNext s (execRsvdRead off len s) := by
  unfold execRsvdRead
  refine keeps_command s _ _ (fun _ => ?_)
  repeat' with_reducible first
    | apply KeepsNext.next | exact KeepsNext.fault .. | exact Keeps.refl s | exact Keeps.refl _
    | refine Keeps.trans ?_ (keeps_command ..) | apply Keeps.ite | exact ⟨rfl, id⟩ | split

theorem keeps_idleRings (s : State) (vf d : Nat) : Keeps s (State.idleRings s vf d) := by
  unfold State.idleRings
  repeat' with_reducible first
    | exact Keeps.refl _ | refine Keeps.trans ?_ (keeps_modDie ..)
    | refine Keeps.trans ?_ (Keeps.foldl (fun _ _ => ?_) _ _)

theorem keeps_resetVf (s : State) (vf : Nat) : Keeps s (s.resetVf vf) := by
  have forgotten : ∀ s : State, Keeps s ([0, 1, 2, 3].foldl (fun (s : State) d => s.modDie d (·.forget vf)) s) :=
    Keeps.foldl (fun s d => keeps_modDie s d _) _
  have freed : ∀ (l : List Nat) (s : State), Keeps s (l.foldl (fun s i => s.freeSlot i) s) := Keeps.foldl keeps_freeSlot
  have idle : ∀ s : State, Keeps s ([0, 1, 2, 3].foldl (fun (s : State) d => s.idleRings vf d) s) :=
    Keeps.foldl (fun s d => keeps_idleRings s vf d) _
  have flushed : ∀ (s : State) (cs : PMap CoreSt), Keeps s { s with cores := cs } := fun _ _ => ⟨rfl, id⟩
  unfold State.resetVf
  exact (flushed _ _).after ((idle _).after ((freed _ _).after ((forgotten _).after ((keeps_dropLines _ _).after
    (keeps_terminateAll s _ _)))))

theorem keeps_execFlr (vf : Nat) (s : State) : KeepsNext s (execFlr vf s) := by
  unfold execFlr
  split
  · trivial
  · exact Keeps.ite (keeps_resetVf s vf) (Keeps.refl s)

theorem keeps_setTdi (s : State) (vf : Nat) (t : Tdi) : Keeps s (s.setTdi vf t) := keeps_setVf s _ _

theorem keeps_tdispError (s : State) (vf : Nat) : Keeps s (s.tdispError vf) := (keeps_setTdi s vf _).trans (keeps_resetVf _ vf)

theorem keeps_tdisp (s : State) (vf : Nat) (f : Tdi → Tdi) : KeepsNext s (s.tdisp vf f) := by
  unfold State.tdisp
  exact KeepsNext.next (Keeps.ite (keeps_setTdi s _ _) (Keeps.refl s))

theorem keeps_execLockInterface (vf : Nat) (s : State) : KeepsNext s (execLockInterface vf s) := keeps_tdisp s vf _

theorem keeps_execStartInterface (vf : Nat) (s : State) : KeepsNext s (execStartInterface vf s) := keeps_tdisp s vf _

theorem keeps_execStopInterface (vf : Nat) (s : State) : KeepsNext s (execStopInterface vf s) := keeps_tdisp s vf _

theorem keeps_execNotify (vf off : Nat) (a : BarAccess) (s : State) : KeepsNext s (execNotify vf off a s) := by
  unfold execNotify
  refine KeepsNext.next (Keeps.ite (Keeps.refl s) (Keeps.ite (keeps_tdispError s vf) ?_))
  split
  · exact ⟨rfl, id⟩
  · exact Keeps.ite (keeps_notified s _ _ _) (Keeps.refl s)

theorem keeps_execGetMeasurements (s : State) : KeepsNext s (execGetMeasurements s) := by
  unfold execGetMeasurements
  repeat' with_reducible first
    | apply KeepsNext.next | exact Keeps.refl _ | apply Keeps.ite | exact ⟨rfl, id⟩

theorem keeps_execSpdmKeyExchange (s : State) : KeepsNext s (execSpdmKeyExchange s) := by
  unfold execSpdmKeyExchange
  repeat' with_reducible first
    | apply KeepsNext.next | exact Keeps.refl _ | apply Keeps.ite | exact ⟨rfl, id⟩

theorem keeps_execIdeKm (port : Nat) (key : BitVec 256) (s : State) : KeepsNext s (execIdeKm port key s) := by
  unfold execIdeKm
  repeat' with_reducible first
    | apply KeepsNext.next | exact Keeps.refl _ | apply Keeps.ite | exact ⟨rfl, id⟩

theorem keeps_writeL2part (s : State) (die : Nat) (v : Word) : Keeps s (s.writeL2part die v) := by
  unfold State.writeL2part
  refine Keeps.mem rfl (fun h => ?_) rfl
  dsimp only
  split
  · exact h
  · exact wf_foldl (fun _ _ h => wf_blank h _ _ _) _ h

theorem keeps_execL2partWrite (die : Nat) (v : Word) (s : State) : KeepsNext s (execL2partWrite die v s) := by
  unfold execL2partWrite
  refine keeps_command s _ _ (fun t => ?_)
  split
  · trivial
  · exact keeps_writeL2part t die v

theorem keeps_writeRing (s : State) (d r word : Nat) (v : Word) : Keeps s (s.writeRing d r word v) := by
  unfold State.writeRing
  exact Keeps.ite (keeps_tdispError s _) (keeps_modDie s _ _)

theorem keeps_execRegWrite (r : MgmtReg) (v : Word) (s : State) : KeepsNext s (execRegWrite r v s) := by
  unfold execRegWrite
  refine keeps_command s _ _ (fun t => ?_)
  split
  · trivial
  · refine KeepsNext.next ?_
    split
    · exact keeps_writeL2part t _ _
    · exact keeps_modDie t _ _
    · exact ⟨rfl, id⟩
    · exact keeps_writeRing t _ _ _ _
    · exact Keeps.refl t

theorem keeps_execFlashLoad (off : Nat) (data : List Byte) (s : State) : KeepsNext s (execFlashLoad off data s) := by
  unfold execFlashLoad
  refine keeps_command s _ _ (fun t => ?_)
  split
  · trivial
  · exact keeps_storeOutside t _ _ _

theorem keeps_enableVf (s : State) (vf : Nat) : Keeps s (s.enableVf vf) := by
  unfold State.enableVf
  dsimp only
  split
  · exact Keeps.refl s
  · exact ⟨rfl, id⟩

theorem keeps_writeVf (s : State) (vf i : Nat) (v : Word) : Keeps s (s.writeVf vf i v) := by
  unfold State.writeVf
  dsimp only
  split
  · exact keeps_setVf s _ _
  · exact keeps_setVf s _ _
  · exact keeps_setVf s _ _
  · have enabled : ∀ t : State, Keeps t (if bit v.toNat 63 then t.enableVf vf else t) :=
      fun t => Keeps.ite (keeps_enableVf t vf) (Keeps.refl t)
    exact (keeps_setVf s _ _).trans ((enabled _).trans (Keeps.ite (keeps_resetVf _ vf) (Keeps.refl _)))

theorem keeps_pfWriteVf (s : State) (vf : Nat) {f : State → State} (h : ∀ t, Keeps t (f t)) : Keeps s (s.pfWriteVf vf f) := by
  unfold State.pfWriteVf
  exact Keeps.ite (keeps_tdispError s vf) (h s)

theorem keeps_execVfEnable (vf : Nat) (s : State) : KeepsNext s (execVfEnable vf s) := by
  unfold execVfEnable
  split
  · trivial
  · exact Keeps.ite (Keeps.refl s) (keeps_pfWriteVf s vf (keeps_enableVf · vf))

theorem keeps_execVfReset (vf : Nat) (s : State) : KeepsNext s (execVfReset vf s) := by
  unfold execVfReset
  split
  · trivial
  · exact Keeps.ite (Keeps.refl s) (keeps_pfWriteVf s vf (keeps_resetVf · vf))

theorem keeps_barWrite (s : State) (off : Nat) (v : Word) : Keeps s (s.barWrite off v) := by
  unfold State.barWrite
  dsimp only
  split
  · exact ⟨rfl, id⟩
  · split
    · exact ⟨rfl, id⟩
    · split
      · exact ⟨rfl, id⟩
      · split
        · exact keeps_pfWriteVf s _ (keeps_writeVf · _ _ _)
        · exact Keeps.refl s

theorem keeps_execRegisterWrite (off : Nat) (v : Option Word) (s : State) : KeepsNext s (execRegisterWrite off v s) := by
  unfold execRegisterWrite
  split
  · trivial
  · refine KeepsNext.next (Keeps.ite (Keeps.refl s) ?_)
    split
    · exact keeps_barWrite s _ _
    · exact ⟨rfl, id⟩

theorem keeps_execTstatLockChange (err : BitVec 16) (ref : Bool) (s : State) : KeepsNext s (execTstatLockChange err ref s) := by
  unfold execTstatLockChange
  repeat' with_reducible first
    | apply KeepsNext.next | exact Keeps.refl _ | apply Keeps.ite | exact ⟨rfl, id⟩

theorem keeps_writeReserved (s : State) (off v : Nat) : Keeps s (s.writeReserved off v) := by
  unfold State.writeReserved
  generalize leBytes 8 v = l
  exact ⟨rfl, fun h => ⟨wf_write h.1 _ l, wf_write h.2 _ l⟩⟩

theorem keeps_pprAdd (s : State) (w : Word) : Keeps s (s.pprAdd w) := by
  unfold State.pprAdd
  dsimp only
  split
  · exact Keeps.refl s
  · split
    · exact ⟨rfl, id⟩
    · exact (keeps_writeReserved s _ _).trans ((keeps_writeReserved _ _ _).trans (keeps_writeReserved _ _ _))

theorem keeps_rowError (s : State) (die : Nat) (w : Word) : Keeps s (s.rowError die w) := by
  unfold State.rowError
  exact (keeps_modDie s _ _).trans (Keeps.ite (keeps_pprAdd _ w) (Keeps.refl _))

theorem keeps_markWord (s : State) (bid : Nat) (w : SramWord) : Keeps s (s.markWord bid w) := by
  cases w <;> exact ⟨rfl, id⟩

theorem keeps_execErrorDetected (r : ErrorReport) (s : State) : KeepsNext s (execErrorDetected r s) := by
  have row : ∀ (t : State) (d : Nat) (w : Option Word), KeepsNext t (.next (match w with | some w => t.rowError d w | none => t)) :=
    fun t d w => by cases w; exacts [Keeps.refl t, keeps_rowError t d _]
  have listed : ∀ (t : State) (w : Option Word), KeepsNext t (.next (match w with | some w => t.pprAdd w | none => t)) :=
    fun t w => by cases w; exacts [Keeps.refl t, keeps_pprAdd t _]
  have poisoned : ∀ (c : Prop) [Decidable c] (l : List Nat), Keeps s (if c then s else { s with poison := l }) := by
    intro c _ l
    split <;> exact ⟨rfl, id⟩
  unfold execErrorDetected
  split
  · exact Keeps.refl s
  · split
    · split
      · trivial
      · exact (keeps_modDie s _ _).next (row _ _ _)
    · split
      · trivial
      · exact (poisoned _ _).next (listed _ _)
    · split
      · trivial
      · exact keeps_markWord s _ _

theorem keeps_execSpeedwellWindow (die : Nat) (s : State) : KeepsNext s (execSpeedwellWindow die s) := by
  unfold execSpeedwellWindow
  repeat' with_reducible first
    | apply KeepsNext.next | exact Keeps.refl _ | refine Keeps.trans ?_ (keeps_modDie ..) | apply Keeps.ite

theorem keeps_execHeatThrottle (core cycles : Nat) (s : State) : KeepsNext s (execHeatThrottle core cycles s) := by
  unfold execHeatThrottle
  repeat' with_reducible first
    | apply KeepsNext.next | exact Keeps.refl _ | refine Keeps.trans ?_ (keeps_modBank ..) | apply Keeps.ite

theorem keeps_execAgingTick (die nest : Nat) (s : State) : KeepsNext s (execAgingTick die nest s) := by
  unfold execAgingTick
  repeat' with_reducible first
    | apply KeepsNext.next | exact Keeps.refl _ | refine Keeps.trans ?_ (keeps_modNest ..)
    | refine Keeps.trans ?_ (keeps_updateLevels ..) | apply Keeps.ite | exact ⟨rfl, id⟩ | split

theorem keeps_handOut (s : State) (n : Nest) (k j place level : Nat) : Keeps s (State.handOut s n k j place level) := by
  unfold State.handOut
  repeat' with_reducible first
    | exact Keeps.refl _ | refine Keeps.trans ?_ (keeps_clearCond ..) | refine Keeps.trans ?_ (keeps_clearFor ..)
    | refine Keeps.trans ?_ (keeps_modBank ..) | refine Keeps.trans ?_ (keeps_modNest ..)
    | refine Keeps.trans ?_ (Keeps.foldl (fun _ _ => ?_) _ _)

theorem keeps_resumeBank (s : State) (level est : Nat) (c : Saved) : Keeps s (s.resumeBank level est c) := by
  unfold State.resumeBank
  refine (keeps_setBank _ _ _).after ((keeps_modCore _ _ _).after (Keeps.mem rfl (fun h => ?_) rfl))
  exact wf_foldl (fun _ _ h => wf_graft h _ _ _) _ (wf_foldl (fun _ _ h => wf_blank h _ _ _) _ h)

theorem keeps_resumeGroup (s : State) (g level est : Nat) : Keeps s (s.resumeGroup g level est) := by
  have resumed : ∀ (l : List (Nat × Saved)) (s : State),
      Keeps s (l.foldl (fun s c => s.resumeBank level (if c.1 = g then est else 0) c.2) s) :=
    Keeps.foldl (fun s c => keeps_resumeBank s _ _ _)
  unfold State.resumeGroup
  exact (resumed _ s).trans ⟨rfl, id⟩

theorem keeps_goOut (s : State) (d l : Nat) (n : Nest) (o : Offer) (place : Nat) : Keeps s (s.goOut d l n o place) := by
  unfold State.goOut
  refine Keeps.trans ?_ ((keeps_addDeficit _ _ _ _ _).trans (keeps_modDie _ _ _))
  split
  · exact keeps_resumeGroup s _ _ _
  · exact keeps_handOut s _ _ _ _ _

theorem keeps_visit (d l v : Nat) : ∀ (fuel : Nat) (places : List Nat) (s : State), Keeps s (s.visit d l v fuel places)
  | 0, _, s => Keeps.refl s
  | fuel + 1, places, s => by
    unfold State.visit
    split
    · exact Keeps.refl s
    · exact Keeps.ite ((keeps_goOut s _ _ _ _ _).trans (keeps_visit d l v fuel _ _)) (Keeps.refl s)

theorem keeps_visitHead (s : State) (d l v : Nat) (places : List Nat) : Keeps s (s.visitHead d l v places) := by
  unfold State.visitHead
  exact (keeps_addDeficit s _ _ _ _).trans ((keeps_visit _ _ _ _ _ _).trans ((keeps_modDie _ _ _).trans (keeps_updateLevels _ _)))

theorem keeps_execSchedulerVisit (die level : Nat) (places : List Nat) (s : State) :
    KeepsNext s (execSchedulerVisit die level places s) := by
  have visited : ∀ t : State, KeepsNext t (.next (match (t.die die).levels.toList.getD level [] with
    | [] => t
    | v :: _ => if t.mayVisit die level then t.visitHead die level v places else t)) := by
    intro t
    refine KeepsNext.next ?_
    split
    · exact Keeps.refl _
    · exact Keeps.ite (keeps_visitHead _ _ _ _ _) (Keeps.refl _)
  have updated : Keeps s (if die < 4 then s.updateLevels die else s) := Keeps.ite (keeps_updateLevels s die) (Keeps.refl s)
  unfold execSchedulerVisit
  exact updated.next (visited _)

theorem keeps_execContextResume (saved : Nat) (s : State) : KeepsNext s (execContextResume saved s) := by
  unfold execContextResume
  refine KeepsNext.next ?_
  split
  · exact Keeps.refl s
  · split
    · exact Keeps.refl s
    · split
      · exact Keeps.refl s
      · exact Keeps.ite (keeps_visitHead s _ _ _ _) (Keeps.refl s)

theorem keepsM_loadValues (a : Word) (n w : Nat) : KeepsM (loadValues a n w) := by
  unfold loadValues
  repeat' with_reducible first
    | exact KeepsM.pure _ | exact keepsM_curBid .. | exact keepsM_loadLocal .. | apply KeepsM.ite | apply KeepsM.bind
    | intro _

theorem keepsM_storeValues (a : Word) (w : Nat) (vs : List Nat) : KeepsM (storeValues a w vs) := by
  unfold storeValues
  repeat' with_reducible first
    | exact keepsM_curBid .. | refine KeepsM.modify (fun s => ?_) | apply KeepsM.ite | apply KeepsM.bind
    | exact Keeps.refl _ | refine Keeps.trans ?_ (keeps_storeLocalBlock ..) | intro _

theorem keeps_campion {pops pushes : Nat} {f : List Word → M (List Word)} (h : ∀ l, KeepsM (f l)) (s : State) :
    KeepsNext s (campion pops pushes f s) :=
  keeps_runWord (fun e => (keepsM_operands e pops pushes).bind (fun ops => (h ops).bind (fun _ =>
    (keepsM_restack e pops _).bind (fun _ => KeepsM.pure _)))) s

theorem keeps_execSkey (f : BitVec 4) (s : State) : KeepsNext s (execSkey f s) := by
  unfold execSkey
  refine keeps_campion (fun _ => ?_) s
  repeat' with_reducible first
    | exact keepsM_illegalWord_bind .. | exact KeepsM.pure _ | exact KeepsM.illegalWord | exact keepsM_freshWord ..
    | exact keepsM_loadValues .. | exact keepsM_storeValues .. | apply KeepsM.mapM | apply KeepsM.ite
    | apply KeepsM.bind | intro _ | split

theorem keeps_execHist (d : BitVec 2) (_f : BitVec 4) (s : State) : KeepsNext s (execHist d _f s) := by
  unfold execHist
  refine keeps_campion (fun _ => ?_) s
  repeat' with_reducible first
    | exact keepsM_illegalWord_bind .. | exact KeepsM.pure _ | exact KeepsM.illegalWord | exact keepsM_loadValues ..
    | exact keepsM_storeValues .. | apply KeepsM.ite | apply KeepsM.bind | intro _ | split

theorem keeps_execSelk (_f : BitVec 4) (s : State) : KeepsNext s (execSelk _f s) := by
  unfold execSelk
  refine keeps_campion (fun _ => ?_) s
  repeat' with_reducible first
    | exact keepsM_illegalWord_bind .. | exact KeepsM.pure _ | exact KeepsM.illegalWord | exact keepsM_loadValues ..
    | apply KeepsM.ite | apply KeepsM.bind | intro _ | split

theorem keeps_execSelp (f : BitVec 4) (s : State) : KeepsNext s (execSelp f s) := by
  unfold execSelp
  refine keeps_campion (fun _ => ?_) s
  repeat' with_reducible first
    | exact keepsM_illegalWord_bind .. | exact KeepsM.pure _ | exact KeepsM.illegalWord | exact keepsM_loadValues ..
    | apply KeepsM.ite | apply KeepsM.bind | intro _ | split

theorem keeps_execCmpk (f : BitVec 4) (s : State) : KeepsNext s (execCmpk f s) := by
  unfold execCmpk
  refine keeps_campion (fun _ => ?_) s
  repeat' with_reducible first
    | exact keepsM_illegalWord_bind .. | exact KeepsM.pure _ | exact KeepsM.illegalWord | exact keepsM_curBid ..
    | exact keepsM_loadValues .. | refine KeepsM.modify (fun s => ?_) | apply KeepsM.ite | apply KeepsM.bind
    | exact Keeps.refl _ | refine Keeps.trans ?_ (keeps_campion ..) | refine Keeps.trans ?_ (keeps_storePairs ..)
    | apply Keeps.ite | exact ⟨rfl, id⟩ | intro _ | split

theorem keepsM_regionOperand (r : EngRegs) (n : Word) : KeepsM (regionOperand r n) := by
  unfold regionOperand
  repeat' with_reducible first
    | exact keepsM_illegalWord_bind .. | exact KeepsM.pure _ | exact KeepsM.illegalWord | apply KeepsM.ite

theorem keepsM_entryVer (e : Engine) (p : BitVec 4) : KeepsM (entryVer e p) := by
  unfold entryVer
  repeat' with_reducible first
    | exact KeepsM.pure _ | exact keepsM_curEng .. | apply KeepsM.ite | apply KeepsM.bind | intro _

theorem keepsM_elemPlace (x : ElemRef) (acc : Nat) : KeepsM (elemPlace x acc) := by
  unfold elemPlace
  repeat' with_reducible first
    | exact keepsM_fail_bind .. | exact KeepsM.fail _ | exact KeepsM.pure _ | exact keepsM_curBid ..
    | exact keepsM_entryVer .. | exact keepsM_handlePlace .. | apply KeepsM.ite | apply KeepsM.bind | intro _

theorem keepsM_readElem (x : ElemRef) : KeepsM (readElem x) := by
  unfold readElem
  repeat' with_reducible first
    | exact KeepsM.pure _ | exact keepsM_curBid .. | exact keepsM_elemPlace .. | exact keepsM_loadBytes ..
    | exact keepsM_loadLocal .. | apply KeepsM.ite | apply KeepsM.bind | intro _

theorem keepsM_writeElem (x : ElemRef) (v : Nat) : KeepsM (writeElem x v) := by
  unfold writeElem
  repeat' with_reducible first
    | exact KeepsM.pure _ | exact keepsM_curBid .. | exact keepsM_elemPlace .. | refine KeepsM.modify (fun s => ?_)
    | apply KeepsM.ite | apply KeepsM.bind | exact Keeps.refl _ | refine Keeps.trans ?_ (keeps_storeAt ..)
    | refine Keeps.trans ?_ (keeps_storeLocalBlock ..) | apply Keeps.ite | intro _

theorem keepsM_readAll (ops : List Word) : ∀ (xs : List ElemRef) (acc : List Nat), KeepsM (readAll ops xs acc)
  | [], _ => KeepsM.pure _
  | x :: xs, _ => ((keepsM_readElem x).catch (fun e => (keepsM_keep _ _ _ _).bind (fun _ => KeepsM.fail e))).bind
      (fun _ => keepsM_readAll ops xs _)

theorem keepsM_raiseFlags (g : Nat) : KeepsM (raiseFlags g) := by
  unfold raiseFlags
  repeat' with_reducible first
    | exact KeepsM.pure _ | exact keepsM_modRegs .. | apply KeepsM.ite

theorem keepsM_writeAll (ops : List Word) (reg : Region) (nib : Nat) :
    ∀ rs : List (Nat × Nat × Nat), KeepsM (writeAll ops reg nib rs)
  | [] => KeepsM.pure _
  | (i, v, g) :: rs => ((keepsM_writeElem ⟨reg, nib, i⟩ v).catch (fun e => (keepsM_keep _ _ _ _).bind (fun _ => KeepsM.fail e))).bind
      (fun _ => (keepsM_raiseFlags g).bind (fun _ => keepsM_writeAll ops reg nib rs))

theorem keepsM_runVectorGo (ops : List Word) (job : VJob) (vals : List Nat) : KeepsM (runVector.go ops job vals) := by
  unfold runVector.go
  repeat' with_reducible first
    | exact keepsM_readAll .. | exact keepsM_modRegs .. | exact keepsM_writeAll .. | exact keepsM_raiseFlags ..
    | exact keepsM_deliver .. | exact KeepsM.pure _ | apply KeepsM.bind | intro _ | split

theorem keepsM_runVector {pops : Nat} {v : BitVec 2} {q : Bool} {plan : EngRegs → List Word → Word → M VJob}
    (h : ∀ r l w, KeepsM (plan r l w)) : KeepsM (runVector pops v q plan) := by
  unfold runVector
  repeat' with_reducible first
    | exact h _ _ _ | exact keepsM_runVectorGo .. | exact keepsM_writeAll .. | exact keepsM_curEng ..
    | exact keepsM_operands .. | exact keepsM_queueFront .. | exact keepsM_delivers .. | exact keepsM_curBank
    | exact keepsM_restack .. | exact keepsM_modCur .. | exact keepsM_waitMore_bind .. | exact KeepsM.pure _
    | apply KeepsM.ite | apply KeepsM.bind | intro _ | split

theorem keepsM_checkForms (k : VForms) (f : Nat) (s : BitVec 2) (q : Bool) : KeepsM (checkForms k f s q) := by
  unfold checkForms
  repeat' with_reducible first
    | exact keepsM_illegalWord_bind .. | exact KeepsM.illegalWord | exact KeepsM.pure _ | apply KeepsM.ite

theorem keepsM_dstOperand (r : EngRegs) (q : Bool) (ops : List Word) : KeepsM (dstOperand r q ops) := by
  unfold dstOperand
  repeat' with_reducible first
    | exact KeepsM.pure _ | exact keepsM_regionOperand .. | apply KeepsM.ite | apply KeepsM.bind | intro _

theorem keepsM_sourceOperands (r : EngRegs) (ops : List Word) (from1 n : Nat) : KeepsM (sourceOperands r ops from1 n) := by
  unfold sourceOperands
  repeat' with_reducible first
    | exact keepsM_regionOperand .. | apply KeepsM.mapM | apply KeepsM.ite | apply KeepsM.bind | intro _

theorem keepsM_checkSource (g : Region) (nib n : Nat) : KeepsM (checkSource g nib n) := by
  unfold checkSource
  repeat' with_reducible first
    | exact keepsM_illegalWord_bind .. | exact KeepsM.illegalWord | exact KeepsM.pure _ | apply KeepsM.ite

theorem keepsM_elementPlan (k : VForms) (g : BitVec 3) (q : Bool) (s : BitVec 2) (srcs : Nat) (outFmt : Nat → Nat)
    (f : Nat → List Nat → List Nat → Res) (r : EngRegs) (ops : List Word) (v : Word) : KeepsM (elementPlan k g q s srcs outFmt f r ops v) := by
  unfold elementPlan
  repeat' with_reducible first
    | exact keepsM_illegalWord_bind .. | exact KeepsM.pure _ | exact KeepsM.illegalWord | exact keepsM_checkForms ..
    | exact keepsM_checkSource .. | exact keepsM_dstOperand .. | exact keepsM_sourceOperands .. | apply KeepsM.mapM
    | apply KeepsM.ite | apply KeepsM.bind | intro _ | split

theorem keepsM_elementwise (k : VForms) (g : BitVec 3) (q : Bool) (s : BitVec 2) (srcs stack : Nat) (outFmt : Nat → Nat)
    (f : Nat → List Nat → List Nat → Res) : KeepsM (elementwise k g q s srcs stack outFmt f) :=
  keepsM_runVector (fun _ _ _ => keepsM_elementPlan _ _ _ _ _ _ _ _ _ _)

theorem keeps_vectorWord {m : M Flow} (h : KeepsM m) (s : State) : KeepsNext s (vectorWord m s) := keeps_runWord (fun _ => h) s

theorem keeps_execVadd (g : BitVec 3) (q : Bool) (v0 : BitVec 2) (s : State) : KeepsNext s (execVadd g q v0 s) := by
  unfold execVadd
  refine keeps_vectorWord ?_ s
  apply keepsM_elementwise

theorem keeps_execVsub (g : BitVec 3) (q : Bool) (v0 : BitVec 2) (s : State) : KeepsNext s (execVsub g q v0 s) := by
  unfold execVsub
  refine keeps_vectorWord ?_ s
  apply keepsM_elementwise

theorem keeps_execVmul (g : BitVec 3) (q : Bool) (v0 : BitVec 2) (s : State) : KeepsNext s (execVmul g q v0 s) := by
  unfold execVmul
  refine keeps_vectorWord ?_ s
  apply keepsM_elementwise

theorem keeps_execVfma (g : BitVec 3) (q : Bool) (v0 : BitVec 2) (s : State) : KeepsNext s (execVfma g q v0 s) := by
  unfold execVfma
  refine keeps_vectorWord ?_ s
  apply keepsM_elementwise

theorem keeps_execVmax (g : BitVec 3) (q : Bool) (v0 : BitVec 2) (s : State) : KeepsNext s (execVmax g q v0 s) := by
  unfold execVmax
  refine keeps_vectorWord ?_ s
  apply keepsM_elementwise

theorem keeps_execVmin (g : BitVec 3) (q : Bool) (v0 : BitVec 2) (s : State) : KeepsNext s (execVmin g q v0 s) := by
  unfold execVmin
  refine keeps_vectorWord ?_ s
  apply keepsM_elementwise

theorem keeps_execVabs (g : BitVec 3) (q : Bool) (v0 : BitVec 2) (s : State) : KeepsNext s (execVabs g q v0 s) := by
  unfold execVabs
  refine keeps_vectorWord ?_ s
  apply keepsM_elementwise

theorem keeps_execVneg (g : BitVec 3) (q : Bool) (v0 : BitVec 2) (s : State) : KeepsNext s (execVneg g q v0 s) := by
  unfold execVneg
  refine keeps_vectorWord ?_ s
  apply keepsM_elementwise

theorem keeps_execVclamp (g : BitVec 3) (q : Bool) (v0 : BitVec 2) (s : State) : KeepsNext s (execVclamp g q v0 s) := by
  unfold execVclamp
  refine keeps_vectorWord ?_ s
  apply keepsM_elementwise

theorem keeps_execVcmp (g : BitVec 3) (q : Bool) (v0 : BitVec 2) (v : BitVec 3) (s : State) : KeepsNext s (execVcmp g q v0 v s) := by
  unfold execVcmp
  refine keeps_vectorWord ?_ s
  apply keepsM_elementwise

theorem keeps_execVexp (g : BitVec 3) (q : Bool) (v0 : BitVec 2) (s : State) : KeepsNext s (execVexp g q v0 s) := by
  unfold execVexp
  refine keeps_vectorWord ?_ s
  apply keepsM_elementwise

theorem keeps_execVlog (g : BitVec 3) (q : Bool) (v0 : BitVec 2) (s : State) : KeepsNext s (execVlog g q v0 s) := by
  unfold execVlog
  refine keeps_vectorWord ?_ s
  apply keepsM_elementwise

theorem keeps_execVrcp (g : BitVec 3) (q : Bool) (v0 : BitVec 2) (s : State) : KeepsNext s (execVrcp g q v0 s) := by
  unfold execVrcp
  refine keeps_vectorWord ?_ s
  apply keepsM_elementwise

theorem keeps_execVrsq (g : BitVec 3) (q : Bool) (v0 : BitVec 2) (s : State) : KeepsNext s (execVrsq g q v0 s) := by
  unfold execVrsq
  refine keeps_vectorWord ?_ s
  apply keepsM_elementwise

theorem keeps_execVcvt (g : BitVec 3) (q : Bool) (v0 : BitVec 2) (v : BitVec 3) (s : State) : KeepsNext s (execVcvt g q v0 v s) := by
  unfold execVcvt
  refine keeps_vectorWord ?_ s
  apply keepsM_elementwise

theorem keeps_execVsel (g : BitVec 3) (q : Bool) (v0 : BitVec 2) (s : State) : KeepsNext s (execVsel g q v0 s) := by
  unfold execVsel
  refine keeps_vectorWord ?_ s
  apply keepsM_elementwise

theorem keeps_execVand (g : BitVec 3) (q : Bool) (v0 : BitVec 2) (s : State) : KeepsNext s (execVand g q v0 s) := by
  unfold execVand
  refine keeps_vectorWord ?_ s
  apply keepsM_elementwise

theorem keeps_execVor (g : BitVec 3) (q : Bool) (v0 : BitVec 2) (s : State) : KeepsNext s (execVor g q v0 s) := by
  unfold execVor
  refine keeps_vectorWord ?_ s
  apply keepsM_elementwise

theorem keeps_execVxor (g : BitVec 3) (q : Bool) (v0 : BitVec 2) (s : State) : KeepsNext s (execVxor g q v0 s) := by
  unfold execVxor
  refine keeps_vectorWord ?_ s
  apply keepsM_elementwise

theorem keeps_execVshl (g : BitVec 3) (q : Bool) (v0 : BitVec 2) (s : State) : KeepsNext s (execVshl g q v0 s) := by
  unfold execVshl
  refine keeps_vectorWord ?_ s
  apply keepsM_elementwise

theorem keeps_execVshr (g : BitVec 3) (q : Bool) (v0 : BitVec 2) (v : BitVec 3) (s : State) : KeepsNext s (execVshr g q v0 v s) := by
  unfold execVshr
  refine keeps_vectorWord ?_ s
  apply keepsM_elementwise

theorem keeps_execVmov (g : BitVec 3) (q : Bool) (v0 : BitVec 2) (s : State) : KeepsNext s (execVmov g q v0 s) := by
  unfold execVmov
  refine keeps_vectorWord ?_ s
  apply keepsM_elementwise

theorem keeps_execVbc (g : BitVec 3) (q : Bool) (v0 : BitVec 2) (s : State) : KeepsNext s (execVbc g q v0 s) := by
  unfold execVbc
  refine keeps_vectorWord ?_ s
  repeat' with_reducible first
    | exact KeepsM.pure _ | apply keepsM_elementwise | apply KeepsM.ite

theorem keepsM_planVred (g : BitVec 3) (q : Bool) (v0 : BitVec 2) (v : BitVec 3) (r : EngRegs) (ops : List Word) (_e : Word) : KeepsM (planVred g q v0 v r ops _e) := by
  unfold planVred
  repeat' with_reducible first
    | exact keepsM_illegalWord_bind .. | exact KeepsM.pure _ | exact KeepsM.illegalWord | exact keepsM_checkForms ..
    | exact keepsM_checkSource .. | exact keepsM_dstOperand .. | exact keepsM_regionOperand .. | apply KeepsM.ite
    | apply KeepsM.bind | intro _ | split

theorem keeps_execVred (g : BitVec 3) (q : Bool) (v0 : BitVec 2) (v : BitVec 3) (s : State) : KeepsNext s (execVred g q v0 v s) := by
  unfold execVred
  refine keeps_vectorWord ?_ s
  repeat' with_reducible first
    | exact keepsM_planVred .. | apply keepsM_runVector | apply KeepsM.ite | apply KeepsM.bind | intro _

theorem keepsM_planVscan (g : BitVec 3) (q : Bool) (v0 : BitVec 2) (v : BitVec 3) (r : EngRegs) (ops : List Word) (_e : Word) : KeepsM (planVscan g q v0 v r ops _e) := by
  unfold planVscan
  repeat' with_reducible first
    | exact keepsM_illegalWord_bind .. | exact KeepsM.pure _ | exact KeepsM.illegalWord | exact keepsM_checkForms ..
    | exact keepsM_checkSource .. | exact keepsM_dstOperand .. | exact keepsM_regionOperand .. | apply KeepsM.ite
    | apply KeepsM.bind | intro _ | split

theorem keeps_execVscan (g : BitVec 3) (q : Bool) (v0 : BitVec 2) (v : BitVec 3) (s : State) : KeepsNext s (execVscan g q v0 v s) := by
  unfold execVscan
  refine keeps_vectorWord ?_ s
  repeat' with_reducible first
    | exact keepsM_planVscan .. | apply keepsM_runVector | apply KeepsM.ite | apply KeepsM.bind | intro _

theorem keepsM_planVperm (g : BitVec 3) (q : Bool) (v0 : BitVec 2) (r : EngRegs) (ops : List Word) (e : Word) : KeepsM (planVperm g q v0 r ops e) := by
  unfold planVperm
  repeat' with_reducible first
    | exact keepsM_illegalWord_bind .. | exact KeepsM.pure _ | exact KeepsM.illegalWord | exact keepsM_checkForms ..
    | exact keepsM_checkSource .. | exact keepsM_dstOperand .. | exact keepsM_regionOperand .. | apply KeepsM.ite
    | apply KeepsM.bind | intro _ | split

theorem keeps_execVperm (g : BitVec 3) (q : Bool) (v0 : BitVec 2) (s : State) : KeepsNext s (execVperm g q v0 s) := by
  unfold execVperm
  refine keeps_vectorWord ?_ s
  repeat' with_reducible first
    | exact KeepsM.pure _ | exact keepsM_planVperm .. | apply keepsM_runVector | apply KeepsM.ite | apply KeepsM.bind
    | intro _

theorem keepsM_planVsoft (g : BitVec 3) (q : Bool) (v0 : BitVec 2) (r : EngRegs) (ops : List Word) (e : Word) : KeepsM (planVsoft g q v0 r ops e) := by
  unfold planVsoft
  repeat' with_reducible first
    | exact keepsM_illegalWord_bind .. | exact KeepsM.pure _ | exact KeepsM.illegalWord | exact keepsM_checkForms ..
    | exact keepsM_checkSource .. | exact keepsM_regionOperand .. | apply KeepsM.ite | apply KeepsM.bind | intro _

theorem keeps_execVsoft (g : BitVec 3) (q : Bool) (v0 : BitVec 2) (s : State) : KeepsNext s (execVsoft g q v0 s) := by
  unfold execVsoft
  refine keeps_vectorWord ?_ s
  repeat' with_reducible first
    | exact keepsM_planVsoft .. | apply keepsM_runVector | apply KeepsM.ite | apply KeepsM.bind | intro _

theorem keepsM_planVbsr (g : BitVec 3) (q : Bool) (v0 : BitVec 2) (r : EngRegs) (ops : List Word) (_e : Word) : KeepsM (planVbsr g q v0 r ops _e) := by
  unfold planVbsr
  repeat' with_reducible first
    | exact keepsM_illegalWord_bind .. | exact KeepsM.pure _ | exact KeepsM.get | exact KeepsM.illegalWord
    | exact keepsM_checkForms .. | exact keepsM_dstOperand .. | exact keepsM_regionOperand .. | apply KeepsM.ite
    | apply KeepsM.bind | intro _ | split

theorem keeps_execVbsr (g : BitVec 3) (q : Bool) (v0 : BitVec 2) (s : State) : KeepsNext s (execVbsr g q v0 s) := by
  unfold execVbsr
  refine keeps_vectorWord ?_ s
  repeat' with_reducible first
    | exact keepsM_planVbsr .. | apply keepsM_runVector | apply KeepsM.ite | apply KeepsM.bind | intro _

theorem keeps_execDset (n : BitVec 5) (s : State) : KeepsNext s (execDset n s) := by
  unfold execDset
  refine keeps_runWord (fun e => ?_) s
  repeat' with_reducible first
    | exact keepsM_illegalWord_bind .. | exact KeepsM.pure _ | exact KeepsM.illegalWord | exact keepsM_modRegs ..
    | exact keepsM_operands .. | exact keepsM_restack .. | apply KeepsM.ite | apply KeepsM.bind | intro _ | split

theorem keeps_execDget (n : BitVec 5) (s : State) : KeepsNext s (execDget n s) := by
  unfold execDget
  refine keeps_runWord (fun e => ?_) s
  repeat' with_reducible first
    | exact KeepsM.pure _ | exact keepsM_curEng .. | exact keepsM_operands .. | exact keepsM_restack ..
    | apply KeepsM.ite | apply KeepsM.bind | intro _

theorem keeps_execRotD (s : State) : KeepsNext s (execRotD s) := by
  unfold execRotD
  refine keeps_runWord (fun e => ?_) s
  repeat' with_reducible first
    | exact KeepsM.pure _ | exact keepsM_modRegs .. | apply KeepsM.ite | apply KeepsM.bind | intro _

theorem keeps_execPgs (n : BitVec 3) (s : State) : KeepsNext s (execPgs n s) := by
  unfold execPgs
  refine keeps_runWord (fun e => ?_) s
  repeat' with_reducible first
    | exact keepsM_illegalWord_bind .. | exact KeepsM.pure _ | exact KeepsM.illegalWord | exact keepsM_modRegs ..
    | exact keepsM_operands .. | exact keepsM_restack .. | apply KeepsM.ite | apply KeepsM.bind | intro _ | split

theorem keepsM_maskAddress (a : Word) : KeepsM (maskAddress a) := by
  unfold maskAddress
  repeat' with_reducible first
    | exact keepsM_illegalWord_bind .. | exact KeepsM.pure _ | exact KeepsM.illegalWord | apply KeepsM.ite

theorem keepsM_setK (d : BitVec 4) (v : Half) : KeepsM (setK d v) := by
  unfold setK
  apply keepsM_modRegs

theorem keepsM_getK (d : BitVec 4) : KeepsM (getK d) := by
  unfold getK
  repeat' with_reducible first
    | exact KeepsM.pure _ | exact keepsM_curEng .. | apply KeepsM.ite | apply KeepsM.bind | intro _

theorem keeps_execKld (d : BitVec 4) (s : State) : KeepsNext s (execKld d s) := by
  unfold execKld
  refine keeps_runWord (fun e => ?_) s
  repeat' with_reducible first
    | exact keepsM_illegalWord_bind .. | exact KeepsM.pure _ | exact KeepsM.illegalWord | exact keepsM_curBid ..
    | exact keepsM_loadLocal .. | exact keepsM_maskAddress .. | exact keepsM_operands .. | exact keepsM_restack ..
    | exact keepsM_setK .. | apply KeepsM.ite | apply KeepsM.bind | intro _ | split

theorem keeps_execKst (d : BitVec 4) (s : State) : KeepsNext s (execKst d s) := by
  unfold execKst
  refine keeps_runWord (fun e => ?_) s
  repeat' with_reducible first
    | exact keepsM_illegalWord_bind .. | exact KeepsM.pure _ | exact KeepsM.illegalWord | exact keepsM_curBid ..
    | exact keepsM_getK .. | exact keepsM_maskAddress .. | exact keepsM_operands .. | exact keepsM_restack ..
    | refine KeepsM.modify (fun s => ?_) | apply KeepsM.ite | apply KeepsM.bind | exact Keeps.refl _
    | refine Keeps.trans ?_ (keeps_runWord ..) | refine Keeps.trans ?_ (keeps_storeLocalBlock ..) | exact ⟨rfl, id⟩
    | intro _ | split

theorem keeps_maskWord (d src : BitVec 4) (f : Half → Half → Half) (s : State) : KeepsNext s (maskWord d src f s) := by
  unfold maskWord
  refine keeps_runWord (fun e => ?_) s
  repeat' with_reducible first
    | exact KeepsM.pure _ | exact keepsM_getK .. | exact keepsM_setK .. | apply KeepsM.ite | apply KeepsM.bind
    | intro _

theorem keeps_execKor (d v0 : BitVec 4) (s : State) : KeepsNext s (execKor d v0 s) := by
  unfold execKor
  exact keeps_maskWord ..

theorem keeps_execKand (d v0 : BitVec 4) (s : State) : KeepsNext s (execKand d v0 s) := by
  unfold execKand
  exact keeps_maskWord ..

theorem keeps_execKxor (d v0 : BitVec 4) (s : State) : KeepsNext s (execKxor d v0 s) := by
  unfold execKxor
  exact keeps_maskWord ..

theorem keeps_execKnot (d v0 : BitVec 4) (s : State) : KeepsNext s (execKnot d v0 s) := by
  unfold execKnot
  exact keeps_maskWord ..

theorem keeps_maskBit (d : BitVec 4) (pushes : Bool) (f : Half → Nat → Half) (s : State) : KeepsNext s (maskBit d pushes f s) := by
  unfold maskBit
  refine keeps_runWord (fun e => ?_) s
  repeat' with_reducible first
    | exact keepsM_illegalWord_bind .. | exact KeepsM.pure _ | exact KeepsM.illegalWord | exact keepsM_getK ..
    | exact keepsM_operands .. | exact keepsM_restack .. | exact keepsM_setK .. | apply KeepsM.ite
    | apply KeepsM.bind | intro _ | split

theorem keeps_execKbitTst (d : BitVec 4) (s : State) : KeepsNext s (execKbitTst d s) := by
  unfold execKbitTst
  exact keeps_maskBit ..

theorem keeps_execKbitSet (d : BitVec 4) (s : State) : KeepsNext s (execKbitSet d s) := by
  unfold execKbitSet
  exact keeps_maskBit ..

theorem keeps_execKbitClr (d : BitVec 4) (s : State) : KeepsNext s (execKbitClr d s) := by
  unfold execKbitClr
  exact keeps_maskBit ..

theorem keeps_execKpop (d : BitVec 4) (s : State) : KeepsNext s (execKpop d s) := by
  unfold execKpop
  refine keeps_runWord (fun e => ?_) s
  repeat' with_reducible first
    | exact KeepsM.pure _ | exact keepsM_getK .. | exact keepsM_operands .. | exact keepsM_restack ..
    | apply KeepsM.ite | apply KeepsM.bind | intro _

theorem keeps_execKget (d : BitVec 4) (s : State) : KeepsNext s (execKget d s) := by
  unfold execKget
  refine keeps_runWord (fun e => ?_) s
  repeat' with_reducible first
    | exact KeepsM.pure _ | exact keepsM_getK .. | exact keepsM_operands .. | exact keepsM_restack ..
    | apply KeepsM.ite | apply KeepsM.bind | intro _

theorem keeps_execKset (d : BitVec 4) (s : State) : KeepsNext s (execKset d s) := by
  unfold execKset
  refine keeps_runWord (fun e => ?_) s
  repeat' with_reducible first
    | exact keepsM_illegalWord_bind .. | exact KeepsM.pure _ | exact KeepsM.illegalWord | exact keepsM_operands ..
    | exact keepsM_restack .. | exact keepsM_setK .. | apply KeepsM.ite | apply KeepsM.bind | intro _ | split

theorem keepsM_contextFormat : KeepsM (contextFormat : M α) := by
  unfold contextFormat
  repeat' with_reducible first
    | exact keepsM_endNest_bind .. | exact KeepsM.endNest _

theorem keepsM_readCtx (va n : Nat) (seg : Bool) : KeepsM (readCtx va n seg) := by
  unfold readCtx
  repeat' with_reducible first
    | exact KeepsM.get | exact KeepsM.pure _ | exact keepsM_contextFormat .. | exact keepsM_loadBytes ..
    | exact keepsM_translate .. | apply KeepsM.ite | apply KeepsM.bind | intro _

theorem keepsM_readContext (va : Nat) : KeepsM (readContext va) := by
  unfold readContext
  repeat' with_reducible first
    | exact KeepsM.pure _ | exact keepsM_contextFormat .. | exact keepsM_readCtx .. | apply KeepsM.ite
    | apply KeepsM.bind | intro _

theorem keepsM_readTable (base n : Nat) : KeepsM (readTable base n) := by
  unfold readTable
  repeat' with_reducible first
    | exact KeepsM.pure _ | exact keepsM_contextFormat .. | exact keepsM_readCtx .. | apply KeepsM.mapM
    | apply KeepsM.ite | apply KeepsM.bind | intro _

theorem keepsM_checkPlane (c : Context) : KeepsM (checkPlane c) := by
  unfold checkPlane
  repeat' with_reducible first
    | exact KeepsM.get | exact KeepsM.pure _ | exact keepsM_contextFormat .. | apply KeepsM.ite | apply KeepsM.bind
    | intro _

theorem keepsM_readMean (c : Context) (stub g head : Nat) : KeepsM (readMean c stub g head) := by
  unfold readMean
  repeat' with_reducible first
    | exact KeepsM.pure _ | exact keepsM_readCtx .. | apply KeepsM.mapM | apply KeepsM.ite | apply KeepsM.bind
    | intro _

/-- Discarding the dead copy words of members, and putting back those that a drain has passed, changes banks only. -/
theorem keepsM_settleForFault : KeepsM settleForFault := by
  unfold settleForFault
  refine KeepsM.get_bind (fun s => ?_)
  extract_lets bid lead ms s1 dead s2 settled cancelled s3 ends drained given discarded found
  have hends : KeepsM (ends ()) := KeepsM.modify (fun s => keeps_afterDrain s _)
  have hdrained : KeepsM (drained ()) := KeepsM.ite (KeepsM.waitMore.bind (fun _ => hends)) hends
  have hgiven : KeepsM (given ()) := KeepsM.ite
    ((KeepsM.modify (fun s => keeps_giveWay s _)).bind (fun _ => KeepsM.waitMore.bind (fun _ => hdrained))) hdrained
  have h3 : Keeps s s3 := (Keeps.foldl (fun s _ => keeps_modBank s _ _) _ _).after ((keeps_drain _ _ _).after
    ((Keeps.foldl (fun s _ => keeps_modBank s _ _) _ _).after ((keeps_drain _ _ _).after (keeps_modBank s _ _))))
  have hdiscarded : Ends s ((discarded ()).run s) :=
    KeepsM.set_bind h3 (KeepsM.ite (KeepsM.waitMore.bind (fun _ => hgiven)) hgiven)
  have hfound : Ends s ((found ()).run s) := by
    simp only [found]
    split
    · exact Keeps.refl s
    · exact hdiscarded
  split
  · exact Keeps.refl s
  · exact hfound

theorem keepsM_placeWords (l : List (Nat × Nat)) : KeepsM (placeWords l) := by
  unfold placeWords
  repeat' with_reducible first
    | exact KeepsM.pure _ | exact KeepsM.get | exact keepsM_translate .. | apply KeepsM.mapM | apply KeepsM.ite
    | apply KeepsM.bind | intro _

theorem keepsM_storeWords (l : List (Place × Nat)) : KeepsM (storeWords l) := by
  unfold storeWords
  repeat' with_reducible first
    | exact keepsM_curBid .. | refine KeepsM.modify (fun s => ?_) | apply KeepsM.ite | apply KeepsM.bind
    | exact Keeps.refl _ | refine Keeps.trans ?_ (keeps_storeAt ..)
    | refine Keeps.trans ?_ (Keeps.foldl (fun _ _ => ?_) _ _) | intro _

theorem keepsM_contextFault (c : Context) (t : StubTag) (stub e total : Nat) : KeepsM (contextFault c t stub e total) := by
  unfold contextFault
  repeat' with_reducible first
    | exact KeepsM.pure _ | exact keepsM_placeWords .. | exact keepsM_settleForFault .. | exact keepsM_storeWords ..
    | refine KeepsM.modify (fun s => ?_) | apply KeepsM.ite | apply KeepsM.bind | exact Keeps.refl _
    | refine Keeps.trans ?_ (keeps_gcFaults ..) | refine Keeps.trans ?_ (keeps_modBank ..)
    | refine Keeps.trans ?_ (Keeps.foldl (fun _ _ => ?_) _ _) | apply Keeps.ite | exact ⟨rfl, id⟩ | intro _

theorem keepsM_checkResult (d : Region) : KeepsM (checkResult d) := by
  unfold checkResult
  repeat' with_reducible first
    | exact KeepsM.pure _ | exact keepsM_elemPlace .. | apply KeepsM.ite | apply KeepsM.bind | intro _

theorem keepsM_stubRegions (r : EngRegs) (q : Bool) (v0 : BitVec 2) (ops : List Word) : KeepsM (stubRegions r q v0 ops) := by
  unfold stubRegions
  repeat' with_reducible first
    | exact keepsM_illegalWord_bind .. | exact KeepsM.pure _ | exact KeepsM.illegalWord | exact keepsM_checkForms ..
    | exact keepsM_dstOperand .. | exact keepsM_regionOperand .. | apply KeepsM.ite | apply KeepsM.bind | intro _
    | split

theorem keepsM_stubJudge (tag ctx : Nat) (qr sr : Region) : KeepsM (stubJudge tag ctx qr sr) := by
  unfold stubJudge
  repeat' with_reducible first
    | exact KeepsM.pure _ | exact keepsM_checkPlane .. | exact keepsM_contextFormat .. | exact keepsM_readContext ..
    | exact keepsM_readElem .. | exact keepsM_readMean .. | exact keepsM_readTable .. | apply KeepsM.mapM
    | apply KeepsM.ite | apply KeepsM.bind | intro _

theorem keepsM_stubPlaces (j : StubJob) (dst : Option Region) : KeepsM (stubPlaces j dst) := by
  unfold stubPlaces
  repeat' with_reducible first
    | exact KeepsM.pure _ | exact keepsM_checkResult .. | exact keepsM_placeWords .. | exact keepsM_readCtx ..
    | apply KeepsM.ite | apply KeepsM.bind | intro _ | split

theorem keepsM_stubResult (j : StubJob) (dst : Option Region) (ws : List (Place × Nat)) : KeepsM (stubResult j dst ws) := by
  unfold stubResult
  repeat' with_reducible first
    | exact KeepsM.pure _ | exact keepsM_deliver .. | exact keepsM_raiseFlags .. | exact keepsM_storeWords ..
    | exact keepsM_writeElem .. | apply KeepsM.ite | apply KeepsM.bind | intro _ | split

theorem keeps_execVstub (g : BitVec 3) (q : Bool) (v0 : BitVec 2) (s : State) : KeepsNext s (execVstub g q v0 s) := by
  unfold execVstub
  refine keeps_vectorWord ?_ s
  repeat' with_reducible first
    | exact keepsM_waitMore_bind .. | exact KeepsM.pure _ | exact KeepsM.waitMore | exact keepsM_contextFault ..
    | exact keepsM_curBank .. | exact keepsM_curEng .. | exact keepsM_deliver .. | exact keepsM_delivers ..
    | exact keepsM_keep .. | exact keepsM_operands .. | exact keepsM_restack .. | exact keepsM_stubJudge ..
    | exact keepsM_stubPlaces .. | exact keepsM_stubRegions .. | exact keepsM_stubResult .. | apply KeepsM.ite
    | apply KeepsM.bind | intro _ | split

theorem keeps_execFwStage (image : List Byte) (s : State) : KeepsNext s (execFwStage image s) := by
  unfold execFwStage
  refine keeps_command s _ _ (fun _ => ?_)
  repeat' with_reducible first
    | apply KeepsNext.next | exact KeepsNext.fault .. | exact Keeps.refl s | exact Keeps.refl _
    | refine Keeps.trans ?_ (keeps_command ..) | apply Keeps.ite | exact ⟨rfl, id⟩

theorem keeps_execFwActivate (s : State) : KeepsNext s (execFwActivate s) := by
  unfold execFwActivate
  refine keeps_command s _ _ (fun _ => ?_)
  repeat' with_reducible first
    | apply KeepsNext.next | exact KeepsNext.fault .. | exact Keeps.refl s | exact Keeps.refl _
    | refine Keeps.trans ?_ (keeps_command ..) | apply Keeps.ite | exact ⟨rfl, id⟩

theorem keeps_repair1 (s : State) (entry : Nat) : Keeps s (s.repair1 entry) := by
  unfold State.repair1
  dsimp only
  split <;> exact ⟨rfl, id⟩

theorem keeps_repair (s : State) : Keeps s s.repair := by
  have repaired : ∀ (l : List Nat) (s : State), Keeps s (l.foldl State.repair1 s) := Keeps.foldl keeps_repair1
  unfold State.repair
  exact (repaired _ s).trans ⟨rfl, fun h => ⟨wf_blank h.1 _ _ _, wf_blank h.2 _ _ _⟩⟩

theorem keeps_writeWords : ∀ (vs : List Nat) (s : State) (off : Nat), Keeps s (s.writeWords off vs)
  | [], s, _ => Keeps.refl s
  | v :: vs, s, off => by
    unfold State.writeWords
    exact (keeps_writeReserved s off v).trans (keeps_writeWords vs _ _)

theorem keeps_startBetony (s : State) : Keeps s s.startBetony := by
  unfold State.startBetony
  refine (keeps_retryUnits _).after ((keeps_betony ?_).after ((keeps_writeWords _ _ _).after ⟨rfl, fun h => ?_⟩))
  · exact id
  · exact ⟨wf_blank h.1 _ _ _, wf_blank h.2 _ _ _⟩

theorem keeps_scramble (s : State) : Keeps s s.scramble := by
  unfold State.scramble
  refine Keeps.mem rfl (fun h => ?_) rfl
  exact wf_blank (wf_blank (wf_blank (wf_blank (wf_blank h _ _ _) _ _ _) _ _ _) _ _ _) _ _ _

theorem keeps_execStartSequence (r : StartReport) (s : State) : KeepsNext s (execStartSequence r s) := by
  have started : ∀ (t : State) (dies : PMap Die) (h : HostSt) (n : Nat),
      Keeps t { t with dies := dies, cycle := 0, betony := { t.betony with starts := n }, host := h } := fun _ _ _ _ => ⟨rfl, id⟩
  have last : ∀ (c : Prop) [Decidable c] (t : State), Keeps t (if c then t.startBetony else t) :=
    fun _ _ t => Keeps.ite (keeps_startBetony t) (Keeps.refl t)
  have off : Keeps s (s.powerless s.mem).scramble.repair := (keeps_powerless id).trans ((keeps_scramble _).trans (keeps_repair _))
  unfold execStartSequence
  refine KeepsNext.next ?_
  split
  · exact Keeps.refl s
  · extract_lets t caps dies
    exact (last _ _).after ((started _ _ _ _).after off)

/-! ### Every instruction, turn and step -/

/-- Every instruction keeps memory and media: each arm of `exec` is a meaning that does. -/
theorem keeps_exec (s : State) : ∀ i : Instr, KeepsNext s (exec i s)
  | .xlat .. => keeps_execXlat ..
  | .xlatW .. => keeps_execXlatW ..
  | .hinv .. => keeps_execHinv ..
  | .hstat .. => keeps_execHstat ..
  | .ldh .. => keeps_execLdh ..
  | .sdh .. => keeps_execSdh ..
  | .qpush .. => keeps_execQpush ..
  | .qpop .. => keeps_execQpop ..
  | .qpeek .. => keeps_execQpeek ..
  | .qlvl .. => keeps_execQlvl ..
  | .qwm .. => keeps_execQwm ..
  | .waitt .. => keeps_execWaitt ..
  | .prm .. => keeps_execPrm ..
  | .ecall .. => keeps_execEcall ..
  | .epush .. => keeps_execEpush ..
  | .emark .. => keeps_execEmark ..
  | .rdvs .. => keeps_execRdvs ..
  | .rdvw .. => keeps_execRdvw ..
  | .safept .. => keeps_execSafept ..
  | .nsub .. => keeps_execNsub ..
  | .tdone .. => keeps_execTdone ..
  | .gang .. => keeps_execGang ..
  | .ungang .. => keeps_execUngang ..
  | .csyncSet .. => keeps_execCsyncSet ..
  | .csyncW .. => keeps_execCsyncW ..
  | .phsw .. => keeps_execPhsw ..
  | .dopen .. => keeps_execDopen ..
  | .dopenW .. => keeps_execDopenW ..
  | .dclose .. => keeps_execDclose ..
  | .dbind .. => keeps_execDbind ..
  | .dunbind .. => keeps_execDunbind ..
  | .dbset .. => keeps_execDbset ..
  | .dqry .. => keeps_execDqry ..
  | .pbar .. => keeps_execPbar ..
  | .pwb .. => keeps_execPwb ..
  | .fenceS .. => keeps_execFenceS ..
  | .vcfp .. => keeps_execVcfp ..
  | .vcrep .. => keeps_execVcrep ..
  | .vcsync .. => keeps_execVcsync ..
  | .fqpop .. => keeps_execFqpop ..
  | .fqrep .. => keeps_execFqrep ..
  | .ergr .. => keeps_execErgr ..
  | .load .. => keeps_execLoad ..
  | .store .. => keeps_execStore ..
  | .amo op dbl aq rl d a b => keeps_execAmo op dbl aq rl d a b s
  | .lr dbl aq rl d a => keeps_execLr dbl aq rl d a s
  | .sc dbl aq rl d a b => keeps_execSc dbl aq rl d a b s
  | .csrAccess .. => keeps_execCsrAccess ..
  | .standardEcall .. => keeps_execStandardEcall ..
  | .ebreak .. => keeps_execEbreak ..
  | .sret .. => keeps_execSret ..
  | .wfi .. => keeps_execWfi ..
  | .sfenceVma .. => keeps_execSfenceVma ..
  | .fence fm pre suc a d => keeps_execFence fm pre suc a d s
  | .fenceTso a d => keeps_execFenceTso a d s
  | .fenceI imm a d => keeps_execFenceI imm a d s
  | .intRR .. => keeps_execIntRR ..
  | .intRI .. => keeps_execIntRI ..
  | .intShift .. => keeps_execIntShift ..
  | .intUnary .. => keeps_execIntUnary ..
  | .lui .. => keeps_execLui ..
  | .auipc .. => keeps_execAuipc ..
  | .jal .. => keeps_execJal ..
  | .jalr .. => keeps_execJalr ..
  | .branch .. => keeps_execBranch ..
  | .literal .. => keeps_execLiteral ..
  | .lix .. => keeps_execLix ..
  | .dup .. => keeps_execDup ..
  | .drop .. => keeps_execDrop ..
  | .swap .. => keeps_execSwap ..
  | .rot .. => keeps_execRot ..
  | .rotD .. => keeps_execRotD ..
  | .loop .. => keeps_execLoop ..
  | .endl .. => keeps_execEndl ..
  | .lset .. => keeps_execLset ..
  | .lget .. => keeps_execLget ..
  | .tokw .. => keeps_execTokw ..
  | .tokr .. => keeps_execTokr ..
  | .mark .. => keeps_execMark ..
  | .call .. => keeps_execCall ..
  | .ret .. => keeps_execRet ..
  | .nop .. => keeps_execNop ..
  | .fsel .. => keeps_execFsel ..
  | .qin .. => keeps_execQin ..
  | .qout .. => keeps_execQout ..
  | .cpy .. => keeps_execCpy ..
  | .cpy2 .. => keeps_execCpy2 ..
  | .cpyz .. => keeps_execCpyz ..
  | .gath .. => keeps_execGath ..
  | .scat .. => keeps_execScat ..
  | .pfch .. => keeps_execPfch ..
  | .cpyg .. => keeps_execCpyg ..
  | .cpyd .. => keeps_execCpyd ..
  | .fill .. => keeps_execFill ..
  | .rfeed .. => keeps_execRfeed ..
  | .dln .. => keeps_execDln ..
  | .skey .. => keeps_execSkey ..
  | .hist d f => keeps_execHist d f s
  | .selk f => keeps_execSelk f s
  | .selp .. => keeps_execSelp ..
  | .cmpk .. => keeps_execCmpk ..
  | .vadd .. => keeps_execVadd ..
  | .vsub .. => keeps_execVsub ..
  | .vmul .. => keeps_execVmul ..
  | .vfma .. => keeps_execVfma ..
  | .vmax .. => keeps_execVmax ..
  | .vmin .. => keeps_execVmin ..
  | .vabs .. => keeps_execVabs ..
  | .vneg .. => keeps_execVneg ..
  | .vcvt .. => keeps_execVcvt ..
  | .vexp .. => keeps_execVexp ..
  | .vlog .. => keeps_execVlog ..
  | .vrcp .. => keeps_execVrcp ..
  | .vrsq .. => keeps_execVrsq ..
  | .vcmp .. => keeps_execVcmp ..
  | .vsel .. => keeps_execVsel ..
  | .vred .. => keeps_execVred ..
  | .vscan .. => keeps_execVscan ..
  | .vbsr .. => keeps_execVbsr ..
  | .vperm .. => keeps_execVperm ..
  | .vand .. => keeps_execVand ..
  | .vor .. => keeps_execVor ..
  | .vxor .. => keeps_execVxor ..
  | .vshl .. => keeps_execVshl ..
  | .vshr .. => keeps_execVshr ..
  | .vmov .. => keeps_execVmov ..
  | .vbc .. => keeps_execVbc ..
  | .vclamp .. => keeps_execVclamp ..
  | .vstub .. => keeps_execVstub ..
  | .vsoft .. => keeps_execVsoft ..
  | .dset .. => keeps_execDset ..
  | .dget .. => keeps_execDget ..
  | .pgs .. => keeps_execPgs ..
  | .kld .. => keeps_execKld ..
  | .kst .. => keeps_execKst ..
  | .kor .. => keeps_execKor ..
  | .kand .. => keeps_execKand ..
  | .kxor .. => keeps_execKxor ..
  | .knot .. => keeps_execKnot ..
  | .kbitTst .. => keeps_execKbitTst ..
  | .kbitSet .. => keeps_execKbitSet ..
  | .kbitClr .. => keeps_execKbitClr ..
  | .kpop .. => keeps_execKpop ..
  | .kget .. => keeps_execKget ..
  | .kset .. => keeps_execKset ..
  | .mm .. => keeps_execMm ..
  | .mml .. => keeps_execMml ..
  | .mmm .. => keeps_execMmm ..
  | .mpb .. => keeps_execMpb ..
  | .acco .. => keeps_execAcco ..
  | .accz .. => keeps_execAccz ..
  | .accg .. => keeps_execAccg ..
  | .rng .. => keeps_execRng ..
  | .fte .. => keeps_execFte ..
  | .draw .. => keeps_execDraw ..
  | .notify .. => keeps_execNotify ..
  | .cowslipAccept .. => keeps_execCowslipAccept ..
  | .ringIdleTimeout .. => keeps_execRingIdleTimeout ..
  | .schedulerVisit .. => keeps_execSchedulerVisit ..
  | .agingTick .. => keeps_execAgingTick ..
  | .speedwellWindow .. => keeps_execSpeedwellWindow ..
  | .heatThrottle .. => keeps_execHeatThrottle ..
  | .preemptionRequest .. => keeps_execPreemptionRequest ..
  | .forcedSave .. => keeps_execForcedSave ..
  | .contextResume .. => keeps_execContextResume ..
  | .pageWalkEnd .. => keeps_execPageWalkEnd ..
  | .faultRecordAlloc .. => keeps_execFaultRecordAlloc ..
  | .iqInvalidate .. => keeps_execIqInvalidate ..
  | .flipRequest .. => keeps_execFlipRequest ..
  | .flipAck .. => keeps_execFlipAck ..
  | .invalidationComplete .. => keeps_execInvalidationComplete ..
  | .promiseMissed .. => keeps_execPromiseMissed ..
  | .waittWake .. => keeps_execWaittWake ..
  | .dopenWTimeout .. => keeps_execDopenWTimeout ..
  | .reclaimRetry .. => keeps_execReclaimRetry ..
  | .lrReservationExpiry .. => keeps_execLrReservationExpiry ..
  | .copyComplete .. => keeps_execCopyComplete ..
  | .markerRetire .. => keeps_execMarkerRetire ..
  | .phaseCommit .. => keeps_execPhaseCommit ..
  | .checkedEntryIssue .. => keeps_execCheckedEntryIssue ..
  | .yarrowMismatch .. => keeps_execYarrowMismatch ..
  | .durableAccept .. => keeps_execDurableAccept ..
  | .mediaWrite .. => keeps_execMediaWrite ..
  | .powerLoss .. => keeps_execPowerLoss ..
  | .startSequence .. => keeps_execStartSequence ..
  | .hostLinkDown .. => keeps_execHostLinkDown ..
  | .hostLinkUp .. => keeps_execHostLinkUp ..
  | .peerLinkDown .. => keeps_execPeerLinkDown ..
  | .hostMemAccess .. => keeps_execHostMemAccess ..
  | .peerAccess .. => keeps_execPeerAccess ..
  | .errorDetected .. => keeps_execErrorDetected ..
  | .poisonConsume .. => keeps_execPoisonConsume ..
  | .regRead .. => keeps_execRegRead ..
  | .regWrite .. => keeps_execRegWrite ..
  | .l2partWrite .. => keeps_execL2partWrite ..
  | .flashLoad .. => keeps_execFlashLoad ..
  | .quiesce .. => keeps_execQuiesce ..
  | .linkrecAccept .. => keeps_execLinkrecAccept ..
  | .linkrecDiscard .. => keeps_execLinkrecDiscard ..
  | .linklog .. => keeps_execLinklog ..
  | .rsvdRead .. => keeps_execRsvdRead ..
  | .fwStage .. => keeps_execFwStage ..
  | .fwActivate .. => keeps_execFwActivate ..
  | .registerWrite .. => keeps_execRegisterWrite ..
  | .vfEnable .. => keeps_execVfEnable ..
  | .vfReset .. => keeps_execVfReset ..
  | .flr .. => keeps_execFlr ..
  | .lockInterface .. => keeps_execLockInterface ..
  | .startInterface .. => keeps_execStartInterface ..
  | .stopInterface .. => keeps_execStopInterface ..
  | .getMeasurements .. => keeps_execGetMeasurements ..
  | .tstatLockChange .. => keeps_execTstatLockChange ..
  | .holdUpEnergyArming .. => keeps_execHoldUpEnergyArming ..
  | .peerLinkUp .. => keeps_execPeerLinkUp ..
  | .hostSnoop .. => keeps_execHostSnoop ..
  | .fenceSWaitEnd .. => keeps_execFenceSWaitEnd ..
  | .spdmKeyExchange .. => keeps_execSpdmKeyExchange ..
  | .ideKm .. => keeps_execIdeKm ..

/-- The next state that an outcome answers, if it answers one, is in canonical form. -/
def NextOk (o : Host.Outcome State Fault Refusal) : Prop := ∀ t, o = .next t → MemOk t

theorem NextOk.next {t : State} (h : MemOk t) : NextOk (.next t) := by
  rintro _ ⟨⟩
  exact h

theorem KeepsNext.nextOk {s : State} {o : Host.Outcome State Fault Refusal} (k : KeepsNext s o) (h : MemOk s) : NextOk o := by
  rintro t rfl
  exact Keeps.ok k h

/-- The turn in `cur` is no part of memory. -/
theorem memOk_withCur {s : State} (h : MemOk s) (c : Cur) : MemOk { s with cur := c } := h

theorem NextOk.ite {c : Prop} [Decidable c] {a b : Ready} (ha : NextOk (runReady a)) (hb : NextOk (runReady b)) :
    NextOk (runReady (if c then a else b)) := by
  split <;> assumption

/-- A control core's turn keeps memory, in what it does itself as in the instruction that it runs. -/
theorem nextOk_coreReady {s : State} (h : MemOk s) (bid : Nat) : NextOk (runReady (s.coreReady bid)) := by
  unfold State.coreReady
  split
  · exact NextOk.next ((keeps_saveStep s bid).ok h)
  split
  · exact NextOk.next ((keeps_settleDrain s bid).ok h)
  split
  · exact NextOk.next h
  next t claimed =>
  have ht : MemOk t := (keeps_claimAll claimed).ok h
  have hr : MemOk (t.reissueCore bid) := (keeps_reissueCore t bid).ok ht
  dsimp only
  split
  · exact NextOk.next ((keeps_beginTask _ bid).ok hr)
  split
  · exact NextOk.next ht
  split
  · exact NextOk.next ((keeps_takeDue _ bid).ok hr)
  split
  next e u fetched => exact KeepsNext.nextOk (keeps_coreStop u bid e) (((keepsM_fetchBytes bid).error fetched).ok hr)
  next bs u fetched =>
    have hu : ∀ c, MemOk { u with cur := c } := memOk_withCur (((keepsM_fetchBytes bid).ok fetched).ok hr)
    split
    · split
      · exact NextOk.next ((keeps_agentPoison _ bid none none).ok (hu _))
      · exact KeepsNext.nextOk (keeps_exec _ _) (hu _)
    · exact NextOk.next ((keeps_takeTrap _ bid 2 _).ok (hu _))

/-- An engine's turn keeps memory, in what it does itself as in the word that it runs. -/
theorem nextOk_engineReady {s : State} (h : MemOk s) (bid : Nat) (e : Engine) : NextOk (runReady (s.engineReady bid e)) := by
  have hr : MemOk (s.reissueWord bid e) := (keeps_reissueWord s bid e).ok h
  unfold State.engineReady
  refine NextOk.ite (NextOk.next h) ?_
  dsimp only
  split
  · exact NextOk.next hr
  split
  · exact NextOk.next ((keeps_agentPoison _ bid _ none).ok hr)
  split
  · exact KeepsNext.nextOk (keeps_exec _ _) (memOk_withCur hr _)
  · exact NextOk.next ((keeps_faultEnd _ bid e _).ok (memOk_withCur hr _))

theorem nextOk_stepEngines (e : Engine) : ∀ (ms : List Nat) {s : State}, MemOk s → NextOk (stepEngines e ms s)
  | [], _, h => NextOk.next h
  | m :: ms, s, h => by
    have hm := nextOk_engineReady h m e
    unfold stepEngines
    split
    next t went => exact nextOk_stepEngines e ms (hm t went)
    next o _ => exact hm

theorem nextOk_lockStep {s : State} (h : MemOk s) (e : Engine) (ms : List Nat) : NextOk (lockStep e ms s) := by
  unfold lockStep
  split
  · exact nextOk_engineReady h _ e
  · split
    · exact nextOk_engineReady h _ e
    · exact nextOk_stepEngines e _ h

theorem memOk_engineTurn {s t : State} {bid : Nat} {ms : List Nat} (h : MemOk s) (ht : s.engineTurn bid = some (t, ms)) : MemOk t := by
  unfold State.engineTurn at ht
  split at ht
  · cases ht
  split at ht
  · split at ht
    · cases ht
    · cases ht
      exact h
  · obtain ⟨u, claimed, hu⟩ := Option.map_eq_some_iff.mp ht
    cases hu
    exact (keeps_claimAll claimed).ok h

/-- The turn of an agent keeps memory. -/
theorem nextOk_turn {s : State} (h : MemOk s) : ∀ who : Agent, NextOk (turn who s)
  | .core bid => nextOk_coreReady h bid
  | .engine bid e => by
    unfold turn
    dsimp only
    split
    · exact NextOk.next h
    next t ms went =>
      have hl := nextOk_lockStep (memOk_engineTurn h went) e ms
      split
      next u stepped => exact NextOk.next ((keeps_noteTurn u bid e _).ok (hl u stepped))
      next o _ => exact hl
  | .event i => by
    unfold turn
    dsimp only
    split
    · exact KeepsNext.nextOk (keeps_exec s i) h
    · exact NextOk.next h

end Sys2Proof.Machine

namespace Sys2Proof.Proofs
open Sys2Proof Sys2Proof.Machine

/-- Settles O58: what passes before a turn keeps memory, and so does the turn, whose every arm is built from operations that do. -/
theorem stepKeepsMemOk : Obligations.StepKeepsMemOk := by
  unfold Obligations.StepKeepsMemOk
  intro s t h hstep
  exact nextOk_turn (memOk_pass h _) _ t hstep

end Sys2Proof.Proofs
end

-- ==== Encoding and decoding (O57) ====
section
/-! SUPPORT. The fields of a word, read back from the word that they were put together to (R219, R227), and for each table of the decoder the
forms that it lists. -/

namespace Sys2Proof

-- One proof at a time: the whole text compiles in one process of bounded memory.
set_option Elab.async false

theorem bytes32_append (w : Word32) :
    w.extractLsb' 24 8 ++ w.extractLsb' 16 8 ++ w.extractLsb' 8 8 ++ w.extractLsb' 0 8 = w := by
  ext i hi
  simp only [BitVec.getElem_append, BitVec.getElem_extractLsb']
  grind

/-- A slice of a slice. -/
theorem slice_of_slice {n : Nat} (w : BitVec n) {a b l m : Nat} (h : b + m ≤ l) :
    (w.extractLsb' a l).extractLsb' b m = w.extractLsb' (a + b) m := by
  ext j hj
  simp [show b + j < l by omega, Nat.add_assoc]

theorem decodeScalar_bytes32 {w : Word32} {i : Instr} (h3 : w.extractLsb' 0 2 = 3#2) (h7 : w.extractLsb' 2 3 ≠ 7#3)
    (h : decode32 w = .ok i) : decodeScalar (bytes32 w) = .ok (i, 4) := by
  have l : (w.extractLsb' 0 8).extractLsb' 0 2 = 3#2 := (slice_of_slice w (by decide)).trans h3
  have m : (w.extractLsb' 0 8).extractLsb' 2 3 ≠ 7#3 := fun hc => h7 ((slice_of_slice w (by decide)).symm.trans hc)
  unfold decodeScalar bytes32
  simp only [l, bytes32_append, h, ne_eq, not_true_eq_false, if_false, m]
  rfl

/-- The fields of a word of 32 bits. -/
structure Fields (w : Word32) (f7 : BitVec 7) (b a : Reg) (f3 : BitVec 3) (d : Reg) (op : BitVec 7) : Prop where
  opcode : fOpcode w = op
  rd : fRd w = d
  funct3 : fFunct3 w = f3
  rs1 : fRs1 w = a
  rs2 : fRs2 w = b
  funct7 : fFunct7 w = f7

theorem fields_rType (f7 : BitVec 7) (b a : Reg) (f3 : BitVec 3) (d : Reg) (op : BitVec 7) :
    Fields (rType f7 b a f3 d op) f7 b a f3 d op := by
  constructor <;> ext j hj <;>
    simp only [BitVec.getElem_extractLsb', BitVec.getLsbD_append] <;> grind

@[simp] theorem low4_ph5 (p : BitVec 4) : low4 (ph5 p) = p := by revert p; decide
@[simp] theorem top4Zero_ph5 (p : BitVec 4) : top4Zero (ph5 p) = true := by revert p; decide
@[simp] theorem low3_q5 (q : BitVec 3) : low3 (q5 q) = q := by revert q; decide
@[simp] theorem top3Zero_q5 (q : BitVec 3) : top3Zero (q5 q) = true := by revert q; decide
@[simp] theorem ofCode_low2_e5 (e : Engine) : Engine.ofCode (low2 (e5 e)) = e := by cases e <;> decide
@[simp] theorem top2Zero_e5 (e : Engine) : top2Zero (e5 e) = true := by cases e <;> decide
@[simp] theorem Engine.ofCode_code (e : Engine) : Engine.ofCode e.code = e := by cases e <;> decide
@[simp] theorem low3_funct7 (c : BitVec 3) : (0#4 ++ c : BitVec 7).extractLsb' 0 3 = c := by revert c; decide
@[simp] theorem high4_funct7 (c : BitVec 3) : (0#4 ++ c : BitVec 7).extractLsb' 3 4 = 0#4 := by revert c; decide

/-- The rd field of an `epush`: a number of elements and an engine (R221). -/
theorem epush_rd (n : BitVec 2) (e : Engine) : top4Zero (0#1 ++ n ++ e.code) = true ∧ low2 (0#1 ++ n ++ e.code) = e.code
    ∧ (0#1 ++ n ++ e.code : Reg).extractLsb' 2 2 = n := by
  cases e <;> revert n <;> decide

@[simp] theorem boolBit_eq_one (b : Bool) : (boolBit b = 1#1) = (b = true) := by cases b <;> simp [boolBit]
@[simp] theorem ofFunct5_funct5 (op : AmoOp) : AmoOp.ofFunct5 op.funct5 = some op := by cases op <;> rfl
@[simp] theorem ofFunct3_funct3 (k : BranchCond) : BranchCond.ofFunct3 k.funct3 = some k := by cases k <;> rfl
@[simp] theorem IntRR.ofCode_code (op : IntRR) : IntRR.ofCode op.code = some op := by cases op <;> decide

theorem fields_iType (imm : BitVec 12) (a : Reg) (f3 : BitVec 3) (d : Reg) (op : BitVec 7) :
    Fields (iType imm a f3 d op) (imm.extractLsb' 5 7) (imm.extractLsb' 0 5) a f3 d op := by
  constructor <;> ext j hj <;> simp only [BitVec.getElem_extractLsb', BitVec.getLsbD_append] <;> grind

theorem fImm12_iType (imm : BitVec 12) (a : Reg) (f3 : BitVec 3) (d : Reg) (op : BitVec 7) :
    fImm12 (iType imm a f3 d op) = imm := by
  ext j hj; simp only [BitVec.getElem_extractLsb', BitVec.getLsbD_append]; grind

theorem decode32_rType {f7 b a f3 d op} {i : Instr} (h : ∀ w, Fields w f7 b a f3 d op → decode32 w = .ok i) :
   decode32 (rType f7 b a f3 d op) = .ok i := h _ (fields_rType ..)

theorem decode32_iType {imm a f3 d op} {i : Instr}
   (h : ∀ w, Fields w (imm.extractLsb' 5 7) (imm.extractLsb' 0 5) a f3 d op → fImm12 w = imm → decode32 w = .ok i) :
   decode32 (iType imm a f3 d op) = .ok i := h _ (fields_iType ..) (fImm12_iType ..)

theorem shift_imm (f sh : BitVec 6) : (f ++ sh).extractLsb' 6 6 = f ∧ (f ++ sh).extractLsb' 0 6 = sh := by
  refine ⟨?_, ?_⟩ <;> ext j hj <;> simp only [BitVec.getElem_extractLsb', BitVec.getLsbD_append] <;> grind

/-- The count of a shift and the field above it are parts of the immediate. -/
theorem shift_fields {w : Word32} {f sh : BitVec 6} (h : fImm12 w = f ++ sh) : w.extractLsb' 26 6 = f ∧ w.extractLsb' 20 6 = sh := by
  obtain ⟨hf, hs⟩ := shift_imm f sh
  constructor
  · rw [← hf, ← h, slice_of_slice w (by decide)]
  · rw [← hs, ← h, slice_of_slice w (by decide)]

theorem fence_imm (fm pre suc : BitVec 4) : (fm ++ pre ++ suc).extractLsb' 8 4 = fm ∧ (fm ++ pre ++ suc).extractLsb' 4 4 = pre
    ∧ (fm ++ pre ++ suc).extractLsb' 0 4 = suc := by
  refine ⟨?_, ?_, ?_⟩ <;> ext j hj <;> simp only [BitVec.getElem_extractLsb', BitVec.getLsbD_append] <;> grind

theorem fence_fields {w : Word32} {fm pre suc : BitVec 4} (h : fImm12 w = fm ++ pre ++ suc) :
    w.extractLsb' 28 4 = fm ∧ w.extractLsb' 24 4 = pre ∧ w.extractLsb' 20 4 = suc := by
  obtain ⟨hf, hp, hs⟩ := fence_imm fm pre suc
  refine ⟨?_, ?_, ?_⟩
  · rw [← hf, ← h, slice_of_slice w (by decide)]
  · rw [← hp, ← h, slice_of_slice w (by decide)]
  · rw [← hs, ← h, slice_of_slice w (by decide)]

theorem store_imm (imm : BitVec 12) : imm.extractLsb' 5 7 ++ imm.extractLsb' 0 5 = imm := by
  ext j hj; simp only [BitVec.getElem_append, BitVec.getElem_extractLsb']; grind

theorem fields_amoWord (f5 : BitVec 5) (dbl aq rl : Bool) (d a b : Reg) :
    Fields (amoWord f5 dbl aq rl d a b) (f5 ++ boolBit aq ++ boolBit rl) b a (if dbl then 3#3 else 2#3) d 0b0101111#7 := by
  unfold amoWord
  generalize boolBit aq = x, boolBit rl = y, (if dbl then 3#3 else 2#3) = f3
  constructor <;> ext j hj <;> simp only [BitVec.getElem_extractLsb', BitVec.getLsbD_append] <;> grind

theorem amo_funct7 (f5 : BitVec 5) (x y : BitVec 1) : (f5 ++ x ++ y).extractLsb' 2 5 = f5 ∧ (f5 ++ x ++ y).extractLsb' 1 1 = x
    ∧ (f5 ++ x ++ y).extractLsb' 0 1 = y := by
  refine ⟨?_, ?_, ?_⟩ <;> ext j hj <;> simp only [BitVec.getElem_extractLsb', BitVec.getLsbD_append] <;> grind

theorem amo_fields {w : Word32} {f5 : BitVec 5} {x y : BitVec 1} (h : fFunct7 w = f5 ++ x ++ y) :
    w.extractLsb' 27 5 = f5 ∧ w.extractLsb' 26 1 = x ∧ w.extractLsb' 25 1 = y := by
  obtain ⟨hf, hx, hy⟩ := amo_funct7 f5 x y
  refine ⟨?_, ?_, ?_⟩
  · rw [← hf, ← h, slice_of_slice w (by decide)]
  · rw [← hx, ← h, slice_of_slice w (by decide)]
  · rw [← hy, ← h, slice_of_slice w (by decide)]

theorem jal_fields (d : Reg) (off : BitVec 20) {w : Word32}
   (hw : w = off.extractLsb' 19 1 ++ off.extractLsb' 0 10 ++ off.extractLsb' 10 1 ++ off.extractLsb' 11 8 ++ d ++ 0b1101111#7) :
   fOpcode w = 0b1101111#7 ∧ fRd w = d ∧ (w.extractLsb' 31 1 ++ w.extractLsb' 12 8 ++ w.extractLsb' 20 1 ++ w.extractLsb' 21 10) = off := by
  subst hw
  refine ⟨?_, ?_, ?_⟩ <;> ext j hj <;> simp only [BitVec.getElem_extractLsb', BitVec.getLsbD_append, BitVec.getElem_append, BitVec.getLsbD_extractLsb'] <;> grind

theorem branch_fields (f3 : BitVec 3) (a b : Reg) (off : BitVec 12) {w : Word32}
   (hw : w = off.extractLsb' 11 1 ++ off.extractLsb' 4 6 ++ b ++ a ++ f3 ++ off.extractLsb' 0 4 ++ off.extractLsb' 10 1 ++
    0b1100011#7) :
   fOpcode w = 0b1100011#7 ∧ fFunct3 w = f3 ∧ fRs1 w = a ∧ fRs2 w = b ∧ 
     (w.extractLsb' 31 1 ++ w.extractLsb' 7 1 ++ w.extractLsb' 25 6 ++ w.extractLsb' 8 4) = off := by
  subst hw
  refine ⟨?_, ?_, ?_, ?_, ?_⟩ <;> ext j hj <;> simp only [BitVec.getElem_extractLsb', BitVec.getLsbD_append, BitVec.getElem_append, BitVec.getLsbD_extractLsb'] <;> grind

theorem upper_fields (imm : BitVec 20) (d : Reg) (op : BitVec 7) {w : Word32} (hw : w = imm ++ d ++ op) :
    fOpcode w = op ∧ fRd w = d ∧ w.extractLsb' 12 20 = imm := by
  subst hw
  refine ⟨?_, ?_, ?_⟩ <;> ext j hj <;> simp only [BitVec.getElem_extractLsb', BitVec.getLsbD_append] <;> grind

theorem ecall_fields (e : BitVec 2) (r : BitVec 13) {w : Word32}
    (hw : w = r.extractLsb' 0 12 ++ 0#2 ++ r.extractLsb' 12 1 ++ e ++ 0#3 ++ 0#5 ++ custom1) :
    fOpcode w = custom1 ∧ fFunct3 w = 0#3 ∧ fRd w = 0#5 ∧ w.extractLsb' 18 2 = 0#2 ∧ w.extractLsb' 15 2 = e
      ∧ w.extractLsb' 17 1 ++ w.extractLsb' 20 12 = r := by
  subst hw
  refine ⟨?_, ?_, ?_, ?_, ?_, ?_⟩ <;> ext j hj <;> simp only [BitVec.getElem_extractLsb', BitVec.getLsbD_append, BitVec.getElem_append, BitVec.getLsbD_extractLsb'] <;> grind

theorem decode32_upper {imm : BitVec 20} {d : Reg} {op : BitVec 7} {i : Instr}
    (h : ∀ w, fOpcode w = op → fRd w = d → w.extractLsb' 12 20 = imm → decode32 w = .ok i) : decode32 (imm ++ d ++ op) = .ok i := by
  obtain ⟨ho, hd, hi⟩ := upper_fields imm d op rfl
  exact h _ ho hd hi

theorem decode32_jalWord {d : Reg} {off : BitVec 20} {i : Instr}
    (h : ∀ w, fOpcode w = 0b1101111#7 → fRd w = d →
      w.extractLsb' 31 1 ++ w.extractLsb' 12 8 ++ w.extractLsb' 20 1 ++ w.extractLsb' 21 10 = off → decode32 w = .ok i) :
    decode32 (off.extractLsb' 19 1 ++ off.extractLsb' 0 10 ++ off.extractLsb' 10 1 ++ off.extractLsb' 11 8 ++ d ++ 0b1101111#7) = .ok i := by
  obtain ⟨ho, hd, hi⟩ := jal_fields d off rfl
  exact h _ ho hd hi

theorem decode32_branchWord {f3 : BitVec 3} {a b : Reg} {off : BitVec 12} {i : Instr}
    (h : ∀ w, fOpcode w = 0b1100011#7 → fFunct3 w = f3 → fRs1 w = a → fRs2 w = b →
      w.extractLsb' 31 1 ++ w.extractLsb' 7 1 ++ w.extractLsb' 25 6 ++ w.extractLsb' 8 4 = off → decode32 w = .ok i) :
    decode32 (off.extractLsb' 11 1 ++ off.extractLsb' 4 6 ++ b ++ a ++ f3 ++ off.extractLsb' 0 4 ++ off.extractLsb' 10 1 ++
      0b1100011#7) = .ok i := by
  obtain ⟨ho, h3, ha, hb, hi⟩ := branch_fields f3 a b off rfl
  exact h _ ho h3 ha hb hi

theorem decode32_ecallWord {e : BitVec 2} {r : BitVec 13} {i : Instr}
    (h : ∀ w, fOpcode w = custom1 → fFunct3 w = 0#3 → fRd w = 0#5 → w.extractLsb' 18 2 = 0#2 → w.extractLsb' 15 2 = e →
      w.extractLsb' 17 1 ++ w.extractLsb' 20 12 = r → decode32 w = .ok i) :
    decode32 (r.extractLsb' 0 12 ++ 0#2 ++ r.extractLsb' 12 1 ++ e ++ 0#3 ++ 0#5 ++ custom1) = .ok i := by
  obtain ⟨ho, h3, hd, hz, he, hr⟩ := ecall_fields e r rfl
  exact h _ ho h3 hd hz he hr

theorem decode32_amoWord {f5 : BitVec 5} {dbl aq rl : Bool} {d a b : Reg} {i : Instr}
    (h : ∀ w, Fields w (f5 ++ boolBit aq ++ boolBit rl) b a (if dbl then 3#3 else 2#3) d 0b0101111#7 →
      w.extractLsb' 27 5 = f5 → w.extractLsb' 26 1 = boolBit aq → w.extractLsb' 25 1 = boolBit rl → decode32 w = .ok i) :
    decode32 (amoWord f5 dbl aq rl d a b) = .ok i := by
  have hw := fields_amoWord f5 dbl aq rl d a b
  obtain ⟨h5, ha, hr⟩ := amo_fields hw.funct7
  exact h _ hw h5 ha hr

theorem funct5_ne_lr (op : AmoOp) : op.funct5 ≠ 2#5 := by cases op <;> decide

theorem funct5_ne_sc (op : AmoOp) : op.funct5 ≠ 3#5 := by cases op <;> decide

theorem code_ne_zextH (op : IntRR) : op.code ≠ (4#7, 4#3, true) := by cases op <;> decide

theorem op_imm (w : Word32) : w.extractLsb' 26 6 = (fImm12 w).extractLsb' 6 6 ∧ fFunct7 w = (fImm12 w).extractLsb' 5 7 :=
  ⟨(slice_of_slice w (a := 20) (b := 6) (l := 12) (m := 6) (by decide)).symm, (slice_of_slice w (a := 20) (b := 5) (l := 12) (m := 7) (by decide)).symm⟩

theorem funct7_ne_zero {w : Word32} (h : w.extractLsb' 26 6 ≠ 0#6) : fFunct7 w ≠ 0#7 := by
  intro h0
  rw [← slice_of_slice w (a := 25) (b := 1) (l := 7) (m := 6) (by decide)] at h
  exact h ((congrArg (BitVec.extractLsb' 1 6) h0).trans (by decide))

theorem shift32 {sh : BitVec 6} (h : sh.toNat < 32) : 0#1 ++ sh.extractLsb' 0 5 = sh := by revert sh; decide

theorem decode32_encode32 (i : Instr) (hok : i.scalarOk = true) : decode32 (encode32 i) = .ok i := by
  cases i
  case xlat | xlatW | hinv | hstat | qpush | qpop | qpeek | qlvl | qwm | waitt | prm | ldh | sdh =>
    refine decode32_rType fun w h => ?_
    unfold decode32
    simp only [h.opcode]
    unfold decodeCustom0
    simp only [h.funct3]
    simp [h.rd, h.rs1, h.rs2, h.funct7, acceptScalar, hok]
  case emark | rdvs | rdvw | nsub | tdone | gang | ungang | csyncSet | csyncW | phsw =>
    refine decode32_rType fun w h => ?_
    unfold decode32
    simp only [h.opcode]
    unfold decodeCustom1
    simp only [h.funct3]
    simp [h.rd, h.rs1, h.rs2, h.funct7, acceptScalar, hok]
  case epush e a n =>
    refine decode32_rType fun w h => ?_
    obtain ⟨hz, he, hn⟩ := epush_rd n e
    unfold decode32
    simp only [h.opcode]
    unfold decodeCustom1
    simp only [h.funct3]
    simp [h.rd, h.rs1, h.rs2, h.funct7, acceptScalar, hok, hz, he, hn]
  case ecall e r =>
    refine decode32_ecallWord fun w ho h3 hd hz he hr => ?_
    unfold decode32
    simp only [ho]
    unfold decodeCustom1
    simp only [h3]
    simp [hd, hz, he, hr, acceptScalar, hok]
  case safept =>
    refine decode32_iType fun w h hi => ?_
    unfold decode32
    simp only [h.opcode]
    unfold decodeCustom1
    simp only [h.funct3]
    simp [h.rd, h.rs1, hi, acceptScalar, hok]
  case dopen | dopenW | dclose | dbind | dunbind | dbset | dqry | pbar | pwb | fenceS =>
    refine decode32_rType fun w h => ?_
    unfold decode32
    simp only [h.opcode]
    unfold decodeCustom2
    simp only [h.funct3]
    simp [h.rd, h.rs1, h.rs2, h.funct7, acceptScalar, hok]
  case vcfp | vcrep | vcsync | fqpop | fqrep | ergr =>
    refine decode32_rType fun w h => ?_
    unfold decode32
    simp only [h.opcode]
    unfold decodeCustom3
    simp only [h.funct3]
    simp [h.rd, h.rs1, h.rs2, h.funct7, acceptScalar, hok]
  case load k d a imm =>
    refine decode32_iType fun w h hi => ?_
    unfold decode32
    simp only [h.opcode]
    unfold decodeLoad
    simp only [h.funct3]
    cases k <;> simp [h.rd, h.rs1, hi, LoadKind.funct3]
  case store k b a imm =>
    refine decode32_rType fun w h => ?_
    unfold decode32
    simp only [h.opcode]
    unfold decodeStore
    simp only [h.funct3]
    cases k <;> simp [h.rd, h.rs1, h.rs2, h.funct7, StoreKind.funct3, store_imm]
  case amo op dbl aq rl d a b =>
    refine decode32_amoWord fun w h h5 ha hr => ?_
    unfold decode32
    simp only [h.opcode]
    unfold decodeAmo
    cases dbl <;> simp [h.rd, h.rs1, h.rs2, h.funct3, h5, ha, hr, funct5_ne_lr, funct5_ne_sc]
  case lr dbl aq rl d a =>
    refine decode32_amoWord fun w h h5 ha hr => ?_
    unfold decode32
    simp only [h.opcode]
    unfold decodeAmo
    cases dbl <;> simp [h.rd, h.rs1, h.rs2, h.funct3, h5, ha, hr]
  case sc dbl aq rl d a b =>
    refine decode32_amoWord fun w h h5 ha hr => ?_
    unfold decode32
    simp only [h.opcode]
    unfold decodeAmo
    cases dbl <;> simp [h.rd, h.rs1, h.rs2, h.funct3, h5, ha, hr]
  case branch k a b off =>
    refine decode32_branchWord fun w ho h3 ha hb hi => ?_
    unfold decode32
    simp [ho, h3, ha, hb, hi]
  case intRR op d a b =>
    refine decode32_rType fun w h => ?_
    have hz := code_ne_zextH op
    have hc := IntRR.ofCode_code op
    revert h hz hc
    generalize op.code = code
    obtain ⟨f7, f3, w32⟩ := code
    intro h hz hc
    cases w32
    · unfold decode32
      simp only [h.opcode, Bool.false_eq_true, if_false]
      unfold decodeOp
      simp [h.rd, h.rs1, h.rs2, h.funct7, h.funct3, hc]
    · unfold decode32
      simp only [h.opcode, if_true]
      unfold decodeOp
      have hz' : f7 = 4#7 → f3 ≠ 4#3 := fun h7 h3 => hz (by rw [h7, h3])
      simp +contextual [h.rd, h.rs1, h.rs2, h.funct7, h.funct3, hc, hz']
  case intRI op d a imm =>
    cases op
    case addiw =>
      refine decode32_iType fun w h hi => ?_
      unfold decode32
      simp only [h.opcode]
      unfold decodeOpImm32
      simp only [h.funct3]
      simp [h.rd, h.rs1, hi]
    all_goals
      refine decode32_iType fun w h hi => ?_
      unfold decode32
      simp only [h.opcode]
      unfold decodeOpImm
      simp only [h.funct3]
      simp [h.rd, h.rs1, hi]
  case sfenceVma a b =>
    refine decode32_rType fun w h => ?_
    have hne : ∀ c : BitVec 12, c.extractLsb' 5 7 ≠ 9#7 → fImm12 w ≠ c := by
      rintro c hc rfl
      exact hc ((op_imm w).2.symm.trans h.funct7)
    unfold decode32
    simp only [h.opcode]
    unfold decodeSystem
    simp only [h.funct3]
    simp only [hne 0x000#12 (by decide), hne 0x001#12 (by decide), hne 0x102#12 (by decide), hne 0x105#12 (by decide), h.rd, h.rs1,
      h.rs2, h.funct7, false_and, if_true, if_false]
  case fence fm pre suc a d =>
    refine decode32_iType fun w h hi => ?_
    obtain ⟨hf, hp, hs⟩ := fence_fields hi
    have ht : isTsoFence fm pre suc = false := (Bool.not_eq_true' _).mp hok
    unfold decode32
    simp only [h.opcode]
    unfold decodeMiscMem
    simp only [h.funct3]
    simp [h.rd, h.rs1, hf, hp, hs, ht]
  case fenceTso a d =>
    refine decode32_iType fun w h hi => ?_
    have hm : fImm12 w = 8#4 ++ 3#4 ++ 3#4 := by rw [hi]; decide
    obtain ⟨hf, hp, hs⟩ := fence_fields hm
    unfold decode32
    simp only [h.opcode]
    unfold decodeMiscMem
    simp only [h.funct3]
    simp [h.rd, h.rs1, hf, hp, hs, isTsoFence]
  case fenceI =>
    refine decode32_iType fun w h hi => ?_
    unfold decode32
    simp only [h.opcode]
    unfold decodeMiscMem
    simp only [h.funct3]
    simp [h.rd, h.rs1, hi]
  case csrAccess op useImm csr d a =>
    refine decode32_iType fun w h hi => ?_
    unfold decode32
    simp only [h.opcode]
    unfold decodeSystem
    simp only [h.funct3]
    cases op <;> cases useImm <;> simp [h.rd, h.rs1, hi, CsrOp.funct3]
  case standardEcall | ebreak | sret | wfi =>
    refine decode32_iType fun w h hi => ?_
    unfold decode32
    simp only [h.opcode]
    unfold decodeSystem
    simp only [h.funct3]
    simp [h.rd, h.rs1, hi]
  case jalr =>
    refine decode32_iType fun w h hi => ?_
    unfold decode32
    simp only [h.opcode]
    simp [h.rd, h.rs1, h.funct3, hi]
  case lui d imm =>
    refine decode32_upper fun w ho hd hi => ?_
    unfold decode32
    simp only [ho, hd, hi]
  case auipc d imm =>
    refine decode32_upper fun w ho hd hi => ?_
    unfold decode32
    simp only [ho, hd, hi]
  case jal d off =>
    refine decode32_jalWord fun w ho hd hi => ?_
    unfold decode32
    simp only [ho, hd, hi]
  case intShift op d a sh =>
    cases op
    case slliw | srliw | sraiw | roriw =>
      have hs : 0#1 ++ sh.extractLsb' 0 5 = sh := shift32 (of_decide_eq_true hok)
      refine decode32_rType fun w h => ?_
      unfold decode32
      simp only [h.opcode]
      unfold decodeOpImm32
      simp only [h.funct3]
      simp [h.rd, h.rs1, h.rs2, h.funct7, hs]
    case slliUw =>
      refine decode32_iType fun w h hi => ?_
      obtain ⟨hf, hs⟩ := shift_fields hi
      unfold decode32
      simp only [h.opcode]
      unfold decodeOpImm32
      simp only [h.funct3]
      simp [h.rd, h.rs1, funct7_ne_zero (by rw [hf]; decide), hf, hs]
    all_goals
      refine decode32_iType fun w h hi => ?_
      obtain ⟨hf, hs⟩ := shift_fields hi
      unfold decode32
      simp only [h.opcode]
      unfold decodeOpImm
      simp only [h.funct3]
      simp [h.rd, h.rs1, hf, hs]
  case intUnary op d a =>
    cases op
    case zextH =>
      refine decode32_rType fun w h => ?_
      unfold decode32
      simp only [h.opcode]
      unfold decodeOp
      simp [h.rd, h.rs1, h.rs2, h.funct7, h.funct3]
    case clzw | ctzw | cpopw =>
      refine decode32_iType fun w h hi => ?_
      unfold decode32
      simp only [h.opcode]
      unfold decodeOpImm32
      simp only [h.funct3]
      obtain ⟨h6, h7⟩ := op_imm w
      simp [h.rd, h.rs1, h6, h7, hi]
    all_goals
      refine decode32_iType fun w h hi => ?_
      unfold decode32
      simp only [h.opcode]
      unfold decodeOpImm
      simp only [h.funct3]
      obtain ⟨h6, -⟩ := op_imm w
      simp [h.rd, h.rs1, h6, hi]
  all_goals cases hok

theorem low_of_decode32 {w : Word32} {i : Instr} (h : decode32 w = .ok i) :
    w.extractLsb' 0 2 = 3#2 ∧ w.extractLsb' 2 3 ≠ 7#3 := by
  have l : w.extractLsb' 0 2 = (fOpcode w).extractLsb' 0 2 := (slice_of_slice w (a := 0) (b := 0) (l := 7) (m := 2) (by decide)).symm
  have m : w.extractLsb' 2 3 = (fOpcode w).extractLsb' 2 3 := (slice_of_slice w (a := 0) (b := 2) (l := 7) (m := 3) (by decide)).symm
  rw [l, m]
  unfold decode32 at h
  split at h
  all_goals first | (rename_i ho; rw [ho]; decide) | cases h

theorem decodeScalar_encode32 (i : Instr) (hok : i.scalarOk = true) : decodeScalar (bytes32 (encode32 i)) = .ok (i, 4) := by
  have h := decode32_encode32 i hok
  obtain ⟨h3, h7⟩ := low_of_decode32 h
  exact decodeScalar_bytes32 h3 h7 h

/-- The parts of an operation word (R227). -/
structure WordFields (w : Half) (op : BitVec 6) (m : BitVec 9) : Prop where
  kind : w.extractLsb' 15 1 = 0#1
  opcode : w.extractLsb' 9 6 = op
  modifier : w.extractLsb' 0 9 = m

theorem wordFields_opWord (op : BitVec 6) (m : BitVec 9) : WordFields (opWord op m) op m := by
  constructor <;> ext j hj <;> simp only [BitVec.getElem_extractLsb', BitVec.getLsbD_append] <;> grind

/-- The modifiers, taken apart again. -/
theorem vMod_fields (g : BitVec 3) (x : BitVec 1) (s : BitVec 2) (v : BitVec 3) :
    (g ++ x ++ s ++ v).extractLsb' 6 3 = g ∧ (g ++ x ++ s ++ v).extractLsb' 5 1 = x
      ∧ (g ++ x ++ s ++ v).extractLsb' 3 2 = s ∧ (g ++ x ++ s ++ v).extractLsb' 0 3 = v := by
  refine ⟨?_, ?_, ?_, ?_⟩ <;> ext j hj <;> simp only [BitVec.getElem_extractLsb', BitVec.getLsbD_append] <;> grind

theorem kMod_fields (d s : BitVec 4) :
    (kMod d s).extractLsb' 8 1 = 0#1 ∧ (kMod d s).extractLsb' 4 4 = d ∧ (kMod d s).extractLsb' 0 4 = s := by
  refine ⟨?_, ?_, ?_⟩ <;> ext j hj <;> simp only [BitVec.getElem_extractLsb', BitVec.getLsbD_append] <;> grind

theorem cMod_fields (p : BitVec 3) (s d g : BitVec 2) :
    (cMod p s d g).extractLsb' 6 3 = p ∧ (cMod p s d g).extractLsb' 4 2 = s ∧ (cMod p s d g).extractLsb' 2 2 = d
      ∧ (cMod p s d g).extractLsb' 0 2 = g := by
  refine ⟨?_, ?_, ?_, ?_⟩ <;> ext j hj <;> simp only [BitVec.getElem_extractLsb', BitVec.getLsbD_append] <;> grind

theorem mMod_fields (c : BitVec 2) (x : BitVec 1) (f : BitVec 4) (l : BitVec 2) :
    (c ++ x ++ f ++ l).extractLsb' 7 2 = c ∧ (c ++ x ++ f ++ l).extractLsb' 6 1 = x ∧ (c ++ x ++ f ++ l).extractLsb' 2 4 = f
      ∧ (c ++ x ++ f ++ l).extractLsb' 0 2 = l := by
  refine ⟨?_, ?_, ?_, ?_⟩ <;> ext j hj <;> simp only [BitVec.getElem_extractLsb', BitVec.getLsbD_append] <;> grind
/-- Two parts of a modifier, the upper one zero. -/
theorem zeroMod_fields {n : Nat} (k : Nat) (l : BitVec n) : (0#k ++ l).extractLsb' 0 n = l ∧ (0#k ++ l).extractLsb' n k = 0#k := by
  refine ⟨?_, ?_⟩ <;> ext j hj <;> simp only [BitVec.getElem_extractLsb', BitVec.getLsbD_append] <;> grind

theorem decodeWord_opWord {e : Engine} {op : BitVec 6} {m : BitVec 9} {i : Instr}
    (h : ∀ w, WordFields w op m → decodeWord e w = .ok i) : decodeWord e (opWord op m) = .ok i := h _ (wordFields_opWord op m)

theorem decodeWord_common {e : Engine} {w : Half} {op : BitVec 6} {m : BitVec 9} (h : WordFields w op m) (hop : op.toNat < 20) :
    decodeWord e w = decodeCommon e op.toNat m := by
  simp [decodeWord, h.kind, h.opcode, h.modifier, hop]

theorem decodeWord_own {e : Engine} {w : Half} {op : BitVec 6} {m : BitVec 9} (h : WordFields w op m) (hop : ¬ op.toNat < 20) :
    decodeWord e w = match e with
      | .mx => decodeMatrix op.toNat m | .vx => decodeVector op.toNat m
      | .cx => decodeCopy op.toNat m | .sx => decodeSelect op.toNat m := by
  cases e <;> simp [decodeWord, h.kind, h.opcode, h.modifier, hop]

theorem levelMod_fields (k l : BitVec 2) : (0#5 ++ k ++ l).extractLsb' 4 5 = 0#5 ∧ (0#5 ++ k ++ l).extractLsb' 2 2 = k
    ∧ (0#5 ++ k ++ l).extractLsb' 0 2 = l := by revert k l; decide

theorem histMod_fields (d : BitVec 2) (f : BitVec 4) : (0#3 ++ d ++ f).extractLsb' 6 3 = 0#3 ∧ (0#3 ++ d ++ f).extractLsb' 4 2 = d
    ∧ (0#3 ++ d ++ f).extractLsb' 0 4 = f := by revert d f; decide

theorem formatMod_fields (f : BitVec 4) : (0#5 ++ f).extractLsb' 6 3 = 0#3 ∧ (0#5 ++ f).extractLsb' 4 2 = 0#2
    ∧ (0#5 ++ f).extractLsb' 0 4 = f := by revert f; decide

theorem bankMod_fields (x : BitVec 1) : (0#2 ++ x ++ 0#6).extractLsb' 7 2 = 0#2 ∧ (0#2 ++ x ++ 0#6).extractLsb' 0 6 = 0#6
    ∧ (0#2 ++ x ++ 0#6).extractLsb' 6 1 = x := by revert x; decide

theorem accoMod_fields (x : BitVec 1) (f : BitVec 4) : (0#2 ++ x ++ 0#2 ++ f).extractLsb' 7 2 = 0#2 ∧ (0#2 ++ x ++ 0#2 ++ f).extractLsb' 4 2 = 0#2
    ∧ (0#2 ++ x ++ 0#2 ++ f).extractLsb' 6 1 = x ∧ (0#2 ++ x ++ 0#2 ++ f).extractLsb' 0 4 = f := by revert x f; decide

theorem mulOp (r : BitVec 2) : (5#4 ++ r).toNat = 20 + r.toNat ∧ (6#4 ++ r).toNat = 24 + r.toNat ∧ (7#4 ++ r).toNat = 28 + r.toNat := by
  revert r; decide

theorem bitVec2_cases : ∀ r : BitVec 2, r = 0#2 ∨ r = 1#2 ∨ r = 2#2 ∨ r = 3#2 := by decide

theorem literal_fields (v : BitVec 15) : (1#1 ++ v).extractLsb' 15 1 = 1#1 ∧ (1#1 ++ v).extractLsb' 0 15 = v := by
  refine ⟨?_, ?_⟩ <;> ext j hj <;> simp only [BitVec.getElem_extractLsb', BitVec.getLsbD_append] <;> grind

theorem decodeWord_literal {e : Engine} {w : Half} {v : BitVec 15} (hk : w.extractLsb' 15 1 = 1#1) (hv : w.extractLsb' 0 15 = v) :
    decodeWord e w = .ok (.literal v) := by
  simp [decodeWord, hk, hv]

/-- Every word that is legal in an engine decodes there from its own encoding: by the table of opcodes that lists it. -/
theorem decodeWord_encodeWord (e : Engine) (i : Instr) (hok : i.wordOk e = true) : decodeWord e (encodeWord i) = .ok i := by
  cases i
  case literal v =>
    obtain ⟨hk, hv⟩ := literal_fields v
    exact decodeWord_literal hk hv
  case lix | dup | drop | swap | rot | rotD | mark | call | ret | nop | loop | endl | tokw | tokr | lset | lget | fsel | qin | qout =>
    refine decodeWord_opWord fun w h => ?_
    rw [decodeWord_common h (by decide)]
    simp [decodeCommon, acceptWord, hok, levelMod_fields, zeroMod_fields 5, zeroMod_fields 6, zeroMod_fields 7]
  case cpy | cpy2 | cpyz | gath | scat | pfch | cpyg | cpyd | fill | rfeed | dln =>
    obtain rfl : e = .cx := by cases e <;> first | rfl | cases hok
    refine decodeWord_opWord fun w h => ?_
    rw [decodeWord_own h (by decide)]
    simp [decodeCopy, acceptWord, hok, cMod_fields]
  case skey | selk | selp | cmpk | hist =>
    obtain rfl : e = .sx := by cases e <;> first | rfl | cases hok
    refine decodeWord_opWord fun w h => ?_
    rw [decodeWord_own h (by decide)]
    simp [decodeSelect, acceptWord, hok, formatMod_fields, histMod_fields]
  case vadd | vsub | vmul | vfma | vmax | vmin | vabs | vneg | vcvt | vexp | vlog | vrcp | vrsq | vcmp | vsel | vred | vscan
      | vbsr | vperm | vand | vor | vxor | vshl | vshr | vmov | vbc | vclamp | vstub | vsoft =>
    obtain rfl : e = .vx := by cases e <;> first | rfl | cases hok
    refine decodeWord_opWord fun w h => ?_
    rw [decodeWord_own h (by decide)]
    simp [decodeVector, acceptWord, hok, vMod_fields]
  case dset | dget | pgs | kld | kst | kor | kand | kxor | knot | kbitTst | kbitSet | kbitClr | kpop | kget | kset =>
    obtain rfl : e = .vx := by cases e <;> first | rfl | cases hok
    refine decodeWord_opWord fun w h => ?_
    rw [decodeWord_own h (by decide)]
    simp [decodeVector, acceptWord, hok, kMod_fields, zeroMod_fields 4, zeroMod_fields 6]
  case mm r _ _ _ _ | mml r _ _ _ _ | mmm r _ _ _ _ =>
    obtain rfl : e = .mx := by cases e <;> first | rfl | cases hok
    refine decodeWord_opWord fun w h => ?_
    obtain ⟨h5, h6, h7⟩ := mulOp r
    rw [decodeWord_own h (by omega)]
    simp only [h5, h6, h7]
    rcases bitVec2_cases r with rfl | rfl | rfl | rfl <;> simp [decodeMatrix, acceptWord, hok, mMod_fields]
  case mpb | acco | accz | accg | rng | fte | draw =>
    obtain rfl : e = .mx := by cases e <;> first | rfl | cases hok
    refine decodeWord_opWord fun w h => ?_
    rw [decodeWord_own h (by decide)]
    simp [decodeMatrix, acceptWord, hok, bankMod_fields, accoMod_fields, zeroMod_fields 5, zeroMod_fields 7]
  all_goals cases hok

end Sys2Proof

namespace Sys2Proof.Proofs
open Sys2Proof Sys2Proof.Machine

/-- Settles O57, by the tables of the decoder: each form's fields are read back from its word, and lead to its own entry. -/
theorem roundTrip : Obligations.RoundTrip := by
  unfold Obligations.RoundTrip
  exact ⟨decodeScalar_encode32, decodeWord_encodeWord⟩

end Sys2Proof.Proofs
end

-- ==== Which steps fault (O59) ====
section
/-! SUPPORT. A turn of a core or an engine answers a next state, whatever stops it; only a step from outside can name what does not exist. -/

namespace Sys2Proof

open Sys2Proof.Machine

-- One proof at a time: the whole text compiles in one process of bounded memory.
set_option Elab.async false

theorem runs_next (t : State) : Runs (.next t) := ⟨t, rfl⟩

theorem Runs.ite {c : Prop} [Decidable c] {o p : Host.Outcome State Fault Refusal} (ho : Runs o) (hp : Runs p) :
    Runs (if c then o else p) := by
  split <;> assumption

/-- A control core's instruction that stops short still gives a next state. -/
theorem runs_coreStop (s : State) (bid : Nat) (x : Stop) : Runs (s.coreStop bid x) := by
  cases x
  case access => exact Runs.ite (runs_next _) (runs_next _)
  all_goals exact runs_next _

theorem runs_wordStop (s : State) (bid : Nat) (e : Engine) (x : Stop) : Runs (s.wordStop bid e x) := by
  cases x
  case access => exact Runs.ite (runs_next _) (Runs.ite (runs_next _) (runs_next _))
  all_goals exact runs_next _

theorem runs_runCc (body : M Unit) (s : State) : Runs (runCc body s) := by
  unfold runCc
  split
  · exact runs_next _
  · exact runs_coreStop ..

theorem runs_runJump (body : M Word) (s : State) : Runs (runJump body s) := by
  unfold runJump
  split
  · exact runs_next _
  · exact runs_coreStop ..

theorem runs_runWord (body : Engine → M Flow) (s : State) : Runs (runWord body s) := by
  unfold runWord
  split
  · exact runs_next _
  · split
    · exact runs_next _
    · exact runs_wordStop ..

theorem runs_execRotD (s : State) : Runs (execRotD s) := by
  unfold execRotD
  exact runs_runWord _ s

theorem runs_execNop (s : State) : Runs (execNop s) := by
  unfold execNop
  exact runs_runWord _ s

theorem runs_execFsel (f : BitVec 4) (s : State) : Runs (execFsel f s) := by
  unfold execFsel
  exact runs_runWord _ s

theorem runs_execAccz (b : Bool) (s : State) : Runs (execAccz b s) := by
  unfold execAccz
  exact runs_runWord _ s

theorem runs_execKor (d a : BitVec 4) (s : State) : Runs (execKor d a s) := by
  unfold execKor maskWord
  exact runs_runWord _ s

theorem runs_execKand (d a : BitVec 4) (s : State) : Runs (execKand d a s) := by
  unfold execKand maskWord
  exact runs_runWord _ s

theorem runs_execKxor (d a : BitVec 4) (s : State) : Runs (execKxor d a s) := by
  unfold execKxor maskWord
  exact runs_runWord _ s

theorem runs_execKnot (d a : BitVec 4) (s : State) : Runs (execKnot d a s) := by
  unfold execKnot maskWord
  exact runs_runWord _ s

/-- A command of the management path answers a next state where what it does answers one. -/
theorem runs_command (s : State) (i3c safe : Bool) {f : State → Host.Outcome State Fault Refusal} (h : ∀ t, Runs (f t)) :
    Runs (s.command i3c safe f) := Runs.ite (runs_next _) (Runs.ite (runs_next _) (h _))

/-- An outcome faults at most for a reason. -/
def FaultsOnly (why : Prop) (o : Host.Outcome State Fault Refusal) : Prop := Runs o ∨ (o = .fault .noAddress ∧ why)

theorem FaultsOnly.command {s : State} {i3c safe : Bool} {f : State → Host.Outcome State Fault Refusal} {why : Prop}
    (h : FaultsOnly why (f { s with host := { s.host with status := .ok } })) : FaultsOnly why (s.command i3c safe f) := by
  unfold State.command
  split
  · exact .inl (runs_next _)
  split
  · exact .inl (runs_next _)
  · exact h

theorem FaultsOnly.ite {c why : Prop} [Decidable c] {o : Host.Outcome State Fault Refusal} (hw : c → why) (h : Runs o) :
    FaultsOnly why (if c then .fault .noAddress else o) := by
  unfold FaultsOnly
  split
  · exact .inr ⟨rfl, hw ‹c›⟩
  · exact .inl h

/-- The instructions that name an address or a number that may not exist: all are steps from outside. -/
def Instr.outside : Instr → Bool
  | .regRead .. | .regWrite .. | .rsvdRead .. | .flr .. | .vfEnable .. | .vfReset .. | .l2partWrite .. | .flashLoad ..
  | .registerWrite .. | .errorDetected .. | .hostMemAccess .. => true
  | _ => false

/-- No other instruction faults, and none is refused. -/
theorem runs_exec (i : Instr) (h : i.outside = false) (s : State) : Runs (exec i s) := by
  cases i
  case xlat | xlatW | hinv | ldh | sdh | qpush | qpop | qpeek | qwm | waitt | prm | ecall | epush | emark | rdvw | nsub |
      tdone | gang | ungang | csyncSet | csyncW | phsw | dopen | dclose | dbind | dunbind | dbset | pbar | pwb | fenceS |
      vcfp | vcsync | fqpop | fqrep | ergr | load | store | amo | lr | sc | csrAccess | standardEcall | wfi | sfenceVma =>
    exact runs_runCc _ s
  case vcrep | sret | branch => exact runs_runJump _ s
  case literal | lix | dup | drop | swap | rot | loop | endl | lset | lget | tokw | tokr | mark | call | ret | qin | qout |
      cpy | cpy2 | cpyz | gath | scat | pfch | cpyg | cpyd | fill | rfeed | dln | skey | hist | selk | selp | cmpk | vadd |
      vsub | vmul | vfma | vmax | vmin | vabs | vneg | vcvt | vexp | vlog | vrcp | vrsq | vcmp | vsel | vred | vscan |
      vbsr | vperm | vand | vor | vxor | vshl | vshr | vmov | vbc | vclamp | vstub | vsoft | dset | dget | pgs | kld | kst |
      kbitTst | kbitSet | kbitClr | kpop | kget | kset | mm | mml | mmm | mpb | acco | accg | rng | fte | draw =>
    exact runs_runWord _ s
  case hstat | qlvl | rdvs | dqry | ebreak | fence | fenceTso | fenceI | intRR | intRI | intShift | intUnary | lui | auipc |
      jal | jalr | notify | cowslipAccept | ringIdleTimeout | schedulerVisit | agingTick | speedwellWindow | heatThrottle |
      preemptionRequest | forcedSave | contextResume | pageWalkEnd | faultRecordAlloc | iqInvalidate | flipRequest |
      flipAck | invalidationComplete | promiseMissed | waittWake | dopenWTimeout | reclaimRetry | lrReservationExpiry |
      copyComplete | markerRetire | phaseCommit | checkedEntryIssue | yarrowMismatch | durableAccept | mediaWrite |
      powerLoss | startSequence | hostLinkDown | hostLinkUp | peerLinkDown | poisonConsume | lockInterface |
      startInterface | stopInterface | getMeasurements | tstatLockChange | holdUpEnergyArming | peerLinkUp | hostSnoop |
      fenceSWaitEnd | spdmKeyExchange | ideKm => exact runs_next _
  case quiesce | linkrecAccept | linkrecDiscard | linklog | fwStage | fwActivate =>
    exact runs_command s _ _ (fun _ => runs_next _)
  case safept => exact Runs.ite (runs_next _) (Runs.ite (runs_next _) (runs_next _))
  case peerAccess => exact Runs.ite (runs_next _) (Runs.ite (runs_next _) (runs_next _))
  case dopenW d a b =>
    show Runs (execDopenW d a b s)
    unfold execDopenW
    split
    · exact runs_next _
    · exact runs_runCc _ s
  case rotD => exact runs_execRotD ..
  case nop => exact runs_execNop ..
  case fsel => exact runs_execFsel ..
  case kor => exact runs_execKor ..
  case kand => exact runs_execKand ..
  case kxor => exact runs_execKxor ..
  case knot => exact runs_execKnot ..
  case accz => exact runs_execAccz ..
  all_goals cases h

/-- What an instruction names that does not exist (log 44). -/
def misses (p : State) : Instr → Prop
  | .regRead r | .regWrite r _ => p.regValue r = none
  | .rsvdRead off len => durableEnd - reservedBase < off + len
  | .flr vf | .vfEnable vf | .vfReset vf => 512 ≤ vf
  | .l2partWrite d _ => 4 ≤ d
  | .flashLoad off data => flashSize < off + data.length
  | .registerWrite off _ => off ∉ [0x1000, 0x1008, 0x1010, 0x1018] ∧ ¬ (0x100000 ≤ off ∧ off < 0x104000 ∧ off % 8 = 0)
  | .errorDetected (.corrected d _) => 4 ≤ d
  | .errorDetected (.poisonLine pa _) => isHeld pa = false
  | .errorDetected (.poisonWord bank _) => 192 ≤ bank
  | .hostMemAccess off len _ => p.hdmMissing off len = true
  | _ => False

/-- The port's status is no part of what a register holds. -/
theorem regValue_status (s : State) (r : MgmtReg) (c : CmdStatus) :
    State.regValue { s with host := { s.host with status := c } } r = s.regValue r := by
  cases r <;> rfl

/-- PF BAR0 holds the registers of the invalidation queue and the VF configuration blocks (R341, R347). -/
theorem barValue_none {s : State} {off : Nat} (h : s.barValue off = none) :
    off ∉ [0x1000, 0x1008, 0x1010, 0x1018] ∧ ¬ (0x100000 ≤ off ∧ off < 0x104000 ∧ off % 8 = 0) := by
  unfold State.barValue at h
  dsimp only at h
  split_ifs at h with h0 h1 h2 h3
  refine ⟨by simp [h0, h1, h2, h3], fun hv => ?_⟩
  have hw := Option.map_eq_none_iff.mp h
  unfold vfWord at hw
  simp at hw
  omega

/-- No other instruction than one that names what does not exist faults, and none is refused. -/
theorem faultsOnly_exec (i : Instr) (p : State) : FaultsOnly (misses p i) (exec i p) := by
  cases hi : i.outside
  · exact .inl (runs_exec i hi p)
  cases i
  case regRead r =>
    show FaultsOnly _ (execRegRead r p)
    unfold execRegRead
    refine FaultsOnly.command ?_
    split
    next hn => exact .inr ⟨rfl, (regValue_status p r _).symm.trans hn⟩
    · exact .inl (runs_next _)
  case regWrite r v =>
    show FaultsOnly _ (execRegWrite r v p)
    unfold execRegWrite
    refine FaultsOnly.command ?_
    split
    next hn => exact .inr ⟨rfl, (regValue_status p r _).symm.trans (Option.isNone_iff_eq_none.mp hn)⟩
    · exact .inl (runs_next _)
  case rsvdRead off len =>
    show FaultsOnly _ (execRsvdRead off len p)
    refine FaultsOnly.command ?_
    exact FaultsOnly.ite (fun h => h) (runs_next _)
  case l2partWrite d v =>
    show FaultsOnly _ (execL2partWrite d v p)
    refine FaultsOnly.command ?_
    exact FaultsOnly.ite (fun h => h) (runs_next _)
  case flashLoad off data =>
    show FaultsOnly _ (execFlashLoad off data p)
    refine FaultsOnly.command ?_
    exact FaultsOnly.ite (fun h => h) (runs_next _)
  case flr | vfEnable | vfReset => exact FaultsOnly.ite (fun h => h) (runs_next _)
  case registerWrite off v =>
    show FaultsOnly _ (execRegisterWrite off v p)
    unfold execRegisterWrite
    split
    next hn => exact .inr ⟨rfl, barValue_none hn⟩
    · exact .inl (runs_next _)
  case errorDetected r =>
    show FaultsOnly _ (execErrorDetected r p)
    unfold execErrorDetected
    split
    · exact .inl (runs_next _)
    · cases r
      case corrected => exact FaultsOnly.ite (fun h => h) (runs_next _)
      case poisonWord => exact FaultsOnly.ite (fun h => h) (runs_next _)
      case poisonLine pa w =>
        unfold FaultsOnly
        dsimp only
        split
        next hn => exact .inr ⟨rfl, (Bool.not_eq_true' _).mp hn⟩
        · exact .inl (runs_next _)
  case hostMemAccess off len data =>
    show FaultsOnly _ (execHostMemAccess off len data p)
    unfold execHostMemAccess
    dsimp only
    split
    · exact .inl (runs_next _)
    split
    next hm => exact .inr ⟨rfl, hm⟩
    · cases data <;> exact .inl (runs_next _)
  all_goals cases hi

theorem outside_of_scalarOk {i : Instr} (h : i.scalarOk = true) : i.outside = false := by
  cases i <;> first | rfl | cases h

theorem outside_of_wordOk {i : Instr} {e : Engine} (h : i.wordOk e = true) : i.outside = false := by
  cases i <;> first | rfl | cases h

theorem outside_of_acceptScalar {z : Bool} {i j : Instr} (h : acceptScalar z i = .ok j) : j.outside = false := by
  unfold acceptScalar at h
  split at h
  next hz =>
    cases h
    exact outside_of_scalarOk ((Bool.and_eq_true _ _).mp hz).2
  · cases h

theorem outside_of_acceptWord {e : Engine} {z : Bool} {i j : Instr} (h : acceptWord e z i = .ok j) : j.outside = false := by
  unfold acceptWord at h
  split at h
  next hz =>
    cases h
    exact outside_of_wordOk ((Bool.and_eq_true _ _).mp hz).2
  · cases h

/-- An answer of a decoder is no step from outside. -/
def Inside (r : Except DecodeError Instr) : Prop := ∀ i, r = .ok i → i.outside = false

theorem inside_ok {i : Instr} (h : i.outside = false) : Inside (.ok i) := by
  rintro _ ⟨⟩
  exact h

theorem inside_error (e : DecodeError) : Inside (.error e) := by rintro _ ⟨⟩
theorem inside_acceptScalar (z : Bool) (i : Instr) : Inside (acceptScalar z i) := fun _ h => outside_of_acceptScalar h

theorem inside_acceptWord (e : Engine) (z : Bool) (i : Instr) : Inside (acceptWord e z i) := fun _ h => outside_of_acceptWord h

theorem Inside.ite {c : Prop} [Decidable c] {a b : Except DecodeError Instr} (ha : Inside a) (hb : Inside b) :
    Inside (if c then a else b) := by
  split <;> assumption

theorem inside_decodeCustom0 (w : Word32) : Inside (decodeCustom0 w) := by
  unfold decodeCustom0
  dsimp only
  split <;> repeat' with_reducible first | exact inside_acceptScalar .. | exact inside_error _ | apply Inside.ite

theorem inside_decodeCustom1 (w : Word32) : Inside (decodeCustom1 w) := by
  unfold decodeCustom1
  dsimp only
  split <;> repeat' with_reducible first | exact inside_acceptScalar .. | exact inside_error _ | apply Inside.ite

theorem inside_decodeCustom2 (w : Word32) : Inside (decodeCustom2 w) := by
  unfold decodeCustom2
  dsimp only
  split <;> repeat' with_reducible first | exact inside_acceptScalar .. | exact inside_error _ | apply Inside.ite

theorem inside_decodeCustom3 (w : Word32) : Inside (decodeCustom3 w) := by
  unfold decodeCustom3
  dsimp only
  split <;> repeat' with_reducible first | exact inside_acceptScalar .. | exact inside_error _ | apply Inside.ite

theorem inside_decodeLoad (w : Word32) : Inside (decodeLoad w) := by
  unfold decodeLoad
  repeat' with_reducible first | exact inside_ok rfl | exact inside_error _ | apply Inside.ite | split

theorem inside_decodeStore (w : Word32) : Inside (decodeStore w) := by
  unfold decodeStore
  repeat' with_reducible first | exact inside_ok rfl | exact inside_error _ | apply Inside.ite | split

theorem inside_decodeAmo (w : Word32) : Inside (decodeAmo w) := by
  unfold decodeAmo
  repeat' with_reducible first | exact inside_ok rfl | exact inside_error _ | apply Inside.ite | split

theorem inside_decodeOpImm (w : Word32) : Inside (decodeOpImm w) := by
  unfold decodeOpImm
  repeat' with_reducible first | exact inside_ok rfl | exact inside_error _ | apply Inside.ite | split

theorem inside_decodeOpImm32 (w : Word32) : Inside (decodeOpImm32 w) := by
  unfold decodeOpImm32
  repeat' with_reducible first | exact inside_ok rfl | exact inside_error _ | apply Inside.ite | split

theorem inside_decodeSystem (w : Word32) : Inside (decodeSystem w) := by
  unfold decodeSystem
  repeat' with_reducible first | exact inside_ok rfl | exact inside_error _ | apply Inside.ite | split

theorem inside_decodeMiscMem (w : Word32) : Inside (decodeMiscMem w) := by
  unfold decodeMiscMem
  repeat' with_reducible first | exact inside_ok rfl | exact inside_error _ | apply Inside.ite | split

theorem inside_decodeC0 (h : Half) : Inside (decodeC0 h) := by
  unfold decodeC0
  repeat' with_reducible first | exact inside_ok rfl | exact inside_error _ | apply Inside.ite | split

theorem inside_decodeC1 (h : Half) : Inside (decodeC1 h) := by
  unfold decodeC1
  repeat' with_reducible first | exact inside_ok rfl | exact inside_error _ | apply Inside.ite | split

theorem inside_decodeC2 (h : Half) : Inside (decodeC2 h) := by
  unfold decodeC2
  repeat' with_reducible first | exact inside_ok rfl | exact inside_error _ | apply Inside.ite | split

theorem inside_decodeOp (w : Word32) (b : Bool) : Inside (decodeOp w b) := by
  unfold decodeOp
  repeat' with_reducible first | exact inside_ok rfl | exact inside_error _ | apply Inside.ite | split

theorem inside_decode32 (w : Word32) : Inside (decode32 w) := by
  unfold decode32
  split
  case h_1 => exact inside_decodeCustom0 w
  case h_2 => exact inside_decodeCustom1 w
  case h_3 => exact inside_decodeCustom2 w
  case h_4 => exact inside_decodeCustom3 w
  case h_5 => exact inside_decodeLoad w
  case h_6 => exact inside_decodeStore w
  case h_7 => exact inside_decodeAmo w
  case h_8 => exact inside_decodeOpImm w
  case h_9 => exact inside_decodeOpImm32 w
  case h_10 | h_11 => exact inside_decodeOp w _
  case h_12 | h_13 | h_14 => exact inside_ok rfl
  case h_15 => exact Inside.ite (inside_ok rfl) (inside_error _)
  case h_16 => split <;> first | exact inside_ok rfl | exact inside_error _
  case h_17 => exact inside_decodeSystem w
  case h_18 => exact inside_decodeMiscMem w
  case h_19 => exact inside_error _

theorem inside_decode16 (h : Half) : Inside (decode16 h) := by
  unfold decode16
  split
  · exact inside_decodeC0 h
  · exact inside_decodeC1 h
  · exact inside_decodeC2 h

theorem outside_of_map {r : Except DecodeError Instr} {k n : Nat} {i : Instr} (h : Inside r) (hr : r.map (·, k) = .ok (i, n)) :
    i.outside = false := by
  cases r with
  | error => cases hr
  | ok j =>
    cases hr
    exact h _ rfl

/-- What the control core decodes is no step from outside. -/
theorem outside_of_decodeScalar {bs : List Byte} {i : Instr} {n : Nat} (h : decodeScalar bs = .ok (i, n)) : i.outside = false := by
  unfold decodeScalar at h
  split at h
  · split at h
    · exact outside_of_map (inside_decode16 _) h
    split at h
    · cases h
    split at h
    · exact outside_of_map (inside_decode32 _) h
    · cases h
  · cases h

theorem inside_decodeCommon (e : Engine) (n : Nat) (m : BitVec 9) : Inside (decodeCommon e n m) := by
  unfold decodeCommon
  dsimp only
  split <;> repeat' with_reducible first | exact inside_acceptWord .. | exact inside_error _ | apply Inside.ite

theorem inside_decodeCopy (n : Nat) (m : BitVec 9) : Inside (decodeCopy n m) := by
  unfold decodeCopy
  dsimp only
  split <;> repeat' with_reducible first | exact inside_acceptWord .. | exact inside_error _

theorem inside_decodeSelect (n : Nat) (m : BitVec 9) : Inside (decodeSelect n m) := by
  unfold decodeSelect
  dsimp only
  split <;> repeat' with_reducible first | exact inside_acceptWord .. | exact inside_error _

theorem inside_decodeVector (n : Nat) (m : BitVec 9) : Inside (decodeVector n m) := by
  unfold decodeVector
  dsimp only
  split <;> repeat' with_reducible first | exact inside_acceptWord .. | exact inside_error _ | apply Inside.ite

theorem inside_decodeMatrix (n : Nat) (m : BitVec 9) : Inside (decodeMatrix n m) := by
  unfold decodeMatrix
  dsimp only
  split <;> repeat' with_reducible first | exact inside_acceptWord .. | exact inside_error _

/-- What an engine decodes is no step from outside. -/
theorem outside_of_decodeWord {e : Engine} {w : Half} {i : Instr} (h : decodeWord e w = .ok i) : i.outside = false := by
  unfold decodeWord at h
  split at h
  · cases h
    rfl
  dsimp only at h
  split at h
  · exact inside_decodeCommon _ _ _ _ h
  · cases e
    · exact inside_decodeMatrix _ _ _ h
    · exact inside_decodeVector _ _ _ h
    · exact inside_decodeCopy _ _ _ h
    · exact inside_decodeSelect _ _ _ h

/-! ### Turns -/

theorem runs_runReady_ite {c : Prop} [Decidable c] {a b : Ready} (ha : Runs (runReady a)) (hb : Runs (runReady b)) :
    Runs (runReady (if c then a else b)) := by
  split <;> assumption

theorem runs_coreReady (s : State) (bid : Nat) : Runs (runReady (s.coreReady bid)) := by
  unfold State.coreReady
  refine runs_runReady_ite (runs_next _) (runs_runReady_ite (runs_next _) ?_)
  split
  · exact runs_next _
  · refine runs_runReady_ite (runs_next _) (runs_runReady_ite (runs_next _) (runs_runReady_ite (runs_next _) ?_))
    split
    · exact runs_coreStop ..
    · dsimp only
      split
      next hd => exact runs_runReady_ite (runs_next _) (runs_exec _ (outside_of_decodeScalar hd) _)
      · exact runs_next _

theorem runs_engineReady (s : State) (bid : Nat) (e : Engine) : Runs (runReady (s.engineReady bid e)) := by
  unfold State.engineReady
  refine runs_runReady_ite (runs_next _) ?_
  dsimp only
  split
  · exact runs_next _
  · refine runs_runReady_ite (runs_next _) ?_
    split
    next hd => exact runs_exec _ (outside_of_decodeWord hd) _
    · exact runs_next _

theorem runs_stepEngines (e : Engine) : ∀ (ms : List Nat) (s : State), Runs (stepEngines e ms s)
  | [], s => runs_next s
  | m :: ms, s => by
    obtain ⟨t, ht⟩ := runs_engineReady s m e
    rw [stepEngines, ht]
    exact runs_stepEngines e ms t

theorem runs_lockStep (e : Engine) (ms : List Nat) (s : State) : Runs (lockStep e ms s) := by
  unfold lockStep
  split
  · exact runs_engineReady ..
  · split
    · exact runs_engineReady ..
    · exact runs_stepEngines ..

theorem runs_turn {who : Agent} (h : ∀ i, who ≠ .event i) (s : State) : Runs (turn who s) := by
  cases who with
  | core bid => exact runs_coreReady s bid
  | engine bid e =>
    unfold turn
    dsimp only
    split
    · exact runs_next _
    next t ms _ =>
      obtain ⟨u, hu⟩ := runs_lockStep e ms t
      rw [hu]
      exact runs_next _
  | event i => exact absurd rfl (h i)

/-- The turn of the device or the host faults only where its step names what does not exist. -/
theorem faultsOnly_turn (i : Instr) (s : State) : FaultsOnly (misses s i) (turn (.event i) s) := by
  unfold turn
  dsimp only
  split
  · exact faultsOnly_exec i s
  · exact .inl (runs_next _)

theorem FaultsOnly.not_refused {why : Prop} {o : Host.Outcome State Fault Refusal} (h : FaultsOnly why o) (r : Refusal) :
    o ≠ .refused r := by
  rintro rfl
  obtain ⟨t, ht⟩ | ⟨ht, -⟩ := h <;> cases ht

theorem FaultsOnly.why {why : Prop} {o : Host.Outcome State Fault Refusal} (h : FaultsOnly why o) {f : Fault} (hf : o = .fault f) :
    why := by
  subst hf
  obtain ⟨t, ht⟩ | ⟨-, hw⟩ := h
  · cases ht
  · exact hw

end Sys2Proof

namespace Sys2Proof.Proofs
open Sys2Proof Sys2Proof.Machine

/-- Settles O59: the turn of a core or an engine runs a decoded form, which always answers a next state, and a step from outside faults only
where it names what does not exist. -/
theorem onlyOutsideFaults : Obligations.OnlyOutsideFaults := by
  unfold Obligations.OnlyOutsideFaults
  intro s p
  cases hw : s.nextTurn.who with
  | event i =>
    have h : FaultsOnly (misses p i) (step s) := by
      unfold step
      rw [hw]
      exact faultsOnly_turn i p
    exact ⟨fun hn => absurd rfl (hn i), h.not_refused, fun f hf => ⟨i, rfl, h.why hf⟩⟩
  | core bid =>
    have h : Runs (step s) := runs_turn (by rw [hw]; rintro i ⟨⟩) p
    exact ⟨fun _ => h, (FaultsOnly.not_refused (.inl h) (why := False)), fun f hf => (FaultsOnly.why (why := False) (.inl h) hf).elim⟩
  | engine bid e =>
    have h : Runs (step s) := runs_turn (by rw [hw]; rintro i ⟨⟩) p
    exact ⟨fun _ => h, (FaultsOnly.not_refused (.inl h) (why := False)), fun f hf => (FaultsOnly.why (why := False) (.inl h) hf).elim⟩

end Sys2Proof.Proofs
end

-- ==== What a step runs (O60) ====
section
/-! SUPPORT. What the turn of a core or an engine comes to, one condition at a time (95). -/

namespace Sys2Proof.Machine

-- One proof at a time: the whole text compiles in one process of bounded memory.
set_option Elab.async false

theorem engineReady_word {s : State} {m : Nat} {e : Engine} {w : Half} (ht : (s.bank m).task.isSome = true)
    (hl : (s.bank m).loading = false) (hr : (if s.drains m then !s.stays m e else s.isActive m && s.ready m) = true)
    (hw : (s.reissueWord m e).engineWord m e = some w) (hp : (s.reissueWord m e).wordPoison m e = false) :
    let u := { s.reissueWord m e with cur := { (s.reissueWord m e).cur with bid := m, eng := some e, ilen := 2, ibits := w.toNat } }
    runReady (s.engineReady m e) = match decodeWord e w with | .ok i => exec i u | .error _ => .next (u.faultEnd m e 0x10) := by
  have hidle : ((s.bank m).task.isNone || (s.bank m).loading
      || (if s.drains m then s.stays m e else !s.isActive m || !s.ready m)) = false := by
    have hn : (s.bank m).task.isNone = false := by
      rw [← Option.not_isSome, ht]
      rfl
    rw [hn, hl]
    split at hr
    next hd => simpa [hd] using hr
    next hd => simpa [hd, Bool.not_eq_true, imp_iff_not_or] using hr
  unfold State.engineReady
  simp only [hidle, hw, hp, Bool.false_eq_true, if_false]
  cases decodeWord e w <;> rfl

theorem coreReady_saving {s : State} {bid : Nat} (hs : s.host.stopped = false) (hf : s.host.safe = false)
    (h : (s.bank bid).saving ≠ none) : runReady (s.coreReady bid) = .next (s.saveStep bid) := by
  unfold State.coreReady
  simp [Option.isSome_iff_ne_none.mpr h, hs, hf, runReady]

theorem coreReady_draining {s : State} {bid : Nat} (hs : s.host.stopped = false) (hf : s.host.safe = false)
    (h : (s.bank bid).saving = none) (hd : (s.bank bid).draining ≠ .none) :
    runReady (s.coreReady bid) = .next (s.settleDrain bid) := by
  unfold State.coreReady
  simp [h, hd, hs, hf, runReady]

section

variable {s c : State} {bid : Nat} (hsave : (s.bank bid).saving = none) (hdrain : (s.bank bid).draining = .none)
  (hclaim : s.claimAll bid = some c) (hload : (c.bank bid).loading = false) (hlead : c.handleBank bid = bid)
include hsave hdrain hclaim hload hlead

theorem coreReady_due (hdue : ((c.reissueCore bid).bank bid).due.isSome = true) :
    runReady (s.coreReady bid) = .next ((c.reissueCore bid).takeDue bid) := by
  unfold State.coreReady
  simp [hsave, hdrain, hclaim, hload, hlead, hdue, runReady]

theorem coreReady_fetched {t : State} {bs : List Byte} (hdue : ((c.reissueCore bid).bank bid).due = none)
    (hfetch : (fetchBytes bid).run (c.reissueCore bid) = .ok bs t) :
    let u := { t with cur := { t.cur with bid := bid, eng := none, ilen := bs.length, ibits := leNat bs } }
    runReady (s.coreReady bid) = match decodeScalar bs with
      | .ok (i, _) => if u.readsPoison bid i then .next (u.agentPoison bid none none) else exec i u
      | .error _ => .next (u.takeTrap bid 2 (leNat bs)) := by
  unfold State.coreReady
  simp only [hsave, hdrain, hclaim, hload, hlead, hdue, hfetch, Option.isSome_none, Bool.false_and, ne_eq, not_true_eq_false,
    decide_false, Bool.false_eq_true, if_false]
  cases decodeScalar bs with
  | error => rfl
  | ok x => exact apply_ite runReady _ _ _

end

theorem turn_engine_next {s c t : State} {bid m : Nat} {e : Engine} (h : s.engineTurn bid = some (c, [m]))
    (hr : runReady (c.engineReady m e) = .next t) :
    turn (.engine bid e) s = .next (t.noteTurn bid e ([m].any (fun m => wentOn e m c (.next t)))) := by
  simp only [turn, h, lockStep, hr]

theorem turn_engine_other {s c : State} {bid m : Nat} {e : Engine} (h : s.engineTurn bid = some (c, [m]))
    (hr : ∀ t, runReady (c.engineReady m e) ≠ .next t) : turn (.engine bid e) s = runReady (c.engineReady m e) := by
  simp only [turn, h, lockStep]

theorem noteTurn_notDraining {t : State} {bid : Nat} (e : Engine) (moved : Bool) (h : t.drains bid = false) :
    t.noteTurn bid e moved = t := by
  unfold State.noteTurn
  simp [h]

end Sys2Proof.Machine

namespace Sys2Proof.Proofs
open Sys2Proof Sys2Proof.Machine

/-- Settles O60: each clause is one branch of the agent's turn. -/
theorem stepRunsDecoded : Obligations.StepRunsDecoded := by
  unfold Obligations.StepRunsDecoded
  intro s p
  refine ⟨?_, ?_, ?_, ?_, ?_⟩
  · intro bid c t bs hwho hsave hdrain hclaim hload hlead hdue hfetch u
    have hstep : step s = _ := (congrArg (turn · p) hwho).trans (coreReady_fetched hsave hdrain hclaim hload hlead hdue hfetch)
    refine ⟨fun i n hd hp => ?_, fun i n hd hp => ?_, fun e hd => ?_⟩ <;> rw [hstep, hd]
    · exact if_neg (by rw [hp]; decide)
    · exact if_pos hp
  · intro bid c hwho hsave hdrain hclaim hload hlead hdue
    exact (congrArg (turn · p) hwho).trans (coreReady_due hsave hdrain hclaim hload hlead hdue)
  · intro bid hwho hs hf
    exact ⟨fun h => (congrArg (turn · p) hwho).trans (coreReady_saving hs hf h),
      fun h hd => (congrArg (turn · p) hwho).trans (coreReady_draining hs hf h hd)⟩
  · intro bid e c m w hwho hturn ht hl hr hw hp u out
    have hready : runReady (c.engineReady m e) = out := engineReady_word ht hl hr hw hp
    have hstep : step s = turn (.engine bid e) p := congrArg (turn · p) hwho
    constructor
    · intro t hout
      have hnext := hstep.trans (turn_engine_next hturn (hready.trans hout))
      exact ⟨fun hd => hnext.trans (by rw [noteTurn_notDraining e _ hd]), fun _ => ⟨_, hnext⟩⟩
    · intro hne
      exact hstep.trans ((turn_engine_other hturn (fun t h => hne t (hready.symm.trans h))).trans hready)
  · intro i hwho hev
    exact (congrArg (turn · p) hwho).trans (if_pos hev)

end Sys2Proof.Proofs
end

-- ==== Registers, reset and fixed words (O8, O55, O56) ====
section
/-! SUPPORT. The x registers, and the state after reset (R222, R358). -/

namespace Sys2Proof.Machine

-- One proof at a time: the whole text compiles in one process of bounded memory.
set_option Elab.async false

theorem Bank.mem_marks_writeX {b : Bank} {r : Reg} (h : r ≠ 0#5) (v : Word) (m : Mark) :
    m ∈ (b.writeX r v).marks ↔ m ∈ b.marks ∧ m ≠ .x r := by
  simp [Bank.writeX, h]

/-- A write of an x register changes nothing of the bank but the registers and the marks of poison. -/
theorem Bank.writeX_frame (b : Bank) (r : Reg) (v : Word) :
    b.writeX r v = { b with core := { b.core with x := (b.writeX r v).core.x }, marks := (b.writeX r v).marks } := by
  unfold Bank.writeX
  split <;> rfl

theorem State.bank_reset (m : Nat) : State.reset.bank m = Bank.init := rfl

theorem State.vf_reset (v : Nat) : State.reset.vf v = Vf.init := rfl

theorem Bank.readX_init (r : Reg) : Bank.init.readX r = 0#64 := by revert r; decide

theorem Mem.get_empty (a : Nat) : Mem.empty.get a = 0#8 := rfl
end Sys2Proof.Machine

namespace Sys2Proof.Proofs
open Sys2Proof Sys2Proof.Machine

theorem xRegisters : Claim.XRegisters := by
  unfold Claim.XRegisters
  intro b r v
  refine ⟨rfl, b.writeX_zero v, fun h => ⟨?_, b.mem_marks_writeX h v⟩, fun q h => ?_, b.writeX_frame r v⟩
  · rw [b.readX_writeX, if_neg h, if_pos rfl]
  · rw [b.readX_writeX]
    split
    next hq => rw [hq, b.readX_zero]
    · rfl

theorem csrValues : Claim.CsrValues := by
  unfold Claim.CsrValues
  intro s bid b c
  exact ⟨rfl, rfl, rfl, rfl, rfl, rfl, rfl, rfl, rfl, rfl, fun v => ⟨rfl, rfl, rfl, rfl, rfl, rfl⟩⟩

/-- Settles O8: a write of a register sets one place of the file, and each CSR number has its own case. -/
theorem registerValues : Obligations.RegisterValues := ⟨xRegisters, csrValues⟩

/-- Settles O55, by evaluation of the fixed state, field by field. -/
theorem resetState : Obligations.ResetState := by
  unfold Obligations.ResetState
  refine ⟨?_, rfl, rfl, rfl, rfl, rfl, rfl, rfl, rfl, rfl, ?_, ?_, ?_, ?_⟩
  · exact ⟨by decide, by decide⟩
  · decide
  · exact fun v => ⟨rfl, rfl, rfl, rfl⟩
  · exact fun m => ⟨rfl, rfl, fun r => (congrArg (·.readX r) (State.bank_reset m)).trans (Bank.readX_init r)⟩
  · exact Mem.get_empty

/-- Settles O56: each word, by the decoder's table. -/
theorem specWords : Obligations.SpecWords := by
  unfold Obligations.SpecWords
  exact ⟨by decide, by decide, by decide, by decide, by decide, by decide, by decide, by decide, by decide, by decide⟩

end Sys2Proof.Proofs

end

-- ==== Integer instructions, jumps and branches complete (O2) ====
section
/-! SUPPORT. Forms that write rd and go on, and those that say where the pc goes (R225). -/

namespace Sys2Proof.Machine

-- One proof at a time: the whole text compiles in one process of bounded memory.
set_option Elab.async false

/-- A body that writes rd, and nothing else. -/
theorem runCc_writeX {body : M Unit} {s : State} {d : Reg} {v : Word}
    (h : body.run s = .ok () (s.modBank s.cur.bid (·.writeX d v))) : runCc body s = .next (s.retires (·.writeX d v) s.after) :=
  runCc_modBank h rfl (Bank.writeX_pc _ _ _)

/-- A jump that changes nothing but the pc. -/
theorem runJump_pc {body : M Word} {s : State} {pc : Word} (h : body.run s = .ok pc s) : runJump body s = .next (s.retires id pc) :=
  runJump_ok h

end Sys2Proof.Machine

namespace Sys2Proof.Proofs
open Sys2Proof Sys2Proof.Machine

theorem integerCompletes : Claim.IntegerCompletes := by
  unfold Claim.IntegerCompletes
  intro s d a b imm sh up
  refine ⟨fun op => ?_, fun op => ?_, fun op => ?_, fun op => ?_, ?_, ?_⟩
  · change execIntRR op d a b s = _
    exact runCc_writeX rfl
  · change execIntRI op d a imm s = _
    exact runCc_writeX rfl
  · change execIntShift op d a sh s = _
    exact runCc_writeX rfl
  · change execIntUnary op d a s = _
    exact runCc_writeX rfl
  · change execLui d up s = _
    exact runCc_writeX rfl
  · change execAuipc d up s = _
    exact runCc_writeX rfl

theorem jumpsComplete : Claim.JumpsComplete := by
  unfold Claim.JumpsComplete
  intro s d a b imm up k
  refine ⟨?_, ?_, fun h => ?_, fun h => ?_⟩
  · change execJal d up s = _
    exact runJump_modBank rfl rfl
  · change execJalr d a imm s = _
    exact runJump_modBank rfl rfl
  · change execBranch k a b imm s = _
    refine runJump_pc ?_
    simp only [M.bind_curBank, M.bind_readX, h, if_true, M.run_pure]
  · change execBranch k a b imm s = _
    refine runJump_pc ?_
    simp only [M.bind_curBank, M.bind_readX, h, Bool.false_eq_true, if_false, M.run_nextPc]
    rfl

/-- Settles O2: each form writes rd with its result, or says where the pc goes, and retires. -/
theorem integersAndJumpsComplete : Obligations.IntegersAndJumpsComplete := ⟨integerCompletes, jumpsComplete⟩

end Sys2Proof.Proofs
end

-- ==== Integer arithmetic (O1) ====
section
/-! SUPPORT. The integer forms in exact arithmetic (R225; log 6): high halves, quotients, the low 32 bits and their sign, rotations, counts of
bits, and the bytes of a word. -/

namespace Sys2Proof.Machine

-- One proof at a time: the whole text compiles in one process of bounded memory.
set_option Elab.async false

theorem bits_zero (v n : Nat) : bits v 0 n = v % 2 ^ n := by simp [bits]

theorem highHalf_eq (p : Int) : highHalf p = BitVec.ofInt 64 (p / 2 ^ 64) := by
  apply BitVec.eq_of_toNat_eq
  simp only [highHalf, BitVec.extractLsb'_toNat, BitVec.toNat_ofInt, Nat.shiftRight_eq_div_pow]
  omega

theorem toInt_highHalf {p : Int} (hlo : -2 ^ 127 ≤ p) (hhi : p < 2 ^ 127) : (highHalf p).toInt = p / 2 ^ 64 := by
  rw [highHalf_eq, BitVec.toInt_ofInt]
  apply Int.bmod_eq_of_le <;> omega

theorem toNat_highHalf {p : Nat} (h : p < 2 ^ 128) : (highHalf p).toNat = p / 2 ^ 64 := by
  rw [highHalf_eq, BitVec.toNat_ofInt]
  omega

section

variable {n : Nat} {a b : BitVec n}

theorem divS_zero (h : b = 0) : divS a b = BitVec.allOnes n := if_pos h

theorem divU_zero (h : b = 0) : divU a b = BitVec.allOnes n := if_pos h

theorem remS_zero (h : b = 0) : remS a b = a := if_pos h

theorem remU_zero (h : b = 0) : remU a b = a := if_pos h

theorem toInt_divS (h : b ≠ 0) : (divS a b).toInt = (a.toInt.tdiv b.toInt).bmod (2 ^ n) := by
  rw [divS, if_neg h, BitVec.toInt_sdiv]

theorem toInt_remS (h : b ≠ 0) : (remS a b).toInt = a.toInt.tmod b.toInt := by
  rw [remS, if_neg h, BitVec.toInt_srem]

theorem toNat_divU (h : b ≠ 0) : (divU a b).toNat = a.toNat / b.toNat := by
  rw [divU, if_neg h, BitVec.toNat_udiv]

theorem toNat_remU (h : b ≠ 0) : (remU a b).toNat = a.toNat % b.toNat := by
  rw [remU, if_neg h, BitVec.toNat_umod]

end

theorem toInt_sext32 (v : Word32) : (sext32 v).toInt = v.toInt := BitVec.toInt_signExtend_of_le (by decide)

theorem toInt_low32 (a : Word) : (low32 a).toInt = a.toInt.bmod (2 ^ 32) := by
  rw [low32, BitVec.toInt_setWidth, BitVec.toInt_eq_toNat_bmod, Int.bmod_bmod_of_dvd (by decide)]

theorem toNat_low32 (a : Word) : (low32 a).toNat = a.toNat % 2 ^ 32 := BitVec.toNat_setWidth 32 a

theorem low32_eq_zero (b : Word) : low32 b = 0 ↔ b.toNat % 2 ^ 32 = 0 := by
  rw [← toNat_low32]
  exact ⟨fun h => by rw [h]; rfl, fun h => BitVec.eq_of_toNat_eq h⟩

/-- The product of two signed words. -/

theorem mul_bounds {x y : Int} {p q : Int} (hx : -p ≤ x ∧ x ≤ p) (hy : -q ≤ y ∧ y ≤ q) : -(p * q) ≤ x * y ∧ x * y ≤ p * q := by
  have h := abs_mul x y
  have hxy : |x * y| ≤ p * q := by
    rw [h]
    exact mul_le_mul (abs_le.mpr hx) (abs_le.mpr hy) (abs_nonneg _) (le_trans (abs_nonneg x) (abs_le.mpr hx))
  exact abs_le.mp hxy

theorem getLsbD_rotateLeft_mod {w n i : Nat} (x : BitVec w) (hn : n < w) (hi : i < w) :
    (x.rotateLeft n).getLsbD i = x.getLsbD ((i + w - n) % w) := by
  rw [BitVec.getLsbD_rotateLeft, Nat.mod_eq_of_lt hn, Bool.cond_decide]
  split
  next h => rw [Nat.mod_eq_of_lt (by omega)]; congr 1; omega
  next h =>
    rw [show i + w - n = i - n + w by omega, Nat.add_mod_right, Nat.mod_eq_of_lt (by omega)]
    simp [hi]

theorem getLsbD_rotateRight_mod {w n i : Nat} (x : BitVec w) (hn : n < w) (hi : i < w) :
    (x.rotateRight n).getLsbD i = x.getLsbD ((i + n) % w) := by
  rw [BitVec.getLsbD_rotateRight, Nat.mod_eq_of_lt hn, Bool.cond_decide]
  split
  next h => rw [Nat.mod_eq_of_lt (by omega), Nat.add_comm]
  next h =>
    rw [show i + n = i - (w - n) + w by omega, Nat.add_mod_right, Nat.mod_eq_of_lt (by omega)]
    simp [hi]

theorem getLsbD_low32 (a : Word) {i : Nat} (h : i < 32) : (low32 a).getLsbD i = a.getLsbD i := by simp [h]

theorem getLsbD_sext32 (v : Word32) {i : Nat} (h : i < 64) : (sext32 v).getLsbD i = v.getLsbD (min i 31) := by
  rw [sext32, BitVec.getLsbD_signExtend]
  split
  next hi => simp [h, show min i 31 = i by omega]
  next hi => simp [h, show min i 31 = 31 by omega, BitVec.msb_eq_getLsbD_last]

theorem bit_eq_testBit (v i : Nat) : bit v i = v.testBit i := by
  rw [bit, Nat.testBit_eq_decide_div_mod_eq]

theorem bit_toNat (a : Word) (i : Nat) : bit a.toNat i = a.getLsbD i := bit_eq_testBit _ _

/-- The first number below `n` with a property, or `n`. -/

theorem find_range_getD {p : Nat → Bool} {n k : Nat} (h : ((List.range n).find? p).getD n = k) :
    (∀ j, j < k → p j = false) ∧ (k < n → p k = true) ∧ k ≤ n := by
  cases hf : (List.range n).find? p with
  | none =>
    rw [hf] at h
    obtain rfl : n = k := h
    exact ⟨fun j hj => by simpa using List.find?_eq_none.mp hf j (List.mem_range.mpr hj), fun hk => absurd hk (lt_irrefl _), le_refl _⟩
  | some i =>
    rw [hf] at h
    obtain rfl : i = k := h
    obtain ⟨hp, hi, hne⟩ := List.find?_range_eq_some.mp hf
    exact ⟨fun j hj => by simpa using hne j hj, fun _ => hp, (List.mem_range.mp hi).le⟩

theorem countTrailing_spec (v n : Nat) : (∀ j, j < countTrailing v n → bit v j = false)
    ∧ (countTrailing v n < n → bit v (countTrailing v n) = true) ∧ countTrailing v n ≤ n := find_range_getD rfl

theorem countLeading_spec (v n : Nat) : (∀ j, j < countLeading v n → bit v (n - 1 - j) = false)
    ∧ (countLeading v n < n → bit v (n - 1 - countLeading v n) = true) ∧ countLeading v n ≤ n := find_range_getD rfl

/-- A number below `2 ^ n` with a set bit among the low `n` is not zero, and the other way round. -/

theorem exists_bit {v n : Nat} (hv : v < 2 ^ n) (h0 : v ≠ 0) : ∃ i, i < n ∧ bit v i = true := by
  obtain ⟨i, hi⟩ := Nat.exists_testBit_of_ne_zero h0
  exact ⟨i, lt_of_not_ge fun hn => by simp [Nat.testBit_lt_two_pow (lt_of_lt_of_le hv (Nat.pow_le_pow_right (by decide) hn))] at hi,
    (bit_eq_testBit v i).trans hi⟩

theorem countLeading_lt {v n : Nat} (hv : v < 2 ^ n) (h0 : v ≠ 0) : countLeading v n < n := by
  obtain ⟨hlow, -, hle⟩ := countLeading_spec v n
  obtain ⟨i, hi, hb⟩ := exists_bit hv h0
  by_contra hc
  have h := hlow (n - 1 - i) (by omega)
  rw [show n - 1 - (n - 1 - i) = i by omega, hb] at h
  cases h

theorem countTrailing_lt {v n : Nat} (hv : v < 2 ^ n) (h0 : v ≠ 0) : countTrailing v n < n := by
  obtain ⟨hlow, -, hle⟩ := countTrailing_spec v n
  obtain ⟨i, hi, hb⟩ := exists_bit hv h0
  by_contra hc
  have h := hlow i (by omega)
  rw [hb] at h
  cases h

/-- The number of leading zeros places the value between two powers of two. -/

theorem countLeading_bounds {v n : Nat} (hv : v < 2 ^ n) (h0 : v ≠ 0) :
    2 ^ (n - 1 - countLeading v n) ≤ v ∧ v < 2 ^ (n - countLeading v n) := by
  have hlt := countLeading_lt hv h0
  obtain ⟨hlow, htop, -⟩ := countLeading_spec v n
  constructor
  · exact Nat.ge_two_pow_of_testBit ((bit_eq_testBit _ _).symm.trans (htop hlt))
  · refine Nat.lt_pow_two_of_testBit v fun i hi => ?_
    rcases lt_or_ge i n with hn | hn
    · have h := hlow (n - 1 - i) (by omega)
      rwa [show n - 1 - (n - 1 - i) = i by omega, bit_eq_testBit] at h
    · exact Nat.testBit_lt_two_pow (lt_of_lt_of_le hv (Nat.pow_le_pow_right (by decide) hn))

theorem countLeading_zero (n : Nat) : countLeading 0 n = n := by
  obtain ⟨-, htop, hle⟩ := countLeading_spec 0 n
  rcases lt_or_eq_of_le hle with h | h
  · have := htop h
    simp [bit] at this
  · exact h

theorem countTrailing_zero (n : Nat) : countTrailing 0 n = n := by
  obtain ⟨-, htop, hle⟩ := countTrailing_spec 0 n
  rcases lt_or_eq_of_le hle with h | h
  · have := htop h
    simp [bit] at this
  · exact h

theorem length_filter_eq_sum {α : Type} (p : α → Bool) (l : List α) : (l.filter p).length = (l.map (fun i => if p i then 1 else 0)).sum := by
  induction l with
  | nil => rfl
  | cons x l ih =>
    by_cases h : p x
    · simp [h, ih, Nat.add_comm]
    · simp [h, ih]

theorem countSet_le (v n : Nat) : countSet v n ≤ n := (List.length_filter_le _ _).trans (by simp)

/-- The low bits of a count's argument are all that it reads. -/

theorem bit_mod (v n i : Nat) (h : i < n) : bit (v % 2 ^ n) i = bit v i := by
  rw [bit_eq_testBit, bit_eq_testBit, Nat.testBit_mod_two_pow]
  simp [h]

theorem countLeading_mod (v n : Nat) : countLeading (v % 2 ^ n) n = countLeading v n := by
  unfold countLeading
  congr 1
  exact List.find?_congr fun i hi => bit_mod v n _ (by have := List.mem_range.mp hi; omega)

theorem countTrailing_mod (v n : Nat) : countTrailing (v % 2 ^ n) n = countTrailing v n := by
  unfold countTrailing
  congr 1
  exact List.find?_congr fun i hi => bit_mod v n _ (List.mem_range.mp hi)

/-- A byte of a little-endian number. -/

theorem leNat_byte (bs : List Byte) (k : Nat) : leNat bs / 256 ^ k % 256 = (bs.getD k 0).toNat := by
  induction bs generalizing k with
  | nil => simp [leNat]
  | cons b bs ih =>
    have hb := b.isLt
    cases k with
    | zero => simp [leNat]; omega
    | succ k =>
      rw [List.getD_cons_succ, ← ih k, leNat, Nat.pow_succ, Nat.mul_comm (256 ^ k), ← Nat.div_div_eq_div_mul]
      congr 2
      omega

theorem leNat_lt (bs : List Byte) : leNat bs < 256 ^ bs.length := by
  induction bs with
  | nil => simp [leNat]
  | cons b bs ih =>
    have hb := b.isLt
    rw [leNat, List.length_cons, Nat.pow_succ]
    omega

theorem toNat_ofNat_leNat {bs : List Byte} (h : bs.length = 8) : (BitVec.ofNat 64 (leNat bs)).toNat = leNat bs := by
  have hlt := leNat_lt bs
  rw [h] at hlt
  rw [BitVec.toNat_ofNat]
  omega

end Sys2Proof.Machine

namespace Sys2Proof.Proofs
open Sys2Proof Sys2Proof.Machine

theorem registerArithmetic : Claim.RegisterArithmetic := by
  unfold Claim.RegisterArithmetic
  intro a b lo
  have ha := a.isLt
  have hb := b.isLt
  have hai : -2 ^ 63 ≤ a.toInt ∧ a.toInt ≤ 2 ^ 63 := ⟨BitVec.le_toInt a, BitVec.toInt_lt.le⟩
  have hbi : -2 ^ 63 ≤ b.toInt ∧ b.toInt ≤ 2 ^ 63 := ⟨BitVec.le_toInt b, BitVec.toInt_lt.le⟩
  refine ⟨BitVec.toNat_add a b, BitVec.toInt_sub, ?sll, ?srl, ?sra, ?slt, ?sltu, BitVec.toNat_mul a b, ?mulhu, ?mulh, ?mulhsu,
    fun h => ⟨divS_zero h, divU_zero h, remS_zero h, remU_zero h⟩,
    fun h => ⟨toInt_divS h, toNat_divU h, toInt_remS h, toNat_remU h⟩, ?sh1, ?sh2, ?sh3, ?u0, ?u1, ?u2, ?u3, ?max, ?min, ?maxu, ?minu⟩
  case sll =>
    simp only [intRRResult, bits_zero, BitVec.toNat_shiftLeft, Nat.shiftLeft_eq]
    rfl
  case srl =>
    simp only [intRRResult, bits_zero, BitVec.toNat_ushiftRight, Nat.shiftRight_eq_div_pow]
    rfl
  case sra =>
    simp only [intRRResult, bits_zero, BitVec.toInt_sshiftRight, Int.shiftRight_eq_div_pow]
    norm_cast
  case slt => simp [intRRResult, boolWord, BitVec.slt]
  case sltu => simp [intRRResult, boolWord, BitVec.ult]
  case mulhu =>
    have h := Nat.mul_lt_mul'' ha hb
    exact toNat_highHalf (by omega)
  case mulh =>
    have h := mul_bounds hai hbi
    exact toInt_highHalf (by omega) (by omega)
  case mulhsu =>
    have h := mul_bounds hai (y := (b.toNat : Int)) (q := 2 ^ 64 - 1) (by omega)
    exact toInt_highHalf (by omega) (by omega)
  case sh1 | sh2 | sh3 =>
    simp only [intRRResult, BitVec.toNat_add, BitVec.toNat_shiftLeft, Nat.shiftLeft_eq]
    omega
  case u0 | u1 | u2 | u3 =>
    simp only [intRRResult, low32, BitVec.toNat_add, BitVec.toNat_shiftLeft, Nat.shiftLeft_eq, BitVec.toNat_setWidth]
    omega
  case max | min =>
    simp only [intRRResult, BitVec.slt, decide_eq_true_eq]
    split <;> omega
  case maxu | minu =>
    simp only [intRRResult, BitVec.ult, decide_eq_true_eq]
    split <;> omega

theorem wordArithmetic : Claim.WordArithmetic := by
  unfold Claim.WordArithmetic
  intro a b la lb x y n
  have hla : la = (low32 a).toNat := (toNat_low32 a).symm
  have hlb : lb = (low32 b).toNat := (toNat_low32 b).symm
  have hn : bits b.toNat 0 5 = n := bits_zero _ _
  have hz : low32 b = 0 ↔ lb = 0 := low32_eq_zero b
  refine ⟨?add, ?sub, ?mul, ?sll, ?srl, ?sra, fun h => ?zero, fun h => ?nonzero⟩
  case add =>
    rw [intRRResult, toInt_sext32, BitVec.toInt_add, toInt_low32, toInt_low32, Int.bmod_add_bmod, Int.add_bmod_bmod]
  case sub =>
    rw [intRRResult, toInt_sext32, BitVec.toInt_sub, toInt_low32, toInt_low32, Int.bmod_sub_bmod, Int.sub_bmod_bmod]
  case mul =>
    rw [intRRResult, toInt_sext32, BitVec.toInt_mul, toInt_low32, toInt_low32, Int.bmod_mul_bmod, Int.mul_bmod_bmod]
  case sll =>
    rw [intRRResult, hn, toInt_sext32, BitVec.toInt_eq_toNat_bmod, BitVec.toNat_shiftLeft, Nat.shiftLeft_eq, hla, Int.natCast_mod]
    exact Int.emod_bmod _ _
  case srl =>
    rw [intRRResult, hn, toInt_sext32, BitVec.toInt_eq_toNat_bmod, BitVec.toNat_ushiftRight, Nat.shiftRight_eq_div_pow, hla]
  case sra =>
    rw [intRRResult, hn, toInt_sext32, BitVec.toInt_sshiftRight, Int.shiftRight_eq_div_pow]
    norm_cast
  case zero =>
    have h0 := hz.mpr h
    refine ⟨?_, ?_, ?_, ?_⟩
    · rw [intRRResult, divS_zero h0]; decide
    · rw [intRRResult, divU_zero h0]; decide
    · rw [intRRResult, remS_zero h0, toInt_sext32]
    · rw [intRRResult, remU_zero h0, toInt_sext32]
  case nonzero =>
    have h0 := mt hz.mp h
    refine ⟨?_, ?_, ?_, ?_⟩
    · rw [intRRResult, toInt_sext32, toInt_divS h0]
    · rw [intRRResult, toInt_sext32, BitVec.toInt_eq_toNat_bmod, toNat_divU h0, hla, hlb]
    · rw [intRRResult, toInt_sext32, toInt_remS h0]
    · rw [intRRResult, toInt_sext32, BitVec.toInt_eq_toNat_bmod, toNat_remU h0, hla, hlb]

theorem bitForms : Claim.BitForms := by
  unfold Claim.BitForms
  intro a b
  refine ⟨fun i hi => ?_, rfl, rfl⟩
  have h6 : bits b.toNat 0 6 = b.toNat % 64 := bits_zero _ _
  have h5 : bits b.toNat 0 5 = b.toNat % 32 := bits_zero _ _
  refine ⟨BitVec.getLsbD_and, BitVec.getLsbD_or, BitVec.getLsbD_xor, ?_, ?_, ?_, ?_, ?_, ?_, ?_⟩
  · simp [intRRResult, hi]
  · simp [intRRResult, hi]
  · rw [intRRResult, BitVec.getLsbD_not, BitVec.getLsbD_xor]
    cases a.getLsbD i <;> cases b.getLsbD i <;> simp [hi]
  · rw [intRRResult, h6]
    exact getLsbD_rotateLeft_mod a (Nat.mod_lt _ (by decide)) hi
  · rw [intRRResult, h6]
    exact getLsbD_rotateRight_mod a (Nat.mod_lt _ (by decide)) hi
  · rw [intRRResult, h5, getLsbD_sext32 _ hi, getLsbD_rotateLeft_mod _ (Nat.mod_lt _ (by decide)) (by omega)]
    exact getLsbD_low32 a (Nat.mod_lt _ (by decide))
  · rw [intRRResult, h5, getLsbD_sext32 _ hi, getLsbD_rotateRight_mod _ (Nat.mod_lt _ (by decide)) (by omega)]
    exact getLsbD_low32 a (Nat.mod_lt _ (by decide))

theorem immediateForms : Claim.ImmediateForms := by
  unfold Claim.ImmediateForms
  intro a imm sh i n
  have hi : i.toInt = imm.toInt := BitVec.toInt_signExtend_of_le (by decide)
  have hn : bits n.toNat 0 6 = sh.toNat := by
    rw [bits_zero, BitVec.toNat_setWidth]; omega
  have hn5 : sh.toNat < 32 → bits n.toNat 0 5 = sh.toNat := by
    intro h
    rw [bits_zero, BitVec.toNat_setWidth]; omega
  refine ⟨BitVec.toNat_add a i, ?_, ?_, rfl, rfl, rfl, ?_, ?_, ?_, ?_, ?_, ?_, fun h => ⟨?_, ?_, ?_, ?_⟩⟩
  · simp only [intRIResult, boolWord, BitVec.slt, decide_eq_true_eq]
    rw [← hi]
  · simp only [intRIResult, boolWord, BitVec.ult, decide_eq_true_eq]
    rfl
  · rw [intRIResult, toInt_sext32, BitVec.toInt_add, toInt_low32, toInt_low32, Int.bmod_add_bmod, Int.add_bmod_bmod, ← hi]
  · simp only [intShiftResult, intRRResult, hn]
  · simp only [intShiftResult, intRRResult, hn]
  · simp only [intShiftResult, intRRResult, hn]
  · simp only [intShiftResult, intRRResult, hn]
  · simp only [intShiftResult, BitVec.toNat_shiftLeft, Nat.shiftLeft_eq, low32, BitVec.toNat_setWidth]
    rw [Nat.mod_eq_of_lt (a := a.toNat % 2 ^ 32) (b := 2 ^ 64) (by omega)]
  · simp only [intShiftResult, intRRResult, hn5 h]
  · simp only [intShiftResult, intRRResult, hn5 h]
  · simp only [intShiftResult, intRRResult, hn5 h]
  · simp only [intShiftResult, intRRResult, hn5 h]

theorem branchConditions : Claim.BranchConditions := by
  unfold Claim.BranchConditions
  intro a b
  simp [branchHolds, BitVec.slt, BitVec.ult]

theorem unaryForms : Claim.UnaryForms := by
  unfold Claim.UnaryForms
  intro a res lo
  have hlt := a.isLt
  have hlo : lo < 2 ^ 32 := Nat.mod_lt _ (by decide)
  have hv : ∀ k, k ≤ 64 → (BitVec.ofNat 64 k).toNat = k := fun k hk => by rw [BitVec.toNat_ofNat]; omega
  have hclz : (res .clz).toNat = countLeading a.toNat 64 := hv _ (countLeading_spec _ _).2.2
  have hctz : (res .ctz).toNat = countTrailing a.toNat 64 := hv _ (countTrailing_spec _ _).2.2
  have hclzw : (res .clzw).toNat = countLeading lo 32 := by
    rw [countLeading_mod]; exact hv _ ((countLeading_spec _ _).2.2.trans (by decide))
  have hctzw : (res .ctzw).toNat = countTrailing lo 32 := by
    rw [countTrailing_mod]; exact hv _ ((countTrailing_spec _ _).2.2.trans (by decide))
  refine ⟨fun h => ?nz, fun h => ?z, fun h => ?nzw, fun h => ?zw, ?cpop, ?cpopw, ?sextB, ?sextH, ?zextH, fun k hk => ⟨?orc, ?rev⟩⟩
  case nz =>
    have h0 : a.toNat ≠ 0 := fun hc => h (BitVec.eq_of_toNat_eq hc)
    obtain ⟨hlow, htop, -⟩ := countTrailing_spec a.toNat 64
    obtain ⟨h1, h2⟩ := countLeading_bounds hlt h0
    rw [hclz, hctz]
    exact ⟨h1, h2, (bit_toNat a _).symm.trans (htop (countTrailing_lt hlt h0)), fun i hi => (bit_toNat a i).symm.trans (hlow i hi)⟩
  case z =>
    subst h
    exact ⟨congrArg (BitVec.ofNat 64) (countLeading_zero 64), congrArg (BitVec.ofNat 64) (countTrailing_zero 64)⟩
  case nzw =>
    obtain ⟨hlow, htop, hle⟩ := countTrailing_spec lo 32
    obtain ⟨h1, h2⟩ := countLeading_bounds hlo h
    have hl := countLeading_lt hlo h
    have ht := countTrailing_lt hlo h
    have hbit : ∀ i, i < 32 → a.getLsbD i = bit lo i := fun i hi => (bit_toNat a i).symm.trans (bit_mod _ _ _ hi).symm
    rw [hclzw, hctzw]
    exact ⟨hl, h1, h2, ht, (hbit _ ht).trans (htop ht), fun i hi => (hbit i (hi.trans ht)).trans (hlow i hi)⟩
  case zw =>
    have h1 : countLeading a.toNat 32 = 32 := by rw [← countLeading_mod]; exact (congrArg (countLeading · 32) h).trans (countLeading_zero 32)
    have h2 : countTrailing a.toNat 32 = 32 := by rw [← countTrailing_mod]; exact (congrArg (countTrailing · 32) h).trans (countTrailing_zero 32)
    exact ⟨congrArg (BitVec.ofNat 64) h1, congrArg (BitVec.ofNat 64) h2⟩
  case cpop =>
    refine (hv _ (countSet_le _ _)).trans ((length_filter_eq_sum _ _).trans ?_)
    simp only [bit_toNat]
  case cpopw =>
    refine (hv _ ((countSet_le _ _).trans (by decide))).trans ((length_filter_eq_sum _ _).trans ?_)
    simp only [bit_toNat]
  case sextB =>
    refine (BitVec.toInt_signExtend_of_le (by decide)).trans ?_
    rw [BitVec.toInt_setWidth, BitVec.toInt_eq_toNat_bmod, Int.bmod_bmod_of_dvd (by decide)]
  case sextH =>
    refine (BitVec.toInt_signExtend_of_le (by decide)).trans ?_
    rw [BitVec.toInt_setWidth, BitVec.toInt_eq_toNat_bmod, Int.bmod_bmod_of_dvd (by decide)]
  case zextH =>
    simp only [res, intUnaryResult, BitVec.toNat_setWidth]
    omega
  case orc =>
    have hb : (wordBytes a).getD k 0 = BitVec.ofNat 8 (a.toNat / 256 ^ k) := leBytes_getD 8 _ k hk
    have hz : BitVec.ofNat 8 (a.toNat / 256 ^ k) = 0#8 ↔ a.toNat / 256 ^ k % 256 = 0 := BitVec.toNat_inj.symm
    have hm : (List.map (fun b => if b = 0#8 then 0#8 else 0xFF#8) (wordBytes a)).getD k 0
      = if (wordBytes a).getD k 0 = 0#8 then 0#8 else 0xFF#8 := List.getD_map _ 0#8 _
    rw [show (res .orcB).toNat = _ from toNat_ofNat_leNat (by rw [List.length_map]; exact leBytes_length 8 _), leNat_byte, hm, hb]
    simp only [hz]
    split <;> rfl
  case rev =>
    have hlen : (wordBytes a).length = 8 := leBytes_length 8 _
    have hb : (wordBytes a).getD (7 - k) 0 = BitVec.ofNat 8 (a.toNat / 256 ^ (7 - k)) := leBytes_getD 8 _ _ (by omega)
    rw [show (res .rev8).toNat = _ from toNat_ofNat_leNat (by rw [List.length_reverse, hlen]), leNat_byte,
      List.getD_reverse k (by omega), hlen, hb, BitVec.toNat_ofNat]

/-- Settles O1: each form is exact arithmetic, narrowed by the lemma of its operator. -/
theorem integerArithmetic : Obligations.IntegerArithmetic :=
  ⟨registerArithmetic, wordArithmetic, bitForms, immediateForms, unaryForms, branchConditions⟩

end Sys2Proof.Proofs
end

-- ==== Loads and stores (O3) ====
section
/-! SUPPORT. Loads and stores of a control core, once their bytes translate (R39, R125). -/

namespace Sys2Proof.Machine

-- One proof at a time: the whole text compiles in one process of bounded memory.
set_option Elab.async false

theorem loadVa_ok {w : Who} {va n : Nat} {s t : State} {ps : List (Place × Nat)} {bss : List (List Byte)}
    (hp : (translateSpan w va n accR 0).run s = .ok ps t)
    (hr : ps.mapM (fun p => t.readable t.cur.bid none p.1.pa p.2) = some bss) :
    (loadVa w va n).run s = .ok (leNat bss.flatten) t := by
  simp only [loadVa, M.bind_ok hp, M.bind_curBid, M.bind_ok (loadAll_ok hr), M.run_pure]

theorem storeVa_ok {w : Who} {va n v : Nat} {s t : State} {ps : List (Place × Nat)}
    (hp : (translateSpan w va n accW 0).run s = .ok ps t) : (storeVa w va n v).run s = .ok () (t.storeSpan t.cur.bid ps n v) := by
  simp only [storeVa, M.bind_ok hp, M.bind_curBid, M.run_modify]

theorem StoreFrame.foldl {α : Type} {bid : Nat} {f : State → α → State} (h : ∀ s x, StoreFrame bid s (f s x)) (l : List α) (s : State) :
    StoreFrame bid s (l.foldl f s) := by
  induction l generalizing s with
  | nil => exact StoreFrame.refl bid s
  | cons x l ih => exact (h s x).trans (ih _)

theorem storeSpan_frame (s : State) (bid : Nat) (ps : List (Place × Nat)) (n v : Nat) : StoreFrame bid s (s.storeSpan bid ps n v) := by
  unfold State.storeSpan
  split
  · exact storeAt_frame _ _ _ _
  · exact StoreFrame.foldl (fun _ _ => storeAt_frame _ _ _ _) _ s

end Sys2Proof.Machine

namespace Sys2Proof.Proofs
open Sys2Proof Sys2Proof.Machine

theorem loadCompletes : Claim.LoadCompletes := by
  unfold Claim.LoadCompletes
  intro s t w d a imm ps bss hspan hread
  have hf := translateSpan_frame hspan
  have hload := loadVa_ok hspan (by rw [hf.cur]; exact hread)
  change execLoad w d a imm s = _
  refine runCc_modBank ?_ hf.cur ?_
  · simp only [M.bind_get, M.bind_curBank, M.bind_ok hload, M.run_writeX, hf.cur]
  · rw [Bank.writeX_pc, hf.core]

theorem storeCompletes : Claim.StoreCompletes := by
  unfold Claim.StoreCompletes
  intro s t w b a imm ps hspan
  have hf := translateSpan_frame hspan
  have hs := storeSpan_frame t s.cur.bid ps (storeSize w) ((s.own.readX b).toNat % 2 ^ (8 * storeSize w))
  change execStore w b a imm s = _
  refine runCc_state ?_ (hs.cur.trans hf.cur) ?_
  · simp only [M.bind_get, M.bind_curBank, M.bind_readX, storeVa_ok hspan, hf.cur]
  · rw [hs.core, hf.core]

/-- Settles O3: a span that translates is loaded or stored place by place, and neither changes the pc. -/
theorem loadsAndStoresComplete : Obligations.LoadsAndStoresComplete := ⟨loadCompletes, storeCompletes⟩

end Sys2Proof.Proofs
end

-- ==== What a store changes (O4) ====
section
/-! SUPPORT. The bytes that a store of a span leaves: runs of places that follow one another are the single places written in order (R125). -/

namespace Sys2Proof.Machine

-- One proof at a time: the whole text compiles in one process of bounded memory.
set_option Elab.async false

/-- Memory with bytes written at their places, one after another. -/
def Mem.writeEach (m : Mem) (l : List (Place × Byte)) : Mem := l.foldl (fun m x => m.set x.1.pa x.2) m

/-- Memory with runs written one after another. -/
def Mem.writeRuns (m : Mem) (rs : List (Place × List Byte)) : Mem := rs.foldl (fun m r => m.write r.1.pa r.2) m

theorem Mem.writeRuns_joinRuns (l : List (Place × Byte)) (m : Mem) : m.writeRuns (joinRuns l) = m.writeEach l := by
  induction l generalizing m with
  | nil => rfl
  | cons x l ih =>
    obtain ⟨p, v⟩ := x
    have hrest : m.writeEach ((p, v) :: l) = (m.set p.pa v).writeRuns (joinRuns l) := (ih (m.set p.pa v)).symm
    rw [hrest, joinRuns]
    split
    next q d more hj =>
      split
      next hq =>
        have hpa : q.pa = p.pa + 1 := by
          simp only [Bool.and_eq_true, decide_eq_true_eq] at hq
          exact hq.2
        simp only [Mem.writeRuns, List.foldl_cons, Mem.write, hj, hpa]
      · rw [hj]
        rfl
    next hj =>
      rw [hj]
      rfl

theorem mem_foldl_storeAt (bid : Nat) (rs : List (Place × List Byte)) (s : State) :
    (rs.foldl (fun s r => s.storeAt bid none r.1 r.2) s).mem = s.mem.writeRuns rs := by
  induction rs generalizing s with
  | nil => rfl
  | cons r rs ih =>
    rw [List.foldl_cons, ih, (storeAt_none s bid r.1 r.2).1]
    rfl

theorem Mem.get_writeEach_outside {l : List (Place × Byte)} {m : Mem} {x : Nat} (h : ∀ y ∈ l, y.1.pa ≠ x) :
    (m.writeEach l).get x = m.get x := by
  induction l generalizing m with
  | nil => rfl
  | cons y l ih =>
    have hy := h y (List.mem_cons_self ..)
    rw [Mem.writeEach, List.foldl_cons, ← Mem.writeEach, ih fun z hz => h z (List.mem_cons_of_mem _ hz), Mem.get_set, if_neg hy]

/-- A place that no later one names again holds the byte that was written there. -/
theorem Mem.get_writeEach {l : List (Place × Byte)} {m : Mem} {i : Nat} {y : Place × Byte} (hi : l[i]? = some y)
    (hlast : ∀ j z, i < j → l[j]? = some z → z.1.pa ≠ y.1.pa) : (m.writeEach l).get y.1.pa = y.2 := by
  induction l generalizing m i with
  | nil => cases hi
  | cons x l ih =>
    cases i with
    | zero =>
      obtain rfl : x = y := by simpa using hi
      have hout : ∀ z ∈ l, z.1.pa ≠ x.1.pa := fun z hz => by
        obtain ⟨j, hj⟩ := List.getElem?_of_mem hz
        exact hlast (j + 1) z (Nat.succ_pos j) (by simpa using hj)
      rw [Mem.writeEach, List.foldl_cons, ← Mem.writeEach, Mem.get_writeEach_outside hout, Mem.get_set, if_pos rfl]
    | succ i =>
      exact ih (by simpa using hi) fun j z hj hz => hlast (j + 1) z (by omega) (by simpa using hz)

/-- The memory after a store of a span of several places. -/
theorem mem_storeSpan_many {s : State} {bid n v : Nat} {ps : List (Place × Nat)} (h : ps.length ≠ 1) :
    (s.storeSpan bid ps n v).mem = s.mem.writeEach ((ps.map (·.1)).zip (leBytes n v)) := by
  unfold State.storeSpan
  split
  · exact absurd rfl h
  · rw [mem_foldl_storeAt, Mem.writeRuns_joinRuns]

theorem mem_storeSpan_one (s : State) (bid n v : Nat) (p : Place × Nat) :
    (s.storeSpan bid [p] n v).mem = s.mem.write p.1.pa (leBytes n v) := (storeAt_none s bid p.1 _).1

/-- A byte of the low bytes of a register. -/
theorem toNat_lowByte {n i : Nat} (x : Nat) (h : i < n) : ((leBytes n (x % 2 ^ (8 * n))).getD i 0).toNat = x / 2 ^ (8 * i) % 256 := by
  have h256 : (256 : Nat) ^ i = 2 ^ (8 * i) := by rw [Nat.pow_mul]
  have hsplit : 2 ^ (8 * n) = 2 ^ (8 * i) * (256 * 2 ^ (8 * (n - i - 1))) := by
    rw [show (256 : Nat) = 2 ^ 8 from rfl, ← Nat.pow_add, ← Nat.pow_add]
    congr 1
    omega
  rw [leBytes_getD _ _ _ h, BitVec.toNat_ofNat, h256, hsplit, Nat.mod_mul_right_div_self, Nat.mod_mul_right_mod]

/-- A store of a span changes no byte outside its places, which have one byte each where they are several. -/
theorem get_storeSpan_outside {s : State} {bid n v x : Nat} {ps : List (Place × Nat)}
    (hsz : (∃ p, ps = [(p, n)]) ∨ (n ≠ 1 ∧ ps.length = n ∧ ∀ p ∈ ps, p.2 = 1)) (hx : outside ps x) :
    (s.storeSpan bid ps n v).mem.get x = s.mem.get x := by
  rcases hsz with ⟨p, rfl⟩ | ⟨hn, hlen, hone⟩
  · rw [mem_storeSpan_one, Mem.get_write_outside]
    rw [leBytes_length]
    exact hx (p, n) (List.mem_singleton.mpr rfl)
  · rw [mem_storeSpan_many (by omega), Mem.get_writeEach_outside]
    intro y hy
    obtain ⟨q, hq, hqy⟩ := List.mem_map.mp (List.of_mem_zip hy).1
    have h1 := hone q hq
    have hout := hx q hq
    rw [← hqy]
    omega

/-- A byte of a span of several places, where no later place is the same. -/
theorem get_storeSpan_many {s : State} {bid n v i : Nat} {ps : List (Place × Nat)} {p : Place × Nat} (hlen : ps.length ≠ 1)
    (hn : ps.length = n) (hip : ps[i]? = some p) (hlast : ∀ j q, i < j → ps[j]? = some q → q.1.pa ≠ p.1.pa) :
    (s.storeSpan bid ps n v).mem.get p.1.pa = (leBytes n v).getD i 0 := by
  have hi : i < n := hn ▸ (List.getElem?_eq_some_iff.mp hip).1
  have hb : (leBytes n v)[i]? = some ((leBytes n v).getD i 0) := by
    rw [List.getD_eq_getElem?_getD, List.getElem?_eq_getElem (by rw [leBytes_length]; exact hi)]
    rfl
  rw [mem_storeSpan_many hlen]
  refine Mem.get_writeEach (y := (p.1, (leBytes n v).getD i 0)) (i := i) ?_ fun j z hj hz => ?_
  · rw [List.getElem?_zip_eq_some]
    exact ⟨by rw [List.getElem?_map, hip]; rfl, hb⟩
  · obtain ⟨q, hq, hqz⟩ := Option.map_eq_some_iff.mp ((List.getElem?_map ..).symm.trans (List.getElem?_zip_eq_some.mp hz).1)
    rw [← hqz]
    exact hlast j q hj hq

end Sys2Proof.Machine

namespace Sys2Proof.Proofs
open Sys2Proof Sys2Proof.Machine

/-- Settles O4: the store is its span's bytes written in order, and everything else is the frame of a store behind that of a translation. -/
theorem storeFrame : Obligations.StoreFrame := by
  unfold Obligations.StoreFrame
  intro s t u w b a imm ps hspan hu
  have ht := translateSpan_frame hspan
  have hs := storeSpan_frame t s.cur.bid ps (storeSize w) ((s.own.readX b).toNat % 2 ^ (8 * storeSize w))
  have hmem : u.mem = (t.storeSpan s.cur.bid ps (storeSize w) ((s.own.readX b).toNat % 2 ^ (8 * storeSize w))).mem := by
    rw [storeCompletes s t w b a imm ps hspan] at hu
    cases hu
    rfl
  have hcur : u.cur = s.cur := by
    rw [storeCompletes s t w b a imm ps hspan] at hu
    cases hu
    exact hs.cur.trans ht.cur
  have hbank : ∀ m, u.bank m = if s.cur.bid = m
      then (((t.storeSpan s.cur.bid ps (storeSize w) ((s.own.readX b).toNat % 2 ^ (8 * storeSize w))).bank m).setPc s.after).retire
      else (t.storeSpan s.cur.bid ps (storeSize w) ((s.own.readX b).toNat % 2 ^ (8 * storeSize w))).bank m := by
    rw [storeCompletes s t w b a imm ps hspan] at hu
    cases hu
    intro m
    rw [State.retires, State.bank_modBank, hs.cur, ht.cur]
    split
    next h => rw [h]; rfl
    · rfl
  have hrest : u.vfs = t.vfs ∧ u.nests = t.nests ∧ u.slots = t.slots ∧ u.host = { t.host with peerResvs := u.host.peerResvs }
      ∧ ∀ r ∈ u.host.peerResvs, r ∈ t.host.peerResvs := by
    rw [storeCompletes s t w b a imm ps hspan] at hu
    cases hu
    have hr := hs.rest
    exact ⟨(congrArg State.vfs hr :), (congrArg State.nests hr :), (congrArg State.slots hr :), (congrArg State.host hr :), hs.peers⟩
  have hsz := translateSpan_sizes hspan
  have hw : 0 < storeSize w := by cases w <;> decide
  obtain ⟨hvfs, hnests, hslots, hhost, hpeers⟩ := hrest
  have htr := ht.rest
  refine ⟨fun x hx => ?_, fun p hp i hi => ?_, fun i p hlen hip => ?_, fun m hm => ?_, ?_, hvfs.trans (congrArg State.vfs htr :),
    hnests.trans (congrArg State.nests htr :), hslots.trans (congrArg State.slots htr :), ?_, fun r hr => ht.peers r (hpeers r hr)⟩
  · rw [hmem, get_storeSpan_outside hsz hx]
  · subst hp
    rw [hmem, mem_storeSpan_one, Mem.get_write, leBytes_length, if_pos ⟨Nat.le_add_right .., Nat.add_lt_add_left hi _⟩, Nat.add_sub_cancel_left, toNat_lowByte _ hi]
  · have hmany : ps.length = storeSize w ∧ ∀ p ∈ ps, p.2 = 1 := by
      rcases hsz with ⟨q, rfl⟩ | ⟨-, h⟩
      · exact absurd rfl hlen
      · exact h
    refine ⟨hmany.2 p (List.mem_of_getElem? hip), fun hlast => ?_⟩
    rw [hmem, get_storeSpan_many hlen hmany.1 hip hlast,
      toNat_lowByte _ (hmany.1 ▸ (List.getElem?_eq_some_iff.mp hip).1)]
  · rw [hbank m, if_neg hm.symm]
    have h1 := hs.other m hm
    have h2 := ht.own m
    constructor
    · rw [h1, h2]
    · rcases hs.resv m hm with h | h
      · rw [h]; exact ht.resv m
      · exact .inr h
  · have h1 := hs.own
    have h2 := ht.own s.cur.bid
    have hb := hbank s.cur.bid
    rw [if_pos rfl] at hb
    rw [State.own, State.own, hcur, hb, h1, h2]
    rfl
  · rw [hhost, htr]

end Sys2Proof.Proofs
end

-- ==== Atomics (O6) ====
section
/-! SUPPORT. What leaves every control core's registers, and which bank runs, alone; stores and snoops do (R148, R149). Irrevocable forms
that stop (R259). -/

namespace Sys2Proof.Machine

-- One proof at a time: the whole text compiles in one process of bounded memory.
set_option Elab.async false

/-- Which bank runs, the time, and the registers of every control core are kept. -/
structure CoresKept (s t : State) : Prop where
  cur : t.cur = s.cur
  cycle : t.cycle = s.cycle
  core : ∀ m, (t.bank m).core = (s.bank m).core

theorem CoresKept.refl (s : State) : CoresKept s s := ⟨rfl, rfl, fun _ => rfl⟩

theorem CoresKept.trans {s t u : State} (h : CoresKept s t) (k : CoresKept t u) : CoresKept s u :=
  ⟨k.cur.trans h.cur, k.cycle.trans h.cycle, fun m => (k.core m).trans (h.core m)⟩

theorem CoresKept.of_store {bid : Nat} {s t : State} (h : StoreFrame bid s t) : CoresKept s t := ⟨h.cur, h.cycle, h.core⟩

theorem CoresKept.of_translated {s t : State} (h : Translated s t) : CoresKept s t := ⟨h.cur, by rw [h.rest], h.core⟩

theorem CoresKept.of_phase {s t : State} (h : PhaseFrame s t) : CoresKept s t := ⟨h.cur, h.cycle, h.core⟩

theorem CoresKept.foldl {α : Type} {f : State → α → State} (h : ∀ s x, CoresKept s (f s x)) (l : List α) (s : State) :
    CoresKept s (l.foldl f s) := by
  induction l generalizing s with
  | nil => exact CoresKept.refl s
  | cons x l ih => exact (h s x).trans (ih _)

theorem CoresKept.modBank {s : State} {i : Nat} {f : Bank → Bank} (h : ∀ b, (f b).core = b.core) : CoresKept s (s.modBank i f) :=
  CoresKept.of_phase (PhaseFrame.modBank h)

theorem CoresKept.breakResv (s : State) (o : Option Nat) (pa n : Nat) : CoresKept s (s.breakResv o pa n) :=
  ⟨rfl, rfl, fun m => by rw [(breakResv_bank s o pa n m).1]⟩

theorem CoresKept.unpoison (s : State) (pa n : Nat) : CoresKept s (s.unpoison pa n) := ⟨rfl, rfl, fun _ => rfl⟩

theorem CoresKept.storeFrom (s : State) (a : DAgent) (o : Option Nat) (pa : Nat) (d : List Byte) : CoresKept s (s.storeFrom a o pa d) := by
  unfold State.storeFrom
  dsimp only
  have hw : CoresKept s { s with mem := s.mem.write pa d } := ⟨rfl, rfl, fun _ => rfl⟩
  generalize ({ s with mem := s.mem.write pa d } : State) = t at *
  have hd := CoresKept.of_store (durable_frame t 0 a pa d.length 0 s.ticks []).2
  generalize t.durable a pa d.length 0 s.ticks [] = u at *
  exact hw.trans (hd.trans ((CoresKept.breakResv u o pa d.length).trans (CoresKept.unpoison _ pa d.length)))

theorem CoresKept.hostAtomic (s : State) (line : Nat) (a : HostAtomic) : CoresKept s (s.hostAtomic line a) := by
  unfold State.hostAtomic
  dsimp only
  split
  · exact ⟨rfl, rfl, fun _ => rfl⟩
  · exact (CoresKept.storeFrom s hostAgent none _ _).trans ⟨rfl, rfl, fun _ => rfl⟩

theorem CoresKept.takeLine (s : State) (n : Snoop) : CoresKept s (s.takeLine n) := by
  unfold State.takeLine State.hostActs
  have hb : CoresKept s { s.breakResv none (n.line * 64) 64 with dirtyHost := s.dirtyHost.filter (fun l => l.1.line ≠ n.line) } :=
    (CoresKept.breakResv s none (n.line * 64) 64).trans ⟨rfl, rfl, fun _ => rfl⟩
  split
  · exact hb.trans (CoresKept.hostAtomic _ _ _)
  · exact hb

theorem CoresKept.answerSnoops (s : State) : CoresKept s s.answerSnoops := by
  unfold State.answerSnoops
  have h0 : CoresKept s { s with host := { s.host with snoops := s.host.snoops.filter s.keepsSnoop } } := ⟨rfl, rfl, fun _ => rfl⟩
  exact h0.trans (CoresKept.foldl (fun s n => CoresKept.takeLine s n) _ _)

theorem CoresKept.storeAtomic (s : State) (bid : Nat) (p : Place) (d : List Byte) : CoresKept s (s.storeAtomic bid p d) :=
  (CoresKept.of_store (dirtyLines_frame s bid (dieOf bid) (s.bank bid).vfId p.pa d.length 0).2).trans
    (CoresKept.of_store (storeAt_frame _ bid p d))

theorem CoresKept.issues (s : State) : CoresKept s s.issues := CoresKept.of_phase s.issues_frame

theorem CoresKept.readX {s t : State} (h : CoresKept s t) (m : Nat) (r : Reg) : (t.bank m).readX r = (s.bank m).readX r :=
  Bank.readX_core (h.core m) r

/-- An irrevocable form whose checks stop, stops behind the commit of the open phase. -/
theorem irrevocable_error {α : Type} {checks : M α} {effect : α → M Unit} {s t : State} {e : Stop}
    (hs : s.settled s.cur.bid = true) (hc : checks.run s.issues = .error e t) : (irrevocable checks effect).run s = .error e t := by
  unfold irrevocable irrevocableTo
  exact M.bind_error (by rw [M.bind_ok (issueIrrevocable_ok hs), M.bind_error hc])

/-- An irrevocable form that traps in its checks. -/
theorem runCc_irrevocable_trap {α : Type} {checks : M α} {effect : α → M Unit} {s t : State} {c v : Nat}
    (hs : s.settled s.cur.bid = true) (hc : checks.run s.issues = .error (.trap c v) t) :
    runCc (irrevocable checks effect) s = .next (t.takeTrap s.cur.bid c v) := by
  rw [runCc_error (irrevocable_error hs hc)]
  rfl

/-- An irrevocable form whose last effect is to write rd. -/
theorem runCc_irrevocable_writeX {α : Type} {checks : M α} {effect : α → M Unit} {s t u : State} {x : α} {d : Reg} {v : Word}
    (hs : s.settled s.cur.bid = true) (hc : checks.run s.issues = .ok x t)
    (he : (effect x).run t = .ok () (u.modBank s.cur.bid (·.writeX d v))) (hu : CoresKept s u) :
    runCc (irrevocable checks effect) s
      = .next (((u.modBank s.cur.bid (·.writeX d v)).beginPhase s.cur.bid s.after).retires (fun b => b) s.after) := by
  refine runCc_irrevocable hs hc he hu.cur ?_
  rw [State.modBank, State.bank_setBank, if_pos rfl, Bank.writeX_pc, hu.core]

theorem CoresKept.atomicPlace {a : Reg} {dbl rl : Bool} {acc c : Nat} {s t : State} {p : Place}
    (h : (atomicPlace a dbl rl acc c).run s = .ok p t) : CoresKept s t := by
  obtain ⟨hcur, hcyc, hcore⟩ := atomicPlace_frame h
  exact ⟨hcur, hcyc, hcore⟩

theorem atomicPlace_misaligned {a : Reg} {dbl rl : Bool} {acc c : Nat} {s : State} (h : (s.own.readX a).toNat % amoSize dbl ≠ 0) :
    (atomicPlace a dbl rl acc c).run s = .error (.trap c (s.own.readX a).toNat) s := by
  simp only [atomicPlace, M.bind_get, M.bind_readX, ne_eq]
  rw [if_pos h]
  rfl

end Sys2Proof.Machine

namespace Sys2Proof.Proofs
open Sys2Proof Sys2Proof.Machine

theorem misalignedAtomicTraps : Claim.MisalignedAtomicTraps := by
  unfold Claim.MisalignedAtomicTraps
  intro s op dbl aq rl d a b hs hmis
  have hread : s.issues.own.readX a = s.own.readX a := by
    rw [State.own, s.issues_cur, (CoresKept.issues s).readX]
  have hchk : ∀ acc c, (atomicPlace a dbl rl acc c).run s.issues = .error (.trap c (s.own.readX a).toNat) s.issues := fun acc c => by
    rw [atomicPlace_misaligned (by rw [hread]; exact hmis), hread]
  refine ⟨?_, ?_, ?_⟩
  · change execAmo op dbl aq rl d a b s = _
    exact runCc_irrevocable_trap hs (M.bind_error (hchk _ _))
  · change execSc dbl aq rl d a b s = _
    exact runCc_irrevocable_trap hs (hchk _ _)
  · change execLr dbl aq rl d a s = _
    exact runCc_irrevocable_trap hs (M.bind_error (hchk _ _))

theorem atomicsComplete : Claim.AtomicsComplete := by
  unfold Claim.AtomicsComplete
  intro s t op dbl aq rl d a b p bs id done hs
  have kept : ∀ {acc c}, (atomicPlace a dbl rl acc c).run s.issues = .ok p t → CoresKept s t := fun h =>
    (CoresKept.issues s).trans (CoresKept.atomicPlace h)
  refine ⟨fun hp hr => ?_, fun hp hr => ?_, fun hp => ⟨fun hv => ?_, fun hv => ?_⟩⟩
  all_goals
    have hk := kept hp
    have hcur : t.cur.bid = id := congrArg _ hk.cur
  · change execAmo op dbl aq rl d a b s = _
    have hx : (t.bank id).readX b = s.own.readX b := hk.readX _ _
    refine runCc_irrevocable_writeX (t := t) (x := (p, leNat bs)) hs ?_ ?_ (hk.trans (CoresKept.storeAtomic ..))
    · rw [M.bind_ok hp, M.bind_curBid, hcur, M.bind_ok (loadBytes_ok hr), M.run_pure]
    · simp only [M.bind_readX, M.bind_curBid, M.bind_modify, M.run_writeX, hcur, hx, (CoresKept.storeAtomic ..).cur]
      rfl
  · change execLr dbl aq rl d a s = _
    have hres : CoresKept t (t.modBank id (fun b => { b with resv := some ⟨p.pa, amoSize dbl, leNat bs, s.cycle, isDomain p.pa⟩ })) :=
      CoresKept.modBank fun _ => rfl
    refine runCc_irrevocable_writeX (t := t) (x := (p, leNat bs)) hs ?_ ?_ (hk.trans (hres.trans (CoresKept.answerSnoops _)))
    · rw [M.bind_ok hp, M.bind_curBid, hcur, M.bind_ok (loadBytes_ok hr), M.run_pure]
    · simp only [M.bind_get, M.bind_modCur, M.bind_modify, M.run_writeX, hcur, hk.cycle, (CoresKept.answerSnoops _).cur, hres.cur]
      rfl
  · change execSc dbl aq rl d a b s = _
    have hx : (t.bank id).readX b = s.own.readX b := hk.readX _ _
    have hst := CoresKept.storeAtomic t id p (leBytes (amoSize dbl) (s.own.readX b).toNat)
    generalize hu : t.storeAtomic id p (leBytes (amoSize dbl) (s.own.readX b).toNat) = u at *
    have hres : CoresKept u (u.modBank id (fun b => { b with resv := none })) := CoresKept.modBank fun _ => rfl
    refine runCc_irrevocable_writeX (t := t) (x := p) hs hp ?_ (hk.trans (hst.trans (hres.trans (CoresKept.answerSnoops _))))
    simp only [M.bind_readX, M.bind_curBid, M.bind_curBank, hx, hcur, hv, if_true, M.bind_modify, hu, M.bind_modCur, M.run_writeX,
      (CoresKept.answerSnoops _).cur, hres.cur, hst.cur]
    rfl
  · change execSc dbl aq rl d a b s = _
    have hres : CoresKept t (t.modBank id (fun b => { b with resv := none })) := CoresKept.modBank fun _ => rfl
    refine runCc_irrevocable_writeX (t := t) (x := p) hs hp ?_ (hk.trans (hres.trans (CoresKept.answerSnoops _)))
    simp only [M.bind_readX, M.bind_curBid, M.bind_curBank, hcur, hv, Bool.false_eq_true, if_false, M.bind_modCur,
      M.bind_modify, M.run_writeX, (CoresKept.answerSnoops _).cur, hres.cur]
    rfl

/-- Settles O6: an atomic is an irrevocable form whose checks are its place, and whose effect leaves the control cores' registers alone but
for rd. -/
theorem atomics : Obligations.Atomics := ⟨misalignedAtomicTraps, atomicsComplete⟩

end Sys2Proof.Proofs
end

-- ==== Translation (O5) ====
section
/-! SUPPORT. Translation: the TLBs change only as TLBs, and the walker's write of a leaf (R30, R31, R34, R35). -/

namespace Sys2Proof.Machine

-- One proof at a time: the whole text compiles in one process of bounded memory.
set_option Elab.async false

/-- Only the TLBs of cores and dies may differ. -/
structure TlbsOnly (s t : State) : Prop where
  rest : t = { s with cores := t.cores, dies := t.dies }
  core : ∀ g, { t.coreSt g with tlb := (s.coreSt g).tlb } = s.coreSt g
  die : ∀ d, { t.die d with tlb := (s.die d).tlb } = s.die d

theorem TlbsOnly.refl (s : State) : TlbsOnly s s := ⟨rfl, fun _ => rfl, fun _ => rfl⟩

theorem TlbsOnly.trans {s t u : State} (h : TlbsOnly s t) (k : TlbsOnly t u) : TlbsOnly s u := by
  refine ⟨?_, fun g => ?_, fun d => ?_⟩
  · have k1 := k.rest
    rw [h.rest] at k1
    exact k1
  · rw [← h.core g, ← k.core g]
  · rw [← h.die d, ← k.die d]

theorem TlbsOnly.modDie (s : State) (d : Nat) (f : List TlbEntry → List TlbEntry) :
    TlbsOnly s (s.modDie d (fun x => { x with tlb := f x.tlb })) := by
  refine ⟨rfl, fun _ => rfl, fun e => ?_⟩
  rw [State.die_modDie]
  split
  next h => rw [h]
  · rfl

theorem TlbsOnly.modCore (s : State) (g : Nat) (f : List TlbEntry → List TlbEntry) :
    TlbsOnly s (s.modCore g (fun x => { x with tlb := f x.tlb })) := by
  refine ⟨rfl, fun h => ?_, fun _ => rfl⟩
  rw [State.modCore_eq, State.coreSt_setCore]
  split
  next h => rw [h]
  · rfl

theorem tlbFill_only (s : State) (w : Who) (l : Leaf) : TlbsOnly s (s.tlbFill w l) := by
  unfold State.tlbFill
  dsimp only
  have hd := TlbsOnly.modDie s w.die (tlbInsert 8192 s.ticks · ⟨w.vf, w.asid, l⟩)
  split
  · exact hd.trans (TlbsOnly.modCore _ _ (tlbInsert 128 _ · ⟨w.vf, w.asid, l⟩))
  · exact hd

theorem tlbDrop_only (s : State) (w : Who) (va : Nat) : TlbsOnly s (s.tlbDrop w va) := by
  unfold State.tlbDrop
  dsimp only
  have hd := TlbsOnly.modDie s w.die (List.filter (fun (e : TlbEntry) => !e.hits w.vf w.asid va))
  split
  · exact hd.trans (TlbsOnly.modCore _ _ (List.filter (fun (e : TlbEntry) => !e.hits w.vf w.asid va)))
  · exact hd

theorem tlbRenew_only (s : State) (w : Who) (va : Nat) (l : Leaf) : TlbsOnly s (s.tlbRenew w va l) :=
  (tlbDrop_only s w va).trans (tlbFill_only _ w l)

/-- The walker's write of a leaf touches no register of a core and no field of a die. -/
theorem touch_cores (s : State) (w : Who) (l : Leaf) (acc : Nat) :
    (s.touch w l acc).cores = s.cores ∧ (s.touch w l acc).dies = s.dies := by
  unfold State.touch
  split
  · dsimp only
    rw [dirtyLines_eq, durable_eq]
    exact ⟨rfl, rfl⟩
  · exact ⟨rfl, rfl⟩

/-- The walker's write of a leaf changes memory where it has A or D to set, and there alone. -/
theorem touch_mem_eq (s : State) (w : Who) (l : Leaf) (acc : Nat) :
    (s.touch w l acc).mem = if s.marks l acc then s.mem.set l.pte (s.marked l acc) else s.mem := by
  unfold State.touch
  split
  · dsimp only
    rw [dirtyLines_eq]
    show (State.durable _ _ _ _ _ _ _).mem = _
    rw [durable_eq]
  · rfl

theorem touch_unmarked {s : State} {w : Who} {l : Leaf} {acc : Nat} (h : s.marks l acc = false) : s.touch w l acc = s := by
  rw [State.touch, h]
  rfl

/-- Where A or D is to be set, the entry differs from what it becomes. -/
theorem marked_ne {s : State} {l : Leaf} {acc : Nat} (h : s.marks l acc = true) : s.marked l acc ≠ s.mem.get l.pte := by
  simp only [State.marks, Bool.and_eq_true, decide_eq_true_eq] at h
  exact h.2

/-- What the low byte of a leaf becomes: A is set, and D for a write. -/
theorem marked_eq (s : State) (l : Leaf) (acc : Nat) :
    s.marked l acc = s.mem.get l.pte ||| 0x40#8 ∨ (bit acc 1 = true ∧ s.marked l acc = s.mem.get l.pte ||| 0xC0#8) := by
  unfold State.marked
  cases bit acc 1 with
  | false => exact .inl (by rw [if_neg (by decide), BitVec.or_zero])
  | true => exact .inr ⟨rfl, by rw [if_pos rfl, BitVec.or_assoc]; rfl⟩

/-- The states that a translation goes through: TLBs, then the walker's write. -/
theorem translate_steps {w : Who} {va acc pol : Nat} {s t : State} {p : Place} (h : (translate w va acc pol).run s = .ok p t) :
    ∃ u, TlbsOnly s u ∧ t = u.touch w p.leaf acc := by
  obtain ⟨l, u, -, hu, -, hl, rfl⟩ := translate_cases h
  refine ⟨u, ?_, (land_cases hl).2.2.2⟩
  rcases hu with ⟨-, rfl⟩ | ⟨-, rfl⟩
  · exact TlbsOnly.refl _
  · exact tlbRenew_only s w va l

/-- A translation through a leaf of the TLBs. -/
theorem translate_hit {s : State} {w : Who} {va acc pol : Nat} {l : Leaf} (hc : canonical va = true) (hd : l.denies w acc = 0)
    (h : s.tlbLookup w va = some l) : (translate w va acc pol).run s = (landOn w l va acc pol).run s := by
  simp only [translate, hc, Bool.not_true, Bool.false_eq_true, if_false, M.bind_get, M.bind_pure, h, hd, if_true]

/-- A translation that walks: the TLBs hold no leaf of the address, or one that denies the access. -/
theorem translate_miss {s : State} {w : Who} {va acc pol : Nat} (hc : canonical va = true)
    (h : s.tlbLookup w va = none ∨ ∃ l, s.tlbLookup w va = some l ∧ l.denies w acc ≠ 0) :
    (translate w va acc pol).run s = (walkLeaf w va acc >>= fun l => landOn w l va acc pol).run s := by
  rcases h with h | ⟨l, h, hd⟩
  · simp only [translate, hc, Bool.not_true, Bool.false_eq_true, if_false, M.bind_get, h]
  · simp only [translate, hc, Bool.not_true, Bool.false_eq_true, if_false, M.bind_get, h, hd]

/-- An access through a leaf that permits it stops where its landing does. -/
theorem landOn_error {w : Who} {l : Leaf} {va acc pol : Nat} {s : State} {e : Stop} (hd : l.denies w acc = 0)
    (hp : s.land w l acc (l.pa + (va - l.va)) 1 = .error e) : (landOn w l va acc pol).run s = .error (e.atVa va acc 0) s := by
  simp [landOn, hd, hp]

/-- An access through a leaf that permits it, where the checks behind its translation pass: it lands, or the walker cannot set A or D. -/
theorem landOn_passes {t : State} {w : Who} {va acc pol : Nat} {l : Leaf} (hd : l.denies w acc = 0)
    (hp : t.passes w (l.pa + (va - l.va)) 1 = .ok ()) :
    ((t.marks l acc = false ∨ (t.linkUp w.die l.pte = true ∧ (isDurable l.pte = false ∨ t.betony.rdy = true))) →
      (landOn w l va acc pol).run t = .ok ⟨l.pa + (va - l.va), max l.ceil pol, l.io, l⟩ (t.touch w l acc))
    ∧ (t.marks l acc = true → t.linkUp w.die l.pte = false → (landOn w l va acc pol).run t = .error (.access 6 va acc 0) t)
    ∧ (t.marks l acc = true → t.linkUp w.die l.pte = true → isDurable l.pte = true → t.betony.rdy = false →
      (landOn w l va acc pol).run t = .error .wait t) := by
  refine ⟨fun h => landOn_ok hd (land_ok hp ?_ ?_), fun hm hl => landOn_error hd (e := .access 6 0 0 0) ?_,
    fun hm hl hi hr => landOn_error hd (e := .wait) ?_⟩
  · rcases h with h | ⟨h, -⟩ <;> simp [h]
  · rcases h with h | ⟨-, h | h⟩ <;> simp [h]
  · simp only [State.land, hp, hm, hl, Bool.not_false, Bool.and_self, if_true]
  · simp only [State.land, hp, hm, hl, hi, hr, Bool.not_false, Bool.not_true, Bool.and_false, Bool.and_self, Bool.false_eq_true, if_false,
      if_true]

end Sys2Proof.Machine

namespace Sys2Proof.Proofs
open Sys2Proof Sys2Proof.Machine

theorem translationCompletes : Claim.TranslationCompletes := by
  unfold Claim.TranslationCompletes
  intro s w va acc pol l hc hd lands
  refine ⟨fun hit hp => ?_, fun miss => ⟨fun hw hp => ?_, fun hw => ?_⟩⟩
  · rw [translate_hit hc hd hit]
    exact landOn_passes hd hp
  · rw [translate_miss hc miss, M.bind_ok (walkLeaf_ok hw)]
    exact landOn_passes hd hp
  · rw [translate_miss hc miss]
    exact M.bind_error (by simp only [walkLeaf, M.bind_get, hw, M.run_waitMore])

theorem translationFrame : Claim.TranslationFrame := by
  unfold Claim.TranslationFrame
  intro s t w va acc pol p h
  have hf := translate_frame h
  have hr := hf.rest
  obtain ⟨u, hu, rfl⟩ := translate_steps h
  have hur := hu.rest
  have hmem : u.mem = s.mem := by rw [hur]
  have hm := touch_mem_eq u w p.leaf acc
  obtain ⟨hcores, hdies⟩ := touch_cores u w p.leaf acc
  refine ⟨⟨fun m => ⟨hf.own m, hf.resv m⟩, (congrArg State.vfs hr :), (congrArg State.nests hr :), (congrArg State.slots hr :),
    (congrArg State.host hr :), hf.peers, (congrArg State.saved hr :), hf.cur, (congrArg State.cycle hr :),
    (congrArg State.ftime hr :), (congrArg State.poison hr :), (congrArg State.schedule hr :), fun g => ?_, fun d => ?_⟩,
    fun x hx => ?_, ?_, fun heq => ?_⟩
  · rw [State.coreSt, hcores]
    exact hu.core g
  · rw [State.die, hdies]
    exact hu.die d
  · rw [hm]
    split
    · rw [Mem.get_set, if_neg hx.symm, hmem]
    · rw [hmem]
  · rw [hm, ← hmem]
    split
    · rw [Mem.get_set, if_pos rfl]
      exact .inr (marked_eq u p.leaf acc)
    · exact .inl rfl
  · have hno : u.marks p.leaf acc = false := by
      by_contra hyes
      rw [Bool.not_eq_false] at hyes
      rw [hm, if_pos hyes, Mem.get_set, if_pos rfl, ← hmem] at heq
      exact marked_ne hyes heq
    rw [touch_unmarked hno]
    exact ⟨by rw [hur], by rw [hur], by rw [hur]⟩

/-- Settles O5, by the two paths to a leaf, the TLBs and a walk, and what the access does behind it. -/
theorem translation : Obligations.Translation := ⟨translationCompletes, translationFrame⟩

end Sys2Proof.Proofs
end

-- ==== Fences and barriers (O13) ====
section
/-! SUPPORT. Fences and barriers of the control core that retire, wait or trap (R79, R80, R139, R146). -/

namespace Sys2Proof.Machine

-- One proof at a time: the whole text compiles in one process of bounded memory.
set_option Elab.async false

/-- A body that changes nothing retires its instruction. -/
theorem runCc_same {body : M Unit} {s : State} (h : body.run s = .ok () s) : runCc body s = .next (s.retires id s.after) :=
  runCc_state h rfl rfl

/-- A body that waits leaves its state as the next. -/
theorem runCc_wait {body : M Unit} {s t : State} (h : body.run s = .error .wait t) : runCc body s = .next t := runCc_error h

theorem runCc_trap {body : M Unit} {s t : State} {c v : Nat} (h : body.run s = .error (.trap c v) t) :
    runCc body s = .next (t.takeTrap s.cur.bid c v) := runCc_error h

/-- A domain fence of the scopes 4 and 5. -/
theorem execFenceS_domain {c : BitVec 3} {s : State} (h : c.toNat = 4 ∨ c.toNat = 5) :
    execFenceS c s = runCc (fenceWait false) s := by
  unfold execFenceS
  rw [if_neg (by omega), if_neg (by omega)]

theorem fenceWait_held {rl : Bool} {s : State} (h : s.fenceHeld s.own = true) : (fenceWait rl).run s = .error (.trap 54 0) s := by
  simp only [fenceWait, M.bind_get, M.bind_curBank]
  rw [if_pos h]
  rfl

theorem fenceWait_over {rl : Bool} {s : State} (h : s.fenceHeld s.own = false) (ho : s.fenceOver s.own = true) :
    (fenceWait rl).run s = .ok () (s.modBank s.cur.bid (fun b => { b with wait := .none })) := by
  simp only [fenceWait, M.bind_get, M.bind_curBank, h, ho, Bool.false_eq_true, if_false, if_true, M.run_modCur]

theorem fenceWait_waits {s : State} (h : s.fenceHeld s.own = false) (ho : s.fenceOver s.own = false) :
    (fenceWait false).run s = .error .wait (s.modBank s.cur.bid (fun b => { b with wait := .fenceS (s.fenceWindows s.own) })) := by
  simp only [fenceWait, M.bind_get, M.bind_curBank, h, ho, Bool.false_eq_true, if_false, M.bind_modCur, M.run_waitMore]
  rfl

end Sys2Proof.Machine

namespace Sys2Proof.Proofs
open Sys2Proof Sys2Proof.Machine

theorem fencesComplete : Claim.FencesComplete := by
  unfold Claim.FencesComplete
  intro s fm pre suc imm a d c
  refine ⟨?_, ?_, ?_, fun hc => ?_, fun hc => ⟨fun hh => ?_, fun hh ho => ?_, fun hh ho => ?_⟩⟩
  · change execFence fm pre suc a d s = _
    exact runCc_same rfl
  · change execFenceTso a d s = _
    exact runCc_same rfl
  · change execFenceI imm a d s = _
    exact runCc_same rfl
  · change execFenceS c s = _
    unfold execFenceS
    rw [if_neg (by omega), if_pos hc]
    exact runCc_same rfl
  · change execFenceS c s = _
    rw [execFenceS_domain hc]
    exact runCc_trap (fenceWait_held hh)
  · change execFenceS c s = _
    rw [execFenceS_domain hc, runCc_modBank (fenceWait_over hh ho) rfl rfl]
    rfl
  · change execFenceS c s = _
    rw [execFenceS_domain hc]
    exact runCc_wait (fenceWait_waits hh ho)

theorem fenceWindows : Claim.FenceWindows := by
  unfold Claim.FenceWindows
  intro s b hw
  refine ⟨fun h => ?_, fun l w h => ?_⟩
  · simp only [State.fenceOver, h, List.isEmpty_nil, Bool.true_or]
  · simp only [State.fenceOver, h, State.fenceWindows, hw, lastWindow, State.windowWait, State.window, List.isEmpty_cons, Bool.false_or,
      List.foldl_cons, List.foldl_nil, Nat.zero_max]

theorem persistBarriersComplete : Claim.PersistBarriersComplete := by
  unfold Claim.PersistBarriersComplete
  intro s t a p
  refine ⟨?_, fun h => ?_, fun h => ?_, fun h => ?_, fun h => ?_⟩
  · change execPbar 0#3 s = _
    exact runCc_modBank rfl rfl rfl
  · change execPbar 1#3 s = _
    refine runCc_same ?_
    simp only [M.bind_get]
    exact congrArg (fun m : M Unit => m.run s) (if_neg (not_not.mpr h))
  · change execPbar 2#3 s = _
    refine runCc_same ?_
    simp only [M.bind_get]
    refine congrArg (fun m : M Unit => m.run s) (if_neg ?_)
    simp only [List.any_eq_true, not_exists, not_and]
    intro m hm
    obtain ⟨hq, hb, hp⟩ := h m hm
    simp [hq, hb, hp]
  · change execPbar 2#3 s = _
    refine runCc_wait ?_
    simp only [M.bind_get]
    refine congrArg (fun m : M Unit => m.run s) (if_pos ?_)
    obtain ⟨m, hm, h⟩ := h
    refine List.any_eq_true.mpr ⟨m, hm, ?_⟩
    rcases h with h | h | h <;> simp [h]
  · change execPwb a s = _
    have hf := translate_frame h
    exact runCc_state (by simp only [M.bind_get, M.bind_readX, M.bind_ok h, M.run_pure]) hf.cur (by rw [hf.core])

/-- Settles O13, by the branches of the domain wait, and of each barrier. -/
theorem fencesAndBarriers : Obligations.FencesAndBarriers := ⟨fencesComplete, fenceWindows, persistBarriersComplete⟩

end Sys2Proof.Proofs
end

-- ==== Control and status registers (O7) ====
section
/-! SUPPORT. Accesses of control and status registers (R222, R226). -/

namespace Sys2Proof.Machine

-- One proof at a time: the whole text compiles in one process of bounded memory.
set_option Elab.async false

/-- The registers that can be read are those of the table (R226). -/
theorem readCsr_isSome (s : State) (bid n : Nat) : (s.readCsr bid n).isSome = true ↔
    n ∈ [0xC00, 0xC01, 0xC02, 0xCC0, 0xCC1, 0xCC2, 0xCC3, 0xCC4, 0xCC5, 0x100, 0x104, 0x105, 0x106, 0x140, 0x141, 0x142, 0x143, 0x144,
      0x180] := by
  unfold State.readCsr
  simp only [List.mem_cons, List.not_mem_nil, or_false]
  split <;> simp_all

/-- A register is refused to an access that its mode does not allow, or that writes a read-only one. -/
theorem csrRefuses_iff (b : Bank) (csr : BitVec 12) (w : Bool) :
    b.csrRefuses csr.toNat w = true ↔ b.csrAllowed csr.toNat = false ∨ (w = true ∧ csrReadOnly csr) := by
  have hbits : bits csr.toNat 10 2 = 3 ↔ csr.extractLsb' 10 2 = 3#2 := by
    simp [bits, BitVec.toNat_eq, Nat.shiftRight_eq_div_pow]
  have h180 : csr.toNat = 0x180 ↔ csr = 0x180#12 := by simp [BitVec.toNat_eq]
  simp only [Bank.csrRefuses, csrReadOnly, Bool.or_eq_true, Bool.and_eq_true, Bool.not_eq_true', decide_eq_true_eq, hbits, h180]

theorem csrWrites_iff (op : CsrOp) (a : Reg) : (decide (op = .rw) || a ≠ 0#5) = true ↔ csrWrites op a := by
  simp [csrWrites]

/-- Whether a CSR instruction of an operation and a register writes. -/
theorem csrWrites_eq_false {op : CsrOp} {a : Reg} (h : ¬ csrWrites op a) : (decide (op = .rw) || a ≠ 0#5) = false := by
  rw [← csrWrites_iff] at h
  exact Bool.not_eq_true _ ▸ h

theorem csrAllowed_super {b : Bank} (h : b.core.priv = .super) (n : Nat) : b.csrAllowed n = true := by
  simp [Bank.csrAllowed, h]

theorem csrAllowed_user {b : Bank} (h : b.core.priv = .user) (n : Nat) :
    b.csrAllowed n = (decide (bits n 8 2 = 0) && (decide (0xC02 < n) || b.core.csr.scounteren.getLsbD (n - 0xC00))) := by
  simp [Bank.csrAllowed, h]

section
variable {s : State} {op : CsrOp} {useImm : Bool} {csr : BitVec 12} {d a : Reg} {old : Word}

theorem execCsrAccess_illegal
    (h : (s.readCsr s.cur.bid csr.toNat).isSome = true → s.own.csrRefuses csr.toNat (decide (op = .rw) || a ≠ 0#5) = true) :
    execCsrAccess op useImm csr d a s = .next (s.takeTrap s.cur.bid 2 s.cur.ibits) := by
  refine runCc_trap ?_
  simp only [M.bind_get, M.bind_curBank]
  cases hr : s.readCsr s.cur.bid csr.toNat with
  | none => rfl
  | some old =>
    dsimp only
    rw [if_pos (h (by rw [hr]; rfl))]
    rfl

theorem execCsrAccess_writes (hr : s.readCsr s.cur.bid csr.toNat = some old) (ha : s.own.csrAllowed csr.toNat = true)
    (hw : csrWrites op a) (hro : ¬ csrReadOnly csr) :
    execCsrAccess op useImm csr d a s = .next
      (s.retires (fun b => (b.setCsr (b.core.csr.write csr.toNat (csrNew op old (if useImm then a.setWidth 64 else s.own.readX a)))).writeX d
        old) s.after) := by
  have hw' := (csrWrites_iff op a).mpr hw
  have href : s.own.csrRefuses csr.toNat true = false := by
    rw [Bool.eq_false_iff, Ne, csrRefuses_iff]
    simp [ha, hro]
  refine runCc_modBank ?_ rfl (Bank.writeX_pc _ _ _)
  simp only [M.bind_get, M.bind_curBank, hr, hw', href, Bool.false_eq_true, if_false, if_true, M.bind_modCur, M.run_writeX]
  exact congrArg _ (State.modBank_modBank _ _ _ _)

theorem execCsrAccess_reads (hr : s.readCsr s.cur.bid csr.toNat = some old) (ha : s.own.csrAllowed csr.toNat = true)
    (hw : ¬ csrWrites op a) : execCsrAccess op useImm csr d a s = .next (s.retires (·.writeX d old) s.after) := by
  have hw' := csrWrites_eq_false hw
  have href : s.own.csrRefuses csr.toNat false = false := by
    rw [Bool.eq_false_iff, Ne, csrRefuses_iff]
    simp [ha]
  refine runCc_writeX ?_
  simp only [M.bind_get, M.bind_curBank, hr, hw', href, Bool.false_eq_true, if_false, M.run_writeX]

end

end Sys2Proof.Machine

namespace Sys2Proof.Proofs
open Sys2Proof Sys2Proof.Machine

theorem csrCompletes : Claim.CsrCompletes := by
  unfold Claim.CsrCompletes
  intro s op useImm csr d a old v hr ha
  refine ⟨fun hw hro => ?_, fun hw => ?_⟩
  · change execCsrAccess op useImm csr d a s = _
    exact execCsrAccess_writes hr ha hw hro
  · change execCsrAccess op useImm csr d a s = _
    exact execCsrAccess_reads hr ha hw

theorem csrReach : Claim.CsrReach := by
  unfold Claim.CsrReach
  intro s bid n b counters supers
  refine ⟨readCsr_isSome s bid n, fun h => csrAllowed_super h n, fun h => ⟨fun hn => ?_, fun hn => ?_, fun i hi => ?_⟩⟩
  · rw [csrAllowed_user h]
    simp only [counters, List.mem_cons, List.not_mem_nil, or_false] at hn
    rcases hn with rfl | rfl | rfl | rfl | rfl | rfl <;> rfl
  · rw [csrAllowed_user h]
    simp only [supers, List.mem_cons, List.not_mem_nil, or_false] at hn
    rcases hn with rfl | rfl | rfl | rfl | rfl | rfl | rfl | rfl | rfl | rfl <;> rfl
  · rw [csrAllowed_user h]
    obtain rfl | rfl | rfl : i = 0 ∨ i = 1 ∨ i = 2 := by omega
    all_goals rfl

theorem csrTraps : Claim.CsrTraps := by
  unfold Claim.CsrTraps
  intro s op useImm csr d a trapped
  have refused : s.own.csrRefuses csr.toNat (decide (op = .rw) || a ≠ 0#5) = true → trapped := fun h => by
    change execCsrAccess op useImm csr d a s = _
    exact execCsrAccess_illegal fun _ => h
  have denied : s.own.csrAllowed csr.toNat = false → trapped := fun h => refused ((csrRefuses_iff _ _ _).mpr (.inl h))
  refine ⟨fun h => ?_, fun hw hro => ?_, fun hu h => ?_, fun hu i hi hn hc => ?_, fun hw hlo hhi => ?_⟩
  · change execCsrAccess op useImm csr d a s = _
    exact execCsrAccess_illegal fun hs => absurd ((readCsr_isSome _ _ _).mp hs) h
  · exact refused ((csrRefuses_iff _ _ _).mpr (.inr ⟨(csrWrites_iff op a).mpr hw, hro⟩))
  · refine denied ?_
    have hb : bits csr.toNat 8 2 = 1 := by
      have := congrArg BitVec.toNat h
      simpa [bits, Nat.shiftRight_eq_div_pow] using this
    rw [csrAllowed_user hu, hb]
    rfl
  · refine denied ?_
    rw [csrAllowed_user hu, hn, Nat.add_sub_cancel_left, hc]
    have : ¬ 0xC02 < 0xC00 + i := by omega
    simp [this]
  · obtain ⟨old, hr⟩ : ∃ old, s.readCsr s.cur.bid csr.toNat = some old := by
      rw [← Option.isSome_iff_exists, readCsr_isSome]
      simp only [List.mem_cons, List.not_mem_nil, or_false]
      omega
    have ha : s.own.csrAllowed csr.toNat = true := by
      have hb : bits csr.toNat 8 2 = 0 := by
        simp only [bits]
        omega
      have hgt : 0xC02 < csr.toNat := by omega
      simp [Bank.csrAllowed, hb, hgt]
    refine ⟨old, hr, ?_⟩
    change execCsrAccess op useImm csr d a s = _
    exact execCsrAccess_reads hr ha hw

/-- Settles O7, by whether the register exists and its access is refused. -/
theorem csrAccess : Obligations.CsrAccess := ⟨csrCompletes, csrReach, csrTraps⟩

end Sys2Proof.Proofs
end

-- ==== Exceptions (O9) ====
section
/-! SUPPORT. Traps: how an exception is entered, and what follows the drain for one (R175, R178, R179). -/

namespace Sys2Proof.Machine

-- One proof at a time: the whole text compiles in one process of bounded memory.
set_option Elab.async false

/-! ### States that read alike -/

theorem Alike.of_bank {s t : State} (h : ∀ m, t.bank m = s.bank m) (hr : t = { s with banks := t.banks }) : Alike s t := ⟨h, hr⟩

theorem Alike.modBank {s t : State} (h : Alike s t) (i : Nat) (f : Bank → Bank) : Alike (s.modBank i f) (t.modBank i f) := by
  refine ⟨fun m => ?_, ?_⟩
  · rw [State.bank_modBank, State.bank_modBank, h.1, h.1]
  · have hr := h.2
    rw [hr]
    rfl

theorem Alike.foldl_modBank {f : Bank → Bank} (ms : List Nat) {s t : State} (h : Alike s t) :
    Alike (ms.foldl (fun s m => s.modBank m f) s) (ms.foldl (fun s m => s.modBank m f) t) := by
  induction ms generalizing s t with
  | nil => exact h
  | cons m ms ih => exact ih (h.modBank m f)

theorem Alike.handleBank {s t : State} (h : Alike s t) (bid : Nat) : t.handleBank bid = s.handleBank bid := by
  rw [State.handleBank, State.handleBank, h.1]

theorem Alike.members {s t : State} (h : Alike s t) (bid : Nat) : t.members bid = s.members bid := by
  rw [State.members, State.members, h.1]

/-- Two changes of one bank that come to the same leave states that read alike. -/
theorem Alike.modBank_congr {s : State} {i : Nat} {f g : Bank → Bank} (h : f (s.bank i) = g (s.bank i)) :
    s.modBank i f = s.modBank i g := by rw [State.modBank, State.modBank, h]

/-! ### Rest -/

/-- A bank that reads alike to a drain: its words, phases and engines. -/
structure Bank.DrainsLike (b c : Bank) : Prop where
  task : c.task = b.task
  committed : c.committed = b.committed
  phase : c.phase = b.phase
  flights : c.flights = b.flights
  eng : c.eng = b.eng
  uses : ∀ u ∈ c.uses, u ∈ b.uses

theorem Bank.DrainsLike.refl (b : Bank) : b.DrainsLike b := ⟨rfl, rfl, rfl, rfl, rfl, fun _ h => h⟩

/-- Where nothing goes on in a drain, nothing does in a state whose banks drain alike and where the faults stand as they stood. -/
theorem State.quietAll.congr {s t : State} {ms : List Nat} {out : Option Engine} (h : s.quietAll ms out)
    (hb : ∀ m, (s.bank m).DrainsLike (t.bank m)) (hdies : t.dies = s.dies) (hhost : t.host = s.host) : t.quietAll ms out := by
  obtain ⟨hc, ⟨k, hk, hp⟩, hq⟩ := h
  have heng : ∀ m e, (t.bank m).engine e = (s.bank m).engine e := fun m e => by rw [Bank.engine, Bank.engine, (hb m).eng]
  refine ⟨?_, ⟨k, hk, ?_⟩, fun m hmm => ?_⟩
  · rw [← hc]
    unfold State.canCommit
    congr 1
    funext m
    simp only [(hb m).task, (hb m).committed, (hb m).phase, Bank.phaseDone, heng, (hb m).flights]
  · rw [← hp]
    simp only [Bank.hasPair, heng]
  · obtain ⟨hf, hu, he⟩ := hq m hmm
    refine ⟨(hb m).flights.trans hf, fun u hu' => hu u ((hb m).uses u hu'), fun e hmem => ?_⟩
    have hw : t.wordStuck m e = s.wordStuck m e := by
      have hres : ∀ d w, t.resolved d w = s.resolved d w := fun d w => by
        cases w <;> simp only [State.resolved, State.die, hdies, hhost]
      simp only [State.wordStuck, heng, hres]
    rw [heng, hw]
    exact he e hmem

/-- A bank at rest is so in a state whose banks drain alike, where the faults stand as they stood. -/
theorem State.atRest.congr {s t : State} {bid : Nat} {out : Option Engine} (h : s.atRest bid out)
    (hl : t.handleBank bid = bid) (hm : t.members bid = s.members bid) (hd : (t.bank bid).draining = .none)
    (hb : ∀ m, (s.bank m).DrainsLike (t.bank m)) (hdies : t.dies = s.dies) (hhost : t.host = s.host) : t.atRest bid out :=
  ⟨hl, hd, hm ▸ State.quietAll.congr h.2.2 hb hdies hhost⟩

/-- At rest no engine has tried in vain, so nothing is cleared behind the drain. -/
theorem State.atRest.clearWaits {s : State} {bid : Nat} {out : Option Engine} (h : s.atRest bid out) :
    ∀ m ∈ s.members bid, (s.bank m).clearWaits = s.bank m := fun m hm =>
  clearWaits_self fun e => ((h.2.2.2.2 m hm).2.2 e (by cases e <;> decide)).2.1

/-! ### What follows a drain -/

/-- A bank's drain is over: the members of its gang clear what their engines tried in vain, and the bank drains for nothing. -/
def State.cleared (s : State) (bid : Nat) : State :=
  ((s.members bid).foldl (fun s m => s.modBank m Bank.clearWaits) s).modBank bid (fun b => { b with draining := .none })

/-- Behind a drain of a bank at rest, its own drain apart, the banks stand as they stood. -/
theorem atRest_cleared {s : State} {bid : Nat} {out : Option Engine} (h : s.atRest bid out) (d : Drain) :
    Alike s ((s.modBank bid (fun b => { b with draining := d })).cleared bid) := by
  unfold State.cleared
  generalize ht : s.modBank bid (fun b => { b with draining := d }) = t
  have hbank : ∀ m, t.bank m = { s.bank m with draining := (t.bank m).draining } := fun m => by
    rw [← ht, State.bank_modBank]
    split
    next e => subst e; rfl
    · rfl
  have hms : t.members bid = s.members bid := by
    unfold State.members
    rw [hbank bid]
  have hclear : ∀ m ∈ t.members bid, (t.bank m).clearWaits = t.bank m := fun m hm => by
    have hm' := h.clearWaits m (hms ▸ hm)
    rw [hbank m]
    have : ({ s.bank m with draining := (t.bank m).draining } : Bank).clearWaits
        = { (s.bank m).clearWaits with draining := (t.bank m).draining } := rfl
    rw [this, hm']
  refine Alike.trans ?_ ((alike_foldl_modBank _ t hclear).modBank bid _)
  refine Alike.of_bank (fun m => ?_) (by rw [← ht]; rfl)
  rw [← ht, State.modBank_modBank, State.bank_modBank]
  split
  next e =>
    subst e
    change ({ s.bank bid with draining := .none } : Bank) = _
    rw [← h.2.1]
  · rfl

/-- What a trap leaves once its drain is over. -/
theorem afterDrain_trap {s : State} {bid c v : Nat} (h : (s.bank bid).draining = .trap c v) :
    s.afterDrain bid = (s.cleared bid).modBank bid (·.enterTrap c v) := by
  unfold State.afterDrain
  simp only [h]
  rfl

theorem afterDrain_due {s : State} {bid : Nat} (h : (s.bank bid).draining = .due) : s.afterDrain bid = (s.cleared bid).enterDue bid := by
  unfold State.afterDrain
  simp only [h]
  rfl

theorem afterDrain_switch {s : State} {bid : Nat} (h : (s.bank bid).draining = .switch) :
    s.afterDrain bid = (((s.cleared bid).members bid).foldl (fun s m => s.modBank m Bank.unwait) (s.cleared bid)).switchAll bid := by
  unfold State.afterDrain
  simp only [h]
  rfl

/-- A drain for a trap goes on, and where it is over the trap follows. -/
theorem settleDrain_trap {s : State} {bid c v : Nat} (h : (s.bank bid).draining = .trap c v) :
    s.settleDrain bid = if (s.drain (s.members bid) drainRounds).drained (s.members bid) none
      then (s.drain (s.members bid) drainRounds).afterDrain bid else s.drain (s.members bid) drainRounds := by
  unfold State.settleDrain
  simp only [h]

/-- A bank at rest that traps takes the exception at once. -/
theorem takeTrap_atRest {s : State} {bid : Nat} (c v : Nat) (h : s.atRest bid none) :
    Alike ((s.withdraw bid).modBank bid (·.enterTrap c v)) (s.takeTrap bid c v) := by
  have hw : (s.withdraw bid).atRest bid none :=
    h.congr h.1 rfl h.2.1 (fun _ => Bank.DrainsLike.refl _) rfl rfl
  unfold State.takeTrap
  rw [beginDrain_atRest hw (by simp) (by simp) rfl, afterDrain_trap (by rw [State.bank_modBank, if_pos rfl])]
  exact (atRest_cleared hw _).modBank bid _

/-- A drain of a bank of no gang clears the bank alone. -/
theorem cleared_single {s : State} {bid : Nat} (h : (s.bank bid).gang = none) :
    s.cleared bid = s.modBank bid (fun b => { b.clearWaits with draining := .none }) := by
  have hm : s.members bid = [bid] := by simp only [State.members, h]
  rw [State.cleared, hm, List.foldl_cons, List.foldl_nil, State.modBank_modBank]

/-- What the trap that is due does to its bank; a context fault begins a phase behind it. -/
theorem enterDue_eq {s : State} {bid c v : Nat} (h : (s.bank bid).due = some (c, v)) :
    s.enterDue bid = (s.modBank bid (fun b => b.served.enterTrap c v)).ckptAfter bid c := by
  simp only [State.enterDue, h]

theorem ckptAfter_other {s : State} {bid c : Nat} (h : c ≠ 62) : s.ckptAfter bid c = s := if_neg h

/-! ### The exception itself -/

theorem setBit64_getLsbD {w : Word} {i j : Nat} {b : Bool} (hi : i < 64) :
    (setBit64 w i b).getLsbD j = if j = i then b else w.getLsbD j := by
  unfold setBit64
  by_cases hj : j = i
  · subst hj
    cases b <;> simp [hi]
  · have hne : i ≠ j := fun e => hj e.symm
    by_cases hlt : j < 64
    · cases b <;> simp [hj, hlt]
    · cases b <;> simp [hj, hne, BitVec.getLsbD_of_ge w j (by omega)]

theorem trapStatus_getLsbD (st : Word) (p : Priv) (j : Nat) :
    (trapStatus st p).getLsbD j = if j = 1 then false else if j = 5 then st.getLsbD 1 else if j = 8 then decide (p = .super)
      else st.getLsbD j := by
  simp only [trapStatus, bSPP, bSPIE, bSIE, setBit64_getLsbD (show 1 < 64 by decide), setBit64_getLsbD (show 5 < 64 by decide),
    setBit64_getLsbD (show 8 < 64 by decide)]

theorem returnStatus_getLsbD (st : Word) (j : Nat) :
    (returnStatus st).getLsbD j = if j = 8 then false else if j = 5 then true else if j = 1 then st.getLsbD 5 else st.getLsbD j := by
  simp only [returnStatus, bSPP, bSPIE, bSIE, setBit64_getLsbD (show 1 < 64 by decide), setBit64_getLsbD (show 5 < 64 by decide),
    setBit64_getLsbD (show 8 < 64 by decide)]

/-- Queue-low is pending where it is due, in S-mode with SIE and its bit of `sie` set. -/
theorem lowPending_on {b : Bank} (h : (decide (b.core.priv = .super) && b.core.csr.sstatus.getLsbD 1 && b.core.csr.sie.getLsbD 16) = true) :
    b.lowPending = b.lowDue := if_pos h

theorem lowPending_off {b : Bank} (h : (decide (b.core.priv = .super) && b.core.csr.sstatus.getLsbD 1 && b.core.csr.sie.getLsbD 16) = false) :
    b.lowPending = none := if_neg (Bool.eq_false_iff.mp h)

theorem dropLow_sip (b : Bank) : b.dropLow.core.csr.sip.getLsbD 16 = false := by
  simp [Bank.dropLow]

/-- What is due does not depend on what the bank drains for, nor whether an engine has tried in vain. -/
theorem due_congr {b c : Bank} (hc : c.ctxDue = b.ctxDue) (hm : c.missDue = b.missDue) (hl : c.lowDue = b.lowDue) (hk : c.core = b.core) :
    c.due = b.due := by
  simp only [Bank.due, Bank.lowPending, hc, hm, hl, hk]

theorem served_draining (b : Bank) (d : Drain) : { b with draining := d : Bank }.served = { b.served with draining := d } := by
  unfold Bank.served
  dsimp only
  split
  · rfl
  · split <;> rfl

theorem foldl_setEngine_rest (f : Engine → Eng → Eng) (l : List Engine) (b : Bank) :
    l.foldl (fun b e => b.setEngine e (f e (b.engine e))) b
      = { b with eng := (l.foldl (fun b e => b.setEngine e (f e (b.engine e))) b).eng } := by
  induction l generalizing b with
  | nil => rfl
  | cons e l ih =>
    rw [List.foldl_cons, ih]
    rfl

theorem clearWaits_rest (b : Bank) : b.clearWaits = { b with eng := b.clearWaits.eng } :=
  foldl_setEngine_rest (fun _ g => { g with waited := false }) allEngines b

end Sys2Proof.Machine

namespace Sys2Proof.Proofs
open Sys2Proof Sys2Proof.Machine

theorem trapEntry : Claim.TrapEntry := by
  unfold Claim.TrapEntry
  intro b cause tval t c
  have hst : t.core.csr.sstatus = trapStatus c.sstatus b.core.priv := rfl
  refine ⟨rfl, rfl, rfl, rfl, ?_, ?_, ?_, fun i _ h1 h5 h8 => ?_, fun h => ?_, fun h hc => ?_, rfl, rfl, rfl, rfl, rfl, rfl, rfl, rfl⟩
  · rw [hst, trapStatus_getLsbD]
    rfl
  · rw [hst, trapStatus_getLsbD]
    rfl
  · rw [hst, trapStatus_getLsbD]
    rfl
  · rw [hst, trapStatus_getLsbD, if_neg h1, if_neg h5, if_neg h8]
  · change trapTarget c.stvec cause = _
    have hno : (c.stvec.getLsbD 0 && decide (2 ^ 63 ≤ cause)) = false := by
      rcases h with h | h
      · rw [h, Bool.false_and]
      · rw [decide_eq_false (by omega), Bool.and_false]
    rw [trapTarget, if_neg (by rw [hno]; decide)]
  · change trapTarget c.stvec cause = _
    subst hc
    rw [trapTarget, h]
    rfl

theorem trapTaken : Claim.TrapTaken := by
  unfold Claim.TrapTaken
  intro s bid cause tval asked left
  refine ⟨takeTrap_atRest cause tval, fun hlead => ?_, fun hg hd => ?_⟩
  · have hdr : (asked.bank bid).draining = .trap cause tval := by rw [State.bank_modBank, if_pos rfl]
    have hms : asked.members bid = s.members bid := by
      unfold State.members
      rw [State.bank_modBank, if_pos rfl]
      rfl
    have hlead' : (s.withdraw bid).handleBank bid = bid := hlead
    have htrap : s.takeTrap bid cause tval
        = if left.drained (s.members bid) none then left.afterDrain bid else left := by
      unfold State.takeTrap State.beginDrain
      dsimp only
      rw [hlead']
      change asked.settleDrain bid = _
      rw [settleDrain_trap hdr, hms]
    exact ⟨fun h => by rw [htrap, if_neg (Bool.eq_false_iff.mp h)], fun h => by rw [htrap, if_pos h]⟩
  · rw [afterDrain_trap hd, cleared_single hg, State.modBank_modBank]
    exact Alike.refl _

theorem dueTraps : Claim.DueTraps := by
  unfold Claim.DueTraps
  intro b low
  refine ⟨fun d h => ?_, fun hc n rest hm => ?_, fun hc hm => ⟨fun h => ?_, fun h hl => ?_, fun e h hl => ⟨?_, ?_, ?_⟩⟩,
    fun s bid cause tval hrest hdue => ?_, fun s bid cause tval hg hd hdue hc => ?_⟩
  · exact ⟨by simp only [Bank.due, h], by simp only [Bank.served, h]⟩
  · exact ⟨by simp only [Bank.due, hc, hm], by simp only [Bank.served, hc, hm]⟩
  · simp only [Bank.due, hc, hm, lowPending_off h, Option.map_none]
  · simp only [Bank.due, hc, hm, lowPending_on h, hl, Option.map_none]
  · simp only [Bank.due, hc, hm, lowPending_on h, hl, Option.map_some]
  · simp only [Bank.served, hc, hm]
    rfl
  · simp only [Bank.served, hc, hm]
    exact dropLow_sip b
  · have hw : ((s.modBank bid Bank.endWfi).withdraw bid).atRest bid none :=
      hrest.congr hrest.1 rfl hrest.2.1 (fun _ => Bank.DrainsLike.refl _) rfl rfl
    have htake : s.takeDue bid = (((s.modBank bid Bank.endWfi).withdraw bid).modBank bid
        (fun b => { b with draining := .due })).afterDrain bid :=
      beginDrain_atRest hw (by simp) (by simp) rfl
    have hcl := atRest_cleared hw .due
    rw [afterDrain_due (by rw [State.bank_modBank, if_pos rfl])] at htake
    generalize State.cleared _ bid = x at htake hcl
    have hbank : x.bank bid = (s.bank bid).endWfi := by
      rw [hcl.1]
      change (s.modBank bid Bank.endWfi).bank bid = _
      rw [State.bank_modBank, if_pos rfl]
    rw [htake, enterDue_eq (by rw [hbank]; exact hdue)]
    intro t
    refine ⟨fun hc => ?_, fun hc hg => ?_⟩
    · rw [ckptAfter_other hc, State.bank_modBank, if_pos rfl, hbank]
    · have hgt : ((x.modBank bid (fun b => b.served.enterTrap cause tval)).bank bid).gang = none := by
        rw [State.bank_modBank, if_pos rfl, hbank]
        change Option.filter _ ((s.bank bid).endWfi.served.gang) = none
        have : (s.bank bid).endWfi.served.gang = none := by
          rw [← hg]
          unfold Bank.served
          split
          · rfl
          · split <;> rfl
        rw [this]
        rfl
      have hm : (x.modBank bid (fun b => b.served.enterTrap cause tval)).members bid = [bid] := by simp only [State.members, hgt]
      rw [State.ckptAfter, if_pos hc, hm, List.foldl_cons, List.foldl_nil, State.bank_modBank, if_pos rfl, State.bank_modBank,
        if_pos rfl, hbank]
  · rw [afterDrain_due hd, cleared_single hg, enterDue_eq (c := cause) (v := tval)]
    · rw [ckptAfter_other hc, State.modBank_modBank]
      refine Alike.of_bank (fun m => ?_) rfl
      rw [State.bank_modBank, State.bank_modBank]
      split
      · rw [served_draining]
        rfl
      · rfl
    · rw [State.bank_modBank, if_pos rfl, ← hdue]
      refine due_congr ?_ ?_ ?_ ?_ <;> rw [clearWaits_rest]

/-- Settles O9: a bank at rest has drained at once, and what follows a drain is the exception it was for. -/
theorem exceptions : Obligations.Exceptions := ⟨trapEntry, trapTaken, dueTraps⟩

end Sys2Proof.Proofs
end

-- ==== System forms (O12) ====
section
/-! SUPPORT. The system forms: environment calls, return, wait, and the invalidation of translations (R43, R120, R222, R225). -/

namespace Sys2Proof.Machine

-- One proof at a time: the whole text compiles in one process of bounded memory.
set_option Elab.async false

/-- A bank at rest whose instruction traps enters the exception at once. -/
theorem runCc_enters {body : M Unit} {s : State} {c v : Nat} (hr : s.atRest s.cur.bid none) (h : body.run s = .error (.trap c v) s) :
    ∃ u, runCc body s = .next u ∧ Alike ((s.withdraw s.cur.bid).modBank s.cur.bid (·.enterTrap c v)) u :=
  ⟨_, runCc_trap h, takeTrap_atRest c v hr⟩

theorem needSuper_super {s : State} (h : s.own.core.priv = .super) : needSuper.run s = .ok () s := by
  simp only [needSuper, M.bind_curBank, show (s.bank s.cur.bid).core.priv = .super from h, ne_eq, not_true_eq_false, if_false, M.run_pure]

theorem needSuper_user {s : State} (h : s.own.core.priv = .user) : needSuper.run s = .error (.trap 2 s.cur.ibits) s := by
  simp only [needSuper, M.bind_curBank, show (s.bank s.cur.bid).core.priv = .user from h, ne_eq, reduceCtorEq, not_false_eq_true, if_true,
    M.run_illegal]

theorem runJump_trap {body : M Word} {s t : State} {c v : Nat} (h : body.run s = .error (.trap c v) t) :
    runJump body s = .next (t.takeTrap s.cur.bid c v) := by simp only [runJump, h, State.coreStop]

/-- An invalidation revokes handle versions, and changes no other register of a core. -/
theorem invalidate_pc (s : State) (i : Inval) (m : Nat) : ((s.invalidate i).bank m).core.pc = (s.bank m).core.pc := by
  have hm := PMap.get_map Bank.init
    (fun b => (b.1, if b.2.vfId = i.vf && b.2.task.isSome then b.2.revoke i.matchesVer else b.2))
    (fun _ => rfl) (fun _ => if_neg (by simp [show Bank.init.task = none from rfl])) s.banks m
  unfold State.invalidate State.bank
  dsimp only at hm ⊢
  rw [hm]
  split <;> rfl

/-- A return to U-mode withdraws a pending queue-low. -/
theorem returnFromTrap_user {b : Bank} {pc : Word} (h : b.core.csr.sstatus.getLsbD 8 = false) :
    (b.returnFromTrap pc).lowDue = none ∧ (b.returnFromTrap pc).core.csr.sip.getLsbD 16 = false := by
  have hpriv : (b.returnFromTrap pc) = Bank.dropLow
      { b with core := { b.core with pc := pc, priv := .user, csr := { b.core.csr with sstatus := returnStatus b.core.csr.sstatus } } } := by
    simp only [Bank.returnFromTrap, bSPP, h, Bool.false_eq_true, if_false, Bank.leaveSuper]
    rfl
  rw [hpriv]
  exact ⟨rfl, dropLow_sip _⟩

/-- What a return from an exception does, wherever it returns to. -/
theorem returnFromTrap_core (b : Bank) (pc : Word) :
    (b.returnFromTrap pc).core.pc = pc ∧ ((b.returnFromTrap pc).core.priv = .super ↔ b.core.csr.sstatus.getLsbD 8 = true)
      ∧ (b.returnFromTrap pc).core.csr.sstatus = returnStatus b.core.csr.sstatus ∧ (b.returnFromTrap pc).core.x = b.core.x := by
  cases h : b.core.csr.sstatus.getLsbD 8 <;>
    simp only [Bank.returnFromTrap, Bank.leaveSuper, Bank.dropLow, bSPP, h, Bool.false_eq_true, if_false, if_true, reduceCtorEq, and_self]

end Sys2Proof.Machine

namespace Sys2Proof.Proofs
open Sys2Proof Sys2Proof.Machine

theorem environmentCalls : Claim.EnvironmentCalls := by
  unfold Claim.EnvironmentCalls
  intro s hr enters
  refine ⟨fun h => ?_, fun h => ?_, ?_⟩
  · change ∃ u, execStandardEcall s = _ ∧ _
    refine runCc_enters hr ?_
    simp only [M.bind_curBank, show (s.bank s.cur.bid).core.priv = .user from h, if_true, M.run_trap]
  · change ∃ u, execStandardEcall s = _ ∧ _
    refine runCc_enters hr ?_
    simp only [M.bind_curBank, show (s.bank s.cur.bid).core.priv = .super from h, reduceCtorEq, if_false, M.run_illegal]
  · change ∃ u, execEbreak s = _ ∧ _
    exact runCc_enters hr rfl

theorem sretCompletes : Claim.SretCompletes := by
  unfold Claim.SretCompletes
  intro s h
  refine ⟨?_, ?_⟩
  · change execSret s = _
    refine runJump_modBank (s := s) (t := s) ?_ rfl
    simp only [M.bind_ok (needSuper_super h), M.bind_curBank, M.bind_modCur, M.run_pure]
  · intro t c
    obtain ⟨hpc, hpriv, hst, hx⟩ := returnFromTrap_core s.own c.sepc
    refine ⟨hpc, hpriv, ?_, ?_, ?_, fun i _ h1 h5 h8 => ?_, hx, fun hu => returnFromTrap_user hu⟩
    · rw [hst, returnStatus_getLsbD]
      rfl
    · rw [hst, returnStatus_getLsbD]
      rfl
    · rw [hst, returnStatus_getLsbD]
      rfl
    · rw [hst, returnStatus_getLsbD, if_neg h8, if_neg h5, if_neg h1]

theorem wfiSfenceComplete : Claim.WfiSfenceComplete := by
  unfold Claim.WfiSfenceComplete
  intro s a b h
  refine ⟨fun hw => ?_, fun hw => ?_, ?_⟩
  · change execWfi s = _
    refine runCc_same ?_
    simp only [M.bind_ok (needSuper_super h), M.bind_curBank, show (s.bank s.cur.bid).wakes = true from hw, Bool.not_true,
      Bool.false_eq_true, if_false, M.run_pure]
  · change execWfi s = _
    refine runCc_wait ?_
    simp only [M.bind_ok (needSuper_super h), M.bind_curBank, show (s.bank s.cur.bid).wakes = false from hw, Bool.not_false, if_true,
      M.bind_modCur, M.run_waitMore]
  · change execSfenceVma a b s = _
    refine runCc_state ?_ rfl (invalidate_pc _ _ _)
    simp only [M.bind_ok (needSuper_super h), M.bind_curBank, M.bind_readX, M.run_modify]

theorem superOnlyForms : Claim.SuperOnlyForms := by
  unfold Claim.SuperOnlyForms
  intro s i a b d h hi
  have hn := needSuper_user h
  have hp : (s.bank s.cur.bid).core.priv = .user := h
  simp only [List.mem_cons, List.not_mem_nil, or_false] at hi
  rcases hi with rfl | rfl | rfl | rfl | rfl | rfl | rfl
  · change execSret s = _
    exact runJump_trap (M.bind_error hn)
  · change execWfi s = _
    exact runCc_trap (M.bind_error hn)
  · change execSfenceVma a b s = _
    exact runCc_trap (M.bind_error hn)
  · change execVcfp d a s = _
    refine runCc_trap (t := s) ?_
    simp only [M.bind_curBank, hp, ne_eq, reduceCtorEq, not_false_eq_true, if_true, M.bind_illegal]
  · change execVcrep a s = _
    refine runJump_trap (t := s) ?_
    simp only [M.bind_curBank, hp, ne_eq, reduceCtorEq, not_false_eq_true, if_true, M.bind_illegal]
  · change execFqpop d a s = _
    exact runCc_trap (M.bind_error hn)
  · change execFqrep a b s = _
    exact runCc_trap (M.bind_error hn)

/-- Settles O12: each form is its trap, its return, its wait or its invalidation. -/
theorem systemForms : Obligations.SystemForms := ⟨environmentCalls, sretCompletes, wfiSfenceComplete, superOnlyForms⟩

end Sys2Proof.Proofs
end

-- ==== Page faults (O10) ====
section
/-! SUPPORT. The page-fault path: the record that a fault takes, and what a bank at rest does for it (R177, R178, R181 to R183). -/

namespace Sys2Proof.Machine

-- One proof at a time: the whole text compiles in one process of bounded memory.
set_option Elab.async false

theorem findFrom_first {p : Nat → Bool} {k : Nat} (hk : p k = true) : ∀ {n i : Nat}, i ≤ k → k < i + n → (∀ j, i ≤ j → j < k → p j = false) →
    findFrom p i n = some k
  | 0, i, hik, hkn, _ => absurd hkn (by omega)
  | n + 1, i, hik, hkn, hno => by
    rw [findFrom]
    obtain rfl | hlt := Nat.eq_or_lt_of_le hik
    · rw [if_pos hk]
    · rw [hno i (Nat.le_refl i) hlt, if_neg Bool.false_ne_true]
      exact findFrom_first hk hlt (by omega) fun j hj => hno j (by omega)

theorem findFrom_none {p : Nat → Bool} : ∀ {n i : Nat}, (∀ j, i ≤ j → j < i + n → p j = false) → findFrom p i n = none
  | 0, _, _ => rfl
  | n + 1, i, h => by
    rw [findFrom, h i (Nat.le_refl i) (by omega), if_neg Bool.false_ne_true]
    exact findFrom_none fun j hj hjn => h j (by omega) (by omega)

/-- The lowest key of a map that is free. -/
theorem freeKey_first {α : Type} {m : PMap α} {n i : Nat} (hi : i < n) (hfree : PMap.find m i = none)
    (h : ∀ j, j < i → (PMap.find m j).isSome = true) : freeKey m n = some i :=
  findFrom_first (by rw [hfree]; rfl) (Nat.zero_le i) (by omega) fun j _ hj => by
    rw [← Option.not_isSome, h j hj]
    rfl

theorem freeKey_full {α : Type} {m : PMap α} {n : Nat} (h : ∀ j, j < n → (PMap.find m j).isSome = true) : freeKey m n = none :=
  findFrom_none fun j _ hj => by
    rw [← Option.not_isSome, h j (by omega)]
    rfl

/-- An access of a control core that stops takes the page-fault path, or traps (R177). -/
theorem runCc_access {body : M Unit} {s t : State} {c va acc ver : Nat} (h : body.run s = .error (.access c va acc ver) t) :
    runCc body s = .next (if c ≤ 5 then t.pageFaultCore s.cur.bid c va acc ver else t.takeTrap s.cur.bid (48 + c) va) := by
  rw [runCc_error h, State.coreStop]
  split <;> rfl

theorem loadVa_error {w : Who} {va n : Nat} {s t : State} {e : Stop} (h : (translateSpan w va n accR 0).run s = .error e t) :
    (loadVa w va n).run s = .error e t := M.bind_error h

theorem storeVa_error {w : Who} {va n v : Nat} {s t : State} {e : Stop} (h : (translateSpan w va n accW 0).run s = .error e t) :
    (storeVa w va n v).run s = .error e t := M.bind_error h

/-- A bank whose wait has ended, and which waits on a fault. -/
def Bank.waitsOn (b : Bank) (w : Waiter) : Bank := { b.leaveWait with waiter := some w }

theorem Bank.waitsOn_drains (b : Bank) (w : Waiter) : b.DrainsLike (b.waitsOn w) :=
  ⟨rfl, rfl, rfl, rfl, rfl, fun _ hu => (List.mem_filter.mp hu).1⟩

/-- A gang that is formed is kept where a wait ends, and one that is not names no other bank. -/
theorem members_waitsOn (u : State) (id : Nat) (w : Waiter) :
    ((u.modBank id (·.waitsOn w)).withdraw id).handleBank id = u.handleBank id
      ∧ ((u.modBank id (·.waitsOn w)).withdraw id).members id = u.members id := by
  have hb : ((u.modBank id (·.waitsOn w)).withdraw id).bank id = (u.bank id).waitsOn w := by
    change (u.modBank id (·.waitsOn w)).bank id = _
    rw [State.bank_modBank, if_pos rfl]
  unfold State.handleBank State.members
  rw [hb]
  change (match Option.filter _ (u.bank id).gang with | some g => _ | none => _) = _
    ∧ (match Option.filter _ (u.bank id).gang with | some g => _ | none => _) = _
  cases (u.bank id).gang with
  | none => exact ⟨rfl, rfl⟩
  | some g => cases hf : g.formed <;> simp [Option.filter, hf]

theorem atRest_waitsOn {u : State} {id : Nat} (h : u.atRest id none) (w : Waiter) :
    ((u.modBank id (·.waitsOn w)).withdraw id).atRest id none := by
  obtain ⟨hlead, hms⟩ := members_waitsOn u id w
  refine h.congr (hlead.trans h.1) hms ?_ (fun m => ?_) rfl rfl
  · change ((u.modBank id (·.waitsOn w)).bank id).draining = _
    rw [State.bank_modBank, if_pos rfl]
    exact h.2.1
  · change (u.bank m).DrainsLike ((u.modBank id (·.waitsOn w)).bank m)
    rw [State.bank_modBank]
    split
    next e => subst e; exact Bank.waitsOn_drains _ _
    · exact Bank.DrainsLike.refl _

/-- A bank at rest with nothing due that gives way drains at once, and its core switches. -/
theorem giveWay_atRest {s : State} {id : Nat} (h : s.atRest id none) (hc : (s.bank id).ctxDue = none) :
    ∃ x, Alike ((s.members id).foldl (fun s m => s.modBank m Bank.unwait) s) x ∧ s.giveWay id = x.switchAll id := by
  have hlead := h.1
  have hdr := h.2.1
  have hgive : s.giveWay id = s.beginDrain id .switch := by
    unfold State.giveWay
    simp only [hlead, hdr, hc, Option.isSome_none, decide_true, Bool.and_false, Bool.false_eq_true, if_false, Bool.true_or, if_true]
  have hcl := atRest_cleared h .switch
  have hx : s.giveWay id = ((((s.modBank id (fun b => { b with draining := .switch })).cleared id).members id).foldl
      (fun s m => s.modBank m Bank.unwait) ((s.modBank id (fun b => { b with draining := .switch })).cleared id)).switchAll id := by
    rw [hgive, beginDrain_atRest h (by simp) (by simp) rfl, afterDrain_switch (by rw [State.bank_modBank, if_pos rfl])]
  rw [hcl.members] at hx
  exact ⟨_, hcl.foldl_modBank _, hx⟩

/-- A context fault that is due is served before a page fault gives way. -/
theorem giveWay_due {s : State} {id : Nat} (h : s.atRest id none) (hc : (s.bank id).ctxDue.isSome = true) :
    s.giveWay id = ((s.modBank id Bank.leaveWait).gcFaults).beginDrain id .due := by
  obtain ⟨hlead, hdr, -⟩ := h
  unfold State.giveWay
  simp only [hlead, hdr, hc, decide_true, Bool.and_self, if_true]

/-- The page-fault path of the control core, once its record is taken. -/
theorem pageFaultCore_eq {t u : State} {id c va acc ver : Nat} {w : Waiter} (h : t.recordFault id 0 c va acc ver = (u, w)) :
    t.pageFaultCore id c va acc ver = ((u.modBank id (·.waitsOn w)).withdraw id).giveWay id := by
  unfold State.pageFaultCore
  rw [h]
  rfl

end Sys2Proof.Machine

namespace Sys2Proof.Proofs
open Sys2Proof Sys2Proof.Machine

theorem faultRecords : Claim.FaultRecords := by
  unfold Claim.FaultRecords
  intro s bid agent code va acc ver d die b same merged put
  have hsame : ∀ r : Nat × FaultRec, ((r.2.state = 1 || r.2.state = 2) && r.2.vf = b.vfId && r.2.asid = b.asidOf
      && r.2.code = code && bits r.2.va 12 45 = bits va 12 45) = true ↔ same r.2 := fun r => by
    simp only [same, Bool.and_eq_true, Bool.or_eq_true, decide_eq_true_eq, and_assoc]
  refine ⟨fun ⟨x, hx, hs⟩ => ?_, fun hno => ?_⟩
  · cases hf : die.faults.find? (fun r => (r.2.state = 1 || r.2.state = 2) && r.2.vf = b.vfId && r.2.asid = b.asidOf
      && r.2.code = code && bits r.2.va 12 45 = bits va 12 45) with
    | none => exact absurd ((hsame x).mpr hs) (List.find?_eq_none.mp hf x hx)
    | some y =>
      obtain ⟨i, r⟩ := y
      have hmem := List.mem_of_find?_eq_some hf
      have hyes := List.find?_some hf
      rw [hsame] at hyes
      refine ⟨(i, r), hmem, hyes, ?_⟩
      unfold State.recordFault
      dsimp only
      rw [hf]
  · have hf : die.faults.find? (fun r => (r.2.state = 1 || r.2.state = 2) && r.2.vf = b.vfId && r.2.asid = b.asidOf
        && r.2.code = code && bits r.2.va 12 45 = bits va 12 45) = none :=
      List.find?_eq_none.mpr fun x hx hs => hno x hx ((hsame x).mp hs)
    refine ⟨fun i hi hfree hlow => ?_, fun hfull => ?_⟩
    · unfold State.recordFault
      dsimp only
      rw [hf]
      dsimp only
      rw [freeKey_first hi hfree hlow]
    · unfold State.recordFault
      dsimp only
      rw [hf]
      dsimp only
      rw [freeKey_full hfull]

theorem accessFaults : Claim.AccessFaults := by
  unfold Claim.AccessFaults
  intro s t w x d a b imm cause va acc ver id ends
  refine ⟨fun h => ?_, fun h => ?_, fun u wt hrec hrest => ?_⟩
  · change execLoad w d a imm s = _
    refine runCc_access ?_
    simp only [M.bind_get, M.bind_curBank]
    exact M.bind_error (loadVa_error h)
  · change execStore x b a imm s = _
    refine runCc_access ?_
    simp only [M.bind_get, M.bind_curBank, M.bind_readX]
    exact storeVa_error h
  · intro waits
    have hbank : waits.bank id = (u.bank id).waitsOn wt := by
      change (u.modBank id (·.waitsOn wt)).bank id = _
      rw [State.bank_modBank, if_pos rfl]
    have hwaits : waits.atRest id none := atRest_waitsOn hrest wt
    rw [pageFaultCore_eq hrec]
    refine ⟨fun hc => ?_, fun hc => ?_⟩
    · rw [← (members_waitsOn u id wt).2]
      exact giveWay_atRest hwaits ((congrArg Bank.ctxDue hbank).trans hc)
    · exact giveWay_due hwaits ((congrArg (fun b : Bank => b.ctxDue.isSome) hbank).trans hc)

/-- Settles O10, by the record that the fault finds or makes, and by what giving way comes to for a bank at rest. -/
theorem pageFaults : Obligations.PageFaults := ⟨faultRecords, accessFaults⟩

end Sys2Proof.Proofs
end

-- ==== Rollback (O11) ====
section
/-! SUPPORT. A rollback, stage by stage: issued words, engines, data queues and tokens (R66, R258). -/

namespace Sys2Proof.Machine

-- One proof at a time: the whole text compiles in one process of bounded memory.
set_option Elab.async false

/-- What an engine is restored to: it keeps what stands before the boundary, or takes what the checkpoint holds. -/
def Ckpt.engineAt (c : Ckpt) (e : Engine) (g : Eng) : Eng :=
  if g.phase < c.phase then { g with queue := upToBoundary c.phase g.queue, waited := false }
  else { g with regs := PMap.get g.regs c.eng (engIx e).val, queue := [], entry := none, stopped := none, mark := none, phase := c.phase,
                waited := false, checked := [] }

def Bank.restoreEngines (b : Bank) (c : Ckpt) : Bank := allEngines.foldl (fun b e => b.setEngine e (c.engineAt e (b.engine e))) b

def Bank.restoreQueues (b : Bank) (c : Ckpt) : Bank :=
  [0#3, 1#3, 2#3, 3#3, 4#3, 5#3, 6#3, 7#3].foldl (fun b q =>
    b.setQueue q ((PMap.find c.dq q.toNat).getD (before c.phase (b.queueOf q)))) b

def Bank.restoreTokens (b : Bank) (c : Ckpt) : Bank :=
  allEngines.foldl (fun b o => allEngines.foldl (fun b e =>
    b.setTokens o e ((PMap.find c.tok (4 * (engIx o).val + (engIx e).val)).getD ((b.tokens o e).filter (· < c.phase)))) b) b

/-- A rollback of a bank up to what it takes from its checkpoint whole. -/
def Bank.restored (b : Bank) (c : Ckpt) (w : Nat) : Bank :=
  ((((b.dropFlights (fun f => c.phase ≤ f.phase) w).restoreEngines c).restoreQueues c).restoreTokens c).clampChecked

theorem restore_eq (b : Bank) (c : Ckpt) (w : Nat) : b.restore c w =
    { b.restored c w with
      core := c.core, phase := c.phase, ckpts := [c], held := [], issued := false, wait := .none, waiter := none, ctxDue := none
      lowDue := c.low, draining := .none, saving := (b.restore c w).saving, uses := [], marks := (b.restore c w).marks
      cancels := (b.restore c w).cancels } := by
  have h : ∀ b : Bank, allEngines.foldl (fun b e =>
      if (b.engine e).phase < c.phase then b.setEngine e { b.engine e with queue := upToBoundary c.phase (b.engine e).queue, waited := false }
      else b.setEngine e
        { b.engine e with regs := PMap.get (b.engine e).regs c.eng (engIx e).val, queue := [], entry := none, stopped := none, mark := none
                          phase := c.phase, waited := false, checked := [] }) b = b.restoreEngines c := fun b => by
    unfold Bank.restoreEngines
    congr 1
    funext b e
    unfold Ckpt.engineAt
    split <;> rfl
  unfold Bank.restored
  rw [← h]
  rfl

/-! ### Stages -/

theorem foldl_setEngine_engine (f : Engine → Eng → Eng) (b : Bank) (o : Engine) :
    (allEngines.foldl (fun b e => b.setEngine e (f e (b.engine e))) b).engine o = f o (b.engine o) := by
  cases o <;> simp [allEngines]

theorem queueOf_setQueue (b : Bank) (p q : BitVec 3) (l : List Elem) : (b.setQueue p l).queueOf q = if p = q then l else b.queueOf q := by
  unfold Bank.queueOf Bank.setQueue
  split
  next h => subst h; exact Vector.getElem_set_self _
  next h => exact Vector.getElem_set_ne p.toFin.isLt q.toFin.isLt (fun e => h (BitVec.eq_of_toFin_eq (Fin.ext e)))

theorem queueOf_restoreQueues (b : Bank) (c : Ckpt) (q : BitVec 3) :
    (b.restoreQueues c).queueOf q = (PMap.find c.dq q.toNat).getD (before c.phase (b.queueOf q)) := by
  have hq : q ∈ [0#3, 1#3, 2#3, 3#3, 4#3, 5#3, 6#3, 7#3] := by revert q; decide
  simp only [List.mem_cons, List.not_mem_nil, or_false] at hq
  unfold Bank.restoreQueues
  simp only [List.foldl_cons, List.foldl_nil, queueOf_setQueue]
  rcases hq with rfl | rfl | rfl | rfl | rfl | rfl | rfl | rfl <;> rfl

/-- A fold whose steps change one part of a bank changes that part alone. -/
theorem foldl_setTokens_rest {α : Type} {f : Bank → α → Bank} (h : ∀ b x, f b x = { b with tok := (f b x).tok }) (l : List α) (b : Bank) :
    l.foldl f b = { b with tok := (l.foldl f b).tok } := by
  induction l generalizing b with
  | nil => rfl
  | cons x l ih =>
    have h1 := h b x
    have h2 := ih (f b x)
    rw [h1] at h2
    rw [List.foldl_cons, h1]
    exact h2

theorem restoreTokens_rest (b : Bank) (c : Ckpt) : b.restoreTokens c = { b with tok := (b.restoreTokens c).tok } :=
  foldl_setTokens_rest (fun b _ => foldl_setTokens_rest (fun _ _ => rfl) allEngines b) allEngines b

theorem foldl_setQueue_rest (f : Bank → BitVec 3 → List Elem) (l : List (BitVec 3)) (b : Bank) :
    l.foldl (fun b q => b.setQueue q (f b q)) b = { b with dq := (l.foldl (fun b q => b.setQueue q (f b q)) b).dq } := by
  induction l generalizing b with
  | nil => rfl
  | cons q l ih =>
    rw [List.foldl_cons, ih]
    rfl

theorem restoreQueues_rest (b : Bank) (c : Ckpt) : b.restoreQueues c = { b with dq := (b.restoreQueues c).dq } :=
  foldl_setQueue_rest _ _ b

theorem restoreEngines_rest (b : Bank) (c : Ckpt) : b.restoreEngines c = { b with eng := (b.restoreEngines c).eng } :=
  foldl_setEngine_rest c.engineAt allEngines b

/-- Clamping what has been compared touches the counts of an engine alone. -/
theorem clampChecked_engine (b : Bank) (e : Engine) :
    b.clampChecked.engine e = { b.engine e with checked := (b.clampChecked.engine e).checked } := by
  have h : b.clampChecked.engine e = _ := foldl_setEngine_engine (fun _ g => { g with checked := g.checked.map (fun c =>
    (c.1, min c.2 (if c.1 = cmdKey then g.level else (b.queueOf (BitVec.ofNat 3 c.1)).length))) }) b e
  rw [h]

theorem clampChecked_rest (b : Bank) : b.clampChecked = { b with eng := b.clampChecked.eng } :=
  foldl_setEngine_rest (fun _ g => { g with checked := g.checked.map (fun c =>
    (c.1, min c.2 (if c.1 = cmdKey then g.level else (b.queueOf (BitVec.ofNat 3 c.1)).length))) }) allEngines b

/-- Discarding issued words touches promises, what copies wrote, issued words and the misses that are due. -/
theorem dropFlights_rest (b : Bank) (p : Flight → Bool) (w : Nat) :
    b.dropFlights p w = { b with
      proms := (b.dropFlights p w).proms, copyDom := (b.dropFlights p w).copyDom
      flights := b.flights.filter (fun f => !p f)
      missDue := b.missDue.filter (fun n => !(b.flights.any (fun f => p f && f.n = n))) } := by
  have step : ∀ (b : Bank) (f : Flight), (b.setProm f.n (fun q => { q with state := .complete })).noteCopyDom f w
      = { b with proms := ((b.setProm f.n (fun q => { q with state := .complete })).noteCopyDom f w).proms
                 copyDom := ((b.setProm f.n (fun q => { q with state := .complete })).noteCopyDom f w).copyDom } := fun b f => by
    unfold Bank.setProm Bank.noteCopyDom
    split <;> split <;> rfl
  have fold : ∀ (l : List Flight) (b : Bank), l.foldl (fun b f => (b.setProm f.n (fun q => { q with state := .complete })).noteCopyDom f w) b
      = { b with proms := (l.foldl (fun b f => (b.setProm f.n (fun q => { q with state := .complete })).noteCopyDom f w) b).proms
                 copyDom := (l.foldl (fun b f => (b.setProm f.n (fun q => { q with state := .complete })).noteCopyDom f w) b).copyDom } := by
    intro l
    induction l with
    | nil => exact fun _ => rfl
    | cons f l ih =>
      intro b
      have h2 := ih ((b.setProm f.n (fun q => { q with state := .complete })).noteCopyDom f w)
      rw [step b f] at h2
      rw [List.foldl_cons, step b f]
      exact h2
  unfold Bank.dropFlights
  dsimp only
  rw [fold]

theorem restoreTokens_eng (b : Bank) (c : Ckpt) : (b.restoreTokens c).eng = b.eng := by rw [restoreTokens_rest]
theorem restoreTokens_dq (b : Bank) (c : Ckpt) : (b.restoreTokens c).dq = b.dq := by rw [restoreTokens_rest]
theorem restoreQueues_eng (b : Bank) (c : Ckpt) : (b.restoreQueues c).eng = b.eng := by rw [restoreQueues_rest]
theorem restoreEngines_dq (b : Bank) (c : Ckpt) : (b.restoreEngines c).dq = b.dq := by rw [restoreEngines_rest]
theorem clampChecked_dq (b : Bank) : b.clampChecked.dq = b.dq := by rw [clampChecked_rest]
theorem dropFlights_eng (b : Bank) (p : Flight → Bool) (w : Nat) : (b.dropFlights p w).eng = b.eng := by rw [dropFlights_rest]
theorem dropFlights_dq (b : Bank) (p : Flight → Bool) (w : Nat) : (b.dropFlights p w).dq = b.dq := by rw [dropFlights_rest]

/-! ### The bank as restored -/

section
variable (b : Bank) (c : Ckpt) (w : Nat)

theorem restored_rest : b.restored c w = { b with
    flights := b.flights.filter (fun f => decide (f.phase < c.phase))
    missDue := b.missDue.filter (fun n => !(b.flights.any (fun f => decide (c.phase ≤ f.phase) && f.n = n)))
    proms := (b.restored c w).proms, copyDom := (b.restored c w).copyDom
    eng := (b.restored c w).eng, dq := (b.restored c w).dq, tok := (b.restored c w).tok } := by
  have hneg : (fun f : Flight => !decide (c.phase ≤ f.phase)) = fun f => decide (f.phase < c.phase) := by
    funext f
    rw [← decide_not]
    exact decide_eq_decide.mpr Nat.not_le
  unfold Bank.restored
  have h1 := dropFlights_rest b (fun f => c.phase ≤ f.phase) w
  generalize b.dropFlights (fun f => c.phase ≤ f.phase) w = b1 at h1 ⊢
  have h2 := restoreEngines_rest b1 c
  generalize b1.restoreEngines c = b2 at h2 ⊢
  have h3 := restoreQueues_rest b2 c
  generalize b2.restoreQueues c = b3 at h3 ⊢
  have h4 := restoreTokens_rest b3 c
  generalize b3.restoreTokens c = b4 at h4 ⊢
  have h5 := clampChecked_rest b4
  generalize b4.clampChecked = b5 at h5 ⊢
  rw [hneg] at h1
  rw [h5, h4, h3, h2, h1]

theorem restored_engine (e : Engine) : (b.restored c w).engine e =
    { c.engineAt e (b.engine e) with checked := ((b.restored c w).engine e).checked } := by
  have h1 := dropFlights_eng b (fun f => c.phase ≤ f.phase) w
  unfold Bank.restored
  generalize b.dropFlights (fun f => c.phase ≤ f.phase) w = b1 at h1 ⊢
  have he : (((b1.restoreEngines c).restoreQueues c).restoreTokens c).engine e = c.engineAt e (b.engine e) := by
    rw [Bank.engine, restoreTokens_eng, restoreQueues_eng, ← Bank.engine, Bank.restoreEngines, foldl_setEngine_engine, Bank.engine, h1,
      ← Bank.engine]
  rw [← he]
  exact clampChecked_engine _ e

theorem restored_queueOf (q : BitVec 3) :
    (b.restored c w).queueOf q = (PMap.find c.dq q.toNat).getD (before c.phase (b.queueOf q)) := by
  unfold Bank.restored
  rw [Bank.queueOf, clampChecked_dq, restoreTokens_dq, ← Bank.queueOf, queueOf_restoreQueues, Bank.queueOf, restoreEngines_dq,
    dropFlights_dq, ← Bank.queueOf]

end

/-- The state that a rollback leaves, up to records that no waiter is on any more. -/
theorem rollback_eq {s : State} {bid : Nat} {c : Ckpt} (h : (s.bank bid).ckpts.find? (·.phase = (s.bank bid).committed) = some c) :
    s.rollback bid = ({ s.setBank bid ((s.bank bid).restore c s.window) with
      dirWaiters := s.dirWaiters.filter (·.bid ≠ bid), mem := c.mend s.mem } : State).gcFaults := by
  simp only [State.rollback, h]

end Sys2Proof.Machine

namespace Sys2Proof.Proofs
open Sys2Proof Sys2Proof.Machine

/-- Settles O11, by the stages of the bank's restoration; memory is mended, and no other bank is written. -/
theorem rollbackRestores : Obligations.RollbackRestores := by
  unfold Obligations.RollbackRestores
  intro s bid c hc b t u
  have hu : u = (s.bank bid).restore c s.window := by
    change (s.rollback bid).bank bid = _
    rw [rollback_eq hc]
    change (s.setBank bid _).bank bid = _
    rw [State.bank_setBank, if_pos rfl]
  have hr := restore_eq b c s.window
  rw [← hu] at hr
  have hrest := restored_rest b c s.window
  have hrest_eng := restored_engine b c s.window
  have hrest_dq := restored_queueOf b c s.window
  generalize b.restored c s.window = r at hr hrest hrest_eng hrest_dq
  clear_value u
  have heng : ∀ e, u.engine e = r.engine e := fun e => by
    rw [Bank.engine, show u.eng = r.eng by rw [hr], Bank.engine]
  refine ⟨by rw [hr], by rw [hr], by rw [hr], by rw [hr], ?_, fun e he => ?_, fun e he => ?_, fun q => ?_, by rw [hr],
    by rw [hr], by rw [hr], by rw [hr], ?_, by rw [hr], ?_, ?_, fun a ha => ?_, fun m hm => ?_⟩
  · rw [hr, hrest]
  · rw [heng, hrest_eng, Ckpt.engineAt, if_neg (Nat.not_lt.mpr he)]
    exact ⟨rfl, rfl, rfl, rfl, rfl, rfl⟩
  · rw [heng, hrest_eng, Ckpt.engineAt, if_pos he]
    exact ⟨rfl, rfl, rfl, rfl⟩
  · rw [Bank.queueOf, show u.dq = r.dq by rw [hr], ← Bank.queueOf, hrest_dq]
    rfl
  · rw [hr, hrest]
  · rw [hr, hrest]
  · change (s.rollback bid).mem = _
    rw [rollback_eq hc]
    rfl
  · change (s.rollback bid).mem.get a = _
    rw [rollback_eq hc]
    exact c.mend_defined s.mem a ha
  · change (s.rollback bid).bank m = _
    rw [rollback_eq hc]
    change (s.setBank bid _).bank m = _
    rw [State.bank_setBank, if_neg hm.symm]

end Sys2Proof.Proofs
end

-- ==== Queues (O16, O17) ====
section
/-! SUPPORT. Data queues and command queues from the control core (R159, R245 to R251). -/

namespace Sys2Proof.Machine

-- One proof at a time: the whole text compiles in one process of bounded memory.
set_option Elab.async false

/-- A body whose effect leaves the control cores' registers alone retires its instruction behind it. -/
theorem runCc_kept {body : M Unit} {s t : State} (h : body.run s = .ok () t) (hk : CoresKept s t) :
    runCc body s = .next (t.retires id s.after) := runCc_state h hk.cur (by rw [hk.core])

/-- A change of every member of a gang that leaves their control cores' registers alone. -/
theorem CoresKept.foldl_modBank {f : Nat → Bank → Bank} (h : ∀ m b, (f m b).core = b.core) (ms : List Nat) (s : State) :
    CoresKept s (ms.foldl (fun s m => s.modBank m (f m)) s) :=
  CoresKept.foldl (fun _ m => CoresKept.modBank (h m)) ms s

theorem pushElem_core (b : Bank) (q : BitVec 3) (v : Elem) : (b.pushElem q v).core = b.core := rfl

/-- The queues that the control core pushes, and those that it pops (R159). -/
theorem queueFromCore_of_mem {q : BitVec 3} (h : q ∈ [0#3, 1#3, 3#3, 5#3, 6#3]) : queueFromCore q = true := by
  revert q
  decide

theorem queueToCore_of_mem {q : BitVec 3} (h : q ∈ [2#3, 4#3, 7#3]) : queueToCore q = true := by
  revert q
  decide

/-- The head of a queue is read: its value to rd, its valid bit to `vbit`. -/
theorem queueHead_ok {d : Reg} {q : BitVec 3} {pop : Bool} {s : State} {e : Elem} {rest : List Elem} (hq : queueToCore q = true)
    (he : s.own.queueOf q = e :: rest) (hb : e.bad = false) :
    (queueHead d q pop).run s = .ok () (s.modBank s.cur.bid (fun b =>
      (if pop then ({ b with vbit := b.vbit.set q.toFin e.valid } : Bank).setQueue q rest
        else { b with vbit := b.vbit.set q.toFin e.valid }).writeX d e.value)) := by
  simp only [queueHead, hq, Bool.not_true, Bool.false_eq_true, if_false, M.bind_curBank,
    show (s.bank s.cur.bid).queueOf q = e :: rest from he, hb, M.run_modCur]

/-- Entries go behind the queues of every member, where each has room for all of them. -/
theorem pushCommands_ok {e : Engine} {ks : List CmdKind} {s : State}
    (h : ∀ m ∈ s.members s.cur.bid, ((s.bank m).engine e).level + ks.length ≤ 64) :
    (pushCommands e ks).run s = .ok () ((s.members s.cur.bid).foldl (fun s' m => s'.modBank m (fun b =>
      { b.modEngine e (fun g => { g with queue := g.queue ++ ks.map (fun k => ⟨k, s.own.curVers, false⟩) }) with misOpen := false })) s) := by
  have hroom : (s.members s.cur.bid).any (fun m => decide (commandDepth < ((s.bank m).engine e).level + ks.length)) = false := by
    rw [List.any_eq_false]
    exact fun m hm hc => absurd (of_decide_eq_true hc) (Nat.not_lt.mpr (h m hm))
  simp only [pushCommands, M.bind_get, hroom, Bool.false_eq_true, if_false, M.run_modify]

theorem runCc_pushCommands {body : M Unit} {e : Engine} {ks : List CmdKind} {s : State} (hb : body.run s = (pushCommands e ks).run s)
    (h : ∀ m ∈ s.members s.cur.bid, ((s.bank m).engine e).level + ks.length ≤ 64) :
    runCc body s = .next (((s.members s.cur.bid).foldl (fun s' m => s'.modBank m (fun b =>
      { b.modEngine e (fun g => { g with queue := g.queue ++ ks.map (fun k => ⟨k, s.own.curVers, false⟩) }) with misOpen := false })) s).retires
        id s.after) := by
  refine runCc_kept (hb.trans (pushCommands_ok h)) (CoresKept.foldl_modBank ?_ _ _)
  exact fun _ _ => rfl

theorem length_rawWords (v : Word) (n : BitVec 2) : (rawWords v n).length = n.toNat + 1 := by
  unfold rawWords
  rw [List.length_map, List.length_range]

end Sys2Proof.Machine

namespace Sys2Proof.Proofs
open Sys2Proof Sys2Proof.Machine

/-- Settles O16, by the room of every member, and by the head of the queue. -/
theorem dataQueuesComplete : Obligations.DataQueuesComplete := by
  unfold Obligations.DataQueuesComplete
  intro s q a d e rest
  refine ⟨fun hq hroom => ?_, fun hq he hb => ⟨?_, ?_⟩, ?_⟩
  · change execQpush q a s = _
    have hfull : (s.members s.cur.bid).any (fun m => decide (queueDepth ≤ ((s.bank m).queueOf q).length)) = false := by
      rw [List.any_eq_false]
      exact fun m hm hc => absurd (of_decide_eq_true hc) (Nat.not_le.mpr (hroom m hm))
    refine runCc_kept ?_ (CoresKept.foldl_modBank (f := fun _ b =>
      { b.pushElem q ⟨s.own.readX a, true, b.phase, false⟩ with misOpen := false }) (fun _ _ => rfl) _ _)
    simp only [queueFromCore_of_mem hq, Bool.not_true, Bool.false_eq_true, if_false, M.bind_get, hfull, M.bind_readX, M.run_modify]
  · change execQpop d q s = _
    exact runCc_modBank (queueHead_ok (queueToCore_of_mem hq) he hb) rfl (Bank.writeX_pc _ _ _)
  · change execQpeek d q s = _
    exact runCc_modBank (queueHead_ok (queueToCore_of_mem hq) he hb) rfl (Bank.writeX_pc _ _ _)
  · change execQlvl d q s = _
    exact runCc_writeX rfl

theorem watermarkSet : Claim.WatermarkSet := by
  unfold Claim.WatermarkSet
  intro s e a
  refine ⟨fun h => ?_, fun h => ?_⟩
  · change execQwm e a s = _
    refine runCc_modBank (t := s) ?_ rfl rfl
    simp only [M.bind_readX]
    rw [if_neg (Nat.not_lt.mpr h)]
    rfl
  · change execQwm e a s = _
    refine runCc_trap (t := s) ?_
    simp only [M.bind_readX]
    rw [if_pos h]
    rfl

theorem commandsComplete : Claim.CommandsComplete := by
  unfold Claim.CommandsComplete
  intro s e r a n room pushed
  refine ⟨fun h => ⟨?_, ?_⟩, fun h => ?_⟩
  · change execEcall e r s = _
    exact runCc_pushCommands rfl h
  · change execEmark e a s = _
    exact runCc_pushCommands (M.bind_readX a _ s) h
  · change execEpush e a n s = _
    exact runCc_pushCommands (ks := rawWords (s.own.readX a) n) (M.bind_readX a _ s) (by rw [length_rawWords]; exact h)

/-- Settles O17: every form appends its entries to the queue of every member. -/
theorem commands : Obligations.Commands := ⟨watermarkSet, commandsComplete⟩

end Sys2Proof.Proofs
end

-- ==== Rendezvous, time and promises (O18, O19) ====
section
/-! SUPPORT. Rendezvous, time, promises and phases (R66 to R68, R132, R152, R252 to R256). -/

namespace Sys2Proof.Machine

-- One proof at a time: the whole text compiles in one process of bounded memory.
set_option Elab.async false

/-! ### Rendezvous -/

/-- The condition of a rendezvous in a bank, as a statement (R132). -/
theorem holds_iff (b : Bank) (mask : BitVec 4) (n : BitVec 32) : b.holds mask n = true ↔
    ∀ e : Engine, mask.getLsbD (engIx e).val = true →
      ∃ k, (b.engine e).regs.marker = some k ∧ (k.toNat + 2 ^ 32 - n.toNat) % 2 ^ 32 < 2 ^ 31 := by
  have hall : b.holds mask n = true ↔ ∀ e : Engine, (!mask.getLsbD (engIx e).val ||
      match (b.engine e).regs.marker with | some m => decide ((m - n).toNat < 2 ^ 31) | none => false) = true := by
    unfold Bank.holds
    rw [List.all_eq_true]
    exact ⟨fun h e => h e (by cases e <;> decide), fun h e _ => h e⟩
  rw [hall]
  refine forall_congr' fun e => ?_
  cases mask.getLsbD (engIx e).val with
  | false => simp
  | true =>
    cases (b.engine e).regs.marker with
    | none => simp
    | some k =>
      have hk : (k - n).toNat = (k.toNat + 2 ^ 32 - n.toNat) % 2 ^ 32 := by
        rw [BitVec.toNat_sub]
        congr 1
        omega
      simp [hk]

/-- What `rdvs` makes of its register: it is armed, or has fired where the condition holds in every member. -/
theorem fireRv_register {s : State} {bid : Nat} {v : BitVec 3} {m : BitVec 4} {n : BitVec 32}
    (h : (s.bank bid).core.rv[v.toFin] = ⟨.armed, m, n⟩) :
    ((s.fireRv bid).bank bid).core.rv[v.toFin]
      = ⟨if (s.members bid).all (fun x => (s.bank x).holds m n) then .fired else .armed, m, n⟩ := by
  unfold State.fireRv
  rw [State.bank_modBank, if_pos rfl]
  dsimp only
  rw [Fin.getElem_fin, Vector.getElem_map]
  rw [Fin.getElem_fin] at h
  rw [h]
  simp only [decide_true, Bool.true_and]
  split <;> rfl

/-- Firing rendezvous registers changes nothing else of a bank. -/
theorem fireRv_rest (s : State) (bid : Nat) :
    s.fireRv bid = s.modBank bid (fun b => { b with core := { b.core with rv := ((s.fireRv bid).bank bid).core.rv } }) := by
  unfold State.fireRv
  rw [State.bank_modBank, if_pos rfl]
  rfl

end Sys2Proof.Machine

namespace Sys2Proof.Proofs
open Sys2Proof Sys2Proof.Machine

theorem rendezvousComplete : Claim.RendezvousComplete := by
  unfold Claim.RendezvousComplete
  intro s v m a
  refine ⟨?_, fun h => ?_⟩
  · change execRdvs v m a s = _
    refine runCc_state (by simp only [M.bind_readX, M.bind_curBid, M.bind_modCur, M.run_modify]) rfl ?_
    rw [fireRv_rest, State.bank_modBank, if_pos rfl, State.bank_modBank, if_pos rfl]
  · change execRdvw v s = _
    refine runCc_modBank (t := s) ?_ rfl rfl
    simp only [M.bind_get]
    have hf : (s.bank s.cur.bid).core.rv[v.toFin].state = .fired := h
    simp only [hf, M.run_modCur]

theorem rendezvousFires : Claim.RendezvousFires := by
  unfold Claim.RendezvousFires
  intro s t v m a ht n r
  rw [(rendezvousComplete s v m a).1] at ht
  cases ht
  set s1 := s.modBank s.cur.bid (fun b => { b with core := { b.core with rv := b.core.rv.set v.toFin ⟨.armed, m, n⟩ } }) with hs1
  have hb1 : s1.bank s.cur.bid = { s.own with core := { s.own.core with rv := s.own.core.rv.set v.toFin ⟨.armed, m, n⟩ } } := by
    rw [hs1, State.bank_modBank, if_pos rfl]
  have harm : (s1.bank s.cur.bid).core.rv[v.toFin] = ⟨.armed, m, n⟩ := by
    rw [hb1]
    exact Vector.getElem_set_self _
  have hms : s1.members s.cur.bid = s.members s.cur.bid := by
    unfold State.members
    rw [hb1]
  have hholds : ∀ x, (s1.bank x).holds m n = (s.bank x).holds m n := fun x => by
    rw [hs1, State.bank_modBank]
    split
    next e => subst e; rfl
    · rfl
  have hown : ((s1.fireRv s.cur.bid).retires id s.after).own = (((s1.fireRv s.cur.bid).bank s.cur.bid).setPc s.after).retire := by
    rw [State.own, State.retires]
    change (State.modBank _ s.cur.bid _).bank s.cur.bid = _
    rw [State.bank_modBank, if_pos rfl]
    rfl
  have hr : r = ⟨if (s.members s.cur.bid).all (fun x => (s.bank x).holds m n) then .fired else .armed, m, n⟩ := by
    change ((s1.fireRv s.cur.bid).retires id s.after).own.core.rv[v.toFin] = _
    rw [hown]
    change ((s1.fireRv s.cur.bid).bank s.cur.bid).core.rv[v.toFin] = _
    rw [fireRv_register harm, hms]
    simp only [hholds]
  have hfired : r.state = .fired ↔ (s.members s.cur.bid).all (fun x => (s.bank x).holds m n) = true := by
    rw [hr]
    dsimp only
    split
    next h => simp [h]
    next h => simp [h]
  refine ⟨by rw [hr], by rw [hr], ?_, ?_, ?_, ?_⟩
  · rw [hfired, List.all_eq_true]
    exact forall₂_congr fun x _ => holds_iff _ _ _
  · rw [hr]
    dsimp only
    split
    · exact .inl rfl
    · exact .inr rfl
  · rw [hown, fireRv_rest, State.bank_modBank, if_pos rfl, hb1]
    rfl
  · rw [hown, fireRv_rest, State.bank_modBank, if_pos rfl, hb1]
    rfl

/-- Settles O18, by the condition of a rendezvous in every member. -/
theorem rendezvous : Obligations.Rendezvous := ⟨rendezvousComplete, rendezvousFires⟩

theorem timeFormsComplete : Claim.TimeFormsComplete := by
  unfold Claim.TimeFormsComplete
  intro s a d
  refine ⟨fun h => ?_, ?_⟩
  · change execWaitt a s = _
    refine runCc_same ?_
    simp only [M.bind_readX, M.bind_get]
    rw [if_neg (Nat.not_lt.mpr h)]
    rfl
  · intro n v
    change execPrm d a s = _
    have hn : ((s.bank s.cur.bid).readX a).toNat = n := rfl
    have hv : (s.bank s.cur.bid).prmValue n = v := rfl
    refine runCc_modBank (t := s) ?_ rfl ?_
    · simp only [M.bind_readX, M.bind_curBank, hn, hv]
      by_cases h2 : v = 2
      · simp only [h2, if_true, M.bind_modCur, M.run_modCur]
        exact congrArg _ (State.modBank_modBank _ _ _ _)
      · simp only [h2, if_false, M.run_modCur]
    · rw [Bank.writeX_pc]
      unfold Bank.setProm
      split <;> split <;> rfl

theorem promiseValues : Claim.PromiseValues := by
  unfold Claim.PromiseValues
  intro b n
  refine ⟨fun h => if_pos h, fun h hp => ?_, fun p h hp => ?_⟩
  · rw [Bank.prmValue, if_neg (Nat.not_le.mpr h), hp]
  · cases hs : p.state <;> simp only [Bank.prmValue, if_neg (Nat.not_le.mpr h), hp, hs]

/-- Settles O19, by whether the time is reached, and the cases of a promise. -/
theorem timeAndPromises : Obligations.TimeAndPromises := ⟨timeFormsComplete, promiseValues⟩

end Sys2Proof.Proofs
end

-- ==== Phases (O20) ====
section
/-! SUPPORT. Phases: the boundary of a phase, and what its commit does (R152, R153, R256). -/

namespace Sys2Proof.Machine

-- One proof at a time: the whole text compiles in one process of bounded memory.
set_option Elab.async false

theorem passBoundary_core (e : Engine) : ∀ (n : Nat) (b : Bank), (b.passBoundary e n).core = b.core
  | 0, _ => rfl
  | n + 1, b => by
    unfold Bank.passBoundary
    dsimp only
    split
    · rfl
    · split
      · rw [passBoundary_core e n]
        rfl
      · rfl

theorem placeBoundary_core (b : Bank) (pc : Word) : (b.placeBoundary pc).core = b.core := by
  unfold Bank.placeBoundary Bank.passBoundaries
  dsimp only
  rw [foldl_core fun b e => passBoundary_core e 3 b]
  rfl

/-! ### The commit -/

theorem modEngines_rest (b : Bank) (f : Engine → Eng → Eng) : b.modEngines f = { b with eng := (b.modEngines f).eng } :=
  foldl_setEngine_rest f allEngines b

/-- What a commit does to its bank. -/
theorem commit_rest (b : Bank) (w : Nat) : b.commit w = { b with
    eng := (b.commit w).eng, dom := (b.commit w).dom, copyDom := (b.commit w).copyDom, committed := b.committed + 1
    held := b.held.filter (·.phase ≠ b.committed), ckpts := b.ckpts.filter (·.phase ≠ b.committed), phaseDom := (b.commit w).phaseDom
    poison := b.poison.filter (fun e => b.committed < e.1), mismatches := b.mismatches.filter (fun e => b.committed < e.1)
    misOpen := false } := by
  unfold Bank.commit
  dsimp only
  rw [modEngines_rest]
  rfl

theorem modEngines_engine (b : Bank) (f : Engine → Eng → Eng) (e : Engine) : (b.modEngines f).engine e = f e (b.engine e) :=
  foldl_setEngine_engine f b e

/-- What the commit of a phase does to an engine: its domain writes of the phase are released. -/
def Eng.committed (g : Eng) (p : Nat) : Eng :=
  { g with
    waited := false, domWrites := g.domWrites.filter (fun d => p < d.1)
    released := g.released.map (fun r => if r.phase.any (· ≤ p) then { r with phase := none } else r) }

theorem commit_engine (b : Bank) (w : Nat) (e : Engine) : (b.commit w).engine e = (b.engine e).committed b.committed := by
  have heng : (b.commit w).eng = ((b.coverCopy (· ≤ b.committed) w).modEngines (fun _ g => g.committed b.committed)).eng := rfl
  rw [Bank.engine, heng, ← Bank.engine, modEngines_engine]
  rfl

theorem commit_mem (s : State) (bid : Nat) : (s.commit bid).mem =
    (((s.bank bid).held.filter (·.phase = (s.bank bid).committed)).reverse).foldl (fun m h => m.set h.addr h.val) s.mem := rfl

theorem commit_bank (s : State) (bid m : Nat) :
    (s.commit bid).bank m = if bid = m then (s.bank bid).commit s.window else s.bank m := by
  unfold State.commit
  rw [State.bank_setBank]
  rfl

/-- Held bytes that reach memory leave every address that none of them names. -/
theorem get_foldl_set_outside {l : List Held} {m : Mem} {x : Nat} (h : ∀ y ∈ l, y.addr ≠ x) :
    (l.foldl (fun m h => m.set h.addr h.val) m).get x = m.get x := by
  induction l generalizing m with
  | nil => rfl
  | cons y l ih =>
    rw [List.foldl_cons, ih fun z hz => h z (List.mem_cons_of_mem _ hz), Mem.get_set, if_neg (h y (List.mem_cons_self ..))]

/-- Of held bytes, the newest first, that reach memory oldest first, an address takes the newest. -/
theorem get_foldl_set_first {l : List Held} {m : Mem} {x : Nat} {y : Held} (h : l.find? (fun h => h.addr = x) = some y) :
    (l.reverse.foldl (fun m h => m.set h.addr h.val) m).get x = y.val := by
  induction l generalizing y with
  | nil => cases h
  | cons z l ih =>
    rw [List.reverse_cons, List.foldl_append, List.foldl_cons, List.foldl_nil, Mem.get_set]
    rw [List.find?_cons] at h
    by_cases hz : z.addr = x
    · simp only [hz, decide_true, Option.some.injEq] at h
      rw [if_pos hz, h]
    · simp only [hz, decide_false] at h
      rw [if_neg hz, ih h]

end Sys2Proof.Machine

namespace Sys2Proof.Proofs
open Sys2Proof Sys2Proof.Machine

theorem phasesComplete : Claim.PhasesComplete := by
  unfold Claim.PhasesComplete
  intro s bank
  refine ⟨fun h => ?_, fun hlead h => ?_⟩
  · change execPhsw s = _
    have hopen : (s.members s.cur.bid).any (fun m => decide ((s.bank m).committed < (s.bank m).phase)) = false := by
      rw [List.any_eq_false]
      exact fun m hm hc => absurd (of_decide_eq_true hc) (Nat.not_lt.mpr (h m hm))
    refine runCc_kept ?_ (CoresKept.foldl_modBank
      (f := fun m b => b.placeBoundary (if m = s.cur.bid then s.after else b.core.pc)) (fun m b => placeBoundary_core b _) _ _)
    simp only [M.bind_get, hopen, Bool.false_eq_true, if_false, M.run_modify]
    rfl
  · change execPhaseCommit bank s = _
    have hcan : s.canCommit (s.members bank) = true := by
      unfold State.canCommit
      rw [List.all_eq_true]
      intro m hm
      obtain ⟨ht, hlt, hd⟩ := h m hm
      simp [ht, hlt, hd]
    unfold execPhaseCommit
    dsimp only
    rw [hlead, hcan, Bool.and_true, if_pos (decide_eq_true rfl)]

theorem commitEffect : Claim.CommitEffect := by
  unfold Claim.CommitEffect
  intro s bid b t c
  have hc : c = b.commit s.window := by
    change (s.commit bid).bank bid = _
    rw [commit_bank, if_pos rfl]
  have hrest := commit_rest b s.window
  rw [← hc] at hrest
  have heng : ∀ e, (c.engine e).regs = (b.engine e).regs ∧ (c.engine e).queue = (b.engine e).queue := fun e => by
    rw [hc, commit_engine]
    exact ⟨rfl, rfl⟩
  have hmem : t.mem = _ := commit_mem s bid
  refine ⟨by rw [hrest], by rw [hrest], by rw [hrest], by rw [hrest], by rw [hrest], by rw [hrest], heng, fun h hh => ?_,
    fun h hh hp => ?_, fun x hx => ?_, fun x h hf => ?_, fun m hm => ?_⟩
  · rw [hrest] at hh
    simpa using hh
  · rw [hrest]
    simpa using ⟨hh, hp⟩
  · rw [hmem]
    refine get_foldl_set_outside fun y hy => ?_
    simp only [List.mem_reverse, List.mem_filter, decide_eq_true_eq] at hy
    exact hx y hy.1 hy.2
  · rw [hmem]
    refine get_foldl_set_first ?_
    rw [List.find?_filter, ← hf]
    congr 1
    funext y
    simp only [Bool.decide_and, Bool.decide_eq_true]
    rfl
  · change (s.commit bid).bank m = _
    rw [commit_bank, if_neg hm.symm]

/-- Settles O20: a boundary leaves the control cores' registers alone, and a commit writes the phase's bytes oldest first. -/
theorem phases : Obligations.Phases := ⟨phasesComplete, commitEffect⟩

end Sys2Proof.Proofs
end

-- ==== Page handles (O14, O15) ====
section
/-! SUPPORT. Page handles: versions and status, and how a use of a handle ends (R35 to R41, R242 to R244). -/

namespace Sys2Proof.Machine

-- One proof at a time: the whole text compiles in one process of bounded memory.
set_option Elab.async false

/-! ### Versions -/

theorem handle_setHandle (b : Bank) (p q : BitVec 4) (h : Handle) : (b.setHandle p h).handle q = if p = q then h else b.handle q := by
  unfold Bank.handle Bank.setHandle
  split
  next e => subst e; exact Vector.getElem_set_self _
  next e => exact Vector.getElem_set_ne p.toFin.isLt q.toFin.isLt fun e2 => e (BitVec.eq_of_toFin_eq (Fin.ext e2))

theorem newVersion_some {b c : Bank} {p : BitVec 4} {used : List Nat} {f : Nat → HVer} (h : b.newVersion p used f = some c) :
    c = { (b.setHandle p { cur := f b.nextVer, old := (b.handle p).live used }) with nextVer := b.nextVer + 1 } := by
  unfold Bank.newVersion at h
  dsimp only at h
  split at h
  · cases h
  · cases h
    rfl

theorem newVersion_isSome (b : Bank) (p : BitVec 4) (used : List Nat) (f : Nat → HVer) :
    (b.newVersion p used f).isSome = true ↔ ((b.handle p).live used).length < 4 := by
  unfold Bank.newVersion
  dsimp only
  split
  next h => simp only [Option.isSome_none, Bool.false_eq_true, false_iff, Nat.not_lt]; exact h
  next h => simp only [Option.isSome_some, true_iff]; omega

/-- The versions of a handle are those that are live and, behind them, those that no command uses any more. -/
theorem live_spec (h : Handle) (used : List Nat) : ∃ dead, h.cur :: h.old = h.live used ++ dead ∧ (∀ v ∈ dead, v.id ∉ used)
    ∧ (∀ v, (h.live used).getLast? = some v → v.id ∈ used) := by
  refine ⟨((h.cur :: h.old).reverse.takeWhile (fun v => !used.contains v.id)).reverse, ?_, fun v hv => ?_, fun v hv => ?_⟩
  · rw [Handle.live, ← List.reverse_append, List.takeWhile_append_dropWhile, List.reverse_reverse]
  · have := List.mem_takeWhile_imp (List.mem_reverse.mp hv)
    simpa using this
  · rw [Handle.live, List.getLast?_reverse] at hv
    have := List.head?_dropWhile_not (fun v : HVer => !used.contains v.id) (h.cur :: h.old).reverse
    rw [hv] at this
    simpa using this

/-- Making the version of an `xlat` changes TLBs, and what the walker may. -/
theorem xlatVer_frame {s t : State} {bid va : Nat} {wint : Bool} {v : HVer} (h : s.xlatVer bid va wint = (v, t)) : Translated s t := by
  unfold State.xlatVer at h
  dsimp only at h
  split at h
  · cases h; exact Translated.refl _
  · split at h
    · cases h; exact Translated.refl _
    · split at h
      · split at h
        · cases h; exact (tlbRenew_frame _ _ _ _).trans (touch_frame _ _ _ _)
        · cases h; exact Translated.refl _
        · cases h; exact tlbDrop_frame _ _ _
      · cases h; exact Translated.refl _

theorem runCc_xlatForm {s t : State} {a : Reg} {p : BitVec 4} {wint : Bool} {v : HVer} {b : Bank}
    (hx : s.xlatVer s.cur.bid (s.own.readX a).toNat wint = (v, t))
    (hn : (t.bank s.cur.bid).newVersion p (t.usedVers s.cur.bid) (fun id => { v with id := id }) = some b) :
    runCc (xlatForm a p wint) s = .next ((t.setBank s.cur.bid b).retires id s.after) := by
  have hf := xlatVer_frame hx
  refine runCc_state (t := t.setBank s.cur.bid b) ?_ hf.cur ?_
  · simp only [xlatForm, M.bind_get, M.bind_readX]
    simp only [show s.xlatVer s.cur.bid ((s.bank s.cur.bid).readX a).toNat wint = (v, t) from hx, hn, M.run_set]
  · rw [State.bank_setBank, if_pos rfl, newVersion_some hn]
    change (t.bank s.cur.bid).core.pc = _
    rw [hf.core]

/-! ### Status (R41) -/

/-- A field of a word written as a number. -/
theorem extractLsb'_ofNat {n i k m : Nat} (hn : n < 2 ^ 64) (h : n / 2 ^ i % 2 ^ k = m % 2 ^ k) :
    (BitVec.ofNat 64 n).extractLsb' i k = BitVec.ofNat k m := by
  apply BitVec.eq_of_toNat_eq
  rw [BitVec.extractLsb'_toNat, BitVec.toNat_ofNat, BitVec.toNat_ofNat, Nat.mod_eq_of_lt hn, Nat.shiftRight_eq_div_pow, h]

/-- A bit of a word written as a number. -/
theorem getLsbD_ofNat_b2n {n i : Nat} {b : Bool} (hi : i < 64) (h : n / 2 ^ i % 2 = b2n b) : (BitVec.ofNat 64 n).getLsbD i = b := by
  rw [BitVec.getLsbD_ofNat, decide_eq_true hi, Bool.true_and, Nat.testBit_eq_decide_div_mod_eq, h]
  cases b <;> rfl

theorem b2n_le (b : Bool) : b2n b ≤ 1 := by cases b <;> decide

/-! ### Uses (R39, R244) -/

section
variable {s : State} {p : BitVec 4} {off len acc pol : Nat} {v : HVer}

/-- A use by the control core, of a bank alone or of one that leads, goes by the current version of its own handle. -/
theorem handlePlace_core (hb : s.handleBank s.cur.bid = s.cur.bid) (hv : (s.own.handle p).cur = v) :
    (handlePlace s.cur.bid none p none off len acc pol).run s
      = (versionPage s.cur.bid 0 none (s.whoCore s.cur.bid) s.cur.bid p v off len acc >>= fun v =>
          if pageSize v.leaf.level < off + len then fail (.access 9 p.toNat acc v.id)
          else if v.leaf.denies (s.whoCore s.cur.bid) acc = 0 then landOnPage (s.whoCore s.cur.bid) p v off len acc pol
          else rewalk (s.whoCore s.cur.bid) s.cur.bid p v (v.leaf.va + off) (v.leaf.va + off) acc >>= fun v =>
            landOnPage (s.whoCore s.cur.bid) p v off len acc pol).run s := by
  have huse : s.useVer s.cur.bid p none = v := hv
  have hw : s.whoHandle s.cur.bid none = s.whoCore s.cur.bid := rfl
  simp only [handlePlace, M.bind_get, hb, huse, hw]
  change (versionPage s.cur.bid 0 none (s.whoCore s.cur.bid) s.cur.bid p v off len acc >>= _).run s = _
  rw [M.run_bind, M.run_bind]
  split
  · split
    · rfl
    · split <;> rfl
  · rfl

theorem handlePlace_empty (hb : s.handleBank s.cur.bid = s.cur.bid) (hv : (s.own.handle p).cur = v) (h : v.state = .empty) :
    (handlePlace s.cur.bid none p none off len acc pol).run s = .error (.access 0xA p.toNat acc v.id) s := by
  rw [handlePlace_core hb hv]
  exact M.bind_error (by simp only [versionPage, h, M.run_fail])

theorem handlePlace_offset (hb : s.handleBank s.cur.bid = s.cur.bid) (hv : (s.own.handle p).cur = v)
    (h : v.state = .valid ∨ v.state = .revoked) (ho : pageSize v.leaf.level < off + len) :
    (handlePlace s.cur.bid none p none off len acc pol).run s = .error (.access 9 p.toNat acc v.id) s := by
  rw [handlePlace_core hb hv]
  rcases h with h | h
  · rw [M.bind_ok (a := v) (t := s) (by simp only [versionPage, h, M.run_pure]), if_pos ho]
    rfl
  · exact M.bind_error (by simp only [versionPage, h, Option.isNone_none, if_true, ho, M.run_fail])

theorem handlePlace_revoked (hb : s.handleBank s.cur.bid = s.cur.bid) (hv : (s.own.handle p).cur = v) (h : v.state = .revoked)
    (ho : off + len ≤ pageSize v.leaf.level) :
    (handlePlace s.cur.bid none p none off len acc pol).run s = .error (.access 8 p.toNat acc v.id) s := by
  rw [handlePlace_core hb hv]
  refine M.bind_error ?_
  simp only [versionPage, h, Option.isNone_none, if_true, M.run_fail]
  rw [if_neg (Nat.not_lt.mpr ho)]

theorem handlePlace_pending (hb : s.handleBank s.cur.bid = s.cur.bid) (hv : (s.own.handle p).cur = v) (h : v.state = .pending)
    (hc : v.cause = 0) : (handlePlace s.cur.bid none p none off len acc pol).run s
      = .error .wait (s.modBank s.cur.bid (fun b => { b with
        uses := PMap.put b.uses 0 ⟨v.id, (canonAddr (v.vpage * 4096) + off) % 2 ^ 64, acc⟩ })) := by
  rw [handlePlace_core hb hv]
  exact M.bind_error (by simp only [versionPage, h, hc, if_true, waitWalk, M.bind_modify, M.run_waitMore])

/-- A use that the rights of a valid leaf deny is walked once more. -/
theorem handlePlace_denied (hb : s.handleBank s.cur.bid = s.cur.bid) (hv : (s.own.handle p).cur = v) (h : v.state = .valid)
    (ho : off + len ≤ pageSize v.leaf.level) (hd : v.leaf.denies (s.whoCore s.cur.bid) acc ≠ 0) :
    (handlePlace s.cur.bid none p none off len acc pol).run s
      = (rewalk (s.whoCore s.cur.bid) s.cur.bid p v (v.leaf.va + off) (v.leaf.va + off) acc >>= fun v =>
            landOnPage (s.whoCore s.cur.bid) p v off len acc pol).run s := by
  rw [handlePlace_core hb hv, M.bind_ok (a := v) (t := s) (by simp only [versionPage, h, M.run_pure]), if_neg (Nat.not_lt.mpr ho), if_neg hd]

variable {d a b : Reg} {c : BitVec 3} {e : Stop} {t : State}

theorem execLdh_error (hoff : (s.own.readX a).toNat % 8 = 0)
    (h : (handlePlace s.cur.bid none p none (s.own.readX a).toNat 8 accR c.toNat).run s = .error e t) :
    execLdh d p a c s = t.coreStop s.cur.bid e := by
  refine runCc_error ?_
  simp only [M.bind_readX]
  rw [if_neg (not_not.mpr hoff), M.bind_curBid]
  exact M.bind_error h

theorem execSdh_error (hoff : (s.own.readX a).toNat % 8 = 0)
    (h : (handlePlace s.cur.bid none p none (s.own.readX a).toNat 8 accW c.toNat).run s = .error e t) :
    execSdh b p a c s = t.coreStop s.cur.bid e := by
  refine runCc_error ?_
  simp only [M.bind_readX]
  rw [if_neg (not_not.mpr hoff), M.bind_curBid]
  exact M.bind_error h

end

/-- A handle access that stops with a fault of its access. -/
theorem coreStop_access (t : State) (bid c va acc ver : Nat) : t.coreStop bid (.access c va acc ver)
    = .next (if c ≤ 5 then t.pageFaultCore bid c va acc ver else t.takeTrap bid (48 + c) va) := by
  rw [State.coreStop]
  exact (apply_ite Host.Outcome.next _ _ _).symm

end Sys2Proof.Machine

namespace Sys2Proof.Proofs
open Sys2Proof Sys2Proof.Machine

theorem handleFormsComplete : Claim.HandleFormsComplete := by
  unfold Claim.HandleFormsComplete
  intro s a d p b v t
  refine ⟨fun wint hx hn => ?_, fun hn => ?_, ?_⟩
  · cases wint with
    | true =>
      change execXlatW a p s = _
      exact runCc_xlatForm hx hn
    | false =>
      change execXlat a p s = _
      exact runCc_xlatForm hx hn
  · change execHinv p s = _
    refine runCc_modBank (t := s) (f := fun _ => b) ?_ rfl ?_
    · simp only [M.bind_curBank, M.bind_get, M.bind_curBid,
        show (s.bank s.cur.bid).newVersion p (s.usedVers s.cur.bid) HVer.empty = some b from hn, M.run_modCur]
    · rw [newVersion_some hn]
      rfl
  · change execHstat d p s = _
    exact runCc_writeX rfl

theorem newVersions : Claim.NewVersions := by
  unfold Claim.NewVersions
  intro b p used f all live
  refine ⟨newVersion_isSome b p used f, live_spec _ _, fun c hc => ?_⟩
  rw [newVersion_some hc]
  refine ⟨?_, ?_, rfl, fun q hq => ?_, rfl, rfl, rfl⟩
  · exact congrArg Handle.cur ((handle_setHandle b p p _).trans (if_pos rfl))
  · exact congrArg Handle.old ((handle_setHandle b p p _).trans (if_pos rfl))
  · exact (handle_setHandle b p q _).trans (if_neg hq.symm)

theorem handleStatus : Claim.HandleStatus := by
  unfold Claim.HandleStatus
  intro v hcause hlevel hceil
  have h1 := b2n_le v.leaf.durable
  have h2 := b2n_le v.leaf.hostHomed
  have h3 := b2n_le v.leaf.ctxseg
  have h4 := b2n_le v.wint
  have h5 := b2n_le v.leaf.r
  have h6 := b2n_le v.leaf.w
  refine ⟨fun h => ?_, fun h => ⟨?_, ?_⟩, fun h => ?_, fun h => ?_, fun h => ⟨?_, ?_, ?_, ?_, ?_, ?_, ?_⟩⟩
  · simp only [HVer.stat, h]
  · cases hs : v.state with
    | empty => exact absurd hs h
    | pending | valid | revoked =>
      simp only [HVer.stat, hs]
      exact extractLsb'_ofNat (by omega) (by omega)
  · cases hs : v.state with
    | empty => exact absurd hs h
    | pending | valid | revoked =>
      simp only [HVer.stat, hs]
      exact getLsbD_ofNat_b2n (by decide) (by omega)
  · simp only [HVer.stat, h]
    exact extractLsb'_ofNat (by omega) (by omega)
  · simp only [HVer.stat, h]
    exact extractLsb'_ofNat (by omega) (by omega)
  · rcases h with h | h <;> simp only [HVer.stat, h] <;> exact extractLsb'_ofNat (by omega) (by omega)
  · rcases h with h | h <;> simp only [HVer.stat, h] <;> exact extractLsb'_ofNat (by omega) (by omega)
  all_goals rcases h with h | h <;> simp only [HVer.stat, h] <;> exact getLsbD_ofNat_b2n (by decide) (by omega)

/-- Settles O14, by the handle after a new version, and by the bits of the status word. -/
theorem handles : Obligations.Handles := ⟨handleFormsComplete, newVersions, handleStatus⟩

theorem handleAccessCompletes : Claim.HandleAccessCompletes := by
  unfold Claim.HandleAccessCompletes
  intro s t d a b p c pl bs off hoff
  refine ⟨fun hp hr => ?_, fun hp => ?_⟩
  · change execLdh d p a c s = _
    have hf := handlePlace_frame hp
    refine runCc_modBank (t := t) ?_ hf.cur ((Bank.writeX_pc _ _ _).trans (hf.pc _))
    simp only [M.bind_readX]
    rw [if_neg (not_not.mpr hoff), M.bind_curBid, M.bind_ok hp, M.bind_ok (loadBytes_ok hr), M.run_writeX, hf.cur]
  · change execSdh b p a c s = _
    have hf := handlePlace_frame hp
    have hst := storeAt_frame t s.cur.bid pl (leBytes 8 (s.own.readX b).toNat)
    refine runCc_state (t := t.storeAt s.cur.bid none pl (leBytes 8 (s.own.readX b).toNat)) ?_ (hst.cur.trans hf.cur)
      (by rw [hst.core, hf.pc])
    simp only [M.bind_readX]
    rw [if_neg (not_not.mpr hoff), M.bind_curBid, M.bind_ok hp, M.bind_readX, hf.cur, hf.readX]
    rfl

theorem handleUseTraps : Claim.HandleUseTraps := by
  unfold Claim.HandleUseTraps
  intro s d a p c hb off v stops waits
  refine ⟨fun hoff => ⟨?_, ?_⟩, fun hoff hs => ⟨?_, ?_⟩, fun hoff hs ho => ⟨?_, ?_⟩, fun hoff hs ho => ⟨?_, ?_⟩,
    fun hoff hs hc => ⟨?_, ?_⟩⟩
  · change execLdh d p a c s = _
    refine runCc_trap (t := s) ?_
    simp only [M.bind_readX]
    rw [if_pos hoff]
    rfl
  · change execSdh d p a c s = _
    refine runCc_trap (t := s) ?_
    simp only [M.bind_readX]
    rw [if_pos hoff]
    rfl
  · change execLdh d p a c s = _
    rw [execLdh_error hoff (handlePlace_empty hb rfl hs), coreStop_access]
    rfl
  · change execSdh d p a c s = _
    rw [execSdh_error hoff (handlePlace_empty hb rfl hs), coreStop_access]
    rfl
  · change execLdh d p a c s = _
    rw [execLdh_error hoff (handlePlace_offset hb rfl hs ho), coreStop_access]
    rfl
  · change execSdh d p a c s = _
    rw [execSdh_error hoff (handlePlace_offset hb rfl hs ho), coreStop_access]
    rfl
  · change execLdh d p a c s = _
    rw [execLdh_error hoff (handlePlace_revoked hb rfl hs ho), coreStop_access]
    rfl
  · change execSdh d p a c s = _
    rw [execSdh_error hoff (handlePlace_revoked hb rfl hs ho), coreStop_access]
    rfl
  · change execLdh d p a c s = _
    exact execLdh_error hoff (handlePlace_pending hb rfl hs hc)
  · change execSdh d p a c s = _
    exact execSdh_error hoff (handlePlace_pending hb rfl hs hc)

theorem handleRightsDenied : Claim.HandleRightsDenied := by
  unfold Claim.HandleRightsDenied
  intro s d a p c acc k l hb id w off v va kept ends i hacc hoff hs ho hd
  have hplace : ∀ pol, (handlePlace s.cur.bid none p none off 8 acc pol).run s = _ := fun pol =>
    handlePlace_denied (pol := pol) hb rfl hs ho hd
  have stops : ∀ {e t}, (∀ pol, (handlePlace s.cur.bid none p none off 8 acc pol).run s = .error e t) →
      exec i s = t.coreStop s.cur.bid e := fun h => by
    rcases hacc with rfl | rfl
    · change execLdh d p a c s = _
      exact execLdh_error hoff (h _)
    · change execSdh d p a c s = _
      exact execSdh_error hoff (h _)
  refine ⟨fun hw hl hk => ?_, fun hw => ?_, fun hw hk => ?_⟩
  · rw [stops (e := .access k (l.va + off) acc v.id) (t := kept (s.tlbRenew w va l) { v with state := .valid, cause := 0, leaf := l }),
      coreStop_access]
    intro pol
    rw [hplace pol, M.bind_ok (t := kept (s.tlbRenew w va l) { v with state := .valid, cause := 0, leaf := l })
      (a := { v with state := .valid, cause := 0, leaf := l })]
    · simp only [landOnPage]
      rw [if_pos (by rw [hl]; exact hk), M.bind_fail, hl]
    · simp only [rewalk, M.bind_get]
      rw [show s.walk (s.whoCore s.cur.bid).die (s.whoCore s.cur.bid).root (v.leaf.va + off) = .ok l from hw]
      rfl
  · rw [stops (e := .wait) (t := s)]
    · rfl
    intro pol
    rw [hplace pol]
    refine M.bind_error ?_
    simp only [rewalk, M.bind_get]
    rw [show s.walk (s.whoCore s.cur.bid).die (s.whoCore s.cur.bid).root (v.leaf.va + off) = .error 0 from hw]
    rfl
  · rw [stops (e := .access k va acc v.id) (t := kept (s.tlbDrop w va) { v with state := .pending, cause := k }), coreStop_access]
    intro pol
    rw [hplace pol]
    refine M.bind_error ?_
    simp only [rewalk, M.bind_get]
    rw [show s.walk (s.whoCore s.cur.bid).die (s.whoCore s.cur.bid).root (v.leaf.va + off) = .error k from hw]
    cases k with
    | zero => exact absurd rfl hk
    | succ k => rfl

/-- Settles O15, by the state of the version that a use refers to, and by the second walk. -/
theorem handleAccess : Obligations.HandleAccess := ⟨handleAccessCompletes, handleUseTraps, handleRightsDenied⟩

end Sys2Proof.Proofs
end

-- ==== What the end of a nest leaves (O22) ====
section
/-! SUPPORT. What a write of a unit of a die leaves alone, and what the end of a nest does (R45, R74, R165, R169, R177). -/

namespace Sys2Proof.Machine

-- One proof at a time: the whole text compiles in one process of bounded memory.
set_option Elab.async false

/-! ### Writes of units -/

/-- A step that touches what a translation or a write outside the banks may, and of a bank at most ends its reservation; writes of units may
join those that wait. -/
structure UnitFrame (s t : State) : Prop where
  rest : t = { s with
    mem := t.mem, cores := t.cores, dies := t.dies, banks := t.banks, betony := t.betony, dirtyHost := t.dirtyHost, poison := t.poison
    host := { s.host with unitWrites := t.host.unitWrites, peerResvs := t.host.peerResvs } }
  writes : ∃ more, t.host.unitWrites = s.host.unitWrites ++ more
  peers : ∀ r ∈ t.host.peerResvs, r ∈ s.host.peerResvs
  bank : ∀ m, t.bank m = s.bank m ∨ t.bank m = { s.bank m with resv := none }

theorem UnitFrame.refl (s : State) : UnitFrame s s := ⟨rfl, ⟨[], (List.append_nil _).symm⟩, fun _ h => h, fun _ => .inl rfl⟩

theorem UnitFrame.trans {s t u : State} (h : UnitFrame s t) (k : UnitFrame t u) : UnitFrame s u := by
  refine ⟨?_, ?_, fun r hr => h.peers r (k.peers r hr), fun m => ?_⟩
  · have k1 := k.rest
    rw [h.rest] at k1
    exact k1
  · obtain ⟨x, hx⟩ := h.writes
    obtain ⟨y, hy⟩ := k.writes
    exact ⟨x ++ y, by rw [hy, hx, List.append_assoc]⟩
  · rcases k.bank m with k1 | k1 <;> rcases h.bank m with h1 | h1
    · exact .inl (k1.trans h1)
    · exact .inr (k1.trans h1)
    · exact .inr (by rw [k1, h1])
    · exact .inr (by rw [k1, h1])

theorem UnitFrame.of_translated {s t : State} (h : Translated s t) : UnitFrame s t := by
  have hw : t.host.unitWrites = s.host.unitWrites := (congrArg (fun x => x.host.unitWrites) h.rest :)
  have hp : t.poison = s.poison := (congrArg State.poison h.rest :)
  refine ⟨?_, ⟨[], by rw [List.append_nil, hw]⟩, h.peers, fun m => ?_⟩
  · have h1 := h.rest
    rw [hw, hp]
    exact h1
  · have h1 := h.own m
    rcases h.resv m with h2 | h2
    · rw [h2] at h1
      exact .inl h1
    · rw [h2] at h1
      exact .inr h1

/-- Reservations on the bytes of a write end; of the state nothing else changes. -/
theorem UnitFrame.breakResv (s : State) (pa n : Nat) : UnitFrame s (s.breakResv none pa n) := by
  refine ⟨rfl, ⟨[], (List.append_nil _).symm⟩, fun r hr => (List.mem_filter.mp hr).1, fun m => ?_⟩
  obtain ⟨h1, h2⟩ := breakResv_bank s none pa n m
  rcases h2 with h2 | ⟨h2, -⟩
  · rw [h2] at h1
    exact .inl h1
  · rw [h2] at h1
    exact .inr h1

theorem UnitFrame.storeOutside (s : State) (a : DAgent) (pa : Nat) (d : List Byte) : UnitFrame s (s.storeOutside a pa d) := by
  unfold State.storeOutside State.storeFrom
  dsimp only
  rw [durable_eq]
  generalize (State.durable _ a pa d.length 0 s.ticks []).betony = b
  have hw : UnitFrame s { s with mem := s.mem.write pa d, betony := b } :=
    ⟨rfl, ⟨[], (List.append_nil _).symm⟩, fun _ h => h, fun _ => .inl rfl⟩
  have hb := UnitFrame.breakResv ({ s with mem := s.mem.write pa d, betony := b } : State) pa d.length
  generalize ({ s with mem := s.mem.write pa d, betony := b } : State).breakResv none pa d.length = t at hb ⊢
  exact hw.trans (hb.trans ⟨rfl, ⟨[], (List.append_nil _).symm⟩, fun _ h => h, fun _ => .inl rfl⟩)

theorem UnitFrame.unitStore (s : State) (d vf : Nat) (p : Place) (data : List Byte) : UnitFrame s (s.unitStore d vf p data) := by
  have hd : UnitFrame s (s.dirtyLines d vf p.pa data.length p.pol) := by
    rw [dirtyLines_eq]
    exact ⟨rfl, ⟨[], (List.append_nil _).symm⟩, fun _ h => h, fun _ => .inl rfl⟩
  exact hd.trans (UnitFrame.storeOutside _ unitAgent p.pa data)

theorem unitPlace_frame {s t : State} {d vf asid va n acc : Nat} {p : Place} (h : s.unitPlace d vf asid va n acc = .ok (p, t)) :
    Translated s t := by
  unfold State.unitPlace at h
  dsimp only at h
  split at h
  · cases h
  · split at h
    · cases h
    · cases h
    · split at h
      · cases h
      · split at h
        · cases h
        next hl =>
          cases h
          exact land_frame hl

theorem UnitFrame.unitWrite (s : State) (d vf asid va : Nat) (data : List Byte) : UnitFrame s (s.unitWrite d vf asid va data) := by
  unfold State.unitWrite
  split
  · exact ⟨rfl, ⟨_, rfl⟩, fun _ h => h, fun _ => .inl rfl⟩
  · exact UnitFrame.refl s
  next hp => exact (UnitFrame.of_translated (unitPlace_frame hp)).trans (UnitFrame.unitStore _ _ _ _ _)

/-! ### The end of a nest -/

/-- What the end of nests leaves: other banks but for a reservation, or those that lost their task; saved contexts and nests can only go. -/
structure EndFrame (s t : State) : Prop where
  cur : t.cur = s.cur
  cycle : t.cycle = s.cycle
  slots : t.slots = s.slots
  vfs : t.vfs = s.vfs
  host : t.host = { s.host with unitWrites := t.host.unitWrites, peerResvs := t.host.peerResvs }
  writes : ∃ more, t.host.unitWrites = s.host.unitWrites ++ more
  peers : ∀ r ∈ t.host.peerResvs, r ∈ s.host.peerResvs
  bank : ∀ m, t.bank m = s.bank m ∨ t.bank m = { s.bank m with resv := none } ∨ (t.bank m).task = none
  saved : ∀ c ∈ t.saved, c ∈ s.saved
  nests : ∀ n ∈ t.nests, ∃ k ∈ s.nests, k.id = n.id

theorem EndFrame.trans {s t u : State} (h : EndFrame s t) (k : EndFrame t u) : EndFrame s u where
  cur := k.cur.trans h.cur
  cycle := k.cycle.trans h.cycle
  slots := k.slots.trans h.slots
  vfs := k.vfs.trans h.vfs
  host := by
    have k1 := k.host
    rw [h.host] at k1
    exact k1
  writes := by
    obtain ⟨x, hx⟩ := h.writes
    obtain ⟨y, hy⟩ := k.writes
    exact ⟨x ++ y, by rw [hy, hx, List.append_assoc]⟩
  peers r hr := h.peers r (k.peers r hr)
  bank m := by
    rcases k.bank m with k1 | k1 | k1
    · rw [k1]
      exact h.bank m
    · rcases h.bank m with h1 | h1 | h1
      · exact .inr (.inl (by rw [k1, h1]))
      · exact .inr (.inl (by rw [k1, h1]))
      · exact .inr (.inr (by rw [k1]; exact h1))
    · exact .inr (.inr k1)
  saved c hc := h.saved c (k.saved c hc)
  nests n hn := by
    obtain ⟨j, hj, hjn⟩ := k.nests n hn
    obtain ⟨i, hi, hij⟩ := h.nests j hj
    exact ⟨i, hi, hij.trans hjn⟩

/-- A step that touches none of what an end of nests is about. -/
theorem EndFrame.of_rest {s t : State} (h : t = { s with
    mem := t.mem, cores := t.cores, dies := t.dies, betony := t.betony, dirtyHost := t.dirtyHost, poison := t.poison
    dirWaiters := t.dirWaiters, nextNest := t.nextNest }) : EndFrame s t := by
  have hb : ∀ m, t.bank m = s.bank m := fun m => by rw [State.bank, State.bank, congrArg State.banks h]
  rw [h]
  exact ⟨rfl, rfl, rfl, rfl, rfl, ⟨[], (List.append_nil _).symm⟩, fun _ h => h, fun _ => .inl rfl, fun _ h => h, fun n hn => ⟨n, hn, rfl⟩⟩

theorem EndFrame.refl (s : State) : EndFrame s s := EndFrame.of_rest rfl

theorem EndFrame.of_unit {s t : State} (h : UnitFrame s t) : EndFrame s t where
  cur := (congrArg State.cur h.rest :)
  cycle := (congrArg State.cycle h.rest :)
  slots := (congrArg State.slots h.rest :)
  vfs := (congrArg State.vfs h.rest :)
  host := (congrArg State.host h.rest :)
  writes := h.writes
  peers := h.peers
  bank m := (h.bank m).imp_right .inl
  saved c hc := by
    rw [(congrArg State.saved h.rest :)] at hc
    exact hc
  nests n hn := by
    rw [(congrArg State.nests h.rest :)] at hn
    exact ⟨n, hn, rfl⟩

theorem EndFrame.foldl {α : Type} {f : State → α → State} (h : ∀ s x, EndFrame s (f s x)) (l : List α) (s : State) :
    EndFrame s (l.foldl f s) := by
  induction l generalizing s with
  | nil => exact EndFrame.refl s
  | cons x l ih => exact (h s x).trans (ih _)

/-- A bank that holds no task of a nest holds none behind the end of any. -/
theorem EndFrame.runs {s t : State} (h : EndFrame s t) {m id : Nat} (hr : (s.bank m).runs id = false) : (t.bank m).runs id = false := by
  rcases h.bank m with h1 | h1 | h1
  · rw [h1]
    exact hr
  · rw [h1]
    exact hr
  · simp only [Bank.runs, h1]

/-- The lists of a die follow what can be handed out; the nests stay. -/
theorem EndFrame.updateLevels (s : State) (d : Nat) : EndFrame s (s.updateLevels d) := by
  unfold State.updateLevels
  dsimp only
  refine ⟨rfl, rfl, rfl, rfl, rfl, ⟨[], (List.append_nil _).symm⟩, fun _ h => h, fun _ => .inl rfl, fun _ h => h, fun n hn => ?_⟩
  obtain ⟨k, hk, rfl⟩ := List.mem_map.mp hn
  refine ⟨k, hk, ?_⟩
  split
  · rfl
  · split <;> rfl

theorem EndFrame.updateAll (s : State) : EndFrame s s.updateAll := EndFrame.foldl EndFrame.updateLevels _ _

theorem settle_eq (s : State) (bid : Nat) : s.settle bid = { s with dies := (s.settle bid).dies } := by
  unfold State.settle
  split <;> rfl

theorem EndFrame.settle (s : State) (bid : Nat) : EndFrame s (s.settle bid) := by
  rw [settle_eq]
  exact EndFrame.of_rest rfl

/-- A change of a bank that holds no task. -/
theorem EndFrame.modBank {s : State} {bid : Nat} {f : Bank → Bank} (h : (f (s.bank bid)).task = none) : EndFrame s (s.modBank bid f) := by
  refine ⟨rfl, rfl, rfl, rfl, rfl, ⟨[], (List.append_nil _).symm⟩, fun _ h => h, fun m => ?_, fun _ h => h, fun n hn => ⟨n, hn, rfl⟩⟩
  rw [State.bank_modBank]
  split
  next e =>
    subst e
    exact .inr (.inr h)
  · exact .inl rfl

theorem compareAll_rest (b : Bank) : b.compareAll = { b with eng := b.compareAll.eng } := by
  have step : ∀ (l : List Engine) (b : Bank), l.foldl (fun b e => b.modEngine e (fun g =>
      { g with checked := PMap.put ((queuesInto e).foldl (fun m q => PMap.put m q.toNat (b.queueOf q).length) g.checked) cmdKey g.level })) b
      = { b with eng := (l.foldl (fun b e => b.modEngine e (fun g =>
      { g with checked := PMap.put ((queuesInto e).foldl (fun m q => PMap.put m q.toNat (b.queueOf q).length) g.checked) cmdKey g.level }))
        b).eng } := by
    intro l
    induction l with
    | nil => exact fun _ => rfl
    | cons e l ih =>
      intro b
      rw [List.foldl_cons, ih]
      rfl
  exact step allEngines b

/-- A core that leaves a bank without a task. -/
theorem EndFrame.switchAway {s : State} {bid : Nat} (h : (s.bank bid).task = none) : EndFrame s (s.switchAway bid) := by
  unfold State.switchAway
  split
  · refine EndFrame.trans (EndFrame.modBank (f := Bank.compareAll) (by rw [compareAll_rest]; exact h)) ?_
    exact EndFrame.of_rest rfl
  · exact EndFrame.refl s

theorem EndFrame.discardBank (s : State) (bid : Nat) : EndFrame s (s.discardBank bid) := by
  unfold State.discardBank
  dsimp only
  have h1 : EndFrame s (s.modBank bid Bank.emptied) := EndFrame.modBank rfl
  have h2 : EndFrame (s.modBank bid Bank.emptied)
      { s.modBank bid Bank.emptied with dirWaiters := s.dirWaiters.filter (·.bid ≠ bid) } := EndFrame.of_rest rfl
  refine h1.trans (h2.trans (EndFrame.switchAway ?_))
  change ((s.modBank bid Bank.emptied).bank bid).task = none
  rw [State.bank_modBank, if_pos rfl]
  rfl

/-- Behind its discard a bank runs nothing. -/
theorem discardBank_task (s : State) (bid : Nat) : ((s.discardBank bid).bank bid).task = none := by
  have h2 : (({ s.setBank bid (s.bank bid).emptied with dirWaiters := s.dirWaiters.filter (·.bid ≠ bid) } : State).bank bid).task = none := by
    change ((s.setBank bid (s.bank bid).emptied).bank bid).task = none
    rw [State.bank_setBank, if_pos rfl]
    rfl
  unfold State.discardBank
  dsimp only
  rcases (EndFrame.switchAway h2).bank bid with h | h | h
  · rw [h]
    exact h2
  · rw [h]
    exact h2
  · exact h

theorem EndFrame.discards {α : Type} (l : List (Nat × α)) (s : State) :
    EndFrame s (l.foldl (fun s b => (s.settle b.1).discardBank b.1) s) :=
  EndFrame.foldl (fun s (b : Nat × α) => (EndFrame.settle s b.1).trans (EndFrame.discardBank (s.settle b.1) b.1)) l s

/-- The banks of a list are discarded one after another: each holds no task behind it. -/
theorem foldl_discard_task {α : Type} (l : List (Nat × α)) (s : State) {m : Nat} (h : m ∈ l.map (·.1)) :
    ((l.foldl (fun s b => (s.settle b.1).discardBank b.1) s).bank m).task = none := by
  induction l generalizing s with
  | nil => cases h
  | cons x l ih =>
    rw [List.foldl_cons]
    by_cases hl : m ∈ l.map (·.1)
    · exact ih _ hl
    · obtain rfl : m = x.1 := by
        rw [List.map_cons, List.mem_cons] at h
        exact h.resolve_right hl
      have h0 := discardBank_task (s.settle x.1) x.1
      have hf : EndFrame ((s.settle x.1).discardBank x.1) (l.foldl (fun s b => (s.settle b.1).discardBank b.1) ((s.settle x.1).discardBank x.1)) :=
        EndFrame.discards l _
      rcases hf.bank x.1 with h1 | h1 | h1
      · rw [h1]
        exact h0
      · rw [h1]
        exact h0
      · exact h1

/-- A bank that the map lists by what it holds. -/
theorem PMap.mem_of_get {α : Type} {d : α} : ∀ {m : PMap α} {k : Nat}, PMap.get d m k ≠ d → (k, PMap.get d m k) ∈ m
  | [], k, h => absurd rfl h
  | (i, v) :: m, k, h => by
    unfold PMap.get at h ⊢
    split
    next e => subst e; exact List.mem_cons_self ..
    next e =>
      rw [if_neg e] at h
      exact List.mem_cons_of_mem _ (PMap.mem_of_get h)

/-- A bank that runs a nest is one of those listed. -/
theorem bank_mem_of_runs {s : State} {m id : Nat} (h : (s.bank m).runs id = true) : (m, s.bank m) ∈ s.banks := by
  refine PMap.mem_of_get fun e => ?_
  have : (s.bank m).runs id = Bank.init.runs id := congrArg (Bank.runs · id) e
  rw [this] at h
  cases h

theorem EndFrame.gcFaults (s : State) : EndFrame s s.gcFaults := EndFrame.of_rest rfl

theorem EndFrame.writeWord15 (s : State) (n : Nest) (state cause : Nat) : EndFrame s (s.writeWord15 n state cause) :=
  EndFrame.of_unit (UnitFrame.unitWrite ..)

theorem EndFrame.endNest1 (s : State) (id cause : Nat) : EndFrame s (s.endNest1 id cause) := by
  unfold State.endNest1
  split
  · exact EndFrame.refl s
  · dsimp only
    have hdiscards := EndFrame.discards (s.banks.filter (fun b => b.2.runs id)) s
    generalize List.foldl _ s _ = t at hdiscards ⊢
    refine hdiscards.trans ?_
    have hsaved : EndFrame t { t with saved := t.saved.filter (fun c => !c.2.state.runs id) } :=
      ⟨rfl, rfl, rfl, rfl, rfl, ⟨[], (List.append_nil _).symm⟩, fun _ h => h, fun _ => .inl rfl, fun c hc => (List.mem_filter.mp hc).1,
        fun n hn => ⟨n, hn, rfl⟩⟩
    refine hsaved.trans ?_
    have hword := EndFrame.writeWord15 ({ t with saved := t.saved.filter (fun c => !c.2.state.runs id) } : State) ‹Nest› 3 cause
    generalize State.writeWord15 _ _ _ _ = u at hword ⊢
    refine hword.trans ?_
    have hnests : EndFrame u { u with nests := u.nests.filter (·.id ≠ id) } :=
      ⟨rfl, rfl, rfl, rfl, rfl, ⟨[], (List.append_nil _).symm⟩, fun _ h => h, fun _ => .inl rfl, fun _ h => h,
        fun n hn => ⟨n, (List.mem_filter.mp hn).1, rfl⟩⟩
    exact hnests.trans ((EndFrame.gcFaults _).trans (EndFrame.updateAll _))

/-- The end of one nest of the table: nothing of it is left. -/
theorem endNest1_gone {s : State} {id : Nat} (cause : Nat) (h : s.nests.any (·.id = id) = true) :
    (∀ n ∈ (s.endNest1 id cause).nests, n.id ≠ id) ∧ (∀ m, ((s.endNest1 id cause).bank m).runs id = false)
      ∧ (∀ c ∈ (s.endNest1 id cause).saved, c.2.state.runs id = false) := by
  obtain ⟨n, hn⟩ : ∃ n, s.nests.find? (·.id = id) = some n := by
    rw [List.any_eq_true] at h
    obtain ⟨x, hx, hid⟩ := h
    exact Option.isSome_iff_exists.mp (List.find?_isSome.mpr ⟨x, hx, hid⟩)
  unfold State.endNest1
  simp only [hn]
  have hrun : EndFrame s ((s.banks.filter (fun b => b.2.runs id)).foldl (fun s b => (s.settle b.1).discardBank b.1) s) :=
    EndFrame.discards _ s
  have htask : ∀ m, (((s.banks.filter (fun b => b.2.runs id)).foldl (fun s b => (s.settle b.1).discardBank b.1) s).bank m).runs id = false := by
    intro m
    by_cases hm : (s.bank m).runs id = true
    · have hmem : m ∈ (s.banks.filter (fun b => b.2.runs id)).map (·.1) :=
        List.mem_map.mpr ⟨_, List.mem_filter.mpr ⟨bank_mem_of_runs hm, hm⟩, rfl⟩
      have htask := foldl_discard_task _ s hmem
      unfold Bank.runs at htask ⊢
      rw [htask]
    · exact hrun.runs (Bool.not_eq_true _ ▸ hm)
  generalize List.foldl _ s _ = t at hrun htask ⊢
  have hu := EndFrame.writeWord15 ({ t with saved := t.saved.filter (fun c => !c.2.state.runs id) } : State) n 3 cause
  change (∀ k ∈ State.nests (State.updateAll (State.gcFaults { State.writeWord15 _ n 3 cause with nests := _ })), _) ∧ _
  generalize State.writeWord15 _ n 3 cause = u at hu ⊢
  have hlast := (EndFrame.gcFaults ({ u with nests := u.nests.filter (·.id ≠ id) } : State)).trans (EndFrame.updateAll _)
  generalize State.updateAll _ = v at hlast ⊢
  refine ⟨fun k hk => ?_, fun m => hlast.runs (hu.runs (htask m)), fun c hc => ?_⟩
  · obtain ⟨j, hj, hjk⟩ := hlast.nests k hk
    have hne := of_decide_eq_true (List.mem_filter.mp hj).2
    rw [← hjk]
    exact hne
  · have h1 := hu.saved c (hlast.saved c hc)
    have h2 := (List.mem_filter.mp h1).2
    exact Bool.not_eq_true' _ ▸ h2

theorem EndFrame.terminateGo : ∀ (fuel : Nat) (l : List (Nat × Nat)) (s : State), EndFrame s (State.terminateAll.go fuel l s)
  | 0, _, s => EndFrame.refl s
  | _ + 1, [], s => EndFrame.refl s
  | fuel + 1, (id, cause) :: rest, s => by
    unfold State.terminateAll.go
    split
    · exact EndFrame.terminateGo fuel rest s
    · exact (EndFrame.endNest1 s id cause).trans (EndFrame.terminateGo fuel _ _)

theorem EndFrame.terminate (s : State) (id cause : Nat) : EndFrame s (s.terminate id cause) := EndFrame.terminateGo _ _ _

theorem terminateGo_cons {s : State} {id : Nat} {n : Nest} (fuel cause : Nat) (rest : List (Nat × Nat))
    (hn : s.nests.find? (·.id = id) = some n) :
    ∃ l, State.terminateAll.go (fuel + 1) ((id, cause) :: rest) s = State.terminateAll.go fuel l (s.endNest1 id cause) := by
  rw [State.terminateAll.go, hn]
  exact ⟨_, rfl⟩

/-- The end of a nest of the table is its own end, and then that of its successors. -/
theorem terminate_eq {s : State} {id : Nat} (cause : Nat) (h : s.nests.any (·.id = id) = true) :
    ∃ fuel l, s.terminate id cause = State.terminateAll.go fuel l (s.endNest1 id cause) := by
  obtain ⟨n, hn⟩ : ∃ n, s.nests.find? (·.id = id) = some n := by
    rw [List.any_eq_true] at h
    obtain ⟨x, hx, hid⟩ := h
    exact Option.isSome_iff_exists.mp (List.find?_isSome.mpr ⟨x, hx, hid⟩)
  obtain ⟨k, hk⟩ : ∃ k, s.nests.length = k + 1 := Nat.exists_eq_succ_of_ne_zero fun e => by
    rw [List.length_eq_zero_iff.mp e] at hn
    cases hn
  obtain ⟨l, hl⟩ := terminateGo_cons k cause [] hn
  refine ⟨k, l, ?_⟩
  unfold State.terminate State.terminateAll
  rw [hk, List.map_cons, List.map_nil, hl]

/-- What follows a drain for the end of a nest. -/
theorem afterDrain_ends {s : State} {bid c : Nat} {e : Engine} (h : (s.bank bid).draining = .ends e c) :
    s.afterDrain bid = (s.cleared bid).terminateOf bid c := by
  unfold State.afterDrain
  simp only [h]
  rfl

theorem faultEnd_illegal (s : State) (bid : Nat) (e : Engine) :
    s.faultEnd bid e 0x10 = (s.noteIllegal bid e).beginDrain bid (.ends e 0x10) := if_pos rfl

end Sys2Proof.Machine

namespace Sys2Proof.Proofs
open Sys2Proof Sys2Proof.Machine

theorem nestEnds : Claim.NestEnds := by
  unfold Claim.NestEnds
  intro s id cause h t
  have hf : EndFrame s t := EndFrame.terminate s id cause
  obtain ⟨fuel, l, ht⟩ := terminate_eq cause h
  obtain ⟨hn, hb, hc⟩ := endNest1_gone cause h
  have hgo : EndFrame (s.endNest1 id cause) t := by
    change EndFrame _ (s.terminate id cause)
    rw [ht]
    exact EndFrame.terminateGo _ _ _
  refine ⟨fun n hm => ?_, fun m => hgo.runs (hb m), fun c hm => hc c (hgo.saved c hm), hf.bank, hf.host, hf.writes, hf.peers, hf.slots,
    hf.vfs, hf.cycle⟩
  obtain ⟨k, hk, hkn⟩ := hgo.nests n hm
  rw [← hkn]
  exact hn k hk

theorem wordFaults : Claim.WordFaults := by
  unfold Claim.WordFaults
  intro s bid e cause recorded
  refine ⟨faultEnd_illegal s bid e, fun h => ?_, fun h => if_neg h⟩
  have hr : recorded.atRest bid (some e) := h.congr h.1 rfl h.2.1 (fun _ => Bank.DrainsLike.refl _) rfl rfl
  refine ⟨_, atRest_cleared hr (.ends e 0x10), ?_⟩
  rw [faultEnd_illegal]
  change recorded.beginDrain bid (.ends e 0x10) = _
  rw [beginDrain_atRest hr (by simp) (by simp) rfl, afterDrain_ends (e := e) (c := 0x10) (by rw [State.bank_modBank, if_pos rfl])]

/-- Settles O22, by what each step of a nest's end leaves, and by the drain of an illegal word. -/
theorem endsOfNests : Obligations.EndsOfNests := ⟨nestEnds, wordFaults⟩

end Sys2Proof.Proofs
end

-- ==== How a task gives way and how it ends (O21) ====
section
/-! SUPPORT. How a task gives way and how it ends (R171, R172, R187). -/

namespace Sys2Proof.Machine

-- One proof at a time: the whole text compiles in one process of bounded memory.
set_option Elab.async false

theorem updateAll_banks (s : State) : s.updateAll.banks = s.banks := rfl

theorem settle_bank (s : State) (bid m : Nat) : (s.settle bid).bank m = s.bank m := by
  rw [settle_eq]
  rfl

/-- The end of a task is recorded: of a bank at most a reservation ends. -/
theorem taskEnded_bank (s : State) (k : Task) (m : Nat) :
    (s.taskEnded k).bank m = s.bank m ∨ (s.taskEnded k).bank m = { s.bank m with resv := none } := by
  unfold State.taskEnded
  split
  · exact .inl rfl
  · dsimp only
    rw [State.bank, updateAll_banks]
    split
    · exact (UnitFrame.unitWrite _ _ _ _ _ _).bank m
    · split
      · exact (UnitFrame.unitWrite _ _ _ _ _ _).bank m
      · exact .inl rfl

/-- Completing the comparisons of a bank changes no register of an engine. -/
theorem compareAll_regs (b : Bank) (o : Engine) : (b.compareAll.engine o).regs = (b.engine o).regs := by
  have step : ∀ (l : List Engine) (b : Bank), ((l.foldl (fun b e => b.modEngine e (fun g =>
      { g with checked := PMap.put ((queuesInto e).foldl (fun m q => PMap.put m q.toNat (b.queueOf q).length) g.checked) cmdKey g.level }))
        b).engine o).regs = (b.engine o).regs := by
    intro l
    induction l with
    | nil => exact fun _ => rfl
    | cons e l ih =>
      intro b
      rw [List.foldl_cons, ih, Bank.modEngine, Bank.engine_setEngine]
      split
      next h => subst h; rfl
      · rfl
  exact step allEngines b

/-- A bank behind its task: what is gone, and what stays of the bank as it was. -/
structure Bank.Freed (b c : Bank) : Prop where
  task : c.task = none
  queues : ∀ q, c.queueOf q = []
  resv : c.resv = none
  committed : c.committed = b.committed
  core : c.core = b.core
  regs : ∀ e, (c.engine e).regs = (b.engine e).regs

theorem Bank.freed (b : Bank) : b.Freed b.free :=
  ⟨rfl, fun _ => Vector.getElem_replicate _, rfl, rfl, rfl, fun _ => rfl⟩

theorem Bank.Freed.compareAll {b c : Bank} (h : b.Freed c) : b.Freed c.compareAll := by
  have hr := compareAll_rest c
  refine ⟨by rw [hr]; exact h.task, fun q => ?_, by rw [hr]; exact h.resv, by rw [hr]; exact h.committed, by rw [hr]; exact h.core,
    fun e => (compareAll_regs c e).trans (h.regs e)⟩
  rw [Bank.queueOf, show c.compareAll.dq = c.dq by rw [hr]]
  exact h.queues q

/-- A core that switches away from a freed bank leaves it freed. -/
theorem Bank.Freed.switchAway {b : Bank} {s : State} {bid : Nat} (h : b.Freed (s.bank bid)) : b.Freed ((s.switchAway bid).bank bid) := by
  unfold State.switchAway
  split
  · change b.Freed ((s.modBank bid Bank.compareAll).bank bid)
    rw [State.bank_modBank, if_pos rfl]
    exact h.compareAll
  · exact h

/-- The bank of a task of one core is the only one of its group. -/
theorem banks_single {k : Task} {bid : Nat} (hs : k.gsize = 1) (hg : k.group0 = coreOf bid) : k.banks (bankOf bid) = [bid] := by
  have hb : 2 * (bid / 2) + bid % 2 = bid := Nat.div_add_mod bid 2
  simp only [Task.banks, groupBanks, hs, hg, List.range_one, List.map_cons, List.map_nil, Nat.add_zero, coreOf, bankOf, hb]

/-- A task of one core that ends frees its bank. -/
theorem finishTask_freed {s : State} {bid : Nat} {k : Task} (ht : (s.bank bid).task = some k) (hs : k.gsize = 1)
    (hg : k.group0 = coreOf bid) : (s.bank bid).Freed ((s.finishTask bid).bank bid) := by
  have hb := banks_single hs hg
  unfold State.finishTask
  simp only [ht, hb]
  generalize hu : s.modBank bid (fun b => { b with task := some { k with ended := true } }) = u
  have hub : u.bank bid = { s.bank bid with task := some { k with ended := true } } := by rw [← hu, State.bank_modBank, if_pos rfl]
  have hsame : k.same { k with ended := true } = true := by simp [Task.same]
  have hall : [bid].all (fun m => (u.bank m).task.any (fun t => t.ended && k.same t)) = true := by
    simp only [List.all_cons, List.all_nil, hub, Option.any_some, hsame, Bool.and_self]
  rw [if_pos hall]
  have hfree : (s.bank bid).Freed (((u.settle bid).modBank bid Bank.free).bank bid) := by
    rw [State.bank_modBank, if_pos rfl, settle_bank, hub]
    exact Bank.freed _
  rw [List.foldl_cons, List.foldl_nil, List.foldl_cons, List.foldl_nil]
  generalize (u.settle bid).modBank bid Bank.free = v at hfree ⊢
  have hended : ∀ k', (s.bank bid).Freed ((v.taskEnded k').bank bid) := fun k' => by
    rcases taskEnded_bank v k' bid with h | h
    · rw [h]
      exact hfree
    · rw [h]
      exact ⟨hfree.task, hfree.queues, rfl, hfree.committed, hfree.core, hfree.regs⟩
  split
  · exact (hended _).switchAway
  · exact hended _

/-- No request for a pre-emption is pending exactly where no bank of the group has one. -/
theorem requests_eq_nil {s : State} {bid : Nat} : s.requests bid = [] ↔ ∀ m ∈ s.saveSet bid, (s.bank m).preempt = none := by
  unfold State.requests
  rw [List.filterMap_eq_nil_iff]

end Sys2Proof.Machine

namespace Sys2Proof.Proofs
open Sys2Proof Sys2Proof.Machine

theorem taskFormsComplete : Claim.TaskFormsComplete := by
  unfold Claim.TaskFormsComplete
  intro s i id maps
  refine ⟨fun hi hn => ?_, fun hi hn => ?_, fun hi => ?_, fun ⟨g, hg, hf⟩ => ?_, fun hg hs => ?_⟩
  · change execSafept i s = _
    unfold execSafept
    dsimp only
    rw [if_neg (Nat.not_le.mpr hi), if_neg (not_not.mpr (requests_eq_nil.mpr hn))]
    rfl
  · change execSafept i s = _
    unfold execSafept
    dsimp only
    rw [if_neg (Nat.not_le.mpr hi), if_pos]
    · rfl
    · rw [Ne, requests_eq_nil]
      push Not
      exact hn
  · change execSafept i s = _
    exact if_pos hi
  · change execTdone s = _
    refine runCc_trap (t := s) ?_
    simp only [M.bind_get, show (s.bank s.cur.bid).gang = some g from hg, Option.any_some, hf, if_true, M.bind_illegal]
  · change execTdone s = _
    refine runCc_ok ?_
    have hform : (s.bank s.cur.bid).gang.any (·.formed) = false := by
      cases h : (s.bank s.cur.bid).gang with
      | none => rfl
      | some g => exact hg g h
    simp only [M.bind_get, hform, show s.settled s.cur.bid = true from hs, Bool.not_true, Bool.false_eq_true, if_false, M.run_modify]
    rfl

theorem taskEnds : Claim.TaskEnds := by
  unfold Claim.TaskEnds
  intro s t k hg hs hk hsize hcore ht b
  rw [(taskFormsComplete s 0#12).2.2.2.2 (fun g h => by rw [hg] at h; cases h) hs] at ht
  cases ht
  have hcommit : (s.commit s.cur.bid).bank s.cur.bid = s.own.commit s.window := by rw [commit_bank, if_pos rfl]
  have hf := finishTask_freed (s := s.commit s.cur.bid) (bid := s.cur.bid) (k := k)
    (by rw [hcommit, commit_rest]; exact hk) hsize hcore
  rw [hcommit] at hf
  have hb : b = (Bank.setPc (((s.commit s.cur.bid).finishTask s.cur.bid).bank s.cur.bid)
      ((((s.commit s.cur.bid).finishTask s.cur.bid).bank s.cur.bid).core.pc + BitVec.ofNat 64 s.cur.ilen)).retire := by
    change (State.modBank _ s.cur.bid _).bank s.cur.bid = _
    rw [State.bank_modBank, if_pos rfl]
  generalize ((s.commit s.cur.bid).finishTask s.cur.bid).bank s.cur.bid = c at hf hb
  rw [hb]
  refine ⟨hf.task, hf.queues, hf.resv, hf.committed.trans (by rw [commit_rest]), ?_, fun e => ?_⟩
  · change c.core.x = _
    rw [hf.core, commit_rest]
  · change (c.engine e).regs.pstack = _
    rw [hf.regs e, commit_engine]
    rfl

/-- Settles O21: a task that gives way retires first, and one of one core that ends leaves its bank freed. -/
theorem tasks : Obligations.Tasks := ⟨taskFormsComplete, taskEnds⟩

end Sys2Proof.Proofs
end

-- ==== Gangs, condition bits and nests submitted by a core (O23, O24, O25) ====
section
/-! SUPPORT. What the commit of an open phase keeps of each bank, and gangs, condition bits and nests submitted by a core (R173, R174, R196). -/

namespace Sys2Proof.Machine

-- One proof at a time: the whole text compiles in one process of bounded memory.
set_option Elab.async false

/-! ### What the issue of an irrevocable form keeps -/

/-- A bank behind the commit of phases: what concerns phases has changed, and nothing else. -/
structure Bank.PhaseOnly (b c : Bank) : Prop where
  rest : c = { b with
    eng := c.eng, dom := c.dom, copyDom := c.copyDom, committed := c.committed, held := c.held, ckpts := c.ckpts, phaseDom := c.phaseDom
    poison := c.poison, mismatches := c.mismatches, misOpen := c.misOpen, phase := c.phase, issued := c.issued }
  eng : ∀ e, c.engine e = { b.engine e with
    waited := (c.engine e).waited, domWrites := (c.engine e).domWrites, released := (c.engine e).released, phase := (c.engine e).phase }

theorem Bank.PhaseOnly.refl (b : Bank) : b.PhaseOnly b := ⟨rfl, fun _ => rfl⟩

theorem Bank.PhaseOnly.trans {b c d : Bank} (h : b.PhaseOnly c) (k : c.PhaseOnly d) : b.PhaseOnly d := by
  obtain ⟨h1, h2⟩ := h
  obtain ⟨k1, k2⟩ := k
  refine ⟨?_, fun e => ?_⟩
  · rw [h1] at k1
    exact k1
  · have k2 := k2 e
    rw [h2 e] at k2
    exact k2

theorem Bank.PhaseOnly.core {b c : Bank} (h : b.PhaseOnly c) : c.core = b.core := by rw [h.rest]
theorem Bank.PhaseOnly.gang {b c : Bank} (h : b.PhaseOnly c) : c.gang = b.gang := by rw [h.rest]
theorem Bank.PhaseOnly.task {b c : Bank} (h : b.PhaseOnly c) : c.task = b.task := by rw [h.rest]

theorem Bank.PhaseOnly.quiet {b c : Bank} (h : b.PhaseOnly c) : c.quiet = b.quiet := by
  have hf : c.flights = b.flights := by rw [h.rest]
  have hq : ∀ e, (c.engine e).queue = (b.engine e).queue := fun e => by rw [h.eng e]
  have he : ∀ e, (c.engine e).entry = (b.engine e).entry := fun e => by rw [h.eng e]
  have hs : ∀ e, (c.engine e).stopped = (b.engine e).stopped := fun e => by rw [h.eng e]
  have hm : ∀ e, (c.engine e).mark = (b.engine e).mark := fun e => by rw [h.eng e]
  simp only [Bank.quiet, hf, hq, he, hs, hm]

theorem Bank.PhaseOnly.commit (b : Bank) (w : Nat) : b.PhaseOnly (b.commit w) := by
  refine ⟨?_, fun e => ?_⟩
  · have h := commit_rest b w
    generalize b.commit w = c at h ⊢
    rw [h]
  · rw [commit_engine]
    rfl

/-- A checkpoint of the engines' parts changes the checkpoints only. -/
theorem fullCkpt_rest (b : Bank) (p : Nat) (pc : Word) : b.fullCkpt p pc = { b with ckpts := (b.fullCkpt p pc).ckpts } := by
  have hfold : ∀ (l : List Engine) (c : Bank), l.foldl (fun b e => b.enginePart e p) c
      = { c with ckpts := (l.foldl (fun b e => b.enginePart e p) c).ckpts } := by
    intro l
    induction l with
    | nil => exact fun _ => rfl
    | cons e l ih =>
      intro c
      rw [List.foldl_cons]
      exact ih _
  exact hfold allEngines _

theorem Bank.PhaseOnly.fullCkpt (b : Bank) (p : Nat) (pc : Word) : b.PhaseOnly (b.fullCkpt p pc) := by
  have h := fullCkpt_rest b p pc
  generalize b.fullCkpt p pc = c at h
  rw [h]
  exact ⟨rfl, fun _ => rfl⟩

theorem Bank.PhaseOnly.openPhase (b : Bank) (pc : Word) : b.PhaseOnly (b.openPhase pc) := by
  refine Bank.PhaseOnly.trans (c := { b with phase := b.committed }.modEngines (fun _ g => { g with phase := b.committed })) ⟨?_, fun e => ?_⟩
    (Bank.PhaseOnly.fullCkpt _ _ _)
  · have h := modEngines_rest { b with phase := b.committed } (fun _ g => { g with phase := b.committed })
    generalize Bank.modEngines _ _ = c at h ⊢
    rw [h]
  · rw [modEngines_engine]
    rfl

theorem commitOpen_phaseOnly (s : State) (bid : Nat) (pc : Word) (m : Nat) : (s.bank m).PhaseOnly ((s.commitOpen bid pc).bank m) := by
  unfold State.commitOpen
  rw [State.bank_modBank, commit_bank, commit_bank]
  split
  next h =>
    rw [if_pos rfl, ← h]
    exact (Bank.PhaseOnly.commit _ _).trans (Bank.PhaseOnly.openPhase _ _)
  next h => exact Bank.PhaseOnly.refl _

theorem issues_phaseOnly (s : State) (m : Nat) : (s.bank m).PhaseOnly (s.issues.bank m) := by
  have hfold : ∀ (l : List Nat) (t : State),
      (t.bank m).PhaseOnly ((l.foldl (fun t k => t.commitOpen k (t.bank k).core.pc) t).bank m) := by
    intro l
    induction l with
    | nil => exact fun t => Bank.PhaseOnly.refl _
    | cons k l ih => exact fun t => (commitOpen_phaseOnly t k _ m).trans (ih _)
  unfold State.issues
  split
  · exact Bank.PhaseOnly.refl _
  · refine (hfold (s.members s.cur.bid) s).trans ?_
    unfold State.commitOpenAll
    rw [State.bank_modBank]
    split
    next h =>
      rw [h]
      exact ⟨rfl, fun _ => rfl⟩
    next h => exact Bank.PhaseOnly.refl _

theorem issues_own (s : State) : s.issues.own = s.issues.bank s.cur.bid := by rw [State.own, s.issues_cur]

/-! ### Gangs -/

theorem foldl_modBank_cur (l : List Nat) (f : Bank → Bank) (s : State) : (l.foldl (fun s m => s.modBank m f) s).cur = s.cur := by
  induction l generalizing s with
  | nil => rfl
  | cons m l ih => exact ih _

/-- The group of the bank in execution, as a list of banks. -/
def State.ownGroup (s : State) : List Nat :=
  match s.own.task with
  | some t => t.banks (bankOf s.cur.bid)
  | none => []

/-- A mask that the rules for `gang` refuse, or a gang that stands. -/
def gangRefused (s : State) (a : Reg) : Bool :=
  bits (s.own.readX a).toNat 8 56 ≠ 0 || (gangOf s a).length < 2 || !(gangOf s a).all s.ownGroup.contains || !(gangOf s a).contains s.cur.bid
    || s.own.gang.any (·.formed)

theorem bits_high_zero (x : Word) : bits x.toNat 8 56 = 0 ↔ x.toNat < 256 := by
  have hx := x.isLt
  unfold bits
  omega

theorem gangRefused_eq_false {s : State} {a : Reg} :
    gangRefused s a = false ↔ gangMaskOk s a ∧ ∀ g, s.own.gang = some g → g.formed = false := by
  have hformed : s.own.gang.any (·.formed) = false ↔ ∀ g, s.own.gang = some g → g.formed = false := by
    cases s.own.gang with
    | none => simp
    | some g => simp
  have hgroup : (gangOf s a).all s.ownGroup.contains = true ∧ (gangOf s a).contains s.cur.bid = true ↔
      s.cur.bid ∈ gangOf s a ∧ ∃ k, s.own.task = some k ∧ ∀ m ∈ gangOf s a, m ∈ k.banks (bankOf s.cur.bid) := by
    unfold State.ownGroup
    rw [List.all_eq_true, List.contains_iff_mem]
    cases s.own.task with
    | none =>
      refine ⟨fun ⟨h, hm⟩ => ?_, fun ⟨_, k, hk, _⟩ => by cases hk⟩
      exact absurd (h _ hm) (by simp)
    | some k => simp [and_comm]
  unfold gangRefused gangMaskOk
  rw [← hformed, ← bits_high_zero, ← hgroup]
  simp only [Bool.or_eq_false_iff, decide_eq_false_iff_not, Bool.not_eq_false', not_not, Nat.not_lt, ne_eq, and_assoc]

theorem otherMask_iff {s : State} {a : Reg} :
    s.issues.otherMask s.cur.bid (BitVec.ofNat 8 (s.own.readX a).toNat) (gangOf s a) = true ↔ gangDiffers s a := by
  unfold State.otherMask gangDiffers
  simp only [(issues_phaseOnly s _).gang, List.any_eq_true, Bool.and_eq_true, decide_eq_true_eq, Option.any_eq_true, Bool.or_eq_true,
    List.contains_iff_mem, Bool.not_eq_true', ne_eq]

/-- The checks of a `gang` read the issued state as they would have read the state before. -/
theorem gangRefused_issues (s : State) (a : Reg) : gangRefused s.issues a = gangRefused s a := by
  have hk := issues_phaseOnly s s.cur.bid
  have hx : s.issues.own.readX a = s.own.readX a := by rw [issues_own]; exact Bank.readX_core hk.core a
  have hgang : s.issues.own.gang = s.own.gang := by rw [issues_own]; exact hk.gang
  have htask : s.issues.own.task = s.own.task := by rw [issues_own]; exact hk.task
  simp only [gangRefused, gangOf, State.ownGroup, hx, hgang, htask, s.issues_cur]
  rfl

/-- Whether another bank waits in the same gang with empty queues. -/
def State.joined (s : State) (mask : BitVec 8) (m : Nat) : Bool :=
  (s.bank m).gang.any (fun g => !g.formed && g.mask = mask) && (s.bank m).quiet

theorem joined_issues (s : State) (mask : BitVec 8) (m : Nat) : s.issues.joined mask m = s.joined mask m := by
  have hk := issues_phaseOnly s m
  simp only [State.joined, hk.gang, hk.quiet]

/-! ### Condition bits -/

theorem testBit_bits (x lo n i : Nat) : (bits x lo n).testBit i = (decide (i < n) && x.testBit (lo + i)) := by
  rw [bits, Nat.testBit_mod_two_pow, Nat.testBit_div_two_pow, Nat.add_comm]

/-- A mask is within a field where every bit it names is set there. -/
theorem and_bits_eq_iff {mask x lo n : Nat} (h : mask < 2 ^ n) :
    mask &&& bits x lo n = mask ↔ ∀ i, i < n → mask.testBit i = true → x.testBit (lo + i) = true := by
  refine ⟨fun e i hi hm => ?_, fun hall => Nat.eq_of_testBit_eq fun i => ?_⟩
  · rw [← e, Nat.testBit_and, testBit_bits, Bool.and_eq_true, Bool.and_eq_true] at hm
    exact hm.2.2
  · rw [Nat.testBit_and, testBit_bits]
    cases hm : mask.testBit i with
    | false => rfl
    | true =>
      have hi : i < n := by
        by_contra hn
        rw [Nat.testBit_lt_two_pow (lt_of_lt_of_le h (Nat.pow_le_pow_right (by decide) (Nat.not_lt.mp hn)))] at hm
        cases hm
      rw [decide_eq_true hi, hall i hi hm]
      rfl

/-- The bits of a 16-bit field that a mask names take the value given, counted from `lo`; the others stay. -/
theorem masked_getLsbD (old : BitVec 16) (mask v lo i : Nat) (hi : i < 16) :
    ((old &&& ~~~BitVec.ofNat 16 (mask * 2 ^ lo)) ||| (BitVec.ofNat 16 (v % 2 ^ 16 * 2 ^ lo) &&& BitVec.ofNat 16 (mask * 2 ^ lo))).getLsbD i
      = if lo ≤ i ∧ mask.testBit (i - lo) = true then v.testBit (i - lo) else old.getLsbD i := by
  have hlt : i - lo < 16 := lt_of_le_of_lt (Nat.sub_le _ _) hi
  simp only [BitVec.getLsbD_or, BitVec.getLsbD_and, BitVec.getLsbD_not, BitVec.getLsbD_ofNat, Nat.testBit_mul_two_pow,
    Nat.testBit_mod_two_pow, hi, hlt, decide_true, Bool.true_and]
  by_cases hl : lo ≤ i
  · cases mask.testBit (i - lo) <;> simp [hl]
  · simp [hl]

theorem condAt_task {b c : Bank} (h : c.task = b.task) (bid : Nat) : c.condAt bid = b.condAt bid := by
  unfold Bank.condAt
  rw [h]

/-! ### What the issue of an irrevocable form leaves of the state -/

theorem issues_rest (s : State) : s.issues = { s with mem := s.issues.mem, banks := s.issues.banks, poison := s.issues.poison } :=
  s.issues_frame.rest

theorem issues_readX (s : State) (r : Reg) : (s.issues.bank s.issues.cur.bid).readX r = s.own.readX r := by
  rw [s.issues_cur]
  exact Bank.readX_core (issues_phaseOnly s _).core r

end Sys2Proof.Machine

namespace Sys2Proof.Proofs
open Sys2Proof Sys2Proof.Machine

theorem gangTraps {s : State} {a : Reg} (hs : s.settled s.cur.bid = true) (h : gangRefused s a = true ∨ gangDiffers s a) :
    exec (.gang a) s = .next (s.issues.takeTrap s.cur.bid 2 s.cur.ibits) := by
  change execGang a s = _
  have hx : s.issues.own.readX a = s.own.readX a := by rw [issues_own]; exact Bank.readX_core (issues_phaseOnly s _).core a
  refine runCc_irrevocable_trap hs ?_
  simp only [M.bind_get, M.bind_readX]
  by_cases hr : gangRefused s a = true
  · rw [if_pos]
    · simp only [M.bind_illegal, s.issues_cur]
    · exact (gangRefused_issues s a).trans hr
  · rw [if_neg, if_pos]
    · simp only [M.bind_illegal, s.issues_cur]
    · have := otherMask_iff.mpr (h.resolve_left hr)
      rw [show (s.issues.bank s.issues.cur.bid).readX a = s.own.readX a from hx, s.issues_cur]
      exact this
    · exact fun e => hr ((gangRefused_issues s a).symm.trans e)

theorem gangForms : Claim.GangForms := by
  unfold Claim.GangForms
  intro s a id mask ms waits joined hs
  have hown : s.issues.own = s.issues.bank id := issues_own s
  have hx : s.issues.own.readX a = s.own.readX a := by rw [hown]; exact Bank.readX_core (issues_phaseOnly s _).core a
  refine ⟨fun hf => ?_, fun hn hok hd => ?_, fun hd => gangTraps hs (.inr hd), fun hok => ?_⟩
  · refine gangTraps hs (.inl ?_)
    by_contra hr
    obtain ⟨g, hg, hgf⟩ := hf
    have := (gangRefused_eq_false.mp (Bool.not_eq_true _ ▸ hr)).2 g hg
    rw [this] at hgf
    cases hgf
  · have hr : ¬ gangRefused s.issues a = true := by
      rw [gangRefused_issues, gangRefused_eq_false.mpr ⟨hok, hn⟩]
      exact Bool.false_ne_true
    have ho : ¬ s.issues.otherMask id mask ms = true := fun e => hd (otherMask_iff.mp e)
    have hall : ms.all (fun m => m = id || s.issues.joined mask m) = true ↔ ∀ m ∈ ms, m ≠ id → s.joined mask m = true := by
      simp only [List.all_eq_true, Bool.or_eq_true, decide_eq_true_eq, joined_issues]
      exact ⟨fun h m hm hne => (h m hm).resolve_left hne, fun h m hm => (em _).imp_right (h m hm)⟩
    have hjoin : (∀ m ∈ ms, m ≠ id → joined m) → ms.all (fun m => m = id || s.issues.joined mask m) = true := fun h => by
      refine hall.mpr fun m hm hne => ?_
      obtain ⟨hg, hq⟩ := h m hm hne
      simp [State.joined, hg, hq]
    have hids : s.issues.cur.bid = id := s.issues_cur ▸ rfl
    have hxs : (s.issues.bank s.issues.cur.bid).readX a = s.own.readX a := hx
    have hform : (waits.formGang ms mask).cur = s.cur :=
      (foldl_modBank_cur ms _ waits).trans s.issues_cur
    refine ⟨fun h hl => ?_, fun l h hl hne => ?_, fun ⟨m, hm, hne, hg⟩ => ?_⟩
    all_goals change execGang a s = _
    · refine runCc_behind hs (t := waits) (x := (ms, mask)) ?_ rfl hform
      simp only [M.bind_get, M.bind_readX]
      rw [if_neg, if_neg, M.bind_modCur, if_neg, if_neg, M.run_pure]
      · rw [hxs, hids]
        rfl
      · rw [hxs, hids]
        change ¬ (ms.headD id ≠ id)
        simp [hl]
      · rw [hxs, hids]
        change ¬ (!ms.all (fun m => m = id || s.issues.joined mask m)) = true
        rw [hjoin h]
        exact Bool.false_ne_true
      · rw [hxs, hids]
        exact ho
      · exact hr
    · refine (runCc_error (t := (waits.formGang ms mask).modBank l Bank.retireGang) (e := .wait) (irrevocable_error hs ?_)).trans rfl
      simp only [M.bind_get, M.bind_readX]
      rw [if_neg, if_neg, M.bind_modCur, if_neg, if_pos, M.bind_modify, M.bind_waitMore]
      · rw [hxs, hids]
        change EStateM.Result.error _ ((waits.formGang ms mask).modBank (ms.headD id) _) = _
        rw [show ms.headD id = l by rw [List.headD_eq_head?_getD, hl]; rfl]
      · rw [hxs, hids]
        change ms.headD id ≠ id
        simp [hl, hne]
      · rw [hxs, hids]
        change ¬ (!ms.all (fun m => m = id || s.issues.joined mask m)) = true
        rw [hjoin h]
        exact Bool.false_ne_true
      · rw [hxs, hids]
        exact ho
      · exact hr
    · refine (runCc_error (t := waits) (e := .wait) (irrevocable_error hs ?_)).trans rfl
      simp only [M.bind_get, M.bind_readX]
      rw [if_neg, if_neg, M.bind_modCur, if_pos, M.bind_waitMore]
      · rw [hxs, hids]
      · rw [hxs, hids]
        change (!ms.all (fun m => m = id || s.issues.joined mask m)) = true
        rw [Bool.not_eq_true', ← Bool.not_eq_true, hall]
        intro h
        have := h m hm hne
        simp [State.joined, hg] at this
      · rw [hxs, hids]
        exact ho
      · exact hr
  · exact gangTraps hs (.inl (by
      by_contra hr
      exact hok (gangRefused_eq_false.mp (Bool.not_eq_true _ ▸ hr)).1))

theorem gangEnds : Claim.GangEnds := by
  unfold Claim.GangEnds
  intro s g id
  have hown : s.issues.own = s.issues.bank id := issues_own s
  have hgang : (s.issues.bank id).gang = s.own.gang := (issues_phaseOnly s id).gang
  have hids : s.issues.cur.bid = id := s.issues_cur ▸ rfl
  refine ⟨fun hg hf hl hs => ?_, fun hs h => ?_⟩
  · change execUngang s = _
    have hcur : ((g.members.filter (· ≠ id)).foldl (fun s m => s.modBank m (fun b => { b.retireGang with gang := none }))
        (s.issues.keepPushed id (g.members.filter (· ≠ id)))).cur = s.cur :=
      (foldl_modBank_cur _ (fun b => { b.retireGang with gang := none }) _).trans s.issues_cur
    refine runCc_behind hs (t := s.issues) (x := g) ?_ ?_ hcur
    · rw [M.bind_curBid, M.bind_curBank, hids, hgang, hg]
      simp [hf, hl]
    · simp only [M.bind_curBid, M.bind_modify, hids]
      rw [M.run_modCur, hcur]
  · change execUngang s = _
    refine runCc_irrevocable_trap hs ?_
    rw [M.bind_curBid, M.bind_curBank, hids, hgang]
    cases hg : s.own.gang with
    | none => simp only [M.run_illegal, s.issues_cur]
    | some k =>
      have hk : ¬ (k.formed && k.members.headD id = id) = true := by
        rcases h k hg with hf | ⟨m, hm, hne⟩
        · simp [hf]
        · simp [hm, hne]
      dsimp only
      rw [if_neg hk, M.run_illegal, s.issues_cur]

/-- Settles O23: the checks of a gang read each bank as it stood before the commit of the open phase, which keeps gangs and queues. -/
theorem gangs : Obligations.Gangs := ⟨gangForms, gangEnds⟩

/-- Settles O24, by the bits of masks and fields. -/
theorem conditionBits : Obligations.ConditionBits := by
  unfold Obligations.ConditionBits
  intro s a b id mask lo n
  have hids : s.issues.cur.bid = id := s.issues_cur ▸ rfl
  have hcond : (s.issues.bank id).condAt id = s.own.condAt id := condAt_task (issues_phaseOnly s id).task id
  refine ⟨fun h => ⟨?_, fun hs => ?_⟩, fun hm hall _ => ?_, fun hm ⟨i, hi, hmi, hci⟩ _ => ?_, fun k hk => ?_, fun hm hs _ => ?_⟩
  · change execCsyncW a s = _
    refine runCc_trap (t := s) ?_
    simp only [M.bind_get, M.bind_readX]
    rw [if_pos h, M.bind_illegal]
  · change execCsyncSet a b s = _
    refine runCc_irrevocable_trap hs ?_
    simp only [M.bind_curBank, M.bind_curBid, M.bind_readX]
    rw [issues_readX, hids, hcond, if_pos h, M.bind_illegal, s.issues_cur]
  · change execCsyncW a s = _
    refine runCc_same ?_
    simp only [M.bind_get, M.bind_readX]
    rw [if_neg (Nat.not_le.mpr hm), if_neg]
    · rfl
    · exact not_not.mpr ((and_bits_eq_iff hm).mpr hall)
  · change execCsyncW a s = _
    refine runCc_wait ?_
    simp only [M.bind_get, M.bind_readX]
    rw [if_neg (Nat.not_le.mpr hm), if_pos]
    · rfl
    · intro e
      have := (and_bits_eq_iff hm).mp e i hi hmi
      rw [BitVec.getLsbD] at hci
      exact absurd (hci.symm.trans this) Bool.false_ne_true
  · have : s.own.condAt id = (k.group0 / 8 % 3, 2 * (k.group0 % 8), 2 * k.gsize) := by
      unfold Bank.condAt
      rw [hk]
    exact ⟨congrArg (·.2.1) this, congrArg (·.2.2) this⟩
  · have hdie : ∀ d, s.issues.die d = s.die d := fun d => by rw [issues_rest]; rfl
    refine ⟨_, ?_, fun i hi => masked_getLsbD (condBits s s.own) mask (s.own.readX b).toNat lo i hi⟩
    change execCsyncSet a b s = _
    refine runCc_behind hs (t := s.issues) (x := ((s.own.condAt id).1, lo, mask)) ?_ ?_ s.issues_cur
    · simp only [M.bind_curBank, M.bind_curBid, M.bind_readX]
      rw [issues_readX, hids, hcond, if_neg (Nat.not_le.mpr hm), M.run_pure]
    · simp only [M.bind_curBid, M.bind_readX, M.run_modify]
      rw [issues_readX, hids]
      simp only [State.modDie, hdie]
      rfl

/-- Settles O25: the check of the table, the read of the record and its acceptance leave the bank in execution the same one. -/
theorem nestSubmission : Obligations.NestSubmission := by
  unfold Obligations.NestSubmission
  intro s t d a bs id va hs
  have hids : s.issues.cur.bid = id := s.issues_cur ▸ rfl
  have hcount : s.issues.nestCount (dieOf id) = s.nestCount (dieOf id) := by
    unfold State.nestCount
    rw [issues_rest]
  refine ⟨fun h => ?_, fun h hfull => ?_, fun h hfree hl => ?_⟩
  · change execNsub d a s = _
    refine runCc_irrevocable_trap hs ?_
    simp only [M.bind_get, M.bind_readX]
    rw [issues_readX, if_pos h, M.bind_trap]
  · change execNsub d a s = _
    refine runCc_behind hs (t := s.issues) (x := none) ?_ ?_ s.issues_cur
    · simp only [M.bind_get, M.bind_readX]
      rw [issues_readX, if_neg (not_not.mpr h), hids, hcount, if_pos (show nestTableSize ≤ _ from hfull), M.run_pure]
    · have hwrite := M.run_writeX d (BitVec.ofNat 64 (2 ^ 63 + 2)) s.issues
      rw [hids] at hwrite
      exact hwrite
  · intro v
    change execNsub d a s = _
    have hcur : t.cur = s.cur := ((keepsM_loadBlock _ _ _).ok hl).cur.trans s.issues_cur
    have hv : v.cur = s.cur := (keeps_accept ..).cur.trans hcur
    refine runCc_behind hs (t := t) (x := some (va, bs)) ?_ ?_ hv
    · simp only [M.bind_get, M.bind_readX]
      rw [issues_readX, if_neg (not_not.mpr h), hids, hcount, if_neg (show ¬ nestTableSize ≤ _ from Nat.not_le.mpr hfree), M.bind_ok hl, M.run_pure]
    · simp only [M.bind_curBank, M.bind_curBid, M.bind_modify]
      rw [M.run_writeX, hcur]
      change EStateM.Result.ok _ (v.modBank v.cur.bid _) = _
      rw [hv]
      rfl

end Sys2Proof.Proofs
end

-- ==== The tensor directory: opens (O26) ====
section
/-! SUPPORT. The tensor directory: opens, the atomic step of a bind, and closes (R93 to R101). -/

namespace Sys2Proof.Machine

-- One proof at a time: the whole text compiles in one process of bounded memory.
set_option Elab.async false

/-! ### Opens -/

/-- The checks of an open change no more than a translation may. -/
theorem openBlock_frame {a : Reg} {s t : State} {p : Place} {name : Word} (h : (openBlock a).run s = .ok (p, name) t) : Translated s t := by
  unfold openBlock at h
  simp only [M.bind_get, M.bind_readX] at h
  by_cases hm : (s.own.readX a).toNat % 128 ≠ 0
  · rw [if_pos hm, M.bind_trap] at h
    cases h
  · rw [if_neg hm, M.run_bind] at h
    split at h
    next p u hp =>
      rw [M.run_bind] at h
      split at h
      next bs v hv =>
        rw [M.run_pure] at h
        cases h
        rw [loadBytes_state hv]
        exact translate_frame hp
      · cases h
    · cases h

/-- What an open reads of a state: it is as it was before the form issued. -/
structure SameDirectory (s t : State) : Prop where
  cur : t.cur = s.cur
  cycle : t.cycle = s.cycle
  slots : t.slots = s.slots
  waiters : t.dirWaiters = s.dirWaiters
  vfId : ∀ m, (t.bank m).vfId = (s.bank m).vfId
  core : ∀ m, (t.bank m).core = (s.bank m).core

theorem SameDirectory.of_translated {s t : State} (h : Translated s.issues t) : SameDirectory s t := by
  have hr := h.rest
  have hi := s.issues_frame.rest
  refine ⟨h.cur.trans s.issues_cur, ?_, ?_, ?_, fun m => ?_, fun m => (h.core m).trans (issues_phaseOnly s m).core⟩
  · rw [hr, hi]
  · rw [hr, hi]
  · rw [hr, hi]
  · have ht : (t.bank m).task = (s.bank m).task := by rw [h.own m, ← (issues_phaseOnly s m).task]
    unfold Bank.vfId
    rw [ht]

theorem SameDirectory.slot {s t : State} (h : SameDirectory s t) (i : Nat) : t.slot i = s.slot i := by
  unfold State.slot
  rw [h.slots]

theorem SameDirectory.boundObject {s t : State} (h : SameDirectory s t) (vf : Nat) (name : Word) :
    t.boundObject vf name = s.boundObject vf name := by
  unfold State.boundObject
  rw [h.slots]

/-- An open of a name that is not bound gives its status. -/
theorem openEffect_unbound {s t : State} (h : SameDirectory s t) (d : Reg) (p : Place) {name : Word} (u : Nat)
    (hb : s.boundObject s.own.vfId name = none) :
    (openEffect d p name u).run t = .ok () (t.modBank s.cur.bid (·.writeX d (BitVec.ofNat 64 (2 ^ 63 + u)))) := by
  unfold openEffect
  simp only [M.bind_get, h.cur, h.boundObject, h.vfId]
  rw [show s.boundObject (s.bank s.cur.bid).vfId name = none from hb]
  simp only [M.run_writeX, h.cur]

/-- An open of an object that has as many opens as a word can count gives LIMIT. -/
theorem openEffect_limit {s t : State} (h : SameDirectory s t) (d : Reg) (p : Place) {name : Word} (u : Nat) {i : Nat}
    (hb : s.boundObject s.own.vfId name = some i) (hi : (s.slot i).opens = 2 ^ 32 - 1) :
    (openEffect d p name u).run t = .ok () (t.modBank s.cur.bid (·.writeX d 0x8000000000000005#64)) := by
  unfold openEffect
  simp only [M.bind_get, h.cur, h.boundObject, h.vfId]
  rw [show s.boundObject (s.bank s.cur.bid).vfId name = some i from hb]
  simp only [h.slot, hi, if_true]
  have hwrite := M.run_writeX d (BitVec.ofNat 64 (2 ^ 63 + 5)) t
  rw [h.cur] at hwrite
  exact hwrite

/-- Any other open counts, and gives the descriptor and the handle. -/
theorem openEffect_opened {s t : State} (h : SameDirectory s t) (d : Reg) (p : Place) {name : Word} (u : Nat) {i : Nat}
    (hb : s.boundObject s.own.vfId name = some i) (hi : (s.slot i).opens ≠ 2 ^ 32 - 1) :
    (openEffect d p name u).run t = .ok () (((t.openSlot i).storeAt s.cur.bid none { p with pa := p.pa + 64 } (s.slot i).desc).modBank s.cur.bid
      (·.writeX d (BitVec.ofNat 64 (s.handleOf i)))) := by
  have hcur : ((t.openSlot i).storeAt s.cur.bid none { p with pa := p.pa + 64 } (s.slot i).desc).cur = s.cur :=
    (storeAt_frame ..).cur.trans h.cur
  unfold openEffect
  simp only [M.bind_get, h.cur, h.boundObject, h.vfId]
  rw [show s.boundObject (s.bank s.cur.bid).vfId name = some i from hb]
  simp only [h.slot, hi, if_false, M.bind_modify, M.run_writeX, hcur, State.handleOf]

theorem expired_iff {s : State} {w : DirWaiter} : s.expired w = true ↔ w.deadline ≠ 0 ∧ w.deadline ≤ s.cycle := by
  simp [State.expired]

/-- The registration that a `dopen.w` of the bank in execution makes. -/
def State.openWaiter (s : State) (d a b : Reg) (name : Word) : DirWaiter :=
  { bid := s.cur.bid, vf := s.own.vfId, name := name, va := (s.own.readX a).toNat, rd := d, deadline := (s.own.readX b).toNat }

/-- The checks of a `dopen.w` that is not registered. -/
def openChecks (d a b : Reg) : M (Place × Word) := do
  let (p, name) ← openBlock a
  let s ← get
  let bid := s.cur.bid
  let vf := (s.bank bid).vfId
  let w : DirWaiter := { bid := bid, vf := vf, name := name, va := (← readX a).toNat, rd := d, deadline := (← readX b).toNat }
  if (s.boundObject vf name).isNone && !s.expired w then
    modify (fun s => { s with dirWaiters := s.dirWaiters ++ [w] })
    modCur (fun b => { b with wait := .dopenW w.deadline })
    waitMore
  return (p, name)

theorem execDopenW_fresh {s : State} (d a b : Reg) (h : ∀ k ∈ s.dirWaiters, k.bid ≠ s.cur.bid) :
    execDopenW d a b s = runCc (irrevocable (openChecks d a b) (fun (p, name) => openEffect d p name 6)) s := by
  have hf : s.dirWaiters.find? (·.bid = s.cur.bid) = none := List.find?_eq_none.mpr fun k hk e => h k hk (of_decide_eq_true e)
  unfold execDopenW
  rw [hf]
  rfl

/-- They wait, registered, where the name is not bound and the deadline has not come. -/
theorem openChecks_run {s t : State} {d a b : Reg} {p : Place} {name : Word} (hp : (openBlock a).run s.issues = .ok (p, name) t) :
    (openChecks d a b).run s.issues = if (s.boundObject s.own.vfId name).isNone && !s.expired (s.openWaiter d a b name)
      then .error .wait (({ t with dirWaiters := t.dirWaiters ++ [s.openWaiter d a b name] } : State).modBank s.cur.bid
        (fun k => { k with wait := .dopenW (s.own.readX b).toNat }))
      else .ok (p, name) t := by
  have h := SameDirectory.of_translated (openBlock_frame hp)
  have hx : ∀ r, (t.bank s.cur.bid).readX r = s.own.readX r := fun r => Bank.readX_core (h.core _) r
  have hexp : ∀ w, t.expired w = s.expired w := fun w => by
    unfold State.expired
    rw [h.cycle]
  unfold openChecks
  rw [M.bind_ok hp]
  simp only [M.bind_get, M.bind_readX, h.cur, h.boundObject, h.vfId, hx, hexp]
  change EStateM.run (if (s.boundObject s.own.vfId name).isNone && !s.expired (s.openWaiter d a b name) then _ else _) t = _
  split
  · simp only [M.bind_modify, M.bind_modCur, M.bind_waitMore, h.cur]
    rfl
  · rw [M.run_pure]

end Sys2Proof.Machine

namespace Sys2Proof.Proofs
open Sys2Proof Sys2Proof.Machine

/-- Settles O26: the checks of an open leave the directory as it stood. -/
theorem directoryOpens : Obligations.DirectoryOpens := by
  unfold Obligations.DirectoryOpens
  intro s t d a b p name id ends opened w hs hp
  have h := SameDirectory.of_translated (openBlock_frame hp)
  have hopened : ∀ i, (opened i).cur = s.cur := fun i => (storeAt_frame ..).cur.trans h.cur
  refine ⟨fun hb => ?_, fun i hb => ⟨fun hi => ?_, fun hi => ?_⟩, fun hk => ⟨fun i hb => ?_, fun hb => ⟨fun h0 hd => ?_, fun hd => ?_⟩⟩,
    fun k hk => ⟨fun hd => ?_, fun h0 hd => ?_⟩⟩
  · change execDopen d a s = _
    exact runCc_behind hs hp (openEffect_unbound h d p 1 hb) h.cur
  · change execDopen d a s = _
    exact runCc_behind hs hp (openEffect_limit h d p 1 hb hi) h.cur
  · change execDopen d a s = _
    exact runCc_behind hs hp (openEffect_opened h d p 1 hb hi) (hopened i)
  · have hc : (openChecks d a b).run s.issues = .ok (p, name) t := by
      rw [openChecks_run hp, hb]
      rfl
    refine ⟨fun hi => ?_, fun hi => ?_⟩
    · change execDopenW d a b s = _
      rw [execDopenW_fresh d a b hk]
      exact runCc_behind hs hc (openEffect_limit h d p 6 hb hi) h.cur
    · change execDopenW d a b s = _
      rw [execDopenW_fresh d a b hk]
      exact runCc_behind hs hc (openEffect_opened h d p 6 hb hi) (hopened i)
  · have hexp : s.expired (s.openWaiter d a b name) = true := expired_iff.mpr ⟨fun e => h0 (BitVec.eq_of_toNat_eq e), hd⟩
    change execDopenW d a b s = _
    rw [execDopenW_fresh d a b hk]
    refine runCc_behind hs (x := (p, name)) (t := t) ?_ (openEffect_unbound h d p 6 hb) h.cur
    rw [openChecks_run hp, hexp, Bool.not_true, Bool.and_false]
    rfl
  · have hexp : s.expired (s.openWaiter d a b name) = false := by
      rw [← Bool.not_eq_true, expired_iff]
      rintro ⟨h0, hle⟩
      exact hd.elim (fun e => h0 (congrArg BitVec.toNat e)) (Nat.not_lt.mpr hle)
    change execDopenW d a b s = _
    rw [execDopenW_fresh d a b hk]
    refine (runCc_error (e := .wait) (irrevocable_error hs ?_)).trans rfl
    rw [openChecks_run hp, hexp, hb]
    rfl
  · have hexp : ¬ s.expired k = true := by
      rw [expired_iff]
      exact fun ⟨h1, h2⟩ => hd.elim h1 (Nat.not_lt.mpr h2)
    change execDopenW d a b s = _
    unfold execDopenW
    rw [show s.dirWaiters.find? (·.bid = s.cur.bid) = some k from hk]
    exact congrArg Host.Outcome.next (if_neg hexp)
  · have hexp : s.expired k = true := expired_iff.mpr ⟨h0, hd⟩
    have hid : k.bid = id := of_decide_eq_true (List.find?_some hk :)
    change execDopenW d a b s = _
    unfold execDopenW
    rw [show s.dirWaiters.find? (·.bid = s.cur.bid) = some k from hk, ← hid]
    exact congrArg Host.Outcome.next (if_pos hexp)

end Sys2Proof.Proofs
end

-- ==== The atomic step of a bind (O27) ====
section
/-! SUPPORT. The atomic step of a bind (R93, R95, R98). -/

namespace Sys2Proof.Machine

-- One proof at a time: the whole text compiles in one process of bounded memory.
set_option Elab.async false

/-! ### What keeps generations -/

/-- A step that touches no VF and no binding generation. -/
def SameGens (s t : State) : Prop := t.vfs = s.vfs ∧ t.nameGen = s.nameGen

theorem SameGens.refl (s : State) : SameGens s s := ⟨rfl, rfl⟩
theorem SameGens.trans {s t u : State} (h : SameGens s t) (k : SameGens t u) : SameGens s u := ⟨k.1.trans h.1, k.2.trans h.2⟩

theorem SameGens.foldl {α : Type} {f : State → α → State} (h : ∀ s x, SameGens s (f s x)) (l : List α) (s : State) : SameGens s (l.foldl f s) := by
  induction l generalizing s with
  | nil => exact SameGens.refl s
  | cons x l ih => exact (h s x).trans (ih _)

theorem SameGens.of_translated {s t : State} (h : Translated s t) : SameGens s t :=
  ⟨(congrArg State.vfs h.rest :), (congrArg State.nameGen h.rest :)⟩

theorem SameGens.of_unit {s t : State} (h : UnitFrame s t) : SameGens s t :=
  ⟨(congrArg State.vfs h.rest :), (congrArg State.nameGen h.rest :)⟩

theorem SameGens.of_store {bid : Nat} {s t : State} (h : StoreFrame bid s t) : SameGens s t :=
  ⟨(congrArg State.vfs h.rest :), (congrArg State.nameGen h.rest :)⟩

theorem SameGens.of_phase {s t : State} (h : PhaseFrame s t) : SameGens s t :=
  ⟨(congrArg State.vfs h.rest :), (congrArg State.nameGen h.rest :)⟩

theorem SameGens.postRecord (s : State) (i : Nat) : SameGens s (s.postRecord i) := by
  unfold State.postRecord
  dsimp only
  split
  · exact ⟨rfl, rfl⟩
  · split
    · exact ⟨rfl, rfl⟩
    next hp t ht =>
      have h1 := SameGens.of_translated (unitPlace_frame ht)
      split
      · exact h1.trans ⟨rfl, rfl⟩
      · split
        · exact h1.trans ⟨rfl, rfl⟩
        next rp u hu =>
          have h2 := h1.trans (SameGens.of_translated (unitPlace_frame hu))
          split
          · exact h2.trans ⟨rfl, rfl⟩
          next np v hv =>
            have h3 := h2.trans (SameGens.of_translated (unitPlace_frame hv))
            have hstores := (UnitFrame.unitStore v (i / slotsPerDie) (s.slot i).vf rp
              (leBytes 8 (s.slot i).name.toNat ++ leBytes 8 (blockWord (s.slot i).desc 6) ++ leBytes 8 (blockWord (s.slot i).desc 0)
                ++ leBytes 8 (s.slot i).gen)).trans
              (UnitFrame.unitStore _ (i / slotsPerDie) (s.slot i).vf np (leBytes 8 (blockWord (t.mem.read hp.pa 64) 1 + 1)))
            exact h3.trans ((SameGens.of_unit hstores).trans ⟨rfl, rfl⟩)

theorem SameGens.reclaimIfDone (s : State) (i : Nat) : SameGens s (s.reclaimIfDone i) := by
  unfold State.reclaimIfDone
  dsimp only
  split
  · exact SameGens.postRecord s i
  · exact SameGens.refl s

/-- A translation that stops has at most dropped or renewed a leaf of the TLBs. -/
theorem translate_error_frame {w : Who} {va acc pol : Nat} {s t : State} {e : Stop} (h : (translate w va acc pol).run s = .error e t) :
    Translated s t := by
  have hland : ∀ {l : Leaf} {u : State}, (landOn w l va acc pol).run u = .error e t → t = u := fun {l u} h => by
    unfold landOn at h
    dsimp only at h
    split at h
    · rw [M.bind_fail] at h
      cases h
      rfl
    · rw [M.bind_get] at h
      split at h
      · rw [M.run_fail] at h
        cases h
        rfl
      · rw [M.bind_set, M.run_pure] at h
        cases h
  have hwalk : (walkLeaf w va acc >>= fun l => landOn w l va acc pol).run s = .error e t → Translated s t := fun h => by
    rw [M.run_bind] at h
    cases hr : (walkLeaf w va acc).run s with
    | ok l u =>
      rw [hr] at h
      obtain ⟨-, rfl⟩ := walkLeaf_cases hr
      rw [hland h]
      exact tlbRenew_frame s w va l
    | error e' u =>
      rw [hr] at h
      cases h
      unfold walkLeaf at hr
      rw [M.bind_get] at hr
      split at hr
      · rw [M.run_waitMore] at hr
        cases hr
        exact Translated.refl s
      · rw [M.bind_set, M.run_fail] at hr
        cases hr
        exact tlbDrop_frame s w va
      · rw [M.bind_set, M.run_pure] at hr
        cases hr
  by_cases hc : canonical va = true
  · cases hl : s.tlbLookup w va with
    | none =>
      rw [translate_miss hc (.inl hl)] at h
      exact hwalk h
    | some l =>
      by_cases hd : l.denies w acc = 0
      · rw [translate_hit hc hd hl] at h
        rw [hland h]
        exact Translated.refl s
      · rw [translate_miss hc (.inr ⟨l, hl, hd⟩)] at h
        exact hwalk h
  · unfold translate at h
    rw [if_pos (by simp [hc]), M.bind_fail] at h
    cases h
    exact Translated.refl s

theorem SameGens.endDopenW (s : State) (w : DirWaiter) (v : Nat) : SameGens s (s.endDopenW w v) := by
  unfold State.endDopenW
  dsimp only
  generalize hu : s.modBank w.bid _ = u
  have h : SameGens s u := by
    rw [← hu]
    exact ⟨rfl, rfl⟩
  exact h.trans (SameGens.of_phase (State.beginPhase_frame _ _ _))

theorem SameGens.wake (s : State) (i : Nat) (w : DirWaiter) : SameGens s (s.wake i w) := by
  unfold State.wake
  dsimp only
  refine SameGens.trans (t := { s with dirWaiters := s.dirWaiters.filter (·.bid ≠ w.bid) }) ⟨rfl, rfl⟩ ?_
  generalize ({ s with dirWaiters := s.dirWaiters.filter (·.bid ≠ w.bid) } : State) = u
  split
  next e t ht => exact (SameGens.of_translated (translate_error_frame ht)).trans ⟨rfl, rfl⟩
  next p t ht =>
    have hstore := SameGens.of_store (storeAt_frame (t.openSlot i) w.bid { p with pa := p.pa + 64 } (t.slot i).desc)
    exact (SameGens.of_translated (translate_frame ht)).trans (SameGens.trans ⟨rfl, rfl⟩ (hstore.trans (SameGens.endDopenW _ w _)))

theorem SameGens.serveWaiters (s : State) (vf : Nat) (name : Word) : SameGens s (s.serveWaiters vf name) := by
  unfold State.serveWaiters
  split
  · exact SameGens.refl s
  · exact SameGens.foldl (fun s w => SameGens.wake s _ w) _ s

/-! ### The step -/

theorem genOf_setGen (s : State) (vf v g : Nat) (name n : Word) :
    (s.setGen vf name g).genOf v n = if v = vf ∧ n = name then g else s.genOf v n := by
  unfold State.setGen State.genOf
  by_cases h : v = vf ∧ n = name
  · obtain ⟨rfl, rfl⟩ := h
    simp
  · have hne : ((vf, name) : Nat × Word) ≠ (v, n) := fun e => h ⟨(congrArg Prod.fst e).symm, (congrArg Prod.snd e).symm⟩
    rw [if_neg h, List.find?_cons_of_neg (by simpa using hne), List.find?_filter]
    congr 3
    funext e
    by_cases he : e.1 = (v, n)
    · simp [he, Ne.symm hne]
    · simp [he]

theorem genOf_congr {s t : State} (h : SameGens s t) (v : Nat) (n : Word) : t.genOf v n = s.genOf v n := by
  unfold State.genOf
  rw [h.2]

theorem vf_congr {s t : State} (h : SameGens s t) (v : Nat) : t.vf v = s.vf v := by
  unfold State.vf
  rw [h.1]

/-- An entry of a bind gives its name the generation, and changes no VF. -/
theorem bindEntry_gens (s : State) (vf g : Nat) (e : BindEntry) : ∃ t, SameGens s t ∧ s.bindEntry vf g e = t.setGen vf e.1 g := by
  unfold State.bindEntry
  dsimp only
  have hold : SameGens s (match s.boundObject vf e.1 with
      | some i => (s.setSlot i { s.slot i with bound := false }).reclaimIfDone i
      | none => s) := by
    split
    · exact SameGens.trans ⟨rfl, rfl⟩ (SameGens.reclaimIfDone _ _)
    · exact SameGens.refl s
  have hnew : ∀ u : State, SameGens u (match e.2 with
      | none => u
      | some d =>
        match u.lowestFree (homeDie vf e.1) with
        | none => u
        | some i =>
          u.setSlot i { u.slot i with used := true, name := e.1, vf := vf, desc := d, bound := true, opens := 0, gen := g, held := false }) := by
    intro u
    split
    · exact SameGens.refl _
    · split
      · exact SameGens.refl _
      · exact ⟨rfl, rfl⟩
  exact ⟨_, hold.trans (hnew _), rfl⟩

/-- The entries of a bind give their names the generation, and no other name, and change no VF. -/
theorem foldl_bindEntry_gens (vf g : Nat) (es : List BindEntry) (s : State) :
    (es.foldl (fun s e => s.bindEntry vf g e) s).vfs = s.vfs
      ∧ (∀ e ∈ es, (es.foldl (fun s e => s.bindEntry vf g e) s).genOf vf e.1 = g)
      ∧ ∀ v n, (v ≠ vf ∨ ∀ e ∈ es, e.1 ≠ n) → (es.foldl (fun s e => s.bindEntry vf g e) s).genOf v n = s.genOf v n := by
  induction es generalizing s with
  | nil => exact ⟨rfl, fun _ h => (nomatch h), fun _ _ _ => rfl⟩
  | cons e es ih =>
    rw [List.foldl_cons]
    obtain ⟨t, ht, he⟩ := bindEntry_gens s vf g e
    rw [he]
    obtain ⟨h1, h2, h3⟩ := ih (t.setGen vf e.1 g)
    refine ⟨h1.trans ht.1, fun k hk => ?_, fun v n h => ?_⟩
    · by_cases hin : ∃ j ∈ es, j.1 = k.1
      · obtain ⟨j, hj, hjk⟩ := hin
        rw [← hjk]
        exact h2 j hj
      · have hke : k.1 = e.1 := by
          rcases List.mem_cons.mp hk with rfl | hk
          · rfl
          · exact absurd ⟨k, hk, rfl⟩ hin
        rw [h3 vf k.1 (.inr fun j hj hjk => hin ⟨j, hj, hjk⟩), genOf_setGen, if_pos ⟨rfl, hke⟩]
    · rw [h3 v n (h.imp_right fun h j hj => h j (List.mem_cons_of_mem _ hj)), genOf_setGen, if_neg, genOf_congr ht]
      rintro ⟨hv, hn⟩
      exact h.elim (fun k => k hv) fun k => k e (List.mem_cons_self ..) hn.symm

/-- A bind that nothing refuses. -/
def State.bound (s : State) (vf : Nat) (es : List BindEntry) : State :=
  let g := ((s.vf vf).gen + 1) % 2 ^ 63
  let t := es.foldl (fun s e => s.bindEntry vf g e) (s.setVf vf { s.vf vf with gen := g })
  es.foldl (fun s e => s.serveWaiters vf e.1) t

/-- Why a bind is refused, by the tests in their order. -/
def State.bindRefused (s : State) (vf : Nat) (es : List BindEntry) : Option Nat :=
  let news := es.filter (·.2.isSome)
  if es.any (fun e => e.2.isNone && (s.boundObject vf e.1).isNone) then some (2 ^ 63 + 1)
  else if es.any (fun e => e.2.any badDesc) then some (2 ^ 63 + 3)
  else if (List.range 4).any (fun d => s.freeSlots d < (news.filter (fun e => homeDie vf e.1 = d)).length)
    || (s.vf vf).quota < s.vfSlots vf + news.length && news.length ≠ 0 then some (2 ^ 63 + 2)
  else none

theorem bindStep_eq (s : State) (vf : Nat) (es : List BindEntry) :
    s.bindStep vf es = match s.bindRefused vf es with
      | some c => (c, s)
      | none => (((s.vf vf).gen + 1) % 2 ^ 63, s.bound vf es) := by
  have hbad : (fun e : BindEntry => match e.2 with | some d => badDesc d | none => false) = fun e => e.2.any badDesc := by
    funext e
    cases e.2 <;> rfl
  unfold State.bindStep State.bindRefused
  dsimp only
  split
  · rfl
  · by_cases h : es.any (fun e => e.2.any badDesc) = true
    · rw [if_pos h]
      exact if_pos ((congrArg es.any hbad).trans h)
    · rw [if_neg h]
      refine (if_neg fun k => h ((congrArg es.any hbad).symm.trans k)).trans ?_
      split <;> rfl

/-- What refuses a bind, in its order. -/
theorem bindRefused_spec (s : State) (vf : Nat) (es : List BindEntry) :
    let news := es.filter (·.2.isSome)
    let unbound := ∃ e ∈ es, e.2 = none ∧ s.boundObject vf e.1 = none
    let bad := ∃ e ∈ es, ∃ d, e.2 = some d ∧ badDesc d = true
    let full := (∃ d, d < 4 ∧ s.freeSlots d < (news.filter (fun e => homeDie vf e.1 = d)).length)
      ∨ (news ≠ [] ∧ (s.vf vf).quota < s.vfSlots vf + news.length)
    (unbound → s.bindRefused vf es = some (2 ^ 63 + 1)) ∧ (¬ unbound → bad → s.bindRefused vf es = some (2 ^ 63 + 3))
      ∧ (¬ unbound → ¬ bad → full → s.bindRefused vf es = some (2 ^ 63 + 2))
      ∧ (¬ unbound → ¬ bad → ¬ full → s.bindRefused vf es = none) := by
  intro news unbound bad full
  have h1 : es.any (fun e => e.2.isNone && (s.boundObject vf e.1).isNone) = true ↔ unbound := by
    simp [unbound, List.any_eq_true]
  have h2 : es.any (fun e => e.2.any badDesc) = true ↔ bad := by
    simp [bad, List.any_eq_true, Option.any_eq_true]
  have h3 : ((List.range 4).any (fun d => s.freeSlots d < (news.filter (fun e => homeDie vf e.1 = d)).length)
      || (s.vf vf).quota < s.vfSlots vf + news.length && news.length ≠ 0) = true ↔ full := by
    simp [full, List.any_eq_true, and_comm]
  unfold State.bindRefused
  dsimp only
  refine ⟨fun hu => if_pos (h1.mpr hu), fun hu hb => ?_, fun hu hb hf => ?_, fun hu hb hf => ?_⟩
  · rw [if_neg (mt h1.mp hu), if_pos (h2.mpr hb)]
  · rw [if_neg (mt h1.mp hu), if_neg (mt h2.mp hb)]
    exact if_pos (h3.mpr hf)
  · rw [if_neg (mt h1.mp hu), if_neg (mt h2.mp hb)]
    exact if_neg (mt h3.mp hf)

end Sys2Proof.Machine

namespace Sys2Proof.Proofs
open Sys2Proof Sys2Proof.Machine

/-- Settles O27: a bind that nothing refuses numbers its names, and what it reclaims and wakes numbers none. -/
theorem bindStep : Obligations.BindStep := by
  unfold Obligations.BindStep
  intro s vf es r g news unbound bad full
  have hr : r = _ := bindStep_eq s vf es
  obtain ⟨h1, h2, h3, h4⟩ := bindRefused_spec s vf es
  have hg : g < 2 ^ 63 := Nat.mod_lt _ (by decide)
  refine ⟨fun hu => ?_, fun hu hb => ?_, fun hu hb hf => ?_, fun hle => ?_, fun hu hb hf => ?_⟩
  · rw [hr, h1 hu]
  · rw [hr, h2 hu hb]
  · rw [hr, h3 hu hb hf]
  · rw [hr] at hle ⊢
    cases hc : s.bindRefused vf es with
    | some c => rfl
    | none =>
      rw [hc] at hle
      exact absurd hg (Nat.not_lt.mpr hle)
  · rw [hr, h4 hu hb hf]
    obtain ⟨hvfs, hin, hout⟩ := foldl_bindEntry_gens vf g es (s.setVf vf { s.vf vf with gen := g })
    have hserve : SameGens (es.foldl (fun s e => s.bindEntry vf g e) (s.setVf vf { s.vf vf with gen := g })) (s.bound vf es) :=
      SameGens.foldl (fun s e => SameGens.serveWaiters s vf e.1) es _
    have hvf : ∀ v, (s.bound vf es).vf v = (s.setVf vf { s.vf vf with gen := g }).vf v := fun v => by
      unfold State.vf
      rw [hserve.1, hvfs]
      rfl
    refine ⟨rfl, ?_, fun e he => ?_, fun v n h => ?_, fun v hv => ?_⟩
    · change ((s.bound vf es).vf vf).gen = g
      rw [hvf, State.vf_setVf, if_pos rfl]
    · exact (genOf_congr hserve vf e.1).trans (hin e he)
    · exact (genOf_congr hserve v n).trans (hout v n h)
    · change (s.bound vf es).vf v = s.vf v
      rw [hvf, State.vf_setVf, if_neg hv.symm]

end Sys2Proof.Proofs
end

-- ==== Binding and closing from a control core (O28) ====
section
/-! SUPPORT. Binding and closing from a control core (R98, R100). -/

namespace Sys2Proof.Machine

-- One proof at a time: the whole text compiles in one process of bounded memory.
set_option Elab.async false

/-- A bind whose entries have been read: the atomic step, whose result goes to rd. -/
theorem bindForm_entries {s t : State} {d : Reg} {checks : M (Option (List BindEntry))} {es : List BindEntry}
    (hs : s.settled s.cur.bid = true) (hc : checks.run s.issues = .ok (some es) t) (ht : t.cur = s.cur) :
    runCc (bindForm d checks) s = .next ((t.bindStep (t.bank s.cur.bid).vfId es).2.modBank s.cur.bid
      (·.writeX d (BitVec.ofNat 64 (t.bindStep (t.bank s.cur.bid).vfId es).1))).behind := by
  have hu : (t.bindStep (t.bank s.cur.bid).vfId es).2.cur = s.cur := (keeps_bindStep t _ es).cur.trans ht
  refine runCc_behind hs hc ?_ hu
  simp only [M.bind_get, M.bind_curBank, M.bind_set, M.run_writeX, ht, hu]

/-- A bind whose list is bad. -/
theorem bindForm_bad {s t : State} {d : Reg} {checks : M (Option (List BindEntry))}
    (hs : s.settled s.cur.bid = true) (hc : checks.run s.issues = .ok none t) (ht : t.cur = s.cur) :
    runCc (bindForm d checks) s = .next ((t.modBank s.cur.bid (·.writeX d 0x8000000000000004#64)).behind) := by
  refine runCc_behind hs hc ?_ ht
  simp only [M.bind_get]
  have hwrite := M.run_writeX d (BitVec.ofNat 64 (2 ^ 63 + 4)) t
  rw [ht] at hwrite
  exact hwrite

end Sys2Proof.Machine

namespace Sys2Proof.Proofs
open Sys2Proof Sys2Proof.Machine

theorem directoryQuery : Claim.DirectoryQuery := by
  unfold Claim.DirectoryQuery
  intro s d a
  change execDqry d a s = _
  refine runCc_modBank (t := s) ?_ rfl (Bank.writeX_pc _ _ _)
  simp only [M.bind_get, M.bind_curBank, M.bind_readX, M.run_writeX]

theorem directoryBinds : Claim.DirectoryBinds := by
  unfold Claim.DirectoryBinds
  intro s t d a b desc l id ends hs
  have hx : ∀ r, (s.issues.bank s.issues.cur.bid).readX r = s.own.readX r := issues_readX s
  refine ⟨fun hb hl => ?_, fun hb => ?_, ?_, fun hl => ⟨fun es he => ?_, fun he => ?_⟩⟩
  · change execDbind d a b s = _
    refine bindForm_entries hs ?_ (((keepsM_loadDesc _).ok hl).cur.trans s.issues_cur)
    simp only [M.bind_readX, hx]
    rw [if_neg (fun e => hb (BitVec.eq_of_toNat_eq (y := 0#64) e) : ¬ (s.own.readX b).toNat = 0), M.bind_ok hl, M.run_pure]
  · change execDbind d a b s = _
    refine bindForm_entries hs ?_ s.issues_cur
    simp only [M.bind_readX, hx]
    rw [hb]
    rfl
  · change execDunbind d a s = _
    refine bindForm_entries hs ?_ s.issues_cur
    simp only [M.bind_readX, hx, M.run_pure]
  all_goals
    subst he
    have ht : t.cur = s.cur := ((keepsM_loadBindList _).ok hl).cur.trans s.issues_cur
    change execDbset d a s = _
  · refine bindForm_entries hs ?_ ht
    simp only [M.bind_readX, hx]
    exact hl
  · refine bindForm_bad hs ?_ ht
    simp only [M.bind_readX, hx]
    exact hl

theorem directoryCloses : Claim.DirectoryCloses := by
  unfold Claim.DirectoryCloses
  intro s a id h i live hs
  have hslot : s.issues.slot i = s.slot i := by
    unfold State.slot
    rw [issues_rest]
  have hvf : (s.issues.bank s.issues.cur.bid).vfId = s.own.vfId := by
    rw [s.issues_cur]
    unfold Bank.vfId
    rw [(issues_phaseOnly s s.cur.bid).task]
  have hx := issues_readX s a
  refine ⟨fun h0 => ?_, fun h0 hl => ?_, fun h0 hl => ?_⟩
  all_goals change execDclose a s = _
  · refine runCc_behind hs (t := s.issues) (x := (h, i)) ?_ ?_ s.issues_cur
    · simp only [M.bind_get, M.bind_readX, M.bind_curBank, hx]
      rw [if_neg, M.run_pure]
      · rfl
      · simp [show bits (s.own.readX a).toNat 0 32 = 0 from h0]
    · exact congrArg (EStateM.run · s.issues) (if_neg (not_not.mpr h0))
  · refine runCc_behind hs (t := s.issues) (x := (h, i)) ?_ ?_ ((keeps_reclaimIfDone _ i).cur.trans s.issues_cur)
    · simp only [M.bind_get, M.bind_readX, M.bind_curBank, hx]
      rw [if_neg, M.run_pure]
      · rfl
      · obtain ⟨h1, h2, h3⟩ := hl
        change ¬ (decide (h ≠ 0) && (decide ((s.issues.slot i).inc ≠ bits h 0 16) || decide ((s.issues.slot i).vf ≠ _)
          || decide ((s.issues.slot i).opens = 0))) = true
        rw [hslot, hvf]
        simp [h1, h2, h3]
    · dsimp only
      rw [if_pos h0, M.run_modify, hslot]
  · refine runCc_irrevocable_trap hs ?_
    simp only [M.bind_get, M.bind_readX, M.bind_curBank, hx]
    rw [if_pos, M.bind_trap]
    change (decide (h ≠ 0) && (decide ((s.issues.slot i).inc ≠ bits h 0 16) || decide ((s.issues.slot i).vf ≠ _)
      || decide ((s.issues.slot i).opens = 0))) = true
    rw [hslot, hvf, Bool.and_eq_true]
    refine ⟨decide_eq_true h0, ?_⟩
    by_contra hn
    simp only [Bool.or_eq_true, decide_eq_true_eq, not_or, not_not] at hn
    exact hl ⟨hn.1.1, hn.1.2, hn.2⟩

/-- Settles O28: the effect of each form follows its checks, which change no slot. -/
theorem directoryBinding : Obligations.DirectoryBinding := ⟨directoryQuery, directoryBinds, directoryCloses⟩

end Sys2Proof.Proofs
end

-- ==== Fault records and virtual contexts (O30) ====
section
/-! SUPPORT. Fault records and virtual contexts from a control core (R120, R121, R184, R185). -/

namespace Sys2Proof.Machine

-- One proof at a time: the whole text compiles in one process of bounded memory.
set_option Elab.async false

/-- Bodies that run alike are one instruction. -/
theorem runCc_congr {x y : M Unit} {s : State} (h : x.run s = y.run s) : runCc x s = runCc y s := by
  unfold runCc
  rw [h]

/-- A body of two parts that completes has completed both. -/
theorem M.bind_cases {α β : Type} {x : M α} {f : α → M β} {s t : State} {b : β} (h : (x >>= f).run s = .ok b t) :
    ∃ a u, x.run s = .ok a u ∧ (f a).run u = .ok b t := by
  rw [M.run_bind] at h
  cases hx : x.run s with
  | ok a u =>
    rw [hx] at h
    exact ⟨a, u, rfl, h⟩
  | error e u =>
    rw [hx] at h
    cases h

/-- A form of S-mode, in S-mode, is what follows the check. -/
theorem runCc_needSuper {x : M Unit} {s : State} (h : s.own.core.priv = .super) : runCc (needSuper >>= fun _ => x) s = runCc x s :=
  runCc_congr (M.bind_ok (needSuper_super h))

/-- A form that checks the mode itself, in S-mode, is what follows the check. -/
theorem runCc_super {x : M Unit} {s : State} (h : s.own.core.priv = .super) :
    runCc (do if (← curBank).core.priv ≠ .super then illegal
              x) s = runCc x s :=
  runCc_congr (by rw [M.bind_curBank]; exact congrArg (EStateM.run · s) (if_neg (not_not.mpr h)))

/-- A jump that checks the mode itself, in S-mode, is what follows the check. -/
theorem runJump_super {x : M Word} {s : State} (h : s.own.core.priv = .super) :
    runJump (do if (← curBank).core.priv ≠ .super then illegal
                x) s = runJump x s := by
  have hx : EStateM.run (do if (← curBank).core.priv ≠ .super then illegal
                            x : M Word) s = x.run s := by
    rw [M.bind_curBank]
    exact congrArg (EStateM.run · s) (if_neg (not_not.mpr h))
  unfold runJump
  rw [hx]

/-- An irrevocable jump whose checks trap. -/
theorem runJump_irrevocable_trap {α : Type} {checks : M α} {effect : α → M Word} {s t : State} {c v : Nat}
    (hs : s.settled s.cur.bid = true) (hc : checks.run s.issues = .error (.trap c v) t) :
    runJump (irrevocableTo checks effect) s = .next (t.takeTrap s.cur.bid c v) := by
  refine runJump_trap ?_
  unfold irrevocableTo
  rw [M.bind_ok (issueIrrevocable_ok hs), M.bind_error hc]

/-- An irrevocable jump that completes. -/
theorem runJump_irrevocable {α : Type} {checks : M α} {effect : α → M Word} {s t u : State} {x : α} {pc : Word}
    (hs : s.settled s.cur.bid = true) (hc : checks.run s.issues = .ok x t) (he : (effect x).run t = .ok pc u) (hu : u.cur = s.cur) :
    runJump (irrevocableTo checks effect) s = .next ((u.beginPhase s.cur.bid pc).retires (fun b => b) pc) := by
  have hb : (u.beginPhase s.cur.bid pc).cur = s.cur := (u.beginPhase_frame s.cur.bid pc).cur.trans hu
  rw [runJump_ok (irrevocableTo_ok hs hc he), hu]
  unfold State.retires
  rw [hb]

/-- What `vcrep` requires of a record and its context. -/
def replayGood (res slot rcap fdepth depth : Nat) : Bool :=
  !(res = 0 || res = 3 || fdepth = 0 || 4 < fdepth || fdepth ≠ depth || (res = 1 && rcap ≤ slot))

theorem replayGood_iff {res slot rcap fdepth depth : Nat} (h : res < 4) :
    replayGood res slot rcap fdepth depth = true ↔ (res = 1 ∧ slot < rcap ∨ res = 2) ∧ 1 ≤ depth ∧ depth ≤ 4 ∧ fdepth = depth := by
  simp only [replayGood, Bool.not_eq_true', Bool.or_eq_false_iff, Bool.and_eq_false_iff, decide_eq_false_iff_not, not_not]
  omega

theorem storeVa_coresKept {w : Who} {va n v : Nat} {s t : State} (h : (storeVa w va n v).run s = .ok () t) : CoresKept s t := by
  obtain ⟨ps, u, hp, h⟩ := M.bind_cases h
  rw [M.bind_curBid, M.run_modify] at h
  cases h
  exact (CoresKept.of_translated (translateSpan_frame hp)).trans (CoresKept.of_store (storeSpan_frame u u.cur.bid ps n v))

end Sys2Proof.Machine

namespace Sys2Proof.Proofs
open Sys2Proof Sys2Proof.Machine

theorem faultQueueForms : Claim.FaultQueueForms := by
  unfold Claim.FaultQueueForms
  intro s t d a b p id va hs hsuper
  have hx := issues_readX s
  have hvfId : (s.issues.bank s.issues.cur.bid).vfId = s.own.vfId := by
    rw [s.issues_cur]
    unfold Bank.vfId
    rw [(issues_phaseOnly s s.cur.bid).task]
  have hfind : PMap.find (s.issues.die (bits (s.own.readX a).toNat 12 2)).faults (bits (s.own.readX a).toNat 0 12)
      = PMap.find (s.die (bits va 12 2)).faults (bits va 0 12) := by
    rw [issues_rest]
    rfl
  refine ⟨fun hal hp => ?_, fun h63 hz => ⟨fun r hr h2 hvf => ?_, fun hbad => ?_⟩⟩
  · have h := SameDirectory.of_translated (translate_frame hp)
    have hvf : (t.bank s.cur.bid).vfId = s.own.vfId := h.vfId _
    have hc : EStateM.run (do
        let s ← get
        let va := (← readX a).toNat
        if va % 32 ≠ 0 then trap 6 va
        translate (s.whoCore s.cur.bid) va accW 0) s.issues = .ok p t := by
      simp only [M.bind_get, M.bind_readX, hx]
      rw [if_neg (not_not.mpr hal), s.issues_cur]
      exact hp
    refine ⟨fun hn => ?_, fun k i r hn => ?_⟩
    all_goals
      change execFqpop d a s = _
      refine (runCc_needSuper hsuper).trans ?_
    · refine runCc_behind hs hc ?_ h.cur
      simp only [M.bind_get, M.bind_curBank, hvf, hn, M.run_writeX, h.cur]
      rfl
    · have hcur : ((t.setFault k i { r with state := 2 }).storeAt id none p ({ r with state := 2 } : FaultRec).image).cur = s.cur :=
        (storeAt_frame ..).cur.trans h.cur
      refine runCc_behind hs hc ?_ hcur
      simp only [M.bind_get, M.bind_curBank, M.bind_curBid, M.bind_modify, hvf, hn, M.run_writeX, h.cur]
      rw [show id = s.cur.bid from rfl] at hcur
      rw [hcur]
  · have hc : ∀ v, (s.own.readX b).toNat = v → v ≤ 1 → (EStateM.run (do
        let s ← get
        let n := (← readX a).toNat
        let v := (← readX b).toNat
        if !bit n 63 || bits n 14 49 ≠ 0 || 1 < v then illegal
        let d := bits n 12 2
        let i := bits n 0 12
        match PMap.find (s.die d).faults i with
        | some r =>
          if r.state ≠ 2 || r.vf ≠ (← curBank).vfId then illegal
          return (d, i, r, v)
        | none => illegal) s.issues : EStateM.Result Stop State (Nat × Nat × FaultRec × Nat))
          = .ok (bits va 12 2, bits va 0 12, r, v) s.issues := by
      intro v hv hle
      simp only [M.bind_get, M.bind_readX, hx, hv]
      rw [if_neg]
      · rw [hfind, hr]
        simp only [M.bind_curBank, hvfId]
        rw [if_neg, M.run_pure]
        simp [h2, hvf]
      · change ¬ (!bit va 63 || decide (bits va 14 49 ≠ 0) || decide (1 < v)) = true
        simp [h63, hz, Nat.not_lt.mpr hle]
    refine ⟨fun hb => ?_, fun hb => ?_⟩
    all_goals
      change execFqrep a b s = _
      refine (runCc_needSuper hsuper).trans ?_
    · refine runCc_behind hs (hc 0 (by rw [hb]; rfl) (by decide)) ?_ ((keeps_gcFaults _).cur.trans s.issues_cur)
      rfl
    · refine runCc_behind hs (hc 1 (by rw [hb]; rfl) (by decide)) ?_
        ((keeps_gcFaults _).cur.trans ((Keeps.foldl (fun s n => keeps_terminate s n r.code) _ _).cur.trans s.issues_cur))
      rfl
  · change execFqrep a b s = _
    refine (runCc_needSuper hsuper).trans (runCc_irrevocable_trap hs (t := s.issues) ?_)
    simp only [M.bind_get, M.bind_readX, hx]
    split
    · rw [M.bind_illegal, s.issues_cur]
    · rw [hfind]
      cases hr : PMap.find (s.die (bits va 12 2)).faults (bits va 0 12) with
      | none => simp only [M.run_illegal, s.issues_cur]
      | some r =>
        simp only [M.bind_curBank, hvfId]
        rw [if_pos, M.bind_illegal, s.issues_cur]
        simpa using hbad r hr

theorem contextForms : Claim.ContextForms := by
  unfold Claim.ContextForms
  intro s t u v d a fq hd tl cap rec fdepth rcap replay ps id w r
  have hx := issues_readX s
  refine ⟨fun hs hsuper hq => ?_, fun hs hsuper hal hrec => ?_, fun h => ?_, fun h p x y h1 h2 h3 h4 => ?_⟩
  · obtain ⟨x1, t1, hfq, hq⟩ := M.bind_cases hq
    obtain ⟨x2, t2, hhd, hq⟩ := M.bind_cases hq
    obtain ⟨x3, t3, htl, hq⟩ := M.bind_cases hq
    obtain ⟨x4, t4, hcap, hq⟩ := M.bind_cases hq
    rw [M.run_pure] at hq
    cases hq
    have hcur : t.cur = s.cur := ((keepsM_loadVa _ _ _).ok hcap).cur.trans (((keepsM_loadVa _ _ _).ok htl).cur.trans
      (((keepsM_loadVa _ _ _).ok hhd).cur.trans (((keepsM_ctxWord _ _ _).ok hfq).cur.trans s.issues_cur)))
    refine ⟨fun he => ?_, fun he hp hst => ?_⟩
    all_goals
      change execVcfp d a s = _
      refine (runCc_super hsuper).trans ?_
    · refine runCc_behind hs (t := t) (x := (fq, hd, tl, bits cap 0 4)) ?_ ?_ hcur
      · simp only [M.bind_get, M.bind_readX, hx]
        rw [s.issues_cur, M.bind_ok hfq, M.bind_ok hhd, M.bind_ok htl, M.bind_ok hcap, if_neg (not_not.mpr he), M.run_pure]
      · dsimp only
        rw [if_pos he, M.run_writeX, hcur]
        rfl
    · have hu : u.cur = s.cur := ((keepsM_translateSpan _ _ _ _ _).ok hp).cur.trans hcur
      have hv : v.cur = s.cur := ((keepsM_storeVa _ _ _ _).ok hst).cur.trans hu
      refine runCc_behind hs (t := u) (x := (fq, hd, tl, bits cap 0 4)) ?_ ?_ hv
      · simp only [M.bind_get, M.bind_readX, hx]
        rw [s.issues_cur, M.bind_ok hfq, M.bind_ok hhd, M.bind_ok htl, M.bind_ok hcap, if_pos he, M.bind_ok hp, M.run_pure]
      · dsimp only
        rw [if_neg he, M.bind_get, hu, M.bind_ok hst, M.run_writeX, hv]
  · intro ctx w1 w3 res pin hrep good
    obtain ⟨depth, t1, hdepth, hrep⟩ := M.bind_cases hrep
    obtain ⟨cap, t2, hcap, hrep⟩ := M.bind_cases hrep
    obtain ⟨x3, t3, hreplay, hrep⟩ := M.bind_cases hrep
    rw [M.run_pure] at hrep
    cases hrep
    have hcur : u.cur = s.cur := ((keepsM_ctxWord _ _ _).ok hreplay).cur.trans (((keepsM_ctxWord _ _ _).ok hcap).cur.trans
      (((keepsM_ctxWord _ _ _).ok hdepth).cur.trans (((keepsM_loadBlock _ _ _).ok hrec).cur.trans s.issues_cur)))
    refine ⟨fun hg => ?_, fun x y hg hp hst => ?_⟩
    all_goals
      have hgood := replayGood_iff (res := res) (slot := bits w3 0 16) (rcap := bits cap 48 16) (fdepth := bits w1 32 8) (depth := bits depth 0 8)
        (Nat.mod_lt _ (by decide))
      change execVcrep a s = _
      refine (runJump_super hsuper).trans ?_
    · refine runJump_irrevocable_trap hs ?_
      simp only [M.bind_get, M.bind_readX, hx]
      rw [if_neg (not_not.mpr hal), s.issues_cur, M.bind_ok hrec, M.bind_ok hdepth, M.bind_ok hcap, M.bind_ok hreplay, if_pos, M.bind_illegal, hcur]
      have := mt hgood.mp hg
      simpa only [replayGood, Bool.not_eq_true', Bool.not_eq_false] using this
    · have hxc : x.cur = s.cur := ((keepsM_translateSpan _ _ _ _ _).ok hp).cur.trans hcur
      have hyc : y.cur = s.cur := ((keepsM_storeVa _ _ _ _).ok hst).cur.trans hxc
      have hdep : bits w1 32 8 = bits depth 0 8 := hg.2.2.2
      refine runJump_irrevocable hs (t := x) (x := (ctx, w1, bits w1 32 8, pin, replay)) (u := y.modBank id _) ?_ ?_ hyc
      · simp only [M.bind_get, M.bind_readX, hx]
        rw [if_neg (not_not.mpr hal), s.issues_cur, M.bind_ok hrec, M.bind_ok hdepth, M.bind_ok hcap, M.bind_ok hreplay, if_neg]
        · rw [← hdep] at hp
          rw [M.bind_ok hp, M.run_pure]
        · have := hgood.mpr hg
          simpa only [replayGood, Bool.not_eq_true', Bool.not_eq_true] using this
      · dsimp only
        rw [hdep, M.bind_get, hxc, M.bind_ok hst]
        simp only [M.bind_writeX, M.bind_modCur, M.run_pure, State.modBank_modBank, State.modBank_cur, hyc]
        rfl
  · change execVcsync a s = _
    refine runCc_wait ?_
    simp only [M.bind_get, M.bind_curBank]
    rw [if_pos (show (s.bank s.cur.bid).committed < (s.bank s.cur.bid).phase from h), M.bind_waitMore]
  · change execVcsync a s = _
    have hy : CoresKept s y := (CoresKept.of_translated (translateSpan_frame h1)).trans ((CoresKept.of_translated (translate_frame h2)).trans
      ((storeVa_coresKept h3).trans (storeVa_coresKept h4)))
    refine runCc_modBank (t := y) (f := fun b => { b with dom := joinAll b.dom (s.committedDom s.cur.bid) }) ?_ hy.cur
      (by rw [← hy.core])
    simp only [M.bind_get, M.bind_curBank]
    rw [if_neg (show ¬ (s.bank s.cur.bid).committed < (s.bank s.cur.bid).phase from Nat.not_lt.mpr h), M.bind_readX, M.bind_ok h1, M.bind_ok h2,
      M.bind_ok h3, M.bind_ok h4, M.run_modCur, hy.cur]

/-- Settles O30: what the checks read decides the effect, and each load and store leaves the same bank in execution. -/
theorem supervisorQueues : Obligations.SupervisorQueues := ⟨faultQueueForms, contextForms⟩

end Sys2Proof.Proofs
end

-- ==== Words that every engine has (O31, O33, O35) ====
section
/-! SUPPORT. Words that every engine has: how an engine goes on, calls and marks, tokens and data queues (R157, R250, R266 to R270). -/

namespace Sys2Proof.Machine

-- One proof at a time: the whole text compiles in one process of bounded memory.
set_option Elab.async false

/-! ### The end of an entry -/

/-- What an engine that passes boundaries keeps: its registers and entry, and all of its bank but checkpoints. -/
structure Bank.Passed (b c : Bank) (e : Engine) : Prop where
  entry : (c.engine e).entry = (b.engine e).entry
  stopped : (c.engine e).stopped = (b.engine e).stopped
  regs : (c.engine e).regs = (b.engine e).regs
  other : ∀ o, o ≠ e → c.engine o = b.engine o
  core : c.core = b.core
  dq : c.dq = b.dq

theorem Bank.Passed.refl (b : Bank) (e : Engine) : b.Passed b e := ⟨rfl, rfl, rfl, fun _ _ => rfl, rfl, rfl⟩

theorem Bank.Passed.trans {b c d : Bank} {e : Engine} (h : b.Passed c e) (k : c.Passed d e) : b.Passed d e :=
  ⟨k.entry.trans h.entry, k.stopped.trans h.stopped, k.regs.trans h.regs, fun o ho => (k.other o ho).trans (h.other o ho),
    k.core.trans h.core, k.dq.trans h.dq⟩

theorem Bank.Passed.passBoundary (e : Engine) : ∀ (n : Nat) (b : Bank), b.Passed (b.passBoundary e n) e
  | 0, b => Bank.Passed.refl b e
  | n + 1, b => by
    unfold Bank.passBoundary
    dsimp only
    split
    · exact Bank.Passed.refl b e
    · split
      next p _ _ rest _ =>
        refine Bank.Passed.trans (c := (b.enginePart e p).setEngine e { b.engine e with queue := rest, phase := p }) ?_
          (Bank.Passed.passBoundary e n _)
        exact ⟨by rw [Bank.engine_setEngine, if_pos rfl], by rw [Bank.engine_setEngine, if_pos rfl],
          by rw [Bank.engine_setEngine, if_pos rfl], fun o ho => by rw [Bank.engine_setEngine, if_neg ho.symm]; rfl, rfl, rfl⟩
      · exact Bank.Passed.refl b e

/-- What an entry that ends leaves. -/
theorem endEntry_passed (b : Bank) (e : Engine) : Bank.Passed
    (b.modEngine e (fun g => { g with entry := none, stopped := none, regs := { g.regs with upc := none } })) (b.endEntry e) e :=
  Bank.Passed.passBoundary e 3 _

theorem flow_ret (s : State) (bid : Nat) (e : Engine) : s.flow bid e .ret = s.setBank bid ((s.bank bid).endEntry e) := rfl

theorem flow_some {s : State} {bid : Nat} {e : Engine} {f : Flow} {b : Bank} (h : (s.bank bid).flowed e f = some b) :
    s.flow bid e f = s.setBank bid b := by
  unfold State.flow
  rw [h]

/-! ### Calls and marks -/

theorem exec_call (s : State) : exec .call s = execCall s := rfl
theorem exec_ret (s : State) : exec .ret s = execRet s := rfl
theorem exec_mark (s : State) : exec .mark s = execMark s := rfl
theorem exec_fsel (f : BitVec 4) (s : State) : exec (.fsel f) s = execFsel f s := rfl

section CallWords

variable {s : State} {e : Engine} {a : Word} {rest : List Word} (he : s.cur.eng = some e)
include he

theorem execCall_bad_of_empty (hst : (s.ownRegs e).pstack = []) : execCall s = .next (s.faultEnd s.cur.bid e 0x10) := by
  refine runWord_illegal he ?_
  rw [M.bind_curEng, M.bind_error (run_operands_empty hst)]

theorem execMark_bad_of_empty (hst : (s.ownRegs e).pstack = []) : execMark s = .next (s.faultEnd s.cur.bid e 0x10) := by
  refine runWord_illegal he ?_
  rw [M.bind_error (run_operands_empty hst)]

/-- A call beyond the store, or with the return stack full, pops nothing. -/
theorem execCall_bad (hst : (s.ownRegs e).pstack = a :: rest) (hroom : rest.length ≤ 8)
    (h : 8191 < a.toNat ∨ 4 ≤ (s.ownRegs e).rstack.length) : execCall s = .next (s.faultEnd s.cur.bid e 0x10) := by
  refine runWord_illegal he ?_
  have hbad : (decide (lastWord < a.toNat) || decide (returnDepth ≤ (s.ownRegs e).rstack.length)) = true := by
    rw [Bool.or_eq_true, decide_eq_true_eq, decide_eq_true_eq]
    exact h
  rw [M.bind_curEng, M.bind_ok (run_operands_one hst hroom)]
  dsimp only
  rw [State.regs_eq_ownRegs, if_pos hbad, M.bind_illegalWord]

/-- A call goes to its target with the return address pushed, where the word has one. -/
theorem execCall_ends (hst : (s.ownRegs e).pstack = a :: rest) (hroom : rest.length ≤ 8) (ha : a.toNat ≤ 8191)
    (hr : (s.ownRegs e).rstack.length < 4) :
    execCall s = .next (s.wordEnds e (fun r => { r with
      pstack := r.pstack.drop 1
      rstack := ((s.ownRegs e).upc.map (· + 1)).toList ++ r.rstack }) (.goto a.toNat)) := by
  refine runWord_modRegs he ?_
  have hgood : ¬ (decide (lastWord < a.toNat) || decide (returnDepth ≤ (s.ownRegs e).rstack.length)) = true := by
    rw [Bool.or_eq_true, decide_eq_true_eq, decide_eq_true_eq]
    exact fun h => h.elim (Nat.not_lt.mpr ha) (Nat.not_le.mpr hr)
  rw [M.bind_curEng, M.bind_ok (run_operands_one hst hroom)]
  dsimp only
  rw [State.regs_eq_ownRegs, if_neg hgood, M.bind_restack]
  cases hu : (s.ownRegs e).upc with
  | none => simp
  | some u => simp [Eng.modRegs_modRegs]

end CallWords

/-! ### Tokens and data queues -/

theorem exec_tokw (o : Engine) (s : State) : exec (.tokw o) s = execTokw o s := rfl
theorem exec_tokr (o : Engine) (s : State) : exec (.tokr o) s = execTokr o s := rfl
theorem exec_qin (q : BitVec 3) (s : State) : exec (.qin q) s = execQin q s := rfl
theorem exec_qout (q : BitVec 3) (s : State) : exec (.qout q) s = execQout q s := rfl

/-- A word that waits before it changes anything changes nothing. -/
theorem runWord_wait {body : Engine → M Flow} {s t : State} {e : Engine} (he : s.cur.eng = some e) (h : (body e).run s = .error .wait t) :
    runWord body s = .next t := by
  simp only [runWord, he, h]
  rfl

/-- The bank in execution of an engine word, as its engine pops `n` entries and pushes others. -/
theorem restack_run {s : State} {e : Engine} {n : Nat} {push : List Word} (f : Bank → Bank) :
    (restack e n push).run (s.modBank s.cur.bid f)
      = .ok () (s.modBank s.cur.bid (fun b => (f b).modEngine e (fun g => g.modRegs (fun r => { r with pstack := push ++ r.pstack.drop n })))) := by
  rw [M.run_restack, State.modBank_cur, State.modBank_modBank]

theorem queueFront_empty {s : State} {e : Engine} {q : BitVec 3} (h : s.own.queueOf q = []) : (queueFront e q).run s = .error .wait s := by
  unfold queueFront
  rw [M.bind_curBank, show (s.bank s.cur.bid).queueOf q = [] from h]
  rfl

/-- The head of a queue is taken once it has been compared. -/
theorem queueFront_run {s : State} {e : Engine} {q : BitVec 3} {v : Elem} {rest : List Elem} (h : s.own.queueOf q = v :: rest)
    (hv : v.bad = false) :
    (queueFront e q).run s = if PMap.get 0 (s.own.engine e).checked q.toNat = 0 then .error .wait s else .ok v s := by
  unfold queueFront
  rw [M.bind_curBank, show (s.bank s.cur.bid).queueOf q = v :: rest from h]
  dsimp only
  split
  · rw [M.bind_waitMore]
  · rw [hv, if_neg Bool.false_ne_true, M.run_pure]

/-- What an engine pushes to a queue: a follower's goes nowhere, any other waits for room. -/
theorem deliver_follower {s : State} {e : Engine} {q : BitVec 3} {v : Word} {valid : Bool} (h : s.handleBank s.cur.bid ≠ s.cur.bid) :
    (deliver e q v valid).run s = .ok () s := by
  have hd : delivers.run s = .ok false s := by
    unfold delivers
    rw [M.bind_get, M.run_pure, decide_eq_false h]
  unfold deliver
  rw [M.bind_ok hd]
  rfl

theorem deliver_run {s : State} {e : Engine} {q : BitVec 3} {v : Word} {valid : Bool} (h : s.handleBank s.cur.bid = s.cur.bid) :
    (deliver e q v valid).run s = if 32 ≤ (s.own.queueOf q).length then .error .wait s
      else .ok () (s.modBank s.cur.bid (·.pushElem q ⟨v, valid, (s.own.engine e).phase, false⟩)) := by
  have hd : delivers.run s = .ok true s := by
    unfold delivers
    rw [M.bind_get, M.run_pure, decide_eq_true h]
  unfold deliver
  rw [M.bind_ok hd, if_pos rfl, M.bind_curBank]
  change EStateM.run (if 32 ≤ (s.own.queueOf q).length then _ else _) s = _
  split
  · rw [M.bind_waitMore]
  · rfl

end Sys2Proof.Machine

namespace Sys2Proof.Proofs
open Sys2Proof Sys2Proof.Machine

/-- Settles O31, by the cases of how a word ends; the end of an entry passes boundaries, which keeps all but checkpoints. -/
theorem engineFlow : Obligations.EngineFlow := by
  unfold Obligations.EngineFlow
  intro s bid e g t
  have hp := endEntry_passed (s.bank bid) e
  have hret : ∀ m, (t .ret).bank m = if bid = m then (s.bank bid).endEntry e else s.bank m := fun m => State.bank_setBank ..
  refine ⟨fun u hu hlt => flow_some ?_, fun hu => ?_, fun a => rfl, fun hu => ?_, ?_, ?_, ?_, fun o ho => ?_, ?_, ?_, fun m hm => ?_, rfl, rfl⟩
  · unfold Bank.flowed
    simp only [show ((s.bank bid).engine e).regs.upc = some u from hu, Nat.not_le.mpr hlt, if_false]
    rfl
  · have hnone : (s.bank bid).flowed e .next = none := by
      unfold Bank.flowed
      simp only [show ((s.bank bid).engine e).regs.upc = some 8191 from hu, Nat.le_refl, if_true]
    change s.flow bid e .next = _
    unfold State.flow
    rw [hnone]
    rfl
  · refine flow_some ?_
    unfold Bank.flowed
    simp only [show ((s.bank bid).engine e).regs.upc = none from hu]
  all_goals rw [hret]
  · rw [if_pos rfl, hp.entry, Bank.engine_modEngine, if_pos rfl]
  · rw [if_pos rfl, hp.stopped, Bank.engine_modEngine, if_pos rfl]
  · rw [if_pos rfl, hp.regs, Bank.engine_modEngine, if_pos rfl]
  · rw [if_pos rfl, hp.other o ho, Bank.engine_modEngine, if_neg ho.symm]
  · rw [if_pos rfl, hp.core]
    rfl
  · rw [if_pos rfl, hp.dq]
    rfl
  · rw [if_neg hm.symm]

/-- Settles O33, by whether the operand is there, the target in the store and the return stack not full. -/
theorem callWords : Obligations.CallWords := by
  unfold Obligations.CallWords
  simp only [exec_call, exec_ret, exec_mark, exec_fsel]
  intro s e he
  refine ⟨fun a rest hst hroom => ⟨fun ha hr => ⟨fun u hu => ?_, fun hu => ?_⟩, execCall_bad he hst hroom, ?_⟩,
    fun hst => ⟨execCall_bad_of_empty he hst, execMark_bad_of_empty he hst⟩, fun hr => ?_, fun a rest hr => ?_, fun f => ?_, rfl, rfl⟩
  · rw [execCall_ends he hst hroom ha hr, hu]
    rfl
  · rw [execCall_ends he hst hroom ha hr, hu]
    rfl
  · refine runWord_ok he ?_
    rw [M.bind_ok (run_operands_one hst hroom)]
    simp only [M.bind_restack, M.bind_modEng, M.run_pure, State.modBank_modBank, Bank.modEngine_modEngine, State.modBank_cur]
    rfl
  · refine runWord_ok he ?_
    rw [M.bind_curEng, State.regs_eq_ownRegs, hr]
    rfl
  · refine runWord_modRegs he ?_
    rw [M.bind_curEng, State.regs_eq_ownRegs, hr]
    rfl
  · exact runWord_modRegs he rfl

/-- Settles O35, by what each word finds: tokens, an element, room. -/
theorem queueWords : Obligations.QueueWords := by
  unfold Obligations.QueueWords
  simp only [exec_tokw, exec_tokr, exec_qin, exec_qout]
  intro s e o q he
  have hpush : (s.ownRegs e).pstack.length < 8 → (operands e 0 1).run s = .ok [] s := fun h => run_operands (ops := []) rfl rfl h
  refine ⟨fun h => ?_, fun h => ?_, fun p rest h => ?_, fun h => ?_, fun v rest hq hst hv => ⟨fun hc => ?_, fun hc => ?_⟩, fun hq hst => ?_,
    fun v rest hst hroom => ⟨fun hl hq => ?_, fun hl hq => ?_, fun hl => ?_⟩⟩
  · refine runWord_ok he ?_
    rw [M.bind_curBank, if_neg (show ¬ tokenDepth ≤ _ from Nat.not_le.mpr h)]
    rfl
  · refine runWord_wait he ?_
    rw [M.bind_curBank, if_pos (show tokenDepth ≤ _ from h), M.bind_waitMore]
  · refine runWord_ok he ?_
    rw [M.bind_curBank, show (s.bank s.cur.bid).tokens o e = p :: rest from h]
    rfl
  · refine runWord_wait he ?_
    rw [M.bind_curBank, show (s.bank s.cur.bid).tokens o e = [] from h]
    rfl
  · refine runWord_ok he ?_
    rw [M.bind_ok (hpush hst), M.bind_ok ((queueFront_run hq hv).trans (if_neg hc)), M.bind_modCur, M.bind_ok (restack_run _), M.run_pure]
  · refine runWord_wait he ?_
    rw [M.bind_ok (hpush hst), M.bind_error ((queueFront_run hq hv).trans (if_pos hc))]
  · refine runWord_wait he ?_
    rw [M.bind_ok (hpush hst), M.bind_error (queueFront_empty hq)]
  · refine runWord_ok he ?_
    rw [M.bind_ok (run_operands_one hst hroom)]
    dsimp only
    rw [M.bind_ok ((deliver_run hl).trans (if_neg (Nat.not_le.mpr hq))), M.bind_ok (restack_run _), M.run_pure]
  · refine runWord_wait he ?_
    rw [M.bind_ok (run_operands_one hst hroom)]
    dsimp only
    rw [M.bind_error ((deliver_run hl).trans (if_pos hq))]
  · refine runWord_ok he ?_
    rw [M.bind_ok (run_operands_one hst hroom)]
    dsimp only
    rw [M.bind_ok (deliver_follower hl), M.bind_restack, M.run_pure]

end Sys2Proof.Proofs
end

-- ==== Region registers (O43) ====
section
/-! SUPPORT. Region registers, their rotation, and stage predicates (R290 to R292, R299). -/

namespace Sys2Proof.Machine

-- One proof at a time: the whole text compiles in one process of bounded memory.
set_option Elab.async false

theorem exec_dset (n : BitVec 5) (s : State) : exec (.dset n) s = execDset n s := rfl
theorem exec_dget (n : BitVec 5) (s : State) : exec (.dget n) s = execDget n s := rfl
theorem exec_rotD (s : State) : exec .rotD s = execRotD s := rfl
theorem exec_pgs (n : BitVec 3) (s : State) : exec (.pgs n) s = execPgs n s := rfl

/-- A word that pops two entries takes the top two. -/
theorem run_operands_two {s : State} {e : Engine} {v w : Word} {rest : List Word} (hst : (s.ownRegs e).pstack = v :: w :: rest)
    (hroom : rest.length ≤ 8) : (operands e 2 0).run s = .ok [v, w] s := run_operands (ops := [v, w]) hst rfl hroom

/-- The fields that `dset` requires of geom and base. -/
def regionRefused (g b : Word) : Bool :=
  bits g.toNat 48 15 ≠ 0 || bits g.toNat 0 16 = 0 || bits b.toNat 0 8 ≠ 0 || (!bit g.toNat 63 && bits b.toNat 26 38 ≠ 0)

theorem regionRefused_iff {g b : Word} : regionRefused g b = false ↔
    bits g.toNat 48 15 = 0 ∧ bits g.toNat 0 16 ≠ 0 ∧ bits b.toNat 0 8 = 0 ∧ (bit g.toNat 63 = false → bits b.toNat 26 38 = 0) := by
  cases h : bit g.toNat 63 <;> simp [regionRefused, h, and_assoc]

section RegionWords

variable {s : State} (he : s.cur.eng = some .vx) {g b l p : Word} {rest : List Word}
include he

theorem execDset_ends (n : BitVec 5) (hst : (s.ownRegs .vx).pstack = g :: b :: rest) (hroom : rest.length ≤ 8) (h : regionRefused g b = false) :
    execDset n s = .next (s.wordEnds .vx (fun r =>
      EngRegs.bsrReset { r with pstack := r.pstack.drop 2, regions := r.regions.set n.toFin ⟨b, g⟩ } (· = n.toNat)) .next) := by
  refine runWord_modRegs he ?_
  rw [M.bind_ok (run_operands_two hst hroom)]
  dsimp only
  rw [if_neg]
  · simp only [M.bind_restack, M.bind_modRegs, M.run_pure, State.modBank_modBank, Bank.modEngine_modEngine, Eng.modRegs_modRegs,
      State.modBank_cur]
    rfl
  · exact fun e => Bool.false_ne_true (h.symm.trans e)

theorem execDset_bad (n : BitVec 5) (hst : (s.ownRegs .vx).pstack = g :: b :: rest) (hroom : rest.length ≤ 8) (h : regionRefused g b = true) :
    execDset n s = .next (s.faultEnd s.cur.bid .vx 0x10) := by
  refine runWord_illegal he ?_
  rw [M.bind_ok (run_operands_two hst hroom)]
  dsimp only
  rw [if_pos, M.bind_illegalWord]
  exact h

theorem execPgs_ends (n : BitVec 3) (hst : (s.ownRegs .vx).pstack = l :: p :: rest) (hroom : rest.length ≤ 8) (h : l.toNat ≤ 65535) :
    execPgs n s = .next (s.wordEnds .vx (fun r =>
      { r with pstack := r.pstack.drop 2, pg := r.pg.set n.toFin ⟨p.setWidth 16, l.setWidth 16⟩ }) .next) := by
  refine runWord_modRegs he ?_
  rw [M.bind_ok (run_operands_two hst hroom)]
  dsimp only
  rw [if_neg (Nat.not_lt.mpr h)]
  simp only [M.bind_restack, M.bind_modRegs, M.run_pure, State.modBank_modBank, Bank.modEngine_modEngine, Eng.modRegs_modRegs, State.modBank_cur]
  rfl

theorem execPgs_bad (n : BitVec 3) (hst : (s.ownRegs .vx).pstack = l :: p :: rest) (hroom : rest.length ≤ 8) (h : 65535 < l.toNat) :
    execPgs n s = .next (s.faultEnd s.cur.bid .vx 0x10) := by
  refine runWord_illegal he ?_
  rw [M.bind_ok (run_operands_two hst hroom)]
  dsimp only
  rw [if_pos h, M.bind_illegalWord]

end RegionWords

/-- The word of a form whose modifier is a region register. -/
theorem toNat_regionWord (op : BitVec 6) (n : BitVec 5) : (opWord op (0#4 ++ n)).toNat = 512 * op.toNat + n.toNat := by
  rw [toNat_opWord, BitVec.toNat_append]
  simp

/-- The word of a form whose modifier is a stage predicate. -/
theorem toNat_predicateWord (op : BitVec 6) (n : BitVec 3) : (opWord op (0#6 ++ n)).toNat = 512 * op.toNat + n.toNat := by
  rw [toNat_opWord, BitVec.toNat_append]
  simp

end Sys2Proof.Machine

namespace Sys2Proof.Proofs
open Sys2Proof Sys2Proof.Machine

theorem regionWords : Claim.RegionWords := by
  unfold Claim.RegionWords
  simp only [exec_dset, exec_dget, exec_rotD, exec_pgs]
  intro s he
  refine ⟨fun n g b rest hst hroom => ⟨fun h => execDset_ends he n hst hroom (regionRefused_iff.mpr h), fun h => ?_⟩, fun n hroom => ?_, ?_,
    fun n l p rest hst hroom => ⟨execPgs_ends he n hst hroom, execPgs_bad he n hst hroom⟩,
    fun n => ⟨toNat_regionWord 0x31#6 n, toNat_regionWord 0x32#6 n⟩, rfl, fun n => toNat_predicateWord 0x33#6 n⟩
  · refine execDset_bad he n hst hroom ?_
    rw [← Bool.not_eq_false, regionRefused_iff]
    exact h
  · have hops : (operands .vx 0 2).run s = .ok [] s := run_operands (ops := []) rfl rfl (Nat.add_le_add_right hroom 2)
    refine runWord_modRegs he ?_
    rw [M.bind_ok hops]
    rfl
  · exact runWord_modRegs he rfl

theorem regionRotation : Claim.RegionRotation := by
  unfold Claim.RegionRotation
  intro r
  have hreg : ∀ {r : EngRegs} {n : Nat} (h : n < 32), r.region n = r.regions[n] := fun {r n} h => by
    rw [EngRegs.region, List.getD_eq_getElem _ _ (by rw [Vector.length_toList]; exact h), Vector.getElem_toList]
  have hrot : ∀ {n : Nat} (h : n < 32), r.rotate.region n
      = if n < 16 then r.regions[n] else if n = 16 then r.regions[31] else r.regions[n - 1] := fun {n} h => by
    rw [hreg h]
    exact Vector.getElem_ofFn _
  refine ⟨fun i hi => ⟨?_, ?_⟩, fun j hj => ?_, ?_, rfl⟩
  · rw [hrot (by omega), if_neg (by omega), hreg (by omega)]
    by_cases h : i = 15
    · subst h
      rfl
    · rw [if_neg (by omega)]
      congr 1
      omega
  · rw [hrot (by omega), if_pos hi, hreg (by omega)]
  · have h : r.rotate.pg[j] = if j.val < 2 then r.pg[j] else r.pg[j.val - 1] := Vector.getElem_ofFn _
    rw [h, if_neg (by omega)]
  · have h : r.rotate.pg[(1 : Fin 8)] = if (1 : Fin 8).val < 2 then r.pg[(1 : Fin 8)] else r.pg[(1 : Fin 8).val - 1] := Vector.getElem_ofFn _
    rw [h, if_pos (by decide)]

/-- Settles O43, by the words' fields and by the places of a rotation. -/
theorem regions : Obligations.Regions := ⟨regionWords, regionRotation⟩

end Sys2Proof.Proofs
end

-- ==== Elements of the vector engine (O40, O41) ====
section
/-! SUPPORT. Elements of the vector engine: exact integers, and which elements an elementwise word writes (R292 to R298). -/

namespace Sys2Proof.Machine

-- One proof at a time: the whole text compiles in one process of bounded memory.
set_option Elab.async false

/-! ### Integers -/

theorem signedOf_eq_toInt {w : Nat} (v : Nat) : signedOf w v = (BitVec.ofNat w v).toInt := by
  unfold signedOf
  dsimp only
  rw [bit_eq_testBit, BitVec.toInt_eq_msb_cond, BitVec.msb_eq_getLsbD_last, BitVec.getLsbD, BitVec.toNat_ofNat]
  push_cast
  rfl

/-- Two's-complement bits give back a value of their range. -/
theorem signedOf_unsignedOf {w : Nat} {v : Int} (hlo : -(2 ^ w : Int) ≤ v) (hhi : v < 2 ^ w) : signedOf (w + 1) (unsignedOf (w + 1) v) = v := by
  have hb : BitVec.ofNat (w + 1) (unsignedOf (w + 1) v) = BitVec.ofInt (w + 1) v := by
    apply BitVec.eq_of_toNat_eq
    have h0 : 0 ≤ v % (2 ^ (w + 1) : Int) := Int.emod_nonneg _ (by positivity)
    have hlt : v % (2 ^ (w + 1) : Int) < 2 ^ (w + 1) := Int.emod_lt_of_pos _ (by positivity)
    rw [BitVec.toNat_ofNat, BitVec.toNat_ofInt, unsignedOf, Nat.mod_eq_of_lt]
    · norm_cast
    · zify
      rw [Int.toNat_of_nonneg h0]
      exact hlt
  have hp : ((2 ^ (w + 1) : Nat) : Int) = 2 * 2 ^ w := by
    push_cast
    ring
  rw [signedOf_eq_toInt, hb, BitVec.toInt_ofInt]
  apply Int.bmod_eq_of_le <;> omega

theorem saturate_saturatesTo (w : Nat) (v : Int) : saturatesTo (w + 1) v (saturate (w + 1) flagOF v) := by
  have hpos : (0 : Int) < 2 ^ w := by positivity
  unfold saturatesTo saturate intLow intHigh
  rw [Nat.add_sub_cancel]
  refine ⟨fun h => ?_, fun h => ?_, fun hlo hhi => ?_⟩
  · rw [if_pos h]
    exact ⟨signedOf_unsignedOf le_rfl (by omega), rfl⟩
  · rw [if_neg (by omega), if_pos (by omega)]
    exact ⟨signedOf_unsignedOf (by omega) (by omega), rfl⟩
  · rw [if_neg (by omega), if_neg (by omega)]
    exact ⟨signedOf_unsignedOf hlo hhi, rfl⟩

/-- The value of an element lies in the range of its format. -/
theorem signedOf_bounds (w v : Nat) : -(2 ^ w : Int) ≤ signedOf (w + 1) v ∧ signedOf (w + 1) v < 2 ^ w := by
  rw [signedOf_eq_toInt]
  exact ⟨BitVec.le_toInt _, BitVec.toInt_lt⟩

/-- A value shifted right stays in its range. -/
theorem signedOf_unsignedOf_shifted {w : Nat} (a k : Nat) :
    signedOf (w + 1) (unsignedOf (w + 1) (signedOf (w + 1) a / 2 ^ k)) = signedOf (w + 1) a / 2 ^ k := by
  obtain ⟨hlo, hhi⟩ := signedOf_bounds w a
  have hk : (0 : Int) < 2 ^ k := by positivity
  have hw : (2 ^ w : Int) ≤ 2 ^ w * 2 ^ k := le_mul_of_one_le_right (by positivity) hk
  refine signedOf_unsignedOf ?_ (Int.ediv_lt_of_lt_mul hk (by omega))
  rw [Int.le_ediv_iff_mul_le hk, neg_mul]
  omega

/-- Integer arithmetic in a format that is no floating-point one. -/
theorem integerElements_of {f w : Nat} (hf : isFloatCode f = false) (hw : codeBits f = w + 1) (a b c : Nat) :
    let n := w + 1
    let v := signedOf n
    saturatesTo n (v a + v b) (elemAdd f a b) ∧ saturatesTo n (v a - v b) (elemSub f a b)
    ∧ saturatesTo n (v a * v b) (elemMul f a b) ∧ saturatesTo n (v a * v b + v c) (elemFma f a b c)
    ∧ saturatesTo n (max (v a) (v b)) (elemMax f a b) ∧ saturatesTo n (min (v a) (v b)) (elemMin f a b)
    ∧ saturatesTo n (v a).natAbs (elemAbs f a) ∧ saturatesTo n (-v a) (elemNeg f a)
    ∧ saturatesTo n (min (max (v a) (v b)) (v c)) (elemClamp f a b c)
    ∧ elemShl f a b = (if n ≤ b then 0 else a * 2 ^ b % 2 ^ n, 0) ∧ elemShr false f a b = (if n ≤ b then 0 else a / 2 ^ b, 0)
    ∧ signedOf n (elemShr true f a b).1 = v a / 2 ^ min b n ∧ (elemShr true f a b).2 = 0 := by
  intro n v
  have hsat : ∀ x, saturatesTo n x (saturated f x) := fun x => by
    unfold saturated
    rw [hw]
    exact saturate_saturatesTo w x
  have hint : ∀ x, intOf f x = v x := fun x => by rw [intOf, hw]
  have hmax : intOf f (elemMax f a b).1 = max (v a) (v b) := by
    rw [hint, elemMax, hf, if_neg Bool.false_ne_true, hint, hint]
    have ha := signedOf_bounds w a
    have hb := signedOf_bounds w b
    exact ((hsat _).2.2 (le_max_of_le_left ha.1) (max_lt ha.2 hb.2)).1
  refine ⟨?_, ?_, ?_, ?_, ?_, ?_, ?_, ?_, ?_, ?_, ?_, ?_, rfl⟩
  case refine_9 =>
    rw [elemClamp, elemMin, hf, if_neg Bool.false_ne_true, hmax, hint]
    exact hsat _
  case refine_10 => rw [elemShl, lowBits, hw]
  case refine_11 => rw [elemShr, if_neg Bool.false_ne_true, hw]
  case refine_12 =>
    rw [elemShr, if_pos rfl, hint, hw]
    push_cast
    exact signedOf_unsignedOf_shifted a (min b n)
  all_goals
    simp only [elemAdd, elemSub, elemMul, elemFma, elemMax, elemMin, elemAbs, elemNeg, hf, Bool.false_eq_true, if_false, hint]
    exact hsat _

/-! ### Elementwise words -/

/-- A body that, where it answers, has left the state as it was. -/
def LooksM {α : Type} (x : M α) : Prop := ∀ s a t, x.run s = .ok a t → t = s

theorem LooksM.pure {α : Type} (a : α) : LooksM (pure a : M α) := fun s _ t h => by
  rw [M.run_pure] at h
  cases h
  rfl

theorem LooksM.illegalWord {α : Type} : LooksM (illegalWord : M α) := fun s _ t h => by
  rw [M.run_illegalWord] at h
  cases h

theorem LooksM.bind {α β : Type} {x : M α} {f : α → M β} (hx : LooksM x) (hf : ∀ a, LooksM (f a)) : LooksM (x >>= f) := fun s b t h => by
  obtain ⟨a, u, h1, h2⟩ := M.bind_cases h
  rw [hf a u b t h2, hx s a u h1]

theorem LooksM.ite {α : Type} {c : Prop} [Decidable c] {x y : M α} (hx : LooksM x) (hy : LooksM y) : LooksM (if c then x else y) := by
  split
  · exact hx
  · exact hy

theorem LooksM.mapM {α β : Type} {f : α → M β} (h : ∀ a, LooksM (f a)) (l : List α) : LooksM (l.mapM f) := by
  induction l with
  | nil => exact LooksM.pure []
  | cons a l ih =>
    rw [List.mapM_cons]
    exact (h a).bind fun _ => ih.bind fun _ => LooksM.pure _

theorem LooksM.regionOperand (r : EngRegs) (n : Word) : LooksM (regionOperand r n) :=
  LooksM.ite (LooksM.illegalWord.bind fun _ => LooksM.ite (LooksM.illegalWord.bind fun _ => LooksM.pure _) (LooksM.pure _))
    (LooksM.ite (LooksM.illegalWord.bind fun _ => LooksM.pure _) (LooksM.pure _))

theorem LooksM.checkForms (k : VForms) (f : Nat) (s : BitVec 2) (q : Bool) : LooksM (checkForms k f s q) :=
  LooksM.ite LooksM.illegalWord (LooksM.pure _)

theorem LooksM.dstOperand (r : EngRegs) (q : Bool) (ops : List Word) : LooksM (dstOperand r q ops) :=
  LooksM.ite (LooksM.pure _) ((LooksM.regionOperand r _).bind fun _ => LooksM.pure _)

theorem LooksM.checkSource (g : Region) (nib n : Nat) : LooksM (checkSource g nib n) := LooksM.ite LooksM.illegalWord (LooksM.pure _)

/-- The destination of a word: none with a queue destination, else a region register that is set. -/
theorem dstOperand_cases {r : EngRegs} {q : Bool} {ops : List Word} {s t : State} {d : Option Region}
    (h : (dstOperand r q ops).run s = .ok d t) :
    (q = true ∧ d = none) ∨ (q = false ∧ d = some (r.region (ops.getD 0 0).toNat) ∧ (r.region (ops.getD 0 0).toNat).count ≠ 0) := by
  unfold dstOperand at h
  cases q with
  | true =>
    rw [if_pos rfl, M.run_pure] at h
    cases h
    exact .inl ⟨rfl, rfl⟩
  | false =>
    rw [if_neg Bool.false_ne_true] at h
    obtain ⟨g, u, hg, h⟩ := M.bind_cases h
    rw [M.run_pure] at h
    cases h
    unfold regionOperand at hg
    split at hg
    · rw [M.bind_illegalWord] at hg
      cases hg
    · dsimp only at hg
      split at hg
      · rw [M.bind_illegalWord] at hg
        cases hg
      next hc =>
        rw [M.run_pure] at hg
        cases hg
        exact .inr ⟨rfl, rfl, hc⟩

/-- The job of an elementwise word. -/
theorem elementPlan_cases {k : VForms} {g : BitVec 3} {q : Bool} {v0 : BitVec 2} {srcs : Nat} {out : Nat → Nat}
    {f : Nat → List Nat → List Nat → Res} {r : EngRegs} {ops : List Word} {v : Word} {s t : State} {job : VJob}
    (h : (elementPlan k g q v0 srcs out f r ops v).run s = .ok job t) :
    t = s ∧ ∃ d nib n reads fn, job = perElement r g q d nib n reads fn ∧ ((q = true ∧ n = 1) ∨ (q = false
      ∧ d = some (r.region (ops.getD 0 0).toNat) ∧ (r.region (ops.getD 0 0).toNat).count ≠ 0 ∧ n = (r.region (ops.getD 0 0).toNat).count)) := by
  unfold elementPlan at h
  obtain ⟨_, s1, h1, k1⟩ := M.bind_cases h
  obtain ⟨d, s2, h2, k2⟩ := M.bind_cases k1
  obtain ⟨_, s3, h3, k3⟩ := M.bind_cases k2
  obtain ⟨_, s4, h4, hjob⟩ := M.bind_cases k3
  clear h k1 k2 k3
  have e1 : s1 = s := LooksM.checkForms _ _ _ _ _ _ _ h1
  have e2 : s2 = s1 := LooksM.dstOperand _ _ _ _ _ _ h2
  have e3 : s3 = s2 := LooksM.mapM (fun _ => LooksM.regionOperand _ _) _ _ _ _ h3
  have e4 : s4 = s3 := LooksM.mapM (fun _ => LooksM.checkSource _ _ _) _ _ _ _ h4
  subst e1 e2 e3 e4
  rcases dstOperand_cases h2 with ⟨hq, rfl⟩ | ⟨hq, rfl, hc⟩
  · dsimp only at hjob
    rw [M.run_pure] at hjob
    cases hjob
    exact ⟨rfl, _, _, _, _, _, rfl, .inl ⟨hq, rfl⟩⟩
  · dsimp only at hjob
    split at hjob
    · rw [M.bind_illegalWord] at hjob
      cases hjob
    · rw [M.run_pure] at hjob
      cases hjob
      exact ⟨rfl, _, _, _, _, _, rfl, .inr ⟨hq, rfl, hc, rfl⟩⟩

theorem map_fst_groupsOf (k : Nat) : ∀ (is vs : List Nat), (groupsOf k is vs).map (·.1) = is
  | [], _ => rfl
  | i :: is, vs => by rw [groupsOf, List.map_cons, map_fst_groupsOf k is]

/-- A job with a region destination writes every on element once, and pushes nothing. -/
theorem perElement_region (r : EngRegs) (g : BitVec 3) (d : Option Region) (nib n : Nat) (reads : Nat → List ElemRef) (f : List Nat → Res)
    (vals : List Nat) : ((perElement r g false d nib n reads f).writes vals).map (·.1) = (List.range n).filter (r.on g)
      ∧ (perElement r g false d nib n reads f).push vals = none := by
  refine ⟨?_, rfl⟩
  unfold perElement
  dsimp only
  rw [if_neg Bool.false_ne_true, List.map_map]
  exact map_fst_groupsOf _ _ _

/-- A job with a queue destination writes nothing, and pushes element 0, or the merge value where it is off. -/
theorem perElement_queue (r : EngRegs) (g : BitVec 3) (d : Option Region) (nib : Nat) (reads : Nat → List ElemRef) (f : List Nat → Res)
    (vals : List Nat) : (perElement r g true d nib 1 reads f).writes vals = []
      ∧ (r.on g 0 = false → (perElement r g true d nib 1 reads f).push vals = some (0, false, 0))
      ∧ (r.on g 0 = true → ∃ x h, (perElement r g true d nib 1 reads f).push vals = some (x, true, h)) := by
  refine ⟨rfl, fun h => ?_, fun h => ?_⟩
  · have hon : (List.range 1).filter (r.on g) = [] := by simp [h]
    unfold perElement
    simp only [hon]
    rfl
  · have hon : (List.range 1).filter (r.on g) = [0] := by simp [h]
    unfold perElement
    simp only [hon]
    exact ⟨_, _, rfl⟩

end Sys2Proof.Machine

namespace Sys2Proof.Proofs
open Sys2Proof Sys2Proof.Machine

/-- Settles O41: in two's complement every exact result is saturated to the width, and both codes are integers. -/
theorem integerElements : Obligations.IntegerElements := by
  unfold Obligations.IntegerElements
  rintro f n (⟨rfl, rfl⟩ | ⟨rfl, rfl⟩) a b c _ _ _
  · exact integerElements_of (f := 5) (w := 7) rfl rfl a b c
  · exact integerElements_of (f := 6) (w := 31) rfl rfl a b c

theorem elementsWritten : Claim.ElementsWritten := by
  unfold Claim.ElementsWritten
  intro s t k g q v0 srcs out f r ops v job vals h
  obtain ⟨ht, d, nib, n, reads, fn, hjob, hcase⟩ := elementPlan_cases h
  subst hjob
  rcases hcase with ⟨rfl, rfl⟩ | ⟨rfl, hd, hc, hn⟩
  · exact ⟨ht, fun hq => (by cases hq), fun _ => perElement_queue r g d nib reads fn vals⟩
  · obtain ⟨hw, hp⟩ := perElement_region r g d nib n reads fn vals
    have hdst : (perElement r g false d nib n reads fn).dst = r.region (ops.getD 0 0).toNat := by
      rw [hd]
      rfl
    refine ⟨ht, fun _ => ⟨?_, hp, hdst, ?_⟩, fun hq => by cases hq⟩
    · rw [hw, hdst, hn]
    · rw [hdst]
      exact hc

theorem stagePredicates : Claim.StagePredicates := by
  unfold Claim.StagePredicates
  intro r g i
  refine ⟨by simp [EngRegs.on], fun hg => ?_⟩
  simp [EngRegs.on, hg]

/-- Settles O40, by the job that an elementwise word makes of its operands. -/
theorem elementwiseWrites : Obligations.ElementwiseWrites := ⟨elementsWritten, stagePredicates⟩

end Sys2Proof.Proofs
end

-- ==== The issue of copy words (O36) ====
section
/-! SUPPORT. The issue of copy words (R64, R65, R71, R271 to R282). -/

namespace Sys2Proof.Machine

-- One proof at a time: the whole text compiles in one process of bounded memory.
set_option Elab.async false

/-- A copy data word issues by its form. -/
theorem exec_copyForm {i : Instr} {c : CopyForm} (h : copyForm i = some c) (s : State) :
    exec i s = runWord (fun _ => issueCopy c.src c.dst c.ring c.pol c.pops c.persist c.plan (fun ops => opAt ops c.dstAt)) s := by
  unfold copyForm at h
  split at h <;> cases h <;> rfl

/-- What a copy word asks for is worked out in the bank in execution. -/
theorem keepsM_copyForm {i : Instr} {c : CopyForm} (h : copyForm i = some c) (ops : List Word) : KeepsM (c.plan ops) := by
  unfold copyForm at h
  split at h
  case h_1 => cases h; exact keepsM_planCpy _ _ ops
  case h_2 => cases h; exact keepsM_planCpy2 _ _ ops
  case h_3 => cases h; exact keepsM_planCpyz _ ops
  case h_4 => cases h; exact keepsM_planGath _ _ ops
  case h_5 => cases h; exact keepsM_planScat _ _ ops
  case h_6 => cases h; exact keepsM_planPfch ops
  case h_7 => cases h; exact keepsM_planCpyg _ ops
  case h_8 => cases h; exact keepsM_planCpy _ _ ops
  case h_9 => cases h; exact keepsM_planFill _ ops
  case h_10 => cases h; exact keepsM_planRfeed _ _ ops
  case h_11 => cases h

theorem begins_fst (pl : CopyPlan) (s : State) :
    (CopyForm.begins pl s).1
      = firstState pl.empty (s.promise pl.empty) ((s.bank s.cur.bid).engine .cx).regs.deadline.toNat := by
  rw [State.regs_eq_ownRegs]
  unfold CopyForm.begins firstState State.promise
  simp only [Bool.and_eq_true, decide_eq_true_eq]

theorem begins_snd (pl : CopyPlan) (s : State) : (CopyForm.begins pl s).2 = s.promise pl.empty := rfl

theorem modBank_congr {s : State} {i : Nat} {f g : Bank → Bank} (h : f (s.bank i) = g (s.bank i)) : s.modBank i f = s.modBank i g := by
  unfold State.modBank
  rw [h]

/-- A copy word that passes every check issues. -/
theorem issueCopy_ok {c : CopyForm} {pl : CopyPlan} {ops : List Word} {s t : State} (hops : (operands .cx c.pops 0).run s = .ok ops s)
    (hplan : (c.plan ops).run s = .ok pl t) (hext : pl.extents.all Extent.ok = true)
    (hstage : pl.extents.find? (·.pastStaging (t.stagingSize (dieOf t.cur.bid))) = none)
    (hslots : c.dst = .ring → ((t.ownRegs .mx).rings[Fin.ofNat 4 c.ring]).slots ≠ 0
      ∧ pl.slot ≤ 256 * ((t.ownRegs .mx).rings[Fin.ofNat 4 c.ring]).size)
    (hfree : c.dst = .ring → pl.empty = false → t.own.ringFull c.ring = false)
    (hprom : ∀ p, PMap.find t.own.proms (t.own.nextWord % 64) = some p → p.state ≠ .promised ∧ p.state ≠ .waiting) :
    (issueCopy c.src c.dst c.ring c.pol c.pops c.persist c.plan (fun ops => opAt ops c.dstAt)).run s
      = .ok .next (t.modBank t.cur.bid (c.issued pl ops t)) := by
  unfold issueCopy
  rw [M.bind_ok hops, M.bind_ok hplan, hext, Bool.not_true, if_neg Bool.false_ne_true, M.bind_get]
  rw [if_neg]
  · simp only [hstage]
    rw [if_neg]
    · have hwaits : ∀ p, (t.bank t.cur.bid).proms.find ((t.bank t.cur.bid).nextWord % 64) = some p →
          ¬ (decide (p.state = .promised) || decide (p.state = .waiting)) = true := fun p hp => by
        obtain ⟨h1, h2⟩ := hprom p hp
        simp [h1, h2]
      cases hp : (t.bank t.cur.bid).proms.find ((t.bank t.cur.bid).nextWord % 64)
      case' none => dsimp only
      case' some p =>
        dsimp only
        rw [if_neg (hwaits p hp)]
      all_goals
        rw [M.bind_restack, M.bind_modRegs, M.bind_modCur]
        simp only [State.modBank_cur, State.modBank_modBank, Bank.modEngine_modEngine, Eng.modRegs_modRegs]
        have hst := begins_fst pl t
        by_cases h : firstState pl.empty (t.promise pl.empty) ((t.bank t.cur.bid).engine .cx).regs.deadline.toNat = .promised
        · rw [if_pos h, M.bind_modCur, M.run_pure]
          refine congrArg _ ((State.modBank_modBank _ _ _ _).trans (modBank_congr ?_))
          unfold CopyForm.issued
          dsimp only
          rw [hst, if_pos h]
          by_cases hd : c.dst = .ring
          · simp only [hd, decide_true, if_true]
            rfl
          · simp only [hd, decide_false, Bool.false_eq_true, if_false, List.append_nil]
            rfl
        · rw [if_neg h, M.run_pure]
          refine congrArg _ (modBank_congr ?_)
          unfold CopyForm.issued
          dsimp only
          rw [hst, if_neg h]
          rfl
    · simp only [Bool.and_eq_true, decide_eq_true_eq, Bool.not_eq_true', not_and]
      rintro ⟨hd, he⟩ hf
      exact Bool.false_ne_true ((hfree hd he).symm.trans hf)
  · simp only [Bool.and_eq_true, decide_eq_true_eq, Bool.or_eq_true, not_and, not_or, Nat.not_lt]
    exact hslots

/-- An extent within a staging size. -/
theorem pastStaging_eq_false {x : Extent} {size : Nat}
    (h : x.kind = .slice → bits x.addr.toNat 0 22 < size ∧ (x.len ≠ 0 → bits x.addr.toNat 0 22 + x.first + x.len ≤ size)) :
    ¬ x.pastStaging size = true := by
  simp only [Extent.pastStaging, Bool.and_eq_true, Bool.or_eq_true, decide_eq_true_eq, ne_eq]
  rintro ⟨hk, hp⟩
  obtain ⟨h1, h2⟩ := h hk
  exact hp.elim (Nat.not_le.mpr h1) fun ⟨hl, hlt⟩ => absurd (h2 hl) (Nat.not_le.mpr hlt)

end Sys2Proof.Machine

namespace Sys2Proof.Proofs
open Sys2Proof Sys2Proof.Machine

theorem copyWordsIssue : Claim.CopyWordsIssue := by
  unfold Claim.CopyWordsIssue
  intro s t i c pl he hc st hpops hlen hplan hext hring hprom
  have hcur : t.cur = s.cur := ((keepsM_copyForm hc _).ok hplan).cur
  have hops : (operands .cx c.pops 0).run s = .ok (st.take c.pops) s :=
    run_operands (rest := st.drop c.pops) (List.take_append_drop _ _).symm (List.length_take_of_le hpops)
      (by rw [List.length_drop]; omega)
  have hrun := issueCopy_ok hops hplan (List.all_eq_true.mpr fun x hx => (hext x hx).1)
    (List.find?_eq_none.mpr fun x hx => pastStaging_eq_false (by rw [hcur]; exact (hext x hx).2))
    (fun hd => ⟨(hring hd).1, (hring hd).2.1⟩) (fun hd => (hring hd).2.2) hprom
  rw [hcur] at hrun
  rw [exec_copyForm hc, runWord_ok he hrun]

theorem deadlineWord : Claim.DeadlineWord := by
  unfold Claim.DeadlineWord
  intro s v rest he hst hroom
  change execDln s = _
  refine runWord_modRegs he ?_
  rw [M.bind_ok (run_operands_one hst hroom)]
  simp only [M.bind_restack, M.bind_modRegs, M.run_pure, State.modBank_modBank, Bank.modEngine_modEngine, Eng.modRegs_modRegs,
    State.modBank_cur]
  rfl

/-- Settles O36: each copy word is one issue by its form. -/
theorem copyIssue : Obligations.CopyIssue := ⟨copyWordsIssue, deadlineWord⟩

end Sys2Proof.Proofs
end

-- ==== The requests of a copy and its completion (O37) ====
section
/-! SUPPORT. The requests of a copy word, and its completion (R64, R66, R81, R126, R274). -/

namespace Sys2Proof.Machine

-- One proof at a time: the whole text compiles in one process of bounded memory.
set_option Elab.async false

/-! ### Pieces -/

/-- Where the pieces at a destination begin: piece `i`, and behind the last one the length. -/
def pieceStart (dst len i : Nat) : Nat := if i = 0 then 0 else min len (64 * i - dst % 64)

theorem pieces_length {dst len : Nat} (h : len ≠ 0) : (pieces dst len).length = (dst % 64 + len + 63) / 64 := by
  unfold pieces
  rw [if_neg h, List.length_map, List.length_range]

/-- A piece goes from its start to the next one's. -/
theorem pieces_getElem? {dst len i : Nat} (h : i < (dst % 64 + len + 63) / 64) (hl : len ≠ 0) :
    (pieces dst len)[i]? = some (pieceStart dst len i, pieceStart dst len (i + 1) - pieceStart dst len i) := by
  unfold pieces pieceStart
  rw [if_neg hl, List.getElem?_map, List.getElem?_range h, Option.map_some, if_neg (Nat.succ_ne_zero i)]
  by_cases h0 : i = 0
  · simp [h0]
  · have : 64 * i - dst % 64 ≤ len := by omega
    simp [h0, this]

/-- The pieces before one reach from 0 to its start. -/
theorem sum_take_pieces {dst len : Nat} (hl : len ≠ 0) : ∀ i, i ≤ (dst % 64 + len + 63) / 64 →
    (((pieces dst len).take i).map (·.2)).sum = pieceStart dst len i
  | 0, _ => rfl
  | i + 1, h => by
    have hlt : i < (dst % 64 + len + 63) / 64 := h
    have hle : pieceStart dst len i ≤ pieceStart dst len (i + 1) := by
      unfold pieceStart
      split
      · exact Nat.zero_le _
      · rw [if_neg (Nat.succ_ne_zero i)]
        omega
    rw [List.take_add_one, pieces_getElem? hlt hl, Option.toList_some, List.map_append, List.sum_append, sum_take_pieces hl i hlt.le,
      List.map_singleton, List.sum_singleton]
    omega

/-! ### Completion -/

/-- Words that wait on nothing are not begun again. -/
theorem foldl_reissueFlight_none {bid : Nat} {l : List Flight} (h : ∀ x ∈ l, x.waiter = none) (s : State) :
    l.foldl (fun s f => s.reissueFlight bid f) s = s := by
  induction l with
  | nil => rfl
  | cons f l ih =>
    have hf : s.reissueFlight bid f = s := by
      unfold State.reissueFlight
      rw [h f (List.mem_cons_self ..)]
    rw [List.foldl_cons, hf]
    exact ih fun x hx => h x (List.mem_cons_of_mem _ hx)

/-- The bank once its first issued word has completed. -/
def Bank.finished (b : Bank) (f : Flight) (rest : List Flight) (window : Nat) : Bank :=
  (({ b with flights := rest }).setProm f.n (fun p => { p with state := .complete })).noteCopyDom f window

theorem setProm_rest (b : Bank) (n : Nat) (f : Prom → Prom) : b.setProm n f = { b with proms := (b.setProm n f).proms } := by
  unfold Bank.setProm
  split <;> rfl

theorem noteCopyDom_rest (b : Bank) (f : Flight) (w : Nat) : b.noteCopyDom f w = { b with copyDom := (b.noteCopyDom f w).copyDom } := by
  unfold Bank.noteCopyDom
  split <;> rfl

theorem finished_rest (b : Bank) (f : Flight) (rest : List Flight) (w : Nat) :
    b.finished f rest w = { b with flights := rest, proms := (b.finished f rest w).proms, copyDom := (b.finished f rest w).copyDom } := by
  unfold Bank.finished
  have h1 := setProm_rest { b with flights := rest } f.n (fun p => { p with state := .complete })
  generalize Bank.setProm _ _ _ = c at h1 ⊢
  have h2 := noteCopyDom_rest c f w
  generalize Bank.noteCopyDom _ _ _ = d at h2 ⊢
  rw [h2, h1]

/-- The promise of a word that has completed says so. -/
theorem prom_finished {b : Bank} {f : Flight} {p : Prom} (rest : List Flight) (w : Nat) (h : b.prom f.n = some p) :
    (b.finished f rest w).prom f.n = some { p with state := .complete } := by
  have hp : ({ b with flights := rest } : Bank).prom f.n = some p := h
  have hn : p.n = f.n := by
    unfold Bank.prom at h
    split at h
    · split at h
      next hn =>
        cases h
        exact hn
      · cases h
    · cases h
  unfold Bank.finished Bank.setProm
  rw [noteCopyDom_rest]
  dsimp only
  rw [hp]
  unfold Bank.prom
  simp [hn]

/-- What raises no error needs no handler. -/
theorem M.tryCatch_ok {α} {x : M α} {f : Stop → M α} {s t : State} {a : α} (h : x.run s = .ok a t) :
    (MonadExcept.tryCatch x f : M α).run s = .ok a t := by
  change EStateM.tryCatch x f s = _
  unfold EStateM.tryCatch
  rw [show x s = _ from h]

/-- The first issued word, once its requests are performed and its stores are persistent, completes. -/
theorem finishHead_ok {s t : State} {bid : Nat} {f h : Flight} {rest more : List Flight} (hf : (s.bank bid).flights = f :: rest)
    (hr : (runReqs bid f f.reqs).run s = .ok () t) (hh : (t.bank bid).flights = h :: more)
    (hd : h.persist = true → ∀ d ∈ t.betony.pending, d.id ∉ h.stores) :
    (finishHead bid).run s = .ok () (t.setBank bid ((t.bank bid).finished h more t.window)) := by
  unfold finishHead
  rw [M.bind_get]
  simp only [hf]
  rw [M.bind_ok hr, M.bind_get]
  simp only [hh]
  rw [if_neg, M.run_set]
  · rfl
  · simp only [Bool.and_eq_true, List.any_eq_true, List.contains_iff_mem]
    rintro ⟨hp, d, hm, hs⟩
    exact hd hp d hm hs

end Sys2Proof.Machine

namespace Sys2Proof.Proofs
open Sys2Proof Sys2Proof.Machine

theorem copyRequests : Claim.CopyRequests := by
  unfold Claim.CopyRequests
  intro dst len
  by_cases hl : len = 0
  · subst hl
    exact ⟨rfl, fun i p h => by cases h⟩
  · have hend : pieceStart dst len ((dst % 64 + len + 63) / 64) = len := by
      unfold pieceStart
      rw [if_neg (by omega)]
      omega
    refine ⟨?_, fun i p h => ?_⟩
    · have h := sum_take_pieces (dst := dst) hl _ le_rfl
      rw [List.take_of_length_le (pieces_length hl).le, hend] at h
      exact h
    · have hi : i < (dst % 64 + len + 63) / 64 := by
        rw [← pieces_length hl]
        exact (List.getElem?_eq_some_iff.mp h).1
      rw [pieces_getElem? hi hl] at h
      cases h
      refine ⟨(sum_take_pieces hl i hi.le).symm, ?_, ?_⟩
      all_goals
        unfold pieceStart
        dsimp only
        rw [if_neg (Nat.succ_ne_zero i)]
        split <;> omega

theorem copyCompletes : Claim.CopyCompletes := by
  unfold Claim.CopyCompletes
  intro s c t bank n f rest hclaim hwait hnext hf hr h more hh hd
  have hhead : (finishHead bank).run (c.modBank bank (·.headFirst n)) = .ok () (t.setBank bank ((t.bank bank).finished h more t.window)) := by
    refine finishHead_ok (rest := rest) ?_ hr hh hd
    rw [State.bank_modBank, if_pos rfl]
    exact hf
  have hfin : (finishFlight bank n).run c = .ok () (t.setBank bank ((t.bank bank).finished h more t.window)) := by
    unfold finishFlight
    rw [M.bind_modify]
    exact M.tryCatch_ok hhead
  have hown : ∀ m, (t.setBank bank ((t.bank bank).finished h more t.window)).bank m
      = if bank = m then (t.bank bank).finished h more t.window else t.bank m := fun m => State.bank_setBank ..
  have hrest := finished_rest (t.bank bank) h more t.window
  refine ⟨t.setBank bank ((t.bank bank).finished h more t.window), ?_, rfl, ?_, fun p hp => ?_, ?_, ?_, fun m hm => ?_⟩
  · change execCopyComplete bank s = .next (t.setBank bank ((t.bank bank).finished h more t.window))
    unfold execCopyComplete
    rw [hclaim]
    dsimp only
    rw [foldl_reissueFlight_none hwait, hnext]
    dsimp only
    rw [hfin]
  · rw [hown, if_pos rfl, hrest]
  · rw [hown, if_pos rfl]
    exact prom_finished more t.window hp
  · rw [hown, if_pos rfl, hrest]
  · rw [hown, if_pos rfl, hrest]
  · rw [hown, if_neg hm.symm]

/-- Settles O37: the pieces telescope, and a word whose requests are performed completes. -/
theorem copyRuns : Obligations.CopyRuns := ⟨copyRequests, copyCompletes⟩

end Sys2Proof.Proofs
end

-- ==== The multiply words (O45) ====
section
/-! SUPPORT. The multiply words: their checks, their start, and a slot pair (R211 to R216, R318 to R321). -/

namespace Sys2Proof.Machine

-- One proof at a time: the whole text compiles in one process of bounded memory.
set_option Elab.async false

/-! ### Tiles -/

theorem Acc.get_put (a : Acc) (bid bank k ix : Nat) (v : Word32) :
    (a.put k v).get bid bank ix = if k = ix then v else a.get bid bank ix := by
  unfold Acc.get Acc.put
  dsimp only
  rw [PMap.find_put]
  by_cases h : k = ix
  · rw [if_pos h, if_pos h]
  · rw [if_neg h, if_neg h]

/-- Elements put at the indices of a list keep every other; an index that the list holds once has its value. -/
theorem Acc.get_foldl_put (bid bank : Nat) (g : Nat × Nat → Word32) (y : Nat × Nat) : ∀ (l : List (Nat × Nat)) (a : Acc),
    (∀ x ∈ l, accIx x.1 x.2 = accIx y.1 y.2 → x = y) →
    (l.foldl (fun c x => c.put (accIx x.1 x.2) (g x)) a).get bid bank (accIx y.1 y.2)
      = if y ∈ l then g y else a.get bid bank (accIx y.1 y.2)
  | [], a, _ => by simp
  | x :: l, a, h => by
    rw [List.foldl_cons, Acc.get_foldl_put bid bank g y l _ fun z hz => h z (List.mem_cons_of_mem x hz), Acc.get_put]
    by_cases hx : x = y
    · subst hx
      simp
    · have hix : accIx x.1 x.2 ≠ accIx y.1 y.2 := fun he => hx (h x (List.mem_cons_self ..) he)
      rw [if_neg hix]
      simp [Ne.symm hx]

theorem mem_tileIxs {m n : Nat} {x : Nat × Nat} : x ∈ tileIxs m n ↔ x.1 < m ∧ x.2 < n := by
  unfold tileIxs
  rw [List.mem_flatten]
  constructor
  · rintro ⟨l, hl, hx⟩
    obtain ⟨i, hi, rfl⟩ := List.mem_map.mp hl
    obtain ⟨j, hj, rfl⟩ := List.mem_map.mp hx
    exact ⟨List.mem_range.mp hi, List.mem_range.mp hj⟩
  · rintro ⟨h1, h2⟩
    exact ⟨_, List.mem_map.mpr ⟨x.1, List.mem_range.mpr h1, rfl⟩, List.mem_map.mpr ⟨x.2, List.mem_range.mpr h2, rfl⟩⟩

/-! ### The checks and the start -/

/-- A multiply word whose operands pass R318 passes its checks. -/
theorem checkMul_ok {k : MulKind} {r : EngRegs} {x : FmtEntry} {a b : Ring} {kk n m : Nat} (h : multiplyOk k r x a b kk n m) (s : State) :
    (checkMul k r x a b kk n m).run s = .ok () s := by
  obtain ⟨hm, hm', hn, hn', hk, hk', hmask, hfmt, hpa, hpb, hdvd, ha, hb, hfa, hfb⟩ := h
  unfold checkMul
  rw [if_neg, if_neg, if_neg, M.run_pure]
  · simp only [Bool.or_eq_true, decide_eq_true_eq, not_or]
    exact ⟨⟨⟨⟨not_not.mpr hdvd, ha⟩, hb⟩, Nat.not_lt.mpr hfa⟩, Nat.not_lt.mpr hfb⟩
  · rw [hfmt, hpa, hpb]
    exact Bool.false_ne_true
  · simp only [Bool.or_eq_true, Bool.and_eq_true, decide_eq_true_eq, not_or, not_and, Option.isNone_iff_eq_none]
    exact ⟨⟨⟨⟨⟨⟨by omega, by omega⟩, by omega⟩, by omega⟩, by omega⟩, by omega⟩, hmask⟩

theorem readTile_ok {s : State} {bid m n : Nat} {b : Bool} (h : tileClean s bid b m n) : (readTile bid b m n).run s = .ok () s := by
  unfold readTile
  rw [M.bind_get, if_neg (ne_true_of_eq_false h)]
  rfl

theorem Bank.clearTile_modEngine (k : Bank) (e : Engine) (f : Eng → Eng) (b : Bool) (m n : Nat) :
    (k.modEngine e f).clearTile b m n = (k.clearTile b m n).modEngine e f := rfl

theorem exec_multiplyWord (k : MulKind) (r c : BitVec 2) (b : Bool) (f : BitVec 4) (l : BitVec 2) (s : State) :
    exec (multiplyWord k r c b f l) s = runWord (fun _ => multiply k r c b f l) s := by
  cases k <;> rfl

theorem M.bind_keepAs {β : Type} (e : Engine) (ops : List Word) (done : Nat) (vals : List Nat) (mul : Option MulJob) (f : Unit → M β)
    (s : State) : (keepAs e ops done vals mul >>= f).run s
      = (f ()).run (s.modBank s.cur.bid (fun b => b.modEngine e (fun g => { g with
          stopped := some { ops := ops, done := done, vals := vals, mul := mul, began := s.beganAt s.cur.bid (some e), waiter := none } }))) := rfl

theorem beganAt_of_running {s : State} {bid : Nat} {e : Engine} (he : e ≠ .cx) (h : ((s.bank bid).engine e).stopped = none) :
    s.beganAt bid (some e) = s.ticks := by
  unfold State.beganAt
  cases e
  case cx => exact absurd rfl he
  all_goals
    dsimp only
    rw [h]

/-- A word that begins has begun in this tick, whatever it has changed of its bank. -/
theorem beganAt_modBank {s : State} {bid : Nat} {e : Engine} {f : Bank → Bank} (he : e ≠ .cx)
    (hf : ((f (s.bank bid)).engine e).stopped = none) : (s.modBank bid f).beganAt bid (some e) = s.ticks :=
  beganAt_of_running he (by rw [State.bank_modBank, if_pos rfl]; exact hf)

theorem run_operands_three {s : State} {e : Engine} {v w x : Word} {rest : List Word} (hst : (s.ownRegs e).pstack = v :: w :: x :: rest)
    (hroom : rest.length ≤ 8) : (operands e 3 0).run s = .ok [v, w, x] s := run_operands (ops := [v, w, x]) hst rfl hroom

/-! ### A slot pair -/

theorem viewing_ok {α : Type} {f : State → State} {x : M α} {s v : State} {a : α} (h : x.run (f s) = .ok a v) :
    (viewing f x).run s = .ok a s := by
  unfold viewing
  rw [M.bind_get, h]
  rfl

/-- The ring heads of a slot pair are popped. -/
def EngRegs.popPair (r : EngRegs) (j : MulJob) : EngRegs := (r.onRing (ringA j.rings) Ring.pop).onRing (ringB j.rings) Ring.pop

/-- The tile of a multiply word takes the sums of a slot pair. -/
def EngRegs.addTile (r : EngRegs) (j : MulJob) (bid m n gs : Nat) (take : Nat → Nat → Bool) (rows cols : List (List MxElem)) : EngRegs :=
  r.setAcc j.bank ((r.acc j.bank).mapTile bid (b2n j.bank) m n (fun i k v => if take i k then addPair gs rows cols i k v else v))

section SlotPair

variable {s : State} {bid : Nat} {j : MulJob} {m n kk : Nat}

theorem slotPair_wait (h : ((s.bank bid).engine .mx).regs.rings[ringA j.rings].filled = 0
    ∨ ((s.bank bid).engine .mx).regs.rings[ringB j.rings].filled = 0) : (slotPair bid j m n kk).run s = .error .wait s := by
  unfold slotPair
  rw [M.bind_get, if_pos (by simpa using h), M.bind_waitMore]

/-- Under `hold` a slot pair is popped only. -/
theorem slotPair_hold (ha : ((s.bank bid).engine .mx).regs.rings[ringA j.rings].filled ≠ 0)
    (hb : ((s.bank bid).engine .mx).regs.rings[ringB j.rings].filled ≠ 0) (hj : j.start = 3#2) :
    (slotPair bid j m n kk).run s = .ok () (s.modBank bid (fun b => b.modEngine .mx (·.modRegs (·.popPair j)))) := by
  unfold slotPair
  rw [M.bind_get, if_neg (by simpa using ⟨ha, hb⟩), if_neg (not_not.mpr hj)]
  rfl

theorem slotPair_add {rows cols : List (List MxElem)} {v w : State} (ha : ((s.bank bid).engine .mx).regs.rings[ringA j.rings].filled ≠ 0)
    (hb : ((s.bank bid).engine .mx).regs.rings[ringB j.rings].filled ≠ 0) (hj : j.start ≠ 3#2) (hclean : tileClean s bid j.bank m n) :
    let r := ((s.bank bid).engine .mx).regs
    let x := fmtEntry j.entry
    let a := r.rings[ringA j.rings]
    let q := r.rings[ringB j.rings]
    (loadA bid x.a (a.slotAt a.head) (x.ascl * 256 + a.head * scalePlaneSlot) m kk).run (s.slotView bid a) = .ok rows v →
    (loadB bid x.b (q.slotAt q.head) (x.bscl * 256 + q.head * scalePlaneSlot) n kk).run (s.slotView bid q) = .ok cols w →
    (slotPair bid j m n kk).run s = .ok () (s.modBank bid (fun b => b.modEngine .mx (·.modRegs (fun g =>
      (g.addTile j bid m n (if j.kind = .mml then 4 else fmtClass x.a) (r.maskOf j.kind) rows cols).popPair j)))) := by
  intro r x a q hrows hcols
  unfold slotPair
  rw [M.bind_get, if_neg (by simpa using ⟨ha, hb⟩), if_pos hj, M.bind_ok (readTile_ok hclean), M.bind_ok (viewing_ok hrows),
    M.bind_ok (viewing_ok hcols), M.bind_modify, M.run_modify]
  simp only [State.modBank_modBank, Bank.modEngine_modEngine, Eng.modRegs_modRegs]
  rfl

variable {st : Stopped} (hst : ((s.bank bid).engine .mx).stopped = some st) (hmul : st.mul = some j)
include hst hmul

theorem nextPair_wait (h : ((s.bank bid).engine .mx).regs.rings[ringA j.rings].filled = 0
    ∨ ((s.bank bid).engine .mx).regs.rings[ringB j.rings].filled = 0) : (nextPair bid).run s = .error .wait s := by
  unfold nextPair
  rw [M.bind_get, hst]
  dsimp only
  rw [hmul]
  exact M.bind_error (slotPair_wait h)

/-- Once the slot pair of a multiply word is added, the word has done one more. -/
theorem nextPair_ok {t : State} {kk n m : Word} (hops : st.ops = [kk, n, m])
    (h : (slotPair bid j m.toNat n.toNat (min 96 (kk.toNat - 96 * st.done))).run s = .ok () t) :
    (nextPair bid).run s = .ok (decide (kk.toNat ≤ 96 * (st.done + 1)))
      (t.modBank bid (fun b => b.modEngine .mx (fun g => { g with stopped := some { st with done := st.done + 1 } }))) := by
  unfold nextPair
  rw [M.bind_get, hst]
  dsimp only
  rw [hmul]
  simp only [hops, List.getD_cons_zero, List.getD_cons_succ]
  rw [M.bind_ok h]
  rfl

end SlotPair

end Sys2Proof.Machine

namespace Sys2Proof.Proofs
open Sys2Proof Sys2Proof.Machine

theorem multiplyBegins : Claim.MultiplyBegins := by
  unfold Claim.MultiplyBegins
  intro s kind r c b f l kk n m rest he hrun hst hroom id regs take v hok hclean
  rw [exec_multiplyWord]
  refine runWord_ok he ?_
  unfold multiply
  rw [M.bind_curEng, M.bind_curBid, show ((s.bank s.cur.bid).engine .mx).stopped = none from hrun]
  dsimp only
  rw [M.bind_ok (run_operands_three hst hroom)]
  dsimp only
  rw [State.regs_eq_ownRegs, M.bind_ok (checkMul_ok hok s)]
  have hread : (c = 1#2 ∨ c = 2#2) → (readTile s.cur.bid b m.toNat n.toNat).run s = .ok () s := fun hc => readTile_ok (hclean hc)
  rw [show ∀ (p : Prop) [Decidable p] (x y : M Flow), (if p then x else y).run s = if p then x.run s else y.run s from
    fun p _ x y => apply_ite (fun z : M Flow => z.run s) p x y]
  rw [ite_eq_right_iff.mpr fun hc => M.bind_ok (hread (by simpa using hc))]
  by_cases h3 : c = 3#2
  · rw [M.bind_restack, if_neg (not_not.mpr h3), M.bind_keepAs, M.run_pure]
    simp only [State.modBank_cur, State.modBank_modBank, Bank.modEngine_modEngine, if_pos h3]
    rw [beganAt_modBank Engine.noConfusion (by rw [Bank.engine_modEngine, if_pos rfl]; exact hrun), ← beganAt_of_running Engine.noConfusion hrun]
    rfl
  · rw [M.bind_restack, if_pos h3, M.bind_modCur, M.bind_modRegs, M.bind_keepAs, M.run_pure]
    simp only [State.modBank_cur, State.modBank_modBank, Bank.clearTile_modEngine, Bank.modEngine_modEngine, if_neg h3]
    rw [beganAt_modBank Engine.noConfusion (by rw [Bank.engine_modEngine, if_pos rfl]; exact hrun), ← beganAt_of_running Engine.noConfusion hrun]
    rfl

theorem multiplyPairs : Claim.MultiplyPairs := by
  unfold Claim.MultiplyPairs
  intro s kind r c b f l kk n m st j rows cols he hst hops hmul id regs x a q now gs t
  have hgoes : (multiply kind r c b f l).run s = (nextPair s.cur.bid >>= fun d => pure (if d then Flow.next else .more)).run s := by
    unfold multiply
    rw [M.bind_curEng, M.bind_curBid, show ((s.bank s.cur.bid).engine .mx).stopped = some st from hst]
  rw [exec_multiplyWord]
  refine ⟨fun hempty => runWord_wait he (hgoes.trans (M.bind_error (nextPair_wait hst hmul hempty))),
    fun ha hq hread => runWord_ok he (hgoes.trans ?_)⟩
  have hend : (nextPair s.cur.bid).run s = .ok (decide (kk.toNat ≤ 96 * (st.done + 1))) t := by
    by_cases h3 : j.start = 3#2
    · rw [nextPair_ok hst hmul hops (slotPair_hold ha hq h3)]
      simp only [State.modBank_modBank, Bank.modEngine_modEngine, t, if_pos h3]
      rfl
    · obtain ⟨hclean, ⟨v, hrows⟩, w, hcols⟩ := hread h3
      rw [nextPair_ok hst hmul hops (slotPair_add ha hq h3 hclean hrows hcols)]
      simp only [State.modBank_modBank, Bank.modEngine_modEngine, t, if_neg h3]
      rfl
  rw [M.bind_ok hend]
  simp only [decide_eq_true_eq, M.run_pure]

theorem tileFrame : Claim.TileFrame := by
  unfold Claim.TileFrame
  intro a bid bank m n f hm hn i j hi hj
  unfold Acc.mapTile
  rw [Acc.get_foldl_put bid bank (fun x => BitVec.ofNat 32 (f x.1 x.2 (a.get bid bank (accIx x.1 x.2)).toNat)) (i, j)]
  · simp only [mem_tileIxs]
  · intro x hx hix
    obtain ⟨h1, h2⟩ := mem_tileIxs.mp hx
    dsimp only [accIx] at hix
    ext <;> dsimp only <;> omega
/-- Settles O45: the checks, one slot pair, and the tile as a list of distinct indices. -/
theorem multiply : Obligations.Multiply := ⟨multiplyBegins, multiplyPairs, tileFrame⟩

end Sys2Proof.Proofs
end

-- ==== The state of the matrix engine (O46) ====
section
/-! SUPPORT. The words that set, load and store the state of the matrix engine (R213, R313, R314, R322, R324, R325). -/

namespace Sys2Proof.Machine

-- One proof at a time: the whole text compiles in one process of bounded memory.
set_option Elab.async false

/-! ### Accumulators, tables and rings -/

theorem not_rangeBad {z n a : Word} (h : 1 ≤ z.toNat ∧ 1 ≤ n.toNat ∧ n.toNat ≤ 255 ∧ a.toNat + n.toNat * z.toNat ≤ 12288) :
    ¬ (decide (z.toNat = 0) || decide (n.toNat = 0) || decide (255 < n.toNat)
      || decide (scratchUnits < a.toNat + n.toNat * z.toNat)) = true := by
  simp only [Bool.or_eq_true, decide_eq_true_eq]
  unfold scratchUnits
  omega

section Registers

variable {s : State} (he : s.cur.eng = some .mx)
include he

theorem execAccz_ends (b : Bool) :
    execAccz b s = .next ((s.modBank s.cur.bid (·.clearTile b 96 96)).wordEnds .mx (fun r => r.setAcc b Acc.init) .next) := by
  refine (runWord_ok he ?_).trans rfl
  rw [M.bind_modCur, M.bind_modRegs, M.run_pure]

theorem execAccg_ends (b : Bool) {v : Word} {rest : List Word} (hst : (s.ownRegs .mx).pstack = v :: rest) (hroom : rest.length ≤ 8) :
    execAccg b s = .next (s.wordEnds .mx (fun r => if b then { r with pstack := r.pstack.drop 1, gamma1 := v.setWidth 32 }
      else { r with pstack := r.pstack.drop 1, gamma0 := v.setWidth 32 }) .next) := by
  refine runWord_modRegs he ?_
  rw [M.bind_ok (run_operands_one hst hroom)]
  simp only [M.bind_restack, M.bind_modRegs, M.run_pure, State.modBank_modBank, Bank.modEngine_modEngine, Eng.modRegs_modRegs,
    State.modBank_cur]
  cases b <;> rfl

theorem execFte_ends (n : BitVec 4) {v : Word} {rest : List Word} (hst : (s.ownRegs .mx).pstack = v :: rest) (hroom : rest.length ≤ 8)
    (h1 : bits v.toNat 46 10 = 0) (h2 : bits v.toNat 14 18 = 0) :
    execFte n s = .next (s.wordEnds .mx (fun r => { r with pstack := r.pstack.drop 1, ftab := r.ftab.set n.toFin v }) .next) := by
  refine runWord_modRegs he ?_
  rw [M.bind_ok (run_operands_one hst hroom)]
  dsimp only
  rw [if_neg (by simp [h1, h2])]
  simp only [M.bind_restack, M.bind_modRegs, M.run_pure, State.modBank_modBank, Bank.modEngine_modEngine, Eng.modRegs_modRegs,
    State.modBank_cur]
  rfl

theorem execFte_bad (n : BitVec 4) {v : Word} {rest : List Word} (hst : (s.ownRegs .mx).pstack = v :: rest) (hroom : rest.length ≤ 8)
    (h : bits v.toNat 46 10 ≠ 0 ∨ bits v.toNat 14 18 ≠ 0) : execFte n s = .next (s.faultEnd s.cur.bid .mx 0x10) := by
  refine runWord_illegal he ?_
  rw [M.bind_ok (run_operands_one hst hroom)]
  dsimp only
  rw [if_pos (by simpa using h), M.bind_illegalWord]

variable (g : BitVec 2) {z n a : Word} {rest : List Word} (hst : (s.ownRegs .mx).pstack = z :: n :: a :: rest) (hroom : rest.length ≤ 8)
include hst hroom

theorem execRng_bad (h : ¬ (1 ≤ z.toNat ∧ 1 ≤ n.toNat ∧ n.toNat ≤ 255 ∧ a.toNat + n.toNat * z.toNat ≤ 12288)) :
    execRng g s = .next (s.faultEnd s.cur.bid .mx 0x10) := by
  refine runWord_illegal he ?_
  rw [M.bind_ok (run_operands_three hst hroom)]
  dsimp only
  rw [if_pos, M.bind_illegalWord]
  simp only [Bool.or_eq_true, decide_eq_true_eq]
  unfold scratchUnits
  omega

variable (h : 1 ≤ z.toNat ∧ 1 ≤ n.toNat ∧ n.toNat ≤ 255 ∧ a.toNat + n.toNat * z.toNat ≤ 12288)
include h

theorem execRng_wait (hb : s.own.ringBusy g.toNat = true) : execRng g s = .next s := by
  refine runWord_wait he (t := s) ?_
  rw [M.bind_ok (run_operands_three hst hroom)]
  dsimp only
  rw [if_neg (not_rangeBad h), M.bind_curBank, if_pos hb, M.bind_waitMore]

theorem execRng_ends (hb : s.own.ringBusy g.toNat = false) :
    execRng g s = .next (s.wordEnds .mx (fun r => EngRegs.onRing { r with pstack := r.pstack.drop 3 }
      g.toFin (fun _ => { Ring.init with base := a.toNat, size := z.toNat, slots := n.toNat })) .next) := by
  refine runWord_modRegs he ?_
  rw [M.bind_ok (run_operands_three hst hroom)]
  dsimp only
  rw [if_neg (not_rangeBad h), M.bind_curBank, if_neg (ne_true_of_eq_false hb)]
  simp only [M.bind_restack, M.bind_modRegs, M.run_pure, State.modBank_modBank, Bank.modEngine_modEngine, Eng.modRegs_modRegs,
    State.modBank_cur]
  rfl

end Registers

/-! ### The mask, and the store of an accumulator bank -/

/-- A request of `mpb` that passes its checks gives its bytes. -/
theorem readMask_ok {s t : State} {a : Word} {vers : List Nat} {have0 l : List Byte} {i : Nat} {p : Place}
    (h : (handlePlace s.cur.bid (some .mx) (haddrPh a) (vers[(haddrPh a).toNat]?) (haddrOff a + 64 * i) 64 accR 0).run s = .ok p t)
    (hl : t.readable s.cur.bid (some .mx) p.pa 64 = some l) : (readMask a vers have0 i).run s = .ok (have0 ++ l) t := by
  unfold readMask
  rw [M.bind_curBid]
  refine M.tryCatch_ok ?_
  rw [M.bind_ok h, M.bind_ok (loadBytes_ok hl)]
  rfl

section Memory

variable {s : State} (he : s.cur.eng = some .mx) (hrun : (s.own.engine .mx).stopped = none)
include he hrun

/-- A good mask block becomes the mask. -/
theorem execMpb_ends {t u : State} {a : Word} {rest : List Word} {p1 p2 : Place} {lo hi : List Byte} (hst : (s.ownRegs .mx).pstack = a :: rest)
    (hroom : rest.length ≤ 8) (hal : haddrOff a % 128 = 0) :
    let ver := (((s.own.engine .mx).entry.map (·.vers)).getD [])[(haddrPh a).toNat]?
    (handlePlace s.cur.bid (some .mx) (haddrPh a) ver (haddrOff a) 64 accR 0).run
      (s.modBank s.cur.bid (fun bk => bk.modEngine .mx (·.modRegs (fun r => { r with pstack := r.pstack.drop 1 })))) = .ok p1 t →
    t.readable s.cur.bid (some .mx) p1.pa 64 = some lo → t.cur = s.cur →
    (handlePlace s.cur.bid (some .mx) (haddrPh a) ver (haddrOff a + 64) 64 accR 0).run t = .ok p2 u →
    u.readable s.cur.bid (some .mx) p2.pa 64 = some hi → u.cur = s.cur → maskBad (lo ++ hi) = false →
    execMpb s = .next ((u.modBank s.cur.bid (fun bk => bk.modEngine .mx (·.modRegs (fun r => { r with mask := some (lo ++ hi) })))).flow
      s.cur.bid .mx .next) := by
  intro ver hp1 hlo ht hp2 hhi hu hgood
  refine runWord_ok he ?_
  rw [M.bind_curEng, show ((s.bank s.cur.bid).engine .mx).stopped = none from hrun]
  dsimp only
  rw [M.bind_ok (run_operands_one hst hroom)]
  dsimp only
  rw [if_neg (not_not.mpr hal), M.bind_restack, M.bind_pure]
  dsimp only [List.length_nil]
  rw [if_pos (Nat.zero_lt_succ 63)]
  refine (M.bind_ok (readMask_ok (i := 0) hp1 hlo)).trans ?_
  rw [List.nil_append, M.bind_ok (readMask_ok (i := 1) (by rw [ht]; exact hp2) (by rw [ht]; exact hhi)),
    if_neg (ne_true_of_eq_false hgood), M.bind_modRegs, M.run_pure, hu]

/-- Every piece of the accumulator bank is stored. -/
theorem execAcco_ends {w : State} {st h : Word} {rest : List Word} {b : Bool} {f : BitVec 4}
    (hst : (s.ownRegs .mx).pstack = st :: h :: rest) (hroom : rest.length ≤ 8) (hs : st.toNat < 2 ^ 32)
    (hclean : tileClean s s.cur.bid b 96 96) :
    let e := codeBits f.toNat / 8
    let p := s.rank s.cur.bid
    (accoWrites h (((s.own.engine .mx).entry.map (·.vers)).getD []) [st, h] 0 (accoRequests ((s.ownRegs .mx).acc b) s.cur.bid (b2n b) f.toNat
      st.toNat (p / 4 * 96 * st.toNat + p % 4 * 96 * e) (haddrOff h))).run
      (s.modBank s.cur.bid (fun bk => bk.modEngine .mx (·.modRegs (fun r => { r with pstack := r.pstack.drop 2 })))) = .ok () w →
    execAcco b f s = .next (w.flow s.cur.bid .mx .next) := by
  intro e p hw
  refine runWord_ok he ?_
  have hclean' : tileClean (s.modBank s.cur.bid (fun bk => bk.modEngine .mx (·.modRegs (fun r => { r with pstack := r.pstack.drop 2 }))))
      s.cur.bid b 96 96 := by
    unfold tileClean
    rw [State.bank_modBank, if_pos rfl]
    exact hclean
  rw [M.bind_get, M.bind_curEng, show ((s.bank s.cur.bid).engine .mx).stopped = none from hrun]
  dsimp only
  rw [M.bind_ok (run_operands_two hst hroom)]
  simp only [List.getD_cons_zero]
  rw [if_neg (Nat.not_le.mpr hs), M.bind_restack, M.bind_pure]
  refine (M.bind_ok (readTile_ok hclean')).trans ?_
  exact M.bind_ok hw

end Memory

end Sys2Proof.Machine

namespace Sys2Proof.Proofs
open Sys2Proof Sys2Proof.Machine

theorem matrixRegisters : Claim.MatrixRegisters := by
  unfold Claim.MatrixRegisters
  intro s b he r ends bad
  refine ⟨execAccz_ends he b,
    fun v rest hst hroom => ⟨execAccg_ends he b hst hroom,
      fun n => ⟨fun ⟨h1, h2⟩ => execFte_ends he n hst hroom h1 h2, execFte_bad he n hst hroom⟩⟩,
    fun g z n a rest hst hroom => ⟨execRng_ends he g hst hroom, execRng_wait he g hst hroom, execRng_bad he g hst hroom⟩⟩

theorem matrixMemory : Claim.MatrixMemory := by
  unfold Claim.MatrixMemory
  intro s t u w a st h rest p1 p2 lo hi b f he hrun id vers ver popped
  refine ⟨fun hst hroom hal hp1 hlo ht hp2 hhi hu hgood => ?_, fun hst hroom hs hclean => fun hw hcur => ?_⟩
  · exact execMpb_ends he hrun hst hroom hal hp1 hlo ht hp2 hhi hu hgood
  · exact execAcco_ends he hrun hst hroom hs hclean hw

/-- Settles O46: each word by its operands, in range or not. -/
theorem matrixState : Obligations.MatrixState := ⟨matrixRegisters, matrixMemory⟩

end Sys2Proof.Proofs
end

-- ==== The draw unit (O47) ====
section
/-! SUPPORT. The draw unit: its winner, and what a draw leaves (R328 to R331). -/

namespace Sys2Proof.Machine

-- One proof at a time: the whole text compiles in one process of bounded memory.
set_option Elab.async false

/-! ### The winner -/

theorem beats_iff {x y : Nat} : beats x y = true ↔ isNan32 x = false ∧ (isNan32 y = true ∨ keyFp32 y < keyFp32 x) := by
  unfold beats
  cases isNan32 x <;> cases isNan32 y <;> simp

/-- What the fold over candidates keeps of the best so far: it is a candidate, it is not beaten, and among equals it is the first. -/
structure BestOf (l : List (Nat × Nat)) (w : Nat × Nat) : Prop where
  mem : w ∈ l
  most : ∀ x ∈ l, isNan32 x.2 = false → isNan32 w.2 = false ∧ keyFp32 x.2 ≤ keyFp32 w.2
  nan : (∀ x ∈ l, isNan32 x.2 = true) → l.head? = some w
  least : List.Pairwise (fun a b => a.1 < b.1) l → ∀ x ∈ l, isNan32 x.2 = false → keyFp32 x.2 = keyFp32 w.2 → w.1 ≤ x.1

theorem BestOf.single (c : Nat × Nat) : BestOf [c] c := by
  refine ⟨List.mem_singleton_self c, fun x hx hn => ?_, fun _ => rfl, fun _ x hx _ _ => ?_⟩
  all_goals cases List.mem_singleton.mp hx
  · exact ⟨hn, le_rfl⟩
  · exact le_rfl

/-- A further candidate takes the place of the best where it beats it. -/
theorem BestOf.snoc {l : List (Nat × Nat)} {w x : Nat × Nat} (h : BestOf l w) : BestOf (l ++ [x]) (if beats x.2 w.2 then x else w) := by
  by_cases hb : beats x.2 w.2 = true
  · rw [if_pos hb]
    obtain ⟨hx, hw⟩ := beats_iff.mp hb
    refine ⟨by simp, fun y hy hn => ⟨hx, ?_⟩, fun hall => ?_, fun hp y hy hn hk => ?_⟩
    · rcases List.mem_append.mp hy with hy | hy
      · obtain ⟨hwn, hle⟩ := h.most y hy hn
        refine hw.elim (fun hw => absurd (hw.symm.trans hwn) Bool.noConfusion) fun hlt => (hle.trans hlt.le)
      · cases List.mem_singleton.mp hy
        exact le_rfl
    · exact absurd ((hall x (by simp)).symm.trans hx) Bool.noConfusion
    · rcases List.mem_append.mp hy with hy | hy
      · obtain ⟨hwn, hle⟩ := h.most y hy hn
        refine hw.elim (fun hw => absurd (hw.symm.trans hwn) Bool.noConfusion) fun hlt => ?_
        exact absurd (hk ▸ hle) (Nat.not_le.mpr hlt)
      · cases List.mem_singleton.mp hy
        exact le_rfl
  · rw [if_neg hb]
    have hnot : isNan32 x.2 = false → isNan32 w.2 = false ∧ keyFp32 x.2 ≤ keyFp32 w.2 := fun hn => by
      refine ⟨Bool.eq_false_iff.mpr fun hw => hb (beats_iff.mpr ⟨hn, .inl hw⟩),
        Nat.le_of_not_lt fun hlt => hb (beats_iff.mpr ⟨hn, .inr hlt⟩)⟩
    refine ⟨List.mem_append_left _ h.mem, fun y hy hn => ?_, fun hall => ?_, fun hp y hy hn hk => ?_⟩
    · rcases List.mem_append.mp hy with hy | hy
      · exact h.most y hy hn
      · cases List.mem_singleton.mp hy
        exact hnot hn
    · rw [List.head?_append, h.nan fun y hy => hall y (List.mem_append_left _ hy), Option.some_or]
    · obtain ⟨hl, _, hlt⟩ := List.pairwise_append.mp hp
      rcases List.mem_append.mp hy with hy | hy
      · exact h.least hl y hy hn hk
      · exact (hlt w h.mem y hy).le

theorem BestOf.foldl : ∀ (cs l : List (Nat × Nat)) (w : Nat × Nat), BestOf l w →
    BestOf (l ++ cs) (cs.foldl (fun b x => if beats x.2 b.2 then x else b) w)
  | [], l, w, h => by rwa [List.append_nil]
  | x :: cs, l, w, h => by
    rw [List.foldl_cons, List.append_cons]
    exact BestOf.foldl cs (l ++ [x]) _ h.snoc

theorem bestOf_winner (c : Nat × Nat) (cs : List (Nat × Nat)) : BestOf (c :: cs) (winner (c :: cs)) :=
  BestOf.foldl cs [c] c (BestOf.single c)

/-! ### A draw -/

/-- The state once an element of a draw is delivered: to q4 of the bank, or of a follower nowhere. -/
def State.drawn (s : State) (v : Word) : State :=
  if s.handleBank s.cur.bid = s.cur.bid
  then s.modBank s.cur.bid (fun b => b.pushElem 4#3 ⟨v, true, (b.engine .mx).phase, false⟩) else s

theorem drawn_cur (s : State) (v : Word) : (s.drawn v).cur = s.cur := by
  unfold State.drawn
  split <;> rfl

theorem deliver_drawn {s : State} {v : Word} (h : s.handleBank s.cur.bid = s.cur.bid → (s.own.queueOf 4#3).length < 32) :
    (deliver .mx 4#3 v true).run s = .ok () (s.drawn v) := by
  unfold State.drawn
  by_cases hd : s.handleBank s.cur.bid = s.cur.bid
  · rw [if_pos hd, deliver_run hd, if_neg (Nat.not_le.mpr (h hd))]
    rfl
  · rw [if_neg hd, deliver_follower hd]

theorem rebaseTo_eq (g : Ring) (rb win : Nat) :
    rebaseTo g rb win = if g.slots ≠ 0 ∧ bits rb 0 14 + win * bits rb 32 14 + g.slots * g.size ≤ 12288
      then some (bits rb 0 14 + win * bits rb 32 14) else none := by
  unfold rebaseTo scratchUnits
  dsimp only
  by_cases h0 : g.slots = 0
  · simp [h0]
  · by_cases h1 : 12288 < bits rb 0 14 + win * bits rb 32 14 + g.slots * g.size
    · simp [h0, h1]
    · simp [h0, h1, Nat.le_of_not_lt h1]

/-- How a draw ends: it waits for the ring it rebases, delivers its element, pops its operands and rebases. -/
def drawEnd (b : Bank) (g : Nat) (target : Option Nat) (v : Word) : M Flow := do
  if target.isSome && b.ringBusy g then waitMore
  deliver .mx 4#3 v true
  restack .mx 5 []
  match target with
  | some base =>
    modRegs .mx (fun r => r.onRing (Fin.ofNat 4 g) (fun q =>
      { q with base := base, head := 0, tail := 0, full := List.replicate q.slots (b.engine .mx).phase }))
  | none => pure ()
  return .next

section DrawEnd

variable {s : State} {g : Nat} {v : Word}

theorem drawEnd_wait {base : Nat} (h : s.own.ringBusy g = true) : (drawEnd s.own g (some base) v).run s = .error .wait s := by
  unfold drawEnd
  rw [Option.isSome_some, Bool.true_and, h, if_pos rfl, M.bind_waitMore]

variable (hq : s.handleBank s.cur.bid = s.cur.bid → (s.own.queueOf 4#3).length < 32)
include hq

theorem drawEnd_none : (drawEnd s.own g none v).run s = .ok .next ((s.drawn v).modBank s.cur.bid
    (fun b => b.modEngine .mx (·.modRegs (fun r => { r with pstack := r.pstack.drop 5 })))) := by
  unfold drawEnd
  rw [Option.isSome_none, Bool.false_and, if_neg Bool.false_ne_true, M.bind_ok (deliver_drawn hq), M.bind_restack, drawn_cur]
  rfl

theorem drawEnd_some {base : Nat} (h : s.own.ringBusy g = false) :
    (drawEnd s.own g (some base) v).run s = .ok .next ((s.drawn v).modBank s.cur.bid
      (fun b => b.modEngine .mx (·.modRegs (fun r => EngRegs.onRing { r with pstack := r.pstack.drop 5 } (Fin.ofNat 4 g) (fun q =>
        { q with base := base, head := 0, tail := 0, full := List.replicate q.slots (s.own.engine .mx).phase }))))) := by
  unfold drawEnd
  rw [h, Bool.and_false, if_neg Bool.false_ne_true, M.bind_ok (deliver_drawn hq), M.bind_restack]
  simp only [M.bind_modRegs, M.run_pure, State.modBank_modBank, Bank.modEngine_modEngine, Eng.modRegs_modRegs, State.modBank_cur, drawn_cur]
  rfl

end DrawEnd

section Draw

variable {s : State} {b : Bool} {n ctl key ctr rb : Word} {rest : List Word}
  (hst : (s.ownRegs .mx).pstack = n :: ctl :: key :: ctr :: rb :: rest) (hroom : rest.length ≤ 8)
include hst hroom

theorem run_operands_draw : (operands .mx 5 0).run s = .ok [n, ctl, key, ctr, rb] s := run_operands (ops := [n, ctl, key, ctr, rb]) hst rfl hroom

/-- Operands against the ranges pop nothing, and end the nest. -/
theorem execDraw_bad (he : s.cur.eng = some .mx) (h : (drawOps [n, ctl, key, ctr, rb]).ok = false) :
    execDraw b s = .next (s.faultEnd s.cur.bid .mx 0x10) := by
  refine runWord_illegal he ?_
  rw [M.bind_get, M.bind_ok (run_operands_draw hst hroom)]
  dsimp only
  rw [h, Bool.not_false, if_pos rfl, M.bind_illegalWord]

/-- A draw whose operands are in range, and whose candidates are not poisoned, is what its end leaves. -/
theorem execDraw_end (he : s.cur.eng = some .mx) (h : (drawOps [n, ctl, key, ctr, rb]).ok = true) :
    let lead := drawOps ((s.bank (s.handleBank s.cur.bid)).engine .mx).regs.pstack
    let cs := s.allCandidates s.cur.bid b lead
    let w := winner cs
    let g : Nat := if bit rb.toNat 62 then 3 else 1
    let target := if bit rb.toNat 63 then rebaseTo (s.ownRegs .mx).rings[Fin.ofNat 4 g] rb.toNat w.1 else none
    s.drawPoison s.cur.bid b lead.n = false →
    execDraw b s = runWord (fun _ => drawEnd s.own g target (BitVec.ofNat 64 (w.2 * 2 ^ 32 + b2n (cs.all (fun c => isNan32 c.2)) * 2 ^ 31
      + b2n (bit rb.toNat 63 && target.isNone) * 2 ^ 30 + w.1))) s := by
  intro lead cs w g target hclean
  unfold execDraw runWord
  simp only [he]
  rw [M.bind_get, M.bind_ok (run_operands_draw hst hroom), h, Bool.not_true, if_neg Bool.false_ne_true, if_neg (ne_true_of_eq_false hclean)]
  rfl

end Draw

end Sys2Proof.Machine

namespace Sys2Proof.Proofs
open Sys2Proof Sys2Proof.Machine

theorem drawWinner : Claim.DrawWinner := by
  unfold Claim.DrawWinner
  intro c cs w
  obtain ⟨hm, hmost, hnan, hleast⟩ := bestOf_winner c cs
  exact ⟨hm, hmost, fun hall => (Option.some_inj.mp (hnan hall)).symm, hleast⟩

theorem drawCompletes : Claim.DrawCompletes := by
  unfold Claim.DrawCompletes
  intro s b n ctl key ctr rb rest he hst hroom id o lead cs w g ring base fits element pushed pops
  have hpushed : ∀ v, pushed v = s.drawn v := fun v => rfl
  refine ⟨execDraw_bad hst hroom he, fun hok hclean hq => ?_⟩
  have hend : exec (.draw b) s = _ := execDraw_end hst hroom he hok hclean
  have hto : rebaseTo ring rb.toNat w.1 = if fits then some base else none := rebaseTo_eq ..
  refine ⟨fun hno => ?_, fun h63 hfits hbusy => ?_, fun h63 hfits hbusy => ?_⟩
  · have htarget : (if bit rb.toNat 63 then rebaseTo ring rb.toNat w.1 else none) = none := by
      rw [hto]
      rcases hno with h | h
      · rw [h, if_neg Bool.false_ne_true]
      · rw [if_neg h, ite_self]
    rw [hend, htarget, Option.isNone_none, Bool.and_true]
    exact runWord_ok he (drawEnd_none hq)
  · rw [hend, h63, if_pos rfl, hto, if_pos hfits]
    exact runWord_wait he (drawEnd_wait hbusy)
  · rw [hend, h63, if_pos rfl, hto, if_pos hfits]
    exact runWord_ok he (drawEnd_some hq hbusy)

/-- Settles O47: the fold keeps the best of the candidates before it; a draw by its operands and its ring. -/
theorem draw : Obligations.Draw := ⟨drawCompletes, drawWinner⟩

end Sys2Proof.Proofs
end

-- ==== Vector words of class V (O39) ====
section
/-! SUPPORT. Vector words of class V: reads, then writes, on local and on handle regions (R289, R293 to R296, R309). -/

namespace Sys2Proof.Machine

-- One proof at a time: the whole text compiles in one process of bounded memory.
set_option Elab.async false

/-! ### What a body that ends gives -/

/-- Every value that a body can give satisfies a property. -/
def Yields {α : Type} (P : α → Prop) (x : M α) : Prop := ∀ s t a, x.run s = .ok a t → P a

section Yields

variable {α β : Type} {P : β → Prop}

theorem Yields.pure {b : β} (h : P b) : Yields P (Pure.pure b : M β) := fun s t a ha => by
  rw [M.run_pure] at ha
  cases ha
  exact h

theorem Yields.bind {x : M α} {f : α → M β} (h : ∀ a, Yields P (f a)) : Yields P (x >>= f) := fun s t b hb => by
  obtain ⟨a, u, _, hf⟩ := M.bind_cases hb
  exact h a u t b hf

/-- A body goes on behind a check, or behind either of two bodies. -/
theorem Yields.guard {c : Prop} [Decidable c] {y : M α} {x : M β} (h : Yields P x) : Yields P (if c then y >>= fun _ => x else x) := by
  split
  · exact .bind fun _ => h
  · exact h

theorem Yields.either {c : Prop} [Decidable c] {x y : M α} {f : α → M β} (h : ∀ a, Yields P (f a)) :
    Yields P (if c then x >>= f else y >>= f) := by
  split
  · exact .bind h
  · exact .bind h

end Yields

/-- A vector word with a queue destination writes no element, and one with a region pushes nothing (R295). -/
def QueueOrRegion (q : Bool) (job : VJob) : Prop :=
  (q = false → ∀ vals, job.push vals = none) ∧ (q = true → ∀ vals, job.writes vals = [])

theorem queueOrRegion_perElement (r : EngRegs) (g : BitVec 3) (q : Bool) (d : Option Region) (nib n : Nat) (reads : Nat → List ElemRef)
    (f : List Nat → Res) : QueueOrRegion q (perElement r g q d nib n reads f) := by
  constructor
  all_goals
    rintro rfl _
    rfl

theorem elementPlan_yields {k : VForms} {g : BitVec 3} {q : Bool} {v0 : BitVec 2} {srcs : Nat} {out : Nat → Nat}
    {f : Nat → List Nat → List Nat → Res} {r : EngRegs} {ops : List Word} {v : Word} :
    Yields (QueueOrRegion q) (elementPlan k g q v0 srcs out f r ops v) := fun s t job h => by
  obtain ⟨_, _, _, _, _, _, rfl, _⟩ := elementPlan_cases h
  exact queueOrRegion_perElement ..

theorem queueOrRegion_mk (q : Bool) (reads : List Nat → List ElemRef) (regs : List Nat → EngRegs → EngRegs) (dst : Region) (nib : Nat)
    (w : List Nat → List (Nat × Nat × Nat)) (p : List Nat → Nat × Bool × Nat) :
    QueueOrRegion q ⟨reads, regs, dst, nib, fun vals => if q then [] else w vals, fun vals => if q then some (p vals) else none⟩ := by
  constructor
  all_goals
    rintro rfl _
    rfl

theorem planVred_yields {g : BitVec 3} {q : Bool} {v0 : BitVec 2} {v : BitVec 3} {r : EngRegs} {ops : List Word} {e : Word} :
    Yields (QueueOrRegion q) (planVred g q v0 v r ops e) := by
  unfold planVred
  refine .bind fun _ => .bind fun dst => .bind fun a => .bind fun _ => ?_
  cases dst with
  | none => exact .pure (queueOrRegion_mk ..)
  | some d => exact .guard (.pure (queueOrRegion_mk ..))

theorem planVscan_yields {g : BitVec 3} {q : Bool} {v0 : BitVec 2} {v : BitVec 3} {r : EngRegs} {ops : List Word} {e : Word} :
    Yields (QueueOrRegion q) (planVscan g q v0 v r ops e) := by
  unfold planVscan
  refine .bind fun _ => .bind fun dst => .bind fun a => .bind fun _ => ?_
  cases dst with
  | none => exact .pure (queueOrRegion_mk ..)
  | some d => exact .guard (.pure (queueOrRegion_mk ..))

theorem planVperm_yields {g : BitVec 3} {q : Bool} {v0 : BitVec 2} {r : EngRegs} {ops : List Word} {e : Word} :
    Yields (QueueOrRegion q) (planVperm g q v0 r ops e) := by
  unfold planVperm
  refine .bind fun _ => .bind fun dst => .bind fun a => ?_
  refine .guard (.either fun xs => ?_)
  cases dst with
  | none => exact .pure (queueOrRegion_mk ..)
  | some d => exact .guard (.pure (queueOrRegion_mk ..))

/-- A word that takes no queue destination is illegal with one. -/
theorem checkForms_queue (fmts : Nat → Bool) (qs : Bool) (f : Nat) (v0 : BitVec 2) (s : State) :
    (checkForms ⟨fmts, qs, false⟩ f v0 true).run s = .error (.ends 0x10) s := by
  unfold checkForms
  rw [if_pos (by simp)]
  exact M.run_illegalWord s

theorem planVsoft_yields {g : BitVec 3} {q : Bool} {v0 : BitVec 2} {r : EngRegs} {ops : List Word} {e : Word} :
    Yields (QueueOrRegion q) (planVsoft g q v0 r ops e) := by
  unfold planVsoft
  cases q with
  | true =>
    intro s t job h
    rw [M.bind_error (checkForms_queue ..)] at h
    cases h
  | false =>
    refine .bind fun _ => .bind fun d => .bind fun a => .bind fun _ => .guard (.pure ?_)
    exact ⟨fun _ _ => rfl, fun h => absurd h Bool.false_ne_true⟩

theorem planVbsr_yields {g : BitVec 3} {q : Bool} {v0 : BitVec 2} {r : EngRegs} {ops : List Word} {e : Word} :
    Yields (QueueOrRegion q) (planVbsr g q v0 r ops e) := by
  unfold planVbsr
  refine .bind fun _ => .bind fun dst => .guard (.bind fun a => .bind fun b => .guard ?_)
  cases dst with
  | none => exact .pure (queueOrRegion_mk ..)
  | some d => exact .guard (.pure (queueOrRegion_mk ..))

/-- A vector word of class V runs by its form. -/
theorem exec_vectorForm {i : Instr} {c : VectorForm} (h : vectorForm i = some c) (s : State) :
    exec i s = runWord (fun _ => runVector c.pops c.src c.queue c.plan) s := by
  unfold vectorForm at h
  split at h
  case h_23 g q v0 =>
    cases h
    change vectorWord (if v0 = 0#2 then _ else _) s = _
    split <;> rfl
  case h_29 => cases h
  all_goals
    cases h
    rfl

theorem elementForm_yields {k : VForms} {g : BitVec 3} {q : Bool} {v0 : BitVec 2} {srcs stack : Nat} {out : Nat → Nat}
    {f : Nat → List Nat → List Nat → Res} {r : EngRegs} {ops : List Word} {v : Word} :
    Yields (QueueOrRegion (elementForm k g q v0 srcs stack out f).queue) ((elementForm k g q v0 srcs stack out f).plan r ops v) :=
  elementPlan_yields

theorem vectorForm_yields {i : Instr} {c : VectorForm} (h : vectorForm i = some c) (r : EngRegs) (ops : List Word) (v : Word) :
    Yields (QueueOrRegion c.queue) (c.plan r ops v) := by
  unfold vectorForm at h
  split at h
  case h_23 g q v0 =>
    cases h
    split
    · exact elementForm_yields
    · exact elementForm_yields
  case h_24 => cases h; exact planVred_yields (e := v)
  case h_25 => cases h; exact planVscan_yields (e := v)
  case h_26 => cases h; exact planVperm_yields (e := v)
  case h_27 => cases h; exact planVsoft_yields (e := v)
  case h_28 => cases h; exact planVbsr_yields (e := v)
  case h_29 => cases h
  all_goals
    cases h
    exact elementForm_yields

/-! ### Reads and writes of elements -/

theorem elemPlace_frame {x : ElemRef} {acc : Nat} {p : Place} {s t : State} (h : (elemPlace x acc).run s = .ok p t) : HandleFrame s t := by
  unfold elemPlace at h
  dsimp only at h
  split at h
  · rw [M.bind_fail] at h
    cases h
  · rw [M.bind_curBid] at h
    obtain ⟨v, u, hv, hp⟩ := M.bind_cases h
    unfold entryVer at hv
    rw [M.bind_curEng, M.run_pure] at hv
    cases hv
    exact handlePlace_frame hp

/-- An element of a local region that can be read is read, and nothing changes. -/
theorem readElem_local {s : State} {x : ElemRef} {v : Nat} (hx : x.reg.handle = false) (h : elemValue s x = some v) :
    (readElem x).run s = .ok v s := by
  unfold elemValue at h
  obtain ⟨bs, hb, rfl⟩ := Option.map_eq_some_iff.mp h
  unfold readElem
  rw [M.bind_curBid, hx, if_neg Bool.false_ne_true, M.bind_ok (loadLocal_ok hb), M.run_pure]

/-- An element of a handle region is read at its place. -/
theorem readElem_handle {s t : State} {x : ElemRef} {v : Nat} (hx : x.reg.handle = true) (h : elemAt s x = some (v, t)) :
    (readElem x).run s = .ok v t ∧ HandleFrame s t := by
  unfold elemAt at h
  split at h
  next p u hp =>
    obtain ⟨bs, hb, he⟩ := Option.map_eq_some_iff.mp h
    cases he
    refine ⟨?_, elemPlace_frame hp⟩
    unfold readElem
    rw [M.bind_curBid, if_pos hx, M.bind_assoc, M.bind_ok hp, M.bind_ok (loadBytes_ok hb), M.run_pure]
  next => cases h

theorem elemsRead_cons (x : ElemRef) (xs : List ElemRef) (s : State) :
    elemsRead (x :: xs) s = (if x.reg.handle then elemAt s x else (elemValue s x).map (·, s)).bind fun p =>
      (elemsRead xs p.2).bind fun q => some (p.1 :: q.1, q.2) := by
  rw [elemsRead]
  split <;> rfl

/-- Elements that can be read are read one after the other. -/
theorem readAll_ok {ops : List Word} : ∀ {xs : List ElemRef} {acc vs : List Nat} {s t : State}, elemsRead xs s = some (vs, t) →
    (readAll ops xs acc).run s = .ok (acc.reverse ++ vs) t ∧ HandleFrame s t
  | [], acc, vs, s, t, h => by
    cases h
    exact ⟨by rw [readAll, M.run_pure, List.append_nil], HandleFrame.refl s⟩
  | x :: xs, acc, vs, s, t, h => by
    rw [elemsRead_cons] at h
    obtain ⟨⟨v, u⟩, hv, h'⟩ := Option.bind_eq_some_iff.mp h
    obtain ⟨⟨ws, w⟩, hw, he⟩ := Option.bind_eq_some_iff.mp h'
    cases he
    have hread : (readElem x).run s = .ok v u ∧ HandleFrame s u := by
      by_cases hx : x.reg.handle = true
      · rw [if_pos hx] at hv
        exact readElem_handle hx hv
      · rw [if_neg hx] at hv
        obtain ⟨v', hv', he⟩ := Option.map_eq_some_iff.mp hv
        cases he
        exact ⟨readElem_local (eq_false_of_ne_true hx) hv', HandleFrame.refl s⟩
    obtain ⟨hrest, hf⟩ := readAll_ok (ops := ops) (acc := v :: acc) hw
    refine ⟨?_, hread.2.trans hf⟩
    rw [readAll, M.bind_ok (M.tryCatch_ok hread.1), hrest, List.reverse_cons, List.append_assoc, List.singleton_append]

/-- Flags raised in k15 of a bank (R296). -/
def State.flagged (s : State) (bid g : Nat) : State :=
  if g = 0 then s else s.modBank bid (fun b => b.modEngine .vx (·.modRegs (fun r => { r with k := r.k.set 15 (r.k[15] ||| BitVec.ofNat 16 g) })))

theorem raiseFlags_run (g : Nat) (s : State) : (raiseFlags g).run s = .ok () (s.flagged s.cur.bid g) := by
  unfold raiseFlags State.flagged
  split
  · rfl
  · rw [M.run_modRegs]

theorem flagged_cur (s : State) (bid g : Nat) : (s.flagged bid g).cur = s.cur := by
  unfold State.flagged
  split <;> rfl

/-- One result written to an element, with its flags, at a local or a handle region. -/
def putOne (reg : Region) (nib : Nat) (s : State) (w : Nat × Nat × Nat) : Option State :=
  if reg.handle then putAt reg nib s w else some (putElem reg nib s w)

theorem writeElem_ok {reg : Region} {nib : Nat} {s t : State} {w : Nat × Nat × Nat} (h : putOne reg nib s w = some t) :
    ∃ u, (writeElem ⟨reg, nib, w.1⟩ w.2.1).run s = .ok () u ∧ u.cur = s.cur ∧ t = u.flagged s.cur.bid w.2.2 := by
  unfold putOne at h
  by_cases hr : reg.handle = true
  · rw [if_pos hr] at h
    unfold putAt at h
    dsimp only at h
    split at h
    next p u hp =>
      cases h
      refine ⟨_, ?_, ?_, rfl⟩
      · unfold writeElem
        dsimp only
        rw [M.bind_curBid, if_pos hr, M.bind_ok hp, M.run_modify]
      · exact (keeps_storeAt ..).cur.trans (elemPlace_frame hp).cur
    next => cases h
  · rw [if_neg hr] at h
    cases h
    refine ⟨_, ?_, (keeps_storeLocalBlock ..).cur, rfl⟩
    unfold writeElem
    dsimp only
    rw [M.bind_curBid, if_neg hr, M.run_modify]

theorem elemsPut_cons (reg : Region) (nib : Nat) (w : Nat × Nat × Nat) (ws : List (Nat × Nat × Nat)) (s : State) :
    elemsPut reg nib (w :: ws) s = (putOne reg nib s w).bind (elemsPut reg nib ws) := by
  unfold putOne
  split
  next h => rw [elemsPut, if_pos h]; rfl
  next h => rw [elemsPut, if_neg h]; rfl

/-- Results that can be written are written one after the other. -/
theorem writeAll_ok {ops : List Word} {reg : Region} {nib : Nat} : ∀ {ws : List (Nat × Nat × Nat)} {s t : State},
    elemsPut reg nib ws s = some t → (writeAll ops reg nib ws).run s = .ok () t ∧ t.cur = s.cur
  | [], s, t, h => by
    cases h
    exact ⟨M.run_pure .., rfl⟩
  | (i, v, g) :: ws, s, t, h => by
    rw [elemsPut_cons] at h
    obtain ⟨x, hx, hrest⟩ := Option.bind_eq_some_iff.mp h
    obtain ⟨u, hw, hc, rfl⟩ := writeElem_ok hx
    obtain ⟨hr, hcur⟩ := writeAll_ok (ops := ops) hrest
    refine ⟨?_, hcur.trans ((flagged_cur ..).trans hc)⟩
    rw [writeAll, M.bind_ok (M.tryCatch_ok hw), M.bind_ok (raiseFlags_run ..), hc]
    exact hr

/-! ### The word -/

/-- The bank in execution has the gang and the elements of q2 that it had. -/
structure OutQueueKept (s t : State) : Prop where
  cur : t.cur = s.cur
  gang : (t.bank s.cur.bid).gang = (s.bank s.cur.bid).gang
  out : (t.bank s.cur.bid).queueOf 2#3 = (s.bank s.cur.bid).queueOf 2#3

theorem OutQueueKept.trans {s t u : State} (h : OutQueueKept s t) (k : OutQueueKept t u) : OutQueueKept s u := by
  obtain ⟨kc, kg, ko⟩ := k
  rw [h.cur] at kg ko
  exact ⟨kc.trans h.cur, kg.trans h.gang, ko.trans h.out⟩

theorem OutQueueKept.of_handle {s t : State} (h : HandleFrame s t) : OutQueueKept s t := by
  refine ⟨h.cur, ?_, ?_⟩
  · rw [h.bank]
  · rw [h.bank]
    rfl

theorem OutQueueKept.modBank {s : State} {bid : Nat} {f : Bank → Bank} (hb : bid = s.cur.bid) (hg : (f (s.bank bid)).gang = (s.bank bid).gang)
    (ho : (f (s.bank bid)).queueOf 2#3 = (s.bank bid).queueOf 2#3) : OutQueueKept s (s.modBank bid f) := by
  subst hb
  refine ⟨rfl, ?_, ?_⟩
  all_goals
    rw [State.bank_modBank, if_pos rfl]
    assumption

theorem OutQueueKept.popped (c : VectorForm) (s : State) : OutQueueKept s (vectorPopped c s) := by
  refine OutQueueKept.modBank rfl ?_ ?_
  · dsimp only
    split <;> rfl
  · dsimp only
    split
    · rfl
    · refine Vector.getElem_set_ne (Fin.isLt _) (Fin.isLt _) ?_
      unfold sourceQueue
      split <;> decide

theorem OutQueueKept.flagged {s : State} {bid : Nat} (hb : bid = s.cur.bid) (g : Nat) : OutQueueKept s (s.flagged bid g) := by
  unfold State.flagged
  split
  · exact ⟨rfl, rfl, rfl⟩
  · exact OutQueueKept.modBank hb rfl rfl

theorem OutQueueKept.handleBank {s t : State} (h : OutQueueKept s t) : t.handleBank s.cur.bid = s.handleBank s.cur.bid := by
  unfold State.handleBank
  rw [h.gang]

/-- An element goes to q2 of the bank, or nowhere in a follower. -/
theorem deliver_q2 {s w : State} {v : Word} {ok : Bool} (h : OutQueueKept s w)
    (hq : s.handleBank s.cur.bid = s.cur.bid → (s.own.queueOf 2#3).length < 32) :
    (deliver .vx 2#3 v ok).run w = .ok () (if s.handleBank s.cur.bid = s.cur.bid
      then w.modBank s.cur.bid (fun b => b.pushElem 2#3 ⟨v, ok, (b.engine .vx).phase, false⟩) else w) := by
  have hb : w.handleBank w.cur.bid = s.handleBank s.cur.bid := by rw [h.cur, h.handleBank]
  by_cases hd : s.handleBank s.cur.bid = s.cur.bid
  · have hown : w.own = w.bank s.cur.bid := by rw [← h.cur]
    have hroom : ¬ 32 ≤ (w.own.queueOf 2#3).length := by
      rw [hown, h.out]
      exact Nat.not_le.mpr (hq hd)
    rw [deliver_run (by rw [hb, hd, h.cur]), if_neg hroom, if_pos hd, h.cur, hown]
    rfl
  · rw [deliver_follower (by rw [hb, h.cur]; exact hd), if_neg hd]

theorem run_operands_take {s : State} {e : Engine} {n : Nat} (hn : n ≤ (s.ownRegs e).pstack.length)
    (hroom : (s.ownRegs e).pstack.length ≤ 8 + n) : (operands e n 0).run s = .ok ((s.ownRegs e).pstack.take n) s :=
  run_operands (rest := (s.ownRegs e).pstack.drop n) (List.take_append_drop _ _).symm (List.length_take_of_le hn)
    (by rw [List.length_drop]; omega)

theorem delivers_run (s : State) : delivers.run s = .ok (decide (s.handleBank s.cur.bid = s.cur.bid)) s := rfl

/-- A word that delivers to q2 does not wait for it where it has room. -/
theorem outQueue_hasRoom {s : State} {q : Bool} (hq : q = true → s.handleBank s.cur.bid = s.cur.bid → (s.own.queueOf 2#3).length < 32) :
    ¬ (q && decide (s.handleBank s.cur.bid = s.cur.bid) && decide (elemDepth ≤ ((s.bank s.cur.bid).queueOf 2#3).length)) = true := by
  simp only [Bool.and_eq_true, decide_eq_true_eq]
  exact fun ⟨⟨h1, h2⟩, h3⟩ => Nat.not_le.mpr (hq h1 h2) h3

section VectorWord

variable {s : State} {pops : Nat} {src : BitVec 2} {q : Bool} {plan : EngRegs → List Word → Word → M VJob} {ops : List Word} {vs : Word}
  {job0 job : VJob}

/-- The queue operand: 0 where the word takes none. -/
def takesOperand (s : State) (src : BitVec 2) (vs : Word) : Prop :=
  (src = 0#2 → vs = 0#64) ∧ (src ≠ 0#2 → ∃ x rest, s.own.queueOf (sourceQueue src) = x :: rest ∧ x.value = vs
    ∧ x.bad = false ∧ PMap.get 0 (s.own.engine .vx).checked (sourceQueue src).toNat ≠ 0)

/-- A word that begins, past its checks, is its reads and writes from the state in which it has popped. -/
theorem runVector_begins (hrun : (s.own.engine .vx).stopped = none) (hpops : pops ≤ (s.ownRegs .vx).pstack.length)
    (hroom : (s.ownRegs .vx).pstack.length ≤ 8 + pops)
    (h0 : (plan (s.ownRegs .vx) ((s.ownRegs .vx).pstack.take pops) 0).run s = .ok job0 s)
    (h1 : ∀ t, (plan (s.ownRegs .vx) ((s.ownRegs .vx).pstack.take pops) vs).run t = .ok job t)
    (hv : takesOperand s src vs) (hq : q = true → s.handleBank s.cur.bid = s.cur.bid → (s.own.queueOf 2#3).length < 32) :
    (runVector pops src q plan).run s
      = (runVector.go ((s.ownRegs .vx).pstack.take pops ++ [vs]) job []).run (vectorPopped ⟨pops, src, q, plan⟩ s) := by
  have hfront : src ≠ 0#2 → (queueFront .vx (sourceQueue src) >>= fun e => pure e.value).run s = .ok vs s := fun hs => by
    obtain ⟨x, rest, hqueue, rfl, hbad, hchecked⟩ := hv.2 hs
    rw [M.bind_ok ((queueFront_run hqueue hbad).trans (if_neg hchecked)), M.run_pure]
  unfold runVector
  rw [M.bind_curEng, show ((s.bank s.cur.bid).engine .vx).stopped = none from hrun]
  dsimp only
  rw [State.regs_eq_ownRegs, M.bind_ok (run_operands_take hpops hroom), M.bind_ok h0]
  by_cases hs : src = 0#2
  · rw [if_pos hs, hv.1 hs, M.bind_pure, M.bind_ok (delivers_run s), M.bind_curBank, if_neg (outQueue_hasRoom hq), M.bind_restack, if_neg (not_not.mpr hs)]
    refine (M.bind_ok ((congrArg (fun v => (plan _ _ v).run _) (hv.1 hs).symm).trans (h1 _))).trans ?_
    unfold vectorPopped
    simp only [if_pos hs]
    rfl
  · rw [if_neg hs, M.bind_ok (hfront hs), M.bind_ok (delivers_run s), M.bind_curBank, if_neg (outQueue_hasRoom hq), M.bind_restack, if_pos hs, M.bind_modCur,
      M.bind_ok (h1 _)]
    unfold vectorPopped
    simp only [if_neg hs, State.modBank_modBank, State.modBank_cur]
    rfl

/-- What a vector word pushes once it has written: an element with its flags, or nothing. -/
def pushResult : Option (Nat × Bool × Nat) → M Flow
  | some (v, ok, f) => do
    raiseFlags f
    deliver .vx 2#3 (BitVec.ofNat 64 v) ok
    return .next
  | none => return .next

/-- Reads and writes that can be made are made; what goes to q2 goes there last. -/
theorem runVectorGo_ok {u1 u2 t : State} {v1 v2 : List Nat} (hr1 : elemsRead (job.reads []) s = some (v1, u1))
    (hr2 : elemsRead ((job.reads v1).drop v1.length) u1 = some (v2, u2))
    (hw : elemsPut job.dst job.nib (job.writes (v1 ++ v2))
      (u2.modBank s.cur.bid (fun b => b.modEngine .vx (·.modRegs (job.regs (v1 ++ v2))))) = some t) :
    (runVector.go ops job []).run s = (pushResult (job.push (v1 ++ v2))).run t := by
  obtain ⟨h1, f1⟩ := readAll_ok (ops := ops) (acc := []) hr1
  obtain ⟨h2, f2⟩ := readAll_ok (ops := ops) (acc := v1.reverse) hr2
  rw [List.reverse_nil, List.nil_append] at h1
  rw [List.reverse_reverse] at h2
  unfold runVector.go
  rw [List.length_nil, List.drop_zero, List.reverse_nil, M.bind_ok h1, M.bind_ok h2, M.bind_modRegs, f2.cur, f1.cur,
    M.bind_ok (writeAll_ok hw).1]
  cases job.push (v1 ++ v2) <;> rfl

end VectorWord

end Sys2Proof.Machine

namespace Sys2Proof.Proofs
open Sys2Proof Sys2Proof.Machine

/-- Settles O39, by the checks of the word, and then by recursion on the elements read and written. -/
theorem vectorWordsComplete : Obligations.VectorWordsComplete := by
  unfold Obligations.VectorWordsComplete
  intro s u1 u2 t i c job job0 vs v1 v2 he hrun hc id r ops hpops hroom h0 h1 hv0 hvq hq hr1 hr2 hw
  have hrun := (runVector_begins (src := c.src) (q := c.queue) hrun hpops hroom (h0 s) h1 ⟨hv0, hvq⟩ hq).trans (runVectorGo_ok hr1 hr2 hw)
  rw [exec_vectorForm hc]
  refine ⟨fun hnone => runWord_ok he (hrun.trans ?_), fun v ok g hsome => runWord_ok he (hrun.trans ?_)⟩
  · rw [hnone]
    rfl
  · have hqueue := vectorForm_yields hc r ops vs s s job (h1 s)
    have hc' : c.queue = true := by
      cases hcq : c.queue with
      | true => rfl
      | false => exact absurd ((hqueue.1 hcq _).symm.trans hsome) (by simp)
    rw [hqueue.2 hc'] at hw
    have hkept : OutQueueKept s (t.flagged id g) := by
      have hpop := OutQueueKept.popped c s
      have h1 := (readAll_ok (ops := []) (acc := []) hr1).2
      have h2 := (readAll_ok (ops := []) (acc := []) hr2).2
      have hu := hpop.trans (.of_handle (h1.trans h2))
      have hbid : s.cur.bid = u2.cur.bid := by rw [hu.cur]
      cases hw
      exact (hu.trans (OutQueueKept.modBank (f := fun b => b.modEngine .vx (·.modRegs (job.regs (v1 ++ v2)))) hbid rfl rfl)).trans
        (OutQueueKept.flagged (s := u2.modBank _ _) hbid g)
    rw [hsome, pushResult]
    have hc : t.cur = s.cur := (flagged_cur t id g).symm.trans hkept.cur
    rw [M.bind_ok (raiseFlags_run g t), hc]
    refine (M.bind_ok (deliver_q2 hkept (hq hc'))).trans (M.run_pure ..)

end Sys2Proof.Proofs
end

-- ==== The select words (O38) ====
section
/-! SUPPORT. The select words: what they compute of a key array, and their completion (R218, R284 to R286). -/

namespace Sys2Proof.Machine

-- One proof at a time: the whole text compiles in one process of bounded memory.
set_option Elab.async false

/-! ### Keys above a key, and equal to it -/

section Keys

variable (ks : List Nat)

/-- A key array has no more keys above a higher key, and those above are those from the next key on. -/
theorem above_eq_of_pred (t : Nat) : above ks t = above ks (t + 1) + equals ks (t + 1) := by
  unfold above equals
  induction ks with
  | nil => rfl
  | cons k ks ih =>
    simp only [List.filter_cons, decide_eq_true_eq]
    rcases Nat.lt_trichotomy k (t + 1) with h | h | h
    · rw [if_neg (by omega), if_neg (by omega), if_neg (by omega)]
      exact ih
    · rw [if_pos (by omega), if_neg (by omega), if_pos h.symm, List.length_cons, List.length_cons, ih]
      rfl
    · rw [if_pos (by omega), if_pos h, if_neg (by omega), List.length_cons, List.length_cons, ih]
      omega

theorem above_zero : ks.length = above ks 0 + equals ks 0 := by
  unfold above equals
  induction ks with
  | nil => rfl
  | cons k ks ih =>
    simp only [List.filter_cons, decide_eq_true_eq]
    by_cases h : 0 = k
    · rw [if_neg (by omega), if_pos h, List.length_cons, List.length_cons, ih]
      rfl
    · rw [if_pos (by omega), if_neg h, List.length_cons, List.length_cons, ih]
      omega

/-- No key is above the sum of all. -/
theorem above_sum : above ks ks.sum = 0 := by
  unfold above
  rw [List.length_eq_zero_iff, List.filter_eq_nil_iff]
  intro k hk
  simpa using List.le_sum_of_mem hk

/-- The key at a rank: fewer keys than the rank are above it, and with its ties they reach the rank. -/
theorem exists_rank {m : Nat} (h1 : 1 ≤ m) (hm : m ≤ ks.length) : ∃ t ∈ ks, above ks t < m ∧ m ≤ above ks t + equals ks t := by
  have hex : ∃ t, above ks t < m := ⟨ks.sum, by rw [above_sum]; exact h1⟩
  classical
  have hlow := Nat.find_spec hex
  have hhigh : m ≤ above ks (Nat.find hex) + equals ks (Nat.find hex) := by
    cases hf : Nat.find hex with
    | zero => rw [← above_zero]; exact hm
    | succ t =>
      rw [← above_eq_of_pred]
      exact Nat.le_of_not_lt (Nat.find_min hex (by omega))
  refine ⟨Nat.find hex, ?_, hlow, hhigh⟩
  have hne : (ks.filter (Nat.find hex = ·)).length ≠ 0 := fun h => by
    unfold equals at hhigh
    omega
  obtain ⟨k, hk⟩ := List.exists_mem_of_length_pos (Nat.pos_of_ne_zero hne)
  obtain ⟨hmem, heq⟩ := List.mem_filter.mp hk
  rwa [of_decide_eq_true heq]

/-- `Sel(m)` names a key of that rank. -/
theorem selOf_rank {m : Nat} (h1 : 1 ≤ m) (hm : m ≤ ks.length) :
    ∃ t ∈ ks, above ks t < m ∧ m ≤ above ks t + equals ks t ∧ selOf ks m = BitVec.ofNat 64 (t * 2 ^ 32 + (m - above ks t)) := by
  obtain ⟨t, ht, hrank⟩ := exists_rank ks h1 hm
  have hsome : (ks.find? (fun k => decide (above ks k < m) && decide (m ≤ above ks k + equals ks k))).isSome := by
    rw [List.find?_isSome]
    exact ⟨t, ht, by simpa using hrank⟩
  obtain ⟨k, hk⟩ := Option.isSome_iff_exists.mp hsome
  have hp := List.find?_some hk
  rw [Bool.and_eq_true, decide_eq_true_eq, decide_eq_true_eq] at hp
  refine ⟨k, List.mem_of_find?_eq_some hk, hp.1, hp.2, ?_⟩
  unfold selOf
  rw [if_neg (by omega), hk]
  rfl

/-! ### Selected indices -/

/-- Indices of the keys of a list, numbered from `o`, that satisfy a property. -/
def indicesWhere (p : Nat → Bool) (o : Nat) (ks : List Nat) : List Nat := ((ks.zipIdx o).filter (fun x => p x.1)).map (·.2)

theorem length_indicesWhere (p : Nat → Bool) (o : Nat) : (indicesWhere p o ks).length = (ks.filter p).length := by
  unfold indicesWhere
  induction ks generalizing o with
  | nil => rfl
  | cons k ks ih =>
    simp only [List.zipIdx_cons, List.filter_cons]
    by_cases h : p k = true
    · rw [if_pos h, if_pos h, List.map_cons, List.length_cons, List.length_cons, ih]
    · rw [if_neg h, if_neg h, ih]

theorem indicesWhere_cons (p : Nat → Bool) (o x : Nat) :
    indicesWhere p o (x :: ks) = if p x then o :: indicesWhere p (o + 1) ks else indicesWhere p (o + 1) ks := by
  unfold indicesWhere
  rw [List.zipIdx_cons, List.filter_cons]
  split <;> rfl

theorem mem_indicesWhere {p : Nat → Bool} {i : Nat} : i ∈ indicesWhere p 0 ks ↔ ∃ k, ks[i]? = some k ∧ p k = true := by
  unfold indicesWhere
  simp only [List.mem_map, List.mem_filter, List.mem_zipIdx_iff_getElem?, Prod.exists]
  constructor
  · rintro ⟨k, j, ⟨hk, hp⟩, rfl⟩
    exact ⟨k, hk, hp⟩
  · rintro ⟨k, hk, hp⟩
    exact ⟨k, i, ⟨hk, hp⟩, rfl⟩

/-- Indices taken from a numbered list by a property rise. -/
theorem pairwise_zipIdx_filter (q : Nat × Nat → Bool) : List.Pairwise (· < ·) ((ks.zipIdx.filter q).map (·.2)) := by
  refine List.Pairwise.sublist (List.filter_sublist.map _) ?_
  rw [List.zipIdx_map_snd]
  exact List.pairwise_lt_range'

/-- The first `n` of such indices are those with fewer than `n` before them. -/
theorem mem_take_indicesWhere {p : Nat → Bool} {i : Nat} : ∀ {ks : List Nat} {n o : Nat},
    i ∈ (indicesWhere p o ks).take n ↔ ∃ j k, i = o + j ∧ ks[j]? = some k ∧ p k = true ∧ ((ks.take j).filter p).length < n
  | [], n, o => by simp [indicesWhere]
  | x :: ks, n, o => by
    have hsplit : (∃ j k, i = o + j ∧ (x :: ks)[j]? = some k ∧ p k = true ∧ (((x :: ks).take j).filter p).length < n)
        ↔ (i = o ∧ p x = true ∧ 0 < n)
          ∨ ∃ j k, i = o + 1 + j ∧ ks[j]? = some k ∧ p k = true ∧ (if p x then 1 else 0) + ((ks.take j).filter p).length < n := by
      constructor
      · rintro ⟨j, k, hi, hk, hp, hlt⟩
        cases j with
        | zero =>
          cases hk
          exact .inl ⟨hi, hp, hlt⟩
        | succ j =>
          refine .inr ⟨j, k, by omega, hk, hp, ?_⟩
          rw [List.take_succ_cons, List.filter_cons] at hlt
          split at hlt
          next h => rw [if_pos h]; rw [List.length_cons] at hlt; omega
          next h => rw [if_neg h]; omega
      · rintro (⟨hi, hp, hn⟩ | ⟨j, k, hi, hk, hp, hlt⟩)
        · exact ⟨0, x, hi, rfl, hp, hn⟩
        · refine ⟨j + 1, k, by omega, hk, hp, ?_⟩
          rw [List.take_succ_cons, List.filter_cons]
          split at hlt
          next h => rw [if_pos h, List.length_cons]; omega
          next h => rw [if_neg h]; omega
    rw [hsplit, indicesWhere_cons]
    by_cases hx : p x = true
    · rw [if_pos hx]
      cases n with
      | zero => simp
      | succ n =>
        rw [List.take_succ_cons, List.mem_cons, mem_take_indicesWhere]
        simp only [hx, if_true, Nat.add_comm 1, Nat.add_lt_add_iff_right, Nat.succ_pos, and_true]
    · rw [if_neg hx, mem_take_indicesWhere]
      simp [hx]

/-- The ties that `cmpk` takes. -/
def tiesTaken (t need : Nat) (ks : List Nat) : List Nat := (indicesWhere (fun k => t = k) 0 ks).take need

theorem selected_eq (t need : Nat) :
    selected t need ks = ((ks.zipIdx.filter (fun x => decide (t < x.1) || (tiesTaken t need ks).contains x.2)).map (·.2)) := by
  have hties : ((keyed ks).filter (fun k => k.2 = t)).map (·.1) = indicesWhere (fun k => t = k) 0 ks := by
    unfold keyed indicesWhere
    rw [List.filter_map, List.map_map]
    simp only [Function.comp_def, eq_comm]
  unfold selected tiesTaken
  dsimp only
  rw [hties]
  unfold keyed
  rw [List.filter_map, List.map_map]
  rfl

theorem pairwise_selected (t need : Nat) : List.Pairwise (· < ·) (selected t need ks) := by
  rw [selected_eq]
  exact pairwise_zipIdx_filter ks _

theorem mem_tiesTaken {t need i : Nat} : i ∈ tiesTaken t need ks ↔ ks[i]? = some t ∧ equals (ks.take i) t < need := by
  unfold tiesTaken equals
  rw [mem_take_indicesWhere]
  constructor
  · rintro ⟨j, k, hi, hk, ht, hlt⟩
    obtain rfl : i = j := by omega
    rw [of_decide_eq_true ht]
    exact ⟨of_decide_eq_true ht ▸ hk, of_decide_eq_true ht ▸ hlt⟩
  · rintro ⟨hk, hlt⟩
    exact ⟨i, t, (Nat.zero_add i).symm, hk, decide_eq_true rfl, hlt⟩

theorem mem_selected {t need i : Nat} :
    i ∈ selected t need ks ↔ ∃ k, ks[i]? = some k ∧ (t < k ∨ (k = t ∧ equals (ks.take i) t < need)) := by
  rw [selected_eq]
  simp only [List.mem_map, List.mem_filter, List.mem_zipIdx_iff_getElem?, Prod.exists, Bool.or_eq_true, decide_eq_true_eq,
    List.contains_iff_mem, mem_tiesTaken]
  constructor
  · rintro ⟨k, j, ⟨hk, h⟩, rfl⟩
    refine ⟨k, hk, h.imp_right fun ⟨ht, hlt⟩ => ⟨?_, hlt⟩⟩
    exact Option.some_inj.mp (hk.symm.trans ht)
  · rintro ⟨k, hk, h⟩
    refine ⟨k, i, ⟨hk, h.imp_right fun ⟨ht, hlt⟩ => ⟨ht ▸ hk, hlt⟩⟩, rfl⟩

/-- `cmpk` selects the keys above, and of the ties as many as it needs. -/
theorem length_selected (t need : Nat) : (selected t need ks).length = above ks t + min need (equals ks t) := by
  have hnodup : ∀ {l : List Nat}, List.Pairwise (· < ·) l → l.Nodup := fun h => h.imp fun h => Nat.ne_of_lt h
  have hperm : (selected t need ks).Perm (indicesWhere (fun k => t < k) 0 ks ++ tiesTaken t need ks) := by
    refine (List.perm_ext_iff_of_nodup (hnodup (pairwise_selected ks t need)) ?_).mpr fun i => ?_
    · refine List.Nodup.append (hnodup (pairwise_zipIdx_filter ks _))
        ((hnodup (pairwise_zipIdx_filter ks _)).sublist (List.take_sublist ..)) fun i hi ht => ?_
      obtain ⟨k, hk, hlt⟩ := (mem_indicesWhere ks).mp hi
      rw [((mem_tiesTaken ks).mp ht).1] at hk
      cases hk
      exact Nat.lt_irrefl t (of_decide_eq_true hlt)
    · rw [mem_selected, List.mem_append, mem_indicesWhere, mem_tiesTaken]
      constructor
      · rintro ⟨k, hk, h | ⟨rfl, h⟩⟩
        · exact .inl ⟨k, hk, decide_eq_true h⟩
        · exact .inr ⟨hk, h⟩
      · rintro (⟨k, hk, h⟩ | ⟨hk, h⟩)
        · exact ⟨k, hk, .inl (of_decide_eq_true h)⟩
        · exact ⟨t, hk, .inr ⟨rfl, h⟩⟩
  rw [hperm.length_eq, List.length_append, length_indicesWhere]
  unfold tiesTaken
  rw [List.length_take, length_indicesWhere]
  rfl

/-! ### Histograms -/

theorem sum_indicator (a n : Nat) : ((List.range n).map (fun v => if a = v then 1 else 0)).sum = if a < n then 1 else 0 := by
  induction n with
  | zero => simp
  | succ n ih =>
    rw [List.range_succ, List.map_append, List.sum_append, ih, List.map_singleton, List.sum_singleton]
    rcases Nat.lt_trichotomy a n with h | h | h
    · rw [if_pos h, if_neg (by omega), if_pos (by omega)]
    · rw [if_neg (by omega), if_pos h, if_pos (by omega)]
    · rw [if_neg (by omega), if_neg (by omega), if_neg (by omega)]

/-- The counts of a list by a number below `n` sum up to its length. -/
theorem sum_counts (g : Nat → Nat) (n : Nat) (hg : ∀ k, g k < n) :
    ((List.range n).map (fun v => (ks.filter (fun k => g k = v)).length)).sum = ks.length := by
  induction ks with
  | nil => simp
  | cons k ks ih =>
    have hcons : (fun v => ((k :: ks).filter (fun k => decide (g k = v))).length)
        = fun v => (if g k = v then 1 else 0) + (ks.filter (fun k => decide (g k = v))).length := by
      funext v
      rw [List.filter_cons]
      by_cases h : g k = v
      · rw [if_pos (decide_eq_true h), if_pos h, List.length_cons, Nat.add_comm]
      · rw [if_neg (by simpa using h), if_neg h, Nat.zero_add]
    rw [hcons, List.sum_map_add, sum_indicator, if_pos (hg k), ih, List.length_cons, Nat.add_comm]

theorem histogram_sum (p : Nat) : (histogram 0 p ks).sum = ks.length := by
  have hall : ks.filter (fun k => decide (0 = 0) || decide (bits k (32 - 8 * 0) (8 * 0) = bits p (32 - 8 * 0) (8 * 0))) = ks :=
    List.filter_eq_self.mpr fun k _ => rfl
  unfold histogram
  rw [hall]
  exact sum_counts ks (fun k => bits k (24 - 8 * 0) 8) 256 fun k => Nat.mod_lt _ (by decide)

end Keys

/-! ### The words -/

/-- The bank once a select word has replaced its operands. -/
def State.selectEnds (t : State) (bid n : Nat) (push : List Word) : State :=
  (t.modBank bid (fun b => b.modEngine .sx (·.modRegs (fun r => { r with pstack := push ++ r.pstack.drop n })))).flow bid .sx .next

section SelectWords

variable {s : State}

/-- A select word whose operands are there, and whose body gives a result, replaces them by it. -/
theorem campion_ok {n k : Nat} {f : List Word → M (List Word)} {t : State} {ops rest push : List Word}
    (he : s.cur.eng = some .sx) (hst : (s.ownRegs .sx).pstack = ops ++ rest) (hn : ops.length = n) (hroom : rest.length + k ≤ 8)
    (h : (f ops).run s = .ok push t) (hc : t.cur = s.cur) :
    campion n k f s = .next (t.selectEnds s.cur.bid n push) := by
  refine runWord_ok he ?_
  rw [M.bind_ok (run_operands hst hn hroom), M.bind_ok h, M.bind_restack, M.run_pure, hc]

theorem loadValues_ok {a : Word} {n w : Nat} {bs : List Byte} (h : s.localBytes s.cur.bid .sx a.toNat (n * w) = some bs) :
    (loadValues a n w).run s = .ok (valuesOf bs n w) s := by
  unfold loadValues
  rw [M.bind_curBid, M.bind_ok (loadLocal_ok h)]
  rfl

theorem storeValues_run (a : Word) (w : Nat) (vs : List Nat) (s : State) :
    (storeValues a w vs).run s = .ok () (s.storeLocalBlock s.cur.bid .sx a.toNat (vs.map (leBytes w)).flatten) := rfl

theorem countOk_iff {n : Nat} : countOk n = true ↔ 1 ≤ n ∧ n ≤ 2 ^ 20 := by
  unfold countOk
  rw [Bool.and_eq_true, decide_eq_true_eq, decide_eq_true_eq]

theorem length_valuesOf (bs : List Byte) (n w : Nat) : (valuesOf bs n w).length = n := by
  unfold valuesOf
  rw [List.length_map, List.length_range]

/-- The keys of an `skey`: those that overlap their source are free. -/
def skeyKeys (f : Nat) (free : Nat → Bool) (vs : List Nat) (o : Nat) : M (List Nat) :=
  (vs.zipIdx o).mapM (fun p => do if free p.2 then return (← freshWord).toNat else return keyOf f p.1)

/-- Keys that do not overlap their source are the keys of its values. -/
theorem skeyKeys_determined (f : Nat) {free : Nat → Bool} : ∀ (vs : List Nat) (o : Nat) (s : State),
    (∀ i, o ≤ i → i < o + vs.length → free i = false) → (skeyKeys f free vs o).run s = .ok (vs.map (keyOf f)) s
  | [], o, s, _ => rfl
  | v :: vs, o, s, h => by
    have ih := skeyKeys_determined f vs (o + 1) s fun i h1 h2 => h i (by omega) (by rw [List.length_cons]; omega)
    unfold skeyKeys at ih ⊢
    rw [List.zipIdx_cons, List.mapM_cons, h o le_rfl (by rw [List.length_cons]; omega), if_neg Bool.false_ne_true, M.bind_pure, M.bind_ok ih,
      M.run_pure]
    rfl

/-- Whatever the free keys are, the others are the keys of their values, and nothing but the count of free values changes. -/
theorem skeyKeys_run (f : Nat) (free : Nat → Bool) : ∀ (vs : List Nat) (o : Nat) (s : State),
    ∃ u ks, (skeyKeys f free vs o).run s = .ok ks { s with uses := u } ∧ ks.length = vs.length
      ∧ ∀ i, i < vs.length → free (o + i) = false → ks[i]? = some (keyOf f (vs.getD i 0))
  | [], o, s => ⟨s.uses, [], rfl, rfl, fun i h => absurd h (Nat.not_lt_zero i)⟩
  | v :: vs, o, s => by
    obtain ⟨u0, k, hk, hkey⟩ : ∃ u0 k, (do if free o then return (← freshWord).toNat else return keyOf f v : M Nat).run s
        = .ok k { s with uses := u0 } ∧ (free o = false → k = keyOf f v) := by
      cases hf : free o with
      | true => exact ⟨s.uses + 1, _, rfl, fun h => absurd h Bool.noConfusion⟩
      | false => exact ⟨s.uses, keyOf f v, rfl, fun _ => rfl⟩
    obtain ⟨u, ks, hrun, hlen, hkeys⟩ := skeyKeys_run f free vs (o + 1) { s with uses := u0 }
    refine ⟨u, k :: ks, ?_, by rw [List.length_cons, List.length_cons, hlen], fun i hi hfree => ?_⟩
    · unfold skeyKeys at hrun ⊢
      rw [List.zipIdx_cons, List.mapM_cons, M.bind_ok hk, M.bind_ok hrun, M.run_pure]
    · cases i with
      | zero => rw [hkey hfree]; rfl
      | succ i => exact hkeys i (by rw [List.length_cons] at hi; omega) (by rw [← hfree]; congr 1; omega)

/-- The elements of the destination of an `skey` that overlap its source. -/
def keyOverlaps (src dst : Word) (w n i : Nat) : Bool :=
  !(decide (dst = src) && decide (w = 4)) && decide (dst.toNat + 4 * i < src.toNat + n * w ∧ src.toNat < dst.toNat + 4 * i + 4)

theorem keyOverlaps_eq_false {src dst : Word} {w n i : Nat}
    (h : (dst = src ∧ w = 4) ∨ dst.toNat + 4 * i + 4 ≤ src.toNat ∨ src.toNat + n * w ≤ dst.toNat + 4 * i) :
    keyOverlaps src dst w n i = false := by
  unfold keyOverlaps
  rw [Bool.and_eq_false_iff]
  rcases h with ⟨h1, h2⟩ | h
  · exact .inl (by rw [decide_eq_true h1, decide_eq_true h2]; rfl)
  · exact .inr (decide_eq_false (by omega))

section Skey

variable {f : BitVec 4} {n src dst : Word} {rest : List Word} {vb : List Byte} {t : State} {ks : List Nat} (he : s.cur.eng = some .sx)
  (hst : (s.ownRegs .sx).pstack = [n, src, dst] ++ rest) (hroom : rest.length ≤ 7) (hn : countOk n.toNat = true)
  (hsrc : arrayOk src (n.toNat * selectWidth f) (selectWidth f) = true) (hdst : arrayOk dst (n.toNat * 4) 4 = true)
  (hvb : s.localBytes s.cur.bid .sx src.toNat (n.toNat * selectWidth f) = some vb)
include he hst hroom hn hsrc hdst hvb

/-- An `skey` stores the keys it makes. -/
theorem execSkey_keys (hk : (skeyKeys f.toNat (keyOverlaps src dst (selectWidth f) n.toNat) (valuesOf vb n.toNat (selectWidth f)) 0).run s
      = .ok ks t) (hc : t.cur = s.cur) :
    execSkey f s = .next ((t.storeLocalBlock s.cur.bid .sx dst.toNat ((ks.map (leBytes 4)).flatten)).selectEnds s.cur.bid 3 []) := by
  refine campion_ok he hst rfl (by omega) ?_ ((keeps_storeLocalBlock ..).cur.trans hc)
  dsimp only
  rw [hn, hsrc, hdst, if_neg (by decide), M.bind_ok (loadValues_ok hvb)]
  refine (M.bind_ok hk).trans ?_
  rw [M.bind_ok (storeValues_run ..), hc]
  rfl

end Skey

section ByKeys

variable {f : BitVec 4} {rest : List Word} {kb vb : List Byte} {n keys : Word} (he : s.cur.eng = some .sx) (hroom : rest.length ≤ 7)
  (hn : countOk n.toNat = true) (hkeys : arrayOk keys (n.toNat * 4) 4 = true)
  (hkb : s.localBytes s.cur.bid .sx keys.toNat (n.toNat * 4) = some kb)
include he hroom hn hkeys hkb

theorem execHist_ends {d : BitVec 2} {p dst : Word} (hst : (s.ownRegs .sx).pstack = [p, n, keys, dst] ++ rest)
    (hdst : arrayOk dst 1024 4 = true) :
    execHist d f s = .next ((s.storeLocalBlock s.cur.bid .sx dst.toNat
      (((histogram d.toNat p.toNat (valuesOf kb n.toNat 4)).map (leBytes 4)).flatten)).selectEnds s.cur.bid 4 []) := by
  refine campion_ok he hst rfl (by omega) ?_ (keeps_storeLocalBlock ..).cur
  dsimp only
  rw [hn, hkeys, hdst, if_neg (by decide), M.bind_ok (loadValues_ok hkb), M.bind_ok (storeValues_run ..), M.run_pure]

theorem execSelk_ends {k : Word} (hst : (s.ownRegs .sx).pstack = [k, n, keys] ++ rest) :
    execSelk f s = .next (s.selectEnds s.cur.bid 3 [selOf (valuesOf kb n.toNat 4) (min k.toNat n.toNat)]) := by
  refine campion_ok he hst rfl (by omega) ?_ rfl
  dsimp only
  rw [hn, hkeys, if_neg (by decide), M.bind_ok (loadValues_ok hkb), M.run_pure]

variable {vals : Word} (hvals : arrayOk vals (n.toNat * selectWidth f) (selectWidth f) = true)
  (hvb : s.localBytes s.cur.bid .sx vals.toNat (n.toNat * selectWidth f) = some vb)
include hvals hvb

theorem execSelp_ends {p : Word} (hst : (s.ownRegs .sx).pstack = [p, n, keys, vals] ++ rest) :
    execSelp f s = .next (s.selectEnds s.cur.bid 4 [selOf (valuesOf kb n.toNat 4) (topP (p.toNat % 2 ^ 32)
      ((descending (valuesOf kb n.toNat 4)).map (fun k => valueFp32 f ((valuesOf vb n.toNat (selectWidth f)).getD k.1 0))) 0 0)]) := by
  refine campion_ok he hst rfl (by omega) ?_ rfl
  dsimp only
  rw [hn, hkeys, hvals, if_neg (by decide), M.bind_ok (loadValues_ok hkb), M.bind_ok (loadValues_ok hvb), M.run_pure]

theorem execCmpk_ends {pair didx dval : Word} (hst : (s.ownRegs .sx).pstack = [pair, n, keys, vals, didx, dval] ++ rest) :
    let sel := selected (bits pair.toNat 32 32) (bits pair.toNat 0 32) (valuesOf kb n.toNat 4)
    arrayOk didx (sel.length * 4) 4 = true → arrayOk dval (sel.length * selectWidth f) (selectWidth f) = true →
    execCmpk f s = .next ((s.storePairs s.cur.bid didx.toNat dval.toNat (selectWidth f)
      (sel.map (fun i => (i, (valuesOf vb n.toNat (selectWidth f)).getD i 0)))).selectEnds s.cur.bid 6 [BitVec.ofNat 64 sel.length]) := by
  intro sel hdidx hdval
  refine campion_ok he hst rfl (by omega) ?_ (keeps_storePairs ..).cur
  dsimp only
  rw [hn, hkeys, hvals, if_neg (by decide), M.bind_ok (loadValues_ok hkb), hdidx, hdval, if_neg (by decide), M.bind_ok (loadValues_ok hvb),
    M.bind_curBid, M.bind_modify, M.run_pure]

end ByKeys

end SelectWords

end Sys2Proof.Machine

namespace Sys2Proof.Proofs
open Sys2Proof Sys2Proof.Machine

theorem selectMeaning : Claim.SelectMeaning := by
  unfold Claim.SelectMeaning
  intro ks m h1 hm
  obtain ⟨t, ht, hlow, hhigh, hsel⟩ := selOf_rank ks h1 hm
  refine ⟨⟨t, ht, hlow, hhigh, hsel, ?_⟩, if_pos rfl, pairwise_selected ks, fun t need i => mem_selected ks, histogram_sum ks⟩
  rw [length_selected]
  omega

theorem selectWords : Claim.SelectWords := by
  unfold Claim.SelectWords
  intro s f d rest kb vb he id w ends good stack
  refine ⟨fun n src dst ⟨hst, hroom⟩ hn hsrc hdst hapart hvb => ?_, fun n src dst ⟨hst, hroom⟩ hn hsrc hdst hvb => ?_,
    fun p n keys dst ⟨hst, hroom⟩ hn hkeys hdst hkb => execHist_ends (f := f) he hroom (countOk_iff.mpr hn) hkeys hkb hst hdst,
    fun k n keys ⟨hst, hroom⟩ hn hkeys hkb => execSelk_ends (f := f) he hroom (countOk_iff.mpr hn) hkeys hkb hst,
    fun p n keys vals ⟨hst, hroom⟩ hn hkeys hvals hkb hvb => execSelp_ends he hroom (countOk_iff.mpr hn) hkeys hkb hvals hvb hst,
    fun pair n keys vals didx dval ⟨hst, hroom⟩ hn hkeys hvals hkb hvb =>
      execCmpk_ends he hroom (countOk_iff.mpr hn) hkeys hkb hvals hvb hst⟩
  · refine execSkey_keys he hst hroom (countOk_iff.mpr hn) hsrc hdst hvb (skeyKeys_determined _ _ _ _ fun i _ hi => ?_) rfl
    rw [Nat.zero_add, length_valuesOf] at hi
    exact keyOverlaps_eq_false (hapart.imp_right fun h => h.imp (by omega) fun h => h.trans (Nat.le_add_right ..))
  · obtain ⟨u, ks, hrun, hlen, hkeys⟩ := skeyKeys_run f.toNat (keyOverlaps src dst w n.toNat) (valuesOf vb n.toNat w) 0 s
    refine ⟨u, ks, execSkey_keys he hst hroom (countOk_iff.mpr hn) hsrc hdst hvb hrun rfl, hlen.trans (length_valuesOf ..),
      fun i hi hapart => hkeys i (by rw [length_valuesOf]; exact hi) ?_⟩
    rw [Nat.zero_add]
    exact keyOverlaps_eq_false hapart

/-- Settles O38: the words by their operands; the ranks by counting the keys above and equal to a key. -/
theorem selectUnit : Obligations.SelectUnit := ⟨selectWords, selectMeaning⟩

end Sys2Proof.Proofs
end

-- ==== The context unit (O42) ====
section
/-! SUPPORT. Sorrel: `vstub`, and the context fault with what it discards (R110 to R116, R307). -/

namespace Sys2Proof.Machine

-- One proof at a time: the whole text compiles in one process of bounded memory.
set_option Elab.async false

/-! ### What a context fault discards -/

/-- Issued words of a bank that are dropped read as complete. -/
def Bank.completes (b : Bank) (f : Flight) (w : Nat) : Bank := (b.setProm f.n (fun q => { q with state := .complete })).noteCopyDom f w

theorem prom_n {b : Bank} {n : Nat} {p : Prom} (h : b.prom n = some p) : p.n = n := by
  unfold Bank.prom at h
  split at h
  · split at h
    next hn => cases h; exact hn
    · cases h
  · cases h

theorem prom_noteCopyDom (b : Bank) (f : Flight) (w n : Nat) : (b.noteCopyDom f w).prom n = b.prom n := by rw [noteCopyDom_rest]; rfl

/-- The promise of a word that is dropped is complete; any other stands. -/
theorem prom_completes (b : Bank) (f : Flight) (w n : Nat) :
    (b.completes f w).prom n = if f.n = n then (b.prom n).map (fun p => { p with state := .complete }) else b.prom n := by
  unfold Bank.completes
  rw [prom_noteCopyDom]
  unfold Bank.setProm
  cases hp : b.prom f.n with
  | none =>
    dsimp only
    split
    next h => subst h; rw [hp]; rfl
    next => rfl
  | some p =>
    have hn := prom_n hp
    dsimp only
    by_cases h : f.n = n
    · subst h
      rw [if_pos rfl, hp]
      unfold Bank.prom
      simp [hn]
    · rw [if_neg h]
      unfold Bank.prom
      dsimp only
      rw [PMap.find_put]
      by_cases hm : f.n % 64 = n % 64
      · have hother : b.prom n = none := by
          unfold Bank.prom at hp ⊢
          rw [← hm]
          split at hp
          next q hq =>
            split at hp
            next hqn => rw [if_neg (by rw [hqn]; exact h)]
            next => cases hp
          next => cases hp
        unfold Bank.prom at hother
        rw [if_pos hm, hother]
        dsimp only
        rw [if_neg (by rw [hn]; exact h)]
      · rw [if_neg hm]

theorem prom_foldl_completes (w n : Nat) : ∀ (l : List Flight) (b : Bank), (l.foldl (fun b f => b.completes f w) b).prom n
    = if n ∈ l.map (·.n) then (b.prom n).map (fun p => { p with state := .complete }) else b.prom n
  | [], b => rfl
  | f :: l, b => by
    rw [List.foldl_cons, prom_foldl_completes w n l, prom_completes]
    have hmem : n ∈ (f :: l).map (·.n) ↔ f.n = n ∨ n ∈ l.map (·.n) := by rw [List.map_cons, List.mem_cons, eq_comm]
    by_cases hl : n ∈ l.map (·.n)
    · rw [if_pos hl, if_pos (hmem.mpr (.inr hl))]
      split
      · rw [Option.map_map]
        rfl
      · rfl
    · rw [if_neg hl]
      by_cases h : f.n = n
      · rw [if_pos h, if_pos (hmem.mpr (.inl h))]
      · rw [if_neg h, if_neg fun hm => (hmem.mp hm).elim h hl]

/-- Every issued word that is dropped reads as complete. -/
theorem prom_dropFlights {b : Bank} {f : Flight} {p : Prom} (w : Nat) (hf : f ∈ b.flights) (hp : b.prom f.n = some p) :
    (b.dropFlights (fun _ => true) w).prom f.n = some { p with state := .complete } := by
  have h := prom_foldl_completes w f.n (b.flights.filter (fun _ => true)) b
  rw [if_pos (List.mem_map.mpr ⟨f, List.mem_filter.mpr ⟨hf, rfl⟩, rfl⟩), hp] at h
  exact h

/-- An engine once a context fault has discarded what it was about. -/
def Eng.discards (g : Eng) (ticks p : Nat) : Eng :=
  { g with regs := g.regs.discarded ticks, queue := [], entry := none, stopped := none, mark := none, phase := p, checked := [] }

theorem contextDiscard_engine (b : Bank) (ticks window : Nat) (ctx : Option Nat) (e : Engine) :
    (b.contextDiscard ticks window ctx).engine e = (b.engine e).discards ticks b.committed := by
  have h : (b.contextDiscard ticks window ctx).engine e
      = ((b.dropFlights (fun _ => true) window).modEngines (fun _ g => g.discards ticks b.committed)).engine e := rfl
  rw [h, modEngines_engine]
  unfold Bank.engine
  rw [dropFlights_eng]

theorem contextDiscard_rest (b : Bank) (ticks window : Nat) (ctx : Option Nat) : b.contextDiscard ticks window ctx = { b with
    eng := (b.contextDiscard ticks window ctx).eng, proms := (b.dropFlights (fun _ => true) window).proms
    copyDom := (b.dropFlights (fun _ => true) window).copyDom, flights := []
    missDue := (b.contextDiscard ticks window ctx).missDue, dq := Vector.replicate 8 [], tok := [], held := [], phase := b.committed
    ckpts := b.ckpts.filter (·.phase = b.committed), marks := (b.contextDiscard ticks window ctx).marks
    uses := b.uses.filter (·.1 = 0), ctxDue := ctx, waiter := if ctx.isSome then none else b.waiter
    core := { b.core with rv := b.core.rv.map Rv.disarm } } := by
  have hdrop := dropFlights_rest b (fun _ => true) window
  have hmod := modEngines_rest (b.dropFlights (fun _ => true) window) (fun _ g => g.discards ticks b.committed)
  have hnone : b.flights.filter (fun f => !(fun _ : Flight => true) f) = [] := List.filter_eq_nil_iff.mpr fun f _ => Bool.false_ne_true
  rw [hnone] at hdrop
  have hwhole : b.contextDiscard ticks window ctx
      = { (b.dropFlights (fun _ => true) window).modEngines (fun _ g => g.discards ticks b.committed) with
          dq := Vector.replicate 8 [], tok := [], held := [], phase := b.committed
          ckpts := ((b.dropFlights (fun _ => true) window).modEngines (fun _ g => g.discards ticks b.committed)).ckpts.filter (·.phase = b.committed)
          marks := (b.contextDiscard ticks window ctx).marks
          uses := ((b.dropFlights (fun _ => true) window).modEngines (fun _ g => g.discards ticks b.committed)).uses.filter (·.1 = 0)
          ctxDue := ctx
          waiter := if ctx.isSome then none
            else ((b.dropFlights (fun _ => true) window).modEngines (fun _ g => g.discards ticks b.committed)).waiter
          core := { (b.dropFlights (fun _ => true) window).core with rv := (b.dropFlights (fun _ => true) window).core.rv.map Rv.disarm } } := rfl
  generalize b.contextDiscard ticks window ctx = c at hwhole ⊢
  generalize (b.dropFlights (fun _ => true) window).modEngines (fun _ g => g.discards ticks b.committed) = x at hmod hwhole
  generalize b.dropFlights (fun _ => true) window = d at hdrop hmod hwhole ⊢
  rw [hdrop] at hmod
  rw [hmod, hdrop] at hwhole
  rw [hwhole]

theorem disarm_eq (r : Rv) : r.disarm.mask = r.mask ∧ r.disarm.n = r.n
    ∧ r.disarm.state = if r.state = .armed then .unarmed else r.state := by
  unfold Rv.disarm
  split
  · exact ⟨rfl, rfl, rfl⟩
  · exact ⟨rfl, rfl, rfl⟩

/-! ### The words of a context fault -/

/-- A pin entry set to ones: that entry reads 0xFFFF, and no other changes. -/
theorem bits_setPin (w d j : Nat) (hd : d < 4) (hj : j < 4) :
    bits ((w ||| 0xFFFF * 2 ^ (16 * d)) % 2 ^ 64) (16 * j) 16 = if j = d then 0xFFFF else bits w (16 * j) 16 := by
  have hones : ∀ k, (0xFFFF * 2 ^ (16 * d)).testBit k = (decide (16 * d ≤ k) && decide (k - 16 * d < 16)) := fun k => by
    rw [Nat.testBit_mul_two_pow, show 0xFFFF = 2 ^ 16 - 1 by rfl, Nat.testBit_two_pow_sub_one]
  refine Nat.eq_of_testBit_eq fun i => ?_
  rw [testBit_bits, Nat.testBit_mod_two_pow, Nat.testBit_or, hones]
  by_cases hi : i < 16
  · rw [decide_eq_true hi, decide_eq_true (show 16 * j + i < 64 by omega)]
    split
    next h =>
      subst h
      rw [show (0xFFFF : Nat) = 2 ^ 16 - 1 by rfl, Nat.testBit_two_pow_sub_one, decide_eq_true hi,
        decide_eq_true (show 16 * j ≤ 16 * j + i by omega), decide_eq_true (show 16 * j + i - 16 * j < 16 by omega)]
      simp
    next h =>
      have hout : (decide (16 * d ≤ 16 * j + i) && decide (16 * j + i - 16 * d < 16)) = false := by
        rw [Bool.and_eq_false_iff, decide_eq_false_iff_not, decide_eq_false_iff_not]
        omega
      rw [hout, testBit_bits, decide_eq_true hi]
      simp
  · rw [decide_eq_false hi]
    split
    next => rw [show (0xFFFF : Nat) = 2 ^ 16 - 1 by rfl, Nat.testBit_two_pow_sub_one, decide_eq_false hi]; rfl
    next => rw [testBit_bits, decide_eq_false hi]; rfl

/-! ### The drain for a context fault -/

/-- Changes of banks that are no changes leave a state that reads alike. -/
theorem alike_foldl_modBanks {f : Nat → Bank → Bank} : ∀ (ms : List Nat) (s : State), (∀ m ∈ ms, f m (s.bank m) = s.bank m) →
    Alike s (ms.foldl (fun s m => s.modBank m (f m)) s)
  | [], s, _ => Alike.refl s
  | m :: ms, s, h => by
    have k := alike_modBank (h m (List.mem_cons_self ..))
    refine k.trans (alike_foldl_modBanks ms _ (fun x hx => ?_))
    rw [k.1]
    exact h x (List.mem_cons_of_mem _ hx)

theorem Alike.quietAll {s t : State} (h : Alike s t) {ms : List Nat} {out : Option Engine} (hq : s.quietAll ms out) : t.quietAll ms out :=
  hq.congr (fun m => by rw [h.1]; exact Bank.DrainsLike.refl _) (by rw [h.2]) (by rw [h.2])

theorem Alike.resolved {s t : State} (h : Alike s t) (d : Nat) (w : Waiter) : t.resolved d w = s.resolved d w := by
  have hr := h.2
  cases w <;> simp only [State.resolved, State.die] <;> rw [hr]

theorem Alike.cleared {s t : State} (h : Alike s t) (bid : Nat) : Alike (s.cleared bid) (t.cleared bid) := by
  unfold State.cleared
  rw [h.members]
  exact (h.foldl_modBank _).modBank bid _

/-- What a context fault leaves once its drain is over. -/
theorem afterDrain_fault {s : State} {bid : Nat} (h : (s.bank bid).draining = .fault) (hs : ((s.cleared bid).bank bid).saving = none) :
    s.afterDrain bid = s.cleared bid := by
  unfold State.afterDrain
  simp only [h]
  unfold State.cleared at hs
  rw [hs]
  rfl

/-- No word of a ready bank's gang waits on a fault. -/
theorem wordsWait_of_ready {s : State} {bid : Nat} (hl : s.handleBank bid = bid) (h : s.ready bid = true) : s.wordsWait bid = false := by
  unfold State.ready at h
  rw [hl, List.all_eq_true] at h
  unfold State.wordsWait
  rw [List.any_eq_false]
  intro m hm hw
  obtain ⟨w, hmem, hres⟩ := List.any_eq_true.mp hw
  have hm' := h m hm
  unfold State.unblocked at hm'
  have hall := List.all_eq_true.mp (Bool.and_eq_true_iff.mp hm').2 w (List.mem_append_right _ hmem)
  rw [hall] at hres
  cases hres

/-- With nothing left to drain, a context fault is settled at once, and the banks stand as they stood. -/
theorem settleForFault_atRest {t : State} (hrest : t.atRest t.cur.bid (some .vx)) (hsave : (t.bank t.cur.bid).saving = none)
    (hready : t.ready t.cur.bid = true) (hph : ∀ m ∈ t.members t.cur.bid, (t.bank m).committed = ((t.bank m).engine .vx).phase) :
    ∃ v, settleForFault.run t = .ok () v ∧ Alike t v := by
  have hlead := hrest.1
  have hdr := hrest.2.1
  generalize hbid : t.cur.bid = bid at *
  generalize hms : t.members bid = ms at *
  generalize hx : t.modBank bid (fun b => { b with draining := .fault }) = x
  have hxb : ∀ m, x.bank m = { t.bank m with draining := (x.bank m).draining } := fun m => by
    rw [← hx, State.bank_modBank]
    split
    next e => subst e; rfl
    next => rfl
  have hquiet : x.quietAll ms (some .vx) := by
    refine (hms ▸ hrest.2.2).congr (fun m => ?_) (by rw [← hx]; rfl) (by rw [← hx]; rfl)
    rw [hxb]
    exact ⟨rfl, rfl, rfl, rfl, rfl, fun _ h => h⟩
  have hflights : ∀ m ∈ ms, (x.bank m).flights = [] := fun m hm => (hquiet.2.2 m hm).1
  have hdead : ms.map (fun m => (m, x.deadFlights m)) = ms.map (fun m => (m, [])) := List.map_congr_left fun m hm => by
    unfold State.deadFlights
    rw [hflights m hm]
    rfl
  unfold settleForFault
  rw [M.bind_get]
  simp only [hbid, hlead, hms]
  rw [if_neg, if_neg]
  · simp only [hx, drain_quiet hquiet, hdead, List.foldl_map]
    have hu := alike_foldl_modBanks (f := fun _ b => { b with flights := b.flights.filter (fun f => !List.contains [] f) }) ms x fun m hm => by
      rw [hflights m hm]
      exact (congrArg (fun l => { x.bank m with flights := l }) (hflights m hm)).symm
    generalize ms.foldl (fun s m => s.modBank m fun b => { b with flights := b.flights.filter (fun f => !List.contains [] f) }) x = u at hu ⊢
    have huq := hu.quietAll hquiet
    have hcancels : ∀ m, (u.bank m).cancels = (t.bank m).cancels := fun m => by rw [hu.1, hxb]
    simp only [drain_quiet huq, hcancels, ne_eq, not_true_eq_false, if_false, List.foldl_nil, ite_self]
    have hv := alike_foldl_modBanks (f := fun _ b => b) ms u fun m _ => rfl
    generalize ms.foldl (fun s m => s.modBank m fun b => b) u = v at hv ⊢
    have hxv := hu.trans hv
    have hvd : (v.bank bid).draining = .fault := by
      rw [hxv.1, ← hx, State.bank_modBank, if_pos rfl]
    have hxms : x.members bid = ms := by
      rw [← hms]
      unfold State.members
      rw [hxb]
    have hwait : v.wordsWait bid = false := by
      rw [← wordsWait_of_ready hlead hready]
      unfold State.wordsWait
      rw [hxv.members, hxms, hms]
      congr 1
      funext m
      rw [hxv.1, hxb]
      congr 1
      funext w
      rw [hxv.resolved, ← hx]
      rfl
    have hempty : ms.all (fun m => (u.bank m).flights.isEmpty) = true := List.all_eq_true.mpr fun m hm => by
      rw [hu.1, hflights m hm]
      rfl
    have hclear := (hx ▸ atRest_cleared hrest .fault).trans (hxv.cleared bid)
    refine ⟨v.cleared bid, ?_, hclear⟩
    rw [M.bind_set, if_neg (not_not.mpr hvd), hwait, if_neg Bool.false_ne_true, drained_quiet huq, hempty, if_neg (by decide), M.run_modify,
      afterDrain_fault hvd (by rw [hclear.1]; exact hsave)]
  · unfold State.beforeFault
    simp [hdr, Bank.drainRow]
  · simpa using hph

/-! ### `vstub` -/

/-- What a `vstub` does once its operands are kept. -/
def stubRest (r : EngRegs) (g : BitVec 3) (q : Bool) (dst : Option Region) (qr sr : Region) (tag ctx : Nat) : M Flow := do
  if !r.on g 0 then
    if q then deliver .vx 2#3 0 false
    return .next
  let j ← stubJudge tag ctx qr sr
  match j.fault with
  | some x => contextFault j.c j.t x.1 x.2 j.total
  | none =>
    let ws ← stubPlaces j dst
    stubResult j dst ws
    return .next

/-- The operands of a `vstub` of the bank in execution, kept or on the stack. -/
def State.stubOps (s : State) (q : Bool) : List Word :=
  match (s.own.engine .vx).stopped with
  | some x => x.ops
  | none => (s.ownRegs .vx).pstack.take (popsOf q 2 2)

/-- The state in which a `vstub` has popped its operands and keeps them. -/
def State.stubKept (s : State) (q : Bool) : State :=
  match (s.own.engine .vx).stopped with
  | some _ => s
  | none => (s.modBank s.cur.bid (fun b => b.modEngine .vx (·.modRegs (fun r => { r with pstack := r.pstack.drop (popsOf q 2 2) })))).modBank
      s.cur.bid (fun b => b.modEngine .vx (fun g =>
        { g with stopped := some { ops := s.stubOps q, done := 0, vals := [], mul := none, began := s.ticks, waiter := none } }))

theorem stubKept_outQueue (s : State) (q : Bool) : OutQueueKept s (s.stubKept q) := by
  unfold State.stubKept
  split
  · exact ⟨rfl, rfl, rfl⟩
  · exact (OutQueueKept.modBank rfl rfl rfl).trans (OutQueueKept.modBank rfl rfl rfl)

section Vstub

variable {s : State} {g : BitVec 3} {q : Bool} {v0 : BitVec 2} {dst : Option Region} {qr sr : Region}

/-- A `vstub` past its checks keeps its operands, and goes on. -/
theorem execVstub_kept (he : s.cur.eng = some .vx)
    (hstack : (s.own.engine .vx).stopped = none
      → popsOf q 2 2 ≤ (s.ownRegs .vx).pstack.length ∧ (s.ownRegs .vx).pstack.length ≤ 8 + popsOf q 2 2)
    (hregions : (stubRegions (s.ownRegs .vx) q v0 (s.stubOps q)).run s = .ok (dst, qr, sr) s)
    (hq : q = true → s.handleBank s.cur.bid = s.cur.bid → (s.own.queueOf 2#3).length < 32) :
    execVstub g q v0 s = runWord (fun _ => stubRest (s.ownRegs .vx) g q dst qr sr ((s.stubOps q).getD ((if q then 0 else 1) + 2) 0).toNat
      ((s.stubOps q).getD ((if q then 0 else 1) + 3) 0).toNat) (s.stubKept q) := by
  have hcur : (s.stubKept q).cur = s.cur := (stubKept_outQueue s q).cur
  unfold execVstub vectorWord runWord
  rw [hcur]
  simp only [he]
  rw [M.bind_curEng, State.regs_eq_ownRegs]
  cases hst : (s.own.engine .vx).stopped with
  | some x =>
    have hops : s.stubOps q = x.ops := by rw [State.stubOps, hst]
    have hkept : s.stubKept q = s := by rw [State.stubKept, hst]
    dsimp only
    rw [hops] at hregions ⊢
    rw [hkept, M.bind_pure, M.bind_ok hregions]
    dsimp only
    rw [M.bind_ok (delivers_run s), M.bind_curBank, if_neg (outQueue_hasRoom hq)]
    rfl
  | none =>
    have hops : s.stubOps q = (s.ownRegs .vx).pstack.take (popsOf q 2 2) := by rw [State.stubOps, hst]
    obtain ⟨hpops, hroom⟩ := hstack hst
    have hrun := run_operands_take hpops hroom
    rw [← hops] at hrun
    dsimp only
    rw [M.bind_ok hrun, M.bind_ok hregions]
    dsimp only
    rw [M.bind_ok (delivers_run s), M.bind_curBank, if_neg (outQueue_hasRoom hq), Option.isNone_none, if_pos rfl, M.bind_restack]
    unfold keep
    rw [M.bind_keepAs, State.modBank_cur, beganAt_modBank Engine.noConfusion (by rw [Bank.engine_modEngine, if_pos rfl]; exact hst)]
    unfold State.stubKept
    rw [hst]
    rfl

end Vstub

end Sys2Proof.Machine

namespace Sys2Proof.Proofs
open Sys2Proof Sys2Proof.Machine

theorem contextDiscard : Claim.ContextDiscard := by
  unfold Claim.ContextDiscard
  intro b ticks window ctx c
  have hrest : c = _ := contextDiscard_rest b ticks window ctx
  refine ⟨rfl, by rw [hrest], rfl, by rw [hrest], rfl, by rw [hrest], fun q => ?_, fun e o => rfl, by rw [hrest], fun i => ?_, fun f hf p hp => ?_,
    fun e => ?_⟩
  · rw [hrest]
    exact Vector.getElem_replicate ..
  · have hrv : c.core.rv[i] = b.core.rv[i].disarm := by
      rw [hrest]
      exact Vector.getElem_map ..
    rw [hrv]
    exact disarm_eq _
  · have hprom : c.prom f.n = (b.dropFlights (fun _ => true) window).prom f.n := by
      rw [hrest]
      rfl
    rw [hprom]
    exact prom_dropFlights window hf hp
  · rw [show c.engine e = (b.engine e).discards ticks b.committed from contextDiscard_engine ..]
    refine ⟨rfl, rfl, rfl, rfl, rfl, fun i => ?_⟩
    exact Vector.getElem_map ..

theorem contextFaultTaken : Claim.ContextFaultTaken := by
  unfold Claim.ContextFaultTaken
  intro s t u c tag stub e total ws fw rc v x lead y
  refine ⟨rfl, fun hd => ⟨?_, ?_, ?_, fun j hj hne => ?_⟩, rfl, fun hd hl ht hh hs => ?_, rfl, rfl, rfl, fun hw hset => ?_,
    fun hrest hsave hready hph => ?_⟩
  · change bits ((c.nfault + 1) % 2 ^ 32 * 256 + (c.depth + 1)) 0 8 = _
    unfold bits
    omega
  · change bits ((c.nfault + 1) % 2 ^ 32 * 256 + (c.depth + 1)) 8 32 = _
    unfold bits
    omega
  · exact (bits_setPin _ _ _ (by omega) (by omega)).trans (if_pos rfl)
  · exact (bits_setPin _ _ _ (by omega) hj).trans (if_neg hne)
  · have hv : v 3 = tag.layer * 2 ^ 48 + tag.tok * 2 ^ 40 + (c.depth + 1) * 2 ^ 32 + stub * 2 ^ 16 + tag.head := rfl
    rw [hv]
    unfold bits
    omega
  · unfold contextFault storeWords
    rw [M.bind_ok hw, M.bind_ok hset]
    rfl
  · exact settleForFault_atRest hrest hsave hready hph

theorem vstubCompletes : Claim.VstubCompletes := by
  unfold Claim.VstubCompletes
  intro s j1 j2 j3 g q v0 dst qr sr j ws he id r st pops ops k popped kept hstack hregions hq
  have hexec : exec (.vstub g q v0) s = _ := execVstub_kept he hstack hregions hq
  have hout := stubKept_outQueue s q
  have he' : (s.stubKept q).cur.eng = some .vx := by rw [hout.cur]; exact he
  rw [hexec, ← show s.stubKept q = kept from rfl]
  have hbid : id = (s.stubKept q).cur.bid := by rw [hout.cur]
  refine ⟨fun hoff => ?_, fun hon => ⟨fun t ht => ?_, fun hj hcur => ⟨fun hnone hws hcur2 hres => ?_, fun x hx hfault => ?_⟩⟩⟩
  · have hrun : ((stubRest r g q dst qr sr (ops.getD (k + 2) 0).toNat (ops.getD (k + 3) 0).toNat).run (s.stubKept q)) = .ok .next
        (if q = true ∧ s.handleBank id = id then (s.stubKept q).modBank id
          (fun b => b.pushElem 2#3 ⟨0#64, false, (b.engine .vx).phase, false⟩) else s.stubKept q) := by
      unfold stubRest
      rw [hoff, Bool.not_false, if_pos rfl]
      cases q with
      | false => rw [if_neg Bool.false_ne_true, if_neg fun h => Bool.false_ne_true h.1, M.run_pure]
      | true =>
        rw [if_pos rfl, M.bind_ok (deliver_q2 hout (hq rfl)), M.run_pure]
        simp only [true_and]
        rfl
    rw [runWord_ok he' hrun, ← hbid]
  · refine runWord_wait he' ?_
    unfold stubRest
    rw [hon, Bool.not_true, if_neg Bool.false_ne_true]
    exact M.bind_error ht
  · rw [hbid]
    refine runWord_ok he' ?_
    unfold stubRest
    rw [hon, Bool.not_true, if_neg Bool.false_ne_true]
    refine (M.bind_ok hj).trans ?_
    simp only [hnone]
    rw [M.bind_ok hws, M.bind_ok hres, M.run_pure]
  · rw [hbid]
    refine runWord_ok he' ?_
    unfold stubRest
    rw [hon, Bool.not_true, if_neg Bool.false_ne_true]
    refine (M.bind_ok hj).trans ?_
    simp only [hx]
    exact hfault

/-- Settles O42: a `vstub` by its checks and its judgement, a context fault by its words, its drain and its discard. -/
theorem contextUnit : Obligations.ContextUnit := ⟨vstubCompletes, contextFaultTaken, contextDiscard⟩

end Sys2Proof.Proofs
end

-- ==== Submission rings (O48) ====
section
/-! SUPPORT. Submission rings: notify registers, the header of a ring, and what Cowslip does with it (R191 to R196). -/

namespace Sys2Proof.Machine

-- One proof at a time: the whole text compiles in one process of bounded memory.
set_option Elab.async false

/-! ### Notify registers -/

theorem exec_notify (vf off : Nat) (a : BarAccess) (s : State) : exec (.notify vf off a) s = execNotify vf off a s := rfl

/-- The notify register of a ring lies at its die and number. -/
theorem notifyRing_of {die ring : Nat} (hr : ring < 1024) : notifyRing (0x2000 * die + 8 * ring) = (die, ring) := by
  unfold notifyRing
  ext <;> dsimp only <;> omega

theorem not_unprotected {s : State} {vf : Nat} {protect : Bool} (hp : protect = true ∨ (s.vf vf).tdi ≠ .run) :
    ¬ (!protect && decide ((s.vf vf).tdi = .run)) = true := by
  rw [Bool.and_eq_true, decide_eq_true_eq]
  rintro ⟨h1, h2⟩
  rcases hp with h | h
  · rw [h] at h1
    cases h1
  · exact h h2

section Notify

variable {s : State} {vf : Nat} (hop : s.operates = true) (hvf : vf < 512)
include hop hvf

theorem not_shutOff : ¬ (!s.operates || decide (512 ≤ vf)) = true := by
  rw [hop]
  simp [hvf]

/-- An access that is not protected while the VF is in RUN is a TDISP error. -/
theorem execNotify_error {off : Nat} {a : BarAccess} (hp : a.protect = false) (hrun : (s.vf vf).tdi = .run) :
    execNotify vf off a s = .next (s.tdispError vf) := by
  unfold execNotify
  rw [if_neg (not_shutOff hop hvf), if_pos (by rw [hp, hrun]; rfl)]

variable {protect : Bool} (hp : protect = true ∨ (s.vf vf).tdi ≠ .run)
include hp

theorem execNotify_read (off : Nat) : execNotify vf off ⟨none, protect⟩ s = .next { s with host := { s.host with answer := [0] } } := by
  unfold execNotify
  rw [if_neg (not_shutOff hop hvf), if_neg (not_unprotected hp)]

theorem execNotify_write {die ring : Nat} (hr : ring < 1024) (v : Word) :
    execNotify vf (0x2000 * die + 8 * ring) ⟨some v, protect⟩ s = .next (s.notified vf die ring) := by
  unfold execNotify
  rw [if_neg (not_shutOff hop hvf), if_neg (not_unprotected hp)]
  dsimp only
  rw [if_pos (by omega), notifyRing_of hr]

end Notify

theorem notified_other {s : State} {vf die ring : Nat} (h : ((s.die die).ring ring).en = false ∨ ((s.die die).ring ring).vf ≠ vf) :
    s.notified vf die ring = s := by
  unfold State.notified
  rw [if_pos]
  rcases h with h | h <;> simp [h]

/-- A ring of the VF that is notified, by its state. -/
theorem notified_own {s : State} {vf die ring : Nat} (hd : die < 4) (he : ((s.die die).ring ring).en = true)
    (hv : ((s.die die).ring ring).vf = vf) : s.notified vf die ring =
      if ((s.die die).ring ring).active then s.setDie die ((s.die die).setRing ring { (s.die die).ring ring with timer := s.cycle })
      else if ((s.die die).ring ring).pending then s
      else if (s.die die).slots.length < activeSlots then s.setDie die ((s.die die).takeSlot ring s.cycle)
      else s.setDie die ((s.die die).setRing ring { (s.die die).ring ring with pending := true }) := by
  unfold State.notified
  exact if_neg (by simp [he, hv, hd])

theorem Die.ring_setRing (d : Die) (r k : Nat) (g : SubRing) : (d.setRing r g).ring k = if r = k then g else d.ring k := by
  unfold Die.ring Die.setRing
  rw [PMap.get_put]

theorem Die.ring_takeSlot (d : Die) (r c : Nat) : (d.takeSlot r c).ring r = { d.ring r with active := true, pending := false, timer := c } :=
  (Die.ring_setRing d r r _).trans (if_pos rfl)

/-! ### Cowslip -/

section Cowslip

variable {s : State} {die : Nat} (hop : s.operates = true) (hd : die < 4)
include hop hd

theorem not_dieOff : ¬ (!s.operates || decide (4 ≤ die)) = true := by simp [hop, hd]

section Turn

variable {r : Nat} {rest : List Nat} (hslots : (s.die die).slots = r :: rest)
include hslots

theorem execCowslip_error {e : RingStop} (he : s.ringHeader die ((s.die die).ring r) = .error e) :
    execCowslipAccept die s = .next (s.ringError die r e) := by
  unfold execCowslipAccept
  simp only [hslots]
  rw [if_neg (not_dieOff hop hd), he]

variable {c head tail : Nat} {u : State} (hh : s.ringHeader die ((s.die die).ring r) = .ok (c, head, tail, u))
include hh

theorem execCowslip_empty (h : head = tail) :
    execCowslipAccept die s = .next (u.modDie die (fun d => { d with slots := rest ++ [r] })) := by
  unfold execCowslipAccept
  simp only [hslots]
  rw [if_neg (not_dieOff hop hd), hh]
  dsimp only
  rw [if_pos h]

variable (h : head ≠ tail)
include h

theorem execCowslip_full (hfull : 256 ≤ u.nestCount die) : execCowslipAccept die s = .next u := by
  unfold execCowslipAccept
  simp only [hslots]
  rw [if_neg (not_dieOff hop hd), hh]
  dsimp only
  rw [if_neg h, if_pos (show nestTableSize ≤ u.nestCount die from hfull)]

variable (hroom : u.nestCount die < 256)
include hroom

theorem execCowslip_record {e : RingStop}
    (he : u.ringRead die ((s.die die).ring r) ((((s.die die).ring r).w0.toNat + 128 + 128 * (tail % 2 ^ c)) % 2 ^ 64) 128 = .error e) :
    execCowslipAccept die s = .next (u.ringError die r e) := by
  unfold execCowslipAccept
  simp only [hslots]
  rw [if_neg (not_dieOff hop hd), hh]
  dsimp only
  rw [if_neg h, if_neg (show ¬ nestTableSize ≤ u.nestCount die from Nat.not_le.mpr hroom), he]

/-- One record is accepted, and tail advances. -/
theorem execCowslip_accept {bs : List Byte} {w : State} :
    let g := (s.die die).ring r
    let va := (g.w0.toNat + 128 + 128 * (tail % 2 ^ c)) % 2 ^ 64
    u.ringRead die g va 128 = .ok (bs, w) →
    let t := (g.write die 2 ((tail + 1) % 2 ^ 64) (w.accept bs die va g.asid g.vf g.pcap)).modDie die (fun d => { d with slots := rest ++ [r] })
    execCowslipAccept die s = .next (t.modDie die (fun d => d.setRing r { d.ring r with timer := t.cycle })) := by
  intro g va hr t
  unfold execCowslipAccept
  simp only [hslots]
  rw [if_neg (not_dieOff hop hd), hh]
  dsimp only
  rw [if_neg h, if_neg (show ¬ nestTableSize ≤ u.nestCount die from Nat.not_le.mpr hroom), hr]
  rfl

end Turn

section Idle

variable {r : Nat} (hact : ((s.die die).ring r).active = true) (hidle : 12000 ≤ s.since ((s.die die).ring r).timer)
include hact hidle

theorem not_busy : ¬ (!s.operates || decide (4 ≤ die) || !((s.die die).ring r).active
    || decide (s.since ((s.die die).ring r).timer < 12000)) = true := by simp [hop, hd, hact, hidle]

theorem execIdle_error {e : RingStop} (he : s.ringHeader die ((s.die die).ring r) = .error e) :
    execRingIdleTimeout die r s = .next (s.ringError die r e) := by
  unfold execRingIdleTimeout
  dsimp only
  rw [if_neg (not_busy hop hd hact hidle), he]

variable {c head tail : Nat} {u : State} (hh : s.ringHeader die ((s.die die).ring r) = .ok (c, head, tail, u))
include hh

theorem execIdle_release (h : head = tail) : execRingIdleTimeout die r s = .next (u.modDie die (·.idleRing r u.cycle)) := by
  unfold execRingIdleTimeout
  dsimp only
  rw [if_neg (not_busy hop hd hact hidle), hh]
  dsimp only
  rw [if_pos h]

theorem execIdle_keep (h : head ≠ tail) :
    execRingIdleTimeout die r s = .next (u.modDie die (fun d => d.setRing r { (s.die die).ring r with timer := u.cycle })) := by
  unfold execRingIdleTimeout
  dsimp only
  rw [if_neg (not_busy hop hd hact hidle), hh]
  dsimp only
  rw [if_neg h]

end Idle

end Cowslip

/-! ### The header -/

theorem UnitFrame.cycle {s t : State} (h : UnitFrame s t) : t.cycle = s.cycle := by
  rw [h.rest]

/-- A ring whose status is written: the write leaves the cycle as it is. -/
theorem ringError_status (s : State) (die r v : Nat) : s.ringError die r (.status v)
    = (((s.die die).ring r).write die 3 v s).modDie die (·.idleRing r (((s.die die).ring r).write die 3 v s).cycle) := by
  have hcycle : (((s.die die).ring r).write die 3 v s).cycle = s.cycle := (UnitFrame.unitWrite s die _ _ _ _).cycle
  rw [hcycle]
  rfl

theorem blockWord_lt (bs : List Byte) (i : Nat) : blockWord bs i < 2 ^ 64 := by
  unfold blockWord
  refine lt_of_lt_of_le (leNat_lt _) ?_
  rw [show (2 ^ 64 : Nat) = 256 ^ 8 by norm_num]
  exact Nat.pow_le_pow_right (by decide) (List.length_take_le ..)

/-- The first word of a header is clean where it is a capacity of at most 12. -/
theorem capacity_iff {w : Nat} (h : w < 2 ^ 64) : (bits w 0 4 ≤ 12 ∧ bits w 4 60 = 0) ↔ w ≤ 12 := by
  unfold bits
  omega

/-- The fields of a header that make it bad (R192). -/
def headerBad (h : List Byte) : Bool :=
  12 < bits (blockWord h 0) 0 4 || bits (blockWord h 0) 4 60 ≠ 0 || bits (blockWord h 3) 8 56 ≠ 0 || (h.drop 32).any (· ≠ 0#8)

theorem headerBad_iff (h : List Byte) :
    headerBad h = false ↔ blockWord h 0 ≤ 12 ∧ bits (blockWord h 3) 8 56 = 0 ∧ ∀ b ∈ h.drop 32, b = 0#8 := by
  rw [← capacity_iff (blockWord_lt h 0)]
  simp [headerBad, and_assoc]

/-- The header of a ring of a die in service, at a good address, where its page can be read. -/
theorem ringHeader_read {s u : State} {die : Nat} {g : SubRing} {h : List Byte}
    (hcore : ¬ (List.range 24).all (fun i => !s.coreInService (24 * die + i)) = true) (hal : g.w0.toNat % 128 = 0)
    (hread : s.ringRead die g g.w0.toNat 128 = .ok (h, u)) : s.ringHeader die g
      = if headerBad h = true then .error (.status 1)
        else if 2 ^ bits (blockWord h 0) 0 4 < (blockWord h 1 + 2 ^ 64 - blockWord h 2) % 2 ^ 64 then .error (.status 3)
        else .ok (bits (blockWord h 0) 0 4, blockWord h 1, blockWord h 2, if blockWord h 3 = 0 then u else g.write die 3 0 u) := by
  unfold State.ringHeader
  rw [if_neg hcore, if_neg (not_not.mpr hal), hread]
  rfl

end Sys2Proof.Machine

namespace Sys2Proof.Proofs
open Sys2Proof Sys2Proof.Machine

theorem notifyCompletes : Claim.NotifyCompletes := by
  unfold Claim.NotifyCompletes
  intro s vf die ring v protect hop hd hr hvf off d g
  refine ⟨fun hp hrun data => execNotify_error hop hvf hp hrun, fun hp => ⟨execNotify_read hop hvf hp off, fun hother => ?_, fun he hv => ?_⟩⟩
  · rw [exec_notify, execNotify_write hop hvf hp hr, notified_other hother]
  · have hexec : exec (.notify vf off ⟨some v, protect⟩) s = .next (s.notified vf die ring) := execNotify_write hop hvf hp hr v
    rw [hexec, notified_own hd he hv]
    refine ⟨fun ha => ?_, fun ha hpend => ?_, fun ha hpend hroom => ?_, fun ha hpend hfull => ?_⟩
    · rw [if_pos ha]
    · rw [if_neg (ne_true_of_eq_false ha), if_pos hpend]
    · rw [if_neg (ne_true_of_eq_false ha), if_neg (ne_true_of_eq_false hpend), if_pos (show _ < activeSlots from hroom)]
      refine ⟨_, rfl, ?_, ?_, rfl, rfl, rfl⟩
      · rw [State.die_setDie, if_pos rfl, Die.ring_takeSlot]
        exact congrArg (fun p => { d.ring ring with active := true, pending := p, timer := s.cycle }) hpend.symm
      · rw [State.die_setDie, if_pos rfl]
        rfl
    · rw [if_neg (ne_true_of_eq_false ha), if_neg (ne_true_of_eq_false hpend), if_neg (show ¬ _ < activeSlots from Nat.not_lt.mpr hfull)]
      refine ⟨_, rfl, ?_, ?_, rfl, rfl, rfl⟩
      · rw [State.die_setDie, if_pos rfl, Die.ring_setRing, if_pos rfl]
      · rw [State.die_setDie, if_pos rfl]
        rfl

theorem ringsComplete : Claim.RingsComplete := by
  unfold Claim.RingsComplete
  intro s die r hop hd g
  refine ⟨fun rest hslots => ⟨fun e he => execCowslip_error hop hd hslots he, fun c head tail u hh =>
    ⟨execCowslip_empty hop hd hslots hh, execCowslip_full hop hd hslots hh, fun hne hroom =>
      ⟨fun e he => execCowslip_record hop hd hslots hh hne hroom he, fun bs w hr => ?_⟩⟩⟩,
    fun hact hidle => ⟨fun e he => execIdle_error hop hd hact hidle he, fun c head tail u hh => ?_⟩, rfl, ringError_status s die r⟩
  · exact execCowslip_accept hop hd hslots hh hne hroom hr
  · exact ⟨execIdle_release hop hd hact hidle hh, execIdle_keep hop hd hact hidle hh⟩

theorem ringHeader : Claim.RingHeader := by
  unfold Claim.RingHeader
  intro s u die g h i hi hcore
  have hsome : ¬ (List.range 24).all (fun i => !s.coreInService (24 * die + i)) = true := fun hall => by
    have hno := List.all_eq_true.mp hall i (List.mem_range.mpr hi)
    rw [hcore] at hno
    cases hno
  refine ⟨fun hal => ?_, fun hal x hx => ?_, fun hal hread => ?_⟩
  · unfold State.ringHeader
    rw [if_neg hsome, if_pos hal]
  · unfold State.ringHeader State.ringRead
    rw [if_neg hsome, if_neg (not_not.mpr hal), hx]
    cases x <;> rfl
  · rw [ringHeader_read hsome hal hread]
    have hcap : blockWord h 0 ≤ 12 → bits (blockWord h 0) 0 4 = blockWord h 0 := fun hle => by
      unfold bits
      omega
    refine ⟨fun hbad => ?_, fun hclean hahead => ?_, fun hclean hahead => ?_⟩
    · rw [if_pos (Bool.eq_true_of_not_eq_false fun hgood => hbad ((headerBad_iff h).mp hgood))]
    · rw [if_neg (ne_true_of_eq_false ((headerBad_iff h).mpr hclean)), hcap hclean.1, if_pos hahead]
    · rw [if_neg (ne_true_of_eq_false ((headerBad_iff h).mpr hclean)), hcap hclean.1, if_neg (Nat.not_lt.mpr hahead)]

/-- Settles O48: each access by the state of its ring, and the header by its words. -/
theorem submissionRings : Obligations.SubmissionRings := ⟨notifyCompletes, ringsComplete, ringHeader⟩

end Sys2Proof.Proofs
end

-- ==== The scheduler, Speedwell and pre-emption (O49) ====
section
/-! SUPPORT. The events of the scheduler, of Speedwell and of pre-emption (R187 to R203). -/

namespace Sys2Proof.Machine

-- One proof at a time: the whole text compiles in one process of bounded memory.
set_option Elab.async false

/-! ### Visits -/

theorem updateLevels_operates (s : State) (d : Nat) : (s.updateLevels d).operates = s.operates := rfl

theorem mayVisit_of {s : State} {d l : Nat} (hop : s.operates = true) (hd : d < 4) (hl : l < 4) (htop : s.topLevel d l = true)
    (hoff : (s.offers d l).any (fun o => s.admitted d o.1.est) = true) : s.mayVisit d l = true := by
  simp [State.mayVisit, hop, hd, hl, htop, hoff]

/-- A level whose head may be visited, once the lists are brought up to date. -/
theorem execSchedulerVisit_head {s : State} {die level v : Nat} {rest : List Nat} (hd : die < 4)
    (hq : ((s.updateLevels die).die die).levels.toList.getD level [] = v :: rest) (hmay : (s.updateLevels die).mayVisit die level = true)
    (places : List Nat) : execSchedulerVisit die level places s = .next ((s.updateLevels die).visitHead die level v places) := by
  unfold execSchedulerVisit
  rw [if_pos hd]
  dsimp only
  rw [hq]
  dsimp only
  rw [if_pos hmay]

/-- A saved context whose group is the first hand-out of the visit of its level's head. -/
theorem execContextResume_first {s : State} {k v : Nat} {c : Saved} {n : Nest} {rest : List Nat} (hc : PMap.find s.saved k = some c)
    (hn : s.nests.find? (fun n => c.state.runs n.id) = some n) (hq : (s.die n.die).levels.toList.getD n.level [] = v :: rest)
    (hmay : s.mayVisit n.die n.level = true) (hfirst : s.resumesFirst n.die n.level v c.group = true) :
    execContextResume k s = .next (s.visitHead n.die n.level v []) := by
  unfold execContextResume
  rw [hc]
  dsimp only
  rw [hn]
  dsimp only
  rw [hq]
  dsimp only
  rw [if_pos (by rw [hmay, hfirst]; rfl)]

/-! ### Aging -/

/-- A nest that waits: it rises where it has waited 10 ms and has a level above. -/
theorem execAgingTick_waiting {s : State} {die nest t : Nat} {n : Nest} (hn : s.nests.find? (fun n => n.id = nest && n.die = die) = some n)
    (ht : n.waiting = some t) : execAgingTick die nest s = .next (if !s.operates || s.since t < agingPeriod || 3 ≤ n.level then s
      else (s.modNest nest (fun n => { n with level := n.level + 1, waiting := some ((t + agingPeriod) % 2 ^ 64) })).updateLevels die) := by
  unfold execAgingTick
  rw [hn]
  dsimp only
  rw [ht]

/-! ### Heat throttle -/

/-- The cycles of throttled issue are counted in a bank that holds a task. -/
def State.countThrottle (s : State) (n bid : Nat) : State :=
  if (s.bank bid).task.isSome then s.modBank bid (fun b => { b with thrcyc := b.thrcyc + n }) else s

theorem execHeatThrottle_counts {s : State} (hop : s.operates = true) {core : Nat} (hc : core < 96) (n : Nat) :
    execHeatThrottle core n s = .next ((s.countThrottle n (2 * core)).countThrottle n (2 * core + 1)) := by
  unfold execHeatThrottle
  dsimp only
  rw [if_neg (by simp [hop, hc])]
  rfl

theorem countThrottle_mem (s : State) (n bid : Nat) : (s.countThrottle n bid).mem = s.mem := by
  unfold State.countThrottle
  split <;> rfl

theorem bank_countThrottle (s : State) (n bid m : Nat) : (s.countThrottle n bid).bank m
    = if bid = m ∧ (s.bank bid).task.isSome = true then { s.bank bid with thrcyc := (s.bank bid).thrcyc + n } else s.bank m := by
  unfold State.countThrottle
  by_cases ht : (s.bank bid).task.isSome = true
  · rw [if_pos ht, State.bank_modBank]
    simp [ht]
  · rw [if_neg ht, if_neg fun h => ht h.2]

/-- Both banks of a core count, each where it holds a task. -/
theorem bank_countThrottle_both (s : State) (n core m : Nat) :
    ((s.countThrottle n (2 * core)).countThrottle n (2 * core + 1)).bank m
      = if m / 2 = core ∧ (s.bank m).task.isSome = true then { s.bank m with thrcyc := (s.bank m).thrcyc + n } else s.bank m := by
  have hodd : (s.countThrottle n (2 * core)).bank (2 * core + 1) = s.bank (2 * core + 1) :=
    (bank_countThrottle s n (2 * core) (2 * core + 1)).trans (if_neg fun h => Nat.succ_ne_self _ h.1.symm)
  rw [bank_countThrottle, hodd, bank_countThrottle]
  by_cases h1 : 2 * core + 1 = m
  · subst h1
    have hhalf : (2 * core + 1) / 2 = core := by omega
    simp [hhalf]
  · by_cases h0 : 2 * core = m
    · subst h0
      simp
    · have hhalf : ¬ m / 2 = core := by omega
      simp [h1, h0, hhalf]

end Sys2Proof.Machine

namespace Sys2Proof.Proofs
open Sys2Proof Sys2Proof.Machine

theorem schedulerCompletes : Claim.SchedulerCompletes := by
  unfold Claim.SchedulerCompletes
  intro s die level places hop hd u
  refine ⟨fun hl v rest hq htop hoff => ?_, fun n t hn ht hlong => ⟨fun hlow => ?_, fun hhigh => ?_⟩,
    fun k c n v rest hc hn hd' hl' hq htop hoff hfirst => ?_, fun hnew => ?_⟩
  · exact execSchedulerVisit_head hd hq (mayVisit_of hop hd hl htop hoff) places
  · refine (execAgingTick_waiting hn ht).trans (congrArg _ (if_neg ?_))
    simp [hop, hlow, show agingPeriod ≤ s.since t from hlong]
  · refine (execAgingTick_waiting hn ht).trans (congrArg _ (if_pos ?_))
    simp [hhigh]
  · exact execContextResume_first hc hn hq (mayVisit_of hop hd' hl' htop hoff) hfirst
  · change execSpeedwellWindow die s = _
    unfold execSpeedwellWindow
    dsimp only
    refine congrArg _ (if_neg ?_)
    simp [hop, hd, show s.cycle / speedwellPeriod * speedwellPeriod ≠ (s.die die).windowStart from hnew.symm]

theorem preemptionCompletes : Claim.PreemptionCompletes := by
  unfold Claim.PreemptionCompletes
  intro s bank n hop
  obtain ⟨hstop, hsafe⟩ : s.host.stopped = false ∧ s.host.safe = false := by simpa [State.operates] using hop
  refine ⟨fun hb => ⟨_, execHeatThrottle_counts hop hb n, ?_, bank_countThrottle_both s n bank⟩, fun hcalls => ?_,
    fun hrun => ⟨fun hsav => ?_, fun hsav hdue => ?_⟩⟩
  · rw [countThrottle_mem, countThrottle_mem]
  · have hexec : exec (.preemptionRequest bank) s = .next (
        if (s.modBank bank (fun b => { b with preempt := some s.cycle })).saveDue bank
        then (s.modBank bank (fun b => { b with preempt := some s.cycle })).beginSave bank none
        else s.modBank bank (fun b => { b with preempt := some s.cycle })) := by
      change execPreemptionRequest bank s = _
      unfold execPreemptionRequest
      exact congrArg _ (if_pos (by simp [hstop, hsafe, hcalls]))
    refine ⟨fun hdue => ?_, fun hdue => ?_⟩
    · rw [hexec, if_neg (ne_true_of_eq_false hdue)]
    · rw [hexec, if_pos hdue]
  · change execForcedSave bank s = _
    unfold execForcedSave
    simp [hstop, hsafe, hrun, hsav]
  · change execForcedSave bank s = _
    unfold execForcedSave
    simp [hstop, hsafe, hrun, hsav, hdue]

/-- Settles O49: each event under the conditions of its rule. -/
theorem schedulingEvents : Obligations.SchedulingEvents := ⟨schedulerCompletes, preemptionCompletes⟩

end Sys2Proof.Proofs
end

-- ==== Invalidations, walks, retries and waits (O50) ====
section
/-! SUPPORT. Events that time brings: the invalidation queue, the ends of walks and of waits (R37, R43 to R45, R69, R99, R146, R149, R181). -/

namespace Sys2Proof.Machine

-- One proof at a time: the whole text compiles in one process of bounded memory.
set_option Elab.async false

/-! ### The invalidation queue -/

theorem execIqInvalidate_next {s : State} {k : Nat} {w : IqWords} (h : s.iqNext = some (k, w)) : execIqInvalidate s
    = .next (if w.bad then s.iqTake k w else if w.op = 0 then (s.iqTake k w).invalidate w.inval else s) := by
  unfold execIqInvalidate
  rw [h]

/-- The state in which a flip has been taken: its page is closed. -/
def State.flipTaken (s : State) (k : Nat) (w : IqWords) : State :=
  { s.iqTake k w with host := { (s.iqTake k w).host with flips := ((s.iqTake k w).pageAt w.vf w.asid w.va).toList } }

theorem execFlipRequest_next {s : State} {k : Nat} {w : IqWords} (h : s.iqNext = some (k, w)) : execFlipRequest s
    = .next (if w.bad then s.iqTake k w else if w.op = 1 then
        if s.pageWaits w.vf w.asid w.va then s else s.flipTaken k w
      else s) := by
  unfold execFlipRequest
  rw [h]
  rfl

/-- The state in which a flip has been acknowledged: its handles are revoked, and words that waited for it can go on. -/
def State.flipAcked (s : State) (e : InvEntry) : State :=
  { s.revokePages s.host.flips with
    banks := (s.revokePages s.host.flips).banks.map (fun b => (b.1, b.2.clearWaits))
    host := { s.host with flips := [], inv := some { e with acked := true } } }

theorem execFlipAck_inv {s : State} {e : InvEntry} (h : s.host.inv = some e) : execFlipAck s
    = .next (if s.operates && e.flip && !e.bad && !e.acked && !s.flipDirty then (s.flipAcked e).retryUnits else s) := by
  unfold execFlipAck
  rw [h]
  rfl

theorem execInvalidationComplete_inv {s : State} {e : InvEntry} (h : s.host.inv = some e)
    (hdone : (s.operates && s.host.link && (e.bad || !e.flip || e.acked)) = true) : execInvalidationComplete s
    = .next (
      let u := s.storeOutside unitAgent (hostBase + e.done % 2 ^ 54) (leBytes 8 (if e.bad then 2 ^ 63 + e.k else e.k))
      { u with host := { u.host with inv := none, iqhead := u.host.iqhead + 1 } }) := by
  unfold execInvalidationComplete
  rw [h]
  exact congrArg _ (if_pos hdone)

/-- A store from outside: memory takes the bytes, reservations on them end, and it may be a durable store; of the host's registers the
reservations of other modules' agents alone may change. -/
theorem storeOutside_mem_host (s : State) (a : DAgent) (pa : Nat) (d : List Byte) : (s.storeOutside a pa d).mem = s.mem.write pa d
    ∧ (s.storeOutside a pa d).host = { s.host with peerResvs := (s.storeOutside a pa d).host.peerResvs } := by
  unfold State.storeOutside State.storeFrom
  dsimp only
  rw [durable_eq]
  exact ⟨rfl, rfl⟩

theorem revokeIf_valid {hit : HVer → Bool} {v : HVer} (h : (v.revokeIf hit).state = .valid) : hit (v.revokeIf hit) = false := by
  unfold HVer.revokeIf at h ⊢
  by_cases hv : hit v = true
  · rw [if_pos hv] at h
    cases h
  · rw [if_neg hv]
    exact Bool.eq_false_iff.mpr hv

/-- A control core of which a test has revoked the versions holds no valid one that the test picks. -/
theorem revoked_none_valid (c : CoreRegs) (hit : HVer → Bool) (p : Fin 16) (v : HVer)
    (hv : v ∈ ((c.revoke hit).ph[p]).cur :: ((c.revoke hit).ph[p]).old) (hval : v.state = .valid) : hit v = false := by
  have hp : (c.revoke hit).ph[p] = { cur := c.ph[p].cur.revokeIf hit, old := c.ph[p].old.map (HVer.revokeIf hit) } :=
    Vector.getElem_map ..
  rw [hp] at hv
  obtain ⟨u, rfl⟩ : ∃ u : HVer, v = u.revokeIf hit := by
    rcases List.mem_cons.mp hv with hv | hv
    · exact ⟨_, hv⟩
    · obtain ⟨u, -, hu⟩ := List.mem_map.mp hv
      exact ⟨u, hu.symm⟩
  exact revokeIf_valid hval

/-! ### Ends of walks, and tries again -/

theorem execPageWalkEnd_pending {s : State} {bank ph ver : Nat} {v : HVer} (hph : ph < 16)
    (hfind : ((s.bank bank).handle (BitVec.ofNat 4 ph)).find ver = some v) (hst : v.state = .pending) (hc : v.cause = 0)
    (ht : (s.bank bank).task.isSome = true) : execPageWalkEnd bank ph ver s = .next (
      if s.walkGoesOn bank v then s else
        let u := s.walkEnds bank (BitVec.ofNat 4 ph) v
        let cause := (((u.bank bank).handle (BitVec.ofNat 4 ph)).find ver).elim 0 (·.cause)
        let t := (s.members bank).foldl (fun s m => s.usesEnd m ver cause) u
        if (s.members bank).all (fun m => (t.bank m).waiters = (u.bank m).waiters) then t else (t.withdraw bank).giveWay bank) := by
  unfold execPageWalkEnd
  dsimp only
  rw [hfind]
  cases hg : s.walkGoesOn bank v <;> simp [hph, hst, hc, ht, hg]

theorem faultRecordAlloc_core {s t : State} (hop : s.operates = true) {bank va code acc ver : Nat} {w : Waiter}
    (hw : (s.bank bank).waiter = some (.alloc va code acc ver)) (hr : s.recordFault bank 0 code va acc ver = (t, w)) :
    execFaultRecordAlloc bank 0 s = .next (t.modBank bank (fun b => { b with waiter := some w })) := by
  unfold execFaultRecordAlloc
  rw [hop]
  dsimp only
  rw [hw]
  dsimp only [State.retryAlloc]
  rw [hr]
  rfl

theorem allEngines_engIx (e : Engine) : allEngines[(engIx e).val]? = some e := by cases e <;> rfl

theorem faultRecordAlloc_engine {s : State} (hop : s.operates = true) (bank : Nat) (e : Engine) :
    execFaultRecordAlloc bank (1 + (engIx e).val) s = .next (s.retryWords bank (1 + (engIx e).val) e) := by
  rw [Nat.add_comm 1]
  unfold execFaultRecordAlloc
  rw [hop]
  dsimp only
  rw [allEngines_engIx]
  rfl

theorem recordFault_bank (s : State) (bid agent code va acc ver m : Nat) :
    (s.recordFault bid agent code va acc ver).1.bank m = s.bank m := by
  unfold State.recordFault
  dsimp only
  split
  · rfl
  · split <;> rfl

/-- A word that has found the queue of records full, in an engine with no issued word that waits. -/
theorem retryWords_stopped {s t : State} {bank agent va code acc ver : Nat} {e : Engine} {st : Stopped} {w : Waiter}
    (hst : ((s.bank bank).engine e).stopped = some st) (hw : st.waiter = some (.alloc va code acc ver))
    (hfl : e = .cx → (s.bank bank).flights = []) (hr : s.recordFault bank agent code va acc ver = (t, w)) :
    s.retryWords bank agent e = t.modBank bank (fun b => b.modEngine e (fun g => { g with stopped := some { st with waiter := some w } })) := by
  have hbanks : t.bank bank = s.bank bank := by
    have h := recordFault_bank s bank agent code va acc ver bank
    rw [hr] at h
    exact h
  unfold State.retryWords
  rw [hst]
  dsimp only
  rw [hw]
  dsimp only [State.retryAlloc]
  rw [hr]
  dsimp only
  split
  · rename_i he
    rw [State.bank_modBank, if_pos rfl, hbanks]
    have hnone : ((s.bank bank).modEngine e (fun g => { g with stopped := some { st with waiter := some w } })).flights = [] := hfl he
    rw [hnone]
    rfl
  · rfl

/-! ### Waits that end -/

theorem execWaittWake_due {s : State} {bank t : Nat} (hw : (s.bank bank).wait = .waitt t) (ht : t ≤ s.cycle) (hr : s.ready bank = true)
    (ha : s.isActive bank = true) (hd : s.drains bank = false) :
    execWaittWake bank s = .next (s.modBank bank (fun b => (b.setPc (b.core.pc + 4#64)).retire)) := by
  unfold execWaittWake
  rw [hw]
  dsimp only
  rw [if_pos]
  simp [ht, hr, ha, hd]

theorem beginPhase_mem_rest (s : State) (bid : Nat) (pc : Word) :
    (s.beginPhase bid pc).mem = s.mem ∧ ∀ m, ((s.beginPhase bid pc).bank m).wait = (s.bank m).wait := by
  unfold State.beginPhase
  generalize s.members bid = l
  induction l generalizing s with
  | nil => exact ⟨rfl, fun _ => rfl⟩
  | cons i l ih =>
    rw [List.foldl_cons]
    obtain ⟨hm, hb⟩ := ih (s.modBank i (fun b => b.fullCkpt b.phase (if i = bid then pc else b.core.pc)))
    refine ⟨hm, fun m => (hb m).trans ?_⟩
    rw [State.bank_modBank]
    split
    · rename_i him
      rw [fullCkpt_rest, him]
    · rfl

/-- A registration whose deadline has passed gives TIMEOUT, and the bank goes on behind its `dopen.w`. -/
theorem execDopenWTimeout_expired {s : State} {bank : Nat} {w : DirWaiter} (hw : s.dirWaiters.find? (·.bid = bank) = some w)
    (he : s.expired w = true) : execDopenWTimeout bank s = .next ((s.withdraw bank).endDopenW w (2 ^ 63 + 6)) := by
  unfold execDopenWTimeout
  rw [hw]
  exact congrArg _ (if_pos he)

theorem endDopenW_rest (s : State) (w : DirWaiter) (v : Nat) : (s.endDopenW w v).mem = s.mem ∧ (s.endDopenW w v).slots = s.slots
    ∧ (s.endDopenW w v).dirWaiters = s.dirWaiters := by
  have hf := (State.beginPhase_frame (s.modBank w.bid (fun b => ((b.writeX w.rd (BitVec.ofNat 64 v)).setPc (b.core.pc + 4#64)).retire))
    w.bid ((s.modBank w.bid (fun b => ((b.writeX w.rd (BitVec.ofNat 64 v)).setPc (b.core.pc + 4#64)).retire)).bank w.bid).core.pc).rest
  refine ⟨(beginPhase_mem_rest _ _ _).1, ?_, ?_⟩
  · unfold State.endDopenW
    dsimp only
    rw [hf]
    rfl
  · unfold State.endDopenW
    dsimp only
    rw [hf]
    rfl

theorem endDopenW_bank (s : State) (w : DirWaiter) (v : Nat) :
    ((s.endDopenW w v).bank w.bid).core = (((s.bank w.bid).writeX w.rd (BitVec.ofNat 64 v)).setPc ((s.bank w.bid).core.pc + 4#64)).core
    ∧ ((s.endDopenW w v).bank w.bid).wait = .none := by
  unfold State.endDopenW
  dsimp only
  refine ⟨((State.beginPhase_frame _ _ _).core w.bid).trans ?_, ((beginPhase_mem_rest _ _ _).2 w.bid).trans ?_⟩
  · rw [State.bank_modBank, if_pos rfl]
    rfl
  · rw [State.bank_modBank, if_pos rfl]
    rfl

theorem execFenceSWaitEnd_over {s : State} {bank k : Nat} (hw : (s.bank bank).wait = .fenceS k) (hex : s.executes bank = true)
    (hheld : ∀ w ∈ (s.bank bank).dom, s.heldLine w.1 = false)
    (hover : (s.bank bank).dom = [] ∨ lastWindow (s.bank bank).dom + k ≤ s.window) :
    execFenceSWaitEnd bank s = .next (s.setBank bank (((s.bank bank).setPc ((s.bank bank).core.pc + 4#64)).retire)) := by
  have hheld' : s.fenceHeld (s.bank bank) = false := List.any_eq_false.mpr fun w hm => ne_true_of_eq_false (hheld w hm)
  have hover' : s.fenceOver (s.bank bank) = true := by
    unfold State.fenceOver State.fenceWindows
    rw [hw]
    rcases hover with h | h
    · rw [h]
      rfl
    · simp [h]
  unfold execFenceSWaitEnd
  dsimp only
  rw [hw]
  dsimp only
  rw [if_pos]
  simp [hex, hheld', hover']

/-- A promise entry that is not waited for is not missed. -/
theorem execPromiseMissed_other {s : State} {bank n : Nat} {p : Prom} (hp : (s.bank bank).prom n = some p) (h : p.state ≠ .promised)
    (promise : Nat) : execPromiseMissed bank n promise s = .next s := by
  unfold execPromiseMissed
  dsimp only
  rw [hp]
  dsimp only
  rw [if_neg]
  simp [h]

/-- The bank after a missed promise. -/
def Bank.missed (b : Bank) (n time : Nat) (p : Prom) : Bank :=
  { b.setProm n (fun p => { p with time := time, read := false, trapped := p.trapped || p.read }) with
    prmiss := (b.setProm n (fun p => { p with time := time, read := false, trapped := p.trapped || p.read })).prmiss + 1
    missDue := if p.read && !p.trapped
      then (b.setProm n (fun p => { p with time := time, read := false, trapped := p.trapped || p.read })).missDue ++ [n]
      else (b.setProm n (fun p => { p with time := time, read := false, trapped := p.trapped || p.read })).missDue }

theorem execPromiseMissed_past {s : State} {bank n : Nat} {p : Prom} (hp : (s.bank bank).prom n = some p) (hst : p.state = .promised)
    (ht : p.time < s.cycle) (hfl : ∃ f ∈ (s.bank bank).flights, f.n = n) (promise : Nat) : execPromiseMissed bank n promise s
      = .next (s.setBank bank ((s.bank bank).missed n (max (promise % 2 ^ 64) ((s.cycle + 1) % 2 ^ 64)) p)) := by
  unfold execPromiseMissed
  dsimp only
  rw [hp]
  dsimp only
  rw [if_pos]
  · rfl
  · simpa [hst, ht] using hfl

theorem missed_rest (b : Bank) (n time : Nat) (p : Prom) : (b.missed n time p).prmiss = b.prmiss + 1
    ∧ (b.missed n time p).missDue = (if p.read = true ∧ p.trapped = false then b.missDue ++ [n] else b.missDue)
    ∧ (b.missed n time p).core = b.core ∧ (b.missed n time p).eng = b.eng := by
  unfold Bank.missed
  rw [setProm_rest]
  refine ⟨rfl, if_congr ?_ rfl rfl, rfl, rfl⟩
  rw [Bool.and_eq_true, Bool.not_eq_true']

end Sys2Proof.Machine

namespace Sys2Proof.Proofs
open Sys2Proof Sys2Proof.Machine

theorem invalidationQueue : Claim.InvalidationQueue := by
  unfold Claim.InvalidationQueue
  intro s hop hlink
  refine ⟨fun k w hn => ⟨fun hbad => ⟨?_, ?_⟩, fun hgood h0 => ?_, fun hgood h1 hwait => ?_, fun hgood h1 hcan => ?_⟩,
    fun e he => ⟨fun hflip hgood hnew hclean => ?_, fun hdirty => ?_, fun hdone => ?_⟩, fun b hit c hc p v hv hval => ?_⟩
  · exact (execIqInvalidate_next hn).trans (congrArg _ (if_pos hbad))
  · exact (execFlipRequest_next hn).trans (congrArg _ (if_pos hbad))
  · refine (execIqInvalidate_next hn).trans (congrArg _ ?_)
    rw [if_neg (ne_true_of_eq_false hgood), if_pos h0]
  · refine (execFlipRequest_next hn).trans (congrArg _ ?_)
    rw [if_neg (ne_true_of_eq_false hgood), if_pos h1, if_pos hwait]
  · refine ⟨s.flipTaken k w, (execFlipRequest_next hn).trans (congrArg _ ?_), ?_⟩
    · rw [if_neg (ne_true_of_eq_false hgood), if_pos h1, if_neg (ne_true_of_eq_false hcan)]
    · refine ⟨rfl, rfl, rfl, ?_⟩
      change some (InvEntry.mk k w.vf w.va (decide (w.op = 1)) w.bad false w.done) = _
      rw [h1, hgood]
      rfl
  · refine ⟨s.flipAcked e, (execFlipAck_inv he).trans (congrArg _ (if_pos ?_)), rfl, rfl, rfl, rfl, rfl⟩
    rw [hop, hflip, hgood, hnew, hclean]
    rfl
  · refine (execFlipAck_inv he).trans (congrArg _ (if_neg ?_))
    rw [hdirty, Bool.not_true, Bool.and_false]
    exact Bool.false_ne_true
  · have hcond : (s.operates && s.host.link && (e.bad || !e.flip || e.acked)) = true := by
      rw [hop, hlink]
      rcases hdone with h | h | h <;> simp [h]
    obtain ⟨hmem, hhost⟩ := storeOutside_mem_host s unitAgent (hostBase + e.done % 2 ^ 54) (leBytes 8 (if e.bad then 2 ^ 63 + e.k else e.k))
    refine ⟨_, execInvalidationComplete_inv he hcond, hmem, ?_⟩
    dsimp only
    rw [hhost]
  · obtain ⟨c, rfl⟩ : ∃ c' : CoreRegs, c = c'.revoke hit := by
      rcases List.mem_cons.mp hc with hc | hc
      · exact ⟨_, hc⟩
      · obtain ⟨x, hx, rfl⟩ := List.mem_map.mp hc
        obtain ⟨y, -, rfl⟩ := List.mem_map.mp hx
        exact ⟨y.core, rfl⟩
    exact revoked_none_valid c hit p v hv hval

theorem retriesComplete : Claim.RetriesComplete := by
  unfold Claim.RetriesComplete
  intro s bank ph ver v hop
  refine ⟨fun hph hfind hst hc ht => ?_, fun va code acc t w hw hr => faultRecordAlloc_core hop hw hr, fun e => faultRecordAlloc_engine hop bank e,
    fun e st va code acc t w hst hw hfl hr => retryWords_stopped hst hw hfl hr, fun hused hheld => ?_, fun r hr hdom hold => ?_⟩
  · have hexec : exec (.pageWalkEnd bank ph ver) s = _ := execPageWalkEnd_pending hph hfind hst hc ht
    refine ⟨fun hgoes => ?_, fun hends => ⟨fun hnone => ?_, fun hsome => ?_⟩⟩
    · exact hexec.trans (congrArg _ (if_pos hgoes))
    · refine hexec.trans (congrArg _ ((if_neg (ne_true_of_eq_false hends)).trans (if_pos ?_)))
      exact List.all_eq_true.mpr fun m hm => decide_eq_true (hnone m hm)
    · refine hexec.trans (congrArg _ ((if_neg (ne_true_of_eq_false hends)).trans (if_neg fun hall => ?_)))
      obtain ⟨m, hm, hne⟩ := hsome
      exact hne (of_decide_eq_true (List.all_eq_true.mp hall m hm))
  · change execReclaimRetry bank s = _
    unfold execReclaimRetry
    rw [if_pos (by rw [hused, hheld]; rfl)]
  · change execLrReservationExpiry bank s = _
    unfold execLrReservationExpiry
    rw [hr]
    exact congrArg _ (if_pos (by rw [hdom]; exact decide_eq_true hold))

theorem waitsEnd : Claim.WaitsEnd := by
  unfold Claim.WaitsEnd
  intro s bank b goesOn
  refine ⟨fun t hw ht hr ha hd => execWaittWake_due hw ht hr ha hd, fun w hw hne hle => ?_, 
    fun k hw hex hheld hover => execFenceSWaitEnd_over hw hex hheld hover, fun n promise p hp hst ht hfl => ?_,
    fun n promise p hp hst => execPromiseMissed_other hp hst promise⟩
  · have hfound := List.find?_some hw
    have hbid : w.bid = bank := of_decide_eq_true hfound
    have hexp : s.expired w = true := by simp [State.expired, hne, hle]
    subst hbid
    obtain ⟨hmem, hslots, hdir⟩ := endDopenW_rest (s.withdraw w.bid) w (2 ^ 63 + 6)
    obtain ⟨hcore, hwait⟩ := endDopenW_bank (s.withdraw w.bid) w (2 ^ 63 + 6)
    refine ⟨_, execDopenWTimeout_expired hw hexp, ?_, ?_, hwait, ?_, hslots, hmem⟩
    · rw [Bank.readX_core hcore, Bank.readX_setPc, Bank.readX_writeX]
      by_cases h0 : w.rd = 0#5
      · rw [if_pos h0, if_pos h0]
      · rw [if_neg h0, if_neg h0, if_pos rfl]
        decide
    · exact congrArg CoreRegs.pc hcore
    · rw [hdir]
      intro x hx
      exact of_decide_eq_true (List.mem_filter.mp hx).2
  · obtain ⟨hcount, hdue, hcore, heng⟩ := missed_rest b n (max (promise % 2 ^ 64) ((s.cycle + 1) % 2 ^ 64)) p
    refine ⟨_, execPromiseMissed_past hp hst ht hfl promise, ?_, ?_, ?_, ?_, fun m hm => ?_⟩
    · rw [State.bank_setBank, if_pos rfl]
      exact hcount
    · rw [State.bank_setBank, if_pos rfl]
      exact hdue
    · rw [State.bank_setBank, if_pos rfl]
      exact hcore
    · rw [State.bank_setBank, if_pos rfl]
      exact heng
    · rw [State.bank_setBank, if_neg (Ne.symm hm)]

/-- Settles O50: each event under its condition, and what it leaves. -/
theorem timedEvents : Obligations.TimedEvents := ⟨invalidationQueue, retriesComplete, waitsEnd⟩

end Sys2Proof.Proofs
end

-- ==== Checked entries, markers, mismatches and poison (O51) ====
section
/-! SUPPORT. Checked entries, markers, mismatches and poison (R131, R157, R162, R352 to R355). -/

namespace Sys2Proof.Machine

-- One proof at a time: the whole text compiles in one process of bounded memory.
set_option Elab.async false

/-! ### Checked entries -/

theorem issue_engine (b : Bank) (e : Engine) (c : Cmd) (rest : List Cmd) : ((b.issue e c rest).engine e).queue = rest
    ∧ ((b.issue e c rest).engine e).entry = some c
    ∧ ((b.issue e c rest).engine e).regs.upc = (match c.kind with | .call a => some a | _ => none) := by
  have heng : (b.issue e c rest).engine e = { b.engine e with
      queue := rest, entry := some c, regs := { (b.engine e).regs with upc := match c.kind with | .call a => some a | _ => none }
      checked := PMap.put (b.engine e).checked cmdKey (b.compared e cmdKey - 1) } := by
    have hraise : ∀ (b : Bank), (b.raiseLow e).engine e = b.engine e := fun b => by
      unfold Bank.raiseLow
      dsimp only
      split <;> rfl
    exact (hraise _).trans ((Bank.engine_modEngine ..).trans ((if_pos rfl).trans (by cases c.kind <;> rfl)))
  rw [heng]
  exact ⟨rfl, rfl, rfl⟩

section Entries

variable {s : State} {bank : Nat} {e : Engine}

/-- The head entry of an engine that is between entries. -/
theorem execCheckedEntryIssue_head (hex : s.executes bank = true) (he : (((s.bank bank).passBoundary e 3).engine e).entry = none)
    (hs : (((s.bank bank).passBoundary e 3).engine e).stopped = none) (hm : (((s.bank bank).passBoundary e 3).engine e).mark = none)
    {c : Cmd} {rest : List Cmd} (hq : (((s.bank bank).passBoundary e 3).engine e).queue = c :: rest) :
    execCheckedEntryIssue bank e s = .next (if c.bad then s.agentPoison bank (some e) none
      else s.setBank bank (((s.bank bank).passBoundary e 3).issue e c rest)) := by
  unfold execCheckedEntryIssue
  rw [hex]
  dsimp only
  refine congrArg _ ((if_neg Bool.false_ne_true).trans ?_)
  rw [he, hs, hm, hq]

/-- An engine that is not between entries, or has none. -/
theorem execCheckedEntryIssue_busy (hex : s.executes bank = true) (hb : (((s.bank bank).passBoundary e 3).engine e).entry ≠ none
      ∨ (((s.bank bank).passBoundary e 3).engine e).stopped ≠ none ∨ (((s.bank bank).passBoundary e 3).engine e).mark ≠ none
      ∨ (((s.bank bank).passBoundary e 3).engine e).queue = []) :
    execCheckedEntryIssue bank e s = .next (s.compareNext bank e ((s.bank bank).passBoundary e 3)) := by
  unfold execCheckedEntryIssue
  rw [hex]
  dsimp only
  refine congrArg _ ((if_neg Bool.false_ne_true).trans ?_)
  split
  · rename_i he hs hm hq
    rcases hb with h | h | h | h
    · exact absurd he h
    · exact absurd hs h
    · exact absurd hm h
    · rw [hq] at h
      cases h
  · rfl

theorem execCheckedEntryIssue_drain (hp : s.present bank = true) (hd : s.drains bank = true) :
    execCheckedEntryIssue bank e s = .next (s.compareNext bank e (s.bank bank)) := by
  have hex : s.executes bank = false := by simp [State.executes, hd]
  unfold execCheckedEntryIssue
  rw [hex, hp, hd]
  rfl

theorem compareNext_some {b : Bank} {q : BitVec 3} (h : b.uncompared e = some q) : s.compareNext bank e b = s.setBank bank (b.compare e q) := by
  unfold State.compareNext
  rw [h]

theorem compareNext_none {b : Bank} (h : b.uncompared e = none) : s.compareNext bank e b = s := by
  unfold State.compareNext
  rw [h]

end Entries

/-! ### Mismatches -/

theorem mem_openPhases (b : Bank) (p : Nat) : p ∈ b.openPhases ↔ b.committed ≤ p ∧ p ≤ b.phase := by
  unfold Bank.openPhases
  rw [List.mem_filter, List.mem_range, decide_eq_true_eq]
  omega

/-- The state in which a mismatch has been counted, in RASSTAT and on every phase that is not committed. -/
def State.mismatchCounted (s : State) (bank : Nat) : State :=
  (if (s.die (dieOf bank)).ymis < 0xFFFF
    then (s.modDie (dieOf bank) (fun d => { d with ymis := d.ymis + 1 })).rasRise (dieOf bank) else s).modBank bank Bank.countMismatch

theorem execYarrowMismatch_open {s : State} {bank : Nat} (he : s.engaged bank = true)
    (hopen : (s.bank bank).comparing = true ∨ (s.bank bank).misOpen = true) : execYarrowMismatch bank s
      = .next (let t := s.mismatchCounted bank
        if (s.bank bank).openPhases.any (fun p => 3 ≤ PMap.get 0 (t.bank bank).mismatches p) then
          (t.modCore (coreOf bank) (fun c => { c with failed := true })).terminateOf bank 0x14
        else if (s.bank bank).misOpen then t.modBank bank (fun b => { b with misOpen := false })
        else ((t.members (t.handleBank bank)).foldl (fun s m => s.rollback m) t).fireAll (t.members (t.handleBank bank))) := by
  unfold execYarrowMismatch
  dsimp only
  refine congrArg _ ((if_neg ?_).trans rfl)
  rcases hopen with h | h <;> simp [he, h]

theorem execYarrowMismatch_closed {s : State} {bank : Nat} (hc : (s.bank bank).comparing = false) (hm : (s.bank bank).misOpen = false) :
    execYarrowMismatch bank s = .next s := by
  unfold execYarrowMismatch
  dsimp only
  rw [if_pos]
  simp [hc, hm]

end Sys2Proof.Machine

namespace Sys2Proof.Proofs
open Sys2Proof Sys2Proof.Machine

theorem present_of_engaged {s : State} {bank : Nat} (h : s.engaged bank = true) : s.present bank = true :=
  ((Bool.and_eq_true _ _).mp h).1

/-- Settles O51: each event by the state of its bank and engine. -/
theorem checkedEntries : Obligations.CheckedEntries := by
  unfold Obligations.CheckedEntries
  intro s bank line ckpt e
  refine ⟨fun hp => ?_, fun heng => ⟨fun hex he hs hm c rest hq => ⟨fun hgood => ?_, fun hbad => ?_⟩,
    fun hex hbusy => ⟨fun q hq => ?_, fun hq => ?_⟩,
    fun hd => ⟨fun q hq => ?_, fun hq => ?_⟩, fun hex hready => ?_, fun hopen => ?_, fun hc hm => execYarrowMismatch_closed hc hm⟩⟩
  · change execPoisonConsume bank ⟨line, ckpt⟩ s = _
    unfold execPoisonConsume
    rw [if_pos hp]
  · obtain ⟨hqueue, hentry, hupc⟩ := issue_engine ((s.bank bank).passBoundary e 3) e c rest
    refine ⟨_, (execCheckedEntryIssue_head hex he hs hm hq).trans (congrArg _ (if_neg (ne_true_of_eq_false hgood))), ?_, ?_, ?_, rfl⟩
    · rw [State.bank_setBank, if_pos rfl, hqueue]
    · rw [State.bank_setBank, if_pos rfl, hentry]
    · rw [State.bank_setBank, if_pos rfl]
      exact hupc
  · exact (execCheckedEntryIssue_head hex he hs hm hq).trans (congrArg _ (if_pos hbad))
  · exact (execCheckedEntryIssue_busy hex hbusy).trans (congrArg _ (compareNext_some hq))
  · exact (execCheckedEntryIssue_busy hex hbusy).trans (congrArg _ (compareNext_none hq))
  · exact (execCheckedEntryIssue_drain (present_of_engaged heng) hd).trans (congrArg _ (compareNext_some hq))
  · exact (execCheckedEntryIssue_drain (present_of_engaged heng) hd).trans (congrArg _ (compareNext_none hq))
  · change execMarkerRetire bank e s = _
    unfold execMarkerRetire
    rw [if_pos (by rw [hex, hready]; rfl)]
  · have hexec : exec (.yarrowMismatch bank) s = _ := execYarrowMismatch_open heng hopen
    have hthird : (s.bank bank).openPhases.any (fun p => 3 ≤ PMap.get 0 ((s.mismatchCounted bank).bank bank).mismatches p) = true
        ↔ ∃ p, (s.bank bank).committed ≤ p ∧ p ≤ (s.bank bank).phase
          ∧ 3 ≤ PMap.get 0 ((s.mismatchCounted bank).bank bank).mismatches p := by
      simp only [List.any_eq_true, mem_openPhases, decide_eq_true_eq, and_assoc]
    refine ⟨fun hthree => ?_, fun hfew hmis => ?_, fun hfew hmis => ?_⟩
    · exact hexec.trans (congrArg _ (if_pos (hthird.mpr hthree)))
    · exact hexec.trans (congrArg _ ((if_neg (mt hthird.mp hfew)).trans (if_pos hmis)))
    · exact hexec.trans (congrArg _ ((if_neg (mt hthird.mp hfew)).trans (if_neg (ne_true_of_eq_false hmis))))

end Sys2Proof.Proofs
end

-- ==== The durable tier, loss of power and start (O52) ====
section
/-! SUPPORT. The durable tier: acceptance, the media, loss of power, shutdown and start (R73 to R79, R84, R85, R360, R361). -/

namespace Sys2Proof.Machine

-- One proof at a time: the whole text compiles in one process of bounded memory.
set_option Elab.async false

/-! ### Acceptance -/

theorem free_iff (t : Betony) (d : DStore) : t.free d = true ↔ ∀ x ∈ d.after, ∀ y ∈ t.pending, y.id ≠ x := by
  simp [Betony.free]

section Accept

variable {s : State} {i : Nat} {d : DStore} (hd : s.betony.pending.find? (·.id = i) = some d)
include hd

theorem execDurableAccept_found :
    execDurableAccept i s = .next (if s.betony.free d && s.betony.room d then { s with betony := s.betony.accept d } else s) := by
  unfold execDurableAccept
  dsimp only
  rw [hd]

theorem execDurableAccept_held (h : ∃ x ∈ d.after, ∃ y ∈ s.betony.pending, y.id = x) : execDurableAccept i s = .next s := by
  refine (execDurableAccept_found hd).trans (congrArg _ (if_neg fun hc => ?_))
  obtain ⟨x, hx, y, hy, hyx⟩ := h
  exact (free_iff _ _).mp ((Bool.and_eq_true _ _).mp hc).1 x hx y hy hyx

theorem execDurableAccept_full (h : s.betony.room d = false) : execDurableAccept i s = .next s := by
  refine (execDurableAccept_found hd).trans (congrArg _ (if_neg ?_))
  rw [h, Bool.and_false]
  exact Bool.false_ne_true

theorem execDurableAccept_taken (h : ∀ x ∈ d.after, ∀ y ∈ s.betony.pending, y.id ≠ x) (hr : s.betony.room d = true) :
    execDurableAccept i s = .next { s with betony := s.betony.accept d } := by
  refine (execDurableAccept_found hd).trans (congrArg _ (if_pos ?_))
  rw [(free_iff _ _).mpr h, hr]
  rfl

end Accept

section Room

variable {t : Betony} {d : DStore}

theorem room_foreign (h : d.own = false) : t.room d = true := by
  unfold Betony.room
  rw [h]
  rfl

theorem room_armed (hr : t.rdy = true) (ho : d.own = true) (hk : t.hok = true) :
    t.room d = decide (t.held + 8 * d.words.length ≤ bufferBytes) := by
  unfold Betony.room
  rw [hr, ho, hk]
  rfl

theorem room_unarmed (hr : t.rdy = true) (hk : t.hok = false) (hb : t.buffer = []) : t.room d = true := by
  unfold Betony.room
  rw [hr, hk, hb]
  cases d.own <;> rfl

end Room

/-! ### Drains -/

/-- A drain of n steps takes the first n stores of the buffer to the media, and leaves the rest of the tier but the last number. -/
theorem drain_eq (n : Nat) (t : Betony) : t.drain n = { t with
    buffer := t.buffer.drop n
    media := (t.buffer.take n).foldl (fun m a => writeMedia m a.words) t.media
    lastSeq := (t.drain n).lastSeq } := by
  induction n generalizing t with
  | zero => rfl
  | succ n ih =>
    have hstep := ih t.drain1
    unfold Betony.drain
    generalize t.drain1.drain n = u at hstep ⊢
    rw [hstep]
    unfold Betony.drain1
    cases hb : t.buffer with
    | nil => simp [hb]
    | cons a rest => rfl

/-- What an orderly shutdown leaves. -/
def State.quiesced (s : State) : State :=
  let t := s.betony.drain s.betony.buffer.length
  { s with
    mem := tierMem s.mem t.media
    betony := { t with rdy := false, loss := false, drainOk := true, entries := [], pending := [] }
    host := { s.host with status := .ok, stopped := true, answer := [], unitWrites := [] } }

/-- A command over the mailbox, while the module operates. -/
theorem command_runs {s : State} (hstop : s.host.stopped = false) (hsafe : s.host.safe = false) (hport : s.cur.port = .mailbox)
    (overI3c inSafe : Bool) (f : State → Host.Outcome State Fault Refusal) :
    s.command overI3c inSafe f = f { s with host := { s.host with status := .ok } } := by
  unfold State.command
  rw [if_neg (ne_true_of_eq_false hstop), if_neg]
  simp [hsafe, hport]

theorem execQuiesce_running {s : State} (hstop : s.host.stopped = false) (hsafe : s.host.safe = false) (hport : s.cur.port = .mailbox) :
    execQuiesce s = .next s.quiesced := command_runs hstop hsafe hport _ _ _

/-- What a loss of power leaves where n stores of the buffer still reach the media. -/
def State.lost (s : State) (n : Nat) : State :=
  let t := s.betony.drain n
  ({ s with betony := { t with
    loss := true, drainOk := decide (n = s.betony.buffer.length), lossCyc := s.cycle, lossTime := s.ftime
    entries := (List.range 192).filterMap s.lossEntry } }).powerless (s.lossMem t.media)

theorem execPowerLoss_running {s : State} (h : s.host.stopped = false) (n : Nat) : execPowerLoss n s
    = .next (s.lost (if s.betony.hok then s.betony.buffer.length else min n s.betony.buffer.length)) := by
  unfold execPowerLoss
  exact congrArg _ (if_neg (ne_true_of_eq_false h))

/-! ### Start -/

/-- What the repairs and the summary of a start change: memory and the media, poison, and the record of repairs. -/
structure StartFrame (s t : State) : Prop where
  rest : t = { s with
    mem := t.mem, poison := t.poison, betony := { s.betony with media := t.betony.media }
    host := { s.host with burnt := t.host.burnt, retired := t.host.retired } }

theorem StartFrame.refl (s : State) : StartFrame s s := ⟨rfl⟩

theorem StartFrame.trans {s t u : State} (h : StartFrame s t) (k : StartFrame t u) : StartFrame s u := by
  have h1 := h.rest
  have k1 := k.rest
  rw [h1] at k1
  exact ⟨k1⟩

theorem StartFrame.foldl {α : Type} {f : State → α → State} (h : ∀ s x, StartFrame s (f s x)) (l : List α) (s : State) :
    StartFrame s (l.foldl f s) := by
  induction l generalizing s with
  | nil => exact StartFrame.refl s
  | cons x l ih => exact (h s x).trans (ih _)

theorem StartFrame.of_mem (s : State) (m media : Mem) :
    StartFrame s { s with mem := m, betony := { s.betony with media := media } } := ⟨rfl⟩

theorem StartFrame.repair1 (s : State) (entry : Nat) : StartFrame s (s.repair1 entry) := by
  unfold State.repair1
  dsimp only
  split
  · exact ⟨rfl⟩
  · exact ⟨rfl⟩

theorem StartFrame.repair (s : State) : StartFrame s s.repair := by
  unfold State.repair
  exact (StartFrame.foldl StartFrame.repair1 _ s).trans (StartFrame.of_mem _ _ _)

theorem StartFrame.writeWords (vs : List Nat) (s : State) (off : Nat) : StartFrame s (s.writeWords off vs) := by
  induction vs generalizing s off with
  | nil => exact StartFrame.refl s
  | cons v vs ih =>
    unfold State.writeWords State.writeReserved
    exact (StartFrame.of_mem s _ _).trans (ih _ _)

/-- The area of the recovery summary is undefined from now on. -/
def State.summaryBlank (s : State) : State :=
  { s with
    mem := s.mem.blank (reservedBase + summaryOff) (reservedBase + summaryOff + 0x4000) none
    betony := { s.betony with media := s.betony.media.blank (reservedBase + summaryOff) (reservedBase + summaryOff + 0x4000) none } }

/-- The recovery summary is written. -/
def State.summarized (s : State) : State :=
  s.summaryBlank.writeWords summaryOff (s.summaryBlank.betony.summary (fun i => (Config.freeWord s.summaryBlank.ticks i).toNat))

theorem StartFrame.summarized (s : State) : StartFrame s s.summarized := by
  have hblank : StartFrame s s.summaryBlank := by
    unfold State.summaryBlank
    exact StartFrame.of_mem s _ _
  exact hblank.trans (StartFrame.writeWords _ _ _)

/-- Betony serves accesses, behind its summary. -/
def State.served (s : State) : State :=
  { s with betony := { s.betony with rdy := true, loss := false, drainOk := true, entries := [], firstSeq := s.betony.seq } }

theorem startBetony_eq (s : State) : s.startBetony = s.summarized.served.retryUnits := rfl

theorem retryUnits_none {s : State} (h : s.host.unitWrites = []) : s.retryUnits = s := by
  unfold State.retryUnits
  rw [h]
  change { s with host := { s.host with unitWrites := [] } } = s
  rw [← h]

/-- What stands in a module with no unit write that waits once Betony has started. -/
theorem startBetony_rest {s : State} (h : s.host.unitWrites = []) : s.startBetony.host.stopped = s.host.stopped
    ∧ s.startBetony.host.safe = s.host.safe ∧ s.startBetony.cycle = s.cycle ∧ s.startBetony.banks = s.banks ∧ s.startBetony.nests = s.nests
    ∧ s.startBetony.betony.starts = s.betony.starts ∧ s.startBetony.betony.rdy = true ∧ s.startBetony.betony.firstSeq = s.betony.seq
    ∧ s.startBetony.betony.loss = false := by
  obtain ⟨hrest⟩ := StartFrame.summarized s
  have hunits : s.summarized.served.host.unitWrites = [] := by
    unfold State.served
    rw [hrest]
    exact h
  rw [startBetony_eq, retryUnits_none hunits]
  unfold State.served
  generalize s.summarized = t at hrest ⊢
  rw [hrest]
  exact ⟨rfl, rfl, rfl, rfl, rfl, rfl, rfl, rfl, rfl⟩

theorem checkFw_unitWrites (h : HostSt) : h.activate.checkFw.2.unitWrites = h.unitWrites := by
  have ha : h.activate.unitWrites = h.unitWrites := by
    unfold HostSt.activate
    split <;> rfl
  have hc : ∀ h : HostSt, h.checkFw.2.unitWrites = h.unitWrites := fun h => by
    unfold HostSt.checkFw
    split <;> rfl
  exact (hc _).trans ha

/-- The memories of a start, behind its repairs. -/
def State.repaired (s : State) : State := (s.powerless s.mem).scramble.repair

theorem repaired_rest (s : State) : s.repaired.banks = [] ∧ s.repaired.nests = [] ∧ s.repaired.betony.starts = s.betony.starts
    ∧ s.repaired.betony.seq = s.betony.seq ∧ s.repaired.host.unitWrites = [] := by
  obtain ⟨h⟩ := StartFrame.repair (s.powerless s.mem).scramble
  unfold State.repaired
  generalize (s.powerless s.mem).scramble.repair = t at h ⊢
  rw [h]
  exact ⟨rfl, rfl, rfl, rfl, rfl⟩

/-- The module of a start before Betony starts; safe where there is trouble. -/
def State.startedAs (s : State) (dies : PMap Die) (h : HostSt) (trouble : Option (Nat × Nat)) (bist : Word) : State :=
  { s with
    dies := dies, cycle := 0
    betony := { s.betony with starts := s.betony.starts + 1 }
    host := { h with stopped := false, safe := trouble.isSome, bist := bist } }

/-- Betony starts too, unless trouble of a step before the links stops it. -/
def State.withBetony (s : State) (trouble : Option (Nat × Nat)) : State :=
  if trouble.all (fun t => t.1 = 6) then s.startBetony else s

/-- How a start goes on from repaired memories. -/
structure Starts (u : State) (r : StartReport) (t : State) (dies : PMap Die) (bist : Word) (trouble : Option (Nat × Nat)) : Prop where
  why : trouble = u.unsafeStart r u.host.activate.checkFw.1
  state : t = (u.startedAs dies u.host.activate.checkFw.2 trouble bist).withBetony trouble

theorem execStartSequence_starts {s : State} (h : s.canStart = true) (r : StartReport) :
    ∃ t dies bist trouble, execStartSequence r s = .next t ∧ Starts s.repaired r t dies bist trouble := by
  unfold execStartSequence
  rw [if_neg (by rw [h]; exact Bool.false_ne_true)]
  extract_lets t caps dies
  exact ⟨_, _, _, _, rfl, ⟨rfl, rfl⟩⟩

/-- What stands in the module once it has started, with or without Betony. -/
theorem withBetony_rest {u : State} (hu : u.host.unitWrites = []) (dies : PMap Die) (trouble : Option (Nat × Nat)) (bist : Word) :
    let t := (u.startedAs dies u.host.activate.checkFw.2 trouble bist).withBetony trouble
    t.cycle = 0 ∧ t.host.stopped = false ∧ t.host.safe = trouble.isSome ∧ t.banks = u.banks ∧ t.nests = u.nests
      ∧ t.betony.starts = u.betony.starts + 1
      ∧ (trouble = none → t.betony.rdy = true ∧ t.betony.firstSeq = u.betony.seq ∧ t.betony.loss = false) := by
  intro t
  obtain ⟨hstop, hsafe, hcycle, hbanks, hnests, hstarts, hrdy, hseq, hloss⟩ := startBetony_rest
    (s := u.startedAs dies u.host.activate.checkFw.2 trouble bist) ((checkFw_unitWrites u.host).trans hu)
  by_cases hall : trouble.all (fun t => t.1 = 6) = true
  · have ht : t = (u.startedAs dies u.host.activate.checkFw.2 trouble bist).startBetony := if_pos hall
    rw [ht]
    exact ⟨hcycle, hstop, hsafe, hbanks, hnests, hstarts, fun _ => ⟨hrdy, hseq, hloss⟩⟩
  · have ht : t = u.startedAs dies u.host.activate.checkFw.2 trouble bist := if_neg hall
    rw [ht]
    refine ⟨rfl, rfl, rfl, rfl, rfl, rfl, fun hnone => ?_⟩
    rw [hnone] at hall
    exact absurd rfl hall

/-- A die without a core stops a start. -/
theorem unsafeStart_of_coreless {u : State} {r : StartReport} {d : Nat} (hd : d < 4) (h : r.coremasks.getD d 0 = 0) (fw : Bool) :
    (u.unsafeStart r fw).isSome = true := by
  have hmask : u.coremask r d = 0 := by
    unfold State.coremask
    rw [h]
    refine List.sum_eq_zero fun x hx => ?_
    obtain ⟨c, -, rfl⟩ := List.mem_map.mp hx
    simp [bit]
  unfold State.unsafeStart
  split
  · rfl
  · rename_i hnone
    have hno := List.find?_eq_none.mp hnone d (List.mem_range.mpr hd)
    rw [hmask] at hno
    exact absurd rfl hno

end Sys2Proof.Machine

namespace Sys2Proof.Proofs
open Sys2Proof Sys2Proof.Machine

theorem durableTier : Claim.DurableTier := by
  unfold Claim.DurableTier
  intro s hrdy t
  refine ⟨fun i d hd => ?_, fun a rest hb => ?_, fun x => ?_, fun hop hport => ?_⟩
  · have hid : d.id = i := by
      have hfound := List.find?_some hd
      exact of_decide_eq_true hfound
    subst hid
    refine ⟨fun hheld => execDurableAccept_held hd hheld, fun hfree =>
      ⟨fun hown => ?_, fun hown hok hroom => ?_, fun hown hok hfull => ?_, fun hown hok hempty => ?_⟩⟩
    · refine (execDurableAccept_taken hd hfree (room_foreign hown)).trans ?_
      unfold Betony.accept
      rw [hown]
      rfl
    · refine (execDurableAccept_taken hd hfree ((room_armed hrdy hown hok).trans (decide_eq_true hroom))).trans ?_
      unfold Betony.accept
      dsimp only
      rw [hown, show s.betony.hok = true from hok]
      rfl
    · exact execDurableAccept_full hd ((room_armed hrdy hown hok).trans (decide_eq_false (Nat.not_le.mpr hfull)))
    · refine (execDurableAccept_taken hd hfree (room_unarmed hrdy hok hempty)).trans ?_
      unfold Betony.accept
      dsimp only
      rw [hown, show s.betony.hok = false from hok]
      rfl
  · change execMediaWrite s = _
    unfold execMediaWrite Betony.drain1
    rw [if_pos hrdy, show s.betony.buffer = a :: rest from hb]
    rfl
  · change execHoldUpEnergyArming x s = _
    unfold execHoldUpEnergyArming
    rw [if_pos hrdy]
  · obtain ⟨hstop, hsafe⟩ : s.host.stopped = false ∧ s.host.safe = false := by simpa [State.operates] using hop
    refine ⟨s.quiesced, execQuiesce_running hstop hsafe hport, ?_, rfl, rfl, rfl, rfl, rfl, ?_, rfl⟩
    · exact (congrArg Betony.buffer (drain_eq _ s.betony)).trans List.drop_length
    · refine (congrArg Betony.media (drain_eq _ s.betony)).trans ?_
      dsimp only
      rw [List.take_length]
      rfl

theorem powerCycles : Claim.PowerCycles := by
  unfold Claim.PowerCycles
  intro s n r k
  refine ⟨fun hrun => ?_, fun hstart => ?_⟩
  · refine ⟨s.lost k, execPowerLoss_running hrun n, rfl, rfl, rfl, rfl, rfl, rfl, ?_, rfl, rfl, rfl, rfl, rfl, rfl⟩
    exact congrArg Betony.media (drain_eq k s.betony)
  · obtain ⟨t, dies, bist, trouble, hexec, ⟨hwhy, hstate⟩⟩ := execStartSequence_starts hstart r
    obtain ⟨hbanks, hnests, hstarts, hseq, hunits⟩ := repaired_rest s
    obtain ⟨tcycle, tstop, tsafe, tbanks, tnests, tstarts, tbetony⟩ := withBetony_rest hunits dies trouble bist
    rw [← hstate, hstarts] at tstarts
    rw [← hstate, hseq] at tbetony
    rw [← hstate] at tcycle tstop tsafe tbanks tnests
    refine ⟨t, hexec, tcycle, tstop, tbanks.trans hbanks, tnests.trans hnests, tstarts, fun hs => tbetony ?_, fun hnone => ?_⟩
    · rw [hs] at tsafe
      exact Option.isNone_iff_eq_none.mp (Option.isSome_eq_false_iff.mp tsafe.symm)
    · obtain ⟨d, hd, h0⟩ := hnone
      rw [tsafe, hwhy]
      exact unsafeStart_of_coreless hd h0 _

/-- Settles O52: each event by its rule, the drains by their number of steps. -/
theorem durableEvents : Obligations.DurableEvents := ⟨durableTier, powerCycles⟩

end Sys2Proof.Proofs
end

-- ==== Loss of the host link (O53) ====
section
/-! SUPPORT. Loss of the host link while a host atomic waits for a reserved line (R149, R150). -/

namespace Sys2Proof.Machine

-- One proof at a time: the whole text compiles in one process of bounded memory.
set_option Elab.async false

/-- The first line of host memory. -/
abbrev firstHostLine : Nat := hostBase / 64

/-- Bank 0 reserves the first doubleword of host memory, and a host atomic on that line waits for the reservation. -/
def State.atomicWaits : State :=
  { State.reset with
    banks := [(0, { Bank.init with resv := some { addr := hostBase, size := 8, value := 0, time := 0, domain := true } })]
    host := { State.reset.host with
      link := true
      snoops := [{ line := firstHostLine, atomic := some { op := .add, dbl := true, off := 0, src := 1#64 } }] } }

/-- While the link is up the snoop waits for the reservation of bank 0. -/
theorem atomicWaits_owned : State.atomicWaits.operates = true ∧ State.atomicWaits.owned firstHostLine = true := by decide

/-- The loss of the link lets the host perform its atomic, whose store ends the reservation of bank 0. -/
theorem hostLinkDown_ends_reservation {t : State} (h : execHostLinkDown State.atomicWaits = .next t) :
    t.banks.map (fun b => b.2.resv) = [none] := by
  cases h
  decide

end Sys2Proof.Machine

namespace Sys2Proof.Proofs
open Sys2Proof Sys2Proof.Machine

/-- Refutes O53: its first clause says that every bank, and so every reservation, stands over the loss of the host link. Where a host atomic
waits on a line of host memory that an LR of bank 0 keeps, the loss of the link has the host perform the atomic, and the atomic's store ends
the reservation. -/
theorem not_linksAndOutside : ¬ Obligations.LinksAndOutside := by
  unfold Obligations.LinksAndOutside Claim.LinksComplete
  intro h
  obtain ⟨hlinks, -⟩ := h
  obtain ⟨hdown, -⟩ := hlinks State.atomicWaits 0 0 { line := 0, atomic := none } atomicWaits_owned.1
  obtain ⟨t, hexec, -, -, hbanks, -⟩ := hdown rfl
  have hended : t.banks.map (fun b => b.2.resv) = [none] := hostLinkDown_ends_reservation hexec
  rw [hbanks] at hended
  exact absurd hended (by decide)

end Sys2Proof.Proofs
end

-- ==== The management path (O54) ====
section
/-! SUPPORT. The management path: commands, registers, VFs and their reset, firmware and sessions (R142, R342, R344 to R350). -/

namespace Sys2Proof.Machine

-- One proof at a time: the whole text compiles in one process of bounded memory.
set_option Elab.async false

/-! ### Commands -/

section Commands

variable {s : State} {overI3c inSafe : Bool} {f : State → Host.Outcome State Fault Refusal}

theorem command_stopped (h : s.host.stopped = true) : s.command overI3c inSafe f = .next s := by
  unfold State.command
  exact if_pos h

/-- A command that the port or the safe state does not take. -/
theorem command_unsupported (h : s.host.stopped = false)
    (hno : s.cur.port = .i3c ∧ overI3c = false ∨ s.host.safe = true ∧ (inSafe = false ∨ s.cur.port = .i3c)) :
    s.command overI3c inSafe f = .next { s with host := { s.host with status := .unsupported } } := by
  unfold State.command
  rw [if_neg (ne_true_of_eq_false h), if_pos]
  rcases hno with ⟨h1, h2⟩ | ⟨h1, h2 | h2⟩ <;> simp [h1, h2]

/-- A command that every port takes, and the safe state from the mailbox. -/
theorem command_taken (h : s.host.stopped = false) (hport : s.host.safe = false ∨ s.cur.port = .mailbox) :
    s.command true true f = f (completed s) := by
  unfold State.command
  rw [if_neg (ne_true_of_eq_false h), if_neg]
  · rfl
  · rcases hport with h | h <;> simp [h]

end Commands

/-! ### Registers -/

/-- A read of RASSTAT arms vector 1 again. -/
def State.rearmed (s : State) : MgmtReg → State
  | .rasstat d => s.modDie d (fun x => { x with rasRaised := false })
  | _ => s

/-- What a write of a register leaves. -/
def State.regWritten (s : State) (v : Word) : MgmtReg → State
  | .l2part d => s.writeL2part d v
  | .schedcfg d => s.modDie d (fun x => { x with schedcfg := v })
  | .domcfg => { s with host := { s.host with domcfg := v &&& 0x3F#64 } }
  | .ring d r w => s.writeRing d r w v
  | _ => s

theorem regValue_completed (s : State) (r : MgmtReg) : (completed s).regValue r = s.regValue r := by
  cases r <;> rfl

theorem die_withMem (t : State) (m : Mem) (l : List (HeldLine × Nat)) (d : Nat) :
    ({ t with mem := m, dirtyHost := l } : State).die d = t.die d := rfl

theorem banks_withMem (t : State) (m : Mem) (l : List (HeldLine × Nat)) : ({ t with mem := m, dirtyHost := l } : State).banks = t.banks := rfl

theorem writeL2part_banks (s : State) (d : Nat) (v : Word) : (s.writeL2part d v).banks = s.banks := by
  unfold State.writeL2part
  dsimp only
  rw [banks_withMem]
  rfl

theorem writeL2part_l2part (s : State) (d : Nat) (v : Word) : ((s.writeL2part d v).die d).l2part = v &&& 15#64 := by
  unfold State.writeL2part
  dsimp only
  rw [die_withMem, State.die_modDie, if_pos rfl]

section Operating

variable {s : State} (hop : s.operates = true) (hport : s.cur.port = .mailbox)
include hop

theorem not_stopped : s.host.stopped = false ∧ s.host.safe = false := by simpa [State.operates] using hop

include hport

theorem mailbox_runs (overI3c inSafe : Bool) (f : State → Host.Outcome State Fault Refusal) : s.command overI3c inSafe f = f (completed s) :=
  command_runs (not_stopped hop).1 (not_stopped hop).2 hport _ _ _

theorem execRegRead_value {r : MgmtReg} {x : Word} (h : s.regValue r = some x) :
    execRegRead r s = .next (((completed s).answers [x]).rearmed r) := by
  unfold execRegRead
  rw [mailbox_runs hop hport]
  dsimp only
  rw [regValue_completed, h]
  cases r <;> rfl

theorem execReg_none {r : MgmtReg} (h : s.regValue r = none) (v : Word) :
    execRegRead r s = .fault .noAddress ∧ execRegWrite r v s = .fault .noAddress := by
  unfold execRegRead execRegWrite
  rw [mailbox_runs hop hport, mailbox_runs hop hport]
  dsimp only
  rw [regValue_completed, h]
  exact ⟨rfl, rfl⟩

/-- A register that the module has is written. -/
theorem execRegWrite_some {r : MgmtReg} (h : (s.regValue r).isNone = false) (v : Word) :
    execRegWrite r v s = .next ((completed s).regWritten v r) := by
  unfold execRegWrite
  rw [mailbox_runs hop hport]
  dsimp only
  rw [regValue_completed, h]
  cases r <;> rfl

theorem execL2partWrite_die {d : Nat} (hd : d < 4) (v : Word) : execL2partWrite d v s = .next ((completed s).writeL2part d v) := by
  unfold execL2partWrite
  rw [mailbox_runs hop hport]
  exact if_neg (Nat.not_le.mpr hd)

end Operating

/-! ### PF BAR0 -/

theorem execRegisterWrite_value {s : State} {off : Nat} {old : Word} (hrun : s.host.stopped = false) (h : s.barValue off = some old) :
    (∀ v, execRegisterWrite off (some v) s = .next (s.barWrite off v)) ∧ execRegisterWrite off none s = .next (s.answers [old]) := by
  unfold execRegisterWrite
  rw [h]
  exact ⟨fun _ => congrArg _ (if_neg (ne_true_of_eq_false hrun)), congrArg _ (if_neg (ne_true_of_eq_false hrun))⟩

theorem vfWord_at {vf i : Nat} (hvf : vf < 512) (hi : i < 4) : vfWord (0x100000 + 32 * vf + 8 * i) = some (vf, i) := by
  have hpair : (0x100000 + 32 * vf + 8 * i - 0x100000) / 32 = vf ∧ (0x100000 + 32 * vf + 8 * i - 0x100000) % 32 / 8 = i := by omega
  unfold vfWord
  rw [if_pos, hpair.1, hpair.2]
  simp only [Bool.and_eq_true, decide_eq_true_eq]
  omega

theorem barValue_vf (s : State) {vf i : Nat} (hvf : vf < 512) (hi : i < 4) :
    s.barValue (0x100000 + 32 * vf + 8 * i) = some ((s.vf vf).word i) := by
  unfold State.barValue
  dsimp only
  rw [if_neg (by omega), if_neg (by omega), if_neg (by omega), if_neg (by omega), vfWord_at hvf hi]
  rfl

/-- A read of a word of a VF's configuration block. -/
theorem registerRead_vf {s : State} {vf i off : Nat} (hrun : s.host.stopped = false) (hvf : vf < 512) (hi : i < 4)
    (hoff : off = 0x100000 + 32 * vf + 8 * i) : execRegisterWrite off none s = .next (s.answers [(s.vf vf).word i]) := by
  subst hoff
  exact (execRegisterWrite_value hrun (barValue_vf s hvf hi)).2

theorem word_last (f : Vf) : f.word 3 = BitVec.ofNat 64 ((if f.en then 2 ^ 63 else 0) + f.weight * 2 ^ 24 + f.quota) := by
  have hen : b2n f.en * 2 ^ 63 = if f.en then 2 ^ 63 else 0 := by
    unfold b2n
    split
    · exact Nat.one_mul _
    · exact Nat.zero_mul _
  rw [← hen]
  rfl

/-! ### The nests that a reset ends -/

/-- Nests can only go: each that is left was there, of its VF. -/
def NestsFrom (s t : State) : Prop := ∀ n ∈ t.nests, ∃ k ∈ s.nests, k.id = n.id ∧ k.vf = n.vf

theorem NestsFrom.of_eq {s t : State} (h : t.nests = s.nests) : NestsFrom s t := fun n hn => ⟨n, h ▸ hn, rfl, rfl⟩

theorem NestsFrom.trans {s t u : State} (h : NestsFrom s t) (k : NestsFrom t u) : NestsFrom s u := fun n hn => by
  obtain ⟨j, hj, hid, hvf⟩ := k n hn
  obtain ⟨i, hi, hid', hvf'⟩ := h j hj
  exact ⟨i, hi, hid'.trans hid, hvf'.trans hvf⟩

/-- What every step of a fold keeps, the fold keeps. -/
theorem foldl_keeps {α β : Type} {p : State → β} {f : State → α → State} (h : ∀ s x, p (f s x) = p s) (l : List α) (s : State) :
    p (l.foldl f s) = p s := by
  induction l generalizing s with
  | nil => rfl
  | cons x l ih => exact (ih (f s x)).trans (h s x)

theorem NestsFrom.updateLevels (s : State) (d : Nat) : NestsFrom s (s.updateLevels d) := by
  unfold State.updateLevels
  dsimp only
  intro n hn
  obtain ⟨k, hk, rfl⟩ := List.mem_map.mp hn
  refine ⟨k, hk, ?_⟩
  split
  · exact ⟨rfl, rfl⟩
  · split <;> exact ⟨rfl, rfl⟩

theorem NestsFrom.updateAll (s : State) : NestsFrom s s.updateAll :=
  (NestsFrom.updateLevels _ _).trans ((NestsFrom.updateLevels _ _).trans ((NestsFrom.updateLevels _ _).trans (NestsFrom.updateLevels _ _)))

theorem discards_nests {α : Type} (l : List (Nat × α)) (s : State) :
    (l.foldl (fun s b => (s.settle b.1).discardBank b.1) s).nests = s.nests := by
  refine foldl_keeps (p := State.nests) (fun s b => ?_) l s
  have hsettle : (s.settle b.1).nests = s.nests := by
    unfold State.settle
    split <;> rfl
  have hdiscard : ∀ (s : State) (bid : Nat), (s.discardBank bid).nests = s.nests := fun s bid => by
    unfold State.discardBank State.switchAway
    dsimp only
    split <;> rfl
  exact (hdiscard _ _).trans hsettle

theorem NestsFrom.endNest1 (s : State) (id cause : Nat) : NestsFrom s (s.endNest1 id cause) := by
  unfold State.endNest1
  split
  · exact NestsFrom.of_eq rfl
  · rename_i n hn
    dsimp only
    have hdiscards := discards_nests (s.banks.filter (fun b => b.2.runs id)) s
    generalize List.foldl _ s _ = t at hdiscards ⊢
    have hword : (State.writeWord15 { t with saved := t.saved.filter (fun c => !c.2.state.runs id) } n 3 cause).nests = t.nests := by
      have h := (UnitFrame.unitWrite ({ t with saved := t.saved.filter (fun c => !c.2.state.runs id) } : State) n.die n.vf n.recAsid
        (n.recAddr + 120) (leBytes 8 (3 * 2 ^ 56 + cause * 2 ^ 48 + n.done))).rest
      unfold State.writeWord15
      rw [h]
    generalize State.writeWord15 _ n 3 cause = u at hword ⊢
    have hfilter : NestsFrom s (State.gcFaults { u with nests := u.nests.filter (·.id ≠ id) }) := fun k hk => by
      have hk' := (List.mem_filter.mp hk).1
      rw [hword, hdiscards] at hk'
      exact ⟨k, hk', rfl, rfl⟩
    exact hfilter.trans (NestsFrom.updateAll _)

theorem NestsFrom.terminateGo : ∀ (fuel : Nat) (l : List (Nat × Nat)) (s : State), NestsFrom s (State.terminateAll.go fuel l s)
  | 0, _, s => NestsFrom.of_eq rfl
  | _ + 1, [], s => NestsFrom.of_eq rfl
  | fuel + 1, (id, cause) :: rest, s => by
    unfold State.terminateAll.go
    split
    · exact NestsFrom.terminateGo fuel rest s
    · exact (NestsFrom.endNest1 s id cause).trans (NestsFrom.terminateGo fuel _ _)

/-- With fuel for the first nests of a queue of ends, none of them is left. -/
theorem terminateGo_gone : ∀ (l rest : List (Nat × Nat)) (fuel : Nat) (s : State), l.length ≤ fuel →
    ∀ n ∈ (State.terminateAll.go fuel (l ++ rest) s).nests, n.id ∉ l.map (·.1)
  | [], _, _, _, _ => fun _ _ h => by cases h
  | (id, cause) :: l, rest, 0, _, hlen => absurd hlen (Nat.not_succ_le_zero _)
  | (id, cause) :: l, rest, fuel + 1, s, hlen => by
    intro n hn
    rw [List.cons_append] at hn
    unfold State.terminateAll.go at hn
    rw [List.map_cons, List.mem_cons, not_or]
    split at hn
    · rename_i hnone
      refine ⟨fun he => ?_, terminateGo_gone l rest fuel s (Nat.le_of_succ_le_succ hlen) n hn⟩
      obtain ⟨k, hk, hid, -⟩ := NestsFrom.terminateGo _ _ _ n hn
      exact (List.find?_eq_none.mp hnone k hk) (decide_eq_true (hid.trans he))
    · rename_i m hm
      dsimp only at hn
      rw [List.append_assoc] at hn
      refine ⟨fun he => ?_, terminateGo_gone l _ fuel _ (Nat.le_of_succ_le_succ hlen) n hn⟩
      obtain ⟨k, hk, hid, -⟩ := NestsFrom.terminateGo _ _ _ n hn
      have hfound := List.find?_some hm
      have hany : s.nests.any (·.id = id) = true := List.any_eq_true.mpr ⟨m, List.mem_of_find?_eq_some hm, hfound⟩
      exact (endNest1_gone cause hany).1 k hk (hid.trans he)

/-- Every nest of a VF that is reset ends. -/
theorem terminateAll_vf (s : State) (vf cause : Nat) :
    ∀ n ∈ (s.terminateAll ((s.nests.filter (·.vf = vf)).map (·.id)) cause).nests, n.vf ≠ vf := by
  intro n hn hvf
  have hlen : (((s.nests.filter (·.vf = vf)).map (·.id)).map (·, cause)).length ≤ s.nests.length := by
    rw [List.length_map, List.length_map]
    exact List.length_filter_le ..
  unfold State.terminateAll at hn
  have hgone := terminateGo_gone _ [] _ s hlen n (by rw [List.append_nil]; exact hn)
  obtain ⟨k, hk, hid, hkvf⟩ := NestsFrom.terminateGo _ _ _ n hn
  refine hgone (List.mem_map.mpr ⟨(n.id, cause), List.mem_map.mpr ⟨n.id, ?_, rfl⟩, rfl⟩)
  exact List.mem_map.mpr ⟨k, List.mem_filter.mpr ⟨hk, decide_eq_true (hkvf.trans hvf)⟩, hid⟩

/-! ### The objects that a reset frees -/

theorem slot_freeSlots (l : List Nat) (s : State) (i : Nat) :
    (i ∉ l → (l.foldl (fun s i => s.freeSlot i) s).slot i = s.slot i)
    ∧ (i ∈ l → ((l.foldl (fun s i => s.freeSlot i) s).slot i).used = false) := by
  have hfree : ∀ (s : State) (j : Nat), (s.freeSlot j).slot i = if j = i
      then { Slot.init with inc := if ((s.slot j).inc + 1) % 65536 = 0 then 1 else ((s.slot j).inc + 1) % 65536 } else s.slot i :=
    fun s j => PMap.get_put ..
  induction l generalizing s with
  | nil => exact ⟨fun _ => rfl, fun h => by cases h⟩
  | cons j l ih =>
    obtain ⟨hout, hin⟩ := ih (s.freeSlot j)
    rw [List.foldl_cons]
    refine ⟨fun h => ?_, fun h => ?_⟩
    · rw [List.mem_cons, not_or] at h
      rw [hout h.2, hfree, if_neg (Ne.symm h.1)]
    · by_cases hl : i ∈ l
      · exact hin hl
      · rw [hout hl, hfree, if_pos ((List.mem_cons.mp h).resolve_right hl).symm]
        rfl

/-! ### The rings that a reset leaves idle -/

/-- Rings of a VF on a die: none is pending, and the active ones are those listed. -/
def Die.RingsLeft (x : Die) (vf : Nat) (l : List Nat) : Prop :=
  ∀ r, (x.ring r).vf = vf → (x.ring r).pending = false ∧ ((x.ring r).active = true → r ∈ l)

theorem RingsLeft.setRing {x : Die} {vf : Nat} {l : List Nat} (h : x.RingsLeft vf l) (r : Nat) (g : SubRing)
    (hg : g.vf = vf → g.pending = false ∧ (g.active = true → r ∈ l)) : (x.setRing r g).RingsLeft vf l := by
  intro k hk
  rw [Die.ring_setRing] at hk ⊢
  split at hk
  · rename_i hrk
    rw [if_pos hrk]
    subst hrk
    exact hg hk
  · rename_i hrk
    rw [if_neg hrk]
    exact h k hk

theorem RingsLeft.withSlots {x : Die} {vf : Nat} {l : List Nat} (h : x.RingsLeft vf l) (slots : List Nat) :
    ({ x with slots := slots } : Die).RingsLeft vf l := h

theorem nextPending_pending {x : Die} {r : Nat} (h : x.nextPending = some r) : (x.ring r).pending = true := by
  unfold Die.nextPending at h
  have hfound := List.find?_some h
  exact hfound

theorem RingsLeft.grantSlot {x : Die} {vf : Nat} {l : List Nat} (h : x.RingsLeft vf l) (cycle : Nat) : (x.grantSlot cycle).RingsLeft vf l := by
  unfold Die.grantSlot
  split
  · exact h
  · rename_i r hr
    have hpend := nextPending_pending hr
    refine RingsLeft.setRing h r { x.ring r with active := true, pending := false, timer := cycle } fun hvf => ?_
    rw [(h r hvf).1] at hpend
    cases hpend

/-- A ring of the list becomes idle; another ring takes its slot, of another VF. -/
theorem RingsLeft.idleRing {x : Die} {vf r : Nat} {l : List Nat} (h : x.RingsLeft vf (r :: l)) (cycle : Nat) :
    (x.idleRing r cycle).RingsLeft vf l := by
  have hset : (x.setRing r { x.ring r with active := false, pending := false }).RingsLeft vf l := by
    intro k hk
    rw [Die.ring_setRing] at hk ⊢
    split at hk
    · rename_i hrk
      rw [if_pos hrk]
      exact ⟨rfl, fun ha => by cases ha⟩
    · rename_i hrk
      rw [if_neg hrk]
      obtain ⟨hp, ha⟩ := h k hk
      exact ⟨hp, fun hact => (List.mem_cons.mp (ha hact)).resolve_left (Ne.symm hrk)⟩
  unfold Die.idleRing
  dsimp only
  split
  · exact RingsLeft.grantSlot (RingsLeft.withSlots hset _) cycle
  · exact RingsLeft.withSlots hset _

theorem RingsLeft.idleRings {vf cycle : Nat} (l : List Nat) {x : Die} (h : x.RingsLeft vf l) :
    (l.foldl (fun x r => x.idleRing r cycle) x).RingsLeft vf [] := by
  induction l generalizing x with
  | nil => exact h
  | cons r l ih =>
    rw [List.foldl_cons]
    exact ih (RingsLeft.idleRing h cycle)

/-- The rings of a VF that are active or pending on a die. -/
def Die.busyRings (x : Die) (vf : Nat) : List Nat := (x.rings.filter (fun r => r.2.vf = vf && (r.2.active || r.2.pending))).map (·.1)

/-- The rings of a list are pending no longer. -/
def Die.notPending (x : Die) (l : List Nat) : Die :=
  { x with rings := x.rings.map (fun r => (r.1, if l.contains r.1 then { r.2 with pending := false } else r.2)) }

theorem ring_notPending (x : Die) (l : List Nat) (r : Nat) :
    (x.notPending l).ring r = if l.contains r then { x.ring r with pending := false } else x.ring r := by
  unfold Die.notPending Die.ring
  exact PMap.get_map SubRing.init (fun r => (r.1, if l.contains r.1 then { r.2 with pending := false } else r.2)) (fun _ => rfl)
    (fun k => by dsimp only; split <;> rfl) x.rings r

theorem ringsLeft_notPending (x : Die) (vf : Nat) : (x.notPending (x.busyRings vf)).RingsLeft vf (x.busyRings vf) := by
  intro r hr
  rw [ring_notPending] at hr ⊢
  by_cases hc : (x.busyRings vf).contains r = true
  · rw [if_pos hc]
    exact ⟨rfl, fun _ => List.contains_iff_mem.mp hc⟩
  · rw [if_neg hc] at hr ⊢
    have hidle : ¬ ((x.ring r).active || (x.ring r).pending) = true := fun hbusy => hc (List.contains_iff_mem.mpr (by
      have hmem : (r, x.ring r) ∈ x.rings := PMap.mem_of_get fun he => by
        have hinit : x.ring r = SubRing.init := he
        rw [hinit] at hbusy
        cases hbusy
      exact List.mem_map.mpr ⟨_, List.mem_filter.mpr ⟨hmem, by simp only [hr, hbusy, decide_true, Bool.and_self]⟩, rfl⟩))
    rw [Bool.or_eq_true, not_or] at hidle
    exact ⟨Bool.eq_false_iff.mpr hidle.2, fun ha => absurd ha hidle.1⟩

/-- What the loss of its rings by a VF leaves on the die, and on the others. -/
theorem die_idleRings (s : State) (vf d e : Nat) : (s.idleRings vf d).die e = if d = e
    then ((s.die d).busyRings vf).foldl (fun x r => x.idleRing r s.cycle) ((s.die d).notPending ((s.die d).busyRings vf)) else s.die e := by
  have hfold : ∀ (l : List Nat) (t : State), t.cycle = s.cycle → (l.foldl (fun s r => s.modDie d (·.idleRing r s.cycle)) t).die e
      = if d = e then l.foldl (fun x r => x.idleRing r s.cycle) (t.die d) else t.die e := by
    intro l
    induction l with
    | nil =>
      intro t _
      split
      · rename_i h; rw [h]; rfl
      · rfl
    | cons r l ih =>
      intro t ht
      rw [List.foldl_cons, ih (t.modDie d (·.idleRing r t.cycle)) ht, State.die_modDie, State.die_modDie, if_pos rfl, ht]
      split
      · rfl
      · rfl
  unfold State.idleRings
  dsimp only
  refine (hfold _ (s.modDie d (·.notPending ((s.die d).busyRings vf))) rfl).trans ?_
  rw [State.die_modDie, State.die_modDie, if_pos rfl]
  split
  · rfl
  · rfl

theorem idleRing_faults (x : Die) (r cycle : Nat) : (x.idleRing r cycle).faults = x.faults := by
  unfold Die.idleRing Die.grantSlot
  dsimp only
  split
  · split <;> rfl
  · rfl

theorem idleRings_faults (s : State) (vf d e : Nat) : ((s.idleRings vf d).die e).faults = (s.die e).faults := by
  rw [die_idleRings]
  split
  · rename_i h
    subst h
    generalize (s.die d).busyRings vf = l
    have hfold : ∀ (l : List Nat) (x : Die), (l.foldl (fun x r => x.idleRing r s.cycle) x).faults = x.faults := by
      intro l
      induction l with
      | nil => exact fun _ => rfl
      | cons r l ih => exact fun x => (ih _).trans (idleRing_faults x r s.cycle)
    exact hfold _ _
  · rfl

/-! ### Resetting a VF -/

/-- The nests of a VF have ended, and its dies have lost what they held for it. -/
def State.forgotten (s : State) (vf : Nat) : State :=
  let s := s.terminateAll ((s.nests.filter (·.vf = vf)).map (·.id)) 0xF3
  let s := s.dropLines ([0, 1, 2, 3].flatMap (fun d => (s.die d).heldLines.filter (·.vf = vf)))
  [0, 1, 2, 3].foldl (fun (s : State) d => s.modDie d (·.forget vf)) s

/-- The objects of a VF are freed. -/
def State.objectsFreed (s : State) (vf : Nat) : State :=
  ((s.slots.filter (fun e => e.2.used && e.2.vf = vf)).map (·.1)).foldl (fun s i => s.freeSlot i) s

/-- The rings of a VF are idle on every die. -/
def State.ringsIdled (s : State) (vf : Nat) : State := [0, 1, 2, 3].foldl (fun (s : State) d => s.idleRings vf d) s

theorem resetVf_eq (s : State) (vf : Nat) : s.resetVf vf = { ((s.forgotten vf).objectsFreed vf).ringsIdled vf with
    cores := (((s.forgotten vf).objectsFreed vf).ringsIdled vf).cores.map (fun c =>
      (c.1, { c.2 with tlb := c.2.tlb.filter (fun e => e.vf ≠ vf) })) } := rfl

theorem idleRings_rest (s : State) (vf d : Nat) : (s.idleRings vf d).nests = s.nests ∧ (s.idleRings vf d).slots = s.slots := by
  unfold State.idleRings
  exact ⟨foldl_keeps (p := State.nests) (f := fun (s : State) r => s.modDie d (·.idleRing r s.cycle)) (fun _ _ => rfl) _ _,
    foldl_keeps (p := State.slots) (f := fun (s : State) r => s.modDie d (·.idleRing r s.cycle)) (fun _ _ => rfl) _ _⟩

theorem ringsIdled_rest (s : State) (vf : Nat) : (s.ringsIdled vf).nests = s.nests ∧ (s.ringsIdled vf).slots = s.slots :=
  ⟨foldl_keeps (p := State.nests) (fun s d => (idleRings_rest s vf d).1) _ _,
    foldl_keeps (p := State.slots) (fun s d => (idleRings_rest s vf d).2) _ _⟩

theorem objectsFreed_rest (s : State) (vf : Nat) : (s.objectsFreed vf).nests = s.nests ∧ (s.objectsFreed vf).dies = s.dies :=
  ⟨foldl_keeps (p := State.nests) (f := fun (s : State) i => s.freeSlot i) (fun _ _ => rfl) _ _,
    foldl_keeps (p := State.dies) (f := fun (s : State) i => s.freeSlot i) (fun _ _ => rfl) _ _⟩

theorem forgotten_nests (s : State) (vf : Nat) : ∀ n ∈ (s.forgotten vf).nests, n.vf ≠ vf := terminateAll_vf s vf 0xF3

theorem forgotten_faults (s : State) (vf : Nat) {d : Nat} (hd : d < 4) : ∀ r ∈ ((s.forgotten vf).die d).faults, r.2.vf ≠ vf := by
  have hforget : ∀ (l : List Nat) (t : State), (d ∈ l ∨ ∀ r ∈ (t.die d).faults, r.2.vf ≠ vf) →
      ∀ r ∈ ((l.foldl (fun (s : State) d => s.modDie d (·.forget vf)) t).die d).faults, r.2.vf ≠ vf := by
    intro l
    induction l with
    | nil => exact fun t h => h.resolve_left (List.not_mem_nil)
    | cons e l ih =>
      intro t h
      refine ih _ ?_
      rw [State.die_modDie]
      by_cases he : e = d
      · rw [if_pos he]
        exact .inr fun r hr => of_decide_eq_true (List.mem_filter.mp hr).2
      · rw [if_neg he]
        exact h.imp_left fun hm => (List.mem_cons.mp hm).resolve_left (Ne.symm he)
  exact hforget _ _ (.inl (by interval_cases d <;> decide))

theorem objectsFreed_slot (s : State) (vf i : Nat) (hu : ((s.objectsFreed vf).slot i).used = true) : ((s.objectsFreed vf).slot i).vf ≠ vf := by
  obtain ⟨hout, hin⟩ := slot_freeSlots ((s.slots.filter (fun e => e.2.used && e.2.vf = vf)).map (·.1)) s i
  have hnot : i ∉ (s.slots.filter (fun e => e.2.used && e.2.vf = vf)).map (·.1) := fun hmem => by
    have hfreed : ((s.objectsFreed vf).slot i).used = false := hin hmem
    rw [hfreed] at hu
    cases hu
  have hsame : (s.objectsFreed vf).slot i = s.slot i := hout hnot
  rw [hsame] at hu ⊢
  intro hvf
  have hlisted : (i, s.slot i) ∈ s.slots := PMap.mem_of_get fun he => by
    have hinit : s.slot i = Slot.init := he
    rw [hinit] at hu
    cases hu
  exact hnot (List.mem_map.mpr ⟨_, List.mem_filter.mpr ⟨hlisted, by simp only [hu, hvf, decide_true, Bool.and_self]⟩, rfl⟩)

/-- The rings of a VF on the dies listed are idle; the other dies are as they were. -/
theorem idleRings_dies (vf d : Nat) (l : List Nat) (s : State) :
    (d ∉ l → (l.foldl (fun (s : State) d => s.idleRings vf d) s).die d = s.die d)
    ∧ (d ∈ l → ((l.foldl (fun (s : State) d => s.idleRings vf d) s).die d).RingsLeft vf []) := by
  induction l generalizing s with
  | nil => exact ⟨fun _ => rfl, fun h => by cases h⟩
  | cons e l ih =>
    obtain ⟨hout, hin⟩ := ih (s.idleRings vf e)
    rw [List.foldl_cons]
    refine ⟨fun h => ?_, fun h => ?_⟩
    · rw [List.mem_cons, not_or] at h
      rw [hout h.2, die_idleRings, if_neg (Ne.symm h.1)]
    · by_cases hl : d ∈ l
      · exact hin hl
      · rw [hout hl, die_idleRings, if_pos ((List.mem_cons.mp h).resolve_right hl).symm]
        exact RingsLeft.idleRings _ (ringsLeft_notPending _ vf)

theorem ringsIdled_faults (s : State) (vf d : Nat) : ((s.ringsIdled vf).die d).faults = (s.die d).faults :=
  foldl_keeps (p := fun s => (s.die d).faults) (fun s e => idleRings_faults s vf e d) _ s

/-! What a reset leaves. -/

theorem die_withCores (t : State) (c : PMap CoreSt) (d : Nat) : ({ t with cores := c } : State).die d = t.die d := rfl
theorem slot_withCores (t : State) (c : PMap CoreSt) (i : Nat) : ({ t with cores := c } : State).slot i = t.slot i := rfl

theorem resetVf_nests (s : State) (vf : Nat) : ∀ n ∈ (s.resetVf vf).nests, n.vf ≠ vf := by
  rw [resetVf_eq]
  dsimp only
  rw [(ringsIdled_rest _ vf).1, (objectsFreed_rest _ vf).1]
  exact forgotten_nests s vf

theorem resetVf_slot (s : State) (vf i : Nat) (hu : ((s.resetVf vf).slot i).used = true) : ((s.resetVf vf).slot i).vf ≠ vf := by
  have hslot : (s.resetVf vf).slot i = ((s.forgotten vf).objectsFreed vf).slot i := by
    rw [resetVf_eq, slot_withCores]
    unfold State.slot
    rw [(ringsIdled_rest _ vf).2]
  rw [hslot] at hu ⊢
  exact objectsFreed_slot _ vf i hu

theorem resetVf_die (s : State) (vf d : Nat) : (s.resetVf vf).die d = (((s.forgotten vf).objectsFreed vf).ringsIdled vf).die d := by
  rw [resetVf_eq, die_withCores]

theorem resetVf_faults (s : State) (vf : Nat) {d : Nat} (hd : d < 4) : ∀ r ∈ ((s.resetVf vf).die d).faults, r.2.vf ≠ vf := by
  have hdie : ((s.forgotten vf).objectsFreed vf).die d = (s.forgotten vf).die d :=
    congrArg (fun m => PMap.get (Die.init d) m d) (objectsFreed_rest _ vf).2
  rw [resetVf_die, ringsIdled_faults, hdie]
  exact forgotten_faults s vf hd

theorem resetVf_rings (s : State) (vf : Nat) {d : Nat} (hd : d < 4) (r : Nat) (hr : (((s.resetVf vf).die d).ring r).vf = vf) :
    (((s.resetVf vf).die d).ring r).active = false ∧ (((s.resetVf vf).die d).ring r).pending = false := by
  have hleft := (idleRings_dies vf d [0, 1, 2, 3] ((s.forgotten vf).objectsFreed vf)).2 (by interval_cases d <;> decide)
  rw [resetVf_die] at hr ⊢
  obtain ⟨hpend, hact⟩ := hleft r hr
  exact ⟨Bool.eq_false_iff.mpr fun ha => List.not_mem_nil (hact ha), hpend⟩

/-! ### VFs -/

theorem genOf_enabled (s : State) (vf w : Nat) (name : Word) (u : State) (hu : u.nameGen = s.nameGen.filter (fun e => e.1.1 ≠ vf)) :
    u.genOf w name = if w = vf then 0 else s.genOf w name := by
  unfold State.genOf
  rw [hu, List.find?_filter]
  split
  · rename_i hw
    rw [List.find?_eq_none.mpr]
    · rfl
    · intro e _ he
      simp only [decide_eq_true_eq, ne_eq, decide_not, Bool.not_eq_true', decide_eq_false_iff_not] at he
      exact he.1 (by rw [he.2]; exact hw)
  · rename_i hw
    refine congrArg (fun o => (Option.map (·.2) o).getD 0) (congrArg (fun p => List.find? p s.nameGen) (funext fun e => ?_))
    rw [Bool.eq_iff_iff]
    simp only [decide_eq_true_eq, ne_eq, decide_not, Bool.not_eq_true', decide_eq_false_iff_not]
    exact ⟨fun h => h.2, fun h => ⟨by rw [h]; exact hw, h⟩⟩

theorem tdisp_session {s : State} {vf : Nat} (hop : s.operates = true) (hvf : vf < 512) (hs : s.host.session.isSome = true) (f : Tdi → Tdi) :
    s.tdisp vf f = .next (s.setTdi vf (f (s.vf vf).tdi)) := by
  unfold State.tdisp
  rw [if_pos]
  simp [hop, hvf, hs]

theorem execVf_pf {s : State} {vf : Nat} (hrun : s.host.stopped = false) (hvf : vf < 512) :
    execVfEnable vf s = .next (s.pfWriteVf vf (·.enableVf vf)) ∧ execVfReset vf s = .next (s.pfWriteVf vf (·.resetVf vf)) := by
  unfold execVfEnable execVfReset
  rw [if_neg (Nat.not_le.mpr hvf), if_neg (Nat.not_le.mpr hvf), if_neg (ne_true_of_eq_false hrun), if_neg (ne_true_of_eq_false hrun)]
  exact ⟨rfl, rfl⟩

theorem pfWriteVf_frozen {s : State} {vf : Nat} (h : s.frozen vf = true) (f : State → State) : s.pfWriteVf vf f = s.tdispError vf := if_pos h
theorem pfWriteVf_open {s : State} {vf : Nat} (h : s.frozen vf = false) (f : State → State) : s.pfWriteVf vf f = f s :=
  if_neg (ne_true_of_eq_false h)

/-- The state in which a VF has been enabled. -/
def State.vfEnabled (s : State) (vf : Nat) : State :=
  { s.setVf vf { s.vf vf with en := true, gen := 1 } with nameGen := s.nameGen.filter (fun e => e.1.1 ≠ vf) }

theorem enableVf_off {s : State} {vf : Nat} (hsafe : s.host.safe = false) (h : (s.vf vf).en = false) : s.enableVf vf = s.vfEnabled vf := by
  unfold State.enableVf
  exact if_neg (by rw [hsafe, h]; exact Bool.false_ne_true)

/-! ### The commands of the management path -/

/-- The commands that only the mailbox takes, and not in the safe state. -/
theorem exec_mailboxOnly (s : State) (r : MgmtReg) (v : Word) (d n : Nat) (bs : List Byte) :
    ∀ i ∈ [Instr.regWrite r v, .flashLoad n bs, .quiesce, .linkrecAccept d, .linkrecDiscard d, .linklog d, .l2partWrite d v],
      ∃ f, exec i s = s.command false false f := by
  simp only [List.mem_cons, List.not_mem_nil, or_false]
  rintro i (rfl | rfl | rfl | rfl | rfl | rfl | rfl)
  · exact ⟨_, execRegWrite.eq_1 r v s⟩
  · exact ⟨_, execFlashLoad.eq_1 n bs s⟩
  · exact ⟨_, execQuiesce.eq_1 s⟩
  · exact ⟨_, execLinkrecAccept.eq_1 d s⟩
  · exact ⟨_, execLinkrecDiscard.eq_1 d s⟩
  · exact ⟨_, execLinklog.eq_1 d s⟩
  · exact ⟨_, execL2partWrite.eq_1 d v s⟩

theorem exec_managementPath (s : State) (r : MgmtReg) (v : Word) (d n : Nat) (bs : List Byte) :
    ∀ i ∈ [Instr.regWrite r v, .flashLoad n bs, .quiesce, .linkrecAccept d, .linkrecDiscard d, .linklog d, .l2partWrite d v]
      ++ [.regRead r, .rsvdRead n d, .fwStage bs, .fwActivate], ∃ i3c inSafe f, exec i s = s.command i3c inSafe f := by
  intro i hi
  rcases List.mem_append.mp hi with hi | hi
  · obtain ⟨f, hf⟩ := exec_mailboxOnly s r v d n bs i hi
    exact ⟨_, _, f, hf⟩
  · simp only [List.mem_cons, List.not_mem_nil, or_false] at hi
    rcases hi with rfl | rfl | rfl | rfl
    · exact ⟨_, _, _, execRegRead.eq_1 r s⟩
    · exact ⟨_, _, _, execRsvdRead.eq_1 n d s⟩
    · exact ⟨_, _, _, execFwStage.eq_1 bs s⟩
    · exact ⟨_, _, _, execFwActivate.eq_1 s⟩

/-! ### Firmware -/

section Firmware

variable {s : State} (hrun : s.host.stopped = false) (hport : s.host.safe = false ∨ s.cur.port = .mailbox)
include hrun hport

theorem execFwStage_good {image : List Byte} (hform : fwForm image = true) (hsig : fwSigned image = true) (hver : s.host.fwMin ≤ fwVersion image) :
    execFwStage image s = .next (if s.host.fwActive = 0
      then { completed s with host := { (completed s).host with fw1 := image, fwStaged := true } }
      else { completed s with host := { (completed s).host with fw0 := image, fwStaged := true } }) := by
  unfold execFwStage
  rw [command_taken hrun hport]
  dsimp only
  refine congrArg _ ((if_neg ?_).trans rfl)
  rw [hform, hsig]
  exact fun h => absurd (of_decide_eq_true h) (Nat.not_lt.mpr hver)

theorem execFwStage_bad {image : List Byte} (hbad : fwForm image = false ∨ fwSigned image = false ∨ fwVersion image < s.host.fwMin) :
    execFwStage image s = .next (completed s) := by
  unfold execFwStage
  rw [command_taken hrun hport]
  dsimp only
  refine congrArg _ (if_pos ?_)
  rcases hbad with h | h | h
  · simp [h]
  · simp [h]
  · simp only [Bool.or_eq_true, decide_eq_true_eq]
    exact .inr h

theorem execFwActivate_takes : execFwActivate s
    = .next (if s.host.fwStaged then { completed s with host := { (completed s).host with fwPending := true } } else completed s) := by
  unfold execFwActivate
  rw [command_taken hrun hport]
  rfl

end Firmware

end Sys2Proof.Machine

namespace Sys2Proof.Proofs
open Sys2Proof Sys2Proof.Machine

theorem managementRegisters : Claim.ManagementRegisters := by
  unfold Claim.ManagementRegisters
  intro s r v d hop hport write
  have hrun := (not_stopped hop).1
  refine ⟨fun x hx => ⟨_, execRegRead_value hop hport hx, ?_⟩, fun hnone => execReg_none hop hport hnone v,
    execRegWrite_some hop hport (r := .domcfg) rfl v, execRegWrite_some hop hport (r := .dtstat) rfl v,
    execRegWrite_some hop hport (r := .tstat) rfl v, execRegWrite_some hop hport (r := .biststat) rfl v, fun hd => ?_, fun _ => ?_,
    fun err ref _ => ?_⟩
  · cases r
    case rasstat k =>
      refine ⟨rfl, rfl, rfl, rfl, fun j hj => ?_⟩
      cases hj
      have hdie := State.die_modDie ((completed s).answers [x]) k k (fun x => { x with rasRaised := false })
      rw [if_pos rfl] at hdie
      exact congrArg Die.rasRaised hdie
    all_goals exact ⟨rfl, rfl, rfl, rfl, fun _ h => by cases h⟩
  · have hhas : ∀ x : Word, (if d < 4 then some x else none).isNone = false := fun x => by rw [if_pos hd]; rfl
    refine ⟨execRegWrite_some hop hport (r := .schedcfg d) (hhas _) v, execRegWrite_some hop hport (r := .caps d) (hhas _) v,
      execRegWrite_some hop hport (r := .rasstat d) (hhas _) v, ?_, _, execL2partWrite_die hop hport hd v, ?_, writeL2part_banks _ d v⟩
    · exact (execRegWrite_some hop hport (r := .l2part d) (hhas _) v).trans (execL2partWrite_die hop hport hd v).symm
    · exact writeL2part_l2part (completed s) d v
  · obtain ⟨hbase, hbaseR⟩ := execRegisterWrite_value hrun (s := s) (off := 0x1000) rfl
    obtain ⟨hlog, hlogR⟩ := execRegisterWrite_value hrun (s := s) (off := 0x1008) rfl
    obtain ⟨htail, htailR⟩ := execRegisterWrite_value hrun (s := s) (off := 0x1010) rfl
    obtain ⟨hhead, hheadR⟩ := execRegisterWrite_value hrun (s := s) (off := 0x1018) rfl
    refine ⟨hbase v, hlog v, htail v, hhead v, hbaseR, hlogR, htailR, hheadR, fun vf hvf => ?_⟩
    refine ⟨registerRead_vf hrun hvf (i := 0) (by decide) rfl, registerRead_vf hrun hvf (i := 1) (by decide) rfl,
      registerRead_vf hrun hvf (i := 2) (by decide) rfl, ?_⟩
    rw [← word_last]
    exact registerRead_vf hrun hvf (i := 3) (by decide) rfl
  · change execTstatLockChange err ref s = _
    unfold execTstatLockChange
    rw [if_neg (ne_true_of_eq_false hrun)]

theorem virtualFunctions : Claim.VirtualFunctions := by
  unfold Claim.VirtualFunctions
  intro s vf hop hvf
  obtain ⟨hrun, hsafe⟩ := not_stopped hop
  obtain ⟨henable, hreset⟩ := execVf_pf hrun hvf
  refine ⟨fun hopen hoff => ⟨s.vfEnabled vf, ?_, ?_, ?_, fun n => ?_, fun w n hw => ⟨?_, ?_⟩, rfl⟩,
    fun hopen => ?_, fun hfrozen => ⟨?_, ?_⟩, ?_, ?_, fun hs => ?_⟩
  · exact henable.trans (congrArg _ ((pfWriteVf_open hopen _).trans (enableVf_off hsafe hoff)))
  · exact congrArg Vf.en ((State.vf_setVf s vf vf _).trans (if_pos rfl))
  · exact congrArg Vf.gen ((State.vf_setVf s vf vf _).trans (if_pos rfl))
  · exact (genOf_enabled s vf vf n (s.vfEnabled vf) rfl).trans (if_pos rfl)
  · exact (State.vf_setVf s vf w _).trans (if_neg (Ne.symm hw))
  · exact (genOf_enabled s vf w n (s.vfEnabled vf) rfl).trans (if_neg hw)
  · exact hreset.trans (congrArg _ (pfWriteVf_open hopen _))
  · exact hreset.trans (congrArg _ (pfWriteVf_frozen hfrozen _))
  · exact henable.trans (congrArg _ (pfWriteVf_frozen hfrozen _))
  · change execFlr vf s = _
    unfold execFlr
    rw [if_neg (Nat.not_le.mpr hvf), if_pos hop]
  · exact ⟨resetVf_nests s vf, resetVf_slot s vf, fun d hd => ⟨resetVf_faults s vf hd, resetVf_rings s vf hd⟩⟩
  · refine ⟨fun ht => ?_, fun ht => ?_, tdisp_session hop hvf hs (fun _ => .unlocked)⟩
    · refine (tdisp_session hop hvf hs _).trans ?_
      rw [if_pos ht]
      rfl
    · refine (tdisp_session hop hvf hs _).trans ?_
      rw [if_pos ht]
      rfl

theorem firmwareAndKeys : Claim.FirmwareAndKeys := by
  unfold Claim.FirmwareAndKeys
  intro s image port key hrun hport staged d
  refine ⟨fun hform hsig hver => ⟨fun h0 => ?_, fun h1 => ?_⟩, fun hbad => execFwStage_bad hrun hport hbad,
    fun hs => ?_, fun hs => ?_, ⟨Config.sessionKey s.ticks, ?_⟩,
    fun hs hp => ?_, ?_, rfl⟩
  · exact (execFwStage_good hrun hport hform hsig hver).trans (congrArg _ (if_pos h0))
  · exact (execFwStage_good hrun hport hform hsig hver).trans (congrArg _ (if_neg h1))
  · exact (execFwActivate_takes hrun hport).trans (congrArg _ (if_pos hs))
  · exact (execFwActivate_takes hrun hport).trans (congrArg _ (if_neg (ne_true_of_eq_false hs)))
  · exact congrArg _ (if_neg (ne_true_of_eq_false hrun))
  · refine congrArg _ (if_neg ?_)
    simp [hrun, hp, Option.isSome_iff_ne_none.mp hs]
  · exact congrArg _ (if_neg (ne_true_of_eq_false hrun))

theorem commandStatus : Claim.CommandStatus := by
  unfold Claim.CommandStatus
  intro s r v d n bs refused mailboxOnly
  refine ⟨fun hrun hport i hi => ?_, fun hrun hsafe i hi => ?_, fun hrun hsafe hport i hi => ?_, fun hstop i hi => ?_⟩
  · obtain ⟨f, hf⟩ := exec_mailboxOnly s r v d n bs i hi
    exact hf.trans (command_unsupported hrun (.inl ⟨hport, rfl⟩))
  · obtain ⟨f, hf⟩ := exec_mailboxOnly s r v d n bs i hi
    exact hf.trans (command_unsupported hrun (.inr ⟨hsafe, .inl rfl⟩))
  · obtain ⟨i3c, inSafe, f, hf⟩ := exec_managementPath s r v d n bs i hi
    exact hf.trans (command_unsupported hrun (.inr ⟨hsafe, .inr hport⟩))
  · obtain ⟨i3c, inSafe, f, hf⟩ := exec_managementPath s r v d n bs i hi
    exact hf.trans (command_stopped hstop)

/-- Settles O54: the commands that are taken and refused, each register, the reset of a VF by its parts, and firmware. -/
theorem management : Obligations.Management := ⟨managementRegisters, virtualFunctions, firmwareAndKeys, commandStatus⟩

end Sys2Proof.Proofs
end
